-- ==== Sys2Proof/Word.lean ====
section
/-! DEFINITION. The byte and word types, and the four-fold container for lanes and reader ports. -/

namespace Sys2Proof

/-- One byte, as station memory and the reader lines carry it (R43, R188). -/
abbrev Byte := BitVec 8

/-- One 16-bit word of the host bus (R188). -/
abbrev Word := BitVec 16

/-- Four like things, numbered 0 to 3: the lanes and the reader ports. -/
structure Quad (α : Type) where
  q0 : α
  q1 : α
  q2 : α
  q3 : α
  deriving DecidableEq, Repr

/-- The thing numbered `i`. -/
def Quad.get {α : Type} (q : Quad α) (i : Fin 4) : α :=
  match i with
  | 0 => q.q0
  | 1 => q.q1
  | 2 => q.q2
  | 3 => q.q3

/-- `q` with the thing numbered `i` replaced. -/
def Quad.set {α : Type} (q : Quad α) (i : Fin 4) (x : α) : Quad α :=
  match i with
  | 0 => { q with q0 := x }
  | 1 => { q with q1 := x }
  | 2 => { q with q2 := x }
  | 3 => { q with q3 := x }

/-- Every thing changed by a function of its number. -/
def Quad.mapIdx {α : Type} (f : Fin 4 → α → α) (q : Quad α) : Quad α :=
  ⟨f 0 q.q0, f 1 q.q1, f 2 q.q2, f 3 q.q3⟩

/-- The numbers of the lanes, and of the ports, in ascending order. -/
def allFour : List (Fin 4) := [0, 1, 2, 3]

end Sys2Proof
end

