-- ==== Sys2Proof/Config.lean ====
section
/-! DEFINITION. Free values: what the manual leaves open and no proof may see. -/

namespace Sys2Proof

/-- How far, in words from address 0, the power-on fill has come when the n-th host write taken during
a fill arrives (R194 leaves the pace of the fill open). Log entry 8. -/
opaque Config.fillReach : Nat → Nat

/-- How many visits the restart scan has made when the n-th host write taken during a scan arrives
(R195 leaves the pace of the scan open). Log entry 9. -/
opaque Config.scanReach : Nat → Nat

/-- Whether a SET_LANE taken while QUIETING waits at a PASSING or CAPTURING lane, as R91, R104 and R165 say, or becomes
pending at once, as R90's row says: the spec sets neither aside. Log entry 45. -/
opaque Config.quietingWaits : Bool

end Sys2Proof
end

