-- ==== Sys2Proof/Syntax.lean ====
section
/-! DEFINITION. The commands of the OG-418: one constructor per row of spec/opcode_table.json. -/

namespace Sys2Proof

/-- One byte as a reader line delivers it: its value, and whether its stop bit was bad (R47). -/
structure LineByte where
  value : Byte
  broken : Bool
  deriving DecidableEq, Repr

/-- The commands and events of the part. A lane or a port is numbered 0 to 3, an order slot 0 to 31. -/
inductive Instr where
  /-- POWER_ON_RESET (R194). -/
  | powerOnReset
  /-- PIN_RESET (R195). -/
  | pinReset
  /-- FILL_DONE (R194), with the six strap pins as read at the end of the reset: bit n is LIFTn, bit 5 LIFTP (R199). -/
  | fillDone (straps : BitVec 6)
  /-- RESTART_SCAN_DONE (R195), with the six strap pins as read at the end of the reset (R199). -/
  | restartScanDone (straps : BitVec 6)
  /-- TICK (R25), with the levels of SENSE0 to SENSE15 as sampled at this tick (R86). -/
  | tick (sense : BitVec 16)
  /-- ROLLOVER (R37): the tick's end-of-day addition is taken. -/
  | rollover
  /-- WINDOW_END (R117). -/
  | windowEnd
  /-- TAP (R50): the line delivers a TAP frame with these payload fields. -/
  | tap (port : Fin 4) (quality : Byte) (stamp : Word) (uid : List Byte)
  /-- GONE (R51): the line delivers a GONE frame of this UID. -/
  | gone (port : Fin 4) (uid : List Byte)
  /-- STATUS (R52): the line delivers a STATUS frame with this status byte. -/
  | status (port : Fin 4) (code : Byte)
  /-- BAD_FRAME (R45, R47): the line delivers these bytes as they stand. -/
  | badFrame (port : Fin 4) (line : List LineByte)
  /-- MALFORMED_FRAME (R49): the line delivers a well-summed frame with this body (kind and payload). -/
  | malformedFrame (port : Fin 4) (body : List Byte)
  /-- GAP_TIMEOUT (R46). -/
  | gapTimeout (port : Fin 4)
  /-- SILENT (R53). -/
  | silent (port : Fin 4)
  /-- SHOW_END (R55). -/
  | showEnd (port : Fin 4)
  /-- TAP_TAKE (R59). -/
  | tapTake
  /-- GRANT_WINDOW (R71). -/
  | grantWindow (lane : Fin 4)
  /-- HOLD_LIMIT (R72). -/
  | holdLimit (lane : Fin 4)
  /-- REFERRAL_TIMEOUT (R81). -/
  | referralTimeout (lane : Fin 4)
  /-- SWEEP (R202): the sweep that is due starts, or the running sweep's visit passes over a slot. -/
  | sweep
  /-- INSERT_PASS (R9): the sweep's visit takes this order from the slot. -/
  | insertPass (slot : Fin 32)
  /-- AMEND_PASS (R13). -/
  | amendPass (slot : Fin 32)
  /-- REMOVE_PASS (R14). -/
  | removePass (slot : Fin 32)
  /-- READ_PASS (R15). -/
  | readPass (slot : Fin 32)
  /-- DECLINE_REFERRAL (R80). -/
  | declineReferral (slot : Fin 32)
  /-- SETTLE_PASS_QUOTE (R157). -/
  | settlePassQuote (slot : Fin 32)
  /-- SETTLE_PASS_FINAL (R158). -/
  | settlePassFinal (slot : Fin 32)
  /-- STAGE_PRODUCT (R19). -/
  | stageProduct (slot : Fin 32)
  /-- WITHDRAWAL_SCAN (R23): the step of the running scan that is due at this tick. -/
  | withdrawalScan
  /-- POST_CLOSURE (R138). -/
  | postClosure (slot : Fin 32)
  /-- CREDIT_SWEEP (R142): the running sweep's next visit, of one slot, where its tick has come. -/
  | creditSweep
  /-- SET_TIME (R33). -/
  | setTime (slot : Fin 32)
  /-- SET_LANE (R90). -/
  | setLane (slot : Fin 32)
  /-- MAP_INPUTS (R87). -/
  | mapInputs (slot : Fin 32)
  /-- FREE_FLOW_ON (R105). -/
  | freeFlowOn (slot : Fin 32)
  /-- FREE_FLOW_OFF (R107). -/
  | freeFlowOff (slot : Fin 32)
  /-- UNKNOWN_KIND (R202). -/
  | unknownKind (slot : Fin 32)
  /-- RUN_REQUEST (R196): a host write of 0x0001 to RUN. -/
  | runRequest
  /-- QUIET_REQUEST (R197): a host write of 0x0002 to RUN. -/
  | quietRequest
  /-- ATTN_CLEAR (R191): a host write of this value to ATTN. -/
  | attnClear (value : Word)
  /-- ATTN_MASK_WRITE (R191): a host write of this value to ATTN_MASK. -/
  | attnMaskWrite (value : Word)
  /-- REGISTER_WRITE (R193): a host bus write with RS as given, this address and value. RS high selects the
  registers; RS low selects station memory by word address (R188, log entry 2). -/
  | registerWrite (rs : Bool) (address : BitVec 17) (value : Word)
  /-- PRESENCE_SAMPLE (R198). -/
  | presenceSample
  /-- JOURNAL_READ_INDEX (R207): a host write of this value to the header's journal read index word. -/
  | journalReadIndex (value : Word)
  /-- INDEX_PULSE (R97): the arm's debounced level goes from inactive to active. -/
  | indexPulse (lane : Fin 4)
  /-- ENTRY_BEAM_BLOCK (R96). -/
  | entryBeamBlock (lane : Fin 4)
  /-- ENTRY_BEAM_CLEAR (R71). -/
  | entryBeamClear (lane : Fin 4)
  /-- EXIT_BEAM_BLOCK (R99). -/
  | exitBeamBlock (lane : Fin 4)
  /-- EXIT_BEAM_CLEAR (R98). -/
  | exitBeamClear (lane : Fin 4)
  /-- PASSING_END (R98). -/
  | passingEnd (lane : Fin 4)
  /-- SETTLE (R94). -/
  | settle (lane : Fin 4)
  /-- BEAM_STUCK (R95), for the exit beam or the entry beam. -/
  | beamStuck (lane : Fin 4) (exit : Bool)
  /-- SWITCH_STUCK (R103). -/
  | switchStuck (lane : Fin 4)
  /-- DUCK_WATCH_CLOSE (R101). -/
  | duckWatchClose (lane : Fin 4)
  /-- CAPTURE_SWITCH_ACTIVATION (R166). -/
  | captureSwitchActivation (lane : Fin 4)
  /-- CAPTURE_SWITCH_RELEASE (R103). -/
  | captureSwitchRelease (lane : Fin 4)
  /-- CAPTURE_TIMEOUT (R167). -/
  | captureTimeout (lane : Fin 4)
  /-- EVACUATE (R108): the pin is sampled high after being sampled low. -/
  | evacuate
  /-- EVACUATE_LOW (R109): the pin is sampled low. -/
  | evacuateLow
  /-- LOCK_PULSE_END (R185). -/
  | lockPulseEnd (lane : Fin 4)
  /-- CUE_ENTRY (R177). -/
  | cueEntry (lane : Fin 4)
  /-- FRAME_DROPPED_FOR_LENGTH (R44): the line delivers a SYNC byte and then this length byte. -/
  | frameDroppedForLength (port : Fin 4) (length : Byte)
  deriving DecidableEq, Repr

end Sys2Proof
end

