-- ==== Sys2Proof/WellFormed.lean ====
section
/-! DEFINITION. Which commands are well formed: the operands are such that the row's event is what they spell.
The meanings do not assume it: they do what the part does with whatever arrives. -/

namespace Sys2Proof

/-- A UID as readers and orders carry it has 4, 7 or 10 bytes (R2, R49). -/
def uidLengthOk (n : Nat) : Bool := n = 4 || n = 7 || n = 10

/-- A body that R49 accepts as a TAP, GONE or STATUS frame. -/
def bodyIsValidFrame : List Byte → Bool
  | 0x01 :: q :: _ :: _ :: n :: uid => q.toNat ≤ 3 && uidLengthOk n.toNat && uid.length = n.toNat
  | 0x02 :: n :: uid => uidLengthOk n.toNat && uid.length = n.toNat
  | [0x03, s] => s = 0x00 || s = 0x01
  | _ => false

/-- The check on operands: a TAP, GONE or STATUS command spells a valid frame (R49); a MALFORMED_FRAME body has
1 to 24 bytes and is none of them; a BAD_FRAME delivers at least one byte; a dropped length byte is 0 or above
24 (R44); a REGISTER_WRITE with RS high names no write that has a row of its own (R193). -/
def Instr.wellFormed : Instr → Bool
  | .tap _ q _ uid => q.toNat ≤ 3 && uidLengthOk uid.length
  | .gone _ uid => uidLengthOk uid.length
  | .status _ c => c = 0x00 || c = 0x01
  | .malformedFrame _ body => 1 ≤ body.length && body.length ≤ 24 && !bodyIsValidFrame body
  | .badFrame _ line => !line.isEmpty
  | .frameDroppedForLength _ n => n.toNat = 0 || 24 < n.toNat
  | .registerWrite rs a v =>
    !rs || a.toNat % 4 = 0 || (a.toNat % 4 = 3 && v.toNat ≠ 1 && v.toNat ≠ 2)
  | _ => true

end Sys2Proof
end

