-- ==== Sys2Proof/Decode.lean ====
section
/-! DEFINITION. The table gives no row of this block any bits (every row's "fields" is empty), so no word spells a
command. -/

namespace Sys2Proof

/-- The command that a word spells by the table's bits: none, since no row gives bits. -/
def decodeTableWord (_nbits _w : Nat) : Option Instr := none

end Sys2Proof
end

