-- ==== Sys2Proof/Machine/State.lean ====
section
/-! DEFINITION. The state of the OG-418 as plain data, its fault and refusal reasons, and the state after reset.
Field names follow the manual; each docstring names the rule that gives the state. -/

namespace Sys2Proof.Machine

/-- Station memory (R188): (byte address, byte) cells in one canonical form, addresses strictly rising and no zero
byte listed. An unlisted address reads 0: R194 for the filled region, log entry 10 for the host scratch. -/
abbrev Memory := List Host.Cell

/-! ### The station -/

/-- The four station states (Table 6). -/
inductive StationState where
  | starting
  | quiet
  | running
  | quieting
  deriving DecidableEq, Repr

/-- What STARTING is doing: the power-on fill (R194) or the restart scan (R195). -/
inductive StartPhase where
  | fill
  | scan
  deriving DecidableEq, Repr

/-- The option values in force (R190). -/
structure Options where
  divider : Nat
  sweepPeriod : Nat
  presenceLimit : Nat
  referralTimeout : Nat
  captureTimeout : Nat
  windowLength : Nat
  deriving DecidableEq, Repr

/-- The defaults, in force after either reset (R189, R190). -/
def Options.default : Options := ⟨24000, 4, 10, 800, 5000, 15⟩

/-! ### Products and settlement figures -/

/-- The kinds of product (R17). -/
inductive ProductKind where
  | none
  | days
  | rides
  | season
  deriving DecidableEq, Repr

/-- The figures of a settlement as R148 lists them for a capture context. `unused` is n of R152 for DAYS and
left′ of R153 for RIDES. -/
structure Figures where
  kind : ProductKind
  paid : Nat
  unused : Nat
  phi : Nat
  gross : Nat
  scaled : Nat
  net : Nat
  fee : Nat
  rounding : Nat
  refund : Nat
  deriving DecidableEq, Repr

/-! ### Lanes -/

/-- Lane roles (R88). -/
inductive LaneRole where
  | down
  | entry
  | ret
  deriving DecidableEq, Repr

/-- Lock drives (R88, R184, R185). -/
inductive LockDrive where
  | level
  | pulse (width : Nat)
  deriving DecidableEq, Repr

/-- A lane configuration (R88). The cue map gives, for the thirteen outcomes in Table 12's order, a list or NONE. -/
structure LaneConfig where
  role : LaneRole
  grantWindow : Nat
  holdLimit : Nat
  drive : LockDrive
  port : Fin 4
  cueMap : List (Option (Fin 32))
  deriving DecidableEq, Repr

/-- The polarities of a source (R85). -/
inductive Polarity where
  | activeHigh
  | activeLow
  deriving DecidableEq, Repr

/-- A source that names a pin (R85). -/
structure Source where
  pin : Fin 16
  polarity : Polarity
  debounce : Nat
  deriving DecidableEq, Repr

/-- One sensing role of one lane: its source (none is NONE), debounced level and hold count (R85, R86). A hold
count that has reached the debounce time is an edge waiting to be taken (log entry 6). -/
structure Input where
  source : Option Source
  level : Bool
  hold : Nat
  deriving DecidableEq, Repr

/-- The grant record (R67), with the window count (R71) and the exit-block count (R99). -/
structure Grant where
  slot : Nat
  uid : List Byte
  tick : Nat
  willConsume : Bool
  windowCount : Nat
  grantWindow : Nat
  holdLimit : Nat
  exitBlocks : Nat
  deriving DecidableEq, Repr

/-- The referral record (R76). -/
structure Referral where
  uid : List Byte
  stamp : Nat
  tick : Nat
  port : Fin 4
  deriving DecidableEq, Repr

/-- The passage record (R97) with the exit-block count carried over from the grant (R99). -/
structure Passage where
  slot : Nat
  uid : List Byte
  tick : Nat
  exitBlocks : Nat
  deriving DecidableEq, Repr

/-- The capture context (R148). -/
structure Capture where
  slot : Nat
  uid : List Byte
  figures : Figures
  tick : Nat
  timeout : Nat
  deriving DecidableEq, Repr

/-- Fault causes (R95, R103); a stuck beam is named. -/
inductive FaultCause where
  | beamStuck (exit : Bool)
  | switchStuck
  deriving DecidableEq, Repr

/-- Lane states with what the lane holds in each (R93, R103): the settle timer, the duck watch's tick, the records. -/
inductive LaneState where
  | down
  | arming (settle : Nat)
  | ready (watch : Option Nat)
  | referred (r : Referral)
  | granted (g : Grant)
  | passing (p : Passage)
  | free
  | fault (c : FaultCause)
  | capturing (c : Capture)
  deriving DecidableEq, Repr

/-- The thirteen outcomes of the cue map, in Table 12's order. -/
inductive CueOutcome where
  | ready
  | grant
  | deny
  | void
  | forced
  | tailgate
  | duck
  | free
  | fault
  | noReader
  | returnCapture
  | returnDone
  | refundNone
  deriving DecidableEq, Repr

/-- Targets of a cue entry (R173). -/
inductive CueTarget where
  | stop
  | green
  | red
  | amber
  | buzzer
  deriving DecidableEq, Repr

/-- A cue entry as the part reads it (R173). -/
structure CueEntry where
  offset : Nat
  target : CueTarget
  value : Nat
  deriving DecidableEq, Repr

/-- What a RUNNING Cue Sequencer holds (R176). -/
structure Cue where
  entries : List CueEntry
  repeats : Bool
  list : Fin 32
  outcome : CueOutcome
  position : Nat
  start : Nat
  deriving DecidableEq, Repr

/-- The four output levels of a lane (R180). -/
structure Levels where
  green : Nat
  red : Nat
  amber : Nat
  buzzer : Nat
  deriving DecidableEq, Repr

/-- The eight counts of a flow window, in flow record order (R113, R114). -/
structure Counts where
  paid : Nat
  free : Nat
  tailgate : Nat
  duck : Nat
  forced : Nat
  void : Nat
  denied : Nat
  returned : Nat
  deriving DecidableEq, Repr

/-- The duty levels of a lane's lamps in the carrier period in progress (R182). -/
structure Lamps where
  green : Nat
  red : Nat
  amber : Nat
  deriving DecidableEq, Repr

/-- A lane's buzzer output: the tone it sounds (0 for none), the CLK_IN cycles gone in the half-cycle in progress, and
whether that half is the active one (R183). -/
structure Buzzer where
  tone : Nat
  elapsed : Nat
  active : Bool
  deriving DecidableEq, Repr

/-- The carrier of the lamp outputs: the divider of the period in progress and the CLK_IN cycles gone in it (R182). -/
structure Carrier where
  divider : Nat
  elapsed : Nat
  deriving DecidableEq, Repr

/-- A current flow window (R113). -/
structure Window where
  day : Nat
  index : Nat
  isPartial : Bool
  isShort : Bool
  isOffline : Bool
  counts : Counts
  deriving DecidableEq, Repr

/-- All that one lane holds: its configuration (R88), state (R93, R103), trackers (R95, R96, R103), inputs
(R85, R86), cue sequencer and levels (R176, R180), lamp duties and buzzer as they are driven (R182, R183), lock pulse
(R185, the tick at which it ends), flow window and ring position (R113). -/
structure Lane where
  config : LaneConfig
  pendingConfig : Option LaneConfig
  state : LaneState
  latestEntry : Option Nat
  stuckEntry : Nat
  stuckExit : Nat
  stuckSwitch : Nat
  arm : Input
  entryBeam : Input
  exitBeam : Input
  switch : Input
  cue : Option Cue
  levels : Levels
  lamps : Lamps
  buzzer : Buzzer
  lockPulse : Option Nat
  window : Option Window
  flowPosition : Option Nat
  flowNumber : Nat
  deriving DecidableEq, Repr

/-! ### Reader ports -/

/-- Deny reasons, the SHOW codes 0x10 to 0x22 of R54 in that order. -/
inductive DenyReason where
  | journalFull
  | stationUnset
  | reread
  | unknown
  | staleCard
  | blocked
  | retired
  | exhausted
  | inUse
  | wrongLift
  | notYet
  | expired
  | hours
  | passback
  | noDays
  | laneBusy
  | notRefundable
  | freeFlow
  | laneChange
  deriving DecidableEq, Repr

/-- The outcomes a SHOW frame carries (R54). -/
inductive ShowCode where
  | grant
  | free
  | refund
  | refundNone
  | offline
  | deny (reason : DenyReason)
  deriving DecidableEq, Repr

/-- A SHOW frame: its outcome and value (R54). -/
structure Show where
  code : ShowCode
  value : Nat
  deriving DecidableEq, Repr

/-- The parser's states with the bytes held (R42, R44, R45): body bytes in line order. -/
inductive Parser where
  | hunt
  | length
  | body (len : Nat) (held : List Byte)
  | check (len : Nat) (held : List Byte)
  deriving DecidableEq, Repr

/-- The repeat record (R42, R51). -/
structure RepeatRecord where
  uid : List Byte
  tick : Nat
  deriving DecidableEq, Repr

/-- All that one reader port holds (R42). READER_LOST is `silent || rfFault` (R53). The transmitter is IDLE when
`sending` is none (R55). -/
structure Port where
  parser : Parser
  gap : Nat
  badFrames : Nat
  repeatRec : Option RepeatRecord
  silence : Option Nat
  silent : Bool
  rfFault : Bool
  sending : Option Show
  pendingShow : Option Show
  deriving DecidableEq, Repr

/-- A tap record (R50). -/
structure TapRecord where
  lane : Fin 4
  port : Fin 4
  quality : Nat
  stamp : Nat
  uid : List Byte
  deriving DecidableEq, Repr

/-! ### The Journal Writer -/

/-- Passage classes (Table 13). -/
inductive PassageClass where
  | paid
  | tailgate
  | duck
  | forced
  deriving DecidableEq, Repr

/-- Void causes (R73). -/
inductive VoidCause where
  | window
  | holdLimit
  | laneChange
  | freeFlow
  deriving DecidableEq, Repr

/-- How a referral ended, `none` for a denial that ended no referral (R79, Table 13). -/
inductive ReferralEnd where
  | none
  | insert
  | decline
  | timeout
  | laneChange
  | freeFlow
  deriving DecidableEq, Repr

/-- Events of a STATION record (Table 13). -/
inductive StationEvent where
  | run
  | quiet
  | online
  | offline
  | rollover
  | freeFlowOn
  | freeFlowOff
  | setTime
  deriving DecidableEq, Repr

/-- The kind of a journal record with its detail (Table 13). -/
inductive Detail where
  | passage (cls : PassageClass) (dwell : Nat) (consumed overdrawn credited : Bool) (usage : Nat)
  | deny (reason : DenyReason) (ending : ReferralEnd)
  | void (cause : VoidCause)
  | referral
  | refund (byReturn : Bool) (unused phi amount : Nat)
  | refundAbort
  | lane (state fault : Nat) (exitBeam : Bool) (changed lost silent rfFault : Bool)
  | station (event : StationEvent) (online byEvacuate : Bool) (beforeDay beforeMs : Nat)
  | credit (count : Nat) (cutShort captureEnd : Bool) (position startMinute reason : Nat)
  deriving DecidableEq, Repr

/-- A journal record as composed (R208). A lane of none is the station; an empty UID has length 0. -/
structure Record where
  lane : Option (Fin 4)
  day : Nat
  ms : Nat
  uid : List Byte
  slot : Option Nat
  detail : Detail
  deriving DecidableEq, Repr

/-- The Journal Writer (R206, R208). -/
structure Journal where
  writeIndex : Nat
  readIndex : Nat
  hold : List Record
  pledges : Nat
  dropped : Nat
  deriving DecidableEq, Repr

/-! ### Orders in flight -/

/-- The part's copy of a withdrawal order (R22, R200). -/
structure WithdrawalOrder where
  slot : Fin 32
  index : Nat
  immediate : Bool
  deriving DecidableEq, Repr

/-- A running withdrawal scan (R23): its order, next slot, whether this is the final pass, the late-reference note,
and the tick of the event that started this pass. -/
structure WithdrawalScan where
  order : WithdrawalOrder
  position : Nat
  finalPass : Bool
  late : Bool
  start : Nat
  deriving DecidableEq, Repr

/-- The part's copy of a POST_CLOSURE order (R138, R200). -/
structure ClosureOrder where
  slot : Fin 32
  day : Nat
  startMinute : Nat
  endMinute : Nat
  reason : Nat
  deriving DecidableEq, Repr

/-- A running credit sweep (R142). -/
structure CreditSweep where
  order : ClosureOrder
  listPosition : Nat
  position : Nat
  count : Nat
  start : Nat
  deriving DecidableEq, Repr

/-- The part's copy of a SET_LANE order that waits for its lane (R91, R200). -/
structure LaneOrder where
  slot : Fin 32
  lane : Fin 4
  config : LaneConfig
  deriving DecidableEq, Repr

/-! ### The whole state -/

/-- The state of the part. INVENTORY.md lists each field with its rule and its value at reset. `evacuatePin` is the level
that the EVACUATE pin gives (R193), and `evacuate` the level as sampled since the last reset (R108). `sweepNext` is the
order slot that the running sweep visits next, none while no sweep runs (R202). -/
structure State where
  mem : Memory
  attn : BitVec 8
  attnMask : BitVec 8
  timeUnsetRefused : Bool
  station : StationState
  startPhase : StartPhase
  startPos : Nat
  freeCount : Nat
  online : Bool
  freeFlow : Bool
  evacuate : Bool
  evacuatePin : Bool
  liftNumber : Nat
  now : Nat
  divider : Nat
  dividerTaken : Nat
  carrier : Carrier
  timeSet : Bool
  day : Nat
  ms : Nat
  dayEnd : Bool
  options : Options
  sweepTimer : Nat
  sweepDue : Bool
  sweepNext : Option (Fin 32)
  presenceTimer : Nat
  presenceDue : Bool
  presenceValue : Nat
  presenceCount : Nat
  tapQueue : List TapRecord
  lanes : Quad Lane
  ports : Quad Port
  withdrawal : Option WithdrawalScan
  withdrawalsWaiting : List WithdrawalOrder
  creditSweep : Option CreditSweep
  closuresWaiting : List ClosureOrder
  lanesWaiting : List LaneOrder
  journal : Journal
  pending : List Instr
  deriving DecidableEq, Repr

/-- Why the part would stop. The spec gives no stop of the part; no meaning raises this. -/
inductive Fault where
  /-- An access outside the 256 KiB of station memory: raised by no one, since a host word address has 17 bits
  (R188) and every part access is to a region of Table 5. Safe. -/
  | outsideStationMemory
  deriving DecidableEq, Repr

/-- Why the model would refuse a command. -/
inductive Refusal where
  /-- The command has no meaning yet: raised by an arm of exec only, and by none now. Safe. -/
  | notModelled (mnemonic : String)
  deriving DecidableEq, Repr

/-! ### Reset values -/

/-- A source of NONE after a reset (R85, R86). -/
def Input.unmapped : Input := ⟨none, false, 0⟩

/-- The configuration in force after either reset (R88). -/
def LaneConfig.atReset (n : Fin 4) : LaneConfig :=
  { role := .down, grantWindow := 6000, holdLimit := 20000, drive := .level, port := n
    cueMap := List.replicate 13 none }

/-- A lane after a power-on reset (R88, R112, R113, R126, R176, R180, R181). -/
def Lane.atReset (n : Fin 4) : Lane :=
  { config := .atReset n, pendingConfig := none, state := .down, latestEntry := none
    stuckEntry := 0, stuckExit := 0, stuckSwitch := 0
    arm := .unmapped, entryBeam := .unmapped, exitBeam := .unmapped, switch := .unmapped
    cue := none, levels := ⟨0, 0, 0, 0⟩, lamps := ⟨0, 0, 0⟩, buzzer := ⟨0, 0, false⟩
    lockPulse := none, window := none, flowPosition := none, flowNumber := 0 }

/-- A reader port after either reset (R42). -/
def Port.atReset : Port :=
  { parser := .hunt, gap := 0, badFrames := 0, repeatRec := none, silence := none
    silent := false, rfFault := false, sending := none, pendingShow := none }

/-- The four lanes after a power-on reset. -/
def lanesAtReset : Quad Lane := ⟨.atReset 0, .atReset 1, .atReset 2, .atReset 3⟩

/-- The four ports after either reset. -/
def portsAtReset : Quad Port := ⟨.atReset, .atReset, .atReset, .atReset⟩

/-- The Journal Writer after a power-on reset (R211). -/
def Journal.atReset : Journal := ⟨0, 0, [], 0, 0⟩

/-- The machine right after a power-on reset: STARTING, the fill begun (R194), every field as INVENTORY.md lists. -/
def State.reset : State :=
  { mem := [], attn := 0, attnMask := 0, timeUnsetRefused := false
    station := .starting, startPhase := .fill, startPos := 0, freeCount := 0
    online := false, freeFlow := false, evacuate := false, evacuatePin := false, liftNumber := 31
    now := 0, divider := 24000, dividerTaken := 24000, carrier := ⟨24000, 0⟩
    timeSet := false, day := 0, ms := 0, dayEnd := false
    options := .default, sweepTimer := 0, sweepDue := false, sweepNext := none
    presenceTimer := 0, presenceDue := false, presenceValue := 0, presenceCount := 0
    tapQueue := [], lanes := lanesAtReset, ports := portsAtReset
    withdrawal := none, withdrawalsWaiting := [], creditSweep := none
    closuresWaiting := [], lanesWaiting := [], journal := .atReset, pending := [] }

end Sys2Proof.Machine
end

