-- ==== Sys2Proof/Machine/Drives.lean ====
section
/-! DEFINITION. The lamp carrier and the buzzers, in CLK_IN cycles (R182, R183). Events fall at ticks, so the levels stand
still through the cycles of one tick (log entry 20). -/

namespace Sys2Proof.Machine

/-! ### The lamps (R182) -/

/-- The lamp carrier's period in CLK_IN cycles. -/
def carrierPeriod (divider : Nat) : Nat := divider / 2

/-- The active cycles of a lamp of duty `v` in each carrier period. -/
def lampActiveCycles (divider v : Nat) : Nat := v * divider / 510

/-- The cycles left of the carrier period in progress. -/
def Carrier.left (c : Carrier) : Nat := carrierPeriod c.divider - c.elapsed

/-- The carrier some cycles later. A new divider takes effect at the start of the next period. -/
def Carrier.run (divider cycles : Nat) (c : Carrier) : Carrier :=
  if cycles < c.left then { c with elapsed := c.elapsed + cycles }
  else ⟨divider, (cycles - c.left) % carrierPeriod divider⟩

/-- The duties driven some cycles later: a new level takes effect at the start of the next period. -/
def Carrier.duties (cycles : Nat) (lv : Levels) (x : Lamps) (c : Carrier) : Lamps :=
  if cycles < c.left then x else ⟨lv.green, lv.red, lv.amber⟩

/-! ### The buzzer (R183) -/

/-- The half-cycle of tone `k` in CLK_IN cycles. -/
def buzzerHalfCycle (divider k : Nat) : Nat := divider / k

/-- A tone `cycles` after it began, with its active half; tone 0 is silent. -/
def Buzzer.sounded (divider cycles tone : Nat) : Buzzer :=
  if tone = 0 then ⟨0, 0, false⟩
  else ⟨tone, cycles % buzzerHalfCycle divider tone, cycles / buzzerHalfCycle divider tone % 2 = 0⟩

/-- The cycles left of the half-cycle in progress: none from silence, and none where a half-cycle has just ended. -/
def Buzzer.left (divider : Nat) (b : Buzzer) : Nat :=
  if b.tone = 0 ∨ b.elapsed = 0 then 0 else buzzerHalfCycle divider b.tone - b.elapsed

/-- The buzzer some cycles later under tone level `level`. The same tone goes on; another takes effect at the end of the
half-cycle in progress. -/
def Buzzer.run (divider cycles level : Nat) (b : Buzzer) : Buzzer :=
  if level = b.tone ∧ b.tone ≠ 0 then
    let e := b.elapsed + cycles
    let h := buzzerHalfCycle divider b.tone
    ⟨b.tone, e % h, if e / h % 2 = 0 then b.active else !b.active⟩
  else if cycles < b.left divider then { b with elapsed := b.elapsed + cycles }
  else .sounded divider (cycles - b.left divider) level

end Sys2Proof.Machine
end

