-- ==== Sys2Proof/Machine/Memory.lean ====
section
/-! DEFINITION. Station memory as bytes: reads, writes and the canonical form. Every wider access is made of these, so
the byte order (little-endian, 00_scope Conventions) is decided here once. -/

namespace Sys2Proof.Machine

/-- The canonical form: addresses strictly rising, no zero byte listed. -/
abbrev Memory.wf (m : Memory) : Prop :=
  List.Pairwise (fun c d => c.1 < d.1) m ∧ ∀ c ∈ m, c.2 ≠ 0

/-- The byte at an address; an unlisted address reads 0 (log entry 10). -/
def Memory.byteAt : Memory → Nat → Byte
  | [], _ => 0
  | (a, b) :: m, x => if x = a then b else if x < a then 0 else Memory.byteAt m x

/-- One byte written; writing 0 removes the cell. -/
def Memory.setByte : Memory → Nat → Byte → Memory
  | [], x, v => if v = 0 then [] else [(x, v)]
  | (a, b) :: m, x, v =>
    if x < a then (if v = 0 then (a, b) :: m else (x, v) :: (a, b) :: m)
    else if x = a then (if v = 0 then m else (a, v) :: m)
    else (a, b) :: Memory.setByte m x v

/-- `n` bytes from address `a` as one little-endian number. -/
def Memory.read (m : Memory) (a : Nat) : Nat → Nat
  | 0 => 0
  | n + 1 => (m.byteAt a).toNat + 256 * Memory.read m (a + 1) n

/-- `n` bytes from address `a` in ascending order. -/
def Memory.readBytes (m : Memory) (a : Nat) : Nat → List Byte
  | 0 => []
  | n + 1 => m.byteAt a :: Memory.readBytes m (a + 1) n

/-- A run of bytes written from address `a` upwards. -/
def Memory.writeBytes (m : Memory) (a : Nat) : List Byte → Memory
  | [] => m
  | b :: bs => Memory.writeBytes (m.setByte a b) (a + 1) bs

/-- `v` as `n` little-endian bytes. -/
def le : Nat → Nat → List Byte
  | 0, _ => []
  | n + 1, v => BitVec.ofNat 8 v :: le n (v / 256)

/-- `v` written as `n` little-endian bytes at address `a`. -/
def Memory.write (m : Memory) (a n v : Nat) : Memory := m.writeBytes a (le n v)

/-- Zero written into every byte from `lo` up to but not including `hi`. -/
def Memory.zeroRange (m : Memory) (lo hi : Nat) : Memory :=
  m.filter (fun c => c.1 < lo || hi ≤ c.1)

/-- NONE of a 16-bit day, minute or slot field is 0xFFFF (R27, R205). -/
def optWord : Option Nat → Nat
  | none => 0xFFFF
  | some v => v

/-- A 16-bit field that may hold NONE, read. -/
def wordOpt (v : Nat) : Option Nat := if v = 0xFFFF then none else some v

/-- NONE of a byte field (lane marker, cue list) is 0xFF (R205). -/
def optByte : Option Nat → Nat
  | none => 0xFF
  | some v => v

/-- A byte field that may hold NONE, read. -/
def byteOpt (v : Nat) : Option Nat := if v = 0xFF then none else some v

end Sys2Proof.Machine
end

