-- ==== Sys2Proof/Machine/Layout.lean ====
section
/-! DEFINITION. Where things stand in station memory (Table 5) and the layouts of the records (Tables 7, 9, 10, 14 and
the Closure List and Staging Area of R205). -/

namespace Sys2Proof.Machine

/-! ### Regions (Table 5) -/

def orderBase (k : Nat) : Nat := 0x100 + 128 * k
def laneBlockBase (n : Nat) : Nat := 0x1100 + 256 * n
def cueBase (list : Nat) : Nat := 0x1500 + 64 * list
def productBase (p : Nat) : Nat := 0x1D00 + 128 * p
def closureBase (i : Nat) : Nat := 0x3D00 + 16 * i
def inputMapBase : Nat := 0x3D80
def stagingBase (i : Nat) : Nat := 0x3E00 + 128 * i
def flowBase (n p : Nat) : Nat := 0x4200 + 2048 * n + 32 * p
def journalBase (i : Nat) : Nat := 0x6200 + 32 * i
def passBase (s : Nat) : Nat := 0xE200 + 32 * s

/-- The first byte the power-on fill does not write: the host scratch begins here (R194). -/
def fillEnd : Nat := 0x3E200

/-- The number of Pass Table entries. -/
def passSlots : Nat := 6144

/-! ### Station Header fields (Table 7) -/

def hdrLayoutVersion : Nat := 0
def hdrStartCause : Nat := 2
def hdrLift : Nat := 4
def hdrState : Nat := 6
def hdrMs : Nat := 8
def hdrDay : Nat := 12
def hdrWriteIndex : Nat := 14
def hdrDropped : Nat := 16
def hdrFlow (n : Nat) : Nat := 18 + 2 * n
def hdrTaken : Nat := 26
def hdrOptions : Nat := 64
def hdrPresence : Nat := 76
def hdrReadIndex : Nat := 78
def hdrThreshold : Nat := 80

/-! ### Pass entries (R2, Table 9) -/

/-- A Pass Table entry, field for field as Table 9 lays it out. `uid` is the ten UID bytes. -/
structure PassEntry where
  slotState : Nat
  uidLength : Nat
  uid : List Byte
  stamp : Nat
  product : Nat
  flags : Byte
  issueDay : Nat
  firstDay : Option Nat
  lastDay : Option Nat
  usage : Nat
  lastMinute : Option Nat
  creditedDay : Option Nat
  paid : Nat
  marker : Option Nat
  deriving DecidableEq, Repr

def PassEntry.blocked (e : PassEntry) : Bool := e.flags.getLsbD 0
def PassEntry.retired (e : PassEntry) : Bool := e.flags.getLsbD 1
def PassEntry.exhausted (e : PassEntry) : Bool := e.flags.getLsbD 2

/-- One flag bit of an entry set or cleared, the other bits as they stand. -/
def setFlag (f : Byte) (bit : Nat) (v : Bool) : Byte :=
  if v then f ||| (1#8 <<< bit) else f &&& ~~~(1#8 <<< bit)

/-- Days used U and credited days C of a DAYS pass (R3, Table 9: U in byte 22, C in byte 23). -/
def PassEntry.daysUsed (e : PassEntry) : Nat := e.usage % 256
def PassEntry.credited (e : PassEntry) : Nat := e.usage / 256

/-- The usage word of a DAYS pass (Table 9). -/
def daysUsage (u c : Nat) : Nat := u + 256 * c

/-- A byte list cut or filled with zeros to `n` bytes. -/
def padTo (n : Nat) (bs : List Byte) : List Byte := (bs ++ List.replicate n 0).take n

/-- The 32 bytes of an entry (Table 9). -/
def PassEntry.bytes (e : PassEntry) : List Byte :=
  le 1 e.slotState ++ le 1 e.uidLength ++ padTo 10 e.uid ++ le 2 e.stamp ++ le 1 e.product ++ [e.flags]
    ++ le 2 e.issueDay ++ le 2 (optWord e.firstDay) ++ le 2 (optWord e.lastDay) ++ le 2 e.usage
    ++ le 2 (optWord e.lastMinute) ++ le 2 (optWord e.creditedDay) ++ le 3 e.paid ++ le 1 (optByte e.marker)

/-- The slot state byte of a pass slot: 0 FREE, 1 LIVE, 2 TOMB (Table 9). -/
def slotStateOf (m : Memory) (s : Nat) : Nat := m.read (passBase s) 1

/-- The entry at a pass slot as memory holds it. -/
def readPass (m : Memory) (s : Nat) : PassEntry :=
  { slotState := m.read (passBase s) 1
    uidLength := m.read (passBase s + 1) 1
    uid := m.readBytes (passBase s + 2) 10
    stamp := m.read (passBase s + 12) 2
    product := m.read (passBase s + 14) 1
    flags := m.byteAt (passBase s + 15)
    issueDay := m.read (passBase s + 16) 2
    firstDay := wordOpt (m.read (passBase s + 18) 2)
    lastDay := wordOpt (m.read (passBase s + 20) 2)
    usage := m.read (passBase s + 22) 2
    lastMinute := wordOpt (m.read (passBase s + 24) 2)
    creditedDay := wordOpt (m.read (passBase s + 26) 2)
    paid := m.read (passBase s + 28) 3
    marker := byteOpt (m.read (passBase s + 31) 1) }

/-- An entry written at a pass slot. -/
def writePass (m : Memory) (s : Nat) (e : PassEntry) : Memory := m.writeBytes (passBase s) e.bytes

/-- The LIVE slots from `lo` up to but not including `hi`, ascending, for the scans that visit the table in slot
order (R23, R142, R195): a cell of value 1 at a slot's state byte. -/
def liveSlots (m : Memory) (lo hi : Nat) : List Nat :=
  m.filterMap fun c =>
    if passBase lo ≤ c.1 && c.1 < passBase hi && (c.1 - passBase 0) % 32 = 0 && c.2 = 1 then
      some ((c.1 - passBase 0) / 32)
    else none

/-! ### Product records (R17, Table 10) -/

/-- A product record. `mask` is the station mask, bit n for lift n; `ladder` holds L[1] to L[14]. -/
structure Product where
  kind : ProductKind
  floating : Bool
  refundable : Bool
  daysBought : Nat
  span : Nat
  activation : Nat
  ridesInitial : Nat
  mask : Nat
  openMinute : Nat
  closeMinute : Nat
  passback : Nat
  cutoff : Nat
  fee : Nat
  rounding : Nat
  late : Nat
  deadline : Nat
  ladder : List Nat
  deriving DecidableEq, Repr

def ProductKind.code : ProductKind → Nat
  | .none => 0
  | .days => 1
  | .rides => 2
  | .season => 3

/-- A kind byte read from a table record; a byte no kind uses reads as NONE (log entry 16). -/
def kindOfCode (n : Nat) : ProductKind :=
  match n with
  | 1 => .days
  | 2 => .rides
  | 3 => .season
  | _ => .none

/-- A record of kind NONE with every other field 0 (R24). -/
def Product.withdrawn : Product :=
  ⟨.none, false, false, 0, 0, 0, 0, 0, 0, 0, 0, 0, 0, 0, 0, 0, List.replicate 14 0⟩

/-- L[n], with L[0] taken as 0 (R152). -/
def Product.price (p : Product) (n : Nat) : Nat :=
  match n with
  | 0 => 0
  | k + 1 => p.ladder.getD k 0

/-- The record from 70 bytes at an address (Table 10, bytes 0 to 69). -/
def readProductAt (m : Memory) (a : Nat) : Product :=
  { kind := kindOfCode (m.read a 1)
    floating := (m.byteAt (a + 1)).getLsbD 0
    refundable := (m.byteAt (a + 1)).getLsbD 1
    daysBought := m.read (a + 2) 1
    span := m.read (a + 3) 1
    activation := m.read (a + 4) 2
    ridesInitial := m.read (a + 6) 2
    mask := m.read (a + 8) 4
    openMinute := m.read (a + 12) 2
    closeMinute := m.read (a + 14) 2
    passback := m.read (a + 16) 2
    cutoff := m.read (a + 18) 2
    fee := m.read (a + 20) 2
    rounding := m.read (a + 22) 2
    late := m.read (a + 24) 2
    deadline := m.read (a + 26) 2
    ladder := (List.range 14).map fun i => m.read (a + 28 + 3 * i) 3 }

/-- Bytes 0 to 69 of a record (Table 10). -/
def Product.bytes (p : Product) : List Byte :=
  le 1 p.kind.code ++ le 1 ((if p.floating then 1 else 0) + (if p.refundable then 2 else 0))
    ++ le 1 p.daysBought ++ le 1 p.span ++ le 2 p.activation ++ le 2 p.ridesInitial ++ le 4 p.mask
    ++ le 2 p.openMinute ++ le 2 p.closeMinute ++ le 2 p.passback ++ le 2 p.cutoff ++ le 2 p.fee
    ++ le 2 p.rounding ++ le 2 p.late ++ le 2 p.deadline ++ ((List.range 14).map (fun i => le 3 (p.ladder.getD i 0))).flatten

/-- The product record in force at an index (R17). -/
def readProduct (m : Memory) (p : Nat) : Product := readProductAt m (productBase p)

/-- A record written at an index: its 70 bytes, and 0 in the unused bytes (R205). -/
def writeProduct (m : Memory) (i : Nat) (p : Product) : Memory :=
  (m.zeroRange (productBase i) (productBase (i + 1))).writeBytes (productBase i) p.bytes

/-- A field that the record's kind does not use is stored as 0 (R17). -/
def Product.clean (p : Product) : Product :=
  match p.kind with
  | .none => .withdrawn
  | .days =>
    { p with activation := if p.floating then p.activation else 0, ridesInitial := 0
             ladder := (List.range 14).map fun i => if i < p.daysBought then p.ladder.getD i 0 else 0 }
  | .rides =>
    { p with activation := if p.floating then p.activation else 0, daysBought := 0, cutoff := 0
             ladder := List.replicate 14 0 }
  | .season =>
    { p with activation := if p.floating then p.activation else 0, daysBought := 0, ridesInitial := 0
             cutoff := 0, refundable := false, fee := 0, rounding := 0, late := 0, deadline := 0
             ladder := List.replicate 14 0 }

/-! ### The Staging Area (R20, R205) -/

/-- The staged records in posting order: target index and record. -/
def readStaging (m : Memory) : List (Nat × Product) :=
  (List.range 8).filterMap fun i =>
    if m.read (stagingBase i + 127) 1 = 1 then
      some (m.read (stagingBase i + 126) 1, readProductAt m (stagingBase i))
    else none

/-- The 128 bytes of a held position (R205). -/
def stagedBytes (index : Nat) (p : Product) : List Byte :=
  p.bytes ++ List.replicate 56 0 ++ le 1 index ++ le 1 1

/-- Staged records written from a position upwards. -/
def writeStagedFrom (m : Memory) (i : Nat) (l : List (Nat × Product)) : Memory :=
  (l.zipIdx i).foldl (fun m x => m.writeBytes (stagingBase x.2) (stagedBytes x.1.1 x.1.2)) m

/-- The Staging Area rewritten to hold exactly these records, from position 0 upwards (R20, R21, R24). All eight positions are
written, those the order leaves alone included, and an empty one is zeroed whole, where the spec gives byte 127 of it
alone (R188, R205): DESIGN CHOICE, log entries 39 and 48. -/
def writeStaging (m : Memory) (l : List (Nat × Product)) : Memory :=
  writeStagedFrom (m.zeroRange (stagingBase 0) (stagingBase 8)) 0 l

/-! ### The Closure List (R137, R205) -/

/-- A closure record. An end minute of none is NONE. -/
structure Closure where
  day : Nat
  startMinute : Nat
  endMinute : Nat
  reason : Nat
  deriving DecidableEq, Repr

/-- Whether a position of the list is HELD. -/
def closureHeld (m : Memory) (i : Nat) : Bool := m.read (closureBase i) 2 = 1

/-- The closure at a position. -/
def readClosure (m : Memory) (i : Nat) : Closure :=
  ⟨m.read (closureBase i + 2) 2, m.read (closureBase i + 4) 2, m.read (closureBase i + 6) 2,
    m.read (closureBase i + 8) 1⟩

/-- The HELD positions in list order. -/
def heldClosures (m : Memory) : List Nat := (List.range 8).filter (closureHeld m)

/-- The lowest EMPTY position, if there is one. -/
def emptyClosure (m : Memory) : Option Nat := (List.range 8).find? (fun i => !closureHeld m i)

/-- A closure written at a position, HELD, the unused bytes 0. -/
def writeClosure (m : Memory) (i : Nat) (c : Closure) : Memory :=
  m.writeBytes (closureBase i)
    (le 2 1 ++ le 2 c.day ++ le 2 c.startMinute ++ le 2 c.endMinute ++ le 1 c.reason ++ List.replicate 7 0)

/-- Every position made EMPTY, its fields zero (R137). -/
def clearClosures (m : Memory) : Memory := m.zeroRange (closureBase 0) (closureBase 8)

end Sys2Proof.Machine
end

