-- ==== Sys2Proof/Machine/Flags.lean ====
section
/-! DEFINITION. The flag words of the part: attention causes (R191, R192), the state mirror and the RUN register
(R193, Tables 7 and 8), and the flag bytes of Lane Blocks and flow records (Tables 14, 15). -/

namespace Sys2Proof.Machine

/-- The eight attention causes (R191, Table 8). -/
inductive Cause where
  | orderDone
  | journalLevel
  | journalHold
  | referral
  | laneFault
  | presence
  | rollover
  | evacuate
  deriving DecidableEq, Repr

/-- The bit of a cause in ATTN and ATTN_MASK (Table 8). -/
def Cause.bit : Cause → Nat
  | .orderDone => 0
  | .journalLevel => 1
  | .journalHold => 2
  | .referral => 3
  | .laneFault => 4
  | .presence => 5
  | .rollover => 6
  | .evacuate => 7

/-- A cause is raised by setting its bit; a bit already set stays set (R191). -/
def raise (c : Cause) (s : State) : State := { s with attn := s.attn ||| (1#8 <<< c.bit) }

/-- ATTN_N is driven low while some bit is set in both ATTN and ATTN_MASK (R191). -/
def attentionDriven (s : State) : Bool := s.attn &&& s.attnMask != 0

def bit (n : Nat) (b : Bool) : Nat := if b then 2 ^ n else 0

/-- The code of a station state in the header and in RUN (Tables 7, 8). -/
def StationState.code : StationState → Nat
  | .starting => 0
  | .quiet => 1
  | .running => 2
  | .quieting => 3

/-- The state mirror word (Table 7), its bits without meaning 0 (log entry 54). -/
def stateMirror (s : State) : Nat := s.station.code + bit 2 s.online + bit 3 s.freeFlow

/-- The RUN register as read (R193, Table 8), its bits without meaning 0 (log entry 54). -/
def runRegister (s : State) : Nat :=
  s.station.code + bit 2 s.online + bit 3 s.evacuatePin + bit 4 s.timeUnsetRefused

/-- The flags byte of a flow record or of the current-window mirror (Tables 14, 15), its bits without meaning 0 (log
entry 54). -/
def windowFlags (w : Window) : Nat := bit 0 w.isPartial + bit 1 w.isShort + bit 2 w.isOffline

/-- READER_LOST is set while either cause is held (R53). -/
def Port.readerLost (p : Port) : Bool := p.silent || p.rfFault

/-- The state code of a lane in Lane Blocks and LANE records (Table 13). -/
def LaneState.code : LaneState → Nat
  | .down => 0
  | .arming _ => 1
  | .ready _ => 2
  | .referred _ => 3
  | .granted _ => 4
  | .passing _ => 5
  | .free => 6
  | .fault _ => 7
  | .capturing _ => 8

/-- The fault cause code of a lane (Table 13): NONE outside FAULT. -/
def LaneState.faultCode : LaneState → Nat
  | .fault (.beamStuck _) => 1
  | .fault .switchStuck => 2
  | _ => 0

/-- Whether the lane stands in FAULT for its exit beam (Tables 13, 15). -/
def LaneState.faultExit : LaneState → Bool
  | .fault (.beamStuck exit) => exit
  | _ => false

def LaneState.isDown : LaneState → Bool
  | .down => true
  | _ => false

def LaneState.isFree : LaneState → Bool
  | .free => true
  | _ => false

/-- PASSING or CAPTURING: the states that a SET_LANE and the end of quieting wait for (R91, R111). -/
def LaneState.isBusy : LaneState → Bool
  | .passing _ => true
  | .capturing _ => true
  | _ => false

/-- The states in which the stuck timers run (R95, R103). -/
def LaneState.stuckRuns : LaneState → Bool
  | .arming _ => true
  | .ready _ => true
  | _ => false

end Sys2Proof.Machine
end

