-- ==== Sys2Proof/Machine/Ops.lean ====
section
/-! DEFINITION. Named access to the lanes, ports and memory of a state, the lock condition, the mirrors, and the one
frame in which every event runs. -/

namespace Sys2Proof.Machine

/-! ### Access -/

def State.lane (s : State) (n : Fin 4) : Lane := s.lanes.get n

def State.setLane (s : State) (n : Fin 4) (l : Lane) : State := { s with lanes := s.lanes.set n l }

def State.modLane (s : State) (n : Fin 4) (f : Lane → Lane) : State := s.setLane n (f (s.lane n))

def State.port (s : State) (p : Fin 4) : Port := s.ports.get p

def State.setPort (s : State) (p : Fin 4) (x : Port) : State := { s with ports := s.ports.set p x }

def State.modPort (s : State) (p : Fin 4) (f : Port → Port) : State := s.setPort p (f (s.port p))

def State.peek (s : State) (a n : Nat) : Nat := s.mem.read a n

def State.poke (s : State) (a n v : Nat) : State := { s with mem := s.mem.write a n v }

/-- The operating minute (R28). -/
def State.minute (s : State) : Nat := s.ms / 60000

/-- A change made for each lane in ascending order (log entry 14). -/
def eachLane (f : Fin 4 → State → State) (s : State) : State :=
  allFour.foldl (fun t n => f n t) s

/-! ### Lane states -/

/-- A lane enters a state. The stuck timers return to 0 unless the lane was and stays in ARMING or READY
(R95, R103). -/
def Lane.enter (l : Lane) (st : LaneState) : Lane :=
  if l.state.stuckRuns && st.stuckRuns then { l with state := st }
  else { l with state := st, stuckEntry := 0, stuckExit := 0, stuckSwitch := 0 }

/-- Entering ARMING: the settle timer and the stuck timers start from 0 and the latest entry block is cleared
(R94, R95, R96). -/
def Lane.enterArming (l : Lane) : Lane :=
  { l with state := .arming 0, latestEntry := none, stuckEntry := 0, stuckExit := 0, stuckSwitch := 0 }

/-- Entering DOWN: every timer, watch and tracker stops and is cleared, the cue is stopped and the four levels are 0
(R96, R111, R180). -/
def Lane.enterDown (l : Lane) : Lane :=
  { l with state := .down, latestEntry := none, stuckEntry := 0, stuckExit := 0, stuckSwitch := 0
           cue := none, levels := ⟨0, 0, 0, 0⟩ }

/-! ### Locks (R109, R185) -/

/-- A lane's lock is released exactly when the lane is GRANTED or FREE or EVACUATE is asserted (R109). -/
def lockReleased (s : State) (n : Fin 4) : Bool :=
  s.evacuate ||
    match (s.lane n).state with
    | .granted _ => true
    | .free => true
    | _ => false

/-- A PULSE drive gives one pulse when the lock was engaged before the event and is released after it, and a pulse
ends when the lock is engaged again (R185). -/
def drivePulse (before after : State) (n : Fin 4) : Lane :=
  let l := after.lane n
  match lockReleased before n, lockReleased after n with
  | false, true =>
    match l.config.drive with
    | .pulse w => { l with lockPulse := some (after.now + w) }
    | .level => { l with lockPulse := none }
  | true, false => { l with lockPulse := none }
  | _, _ => l

def drivePulses (before after : State) : State :=
  { after with lanes := ⟨drivePulse before after 0, drivePulse before after 1, drivePulse before after 2,
                         drivePulse before after 3⟩ }

/-! ### Mirrors (R48, R88, R93, R127, R148, R176, R180, R189) -/

def LaneRole.code : LaneRole → Nat
  | .down => 0
  | .entry => 1
  | .ret => 2

/-- A configuration as SET_LANE bytes 9 to 30 (Table 12); a LEVEL drive shows width 0 (log entry 15). -/
def LaneConfig.bytes (c : LaneConfig) : List Byte :=
  le 1 c.role.code ++ le 2 c.grantWindow ++ le 2 c.holdLimit
    ++ (match c.drive with
        | .level => le 1 0 ++ le 2 0
        | .pulse w => le 1 1 ++ le 2 w)
    ++ le 1 c.port.val ++ (List.range 13).map (fun i => BitVec.ofNat 8 (optByte ((c.cueMap.getD i none).map (·.val))))

/-- Lane Block bytes 0 to 25 (Table 15). -/
def laneBytes (l : Lane) : List Byte :=
  le 1 l.state.code ++ le 1 l.state.faultCode
    ++ le 1 (bit 0 l.pendingConfig.isSome
        + bit 1 (match l.state with | .granted g => g.willConsume | _ => false)
        + bit 2 l.state.faultExit)
    ++ le 1 0 ++ l.config.bytes

/-- Lane Block bytes 32 to 45: the pass slot and UID of the grant, referral or capture (Table 15), the bytes beyond the UID's
length 0 (DESIGN CHOICE, log entry 52). -/
def heldBytes (l : Lane) : List Byte :=
  let show3 (slot : Option Nat) (uid : List Byte) : List Byte :=
    le 2 (optWord slot) ++ le 1 uid.length ++ padTo 10 uid ++ le 1 0
  match l.state with
  | .granted g => show3 (some g.slot) g.uid
  | .referred r => show3 none r.uid
  | .capturing c => show3 (some c.slot) c.uid
  | _ => show3 none []

/-- Lane Block bytes 46 to 69: the capture figures (R148, Table 15). Of a lane that is not CAPTURING the spec gives them only
after a reset (R194); they read 0 here: DESIGN CHOICE, log entry 46. -/
def figureBytes (l : Lane) : List Byte :=
  match l.state with
  | .capturing c =>
    let f := c.figures
    le 3 f.paid ++ le 2 f.unused ++ le 2 f.phi ++ le 3 f.gross ++ le 3 f.scaled ++ le 3 f.net ++ le 2 f.fee
      ++ le 2 f.rounding ++ le 3 f.refund ++ le 1 0
  | _ => List.replicate 24 0

/-- Lane Block bytes 72 to 75: the port of the same number (R48). -/
def portBytes (p : Port) : List Byte :=
  le 2 p.badFrames ++ le 1 (bit 0 p.readerLost + bit 1 p.silent + bit 2 p.rfFault) ++ le 1 0

/-- The code of an outcome in the Lane Block (Table 15: cue map order). -/
def CueOutcome.index : CueOutcome → Nat
  | .ready => 0
  | .grant => 1
  | .deny => 2
  | .void => 3
  | .forced => 4
  | .tailgate => 5
  | .duck => 6
  | .free => 7
  | .fault => 8
  | .noReader => 9
  | .returnCapture => 10
  | .returnDone => 11
  | .refundNone => 12

/-- Lane Block bytes 112 to 117: the running cue and the levels (Table 15). -/
def cueBytes (l : Lane) : List Byte :=
  le 1 (optByte (l.cue.map (·.list.val))) ++ le 1 (optByte (l.cue.map (·.outcome.index)))
    ++ le 1 l.levels.green ++ le 1 l.levels.red ++ le 1 l.levels.amber ++ le 1 l.levels.buzzer

/-- The eight counts in flow record order (Table 14). -/
def Counts.bytes (c : Counts) : List Byte :=
  le 2 c.paid ++ le 2 c.free ++ le 2 c.tailgate ++ le 2 c.duck ++ le 2 c.forced ++ le 2 c.void ++ le 2 c.denied
    ++ le 2 c.returned

/-- Lane Block bytes 80 to 101: the current window (Table 15). -/
def windowBytes (w : Window) : List Byte :=
  le 2 w.day ++ le 2 w.index ++ le 1 (windowFlags w) ++ le 1 0 ++ w.counts.bytes

/-- A run of bytes from an even address as the words it fills. -/
def wordsFrom (a : Nat) : List Byte → List (Nat × Byte × Byte)
  | lo :: hi :: bs => (a, lo, hi) :: wordsFrom (a + 2) bs
  | _ => []

/-- The mirrored words of lane `n` but for its window: byte address and the two bytes of the word. -/
def laneImage (s : State) (n : Fin 4) : List (Nat × Byte × Byte) :=
  let b := laneBlockBase n.val
  let l := s.lane n
  wordsFrom b (laneBytes l) ++ wordsFrom (b + 32) (heldBytes l) ++ wordsFrom (b + 46) (figureBytes l)
    ++ wordsFrom (b + 72) (portBytes (s.port n)) ++ wordsFrom (b + 112) (cueBytes l)

/-- The current-window words of lane `n`: none while it has no window (R127). -/
def windowImage (s : State) (n : Fin 4) : List (Nat × Byte × Byte) :=
  match (s.lane n).window with
  | some w => wordsFrom (laneBlockBase n.val + 80) (windowBytes w)
  | none => []

/-- A mirrored word is rewritten when its value changes (R48, R127, R189): each new word that differs from the old
one in the same place, or that had none, is written. -/
def syncWords : List (Nat × Byte × Byte) → List (Nat × Byte × Byte) → Memory → Memory
  | _, [], m => m
  | [], (a, lo, hi) :: new, m => syncWords [] new ((m.setByte a lo).setByte (a + 1) hi)
  | (_, lo0, hi0) :: old, (a, lo, hi) :: new, m =>
    if lo = lo0 ∧ hi = hi0 then syncWords old new m
    else syncWords old new ((m.setByte a lo).setByte (a + 1) hi)

/-- Every mirror of the header's state word and of lane `n`'s block brought up to date after an event. -/
def syncLane (before after : State) (n : Fin 4) (m : Memory) : Memory :=
  syncWords (windowImage before n) (windowImage after n)
    (syncWords (laneImage before n) (laneImage after n) m)

def syncMirrors (before after : State) : State :=
  let m0 := if stateMirror before = stateMirror after then after.mem
            else after.mem.write hdrState 2 (stateMirror after)
  { after with mem := syncLane before after 3 (syncLane before after 2 (syncLane before after 1
      (syncLane before after 0 m0))) }

/-- Every Lane Block word that Table 15 gives a field, but for the window fields, written afresh (R194, R195 step 4). A word
of no field is left as it stands, and a byte of no field beside one is written 0: DESIGN CHOICE, log entry 51. -/
def writeLaneBlocks (s : State) : State :=
  { s with mem := syncWords [] (laneImage s 3) (syncWords [] (laneImage s 2) (syncWords [] (laneImage s 1)
      (syncWords [] (laneImage s 0) s.mem))) }

/-! ### The frame of an event -/

/-- What every event ends with: the lock pulses of R185, then the mirrors. `before` is the state the event met. -/
def settleOutputs (before after : State) : State := syncMirrors before (drivePulses before after)

/-- One command is one event: it answers the next state. -/
def event (before after : State) : Host.Outcome State Fault Refusal := .next (settleOutputs before after)

end Sys2Proof.Machine
end

