-- ==== Sys2Proof/Machine/Journal.lean ====
section
/-! DEFINITION. The Journal Writer (R206 to R212): the ring, the hold queue, pledges and dropped records. -/

namespace Sys2Proof.Machine

/-- The SHOW code of a deny reason (R54). -/
def DenyReason.code : DenyReason → Nat
  | .journalFull => 0x10
  | .stationUnset => 0x11
  | .reread => 0x12
  | .unknown => 0x13
  | .staleCard => 0x14
  | .blocked => 0x15
  | .retired => 0x16
  | .exhausted => 0x17
  | .inUse => 0x18
  | .wrongLift => 0x19
  | .notYet => 0x1A
  | .expired => 0x1B
  | .hours => 0x1C
  | .passback => 0x1D
  | .noDays => 0x1E
  | .laneBusy => 0x1F
  | .notRefundable => 0x20
  | .freeFlow => 0x21
  | .laneChange => 0x22

def PassageClass.code : PassageClass → Nat
  | .paid => 0
  | .tailgate => 1
  | .duck => 2
  | .forced => 3

def VoidCause.code : VoidCause → Nat
  | .window => 0
  | .holdLimit => 1
  | .laneChange => 2
  | .freeFlow => 3

def ReferralEnd.code : ReferralEnd → Nat
  | .none => 0
  | .insert => 1
  | .decline => 2
  | .timeout => 3
  | .laneChange => 4
  | .freeFlow => 5

def StationEvent.code : StationEvent → Nat
  | .run => 0
  | .quiet => 1
  | .online => 2
  | .offline => 3
  | .rollover => 4
  | .freeFlowOn => 5
  | .freeFlowOff => 6
  | .setTime => 7

/-- The kind code of a record (Table 13). -/
def Detail.kind : Detail → Nat
  | .passage .. => 1
  | .deny .. => 2
  | .void .. => 3
  | .referral => 4
  | .refund .. => 5
  | .refundAbort => 6
  | .lane .. => 7
  | .station .. => 8
  | .credit .. => 9

/-- Bytes 21 to 31 of a record, before padding (Table 13). -/
def Detail.bytes : Detail → List Byte
  | .passage c dwell consumed overdrawn credited usage =>
    le 1 c.code ++ le 2 dwell ++ le 1 (bit 0 consumed + bit 1 overdrawn + bit 2 credited) ++ le 2 usage
  | .deny r e => le 1 r.code ++ le 1 e.code
  | .void c => le 1 c.code
  | .referral => []
  | .refund byReturn unused phi amount =>
    le 1 (bit 0 byReturn) ++ le 2 unused ++ le 2 phi ++ le 3 amount
  | .refundAbort => le 1 0
  | .lane st f exitBeam changed lost silent rf =>
    le 1 st ++ le 1 f ++ le 1 (bit 0 exitBeam)
      ++ le 1 (bit 0 changed + bit 1 lost + bit 2 silent + bit 3 rf)
  | .station ev online byEvac d ms =>
    le 1 ev.code ++ le 1 (bit 0 online + bit 1 byEvac) ++ le 2 d ++ le 4 ms
  | .credit n cut cap pos start reason =>
    le 2 n ++ le 1 (bit 0 cut) ++ le 1 (bit 0 cap) ++ le 1 pos ++ le 2 start ++ le 1 reason

/-- The 32 bytes of a record (Table 13). The bytes it gives no content, beyond the UID's length and beyond the last field of
the kind's detail, those of a field that another event alone fills, and the bits without meaning are 0: DESIGN CHOICE, log
entries 52 and 54. -/
def Record.bytes (r : Record) : List Byte :=
  le 1 r.detail.kind ++ le 1 (optByte (r.lane.map (·.val))) ++ le 2 r.day ++ le 4 r.ms
    ++ le 1 r.uid.length ++ padTo 10 r.uid ++ le 2 (optWord r.slot) ++ padTo 11 r.detail.bytes

/-- The fill of the ring (R206). -/
def Journal.fill (j : Journal) : Nat := (j.writeIndex + 1024 - j.readIndex) % 1024

/-- The unpledged room (R208). -/
def Journal.room (j : Journal) : Nat := (1023 - j.fill) + (8 - j.hold.length) - j.pledges

/-- The journal threshold, read live from the header (R189, R210). -/
def journalThreshold (m : Memory) : Nat :=
  if m.read hdrThreshold 2 = 0 then 768 else min (m.read hdrThreshold 2) 1023

/-- A record written into the ring (R206), with JOURNAL_LEVEL when the fill rises to the threshold (R210). -/
def ringWrite (r : Record) (s : State) : State :=
  let next := (s.journal.writeIndex + 1) % 1024
  let t : State :=
    { s with
      journal := { s.journal with writeIndex := next }
      mem := (s.mem.writeBytes (journalBase s.journal.writeIndex) r.bytes).write hdrWriteIndex 2 next }
  if s.journal.fill < journalThreshold s.mem ∧ journalThreshold s.mem ≤ t.journal.fill then
    raise .journalLevel t
  else t

/-- A record joins the tail of the hold queue, with JOURNAL_HOLD when the queue was empty (R208, R210). -/
def holdRecord (r : Record) (s : State) : State :=
  let t : State := { s with journal := { s.journal with hold := s.journal.hold ++ [r] } }
  if s.journal.hold = [] then raise .journalHold t else t

/-- A record is placed: in the ring when nothing is held and the fill is below 1,023, else in the queue (R208). -/
def placeRecord (r : Record) (s : State) : State :=
  if s.journal.hold = [] ∧ s.journal.fill < 1023 then ringWrite r s else holdRecord r s

/-- A pledged record uses its pledge and is placed (R208). -/
def appendPledged (r : Record) (s : State) : State :=
  placeRecord r { s with journal := { s.journal with pledges := s.journal.pledges - 1 } }

/-- An unpledged record is dropped: the count rises and the header shows it; a count of 65,535 stays (R208). -/
def dropRecord (s : State) : State :=
  if s.journal.dropped < 65535 then
    { s with journal := { s.journal with dropped := s.journal.dropped + 1 }
             mem := s.mem.write hdrDropped 2 (s.journal.dropped + 1) }
  else s

/-- An unpledged record is placed when the unpledged room is at least 1, and dropped otherwise (R208). -/
def appendUnpledged (r : Record) (s : State) : State :=
  if 1 ≤ s.journal.room then placeRecord r s else dropRecord s

/-- One pledge is taken (R209). -/
def takePledge (s : State) : State :=
  { s with journal := { s.journal with pledges := s.journal.pledges + 1 } }

/-- The hold queue drains while the fill is below 1,023, oldest first (R207). -/
def drainHeld : List Record → State → State
  | [], s => s
  | r :: rs, s =>
    if s.journal.fill < 1023 then
      drainHeld rs (ringWrite r { s with journal := { s.journal with hold := rs } })
    else s

/-- A read index the host writes is taken when it is 0 to 1,023 and lies no further ahead than the fill (R207). -/
def readIndexTaken (j : Journal) (v : Nat) : Bool :=
  v < 1024 && (v + 1024 - j.readIndex) % 1024 ≤ j.fill

/-- A host write of the journal read index handed to the Writer (R207). -/
def offerReadIndex (v : Nat) (s : State) : State :=
  if readIndexTaken s.journal v then
    drainHeld s.journal.hold { s with journal := { s.journal with readIndex := v } }
  else s

/-! ### Records composed in the event that asks for them (R208) -/

def mkRecord (s : State) (lane : Option (Fin 4)) (uid : List Byte) (slot : Option Nat) (d : Detail) : Record :=
  ⟨lane, s.day, s.ms, uid, slot, d⟩

/-- A STATION record, unpledged; the time before stands only in a SET_TIME record (Table 13). -/
def stationRecord (ev : StationEvent) (byEvacuate : Bool) (beforeDay beforeMs : Nat) (s : State) : State :=
  appendUnpledged (mkRecord s none [] none (.station ev s.online byEvacuate beforeDay beforeMs)) s

/-- A LANE record, unpledged: the lane's state as it stands, its fault cause and beam, the READER_LOST change flag
and the state of its port (R53, R92, R95, R103; log entry 19). -/
def laneRecord (n : Fin 4) (changed : Bool) (s : State) : State :=
  let l := s.lane n
  let p := s.port l.config.port
  appendUnpledged (mkRecord s (some n) [] none
    (.lane l.state.code l.state.faultCode l.state.faultExit changed p.readerLost p.silent p.rfFault)) s

end Sys2Proof.Machine
end

