-- ==== Sys2Proof/Machine/Counts.lean ====
section
/-! DEFINITION. The Count Unit: counts, current windows and the Flow Rings (R113 to R127). -/

namespace Sys2Proof.Machine

/-- The eight counts (R114). -/
inductive CountKind where
  | paid
  | free
  | tailgate
  | duck
  | forced
  | void
  | denied
  | returned
  deriving DecidableEq, Repr

/-- One more, staying at 65,535 (R114). -/
def bump (n : Nat) : Nat := min (n + 1) 65535

def Counts.add (c : Counts) : CountKind → Counts
  | .paid => { c with paid := bump c.paid }
  | .free => { c with free := bump c.free }
  | .tailgate => { c with tailgate := bump c.tailgate }
  | .duck => { c with duck := bump c.duck }
  | .forced => { c with forced := bump c.forced }
  | .void => { c with void := bump c.void }
  | .denied => { c with denied := bump c.denied }
  | .returned => { c with returned := bump c.returned }

def Counts.zero : Counts := ⟨0, 0, 0, 0, 0, 0, 0, 0⟩

/-- An outcome adds 1 to its count in the lane's current window; with no window it adds to nothing (R114). -/
def count (n : Fin 4) (k : CountKind) (s : State) : State :=
  s.modLane n fun l => { l with window := l.window.map fun w => { w with counts := w.counts.add k } }

/-- A PARTIAL mark for a lane's current window (R121). -/
def markPartial (n : Fin 4) (s : State) : State :=
  s.modLane n fun l => { l with window := l.window.map fun w => { w with isPartial := true } }

/-- OFFLINE set on a lane's current window (R122). -/
def markOffline (n : Fin 4) (s : State) : State :=
  s.modLane n fun l => { l with window := l.window.map fun w => { w with isOffline := true } }

/-! ### Windows (R115 to R119) -/

/-- The window that contains station time (R115), opened with these flags, every count 0. -/
def windowAt (s : State) (isPartial isShort isOffline : Bool) : Window :=
  ⟨s.day, s.minute / s.options.windowLength, isPartial, isShort, isOffline, Counts.zero⟩

/-- A window opened on a lane; the whole mirror is rewritten (R127). -/
def openWindow (n : Fin 4) (w : Window) (s : State) : State :=
  { s.modLane n (fun l => { l with window := some w }) with
    mem := syncWords [] (wordsFrom (laneBlockBase n.val + 80) (windowBytes w)) s.mem }

/-- The 32 bytes of a flow record (R123, Table 14). -/
def flowBytes (number startMinute length : Nat) (w : Window) : List Byte :=
  le 2 number ++ le 2 w.day ++ le 2 w.index ++ le 2 startMinute ++ le 1 length ++ le 1 (windowFlags w)
    ++ w.counts.bytes ++ List.replicate 6 0

/-- The ring position after the latest one (R124, R126). -/
def nextFlowPosition : Option Nat → Nat
  | none => 0
  | some p => (p + 1) % 64

/-- The record number after the latest one, wrapping from 65,535 to 1 (R124). -/
def nextFlowNumber (n : Nat) : Nat := if 65535 ≤ n then 1 else n + 1

/-- A lane's window closes: the flow record goes into the ring, the header's index follows, and the mirror keeps the
values of the window just closed (R123, R124, R127). The whole mirror is written with them, unchanged words included, so
that it has the values of the flow record: DESIGN CHOICE, log entry 50. -/
def closeWindow (n : Fin 4) (w : Window) (length : Nat) (s : State) : State :=
  let l := s.lane n
  let p := nextFlowPosition l.flowPosition
  let number := nextFlowNumber l.flowNumber
  let start := w.index * s.options.windowLength
  { s.modLane n (fun l => { l with window := none, flowPosition := some p, flowNumber := number }) with
    mem := syncWords [] (wordsFrom (laneBlockBase n.val + 80) (windowBytes w))
      ((s.mem.writeBytes (flowBase n.val p) (flowBytes number start length w)).write (hdrFlow n.val) 2 p) }

/-- The length field: the end time of day in minutes rounded up, less the start minute (R123). -/
def windowLengthTo (s : State) (w : Window) (endMs : Nat) : Nat :=
  (endMs + 59999) / 60000 - w.index * s.options.windowLength

/-- The nominal end of a window in milliseconds of its day (R117). -/
def windowEndMs (s : State) (w : Window) : Nat := (w.index + 1) * s.options.windowLength * 60000

/-- The close at the end of the window by time, and the opening of the next (R117). -/
def closeAtEnd (n : Fin 4) (s : State) : State :=
  match (s.lane n).window with
  | some w =>
    if windowEndMs s w ≤ s.ms ∧ windowEndMs s w < 86400000 then
      openWindow n ⟨w.day, w.index + 1, false, false, !s.online, Counts.zero⟩
        (closeWindow n w s.options.windowLength s)
    else s
  | none => s

/-- The close at a rollover (R118). `endMs` is the time of day at which the old day ended for the window, `cut`
whether SET_TIME cut the day short. Window 0 of the new day opens. -/
def closeAtRollover (cut : Bool) (endMs : Nat) (n : Fin 4) (s : State) : State :=
  match (s.lane n).window with
  | some w =>
    let short := cut || 1440 < (w.index + 1) * s.options.windowLength
    openWindow n ⟨s.day, 0, false, false, !s.online, Counts.zero⟩
      (closeWindow n { w with isShort := w.isShort || short } (windowLengthTo s w endMs) s)
  | none => s

/-- Whether the new time lies exactly on the start minute of the window that contains it (R119). -/
def atWindowStart (s : State) : Bool :=
  s.ms = s.minute / s.options.windowLength * s.options.windowLength * 60000

/-- A step within the day: the window closes SHORT and the window that contains the new time opens (R119). -/
def stepWindow (endMs : Nat) (n : Fin 4) (s : State) : State :=
  match (s.lane n).window with
  | some w =>
    openWindow n (windowAt s false (!atWindowStart s) (!s.online))
      (closeWindow n { w with isShort := true } (windowLengthTo s w endMs) s)
  | none => s

/-- A step into a later day: the window 0 just opened is replaced without a record (R119). -/
def replaceWindow (n : Fin 4) (s : State) : State :=
  match (s.lane n).window with
  | some _ => openWindow n (windowAt s false (!atWindowStart s) (!s.online)) s
  | none => s

/-- The close at the completion of quieting, with PARTIAL (R120). -/
def closeAtQuiet (n : Fin 4) (s : State) : State :=
  match (s.lane n).window with
  | some w => closeWindow n { w with isPartial := true } (windowLengthTo s w s.ms) s
  | none => s

end Sys2Proof.Machine
end

