-- ==== Sys2Proof/Machine/Cues.lean ====
section
/-! DEFINITION. The Cue Table as the part reads it and the Cue Sequencers (R172 to R180). -/

namespace Sys2Proof.Machine

/-! ### Reading a list (R173) -/

/-- A target code; 5, 6 and 7 are taken as END. -/
def cueTarget (code : Nat) : CueTarget :=
  match code with
  | 1 => .green
  | 2 => .red
  | 3 => .amber
  | 4 => .buzzer
  | _ => .stop

/-- One entry: a BUZZER value of 9 to 255 is taken as tone 8. -/
def readCueEntry (m : Memory) (list i : Nat) : CueEntry :=
  let a := cueBase list + 4 * i
  let target := cueTarget (m.read (a + 2) 1 % 8)
  let v := m.read (a + 3) 1
  ⟨m.read a 2, target, if target = .buzzer then min v 8 else v⟩

/-- The sixteen entries of a list. -/
def readCueList (m : Memory) (list : Nat) : List CueEntry := (List.range 16).map (readCueEntry m list)

/-- The mode of a list: the highest-order bit of byte 2 of entry 0 (R173). -/
def cueRepeats (m : Memory) (list : Nat) : Bool := (m.byteAt (cueBase list + 2)).getLsbD 7

/-! ### Playing (R177, R178) -/

/-- Acting on an entry other than END. -/
def applyCue (e : CueEntry) (lv : Levels) : Levels :=
  match e.target with
  | .stop => lv
  | .green => { lv with green := e.value }
  | .red => { lv with red := e.value }
  | .amber => { lv with amber := e.value }
  | .buzzer => { lv with buzzer := e.value }

/-- Where a look through the due entries stops. -/
inductive PlayEnd where
  /-- The entry at this position is not due yet. -/
  | waiting (position : Nat)
  /-- An END was reached. -/
  | atEnd
  /-- Entry 15 was applied and there was no END. -/
  | exhausted
  deriving DecidableEq, Repr

/-- The entries from a position on, applied in order while their offset is at most the elapsed time (R177). -/
def playEntries (elapsed : Nat) : List CueEntry → Nat → Levels → Levels × PlayEnd
  | [], _, lv => (lv, .exhausted)
  | e :: es, position, lv =>
    if elapsed < e.offset then (lv, .waiting position)
    else if e.target = .stop then (lv, .atEnd)
    else playEntries elapsed es (position + 1) (applyCue e lv)

/-- A new pass at elapsed time 0; an END reached there ends the cue (R178). -/
def startPass (c : Cue) (now : Nat) (lv : Levels) : Levels × Option Cue :=
  match playEntries 0 c.entries 0 lv with
  | (lv', .waiting p) => (lv', some { c with position := p, start := now })
  | (lv', _) => (lv', none)

/-- The due entries of a running cue taken at tick `now` (R177, R178). -/
def playCue (c : Cue) (now : Nat) (lv : Levels) : Levels × Option Cue :=
  let elapsed := now - c.start
  match playEntries elapsed (c.entries.drop c.position) c.position lv with
  | (lv', .waiting p) => (lv', some { c with position := p })
  | (lv', .exhausted) => (lv', none)
  | (lv', .atEnd) => if c.repeats ∧ 1 ≤ elapsed then startPass c now lv' else (lv', none)

/-- Whether the entry at the position has reached its offset. -/
def cueDue (c : Cue) (now : Nat) : Bool :=
  match c.entries.drop c.position with
  | [] => true
  | e :: _ => e.offset ≤ now - c.start

/-! ### Starting (R174 to R176) -/

/-- The list the cue map in force names for an outcome. -/
def LaneConfig.cueFor (c : LaneConfig) (o : CueOutcome) : Option (Fin 32) := c.cueMap.getD o.index none

/-- A cue started from a list: the snapshot is copied and the entries due at elapsed time 0 are applied (R176). -/
def startCue (n : Fin 4) (o : CueOutcome) (list : Fin 32) (s : State) : State :=
  let c : Cue := ⟨readCueList s.mem list, cueRepeats s.mem list, list, o, 0, s.now⟩
  let r := startPass c s.now (s.lane n).levels
  s.modLane n fun l => { l with levels := r.1, cue := r.2 }

/-- An outcome handed to a lane's sequencer: nothing for NONE, nothing for a lane whose state is DOWN (R174). -/
def handOutcome (n : Fin 4) (o : CueOutcome) (s : State) : State :=
  if (s.lane n).state.isDown then s
  else
    match (s.lane n).config.cueFor o with
    | some list => startCue n o list s
    | none => s

/-- An outcome handed in place of READY: READY after all where the map gives NONE for it (R175). -/
def handInPlaceOfReady (n : Fin 4) (o : CueOutcome) (s : State) : State :=
  if ((s.lane n).config.cueFor o).isSome then handOutcome n o s else handOutcome n .ready s

/-- A lane enters READY and hands READY (R175). -/
def enterReady (n : Fin 4) (s : State) : State :=
  handOutcome n .ready (s.modLane n (·.enter (.ready none)))

/-- A lane enters READY and hands another outcome in place of READY (R175). -/
def enterReadyWith (n : Fin 4) (o : CueOutcome) (s : State) : State :=
  handInPlaceOfReady n o (s.modLane n (·.enter (.ready none)))

end Sys2Proof.Machine
end

