-- ==== Sys2Proof/Machine/Operands.lean ====
section
/-! DEFINITION. The Order Table (R200 to R205): the visit of a sweep, the take, the end of an order, and the payload
fields an order is read from (Tables 11, 12). -/

namespace Sys2Proof.Machine

/-- The result codes (R204). -/
inductive Result where
  | ok
  | stale
  | notFound
  | inUse
  | tableCrowded
  | badField
  | kindMismatch
  | kindChange
  | daysLowered
  | stageFull
  | ladderOrder
  | windowShape
  | notQuiet
  | lanesActive
  | portTaken
  | timeBackward
  | closureNotToday
  | closureFull
  | notRefundable
  | blocked
  | retired
  | journalFull
  | evacuateHeld
  | reset
  | unknownKind
  deriving DecidableEq, Repr

def Result.code : Result → Nat
  | .ok => 0
  | .stale => 1
  | .notFound => 2
  | .inUse => 3
  | .tableCrowded => 4
  | .badField => 5
  | .kindMismatch => 6
  | .kindChange => 7
  | .daysLowered => 8
  | .stageFull => 9
  | .ladderOrder => 10
  | .windowShape => 11
  | .notQuiet => 12
  | .lanesActive => 13
  | .portTaken => 14
  | .timeBackward => 15
  | .closureNotToday => 16
  | .closureFull => 17
  | .notRefundable => 18
  | .blocked => 19
  | .retired => 20
  | .journalFull => 21
  | .evacuateHeld => 22
  | .reset => 23
  | .unknownKind => 24

/-- The state word an order ends with: DONE for OK and STALE, FAILED for any other result (R204). -/
def Result.slotState : Result → Nat
  | .ok => 3
  | .stale => 3
  | _ => 4

/-! ### Slots -/

/-- A slot's state word: 0 EMPTY, 1 POSTED, 2 TAKEN, 3 DONE, 4 FAILED (R200). -/
def orderState (s : State) (k : Nat) : Nat := s.peek (orderBase k) 2

/-- A slot's kind byte (R203, Table 11). -/
def orderKind (s : State) (k : Nat) : Nat := s.peek (orderBase k + 2) 1

/-- A payload field of `n` bytes at a byte offset of a slot (Table 12). -/
def payload (s : State) (k off n : Nat) : Nat := s.peek (orderBase k + off) n

/-- The UID of a pass order, none when its length is not 4, 7 or 10 (R8, Table 12). -/
def payloadUid (s : State) (k : Nat) : Option (List Byte) :=
  if uidLengthOk (payload s k 8 1) then some (s.mem.readBytes (orderBase k + 9) (payload s k 8 1)) else none

/-- Whether a slot's order is still in flight (R201, R202). -/
def inFlight (s : State) (k : Nat) : Bool :=
  (match s.withdrawal with | some w => w.order.slot.val = k | none => false)
    || s.withdrawalsWaiting.any (fun o => o.slot.val = k)
    || (match s.creditSweep with | some c => c.order.slot.val = k | none => false)
    || s.closuresWaiting.any (fun o => o.slot.val = k)
    || s.lanesWaiting.any (fun o => o.slot.val = k)

/-- A visit takes a slot that is POSTED and whose earlier order is not still in flight (R202). -/
def takeable (s : State) (k : Nat) : Bool := orderState s k = 1 && !inFlight s k

/-- The slot that a sweep visits after slot `k`, none when slot 31 has been visited (R202). -/
def slotAfter (k : Fin 32) : Option (Fin 32) := if h : k.val + 1 < 32 then some ⟨k.val + 1, h⟩ else none

/-- The order that the running sweep's visit takes: the one at the slot it visits next, where that slot is takeable
(R202). None while no sweep runs, and where the visit passes over its slot. -/
def nextOrder (s : State) : Option (Fin 32) :=
  match s.sweepNext with
  | some k => if takeable s k then some k else none
  | none => none

/-- The take: the state word becomes TAKEN, and the sweep goes on after this slot (R201, R202). -/
def takeSlot (k : Fin 32) (s : State) : State :=
  { s.poke (orderBase k) 2 2 with sweepNext := slotAfter k }

/-- The end of an order: the result code, then the state word if it reads TAKEN, with ORDER_DONE (R201, R202). The kind byte
is kept as it stands in the slot, a host's write over it included: DESIGN CHOICE, log entry 47. -/
def endOrder (k : Fin 32) (r : Result) (s : State) : State :=
  let t := s.poke (orderBase k + 3) 1 r.code
  if orderState t k = 2 then raise .orderDone (t.poke (orderBase k) 2 r.slotState) else t

/-- A run of result bytes written into a slot's result area, and no other byte of the slot (R202): that a byte beside an odd
end stands is a DESIGN CHOICE, log entry 53. -/
def pokeResult (k : Fin 32) (off : Nat) (bs : List Byte) (s : State) : State :=
  { s with mem := s.mem.writeBytes (orderBase k + off) bs }

/-- The visit of a sweep at slot `k`, for an order the row stands for: it is taken and carried out in one event. A
command for a slot that the sweep does not visit next, or for an order of another row, finds nothing to take. -/
def visit (k : Fin 32) (isRow : State → Bool) (body : State → State) (s : State) :
    Host.Outcome State Fault Refusal :=
  if nextOrder s = some k ∧ isRow s then event s (body (takeSlot k s)) else .next s

/-- The row's kind of order (R203). -/
def kindIs (k : Fin 32) (code : Nat) (s : State) : Bool := orderKind s k = code

/-! ### Waiting orders -/

/-- An order put in its place among orders in ascending slot order. -/
def insertBySlot {α : Type} (slot : α → Nat) (x : α) : List α → List α
  | [] => [x]
  | y :: ys => if slot x ≤ slot y then x :: y :: ys else y :: insertBySlot slot x ys

/-- Orders in the ascending order of their Order Table slots (R22, R91, R138). -/
def sortBySlot {α : Type} (slot : α → Nat) (l : List α) : List α := l.foldr (insertBySlot slot) []

/-! ### Payloads read whole (Table 12) -/

/-- The payload of INSERT_PASS but for its UID. -/
structure InsertPayload where
  product : Nat
  stamp : Nat
  issueDay : Nat
  firstDay : Option Nat
  paid : Nat
  blocked : Bool
  resetUsage : Bool
  deriving DecidableEq, Repr

def readInsert (s : State) (k : Nat) : InsertPayload :=
  { product := payload s k 19 1
    stamp := payload s k 20 2
    issueDay := payload s k 22 2
    firstDay := wordOpt (payload s k 24 2)
    paid := payload s k 26 3
    blocked := (payload s k 29 1).testBit 0
    resetUsage := (payload s k 29 1).testBit 1 }

/-- The nearer limit of a range (R88, R190). -/
def clamp (lo hi v : Nat) : Nat := max lo (min hi v)

/-- 0 selects the default, other values are clamped to the nearer limit (R88, R190). -/
def clampOr (dflt lo hi v : Nat) : Nat := if v = 0 then dflt else clamp lo hi v

/-- A number 0 to 3, as a lane or port. -/
def fourOf (n : Nat) : Option (Fin 4) := if h : n < 4 then some ⟨n, h⟩ else none

def roleOfCode (n : Nat) : Option LaneRole :=
  match n with
  | 0 => some .down
  | 1 => some .entry
  | 2 => some .ret
  | _ => none

def driveOfCode (code width : Nat) : Option LockDrive :=
  match code with
  | 0 => some .level
  | 1 => some (.pulse (clamp 50 500 width))
  | _ => none

/-- A cue map byte: a list 0 to 31, or 0xFF for NONE (R88, Table 12). -/
def cueByteOk (v : Nat) : Bool := v ≤ 31 || v = 0xFF

/-- The list a cue map byte names, none for NONE. -/
def cueOf (v : Nat) : Option (Fin 32) := if h : v < 32 then some ⟨v, h⟩ else none

/-- The lane and configuration a SET_LANE carries, clamped where R88 clamps; none where a field is refused (R89). -/
def readSetLane (s : State) (k : Nat) : Option (Fin 4 × LaneConfig) :=
  let cues := (List.range 13).map fun i => payload s k (18 + i) 1
  match fourOf (payload s k 8 1), roleOfCode (payload s k 9 1),
      driveOfCode (payload s k 14 1) (payload s k 15 2), fourOf (payload s k 17 1) with
  | some lane, some role, some drive, some port =>
    if cues.all cueByteOk then
      some (lane,
        { role := role
          grantWindow := clampOr 6000 1000 15000 (payload s k 10 2)
          holdLimit := clampOr 20000 5000 60000 (payload s k 12 2)
          drive := drive
          port := port
          cueMap := cues.map cueOf })
    else none
  | _, _, _, _ => none

/-! ### Sources of an Input Map (R85, R87, Table 12) -/

/-- One source from its two bytes: the outer none is a field R87 step 2 refuses, the inner none is NONE. -/
def readSource (m : Memory) (a : Nat) : Option (Option Source) :=
  let pin := m.read a 1
  let second := m.read (a + 1) 1
  if pin = 0xFF then some none
  else
    let polarity : Option Polarity := match second % 4 with
      | 0 => some .activeHigh
      | 1 => some .activeLow
      | _ => none
    match polarity with
    | some pol =>
      if h : pin < 16 then
        if 1 ≤ second / 4 ∧ second / 4 ≤ 50 then some (some ⟨⟨pin, h⟩, pol, second / 4⟩) else none
      else none
    | none => none

/-- The sixteen sources at an address, lane by lane and ARM, ENTRY, EXIT, CAPTURE within a lane; none where one is
refused (R87 step 2). -/
def readSources (m : Memory) (a : Nat) : Option (List (Option Source)) :=
  (List.range 16).mapM fun i => readSource m (a + 2 * i)

/-- No pin is named by two sources (R87 step 3). -/
def pinsDistinct (l : List (Option Source)) : Bool := ((l.filterMap id).map (·.pin)).Nodup

/-- The source of a sensing role of a lane in a list of sixteen: roles 0 ARM, 1 ENTRY, 2 EXIT, 3 CAPTURE. -/
def sourceOf (l : List (Option Source)) (n : Fin 4) (role : Nat) : Option Source :=
  (l.getD (4 * n.val + role) none)

/-- An Input Map brought into force: every source restarts inactive with hold count 0 (R86, R87). -/
def mapInputs (l : List (Option Source)) (lanes : Quad Lane) : Quad Lane :=
  lanes.mapIdx fun n x =>
    { x with arm := ⟨sourceOf l n 0, false, 0⟩
             entryBeam := ⟨sourceOf l n 1, false, 0⟩
             exitBeam := ⟨sourceOf l n 2, false, 0⟩
             switch := ⟨sourceOf l n 3, false, 0⟩ }

/-- The mirror bytes of a map whose every source is NONE (R194). -/
def noneSources : List Byte := ((List.range 16).map fun _ => [255#8, 0#8]).flatten

end Sys2Proof.Machine
end

