-- ==== Sys2Proof/Machine/PassTable.lean ====
section
/-! DEFINITION. The Pass Table: the UID hash and probe (R5 to R7), the lane marker (R69), the charge of a commit (R128 to
R133) and closure credits (R140, R141, R145). -/

namespace Sys2Proof.Machine

/-! ### Finding a pass -/

/-- The home slot of a UID (R5). -/
def homeSlot (uid : List Byte) : Nat := uid.foldl (fun h b => (h * 33 + b.toNat) % passSlots) 0

/-- Whether the entry at a slot has this UID: equal lengths and equal UID bytes (R6). -/
def uidMatches (m : Memory) (s : Nat) (uid : List Byte) : Bool :=
  m.read (passBase s + 1) 1 = uid.length && m.readBytes (passBase s + 2) uid.length = uid

/-- The result of a probe: the slot of the hit, and the first TOMB or FREE slot seen (R6, R7). -/
structure Probe where
  hit : Option Nat
  vacant : Option Nat
  deriving DecidableEq, Repr

/-- `fuel` slots probed from slot `h` on, wrapping; `v` is the first vacant slot seen so far (R6, R7). A slot state
byte above 2 is passed over as TOMB is (log entry 16). -/
def probeFrom (m : Memory) (uid : List Byte) : Nat → Nat → Option Nat → Probe
  | 0, _, v => ⟨none, v⟩
  | fuel + 1, h, v =>
    if slotStateOf m h = 0 then ⟨none, v.or (some h)⟩
    else if slotStateOf m h = 1 then
      if uidMatches m h uid then ⟨some h, v⟩ else probeFrom m uid fuel ((h + 1) % passSlots) v
    else probeFrom m uid fuel ((h + 1) % passSlots) (v.or (some h))

/-- The lookup of R6: at most 16 slots from the home slot. -/
def probe (m : Memory) (uid : List Byte) : Probe := probeFrom m uid 16 (homeSlot uid) none

/-- The pass slot of a UID, none for a miss (R6). -/
def lookup (m : Memory) (uid : List Byte) : Option Nat := (probe m uid).hit

/-- The pass entry at a slot, the product record it names. -/
def State.pass (s : State) (slot : Nat) : PassEntry := readPass s.mem slot
def State.product (s : State) (i : Nat) : Product := readProduct s.mem i

def State.putPass (s : State) (slot : Nat) (e : PassEntry) : State := { s with mem := writePass s.mem slot e }

/-- The lane marker of an entry set or cleared (R69). -/
def setMarker (slot : Nat) (lane : Option (Fin 4)) (s : State) : State :=
  s.poke (passBase slot + 31) 1 (optByte (lane.map (·.val)))

/-! ### Closure credit -/

/-- The first closure in the list that starts at or before the cutoff, for a cutoff below 1,440 (R140). -/
def creditingClosure (m : Memory) (cutoff : Nat) : Option Nat :=
  if cutoff < 1440 then (heldClosures m).find? fun i => (readClosure m i).startMinute ≤ cutoff else none

/-- The test of R140: the list position of the first closure that earns the entry a credit, none where it earns
none. -/
def creditTest (s : State) (e : PassEntry) : Option Nat :=
  if e.slotState = 1 ∧ (s.product e.product).kind = .days ∧ e.retired = false ∧ e.lastDay = some s.day
      ∧ e.creditedDay ≠ some s.day ∧ e.credited < e.daysUsed then
    creditingClosure s.mem (s.product e.product).cutoff
  else none

/-- An entry with one more credited day, credited today (R141). -/
def creditEntry (today : Nat) (e : PassEntry) : PassEntry :=
  { e with usage := daysUsage e.daysUsed (e.credited + 1), creditedDay := some today }

/-! ### The commit's charge (R128 to R133, R145) -/

/-- What a charge found, for the PASSAGE record (R134). -/
structure Charge where
  entry : PassEntry
  consumed : Bool
  overdrawn : Bool
  usageAfter : Nat
  deriving DecidableEq, Repr

/-- Steps 1 to 3 of R128 on an entry, under a product, today and the operating minute. -/
def chargeEntry (e : PassEntry) (p : Product) (today minute : Nat) : Charge :=
  let kept : PassEntry :=
    { e with firstDay := some (e.firstDay.getD today), lastDay := some today, lastMinute := some minute, marker := none }
  match p.kind with
  | .days =>
    if e.lastDay = some today then ⟨kept, false, false, e.daysUsed⟩
    else if e.daysUsed < p.daysBought then
      ⟨{ kept with usage := daysUsage (e.daysUsed + 1) e.credited }, true, false, e.daysUsed + 1⟩
    else ⟨kept, false, true, e.daysUsed⟩
  | .rides =>
    let left := e.usage - 1
    ⟨{ kept with usage := left, flags := if left = 0 then setFlag e.flags 2 true else e.flags }, false, false, left⟩
  | _ => ⟨kept, false, false, 0⟩

/-- The whole commit at a pass entry: the charge, then the credit at commit where a day was consumed (R145). The
flag says whether a credit was earned. -/
def commitPass (slot : Nat) (s : State) : State × Charge × Bool :=
  let e := s.pass slot
  let c := chargeEntry e (s.product e.product) s.day s.minute
  let s1 := s.putPass slot c.entry
  if c.consumed ∧ (creditTest s1 c.entry).isSome then
    (s1.putPass slot (creditEntry s.day c.entry), c, true)
  else (s1, c, false)

end Sys2Proof.Machine
end

