-- ==== Sys2Proof/Machine/LaneOps.lean ====
section
/-! DEFINITION. What several commands do at a lane: SHOW requests and port service (R54 to R57), denials, voids and the
ends of referrals (R65, R66, R73, R79), the application of configurations and waiting SET_LANE orders (R88 to R92), the
completion of quieting (R111) and the start of free flow (R105). -/

namespace Sys2Proof.Machine

/-! ### Reader ports -/

/-- A SHOW request: an idle transmitter starts it, a sending one holds it as the one pending frame (R55). -/
def sendShow (p : Fin 4) (code : ShowCode) (value : Nat) (s : State) : State :=
  s.modPort p fun x =>
    match x.sending with
    | none => { x with sending := some ⟨code, value⟩ }
    | some _ => { x with pendingShow := some ⟨code, value⟩ }

/-- Whether a lane's role in force is ENTRY or RETURN and it names the port (R42). -/
def laneServes (s : State) (p n : Fin 4) : Bool :=
  (s.lane n).config.role ≠ .down && (s.lane n).config.port = p

/-- The lane that names a port in service (R42, R56). -/
def servedLane (s : State) (p : Fin 4) : Option (Fin 4) := allFour.find? (laneServes s p)

/-- A port is in service while the station is RUNNING or QUIETING and some ENTRY or RETURN lane names it (R42). -/
def inService (s : State) (p : Fin 4) : Bool :=
  (s.station = .running || s.station = .quieting) && (servedLane s p).isSome

/-- A port as it enters service (R57). -/
def Port.enterService (x : Port) : Port :=
  { x with silence := some 0, silent := false, rfFault := false, repeatRec := none }

/-- A port as it leaves service (R57). -/
def Port.leaveService (x : Port) : Port :=
  { x with silence := none, silent := false, rfFault := false, repeatRec := none }

/-- Each port enters or leaves service as the event changed it (R57). -/
def changeService (before after : State) : State :=
  { after with ports := after.ports.mapIdx fun p x =>
      match inService before p, inService after p with
      | false, true => x.enterService
      | true, false => x.leaveService
      | _, _ => x }

/-! ### Denials and voids -/

/-- A denial's DENY record, SHOW and DENIED count (R65, R66, R79). -/
def denyCore (n port : Fin 4) (uid : List Byte) (slot : Option Nat) (reason : DenyReason) (ending : ReferralEnd)
    (s : State) : State :=
  count n .denied (sendShow port (.deny reason) 0
    (appendUnpledged (mkRecord s (some n) uid slot (.deny reason ending)) s))

/-- A denial at a lane that stays as it is, with the DENY cue (R65, R162). -/
def denyTap (n port : Fin 4) (uid : List Byte) (slot : Option Nat) (reason : DenyReason) (s : State) : State :=
  handOutcome n .deny (denyCore n port uid slot reason .none s)

/-- A tap denied LANE_BUSY: no cue, the lane untouched (R66). -/
def denyBusy (n port : Fin 4) (uid : List Byte) (s : State) : State :=
  denyCore n port uid none .laneBusy .none s

/-- A denial that ends a referral and returns the lane to READY (R79). -/
def denyReferralToReady (n : Fin 4) (r : Referral) (slot : Option Nat) (reason : DenyReason) (ending : ReferralEnd)
    (s : State) : State :=
  enterReadyWith n .deny (denyCore n r.port r.uid slot reason ending s)

/-- A denial that ends a referral whose lane goes on to another state than READY (R82): the DENY cue starts. -/
def denyReferralOnward (n : Fin 4) (r : Referral) (reason : DenyReason) (ending : ReferralEnd) (s : State) : State :=
  handOutcome n .deny (denyCore n r.port r.uid none reason ending s)

/-- A void but for its cue and the state it leads to: the marker, the pledged VOID record and the count (R73). -/
def voidCore (n : Fin 4) (g : Grant) (cause : VoidCause) (s : State) : State :=
  let t := setMarker g.slot none s
  count n .void (appendPledged (mkRecord t (some n) g.uid (some g.slot) (.void cause)) t)

/-- A void that returns the lane to READY (R73, R175). -/
def voidToReady (n : Fin 4) (g : Grant) (cause : VoidCause) (s : State) : State :=
  enterReadyWith n .void (voidCore n g cause s)

/-- A void whose lane goes on to another state than READY: the VOID cue starts (R73). -/
def voidOnward (n : Fin 4) (g : Grant) (cause : VoidCause) (s : State) : State :=
  handOutcome n .void (voidCore n g cause s)

/-! ### Configurations -/

/-- A configuration comes into force: a changed lock drive ends a pulse in progress (R186). -/
def Lane.putConfig (l : Lane) (c : LaneConfig) : Lane :=
  { l with config := c, pendingConfig := none
           lockPulse := if l.config.drive = c.drive then l.lockPulse else none }

/-- Whether a lane's configuration of role ENTRY or RETURN names the port (R56). -/
def configTakes (c : LaneConfig) (p : Fin 4) : Bool := c.role ≠ .down && c.port = p

/-- The PORT_TAKEN test: some other lane, in force or pending, names the port with a role of ENTRY or RETURN
(R56, R89). -/
def portTaken (s : State) (n : Fin 4) (c : LaneConfig) : Bool :=
  c.role ≠ .down && allFour.any fun m =>
    m ≠ n && (configTakes (s.lane m).config c.port
      || (match (s.lane m).pendingConfig with | some d => configTakes d c.port | none => false))

/-- Whether the Input Map in force gives a lane the sources its role needs (R89). -/
def sourcesMapped (s : State) (n : Fin 4) : LaneRole → Bool
  | .down => true
  | .entry =>
    (s.lane n).arm.source.isSome && (s.lane n).entryBeam.source.isSome && (s.lane n).exitBeam.source.isSome
  | .ret => (s.lane n).switch.source.isSome

/-- A configuration applied while RUNNING (R92): it comes into force, timers and trackers are cleared, the lane
enters DOWN, FREE or ARMING, its port enters or leaves service, and a LANE record and a PARTIAL mark are made. -/
def applyConfig (n : Fin 4) (c : LaneConfig) (s : State) : State :=
  let place (l : Lane) : Lane :=
    match c.role with
    | .down => l.enterDown
    | .entry =>
      if s.freeFlow then
        { l with state := .free, latestEntry := none, stuckEntry := 0, stuckExit := 0, stuckSwitch := 0 }
      else l.enterArming
    | .ret => l.enterArming
  laneRecord n false (markPartial n (changeService s (s.modLane n fun l => place (l.putConfig c))))

/-- The configuration becomes the lane's pending configuration (R90). -/
def makePending (n : Fin 4) (c : LaneConfig) (s : State) : State :=
  s.modLane n fun l => { l with pendingConfig := some c }

/-- SET_LANE carried out by R90 for the station state and lane state as they stand. The PORT_TAKEN test is made at
the moment the configuration is stored, made pending or applied; a failure after a void or a denial leaves the lane
READY. At a PASSING or CAPTURING lane while QUIETING it becomes pending, as R90's row for QUIETING says, or waits, as R91,
R104 and R165 say: a free value decides (DESIGN CHOICE, log entry 45). -/
def carrySetLane (o : LaneOrder) (s : State) : State :=
  let n := o.lane
  let c := o.config
  let taken := portTaken s n c
  let done (t : State) : State := endOrder o.slot .ok t
  let fail (t : State) : State := endOrder o.slot .portTaken t
  let wait : State := { s with lanesWaiting := s.lanesWaiting ++ [o] }
  match s.station with
  | .running =>
    match (s.lane n).state with
    | .granted g =>
      if taken then fail (voidToReady n g .laneChange s) else done (applyConfig n c (voidOnward n g .laneChange s))
    | .referred r =>
      if taken then fail (denyReferralToReady n r none .laneChange .laneChange s)
      else done (applyConfig n c (denyReferralOnward n r .laneChange .laneChange s))
    | .free => if taken then fail s else done (makePending n c s)
    | .passing _ => wait
    | .capturing _ => wait
    | _ => if taken then fail s else done (applyConfig n c s)
  | .quieting =>
    if (s.lane n).state.isBusy && Config.quietingWaits then wait
    else if taken then fail s
    else done (makePending n c s)
  | _ => if taken then fail s else done (s.modLane n (·.putConfig c))

/-- The SET_LANE orders that wait for a lane, carried out in the ascending order of their slots once it has left
PASSING or CAPTURING (R91). -/
def runWaiting (n : Fin 4) (s : State) : State :=
  let mine := sortBySlot (fun o => o.slot.val) (s.lanesWaiting.filter (fun o => o.lane = n))
  mine.foldl (fun t o => carrySetLane o t) { s with lanesWaiting := s.lanesWaiting.filter (fun o => o.lane ≠ n) }

/-! ### Quieting (R111, R120, R197) -/

/-- A lane at the completion of quieting: its pending configuration comes into force and it enters DOWN. -/
def Lane.quietDown (l : Lane) : Lane :=
  match l.pendingConfig with
  | some c => (l.putConfig c).enterDown
  | none => l.enterDown

/-- Whether some lane is PASSING or CAPTURING. -/
def someBusy (s : State) : Bool := allFour.any fun n => (s.lane n).state.isBusy

/-- Quieting completes: every lane enters DOWN, the windows close with PARTIAL, the STATION record is appended, the
station is QUIET, and the ports leave service. -/
def completeQuieting (s : State) : State :=
  let s1 : State := { s with lanes := s.lanes.mapIdx fun _ l => l.quietDown }
  let s2 := stationRecord .quiet false 0 0 (eachLane closeAtQuiet s1)
  changeService s { s2 with station := .quiet }

/-- Quieting completes at the first moment at which no lane is PASSING or CAPTURING (R111). -/
def quietIfIdle (s : State) : State :=
  if s.station = .quieting ∧ someBusy s = false then completeQuieting s else s

/-- A lane leaves PASSING or CAPTURING: the orders waiting for it, then the end of quieting (R91, R111). -/
def afterBusy (n : Fin 4) (s : State) : State := quietIfIdle (runWaiting n s)

/-! ### Free flow (R105) -/

/-- A lane enters FREE at the start of free flow: a PARTIAL mark and the FREE cue. -/
def enterFree (n : Fin 4) (s : State) : State :=
  handOutcome n .free (markPartial n (s.modLane n (·.enter .free)))

/-- What the start of free flow does to one lane, by its state. -/
def freeLane (n : Fin 4) (s : State) : State :=
  if (s.lane n).config.role = .entry then
    match (s.lane n).state with
    | .down => s
    | .free => s
    | .referred r => enterFree n (denyReferralOnward n r .freeFlow .freeFlow s)
    | .granted g => enterFree n (voidOnward n g .freeFlow s)
    | .passing _ => runWaiting n (enterFree n s)
    | _ => enterFree n s
  else s

/-- Free flow starts when the flag goes from clear to set (R105); quieting may complete in the same event. -/
def startFreeFlow (byEvacuate : Bool) (s : State) : State :=
  if s.freeFlow then s
  else quietIfIdle (eachLane freeLane (stationRecord .freeFlowOn byEvacuate 0 0 { s with freeFlow := true }))

end Sys2Proof.Machine
end

