-- ==== Sys2Proof/Machine/Products.lean ====
section
/-! DEFINITION. Staging, immediate writing and withdrawal of products: STAGE_PRODUCT and WITHDRAWAL_SCAN (R19 to R24). -/

namespace Sys2Proof.Machine

/-- Step 3 of R19: the fields used by the kind stand in their ranges (R17). -/
def fieldsInRange (p : Product) : Bool :=
  (1 ≤ p.span && p.span ≤ 255)
    && (!p.floating || (1 ≤ p.activation && p.activation ≤ 365))
    && p.openMinute ≤ 1410 && 30 ≤ p.closeMinute && p.closeMinute ≤ 1440 && p.passback ≤ 120
    && (match p.kind with
        | .days => 1 ≤ p.daysBought && p.daysBought ≤ 14 && p.cutoff ≤ 1440
        | .rides => 1 ≤ p.ridesInitial && p.ridesInitial ≤ 500
        | _ => true)
    && (match p.kind with
        | .season => true
        | _ => 1 ≤ p.rounding && p.rounding ≤ 10000 && p.late ≤ 1000 && p.deadline ≤ 365)

/-- Step 5 of R19: the ladder does not decrease up to D. -/
def ladderOrdered (p : Product) : Bool :=
  (List.range p.daysBought).all fun i => p.price i ≤ p.price (i + 1)

/-- Steps 3 to 7 of R19 against the record in force. -/
def definitionProblem (old new : Product) : Option Result :=
  if fieldsInRange new = false then some .badField
  else if new.closeMinute ≤ new.openMinute ∨ 1440 < new.closeMinute ∨ new.closeMinute - new.openMinute < 30 then
    some .windowShape
  else if new.kind = .days ∧ ladderOrdered new = false then some .ladderOrder
  else if old.kind ≠ .none ∧ new.kind ≠ old.kind then some .kindChange
  else if old.kind = .days ∧ new.daysBought < old.daysBought then some .daysLowered
  else if old.kind = .rides ∧ new.ridesInitial < old.ridesInitial then some .daysLowered
  else none

/-- Step 9 of R19: the Staging Area holds 8 records and none of them is for this index. -/
def stageFull (m : Memory) (index : Nat) : Bool :=
  8 ≤ (readStaging m).length && !(readStaging m).any (fun x => x.1 = index)

/-- Steps 8 and 9 of R19. -/
def placeProblem (s : State) (index : Nat) (immediate : Bool) : Option Result :=
  if immediate ∧ s.station ≠ .quiet then some .notQuiet
  else if ¬immediate ∧ stageFull s.mem index then some .stageFull
  else none

/-- A record staged: in the place of one for the same index, or at the end of the list (R20). -/
def stageRecord (index : Nat) (p : Product) (s : State) : State :=
  let l := readStaging s.mem
  let l' := if l.any (fun x => x.1 = index) then l.map (fun x => if x.1 = index then (index, p) else x)
            else l ++ [(index, p)]
  { s with mem := writeStaging s.mem l' }

/-- A record written at once, any staged record for its index removed (R21). -/
def placeNow (index : Nat) (p : Product) (s : State) : State :=
  let m := writeProduct s.mem index p
  let l := readStaging m
  { s with mem := if l.any (fun x => x.1 = index) then writeStaging m (l.filter (fun x => x.1 ≠ index)) else m }

/-- A record placed by R21 or R20. -/
def placeProduct (index : Nat) (p : Product) (immediate : Bool) (s : State) : State :=
  if immediate then placeNow index p s else stageRecord index p s

/-- A withdrawal order judged by R22 while no scan runs: it ends at once, or its scan starts. -/
def beginWithdrawal (o : WithdrawalOrder) (s : State) : State :=
  match placeProblem s o.index o.immediate with
  | some r => endOrder o.slot r s
  | none =>
    if (s.product o.index).kind = .none then endOrder o.slot .ok (placeProduct o.index .withdrawn o.immediate s)
    else { s with withdrawal := some ⟨o, 0, false, false, s.now⟩ }

/-- Waiting withdrawals started in order until one starts a scan (R22). -/
def startWithdrawals : List WithdrawalOrder → State → State
  | [], s => { s with withdrawalsWaiting := [] }
  | o :: os, s =>
    let t := beginWithdrawal o s
    if t.withdrawal.isSome then { t with withdrawalsWaiting := os } else startWithdrawals os t

/-- The scan slot is free again: the waiting withdrawals start in ascending slot order (R22). -/
def nextWithdrawals (s : State) : State :=
  startWithdrawals (sortBySlot (fun o => o.slot.val) s.withdrawalsWaiting) s

/-- The body of STAGE_PRODUCT (R19 to R22). -/
def stageProduct (k : Fin 32) (s : State) : State :=
  let index := payload s k 8 1
  let immediate := (payload s k 9 1).testBit 0
  let new := readProductAt s.mem (orderBase k.val + 10)
  if 63 < index ∨ 3 < payload s k 10 1 then endOrder k .badField s
  else if new.kind = .none then
    let o : WithdrawalOrder := ⟨k, index, immediate⟩
    if (s.product index).kind = .none then beginWithdrawal o s
    else if s.withdrawal.isSome then { s with withdrawalsWaiting := s.withdrawalsWaiting ++ [o] }
    else beginWithdrawal o s
  else
    match definitionProblem (s.product index) new with
    | some r => endOrder k r s
    | none =>
      match placeProblem s index immediate with
      | some r => endOrder k r s
      | none => endOrder k .ok (placeProduct index new.clean immediate s)

/-- STAGE_PRODUCT (R19). -/
def execStageProduct (k : Fin 32) (s : State) : Host.Outcome State Fault Refusal :=
  visit k (kindIs k 7) (stageProduct k) s

/-! ### The withdrawal scan (R23) -/

/-- The slots a scan or sweep visits at each tick (R23, R142). -/
def slotsPerTick : Nat := 512

/-- Whether the visit of slot `position` is due: the k-th 512 slots come on the k-th tick after the start (R23, R142). -/
def stepDue (s : State) (start position : Nat) : Bool := start + position / slotsPerTick + 1 ≤ s.now

/-- The visit of a slot finds a reference: the slot is LIVE and names the product (R23). -/
def visitFindsReference (m : Memory) (position index : Nat) : Bool :=
  slotStateOf m position = 1 && (readPass m position).product = index

/-- The clean end: the STAGE_FULL test again, then the withdrawal is placed (R23). -/
def endScanClean (o : WithdrawalOrder) (s : State) : State :=
  if ¬o.immediate ∧ stageFull s.mem o.index then endOrder o.slot .stageFull s
  else endOrder o.slot .ok (placeProduct o.index .withdrawn o.immediate s)

/-- The running scan's visit of the slot at its position: the scan fails IN_USE on a reference, goes on with the next slot,
makes a final pass, or ends behind slot 6,143 (R23). -/
def scanStep (w : WithdrawalScan) (s : State) : State :=
  if visitFindsReference s.mem w.position w.order.index then
    nextWithdrawals (endOrder w.order.slot .inUse { s with withdrawal := none })
  else if w.position + 1 < passSlots then
    { s with withdrawal := some { w with position := w.position + 1 } }
  else if w.late then
    if w.finalPass then nextWithdrawals (endOrder w.order.slot .inUse { s with withdrawal := none })
    else { s with withdrawal := some ⟨w.order, 0, true, false, s.now⟩ }
  else nextWithdrawals (endScanClean w.order { s with withdrawal := none })

/-- WITHDRAWAL_SCAN (R23): one visit, where its tick has come. The 512 visits of a tick are 512 commands, so that other events
may fall between them (log entry 44). -/
def execWithdrawalScan (s : State) : Host.Outcome State Fault Refusal :=
  match s.withdrawal with
  | some w => if stepDue s w.start w.position then event s (scanStep w s) else .next s
  | none => .next s

/-! ### Application at a rollover (R24) -/

/-- Each staged record written into the Product Table in posting order, and the Staging Area emptied. -/
def applyStaging (s : State) : State :=
  { s with mem := writeStaging ((readStaging s.mem).foldl (fun m x => writeProduct m x.1 x.2) s.mem) [] }

end Sys2Proof.Machine
end

