-- ==== Sys2Proof/Machine/Closures.lean ====
section
/-! DEFINITION. The Closure List and the credit sweep: POST_CLOSURE and CREDIT_SWEEP (R137 to R147). -/

namespace Sys2Proof.Machine

/-- The range check made at the take (R138). An end minute of 0xFFFF is NONE. -/
def closureInRange (o : ClosureOrder) : Bool :=
  o.day ≠ 65535 && o.startMinute ≤ 1439
    && (o.endMinute = 0xFFFF || (o.startMinute < o.endMinute && o.endMinute ≤ 1440))

/-- Checks 1 to 3, made at the start (R138). -/
def closureProblem (s : State) (o : ClosureOrder) : Option Result :=
  if o.day ≠ s.day then some .closureNotToday
  else if s.minute < o.startMinute then some .badField
  else if emptyClosure s.mem = none then some .closureFull
  else none

/-- A POST_CLOSURE starts while no sweep runs: it fails, or appends its closure and starts its sweep (R138, R139). -/
def beginClosure (o : ClosureOrder) (s : State) : State :=
  match closureProblem s o with
  | some r => endOrder o.slot r s
  | none =>
    match emptyClosure s.mem with
    | some i =>
      { s with mem := writeClosure s.mem i ⟨o.day, o.startMinute, o.endMinute, o.reason⟩
               creditSweep := some ⟨o, i, 0, 0, s.now⟩ }
    | none => endOrder o.slot .closureFull s

/-- Waiting POST_CLOSURE orders started in order until one starts a sweep (R138). -/
def startClosures : List ClosureOrder → State → State
  | [], s => { s with closuresWaiting := [] }
  | o :: os, s =>
    let t := beginClosure o s
    if t.creditSweep.isSome then { t with closuresWaiting := os } else startClosures os t

/-- The end of a sweep: its order DONE with the count, list position and CUT_SHORT, the CREDIT record, then the
waiting orders (R143, R144). -/
def endSweep (c : CreditSweep) (cut : Bool) (s : State) : State :=
  let t := endOrder c.order.slot .ok
    (pokeResult c.order.slot 32 (le 2 c.count ++ le 1 c.listPosition ++ le 1 (bit 0 cut)) { s with creditSweep := none })
  let u := appendUnpledged (mkRecord t none [] none
    (.credit c.count cut false c.listPosition c.order.startMinute c.order.reason)) t
  startClosures (sortBySlot (fun o => o.slot.val) u.closuresWaiting) u

/-- A running sweep cut short by a rollover or an earlier day (R144). -/
def cutSweepShort (s : State) : State :=
  match s.creditSweep with
  | some c => endSweep c true s
  | none => s

/-- The body of POST_CLOSURE (R138). -/
def postClosure (k : Fin 32) (s : State) : State :=
  let o : ClosureOrder := ⟨k, payload s k 8 2, payload s k 10 2, payload s k 12 2, payload s k 14 1⟩
  if closureInRange o = false then endOrder k .badField s
  else if s.creditSweep.isSome then { s with closuresWaiting := s.closuresWaiting ++ [o] }
  else beginClosure o s

/-- POST_CLOSURE (R138). -/
def execPostClosure (k : Fin 32) (s : State) : Host.Outcome State Fault Refusal :=
  visit k (kindIs k 8) (postClosure k) s

/-! ### The sweep's visits (R142) -/

/-- Whether a lane marker names a lane that is CAPTURING (R142). -/
def heldInCapture (s : State) (marker : Option Nat) : Bool :=
  match marker with
  | some n =>
    match fourOf n with
    | some lane => match (s.lane lane).state with
      | .capturing _ => true
      | _ => false
    | none => false
  | none => false

/-- Whether the sweep's visit credits the entry at a slot: it is not held in a capture, and it passes the test of R140,
which a FREE or TOMB slot never does. -/
def visitCredits (s : State) (slot : Nat) : Bool :=
  let e := s.pass slot
  !heldInCapture s e.marker && (creditTest s e).isSome

/-- The running sweep's visit of the slot at its position, then the next position, or the end behind slot 6,143 (R142,
R143). -/
def sweepStep (c : CreditSweep) (s : State) : State :=
  let credits := visitCredits s c.position
  let t := if credits then s.putPass c.position (creditEntry s.day (s.pass c.position)) else s
  let c' : CreditSweep := { c with position := c.position + 1, count := if credits then c.count + 1 else c.count }
  if c'.position < passSlots then { t with creditSweep := some c' } else endSweep c' false t

/-- CREDIT_SWEEP (R142): one visit, one event, where its tick has come. The 512 visits of a tick are 512 commands, so that
other events may fall between them (log entry 41). -/
def execCreditSweep (s : State) : Host.Outcome State Fault Refusal :=
  match s.creditSweep with
  | some c => if stepDue s c.start c.position then event s (sweepStep c s) else .next s
  | none => .next s

/-- The test after a capture timeout, with its CREDIT record (R147). The spec names the record's lane and slot and not its
UID, whose length is 0 here: DESIGN CHOICE, log entry 42. -/
def creditAfterCapture (n : Fin 4) (slot : Nat) (s : State) : State :=
  let e := s.pass slot
  match creditTest s e with
  | some i =>
    let t := s.putPass slot (creditEntry s.day e)
    let c := readClosure t.mem i
    appendUnpledged (mkRecord t (some n) [] (some slot) (.credit 1 false true i c.startMinute c.reason)) t
  | none => s

end Sys2Proof.Machine
end

