-- ==== Sys2Proof/Machine/Settlement.lean ====
section
/-! DEFINITION. The Settlement Unit (R148 to R171): eligibility, the refund arithmetic, settling by order, and the return
lane's capture. -/

namespace Sys2Proof.Machine

/-! ### Eligibility (R149 to R151) -/

/-- The validity end E, a whole number that may lie below 0 (R150). -/
def validityEnd (e : PassEntry) (p : Product) : Int :=
  match e.firstDay with
  | some f => (f : Int) + p.span - 1
  | none => (e.issueDay : Int) + p.activation - 1

/-- The period factor φ, none past the refund deadline (R151). -/
def periodFactor (e : PassEntry) (p : Product) (today : Nat) : Option Nat :=
  if (today : Int) ≤ validityEnd e p then some 1000
  else if (today : Int) ≤ validityEnd e p + p.deadline then some p.late
  else none

/-- Checks 3, 4, 6 and 7 of R149, which are the same for orders and taps but for check 5's place. `marked` is the
reason of check 5 where the path makes it. -/
def eligibility (e : PassEntry) (p : Product) (today : Nat) (refuseMarked : Bool) : Option DenyReason :=
  if e.blocked then some .blocked
  else if e.retired then some .retired
  else if refuseMarked ∧ e.marker.isSome then some .inUse
  else if ¬((p.kind = .days ∨ p.kind = .rides) ∧ p.refundable) then some .notRefundable
  else if periodFactor e p today = none then some .notRefundable
  else none

/-- The result code of an eligibility failure of an order (R149). -/
def eligibilityResult : DenyReason → Result
  | .blocked => .blocked
  | .retired => .retired
  | .inUse => .inUse
  | _ => .notRefundable

/-! ### The arithmetic (R152 to R154) -/

/-- n of R152 for DAYS; left′ of R153 for RIDES. -/
def unusedCount (e : PassEntry) (p : Product) : Nat :=
  match p.kind with
  | .days => e.daysUsed - e.credited
  | _ => min e.usage p.ridesInitial

/-- The gross refund (R152, R153). -/
def grossRefund (e : PassEntry) (p : Product) : Nat :=
  match p.kind with
  | .days => e.paid - p.price (e.daysUsed - e.credited)
  | _ => e.paid * min e.usage p.ridesInitial / p.ridesInitial

/-- The scaled amount (R154). -/
def scaledRefund (gross phi : Nat) : Nat := gross * phi / 1000

/-- The net amount (R154). -/
def netRefund (scaled fee : Nat) : Nat := scaled - fee

/-- The refund, a whole multiple of the rounding unit (R154). -/
def roundedRefund (net rounding : Nat) : Nat := net / rounding * rounding

/-- Every figure of a settlement at a period factor (R152 to R154). -/
def settle (e : PassEntry) (p : Product) (phi : Nat) : Figures :=
  let gross := grossRefund e p
  let scaled := scaledRefund gross phi
  let net := netRefund scaled p.fee
  ⟨p.kind, e.paid, unusedCount e p, phi, gross, scaled, net, p.fee, p.rounding, roundedRefund net p.rounding⟩

/-- The ladder price L[n] for DAYS, the rides initial for RIDES (R157). -/
def quotePrice (e : PassEntry) (p : Product) : Nat :=
  match p.kind with
  | .days => p.price (e.daysUsed - e.credited)
  | _ => p.ridesInitial

/-! ### Settling by order (R156 to R158) -/

/-- A signed value in `n` bytes, two's complement (Table 12: E, signed). -/
def leInt (n : Nat) (v : Int) : List Byte := le n (v % (256 ^ n : Nat)).toNat

/-- The result area of SETTLE_PASS, bytes 32 to 66 (Table 12), the bits of byte 35 without meaning 0 (log entry 54). -/
def settleResult (slot : Nat) (marker : Option Nat) (price : Nat) (validEnd : Int) (f : Figures) : List Byte :=
  le 2 slot ++ le 1 f.kind.code ++ le 1 (bit 0 marker.isSome) ++ le 1 (optByte marker) ++ le 3 f.paid
    ++ le 2 f.unused ++ le 3 price ++ leInt 4 validEnd ++ le 2 f.phi ++ le 3 f.gross ++ le 3 f.scaled ++ le 3 f.net
    ++ le 2 f.fee ++ le 2 f.rounding ++ le 3 f.refund

/-- Checks 3 to 7 of R149 and the computation, for an entry: the figures or the failing reason. -/
def settleEntry (s : State) (slot : Nat) (refuseMarked : Bool) : Except DenyReason Figures :=
  let e := s.pass slot
  let p := s.product e.product
  match eligibility e p s.day refuseMarked, periodFactor e p s.day with
  | some r, _ => .error r
  | none, some phi => .ok (settle e p phi)
  | none, none => .error .notRefundable

/-- The result area written for figures computed at a slot (R157, R158). Byte 67, beside the refund's last byte, stands as it
is: DESIGN CHOICE, log entry 53. -/
def pokeSettlement (k : Fin 32) (slot : Nat) (f : Figures) (s : State) : State :=
  let e := s.pass slot
  let p := s.product e.product
  pokeResult k 32 (settleResult slot e.marker (quotePrice e p) (validityEnd e p) f) s

/-- The mode byte of a SETTLE_PASS order (Table 12). -/
def settleMode (s : State) (k : Nat) : Nat := payload s k 19 1

/-- The body of SETTLE_PASS with mode QUOTE, or with a mode that is neither (R156, R157). -/
def settleQuote (k : Fin 32) (s : State) : State :=
  if settleMode s k ≠ 1 then endOrder k .badField s
  else
    match payloadUid s k with
    | none => endOrder k .badField s
    | some uid =>
      match lookup s.mem uid with
      | none => endOrder k .notFound s
      | some slot =>
        match settleEntry s slot false with
        | .error r => endOrder k (eligibilityResult r) s
        | .ok f => endOrder k .ok (pokeSettlement k slot f s)

/-- SETTLE_PASS_QUOTE (R157): SETTLE_PASS orders of any mode but FINAL (log entry 28). -/
def execSettlePassQuote (k : Fin 32) (s : State) : Host.Outcome State Fault Refusal :=
  visit k (fun s => kindIs k 6 s && settleMode s k ≠ 2) (settleQuote k) s

/-- A pass retired, its other fields as they stand (R159). -/
def retire (slot : Nat) (s : State) : State :=
  { s with mem := s.mem.setByte (passBase slot + 15) (setFlag (s.mem.byteAt (passBase slot + 15)) 1 true) }

/-- The changes of a FINAL whose checks pass, in the order of R158. -/
def acceptFinal (k : Fin 32) (uid : List Byte) (slot : Nat) (f : Figures) (s : State) : State :=
  let t := takePledge (retire slot s)
  endOrder k .ok (pokeSettlement k slot f
    (appendPledged (mkRecord t none uid (some slot) (.refund false f.unused f.phi f.refund)) t))

/-- The body of SETTLE_PASS with mode FINAL (R158). -/
def settleFinal (k : Fin 32) (s : State) : State :=
  match payloadUid s k with
  | none => endOrder k .badField s
  | some uid =>
    if s.journal.room < 5 then endOrder k .journalFull s
    else
      match lookup s.mem uid with
      | none => endOrder k .notFound s
      | some slot =>
        match settleEntry s slot true with
        | .error r => endOrder k (eligibilityResult r) s
        | .ok f => acceptFinal k uid slot f s

/-- SETTLE_PASS_FINAL (R158). -/
def execSettlePassFinal (k : Fin 32) (s : State) : Host.Outcome State Fault Refusal :=
  visit k (fun s => kindIs k 6 s && settleMode s k = 2) (settleFinal k) s

/-! ### The return lane (R160 to R169) -/

/-- The start of a capture, in the order of R164. -/
def startCapture (t : TapRecord) (slot : Nat) (f : Figures) (s : State) : State :=
  handOutcome t.lane .returnCapture
    (sendShow t.port .refund f.refund
      (takePledge (setMarker slot (some t.lane)
        (s.modLane t.lane (·.enter (.capturing ⟨slot, t.uid, f, s.now, s.options.captureTimeout⟩))))))

/-- A tap taken at a READY return lane (R161 to R163). -/
def returnChecks (t : TapRecord) (s : State) : State :=
  if s.online = false then count t.lane .denied (handOutcome t.lane .deny (sendShow t.port .offline 0 s))
  else if t.quality = 0 then denyTap t.lane t.port [] none .reread s
  else
    match lookup s.mem t.uid with
    | none => denyTap t.lane t.port t.uid none .unknown s
    | some slot =>
      if t.stamp ≠ (s.pass slot).stamp then denyTap t.lane t.port t.uid (some slot) .staleCard s
      else
        match settleEntry s slot true with
        | .error r => denyTap t.lane t.port t.uid (some slot) r s
        | .ok f =>
          if f.refund = 0 then handOutcome t.lane .refundNone (sendShow t.port .refundNone 0 s)
          else if s.journal.room < 5 then denyTap t.lane t.port t.uid (some slot) .journalFull s
          else startCapture t slot f s

/-- A tap record taken by the Settlement Unit (R160). -/
def takeReturnTap (t : TapRecord) (s : State) : State :=
  if s.station = .running ∧ (s.lane t.lane).config.role = .ret then
    match (s.lane t.lane).state with
    | .ready _ => returnChecks t s
    | .capturing c => if c.uid = t.uid then s else denyBusy t.lane t.port t.uid s
    | _ => s
  else s

/-- A capture confirmed by the switch, in the order of R166. -/
def confirmCapture (n : Fin 4) (c : Capture) (s : State) : State :=
  let t := retire c.slot s
  let u := appendPledged (mkRecord t (some n) c.uid (some c.slot)
    (.refund true c.figures.unused c.figures.phi c.figures.refund)) t
  afterBusy n (enterReadyWith n .returnDone (setMarker c.slot none (count n .returned u)))

/-- A capture ended by its timeout, in the order of R167. -/
def abortCapture (n : Fin 4) (c : Capture) (s : State) : State :=
  let t := setMarker c.slot none s
  let u := appendPledged (mkRecord t (some n) c.uid (some c.slot) .refundAbort) t
  afterBusy n (creditAfterCapture n c.slot (enterReady n u))

/-- CAPTURE_TIMEOUT: the ticks since the capture tick have reached the timeout (R167). -/
def execCaptureTimeout (n : Fin 4) (s : State) : Host.Outcome State Fault Refusal :=
  match (s.lane n).state with
  | .capturing c => if c.timeout ≤ s.now - c.tick then event s (abortCapture n c s) else .next s
  | _ => .next s

end Sys2Proof.Machine
end

