-- ==== Sys2Proof/Machine/Readers.lean ====
section
/-! DEFINITION. The reader ports (R42 to R57): the parser, the frames a reader sends, repeat suppression, silence and
faults, and the commands of the lines. -/

namespace Sys2Proof.Machine

/-! ### Frames (R43, R49) -/

/-- The frames a reader sends that pass R49. -/
inductive Frame where
  | tap (quality stamp : Nat) (uid : List Byte)
  | gone (uid : List Byte)
  | status (rfFault : Bool)
  deriving DecidableEq, Repr

/-- The body of a well-summed frame checked for its kind and shape; none is malformed (R49). -/
def parseBody (body : List Byte) : Option Frame :=
  if bodyIsValidFrame body then
    match body with
    | 0x01 :: q :: lo :: hi :: _ :: uid => some (.tap q.toNat (lo.toNat + 256 * hi.toNat) uid)
    | 0x02 :: _ :: uid => some (.gone uid)
    | [0x03, c] => some (.status (c = 0x01))
    | _ => none
  else none

/-- The sum of bytes modulo 256 (R43). -/
def byteSum (bs : List Byte) : Byte := bs.foldl (· + ·) 0

/-- A frame on the line: SYNC, LEN, the body, and the sum byte that makes LEN, body and sum a multiple of 256 (R43). -/
def frameBytes (body : List Byte) : List Byte :=
  let len := BitVec.ofNat 8 body.length
  0xA5 :: len :: (body ++ [0 - (len + byteSum body)])

def tapBody (quality : Byte) (stamp : Word) (uid : List Byte) : List Byte :=
  0x01 :: quality :: le 2 stamp.toNat ++ BitVec.ofNat 8 uid.length :: uid

def goneBody (uid : List Byte) : List Byte := 0x02 :: BitVec.ofNat 8 uid.length :: uid

/-- The bytes of the SHOW frame a transmitter sends (R43, R54). -/
def ShowCode.code : ShowCode → Nat
  | .grant => 0x00
  | .free => 0x01
  | .refund => 0x02
  | .refundNone => 0x03
  | .offline => 0x04
  | .deny r => r.code

def showBytes (x : Show) : List Byte := frameBytes (le 1 0x81 ++ le 1 x.code.code ++ le 3 x.value)

/-! ### READER_LOST (R53) -/

/-- What a change of READER_LOST hands to the port's lane: set, the NO_READER cue, a LANE record and LANE_FAULT;
cleared, a LANE record, and READY at a READY lane (R53, R175). -/
def lostChanged (n : Fin 4) (lost : Bool) (s : State) : State :=
  if lost then raise .laneFault (laneRecord n true (handOutcome n .noReader s))
  else
    let t := laneRecord n true s
    match (s.lane n).state with
    | .ready _ => handOutcome n .ready t
    | _ => t

/-- The lost causes of a port in service changed, with the effects of a READER_LOST change (R53). -/
def setCauses (p : Fin 4) (silent rf : Bool) (s : State) : State :=
  let t := s.modPort p fun x => { x with silent := silent, rfFault := rf }
  if (s.port p).readerLost = (t.port p).readerLost then t
  else
    match servedLane s p with
    | some n => lostChanged n (t.port p).readerLost t
    | none => t

/-- Every valid frame at a port in service restarts the silence timer and clears SILENT before it is acted on
(R49, R53). -/
def hearFrame (p : Fin 4) (s : State) : State :=
  if inService s p then
    setCauses p false (s.port p).rfFault (s.modPort p fun x => { x with silence := some 0 })
  else s

/-! ### TAP, GONE, STATUS (R50 to R52) -/

/-- A tap record for an ENTRY lane joins the tail; one already waiting for the lane is removed (R58). -/
def queueTap (t : TapRecord) (s : State) : State :=
  { s with tapQueue := s.tapQueue.filter (fun x => x.lane ≠ t.lane) ++ [t] }

/-- A TAP handed on to the tap queue or the Settlement Unit, by the lane's role (R50). -/
def handTap (t : TapRecord) (s : State) : State :=
  match (s.lane t.lane).config.role with
  | .entry => queueTap t s
  | .ret => takeReturnTap t s
  | .down => s

/-- The repeat test (R51): the same UID fewer than 2,000 ms after the record's tick. -/
def isRepeat (x : Port) (uid : List Byte) (now : Nat) : Bool :=
  match x.repeatRec with
  | some r => r.uid = uid && now - r.tick < 2000
  | none => false

/-- A valid TAP frame (R50). -/
def actTap (p : Fin 4) (quality stamp : Nat) (uid : List Byte) (s : State) : State :=
  match servedLane s p with
  | none => s
  | some n =>
    if s.station ≠ .running then s
    else if (s.port p).rfFault then s
    else if quality = 0 then handTap ⟨n, p, quality, stamp, uid⟩ s
    else
      let t := s.modPort p fun x => { x with repeatRec := some ⟨uid, s.now⟩ }
      if isRepeat (s.port p) uid s.now then t else handTap ⟨n, p, quality, stamp, uid⟩ t

/-- A valid GONE frame empties the repeat record of the same UID (R51). -/
def actGone (p : Fin 4) (uid : List Byte) (s : State) : State :=
  s.modPort p fun x =>
    match x.repeatRec with
    | some r => if r.uid = uid then { x with repeatRec := none } else x
    | none => x

/-- A valid STATUS frame sets or clears RF_FAULT, in service only (R52). -/
def actStatus (p : Fin 4) (rf : Bool) (s : State) : State :=
  if inService s p then setCauses p (s.port p).silent rf s else s

/-- A well-summed frame: discarded when malformed, otherwise heard and acted on by kind (R49). -/
def handleFrame (p : Fin 4) (body : List Byte) (s : State) : State :=
  match parseBody body with
  | none => s
  | some (.tap q stamp uid) => actTap p q stamp uid (hearFrame p s)
  | some (.gone uid) => actGone p uid (hearFrame p s)
  | some (.status rf) => actStatus p rf (hearFrame p s)

/-! ### The parser (R44 to R47) -/

/-- The bad-frame count raised by 1, saturating (R48). -/
def Port.addBadFrame (x : Port) : Port := { x with badFrames := min (x.badFrames + 1) 65535 }

/-- The parser moved to a state, the gap timer restarted (R46; it is stopped in HUNT). -/
def Port.parse (x : Port) (q : Parser) : Port := { x with parser := q, gap := 0 }

/-- One byte received at a port (R44, R45, R47). -/
def receiveByte (p : Fin 4) (b : LineByte) (s : State) : State :=
  match (s.port p).parser with
  | .hunt =>
    if b.broken = false ∧ b.value = 0xA5 then s.modPort p (·.parse .length) else s
  | .length =>
    if b.broken then s.modPort p fun x => (x.parse .hunt).addBadFrame
    else if 1 ≤ b.value.toNat ∧ b.value.toNat ≤ 24 then s.modPort p (·.parse (.body b.value.toNat []))
    else s.modPort p (·.parse .hunt)
  | .body len held =>
    if b.broken then s.modPort p fun x => (x.parse .hunt).addBadFrame
    else if held.length + 1 < len then s.modPort p (·.parse (.body len (held ++ [b.value])))
    else s.modPort p (·.parse (.check len (held ++ [b.value])))
  | .check len held =>
    if b.broken then s.modPort p fun x => (x.parse .hunt).addBadFrame
    else if BitVec.ofNat 8 len + byteSum held + b.value = 0 then
      handleFrame p held (s.modPort p (·.parse .hunt))
    else s.modPort p fun x => (x.parse .hunt).addBadFrame

/-- Bytes received in line order. -/
def receiveLine (p : Fin 4) : List LineByte → State → State
  | [], s => s
  | b :: bs, s => receiveLine p bs (receiveByte p b s)

/-- Bytes the line delivers in one event; nothing is parsed in STARTING (R42). -/
def deliver (p : Fin 4) (line : List LineByte) (s : State) : Host.Outcome State Fault Refusal :=
  if s.station = .starting then .next s else event s (receiveLine p line s)

/-- Bytes with good stop bits. -/
def soundLine (bs : List Byte) : List LineByte := bs.map fun b => ⟨b, false⟩

/-- TAP (R50). -/
def execTap (p : Fin 4) (quality : Byte) (stamp : Word) (uid : List Byte) (s : State) :
    Host.Outcome State Fault Refusal :=
  deliver p (soundLine (frameBytes (tapBody quality stamp uid))) s

/-- GONE (R51). -/
def execGone (p : Fin 4) (uid : List Byte) (s : State) : Host.Outcome State Fault Refusal :=
  deliver p (soundLine (frameBytes (goneBody uid))) s

/-- STATUS (R52). -/
def execStatus (p : Fin 4) (code : Byte) (s : State) : Host.Outcome State Fault Refusal :=
  deliver p (soundLine (frameBytes [0x03, code])) s

/-- BAD_FRAME (R45, R47). -/
def execBadFrame (p : Fin 4) (line : List LineByte) (s : State) : Host.Outcome State Fault Refusal :=
  deliver p line s

/-- MALFORMED_FRAME (R49). -/
def execMalformedFrame (p : Fin 4) (body : List Byte) (s : State) : Host.Outcome State Fault Refusal :=
  deliver p (soundLine (frameBytes body)) s

/-- FRAME_DROPPED_FOR_LENGTH (R44). -/
def execFrameDroppedForLength (p : Fin 4) (length : Byte) (s : State) : Host.Outcome State Fault Refusal :=
  deliver p (soundLine [0xA5, length]) s

/-! ### Timers of a port -/

/-- GAP_TIMEOUT: the gap timer has reached 21 ms with a frame in progress (R46). -/
def execGapTimeout (p : Fin 4) (s : State) : Host.Outcome State Fault Refusal :=
  if (s.port p).parser ≠ .hunt ∧ 21 ≤ (s.port p).gap then .next (s.modPort p (·.parse .hunt)) else .next s

/-- Whether the silence timer of a port in service has reached 3,000 ms (R53). -/
def silenceReached (s : State) (p : Fin 4) : Bool :=
  inService s p && (match (s.port p).silence with | some n => 3000 ≤ n | none => false)

/-- SILENT: the SILENT cause is set (R53). -/
def execSilent (p : Fin 4) (s : State) : Host.Outcome State Fault Refusal :=
  if silenceReached s p then event s (setCauses p true (s.port p).rfFault s) else .next s

/-- SHOW_END: a pending frame starts at once, otherwise the transmitter is idle (R55). -/
def execShowEnd (p : Fin 4) (s : State) : Host.Outcome State Fault Refusal :=
  .next (s.modPort p fun x =>
    match x.sending with
    | some _ => { x with sending := x.pendingShow, pendingShow := none }
    | none => x)

end Sys2Proof.Machine
end

