-- ==== Sys2Proof/Machine/Time.lean ====
section
/-! DEFINITION. The Time Base (R25 to R41) and the flow window boundaries: TICK, ROLLOVER, WINDOW_END and SET_TIME. -/

namespace Sys2Proof.Machine

/-- The milliseconds of an operating day (R27). -/
def dayMs : Nat := 86400000

/-! ### The tick -/

/-- A pin's level translated through a source's polarity: active or inactive (R85, R86). -/
def activeLevel (src : Source) (sense : BitVec 16) : Bool :=
  match src.polarity with
  | .activeHigh => sense.getLsbD src.pin.val
  | .activeLow => !sense.getLsbD src.pin.val

/-- One source sampled at a tick (R86). A hold count that has reached the debounce time is an edge that waits for
its command (log entry 6). -/
def Input.sample (sense : BitVec 16) (i : Input) : Input :=
  match i.source with
  | none => i
  | some src =>
    if src.debounce ≤ i.hold then i
    else if activeLevel src sense = i.level then { i with hold := 0 }
    else { i with hold := i.hold + 1 }

/-- Whether an edge to the given level waits to be taken (R86). -/
def Input.edgeTo (i : Input) (level : Bool) : Bool :=
  match i.source with
  | none => false
  | some src => src.debounce ≤ i.hold && i.level = !level

/-- The debounced level takes the new value and the hold count returns to 0 (R86). -/
def Input.flip (i : Input) : Input := { i with level := !i.level, hold := 0 }

/-- The arm's release has no effect and no row: its level follows at the tick (R86). -/
def Input.sampleArm (sense : BitVec 16) (i : Input) : Input :=
  let j := i.sample sense
  if j.edgeTo false then j.flip else j

/-- Whether the beams of an ENTRY lane, or the switch of a RETURN lane, let the settle timer count (R94, R103). -/
def Lane.settles (l : Lane) : Bool :=
  match l.config.role with
  | .entry => !l.entryBeam.level && !l.exitBeam.level
  | .ret => !l.switch.level
  | .down => false

/-- What one tick adds to a state's own counters: the settle timer and the window count of a grant (R71, R94, R103). -/
def tickState (l : Lane) : LaneState :=
  match l.state with
  | .arming n => if l.settles then .arming (n + 1) else .arming n
  | .granted g => if l.entryBeam.level then .granted g else .granted { g with windowCount := g.windowCount + 1 }
  | st => st

/-- One tick of a stuck timer (R95, R103). -/
def tickStuck (l : Lane) (role : LaneRole) (i : Input) (n : Nat) : Nat :=
  if l.config.role = role ∧ l.state.stuckRuns ∧ i.level then n + 1 else n

/-- One tick at a lane: its timers on the levels as they stood before this tick's edges, then its sources sampled; the
lamps and the buzzer through the CLK_IN cycles of the tick that ends. -/
def tickLane (divider : Nat) (carrier : Carrier) (sense : BitVec 16) (l : Lane) : Lane :=
  { l with
    lamps := carrier.duties divider l.levels l.lamps
    buzzer := l.buzzer.run divider divider l.levels.buzzer
    state := tickState l
    stuckEntry := tickStuck l .entry l.entryBeam l.stuckEntry
    stuckExit := tickStuck l .entry l.exitBeam l.stuckExit
    stuckSwitch := tickStuck l .ret l.switch l.stuckSwitch
    arm := l.arm.sampleArm sense
    entryBeam := l.entryBeam.sample sense
    exitBeam := l.exitBeam.sample sense
    switch := l.switch.sample sense }

/-- One tick at a port: the gap timer of a frame in progress (R46) and the silence timer, which stops at 3,000 (R53). -/
def tickPort (x : Port) : Port :=
  { x with
    gap := if x.parser = .hunt then 0 else x.gap + 1
    silence := x.silence.map fun n => if n < 3000 then n + 1 else n }

/-- The header time mirror: the milliseconds rounded down to a whole second, then the day (R32). -/
def writeTimeMirror (s : State) : State :=
  { s with mem := (s.mem.write hdrMs 4 (s.ms / 1000 * 1000)).write hdrDay 2 s.day }

/-- Station time one millisecond on, within the day; the mirror follows at each whole second (R29, R32). -/
def addMs (s : State) : State :=
  let t : State := { s with ms := s.ms + 1 }
  if t.ms % 1000 = 0 then writeTimeMirror t else t

/-- The tick's addition to station time (R29): the end of a day waits for its rollover, and day 65,534 has none. -/
def tickTime (s : State) : State :=
  if s.timeSet = false then s
  else if s.ms + 1 < dayMs then addMs s
  else if s.day < 65534 then { s with dayEnd := true }
  else s

/-- The sweep timer (R202): it starts again from 0 each time it reaches the period, and the sweep is then due. One sweep at
most is due, however often the period passes while a sweep's visits go on: DESIGN CHOICE, log entry 40. -/
def tickSweep (s : State) : State :=
  if s.station = .starting then s
  else if s.options.sweepPeriod ≤ s.sweepTimer + 1 then { s with sweepTimer := 0, sweepDue := true }
  else { s with sweepTimer := s.sweepTimer + 1 }

/-- The presence sample comes every 1,000 ms from the RUN event on (R198). -/
def tickPresence (s : State) : State :=
  if s.station ≠ .running then s
  else if 1000 ≤ s.presenceTimer + 1 then { s with presenceTimer := 0, presenceDue := true }
  else { s with presenceTimer := s.presenceTimer + 1 }

/-- TICK (R25, R26). The tick that ends had `divider` CLK_IN cycles; the divider taken at a RUN counts from the next tick
on, and for the lamp carrier from its next period on (R182). -/
def execTick (sense : BitVec 16) (s : State) : Host.Outcome State Fault Refusal :=
  .next (tickPresence (tickSweep (tickTime
    { s with
      now := s.now + 1
      divider := s.dividerTaken
      carrier := s.carrier.run s.dividerTaken s.divider
      lanes := s.lanes.mapIdx fun _ l => tickLane s.divider s.carrier sense l
      ports := s.ports.mapIdx fun _ x => tickPort x })))

/-! ### The rollover (R37, R40) -/

/-- The actions of a rollover to a day (R37, R40). `cut` says that SET_TIME cut the old day short; the windows then
end at the station time the old day had, and otherwise at the end of the day (R118, R123). -/
def rollTo (newDay : Nat) (cut : Bool) (s : State) : State :=
  let endMs := if cut then s.ms else dayMs
  let s1 := applyStaging { s with day := newDay, ms := 0 }
  let s2 := cutSweepShort { s1 with mem := clearClosures s1.mem }
  let s3 := writeTimeMirror (eachLane (closeAtRollover cut endMs) s2)
  stationRecord .rollover false 0 0 (raise .rollover s3)

/-- ROLLOVER: the tick's end-of-day addition is taken (R37). Where a SET_TIME was taken between, the tick advances
the new time instead (R41). -/
def execRollover (s : State) : Host.Outcome State Fault Refusal :=
  if s.dayEnd then
    let t : State := { s with dayEnd := false }
    if s.ms + 1 < dayMs then event s (addMs t)
    else if s.day < 65534 then event s (rollTo (s.day + 1) false t)
    else .next t
  else .next s

/-- WINDOW_END (R117): every current window whose end the time has reached closes, and the next opens. -/
def execWindowEnd (s : State) : Host.Outcome State Fault Refusal := event s (eachLane closeAtEnd s)

/-! ### SET_TIME (R33 to R36) -/

/-- Station time set to an earlier day in QUIET: no rollover, but the Closure List is cleared and a sweep cut short
(R34). -/
def backTo (day ms : Nat) (s : State) : State :=
  cutSweepShort { s with day := day, ms := ms, mem := clearClosures s.mem }

/-- Station time moved to the time named, with its rollover where the day is later (R34, R35). -/
def moveTime (day ms : Nat) (s : State) : State :=
  if day = s.day then { s with ms := ms }
  else if s.day < day then { rollTo day true s with ms := ms }
  else backTo day ms s

/-- The step handed to the Count Unit (R36, R119). -/
def handStep (beforeDay beforeMs : Nat) (s : State) : State :=
  if s.day = beforeDay ∧ s.ms = beforeMs then s
  else if s.day = beforeDay then eachLane (stepWindow beforeMs) s
  else if s.ms = 0 then s
  else eachLane replaceWindow s

/-- What follows a SET_TIME that ends OK (R36). -/
def acceptTime (k : Fin 32) (day ms : Nat) (s : State) : State :=
  let t := writeTimeMirror (moveTime day ms s)
  let u := stationRecord .setTime false s.day s.ms t
  endOrder k .ok (handStep s.day s.ms { u with timeSet := true })

/-- The body of SET_TIME: the range check of R33, then R34 in QUIET and R35 in RUNNING and QUIETING. -/
def setTime (k : Fin 32) (s : State) : State :=
  let day := payload s k 8 2
  let ms := payload s k 10 4
  if day = 65535 ∨ dayMs ≤ ms then endOrder k .badField s
  else if s.station ≠ .quiet ∧ (day < s.day ∨ (day = s.day ∧ ms < s.ms)) then endOrder k .timeBackward s
  else acceptTime k day ms s

/-- SET_TIME (R33). -/
def execSetTime (k : Fin 32) (s : State) : Host.Outcome State Fault Refusal :=
  visit k (kindIs k 9) (setTime k) s

end Sys2Proof.Machine
end

