-- ==== Sys2Proof/Machine/Sensing.lean ====
section
/-! DEFINITION. The Lane Sensing Units (R86, R93 to R104): edges of the arm, the beams and the capture switch, and the
lane timers' expiries. -/

namespace Sys2Proof.Machine

/-- The sensing role of a beam. -/
def Lane.beam (l : Lane) (exit : Bool) : Input := if exit then l.exitBeam else l.entryBeam

/-- A lane acts on no edge while its role or its state is DOWN (R86). -/
def acts (s : State) (n : Fin 4) (role : LaneRole) : Bool :=
  (s.lane n).config.role = role && !(s.lane n).state.isDown

/-- The ms from the latest entry block, saturating; 65,535 when there is none (R97). -/
def dwellOf (l : Lane) (now : Nat) : Nat :=
  match l.latestEntry with
  | some t => min (now - t) 65535
  | none => 65535

/-! ### Index pulses (R97, R100, R106) -/

/-- An unpledged PASSAGE record of class TAILGATE, DUCK or FORCED (R102). -/
def unpaidRecord (n : Fin 4) (uid : List Byte) (slot : Option Nat) (cls : PassageClass) (dwell : Nat) (s : State) : State :=
  appendUnpledged (mkRecord s (some n) uid slot (.passage cls dwell false false false 0)) s

/-- A forced passage: the record, the count and the cue; the latest entry block is cleared (R100). -/
def forced (n : Fin 4) (uid : List Byte) (slot : Option Nat) (s : State) : State :=
  let dwell := dwellOf (s.lane n) s.now
  let t := s.modLane n fun l => { l with latestEntry := none }
  handOutcome n .forced (count n .forced (unpaidRecord n uid slot .forced dwell t))

/-- The commit of a granted passage: the lane's part in R97's order, then the Day Account Unit's (R128, R134). -/
def commitGrant (n : Fin 4) (g : Grant) (s : State) : State :=
  let dwell := dwellOf (s.lane n) s.now
  let t := s.modLane n fun l =>
    { l.enter (.passing ⟨g.slot, g.uid, s.now, g.exitBlocks⟩) with latestEntry := none }
  let r := commitPass g.slot t
  count n .paid (appendPledged (mkRecord r.1 (some n) g.uid (some g.slot)
    (.passage .paid dwell r.2.1.consumed r.2.1.overdrawn r.2.2 r.2.1.usageAfter)) r.1)

/-- An index pulse in FREE: the count, and a further lock pulse with a PULSE drive (R106, R185). -/
def freePulse (n : Fin 4) (s : State) : State :=
  count n .free (s.modLane n fun l =>
    match l.config.drive with
    | .pulse w => { l with lockPulse := some (s.now + w) }
    | .level => l)

/-- An index pulse at an ENTRY lane, by the lane's state (R97, R100, R106). In READY it ends the duck watch (R101). -/
def pulse (n : Fin 4) (s : State) : State :=
  match (s.lane n).state with
  | .granted g => commitGrant n g s
  | .free => freePulse n s
  | .passing p => forced n p.uid (some p.slot) s
  | .ready _ => forced n [] none (s.modLane n fun l => { l with state := .ready none })
  | .arming _ => forced n [] none s
  | .referred _ => forced n [] none s
  | .fault _ => forced n [] none s
  | .down => s
  | .capturing _ => s

/-- INDEX_PULSE: the arm's edge from inactive to active (R86, R97). -/
def execIndexPulse (n : Fin 4) (s : State) : Host.Outcome State Fault Refusal :=
  if (s.lane n).arm.edgeTo true then
    let t := s.modLane n fun l => { l with arm := l.arm.flip }
    event s (if acts s n .entry then pulse n t else t)
  else .next s

/-! ### Beams (R94, R96, R98, R99, R101) -/

/-- A block of a beam returns the settle timer of ARMING to 0 (R94). -/
def resetSettle (l : Lane) : Lane :=
  match l.state with
  | .arming _ => { l with state := .arming 0 }
  | _ => l

/-- A block of the entry beam: the latest entry block (R96), the settle timer (R94), the duck watch opened or moved
in READY (R101). A lane in FAULT records the block too: R95 has it ignore beam edges, R93 and R96 record the block in every
state but DOWN, and the record is made here: DESIGN CHOICE, log entry 43. -/
def entryBlock (n : Fin 4) (s : State) : State :=
  s.modLane n fun l =>
    let l1 := { resetSettle l with latestEntry := some s.now }
    match l1.state with
    | .ready _ => { l1 with state := .ready (some s.now) }
    | _ => l1

/-- ENTRY_BEAM_BLOCK (R96). -/
def execEntryBeamBlock (n : Fin 4) (s : State) : Host.Outcome State Fault Refusal :=
  if (s.lane n).entryBeam.edgeTo true then
    let t := s.modLane n fun l => { l with entryBeam := l.entryBeam.flip }
    event s (if acts s n .entry then entryBlock n t else t)
  else .next s

/-- ENTRY_BEAM_CLEAR: the window count resumes (R71) and the beam's stuck timer returns to 0 (R95). -/
def execEntryBeamClear (n : Fin 4) (s : State) : Host.Outcome State Fault Refusal :=
  if (s.lane n).entryBeam.edgeTo false then
    event s (s.modLane n fun l => { l with entryBeam := l.entryBeam.flip, stuckEntry := 0 })
  else .next s

/-- A tailgate: the record with the grant's UID and slot, the count and the cue (R99). -/
def tailgate (n : Fin 4) (uid : List Byte) (slot dwell : Nat) (s : State) : State :=
  handOutcome n .tailgate (count n .tailgate (unpaidRecord n uid (some slot) .tailgate dwell s))

/-- A duck-under (R101). -/
def duckUnder (n : Fin 4) (dwell : Nat) (s : State) : State :=
  let t := s.modLane n fun l => { l with state := .ready none }
  handOutcome n .duck (count n .duck (unpaidRecord n [] none .duck dwell t))

/-- A block of the exit beam, by the lane's state (R94, R99, R101). An exit block on the tick at which the watch
reaches 3,000 ms, taken before the closing, counts. -/
def exitBlock (n : Fin 4) (s : State) : State :=
  match (s.lane n).state with
  | .arming _ => s.modLane n resetSettle
  | .granted g =>
    let t := s.modLane n fun l => { l with state := .granted { g with exitBlocks := g.exitBlocks + 1 } }
    if g.exitBlocks = 1 then tailgate n g.uid g.slot 65535 t else t
  | .passing p =>
    let t := s.modLane n fun l => { l with state := .passing { p with exitBlocks := p.exitBlocks + 1 } }
    if p.exitBlocks = 1 then tailgate n p.uid p.slot (min (s.now - p.tick) 65535) t else t
  | .ready (some w) => if s.now - w ≤ 3000 then duckUnder n (s.now - w) s else s
  | _ => s

/-- EXIT_BEAM_BLOCK (R99). -/
def execExitBeamBlock (n : Fin 4) (s : State) : Host.Outcome State Fault Refusal :=
  if (s.lane n).exitBeam.edgeTo true then
    let t := s.modLane n fun l => { l with exitBeam := l.exitBeam.flip }
    event s (if acts s n .entry then exitBlock n t else t)
  else .next s

/-! ### The end of a passage (R98) -/

/-- A lane in PASSING returns to READY; the READY cue starts unless a tailgate was counted (R98, R175). -/
def endPassage (n : Fin 4) (p : Passage) (s : State) : State :=
  if 2 ≤ p.exitBlocks then afterBusy n (s.modLane n (·.enter (.ready none)))
  else afterBusy n (enterReady n s)

/-- Whether a passage ends at this moment: 300 ms with the exit beam clear, or 1,500 ms (R98). -/
def passageOver (s : State) (n : Fin 4) (p : Passage) : Bool :=
  (300 ≤ s.now - p.tick && !(s.lane n).exitBeam.level) || 1500 ≤ s.now - p.tick

/-- PASSING_END (R98). -/
def execPassingEnd (n : Fin 4) (s : State) : Host.Outcome State Fault Refusal :=
  match (s.lane n).state with
  | .passing p => if passageOver s n p then event s (endPassage n p s) else .next s
  | _ => .next s

/-- EXIT_BEAM_CLEAR: it may end a passage of at least 300 ms (R98), and the stuck timer returns to 0 (R95). -/
def execExitBeamClear (n : Fin 4) (s : State) : Host.Outcome State Fault Refusal :=
  if (s.lane n).exitBeam.edgeTo false then
    let t := s.modLane n fun l => { l with exitBeam := l.exitBeam.flip, stuckExit := 0 }
    match (s.lane n).state with
    | .passing p => event s (if acts s n .entry ∧ 300 ≤ s.now - p.tick then endPassage n p t else t)
    | _ => event s t
  else .next s

/-! ### Settling, stuck inputs, the duck watch (R94, R95, R101, R103) -/

/-- SETTLE: the settle timer of an ARMING lane has reached 500 ms (R94, R103). -/
def execSettle (n : Fin 4) (s : State) : Host.Outcome State Fault Refusal :=
  match (s.lane n).state with
  | .arming t => if 500 ≤ t then event s (enterReady n s) else .next s
  | _ => .next s

/-- A lane enters FAULT: the LANE record, LANE_FAULT attention and the FAULT cue (R95, R103). -/
def enterFault (n : Fin 4) (c : FaultCause) (s : State) : State :=
  handOutcome n .fault (raise .laneFault (laneRecord n false (s.modLane n (·.enter (.fault c)))))

/-- The stuck timer of a beam. -/
def Lane.stuckBeam (l : Lane) (exit : Bool) : Nat := if exit then l.stuckExit else l.stuckEntry

/-- BEAM_STUCK: the beam's stuck timer has reached 10,000 ms (R95). -/
def execBeamStuck (n : Fin 4) (exit : Bool) (s : State) : Host.Outcome State Fault Refusal :=
  if acts s n .entry ∧ (s.lane n).state.stuckRuns ∧ 10000 ≤ (s.lane n).stuckBeam exit then
    event s (enterFault n (.beamStuck exit) s)
  else .next s

/-- SWITCH_STUCK: the capture switch's stuck timer has reached 10,000 ms (R103). -/
def execSwitchStuck (n : Fin 4) (s : State) : Host.Outcome State Fault Refusal :=
  if acts s n .ret ∧ (s.lane n).state.stuckRuns ∧ 10000 ≤ (s.lane n).stuckSwitch then
    event s (enterFault n .switchStuck s)
  else .next s

/-- DUCK_WATCH_CLOSE: the watch closes without a count 3,000 ms after its tick (R101). -/
def execDuckWatchClose (n : Fin 4) (s : State) : Host.Outcome State Fault Refusal :=
  match (s.lane n).state with
  | .ready (some w) =>
    if 3000 ≤ s.now - w then .next (s.modLane n fun l => { l with state := .ready none }) else .next s
  | _ => .next s

/-! ### The capture switch (R103, R104, R166) -/

/-- An activation of the capture switch at a RETURN lane (R103, R166). -/
def switchActivation (n : Fin 4) (s : State) : State :=
  match (s.lane n).state with
  | .capturing c => confirmCapture n c s
  | _ => s.modLane n resetSettle

/-- CAPTURE_SWITCH_ACTIVATION (R166). -/
def execCaptureSwitchActivation (n : Fin 4) (s : State) : Host.Outcome State Fault Refusal :=
  if (s.lane n).switch.edgeTo true then
    let t := s.modLane n fun l => { l with switch := l.switch.flip }
    event s (if acts s n .ret then switchActivation n t else t)
  else .next s

/-- CAPTURE_SWITCH_RELEASE (R103). -/
def execCaptureSwitchRelease (n : Fin 4) (s : State) : Host.Outcome State Fault Refusal :=
  if (s.lane n).switch.edgeTo false then
    event s (s.modLane n fun l => { l with switch := l.switch.flip, stuckSwitch := 0 })
  else .next s

/-! ### Outputs' timers (R177, R185) -/

/-- LOCK_PULSE_END (R185). -/
def execLockPulseEnd (n : Fin 4) (s : State) : Host.Outcome State Fault Refusal :=
  match (s.lane n).lockPulse with
  | some t => if t ≤ s.now then .next (s.modLane n fun l => { l with lockPulse := none }) else .next s
  | none => .next s

/-- CUE_ENTRY: the entries of the running cue that are due at this tick (R177, R178). -/
def execCueEntry (n : Fin 4) (s : State) : Host.Outcome State Fault Refusal :=
  match (s.lane n).cue with
  | some c =>
    if cueDue c s.now then
      let r := playCue c s.now (s.lane n).levels
      event s (s.modLane n fun l => { l with levels := r.1, cue := r.2 })
    else .next s
  | none => .next s

end Sys2Proof.Machine
end

