-- ==== Sys2Proof/Machine/LaneOrders.lean ====
section
/-! DEFINITION. The orders of the Lane Sensing Units: SET_LANE, MAP_INPUTS, FREE_FLOW_ON, FREE_FLOW_OFF, and an order of
a kind that is not known (R87 to R91, R105, R107, R202). -/

namespace Sys2Proof.Machine

/-! ### SET_LANE (R89 to R91) -/

/-- The body of SET_LANE: the checks of R89, then R90. -/
def setLaneOrder (k : Fin 32) (s : State) : State :=
  match readSetLane s k with
  | none => endOrder k .badField s
  | some (n, c) => if sourcesMapped s n c.role then carrySetLane ⟨k, n, c⟩ s else endOrder k .badField s

/-- SET_LANE (R90). -/
def execSetLane (k : Fin 32) (s : State) : Host.Outcome State Fault Refusal :=
  visit k (kindIs k 10) (setLaneOrder k) s

/-! ### MAP_INPUTS (R87) -/

/-- Whether a list of sixteen sources gives a lane what a role needs (R87 step 4). -/
def listServes (l : List (Option Source)) (n : Fin 4) : LaneRole → Bool
  | .down => true
  | .entry => (sourceOf l n 0).isSome && (sourceOf l n 1).isSome && (sourceOf l n 2).isSome
  | .ret => (sourceOf l n 3).isSome

/-- Step 4 of R87: each lane keeps what its configuration in force and its pending configuration need. -/
def listServesLanes (l : List (Option Source)) (s : State) : Bool :=
  allFour.all fun n => listServes l n (s.lane n).config.role
    && (match (s.lane n).pendingConfig with | some c => listServes l n c.role | none => true)

/-- The whole Input Map mirror, 32 source bytes and the unused rest 0 (R205). -/
def mirrorBytes (sources : List Byte) : List Byte := sources ++ List.replicate 96 0

/-- The body of MAP_INPUTS: the checks of R87 in order, then the map, the mirror and the restart of every source. -/
def mapInputsOrder (k : Fin 32) (s : State) : State :=
  if allFour.any (fun n => !(s.lane n).state.isDown) then endOrder k .lanesActive s
  else
    match readSources s.mem (orderBase k.val + 8) with
    | none => endOrder k .badField s
    | some l =>
      if pinsDistinct l = false ∨ listServesLanes l s = false then endOrder k .badField s
      else
        endOrder k .ok
          { s with lanes := mapInputs l s.lanes
                   mem := s.mem.writeBytes inputMapBase (mirrorBytes (s.mem.readBytes (orderBase k.val + 8) 32)) }

/-- MAP_INPUTS (R87). -/
def execMapInputs (k : Fin 32) (s : State) : Host.Outcome State Fault Refusal :=
  visit k (kindIs k 11) (mapInputsOrder k) s

/-! ### FREE_FLOW (R105, R107) -/

/-- The action of a FREE_FLOW order: 1 ON, 2 OFF (Table 12). -/
def freeFlowAction (s : State) (k : Nat) : Nat := payload s k 8 1

/-- The body of FREE_FLOW ON, and of an action that is neither (R105, R203). -/
def freeFlowOn (k : Fin 32) (s : State) : State :=
  if freeFlowAction s k = 1 then endOrder k .ok (startFreeFlow false s) else endOrder k .badField s

/-- FREE_FLOW_ON (R105): FREE_FLOW orders of any action but OFF (log entry 28). -/
def execFreeFlowOn (k : Fin 32) (s : State) : Host.Outcome State Fault Refusal :=
  visit k (fun s => kindIs k 12 s && freeFlowAction s k ≠ 2) (freeFlowOn k) s

/-- What the end of free flow does to one lane: a pending configuration is applied, and otherwise ARMING entered
(R107). -/
def leaveFree (n : Fin 4) (s : State) : State :=
  match (s.lane n).state with
  | .free =>
    match (s.lane n).pendingConfig with
    | some c => applyConfig n c s
    | none => markPartial n (s.modLane n (·.enterArming))
  | _ => s

/-- The end of free flow (R107). -/
def endFreeFlow (s : State) : State :=
  stationRecord .freeFlowOff false 0 0 (eachLane leaveFree { s with freeFlow := false })

/-- The body of FREE_FLOW OFF (R107). -/
def freeFlowOff (k : Fin 32) (s : State) : State :=
  if s.evacuate then endOrder k .evacuateHeld s
  else if s.freeFlow then endOrder k .ok (endFreeFlow s)
  else endOrder k .ok s

/-- FREE_FLOW_OFF (R107). -/
def execFreeFlowOff (k : Fin 32) (s : State) : Host.Outcome State Fault Refusal :=
  visit k (fun s => kindIs k 12 s && freeFlowAction s k = 2) (freeFlowOff k) s

/-! ### Unknown kinds (R202) -/

/-- Whether a kind code is none of R203. -/
def kindUnknown (k : Nat) (s : State) : Bool := orderKind s k = 0 || 12 < orderKind s k

/-- UNKNOWN_KIND (R202). -/
def execUnknownKind (k : Fin 32) (s : State) : Host.Outcome State Fault Refusal :=
  visit k (kindUnknown k) (endOrder k .unknownKind) s

end Sys2Proof.Machine
end

