-- ==== Sys2Proof/Machine/Starting.lean ====
section
/-! DEFINITION. The resets, the power-on fill, the restart scan and a host write of station memory (R188, R194, R195,
R199, R211). -/

namespace Sys2Proof.Machine

/-! ### The lift number (R199) -/

/-- The number of strap pins that are high. -/
def strapsHigh (straps : BitVec 6) : Nat := (List.range 6).countP straps.getLsbD

/-- The lift number of six strap pins: the value of LIFT0 to LIFT4 under odd parity, and 31 otherwise (R199). -/
def liftOf (straps : BitVec 6) : Nat := if strapsHigh straps % 2 = 1 then straps.toNat % 32 else 31

/-! ### What either reset leaves in the blocks -/

/-- A power-on reset: every block as State.reset has it, the fill begun. Memory stands until the fill reaches it
(log entry 11), and the EVACUATE pin gives the level it gave (R193); the queue of commands and the free-value counter
belong to the model. -/
def powerOn (s : State) : State :=
  { State.reset with mem := s.mem, evacuatePin := s.evacuatePin, pending := s.pending, freeCount := s.freeCount }

/-- The Journal Writer after a pin reset (R211). A restart scan that a pin reset interrupts keeps the number it was to
write (R195). -/
def journalAtPinReset (s : State) : Journal :=
  { writeIndex := s.journal.writeIndex
    readIndex := s.peek hdrReadIndex 2 % 1024
    hold := []
    pledges := 0
    dropped := if s.station = .starting then s.journal.dropped else s.journal.hold.length }

/-- The Input Map as a pin reset finds it in its mirror; none where MAP_INPUTS would refuse it (R85). -/
def mapInMirror (m : Memory) : Option (List (Option Source)) :=
  match readSources m inputMapBase with
  | some l => if pinsDistinct l then some l else none
  | none => none

/-- The Input Map reloaded, or every source NONE and the mirror rewritten to match (R85, R112). -/
def reloadInputs (s : State) : State :=
  match mapInMirror s.mem with
  | some l => { s with lanes := mapInputs l s.lanes }
  | none => { s with mem := s.mem.writeBytes inputMapBase (mirrorBytes noneSources) }

/-- A pin reset outside the fill: every block by its own rule, the restart scan begun (R195). Station time holds day 0,
millisecond 0 until RESTART_SCAN_DONE takes it from the mirror (R31): DESIGN CHOICE, log entry 12. -/
def pinReset (s : State) : State :=
  reloadInputs
    { State.reset with
      mem := s.mem, evacuatePin := s.evacuatePin, pending := s.pending, freeCount := s.freeCount
      startPhase := .scan, journal := journalAtPinReset s }

/-- POWER_ON_RESET (R194). -/
def execPowerOnReset (s : State) : Host.Outcome State Fault Refusal := .next (powerOn s)

/-- PIN_RESET: the fill begins again where a fill was in progress (R194), and otherwise the restart scan begins
(R195). -/
def execPinReset (s : State) : Host.Outcome State Fault Refusal :=
  if s.station = .starting ∧ s.startPhase = .fill then .next (powerOn s) else event s (pinReset s)

/-! ### The fill and the scan as far as they have come -/

/-- The words of the fill. -/
def fillWords : Nat := fillEnd / 2

/-- The fill carried on up to a word. -/
def fillTo (word : Nat) (s : State) : State :=
  { s with mem := s.mem.zeroRange (2 * s.startPos) (2 * word), startPos := word }

/-- The visits of the restart scan: the pass slots of step 1, then the order slots of step 2 (R195). -/
def scanVisits : Nat := passSlots + 32

/-- Step 2 of R195 at one order slot, where the scan's visits from `lo` to `hi` reach it. -/
def resetOrder (lo hi : Nat) (s : State) (k : Fin 32) : State :=
  if lo ≤ passSlots + k.val ∧ passSlots + k.val < hi ∧ orderState s k = 2 then endOrder k .reset s else s

/-- The restart scan carried on up to a visit. -/
def scanTo (visit : Nat) (s : State) : State :=
  let t := (liveSlots s.mem s.startPos (min visit passSlots)).foldl (fun t slot => setMarker slot none t) s
  { (List.finRange 32).foldl (resetOrder s.startPos visit) t with startPos := visit }

/-- How far the fill or the scan has come when a host write arrives (log entries 8, 9). Between host writes it stands where
the last one left it, and host reads see it so until the reset ends: DESIGN CHOICE, log entry 49. -/
def advanceStart (s : State) : State :=
  match s.station, s.startPhase with
  | .starting, .fill =>
    { fillTo (max s.startPos (min (Config.fillReach s.freeCount) fillWords)) s with freeCount := s.freeCount + 1 }
  | .starting, .scan =>
    { scanTo (max s.startPos (min (Config.scanReach s.freeCount) scanVisits)) s with freeCount := s.freeCount + 1 }
  | _, _ => s

/-- A host write of one word of station memory, at a byte address (R188). A write of the journal read index word is
handed to the Journal Writer (R207). -/
def hostWrite (a : Nat) (v : Word) (s : State) : State :=
  let t := (advanceStart s).poke a 2 v.toNat
  if a = hdrReadIndex then offerReadIndex v.toNat t else t

/-! ### The end of a reset -/

/-- The six option values as the header shows them (R189). -/
def Options.bytes (o : Options) : List Byte :=
  le 2 o.divider ++ le 2 o.sweepPeriod ++ le 2 o.presenceLimit ++ le 2 o.referralTimeout ++ le 2 o.captureTimeout
    ++ le 2 o.windowLength

/-- The header fields both resets write, but for the state mirror, which the event brings up to date (R189). -/
def writeHeader (cause lift : Nat) (s : State) : State :=
  { s with
    liftNumber := lift
    mem := (((s.mem.write hdrLayoutVersion 2 1).write hdrStartCause 2 cause).write hdrLift 2 lift).writeBytes hdrTaken
      s.options.bytes }

/-- An asserting edge of EVACUATE: attention, and free flow (R108). -/
def assertEvacuate (s : State) : State := startFreeFlow true (raise .evacuate s)

/-- The station enters QUIET, the sweep timer at 0; a pin that is high counts as an asserting edge (R108, R194,
R195). -/
def enterQuiet (s : State) : State :=
  let t : State := { s with station := .quiet, sweepTimer := 0, startPos := 0 }
  if s.evacuatePin then assertEvacuate { t with evacuate := true } else t

/-- NONE written as the latest flow record index of every lane (R126). -/
def noFlowIndices (s : State) : State :=
  { s with mem := s.mem.writeBytes (hdrFlow 0) (List.replicate 8 255) }

/-- Part-owned fields written 0 after the fill, over whatever the host wrote behind it: the time mirror, write index and
dropped count of the header (R189) and the current-window fields of the Lane Blocks (R127, R194). -/
def zeroMirrors (s : State) : State :=
  let m := s.mem.zeroRange hdrMs (hdrDropped + 2)
  { s with mem := allFour.foldl (fun m n => m.zeroRange (laneBlockBase n.val + 80) (laneBlockBase n.val + 102)) m }

/-- The writes that follow the fill (R194). -/
def finishFill (straps : BitVec 6) (s : State) : State :=
  let t := noFlowIndices (writeHeader 1 (liftOf straps) (zeroMirrors (fillTo fillWords s)))
  writeLaneBlocks { t with mem := t.mem.writeBytes inputMapBase (mirrorBytes noneSources) }

/-- FILL_DONE (R194). -/
def execFillDone (straps : BitVec 6) (s : State) : Host.Outcome State Fault Refusal :=
  if s.station = .starting ∧ s.startPhase = .fill then event s (enterQuiet (finishFill straps s)) else .next s

/-- Station time taken from the mirror; a mirror that holds no station time gives day 0, millisecond 0 and is
rewritten (R31). -/
def takeMirrorTime (s : State) : State :=
  if s.peek hdrDay 2 = 65535 ∨ dayMs ≤ s.peek hdrMs 4 then writeTimeMirror { s with day := 0, ms := 0 }
  else { s with day := s.peek hdrDay 2, ms := s.peek hdrMs 4 }

/-- A lane's latest flow position and record number taken from the header and its ring (R126). -/
def takeFlowPosition (n : Fin 4) (s : State) : State :=
  let p := s.peek (hdrFlow n.val) 2
  if p ≤ 63 then
    s.modLane n fun l => { l with flowPosition := some p, flowNumber := s.peek (flowBase n.val p) 2 }
  else if p = 0xFFFF then s
  else s.poke (hdrFlow n.val) 2 0xFFFF

/-- The rest of the restart scan: steps 1 and 2 to their end, then steps 3 and 4 (R195). -/
def finishScan (straps : BitVec 6) (s : State) : State :=
  let t := scanTo scanVisits s
  let u := writeHeader 2 (liftOf straps) (t.poke hdrDropped 2 t.journal.dropped)
  writeLaneBlocks (eachLane takeFlowPosition (takeMirrorTime u))

/-- RESTART_SCAN_DONE (R195). -/
def execRestartScanDone (straps : BitVec 6) (s : State) : Host.Outcome State Fault Refusal :=
  if s.station = .starting ∧ s.startPhase = .scan then event s (enterQuiet (finishScan straps s)) else .next s

end Sys2Proof.Machine
end

