-- ==== Sys2Proof/Machine/Station.lean ====
section
/-! DEFINITION. The Host Port and the Order Unit's sweep: RUN and QUIET requests, the registers, host writes, host
presence, the start of a sweep, and EVACUATE (R108, R190 to R193, R196 to R198, R202, R207). -/

namespace Sys2Proof.Machine

/-! ### Options (R190) -/

/-- The sweep period of an option word: 0 selects 4, other values the nearest of 1, 2, 4, 8, ties to the lower. -/
def sweepPeriodOf (v : Nat) : Nat :=
  if v = 0 then 4 else if v ≤ 1 then 1 else if v ≤ 3 then 2 else if v ≤ 6 then 4 else 8

/-- The option set as taken from the header. -/
def readOptions (m : Memory) : Options :=
  { divider := clampOr 24000 8000 32000 (m.read hdrOptions 2)
    sweepPeriod := sweepPeriodOf (m.read (hdrOptions + 2) 2)
    presenceLimit := clampOr 10 1 60 (m.read (hdrOptions + 4) 2)
    referralTimeout := clampOr 800 200 2000 (m.read (hdrOptions + 6) 2)
    captureTimeout := clampOr 5000 2000 10000 (m.read (hdrOptions + 8) 2)
    windowLength := clampOr 15 1 60 (m.read (hdrOptions + 10) 2) }

/-- The options taken into force and shown in the header (R190); the divider acts from the next tick (R25). -/
def takeOptions (s : State) : State :=
  let o := readOptions s.mem
  { s with options := o, dividerTaken := o.divider, mem := s.mem.writeBytes hdrTaken o.bytes }

/-! ### RUN and QUIET (R196, R197) -/

/-- A lane at the QUIET to RUNNING change (R93, R103, R196). -/
def startLane (n : Fin 4) (s : State) : State :=
  match (s.lane n).config.role with
  | .down => s
  | .entry =>
    if s.freeFlow then handOutcome n .free (s.modLane n (·.enter .free)) else s.modLane n (·.enterArming)
  | .ret => s.modLane n (·.enterArming)

/-- The presence baseline taken at a RUN (R196, R198). -/
def startPresence (s : State) : State :=
  { s with online := true, presenceValue := s.peek hdrPresence 2, presenceCount := 0, presenceTimer := 0
           presenceDue := false }

/-- A current window opened for every lane at a RUN, PARTIAL (R116). -/
def startWindows (s : State) : State :=
  eachLane (fun n t => openWindow n (windowAt t true false false) t) s

/-- A RUN request taken in QUIET, in the order of R196. -/
def startRunning (s : State) : State :=
  let t := startPresence (takeOptions s)
  let u := startWindows { t with timeUnsetRefused := false, sweepTimer := 0, station := .running }
  stationRecord .run false 0 0 (changeService s (eachLane startLane u))

/-- A RUN request (R193). -/
def requestRun (s : State) : State :=
  match s.station with
  | .quiet => if s.timeSet then startRunning s else { s with timeUnsetRefused := true }
  | _ => s

/-- What going QUIETING does to one lane (R111). -/
def windDown (n : Fin 4) (s : State) : State :=
  match (s.lane n).state with
  | .granted g => voidToReady n g .laneChange s
  | .referred r => denyReferralToReady n r none .laneChange .laneChange s
  | _ => s

/-- A QUIET request (R193, R197). -/
def requestQuiet (s : State) : State :=
  match s.station with
  | .running =>
    quietIfIdle (eachLane windDown
      { s with station := .quieting, tapQueue := [], presenceTimer := 0, presenceDue := false })
  | _ => s

/-- RUN_REQUEST (R196). -/
def execRunRequest (s : State) : Host.Outcome State Fault Refusal := event s (requestRun s)

/-- QUIET_REQUEST (R197). -/
def execQuietRequest (s : State) : Host.Outcome State Fault Refusal := event s (requestQuiet s)

/-! ### Registers (R191, R193) -/

/-- A host write to ATTN: each bit written as 1 is cleared (R191). -/
def clearAttn (v : Word) (s : State) : State := { s with attn := s.attn &&& ~~~(v.setWidth 8) }

/-- A host write to ATTN_MASK: bits 8 to 15 are not written (R191). -/
def writeAttnMask (v : Word) (s : State) : State := { s with attnMask := v.setWidth 8 }

/-- ATTN_CLEAR (R191). -/
def execAttnClear (v : Word) (s : State) : Host.Outcome State Fault Refusal := .next (clearAttn v s)

/-- ATTN_MASK_WRITE (R191). -/
def execAttnMaskWrite (v : Word) (s : State) : Host.Outcome State Fault Refusal := .next (writeAttnMask v s)

/-- The four registers, chosen by A1 and A0 (R190's chapter, R191, R193). -/
inductive Register where
  | ident
  | attn
  | attnMask
  | run
  deriving DecidableEq, Repr

/-- The register an address selects; the higher address lines are not decoded. -/
def registerAt (address : BitVec 17) : Register :=
  match address.toNat % 4 with
  | 0 => .ident
  | 1 => .attn
  | 2 => .attnMask
  | _ => .run

/-- A host write with RS high (R191, R193). -/
def writeRegister (r : Register) (v : Word) (s : State) : State :=
  match r with
  | .ident => s
  | .attn => clearAttn v s
  | .attnMask => writeAttnMask v s
  | .run => if v = 1 then requestRun s else if v = 2 then requestQuiet s else s

/-- REGISTER_WRITE (R193); with RS low, a write of a word of station memory (R188, log entry 2). -/
def execRegisterWrite (rs : Bool) (address : BitVec 17) (v : Word) (s : State) :
    Host.Outcome State Fault Refusal :=
  if rs then event s (writeRegister (registerAt address) v s) else .next (hostWrite (2 * address.toNat) v s)

/-- JOURNAL_READ_INDEX (R207). -/
def execJournalReadIndex (v : Word) (s : State) : Host.Outcome State Fault Refusal :=
  .next (hostWrite hdrReadIndex v s)

/-! ### Host presence (R198) -/

/-- The station goes OFFLINE (R122, R198). -/
def goOffline (s : State) : State :=
  eachLane markOffline (stationRecord .offline false 0 0 (raise .presence { s with online := false }))

/-- The station comes back ONLINE (R198). -/
def goOnline (s : State) : State :=
  stationRecord .online false 0 0 (raise .presence { s with online := true })

/-- One sample of the presence word (R198). -/
def samplePresence (s : State) : State :=
  let v := s.peek hdrPresence 2
  let t : State := { s with presenceDue := false }
  if v = s.presenceValue then
    let c := min (s.presenceCount + 1) s.options.presenceLimit
    let u : State := { t with presenceCount := c }
    if s.online ∧ s.options.presenceLimit ≤ c then goOffline u else u
  else
    let u : State := { t with presenceValue := v, presenceCount := 0 }
    if s.online then u else goOnline u

/-- PRESENCE_SAMPLE (R198): the sample due while RUNNING. -/
def execPresenceSample (s : State) : Host.Outcome State Fault Refusal :=
  if s.station = .running ∧ s.presenceDue then event s (samplePresence s) else .next s

/-! ### The sweep (R202) -/

/-- What SWEEP does: a visit of the running sweep that passes over its slot moves the sweep on, and it ends behind slot 31;
with no sweep running, a sweep that is due starts at slot 0. A visit that takes an order is that order's row. -/
def sweepVisit (s : State) : State :=
  match s.sweepNext with
  | some k => if (nextOrder s).isSome then s else { s with sweepNext := slotAfter k }
  | none => if s.sweepDue ∧ s.station ≠ .starting then { s with sweepNext := some 0, sweepDue := false } else s

/-- SWEEP (R202). -/
def execSweep (s : State) : Host.Outcome State Fault Refusal := .next (sweepVisit s)

/-! ### EVACUATE (R108, R109) -/

/-- EVACUATE: the pin sampled high after it was low. In STARTING it acts on the locks alone (R108). -/
def execEvacuate (s : State) : Host.Outcome State Fault Refusal :=
  if s.evacuate then .next { s with evacuatePin := true }
  else
    let t : State := { s with evacuate := true, evacuatePin := true }
    event s (if s.station = .starting then t else assertEvacuate t)

/-- EVACUATE_LOW: the pin sampled low; the locks follow (R109). -/
def execEvacuateLow (s : State) : Host.Outcome State Fault Refusal := event s { s with evacuate := false, evacuatePin := false }

end Sys2Proof.Machine
end

