-- ==== Sys2Proof/Machine/Outputs.lean ====
section
/-! DEFINITION. What the world sees of a state: the lane pins, ATTN_N, the reader lines' frames, and host reads of words
and registers. Reads change nothing (log entry 21). -/

namespace Sys2Proof.Machine

/-! ### Lane outputs (R109, R110, R182 to R187) -/

/-- The LOCK pin of a lane (R184, R185). -/
def lockPin (s : State) (n : Fin 4) : Bool :=
  match (s.lane n).config.drive with
  | .level => lockReleased s n
  | .pulse _ => (s.lane n).lockPulse.isSome

/-- The CAPTURE pin of a lane: active while it is CAPTURING (R110, R187). -/
def capturePin (s : State) (n : Fin 4) : Bool :=
  match (s.lane n).state with
  | .capturing _ => true
  | _ => false

/-- The lamps of a lane (R180). -/
inductive Lamp where
  | green
  | red
  | amber
  deriving DecidableEq, Repr

def Lamps.duty (x : Lamps) : Lamp → Nat
  | .green => x.green
  | .red => x.red
  | .amber => x.amber

/-- A lamp pin of a lane, `cycle` CLK_IN cycles after the last tick: active from the start of each carrier period for the
cycles of its duty; a period that starts after a RUN has the divider taken there (R182). -/
def lampPin (s : State) (n : Fin 4) (lamp : Lamp) (cycle : Nat) : Bool :=
  let c := s.carrier.run s.dividerTaken cycle
  let x := s.carrier.duties cycle (s.lane n).levels (s.lane n).lamps
  c.elapsed < lampActiveCycles c.divider (x.duty lamp)

/-- The BUZZER pin of a lane, `cycle` CLK_IN cycles after the last tick (R183). -/
def buzzerPin (s : State) (n : Fin 4) (cycle : Nat) : Bool :=
  ((s.lane n).buzzer.run s.divider cycle (s.lane n).levels.buzzer).active

/-- ATTN_N: false is low, driven (R191). -/
def attnN (s : State) : Bool := !attentionDriven s

/-- The frame bytes a port's transmitter is sending, none while it is IDLE (R54, R55). -/
def txFrame (s : State) (p : Fin 4) : Option (List Byte) := (s.port p).sending.map showBytes

/-! ### Host reads (R188, R191, R193) -/

/-- The word of station memory at a word address (R188). -/
def readWord (s : State) (address : BitVec 17) : Word := BitVec.ofNat 16 (s.peek (2 * address.toNat) 2)

/-- A register as read (R191, R193). -/
def readRegister (s : State) : Register → Word
  | .ident => 0x4181
  | .attn => s.attn.setWidth 16
  | .attnMask => s.attnMask.setWidth 16
  | .run => BitVec.ofNat 16 (runRegister s)

end Sys2Proof.Machine
end

