-- ==== Sys2Proof/Machine/Admission.lean ====
section
/-! DEFINITION. The Admission Engine (R58 to R84): the checks, grants and their timers, referrals, and the commands
TAP_TAKE, GRANT_WINDOW, HOLD_LIMIT, REFERRAL_TIMEOUT and DECLINE_REFERRAL. -/

namespace Sys2Proof.Machine

/-! ### The checks (R61 to R64) -/

/-- Check 11: NOT_YET or EXPIRED, compared as whole numbers (R62). -/
def validityDenial (e : PassEntry) (p : Product) (today : Nat) : Option DenyReason :=
  match e.firstDay with
  | some f => if today < f then some .notYet else if f + p.span ≤ today then some .expired else none
  | none => if e.issueDay + p.activation ≤ today then some .expired else none

/-- Whether the pass is in passback (R63). -/
def inPassback (e : PassEntry) (p : Product) (today minute : Nat) : Bool :=
  match e.lastDay, e.lastMinute with
  | some d, some m => d = today && minute < m + p.passback
  | _, _ => false

/-- Checks 5 to 14 of R61 in order: the first that fails decides. -/
def entryDenial (e : PassEntry) (p : Product) (stamp lift today minute : Nat) : Option DenyReason :=
  if stamp ≠ e.stamp then some .staleCard
  else if e.blocked then some .blocked
  else if e.retired then some .retired
  else if e.exhausted then some .exhausted
  else if e.marker.isSome then some .inUse
  else if p.mask.testBit lift = false then some .wrongLift
  else if (validityDenial e p today).isSome then validityDenial e p today
  else if ¬(p.openMinute ≤ minute ∧ minute < p.closeMinute) then some .hours
  else if inPassback e p today minute then some .passback
  else if p.kind = .days ∧ e.lastDay ≠ some today ∧ ¬e.daysUsed < p.daysBought then some .noDays
  else none

/-- The checks of an entry in a state: its product, the lift number, today and the operating minute (R61). -/
def passDenial (s : State) (slot stamp : Nat) : Option DenyReason :=
  entryDenial (s.pass slot) (s.product (s.pass slot).product) stamp s.liftNumber s.day s.minute

/-- UNSET lift number (R199). -/
def liftUnset (s : State) : Bool := s.liftNumber = 31

/-! ### Grants (R67 to R70) -/

/-- Whether a passage of this entry will consume a day (R67). -/
def willConsume (e : PassEntry) (p : Product) (today : Nat) : Bool := p.kind = .days && e.lastDay ≠ some today

/-- The value of SHOW GRANT (R70). -/
def grantValue (e : PassEntry) (p : Product) (today : Nat) : Nat :=
  match p.kind with
  | .days => if e.lastDay = some today then p.daysBought - e.daysUsed else p.daysBought - e.daysUsed - 1
  | .rides => e.usage - 1
  | _ => 0

/-- The grant record of R67. -/
def newGrant (s : State) (n : Fin 4) (uid : List Byte) (slot : Nat) : Grant :=
  let e := s.pass slot
  { slot := slot, uid := uid, tick := s.now, willConsume := willConsume e (s.product e.product) s.day
    windowCount := 0, grantWindow := (s.lane n).config.grantWindow, holdLimit := (s.lane n).config.holdLimit
    exitBlocks := 0 }

/-- A grant, in the order of R68: the record, the marker, the pledge, GRANTED, the GRANT cue, SHOW GRANT. -/
def grantPass (n port : Fin 4) (uid : List Byte) (slot : Nat) (s : State) : State :=
  let e := s.pass slot
  let value := grantValue e (s.product e.product) s.day
  sendShow port .grant value
    (handOutcome n .grant
      (takePledge (setMarker slot (some n) (s.modLane n (·.enter (.granted (newGrant s n uid slot)))))))

/-! ### Referrals (R76 to R82) -/

/-- A miss while ONLINE: the referral record, REFERRED, the REFERRAL record and attention (R77). -/
def refer (n port : Fin 4) (uid : List Byte) (stamp : Nat) (s : State) : State :=
  raise .referral (appendUnpledged (mkRecord s (some n) uid none .referral)
    (s.modLane n (·.enter (.referred ⟨uid, stamp, s.now, port⟩))))

/-- One lane's referral put through checks 5 to 14 against the entry just written (R78). -/
def reevaluate (uid : List Byte) (slot : Nat) (n : Fin 4) (s : State) : State :=
  match (s.lane n).state with
  | .referred r =>
    if r.uid = uid then
      match passDenial s slot r.stamp with
      | some reason => denyReferralToReady n r (some slot) reason .insert s
      | none =>
        if 5 ≤ s.journal.room then grantPass n r.port r.uid slot s
        else denyReferralToReady n r (some slot) .journalFull .insert s
    else s
  | _ => s

/-- The UID of an INSERT_PASS handed to the Admission Engine: every lane REFERRED for it, in ascending order (R78). -/
def reevaluateAll (uid : List Byte) (slot : Nat) (s : State) : State := eachLane (reevaluate uid slot) s

/-! ### Taps at entry lanes (R59 to R66) -/

/-- The admission checks on a tap at a READY lane (R61). -/
def evaluateTap (t : TapRecord) (s : State) : State :=
  if s.journal.room < 5 then denyTap t.lane t.port [] none .journalFull s
  else if liftUnset s then denyTap t.lane t.port [] none .stationUnset s
  else if t.quality = 0 then denyTap t.lane t.port [] none .reread s
  else
    match lookup s.mem t.uid with
    | none =>
      if s.online then refer t.lane t.port t.uid t.stamp s else denyTap t.lane t.port t.uid none .unknown s
    | some slot =>
      match passDenial s slot t.stamp with
      | some reason => denyTap t.lane t.port t.uid (some slot) reason s
      | none => grantPass t.lane t.port t.uid slot s

/-- A tap taken for a RUNNING entry lane, by the lane's state (R60). -/
def handleTap (t : TapRecord) (s : State) : State :=
  match (s.lane t.lane).state with
  | .ready _ => evaluateTap t s
  | .referred r => if r.uid = t.uid then s else denyBusy t.lane t.port t.uid s
  | .granted g => if g.uid = t.uid then s else denyBusy t.lane t.port t.uid s
  | .passing _ => denyBusy t.lane t.port t.uid s
  | .free => sendShow t.port .free 0 s
  | _ => s

/-- TAP_TAKE: the record at the head of the queue (R58, R59). -/
def execTapTake (s : State) : Host.Outcome State Fault Refusal :=
  match s.tapQueue with
  | [] => .next s
  | t :: rest =>
    let s1 : State := { s with tapQueue := rest }
    if s.station = .running ∧ (s.lane t.lane).config.role = .entry then event s (handleTap t s1) else .next s1

/-! ### The grant's timers (R71, R72) -/

/-- GRANT_WINDOW: the window count has reached the grant window (R71). -/
def execGrantWindow (n : Fin 4) (s : State) : Host.Outcome State Fault Refusal :=
  match (s.lane n).state with
  | .granted g => if g.grantWindow ≤ g.windowCount then event s (voidToReady n g .window s) else .next s
  | _ => .next s

/-- HOLD_LIMIT: the ticks since the grant tick have reached the hold limit (R72). -/
def execHoldLimit (n : Fin 4) (s : State) : Host.Outcome State Fault Refusal :=
  match (s.lane n).state with
  | .granted g => if g.holdLimit ≤ s.now - g.tick then event s (voidToReady n g .holdLimit s) else .next s
  | _ => .next s

/-- REFERRAL_TIMEOUT: the ticks since the referral tick have reached the referral timeout (R81). -/
def execReferralTimeout (n : Fin 4) (s : State) : Host.Outcome State Fault Refusal :=
  match (s.lane n).state with
  | .referred r =>
    if s.options.referralTimeout ≤ s.now - r.tick then event s (denyReferralToReady n r none .unknown .timeout s)
    else .next s
  | _ => .next s

/-- The body of DECLINE_REFERRAL (R80). -/
def declineReferral (k : Fin 32) (s : State) : State :=
  match fourOf (payload s k 19 1), payloadUid s k with
  | some n, some uid =>
    match (s.lane n).state with
    | .referred r =>
      if r.uid = uid then endOrder k .ok (denyReferralToReady n r none .unknown .decline s)
      else endOrder k .stale s
    | _ => endOrder k .stale s
  | _, _ => endOrder k .badField s

/-- DECLINE_REFERRAL (R80). -/
def execDeclineReferral (k : Fin 32) (s : State) : Host.Outcome State Fault Refusal :=
  visit k (kindIs k 5) (declineReferral k) s

end Sys2Proof.Machine
end

