-- ==== Sys2Proof/Machine/PassOrders.lean ====
section
/-! DEFINITION. The pass orders INSERT_PASS, AMEND_PASS, REMOVE_PASS and READ_PASS (R8 to R16). -/

namespace Sys2Proof.Machine

/-! ### INSERT_PASS (R9 to R12) -/

/-- The usage word INSERT_PASS gives a pass of a product (R11). -/
def initialUsage (p : Product) : Nat :=
  match p.kind with
  | .rides => p.ridesInitial
  | _ => 0

/-- A withdrawal for an index waits in the Staging Area (R9 step 2). -/
def withdrawalStaged (m : Memory) (index : Nat) : Bool :=
  (readStaging m).any fun x => x.1 = index && x.2.kind = .none

/-- Step 6 of R9 on a hit without RESET_USAGE. -/
def replacementProblem (e : PassEntry) (old new : Product) : Option Result :=
  if old.kind ≠ new.kind then some .kindMismatch
  else
    match new.kind with
    | .days => if new.daysBought < e.daysUsed then some .badField else none
    | .rides => if new.ridesInitial < e.usage then some .badField else none
    | _ => none

/-- The first valid day a hit entry would hold (R10). -/
def firstDayAfter (e : PassEntry) (p : InsertPayload) : Option Nat :=
  match p.firstDay with
  | some d => some d
  | none => if p.resetUsage then none else e.firstDay

/-- Checks 4 to 7 of R9 on a hit. -/
def hitProblem (e : PassEntry) (old new : Product) (p : InsertPayload) : Option Result :=
  if p.resetUsage ∧ e.retired then some .retired
  else if p.resetUsage ∧ e.marker.isSome then some .inUse
  else if ¬p.resetUsage ∧ (replacementProblem e old new).isSome then replacementProblem e old new
  else if firstDayAfter e p = none ∧ new.floating = false then some .badField
  else none

/-- The entry a hit leaves (R10). -/
def updatedEntry (e : PassEntry) (new : Product) (p : InsertPayload) : PassEntry :=
  let host : PassEntry :=
    { e with stamp := p.stamp, product := p.product, issueDay := p.issueDay, paid := p.paid
             flags := setFlag e.flags 0 p.blocked, firstDay := firstDayAfter e p }
  if p.resetUsage then
    { host with usage := initialUsage new, lastDay := none, lastMinute := none, creditedDay := none
                marker := none, flags := setFlag (setFlag host.flags 1 false) 2 false }
  else host

/-- The entry a miss writes: every field (R11). -/
def insertedEntry (uid : List Byte) (new : Product) (p : InsertPayload) : PassEntry :=
  { slotState := 1, uidLength := uid.length, uid := padTo 10 uid, stamp := p.stamp, product := p.product
    flags := setFlag 0 0 p.blocked, issueDay := p.issueDay, firstDay := p.firstDay, lastDay := none
    usage := initialUsage new, lastMinute := none, creditedDay := none, paid := p.paid, marker := none }

/-- A product index written at a pass slot, handed to the withdrawal scan: a slot already visited is noted
(R12, R23). -/
def noteReference (index slot : Nat) (s : State) : State :=
  { s with withdrawal := s.withdrawal.map fun w =>
      if w.order.index = index ∧ slot < w.position then { w with late := true } else w }

/-- An insert that has passed its checks: the entry, the order's end, the hand-overs of R12. -/
def acceptInsert (k : Fin 32) (uid : List Byte) (slot : Nat) (e : PassEntry) (s : State) : State :=
  reevaluateAll uid slot (noteReference e.product slot (endOrder k .ok (s.putPass slot e)))

/-- The body of INSERT_PASS: the checks of R9 in order. -/
def insertPass (k : Fin 32) (s : State) : State :=
  match payloadUid s k with
  | none => endOrder k .badField s
  | some uid =>
    let p := readInsert s k
    let new := s.product p.product
    if 63 < p.product ∨ new.kind = .none ∨ withdrawalStaged s.mem p.product then endOrder k .badField s
    else
      match (probe s.mem uid).hit with
      | some slot =>
        let e := s.pass slot
        match hitProblem e (s.product e.product) new p with
        | some r => endOrder k r s
        | none => acceptInsert k uid slot (updatedEntry e new p) s
      | none =>
        if p.firstDay = none ∧ new.floating = false then endOrder k .badField s
        else
          match (probe s.mem uid).vacant with
          | none => endOrder k .tableCrowded s
          | some slot => acceptInsert k uid slot (insertedEntry uid new p) s

/-- INSERT_PASS (R9). -/
def execInsertPass (k : Fin 32) (s : State) : Host.Outcome State Fault Refusal :=
  visit k (kindIs k 1) (insertPass k) s

/-! ### AMEND_PASS, REMOVE_PASS, READ_PASS (R13 to R15) -/

/-- The flags after an AMEND_PASS action: 0 LEAVE, 1 SET, 2 CLEAR (R13). -/
def amendFlags (action : Nat) (f : Byte) : Byte :=
  match action with
  | 1 => setFlag f 0 true
  | 2 => setFlag f 0 false
  | _ => f

/-- The body of AMEND_PASS (R13). -/
def amendPass (k : Fin 32) (s : State) : State :=
  match payloadUid s k with
  | none => endOrder k .badField s
  | some uid =>
    if 2 < payload s k 19 1 then endOrder k .badField s
    else
      match lookup s.mem uid with
      | none => endOrder k .notFound s
      | some slot =>
        let e := s.pass slot
        let stamp := if payload s k 20 1 = 0 then e.stamp else payload s k 21 2
        endOrder k .ok (s.putPass slot { e with flags := amendFlags (payload s k 19 1) e.flags, stamp := stamp })

/-- AMEND_PASS (R13). -/
def execAmendPass (k : Fin 32) (s : State) : Host.Outcome State Fault Refusal :=
  visit k (kindIs k 2) (amendPass k) s

/-- The body of REMOVE_PASS: the slot becomes TOMB, its other fields stay (R14). -/
def removePass (k : Fin 32) (s : State) : State :=
  match payloadUid s k with
  | none => endOrder k .badField s
  | some uid =>
    match lookup s.mem uid with
    | none => endOrder k .notFound s
    | some slot =>
      if (s.pass slot).marker.isSome then endOrder k .inUse s
      else endOrder k .ok (s.poke (passBase slot) 1 2)

/-- REMOVE_PASS (R14). -/
def execRemovePass (k : Fin 32) (s : State) : Host.Outcome State Fault Refusal :=
  visit k (kindIs k 3) (removePass k) s

/-- The body of READ_PASS: the whole entry, then its slot number, into the result area (R15). -/
def copyPass (k : Fin 32) (s : State) : State :=
  match payloadUid s k with
  | none => endOrder k .badField s
  | some uid =>
    match lookup s.mem uid with
    | none => endOrder k .notFound s
    | some slot =>
      endOrder k .ok (pokeResult k 32 (s.mem.readBytes (passBase slot) 32 ++ le 2 slot) s)

/-- READ_PASS (R15). -/
def execReadPass (k : Fin 32) (s : State) : Host.Outcome State Fault Refusal :=
  visit k (kindIs k 4) (copyPass k) s

end Sys2Proof.Machine
end

