-- ==== Sys2Proof/Machine/Dispatch.lean ====
section
/-! DEFINITION. The dispatch: one arm per command, each one call of its meaning. -/

namespace Sys2Proof.Machine

def exec (i : Instr) (s : State) : Host.Outcome State Fault Refusal :=
  match i with
  | .powerOnReset => Sys2Proof.Machine.execPowerOnReset s
  | .pinReset => Sys2Proof.Machine.execPinReset s
  | .fillDone straps => Sys2Proof.Machine.execFillDone straps s
  | .restartScanDone straps => Sys2Proof.Machine.execRestartScanDone straps s
  | .tick sense => Sys2Proof.Machine.execTick sense s
  | .rollover => Sys2Proof.Machine.execRollover s
  | .windowEnd => Sys2Proof.Machine.execWindowEnd s
  | .tap port quality stamp uid => Sys2Proof.Machine.execTap port quality stamp uid s
  | .gone port uid => Sys2Proof.Machine.execGone port uid s
  | .status port code => Sys2Proof.Machine.execStatus port code s
  | .badFrame port line => Sys2Proof.Machine.execBadFrame port line s
  | .malformedFrame port body => Sys2Proof.Machine.execMalformedFrame port body s
  | .gapTimeout port => Sys2Proof.Machine.execGapTimeout port s
  | .silent port => Sys2Proof.Machine.execSilent port s
  | .showEnd port => Sys2Proof.Machine.execShowEnd port s
  | .tapTake => Sys2Proof.Machine.execTapTake s
  | .grantWindow lane => Sys2Proof.Machine.execGrantWindow lane s
  | .holdLimit lane => Sys2Proof.Machine.execHoldLimit lane s
  | .referralTimeout lane => Sys2Proof.Machine.execReferralTimeout lane s
  | .sweep => Sys2Proof.Machine.execSweep s
  | .insertPass slot => Sys2Proof.Machine.execInsertPass slot s
  | .amendPass slot => Sys2Proof.Machine.execAmendPass slot s
  | .removePass slot => Sys2Proof.Machine.execRemovePass slot s
  | .readPass slot => Sys2Proof.Machine.execReadPass slot s
  | .declineReferral slot => Sys2Proof.Machine.execDeclineReferral slot s
  | .settlePassQuote slot => Sys2Proof.Machine.execSettlePassQuote slot s
  | .settlePassFinal slot => Sys2Proof.Machine.execSettlePassFinal slot s
  | .stageProduct slot => Sys2Proof.Machine.execStageProduct slot s
  | .withdrawalScan => Sys2Proof.Machine.execWithdrawalScan s
  | .postClosure slot => Sys2Proof.Machine.execPostClosure slot s
  | .creditSweep => Sys2Proof.Machine.execCreditSweep s
  | .setTime slot => Sys2Proof.Machine.execSetTime slot s
  | .setLane slot => Sys2Proof.Machine.execSetLane slot s
  | .mapInputs slot => Sys2Proof.Machine.execMapInputs slot s
  | .freeFlowOn slot => Sys2Proof.Machine.execFreeFlowOn slot s
  | .freeFlowOff slot => Sys2Proof.Machine.execFreeFlowOff slot s
  | .unknownKind slot => Sys2Proof.Machine.execUnknownKind slot s
  | .runRequest => Sys2Proof.Machine.execRunRequest s
  | .quietRequest => Sys2Proof.Machine.execQuietRequest s
  | .attnClear value => Sys2Proof.Machine.execAttnClear value s
  | .attnMaskWrite value => Sys2Proof.Machine.execAttnMaskWrite value s
  | .registerWrite rs address value => Sys2Proof.Machine.execRegisterWrite rs address value s
  | .presenceSample => Sys2Proof.Machine.execPresenceSample s
  | .journalReadIndex value => Sys2Proof.Machine.execJournalReadIndex value s
  | .indexPulse lane => Sys2Proof.Machine.execIndexPulse lane s
  | .entryBeamBlock lane => Sys2Proof.Machine.execEntryBeamBlock lane s
  | .entryBeamClear lane => Sys2Proof.Machine.execEntryBeamClear lane s
  | .exitBeamBlock lane => Sys2Proof.Machine.execExitBeamBlock lane s
  | .exitBeamClear lane => Sys2Proof.Machine.execExitBeamClear lane s
  | .passingEnd lane => Sys2Proof.Machine.execPassingEnd lane s
  | .settle lane => Sys2Proof.Machine.execSettle lane s
  | .beamStuck lane exit => Sys2Proof.Machine.execBeamStuck lane exit s
  | .switchStuck lane => Sys2Proof.Machine.execSwitchStuck lane s
  | .duckWatchClose lane => Sys2Proof.Machine.execDuckWatchClose lane s
  | .captureSwitchActivation lane => Sys2Proof.Machine.execCaptureSwitchActivation lane s
  | .captureSwitchRelease lane => Sys2Proof.Machine.execCaptureSwitchRelease lane s
  | .captureTimeout lane => Sys2Proof.Machine.execCaptureTimeout lane s
  | .evacuate => Sys2Proof.Machine.execEvacuate s
  | .evacuateLow => Sys2Proof.Machine.execEvacuateLow s
  | .lockPulseEnd lane => Sys2Proof.Machine.execLockPulseEnd lane s
  | .cueEntry lane => Sys2Proof.Machine.execCueEntry lane s
  | .frameDroppedForLength port length => Sys2Proof.Machine.execFrameDroppedForLength port length s

end Sys2Proof.Machine
end

