-- ==== Sys2Proof/Safety.lean ====
section
/-! DEFINITION. What claims are stated in: which states are sound, what an event leaves alone, and the rules' own tests and
records written from the rules. -/

namespace Sys2Proof.Machine

/-! ### Sound states -/

/-- Memory in canonical form, and both journal indices within the ring (R206). -/
def State.ok (s : State) : Prop := s.mem.wf ∧ s.journal.writeIndex < 1024 ∧ s.journal.readIndex < 1024

/-- Whether a lane holds a grant or a capture (R69). -/
def LaneState.holds : LaneState → Bool
  | .granted _ => true
  | .capturing _ => true
  | _ => false

/-- How many lanes hold a grant or a capture. -/
def holders (s : State) : Nat := allFour.countP fun n => (s.lane n).state.holds

/-- Every lane is DOWN in STARTING and in QUIET (R93, R103). -/
def lanesRest (s : State) : Prop :=
  s.station = .starting ∨ s.station = .quiet → ∀ n, (s.lane n).state = .down

/-- The Journal Writer's law: indices within the ring, nothing held while the ring has room, one pledge for each grant
and capture, and at least as many free places as pledges (R206 to R209). -/
def journalLaw (s : State) : Prop :=
  s.journal.writeIndex < 1024 ∧ s.journal.readIndex < 1024
    ∧ (s.journal.hold = [] ∨ s.journal.fill = 1023)
    ∧ s.journal.pledges = holders s
    ∧ s.journal.pledges + s.journal.fill + s.journal.hold.length ≤ 1023 + 8

/-- Where lanes may stand: DOWN in STARTING and QUIET; GRANTED or REFERRED only with role ENTRY in RUNNING; CAPTURING only
with role RETURN (R80, R93, R103, R111). -/
def lanesLaw (s : State) : Prop :=
  lanesRest s ∧ ∀ n,
    match (s.lane n).state with
    | .granted _ => s.station = .running ∧ (s.lane n).config.role = .entry
    | .referred _ => s.station = .running ∧ (s.lane n).config.role = .entry
    | .capturing _ => (s.lane n).config.role = .ret
    | _ => True

/-- Station time is a station time (R27), and it counts in RUNNING and QUIETING (R30). -/
def timeLaw (s : State) : Prop :=
  s.day ≤ 65534 ∧ s.ms < 86400000 ∧ (s.station = .running ∨ s.station = .quieting → s.timeSet = true)

/-- Two configurations of role ENTRY or RETURN that name one port (R56). -/
def portsClash (c d : LaneConfig) : Prop := c.role ≠ .down ∧ d.role ≠ .down ∧ c.port = d.port

/-- The configuration in force and the pending one of a lane. -/
def Lane.configs (l : Lane) : List LaneConfig := l.config :: l.pendingConfig.toList

/-- No two lanes have, in force or pending, configurations that clash (R56). -/
def portsExclusive (s : State) : Prop :=
  ∀ n m, n ≠ m → ∀ c ∈ (s.lane n).configs, ∀ d ∈ (s.lane m).configs, ¬portsClash c d

/-- A lane has a current window exactly in RUNNING and QUIETING (R113). -/
def windowsFollowStation (s : State) : Prop :=
  ∀ n, (s.lane n).window.isSome ↔ s.station = .running ∨ s.station = .quieting

/-- At most one tap waits for each lane (R58). -/
def oneTapPerLane (s : State) : Prop := (s.tapQueue.map (·.lane)).Nodup

/-- The slots of the orders in flight: the withdrawals, the credit sweep's, the waiting POST_CLOSUREs and SET_LANEs
(R202). -/
def slotsInFlight (s : State) : List (Fin 32) :=
  (s.withdrawal.map (·.order.slot)).toList ++ s.withdrawalsWaiting.map (·.slot)
    ++ (s.creditSweep.map (·.order.slot)).toList ++ s.closuresWaiting.map (·.slot) ++ s.lanesWaiting.map (·.slot)

/-- No two orders in flight hold one slot: a visit takes no slot whose earlier order is still in flight (R202). -/
def ordersDistinct (s : State) : Prop := (slotsInFlight s).Nodup

/-! ### The laws of the tables -/

/-- Nothing is taken, scanned or rolled over in STARTING (R37, R144, R195, R202). -/
def restsInStarting (s : State) : Prop :=
  s.station = .starting →
    s.sweepNext = none ∧ s.withdrawal = none ∧ s.creditSweep = none ∧ s.dayEnd = false ∧ s.timeSet = false

/-- The power-on fill is in progress (R194). -/
def filling (s : State) : Prop := s.station = .starting ∧ s.startPhase = .fill

/-- The bytes of the Product Table, the Staging Area and the Pass Table (Table 5). -/
def inTables (a : Nat) : Prop :=
  (0x1D00 ≤ a ∧ a < 0x3D00) ∨ (0x3E00 ≤ a ∧ a < 0x4200) ∨ (0xE200 ≤ a ∧ a < 0x3E200)

/-- The fill has zeroed what it has passed of the tables (R194). -/
def fillLaw (s : State) : Prop := filling s → ∀ a, inTables a → a < 2 * s.startPos → s.mem.byteAt a = 0

/-- An allowance that a product record may hold (R17). -/
def Product.allowanceOk (p : Product) : Prop :=
  (p.kind = .days → p.daysBought ≤ 14) ∧ (p.kind = .rides → 1 ≤ p.ridesInitial)

/-- A product record that may take the place of another: of the same kind with no lower allowance, where that one is not
NONE (R19). -/
def Product.succeeds (new old : Product) : Prop :=
  old.kind ≠ .none → new.kind = old.kind ∧ (old.kind = .days → old.daysBought ≤ new.daysBought)
    ∧ (old.kind = .rides → old.ridesInitial ≤ new.ridesInitial)

/-- A LIVE entry names the product. -/
def named (s : State) (slot index : Nat) : Prop :=
  slot < 6144 ∧ slotStateOf s.mem slot = 1 ∧ (s.pass slot).product = index

/-- The laws of usage, in force while no fill runs: for every LIVE pass of a DAYS product C is at most U and U at most the
days bought; for every LIVE pass of a RIDES product the rides left are at most the rides initial, and EXHAUSTED is set
exactly when they are 0 (R3). With them what keeps them: every LIVE pass names a product in force; at most one staged
record for an index (R20), and each may take its product's place, a withdrawal only where no LIVE pass names the
product (R19, R22, R23); and a reference behind the withdrawal scan is noted (R23). -/
def usageLaw (s : State) : Prop :=
  restsInStarting s ∧ fillLaw s
    ∧ (¬filling s →
      (∀ slot < 6144, slotStateOf s.mem slot = 1 →
        let e := s.pass slot
        let d := s.product e.product
        e.product ≤ 63 ∧ d.kind ≠ .none
          ∧ (d.kind = .days → e.usage / 256 ≤ e.usage % 256 ∧ e.usage % 256 ≤ d.daysBought)
          ∧ (d.kind = .rides → e.usage ≤ d.ridesInitial ∧ (e.exhausted = true ↔ e.usage = 0)))
      ∧ (∀ i ≤ 63, (s.product i).allowanceOk)
      ∧ ((readStaging s.mem).map (·.1)).Nodup
      ∧ (∀ x ∈ readStaging s.mem, x.1 ≤ 63 ∧ x.2.allowanceOk
          ∧ (x.2.kind ≠ .none → x.2.succeeds (s.product x.1)) ∧ (x.2.kind = .none → ∀ slot, ¬named s slot x.1))
      ∧ (∀ w, s.withdrawal = some w →
          w.order.index ≤ 63 ∧ ∀ slot < w.position, named s slot w.order.index → w.late = true)
      ∧ ∀ o ∈ s.withdrawalsWaiting, o.index ≤ 63)

/-- The pass slot that a lane holds in a grant or a capture (R69). -/
def LaneState.heldSlot : LaneState → Option Nat
  | .granted g => some g.slot
  | .capturing c => some c.slot
  | _ => none

/-- The law of holding: outside STARTING the marker of a LIVE entry names a lane exactly when that lane holds the pass in a
grant or a capture (R69), and in STARTING the restart scan has cleared the markers it has passed (R195). -/
def holdingLaw (s : State) : Prop :=
  restsInStarting s ∧ fillLaw s
    ∧ (s.station ≠ .starting →
      (∀ (n : Fin 4) (slot : Nat), (s.lane n).state.heldSlot = some slot →
        slot < 6144 ∧ slotStateOf s.mem slot = 1 ∧ (s.pass slot).marker = some n.val)
      ∧ ∀ slot < 6144, slotStateOf s.mem slot = 1 → ∀ v, (s.pass slot).marker = some v →
        ∃ n : Fin 4, v = n.val ∧ (s.lane n).state.heldSlot = some slot)
    ∧ (s.station = .starting → s.startPhase = .scan →
      ∀ slot < 6144, slot < s.startPos → slotStateOf s.mem slot = 1 → (s.pass slot).marker = none)

/-! ### What an event leaves alone -/

/-- A byte address within `len` bytes from `base`. -/
def inField (base len a : Nat) : Prop := base ≤ a ∧ a < base + len

/-- The mirrored bytes of a Lane Block (Table 15). -/
def inLaneMirror (n : Fin 4) (a : Nat) : Prop :=
  inField (laneBlockBase n.val) 26 a ∨ inField (laneBlockBase n.val + 32) 38 a
    ∨ inField (laneBlockBase n.val + 72) 4 a ∨ inField (laneBlockBase n.val + 80) 22 a
    ∨ inField (laneBlockBase n.val + 112) 6 a

/-- The bytes that an append in a state may write: the ring position its write index names, the write index word, the
dropped count word (R206, R208). -/
def inAppend (s : State) (a : Nat) : Prop :=
  inField (journalBase s.journal.writeIndex) 32 a ∨ inField hdrWriteIndex 2 a ∨ inField hdrDropped 2 a

/-- The bytes that `count` appends in a state may write. -/
def inAppends (s : State) (count a : Nat) : Prop :=
  (∃ i < count, inField (journalBase ((s.journal.writeIndex + i) % 1024)) 32 a) ∨ inField hdrWriteIndex 2 a
    ∨ inField hdrDropped 2 a

/-- The state word and the result code of an order slot (R202); its kind byte is not written (log entry 47). -/
def inOrderEnd (k : Fin 32) (a : Nat) : Prop := inField (orderBase k.val) 2 a ∨ inField (orderBase k.val + 3) 1 a

/-- Every byte outside the stored ones reads as before. -/
def keepsBytes (s t : State) (stored : Nat → Prop) : Prop := ∀ a, ¬stored a → t.mem.byteAt a = s.mem.byteAt a

/-- Every other lane is as it was. -/
def keepsOtherLanes (s t : State) (n : Fin 4) : Prop := ∀ m, m ≠ n → t.lane m = s.lane m

/-- What no outcome at a lane touches: its configurations, its sources, its place in its flow ring, its lamps and buzzer as
they are driven. -/
def Lane.setup (l : Lane) :
    LaneConfig × Option LaneConfig × Input × Input × Input × Input × Option Nat × Nat × Lamps × Buzzer :=
  (l.config, l.pendingConfig, l.arm, l.entryBeam, l.exitBeam, l.switch, l.flowPosition, l.flowNumber, l.lamps, l.buzzer)

/-- The lane's configurations, sources, place in its flow ring and driven outputs are as they were. -/
def keepsSetup (s t : State) (n : Fin 4) : Prop := (t.lane n).setup = (s.lane n).setup

/-- Every other port is as it was. -/
def keepsOtherPorts (s t : State) (p : Fin 4) : Prop := ∀ q, q ≠ p → t.port q = s.port q

/-! ### Orders -/

/-- The running sweep visits slot `k` next and takes it, and the slot holds an order of this kind (R202, R203). -/
def carries (s : State) (k : Fin 32) (kind : Nat) : Prop := nextOrder s = some k ∧ orderKind s k = kind

/-- The slot shows the end of its order: the state word and the result code of R204, its kind kept, ORDER_DONE raised
(R202); the sweep goes on behind the slot. -/
def orderEnded (s t : State) (k : Fin 32) (r : Result) : Prop :=
  orderState t k = r.slotState ∧ t.peek (orderBase k.val + 3) 1 = r.code ∧ orderKind t k = orderKind s k
    ∧ t.attn.getLsbD 0 = true ∧ t.sweepNext = slotAfter k

/-- The order ended and nothing else of the state changed but the bytes of `stored`. -/
def onlyOrder (s t : State) (k : Fin 32) (r : Result) (stored : Nat → Prop) : Prop :=
  orderEnded s t k r ∧ t = { s with mem := t.mem, attn := s.attn ||| 1#8, sweepNext := slotAfter k }
    ∧ keepsBytes s t fun a => inOrderEnd k a ∨ stored a

/-! ### Records -/

/-- The journal threshold as R189 takes it from the header: 0 selects 768, and 1,023 is the most. -/
def thresholdOf (s : State) : Nat := if s.peek hdrThreshold 2 = 0 then 768 else min (s.peek hdrThreshold 2) 1023

/-- A fill that one record raises from below the threshold to it (R210). -/
def reachesLevel (s : State) : Prop := s.journal.fill < thresholdOf s ∧ thresholdOf s ≤ s.journal.fill + 1

/-- JOURNAL_LEVEL and JOURNAL_HOLD after an event that raised them where said, and only there (R210). -/
def journalCauses (s t : State) (level hold : Prop) : Prop :=
  (t.attn.getLsbD 1 = true ↔ s.attn.getLsbD 1 = true ∨ level)
    ∧ (t.attn.getLsbD 2 = true ↔ s.attn.getLsbD 2 = true ∨ hold)

/-- The record stands where R208 places it: in the ring when nothing is held and the fill is below 1,023, with the write
index moved on and shown in the header, JOURNAL_LEVEL raised where the fill rises to the threshold; otherwise at the
tail of the hold queue, JOURNAL_HOLD raised where it is the first there (R210). -/
def recordPlaced (s t : State) (r : Record) : Prop :=
  if s.journal.hold = [] ∧ s.journal.fill < 1023 then
    t.mem.readBytes (journalBase s.journal.writeIndex) 32 = r.bytes
      ∧ t.journal.writeIndex = (s.journal.writeIndex + 1) % 1024
      ∧ t.peek hdrWriteIndex 2 = (s.journal.writeIndex + 1) % 1024
      ∧ t.journal.hold = [] ∧ t.journal.dropped = s.journal.dropped ∧ journalCauses s t (reachesLevel s) False
  else
    t.journal.hold = s.journal.hold ++ [r] ∧ t.journal.writeIndex = s.journal.writeIndex
      ∧ t.journal.dropped = s.journal.dropped ∧ journalCauses s t False (s.journal.hold = [])

/-- A pledged record: its pledge used, the record placed (R208). -/
def pledgedRecord (s t : State) (r : Record) : Prop :=
  t.journal.pledges = s.journal.pledges - 1 ∧ t.journal.readIndex = s.journal.readIndex ∧ recordPlaced s t r

/-- An unpledged record: placed when the unpledged room is at least 1, dropped and counted otherwise (R208). -/
def unpledgedRecord (s t : State) (r : Record) : Prop :=
  t.journal.pledges = s.journal.pledges ∧ t.journal.readIndex = s.journal.readIndex
    ∧ if 1 ≤ s.journal.room then recordPlaced s t r
      else t.journal.writeIndex = s.journal.writeIndex ∧ t.journal.hold = s.journal.hold
        ∧ (s.journal.dropped < 65535 →
          t.journal.dropped = s.journal.dropped + 1 ∧ t.peek hdrDropped 2 = s.journal.dropped + 1)
        ∧ (65535 ≤ s.journal.dropped → t.journal.dropped = s.journal.dropped) ∧ journalCauses s t False False

/-- One record asked for: whether a pledge is used for it, and the record. -/
abbrev Asked := Bool × Record

/-- What a run of records asked for leaves: the Journal Writer, the ring positions written, whether JOURNAL_LEVEL and
JOURNAL_HOLD were raised. -/
structure Appended where
  journal : Journal
  written : List (Nat × Record)
  level : Bool
  held : Bool

/-- One more record asked for, under a threshold: placed when a pledge is used for it or the unpledged room is at least 1,
in the ring when nothing is held and the fill is below 1,023, else held; dropped and counted otherwise (R206 to R210). -/
def Appended.ask (threshold : Nat) (x : Appended) (a : Asked) : Appended :=
  let j : Journal := if a.1 then { x.journal with pledges := x.journal.pledges - 1 } else x.journal
  if a.1 ∨ 1 ≤ x.journal.room then
    if j.hold = [] ∧ j.fill < 1023 then
      { x with
        journal := { j with writeIndex := (j.writeIndex + 1) % 1024 }
        written := x.written ++ [(j.writeIndex, a.2)]
        level := x.level || (decide (j.fill < threshold) && decide (threshold ≤ j.fill + 1)) }
    else { x with journal := { j with hold := j.hold ++ [a.2] }, held := x.held || j.hold.isEmpty }
  else { x with journal := { j with dropped := min (j.dropped + 1) (max j.dropped 65535) } }

/-- The records asked for in this order stand where R208 places them, and the Writer and its causes are as they leave them. -/
def recorded (s t : State) (asks : List Asked) : Prop :=
  let x := asks.foldl (Appended.ask (thresholdOf s)) ⟨s.journal, [], false, false⟩
  t.journal = x.journal ∧ (∀ w ∈ x.written, t.mem.readBytes (journalBase w.1) 32 = w.2.bytes)
    ∧ (x.written ≠ [] → t.peek hdrWriteIndex 2 = x.journal.writeIndex)
    ∧ (x.journal.dropped ≠ s.journal.dropped → t.peek hdrDropped 2 = x.journal.dropped)
    ∧ journalCauses s t (x.level = true) (x.held = true)

/-- Attention after an event that raises `bits` of its own: those, and at most the two journal causes beside them. -/
def attnRaised (s t : State) (bits : BitVec 8) : Prop :=
  ∃ j, j &&& 0xF9#8 = 0 ∧ t.attn = s.attn ||| bits ||| j

/-! ### Readers, cues and counts -/

/-- A port after a SHOW request as R55 takes it: sent at once by an idle transmitter, pending behind a frame in progress. -/
def Port.asked (x : Port) (v : Show) : Port :=
  if x.sending = none then { x with sending := some v } else { x with pendingShow := some v }

/-- A SHOW request taken at a port. -/
def showAsked (s t : State) (p : Fin 4) (x : Show) : Prop := t.port p = (s.port p).asked x

/-- The cue and levels are those the lane has after an outcome is handed to it (R174). -/
def cueHanded (s t : State) (n : Fin 4) (o : CueOutcome) : Prop :=
  (t.lane n).cue = ((handOutcome n o s).lane n).cue ∧ (t.lane n).levels = ((handOutcome n o s).lane n).levels

/-- The cue and levels are those the lane has after these outcomes are handed to it in turn (R174, R179). -/
def cuesHanded (s t : State) (n : Fin 4) (l : List CueOutcome) : Prop :=
  (t.lane n).cue = ((l.foldl (fun u o => handOutcome n o u) s).lane n).cue
    ∧ (t.lane n).levels = ((l.foldl (fun u o => handOutcome n o u) s).lane n).levels

/-- The cue and levels are as they were. -/
def cueKept (s t : State) (n : Fin 4) : Prop :=
  (t.lane n).cue = (s.lane n).cue ∧ (t.lane n).levels = (s.lane n).levels

/-- One outcome added to the lane's current window, and to nothing where it has none (R114). -/
def countedOnce (s t : State) (n : Fin 4) (k : CountKind) : Prop :=
  (t.lane n).window = (s.lane n).window.map fun w => { w with counts := w.counts.add k }

/-! ### Sensing and cues -/

/-- One source sampled at a tick (R86): a level that equals the debounced level returns the hold count to 0, another
raises it by 1. NONE stays inactive, and an edge that waits for its command stands still (log entry 6). -/
def inputSampled (sense : BitVec 16) (i : Input) : Input :=
  match i.source with
  | none => i
  | some src =>
    let active := if src.polarity = .activeHigh then sense.getLsbD src.pin.val else !sense.getLsbD src.pin.val
    if src.debounce ≤ i.hold then i else { i with hold := if active = i.level then 0 else i.hold + 1 }

/-- The arm sampled at a tick: its release has no effect and is taken at once (R86, log entry 6). -/
def armSampled (sense : BitVec 16) (i : Input) : Input :=
  let j := inputSampled sense i
  match i.source with
  | none => i
  | some src => if i.level = true ∧ src.debounce ≤ j.hold then { i with level := false, hold := 0 } else j

/-- The levels after a cue entry other than END is applied (R173, R177). -/
def CueEntry.applied (e : CueEntry) (lv : Levels) : Levels :=
  { green := if e.target = .green then e.value else lv.green
    red := if e.target = .red then e.value else lv.red
    amber := if e.target = .amber then e.value else lv.amber
    buzzer := if e.target = .buzzer then e.value else lv.buzzer }

/-! ### Grants and referrals that a change of the lane ends (R73, R82) -/

/-- The record asked for: VOID with the cause for a grant, DENY with the reason for a referral, none for another state. -/
def displacedAsk (s : State) (cause : VoidCause) (reason : DenyReason) (ending : ReferralEnd) (n : Fin 4) : Option Asked :=
  match (s.lane n).state with
  | .granted g => some (true, ⟨some n, s.day, s.ms, g.uid, some g.slot, .void cause⟩)
  | .referred r => some (false, ⟨some n, s.day, s.ms, r.uid, none, .deny reason ending⟩)
  | _ => none

/-- The cue started: VOID for a grant, DENY for a referral. -/
def LaneState.displacedCue : LaneState → List CueOutcome
  | .granted _ => [.void]
  | .referred _ => [.deny]
  | _ => []

/-- The current window with the VOID or DENIED counted. -/
def Lane.displacedWindow (l : Lane) : Option Window :=
  match l.state with
  | .granted _ => l.window.map fun w => { w with counts := w.counts.add .void }
  | .referred _ => l.window.map fun w => { w with counts := w.counts.add .denied }
  | _ => l.window

/-- No two REFERRED lanes answer at one port. -/
def referralPortsDistinct (s : State) : Prop :=
  ∀ n m r q, n ≠ m → (s.lane n).state = .referred r → (s.lane m).state = .referred q → r.port ≠ q.port

/-- The port of every referral of these lanes is asked for SHOW with the reason, and `x` is each port after that. -/
def referralsAnswered (s : State) (lanes : Fin 4 → Prop) (reason : DenyReason) (x : Fin 4 → Port) : Prop :=
  (∀ n r, lanes n → (s.lane n).state = .referred r → x r.port = (s.port r.port).asked ⟨.deny reason, 0⟩)
    ∧ ∀ p, (∀ n r, lanes n → (s.lane n).state = .referred r → r.port ≠ p) → x p = s.port p

/-- The markers of the grants of these lanes are NONE. -/
def grantsReleased (s t : State) (lanes : Fin 4 → Prop) : Prop :=
  ∀ n g, lanes n → (s.lane n).state = .granted g → t.peek (passBase g.slot + 31) 1 = 0xFF

/-- The marker byte of a grant. -/
def inGrantMarker (s : State) (a : Nat) : Prop := ∃ n g, (s.lane n).state = .granted g ∧ a = passBase g.slot + 31

/-! ### What befalls lanes and ports in several events -/

/-- A current window marked PARTIAL (R121). -/
def markedPartial (w : Option Window) : Option Window := w.map fun w => { w with isPartial := true }

/-- Each port entered or left service as the event had it, and is otherwise as `x` has it (R57). -/
def serviceChanged (s t : State) (x : Fin 4 → Port) : Prop :=
  ∀ q, t.port q =
    if inService s q = false ∧ inService t q = true then
      { x q with silence := some 0, silent := false, rfFault := false, repeatRec := none }
    else if inService s q = true ∧ inService t q = false then
      { x q with silence := none, silent := false, rfFault := false, repeatRec := none }
    else x q

/-- A configuration applied at a lane (R92): in force, the trackers cleared, DOWN, FREE or ARMING by the role and the
free-flow flag, a DOWN lane with its cue stopped and its levels 0, another with these cues handed, the window PARTIAL. -/
def configApplied (s t : State) (n : Fin 4) (c : LaneConfig) (cues : List CueOutcome) (w : Option Window) : Prop :=
  (t.lane n).config = c ∧ (t.lane n).pendingConfig = none ∧ (t.lane n).latestEntry = none
    ∧ (t.lane n).stuckEntry = 0 ∧ (t.lane n).stuckExit = 0 ∧ (t.lane n).stuckSwitch = 0
    ∧ (t.lane n).state = (if c.role = .down then .down
        else if c.role = .entry ∧ s.freeFlow = true then .free else .arming 0)
    ∧ (c.role = .down → (t.lane n).cue = none ∧ (t.lane n).levels = ⟨0, 0, 0, 0⟩)
    ∧ (c.role ≠ .down → cuesHanded s t n cues) ∧ (t.lane n).window = markedPartial w
    ∧ (t.lane n).arm = (s.lane n).arm ∧ (t.lane n).entryBeam = (s.lane n).entryBeam
    ∧ (t.lane n).exitBeam = (s.lane n).exitBeam ∧ (t.lane n).flowPosition = (s.lane n).flowPosition
    ∧ (t.lane n).flowNumber = (s.lane n).flowNumber ∧ (t.lane n).lamps = (s.lane n).lamps
    ∧ (t.lane n).buzzer = (s.lane n).buzzer

/-- The LANE record of an application: the lane's new state, fault cause NONE, and the reader bits of its port as the event
leaves it (R92, log entry 19). -/
def applicationRecord (s t : State) (n : Fin 4) (c : LaneConfig) : Record :=
  let p := t.port c.port
  ⟨some n, s.day, s.ms, [], none, .lane (t.lane n).state.code 0 false false p.readerLost p.silent p.rfFault⟩

/-- The record of the completion of quieting (R111). -/
def quietRecord (s : State) : Record := ⟨none, s.day, s.ms, [], none, .station .quiet s.online false 0 0⟩

/-- Quieting completed (R57, R111, R120, R180): the station is QUIET; pending configurations are in force; every lane is
DOWN with its trackers cleared, its cue stopped and its levels 0; each current window `w n` is closed PARTIAL into its
ring; the ports, as `x` has them, are out of service. -/
def quietCompleted (s t : State) (w : Fin 4 → Option Window) (x : Fin 4 → Port) : Prop :=
  t.station = .quiet ∧ t.peek hdrState 2 = stateMirror t
    ∧ (∀ n, (t.lane n).state = .down ∧ (t.lane n).config = (s.lane n).pendingConfig.getD (s.lane n).config
        ∧ (t.lane n).pendingConfig = none ∧ (t.lane n).window = none ∧ (t.lane n).latestEntry = none
        ∧ (t.lane n).cue = none ∧ (t.lane n).levels = ⟨0, 0, 0, 0⟩ ∧ lockReleased t n = t.evacuate
        ∧ (t.lane n).stuckEntry = 0 ∧ (t.lane n).stuckExit = 0 ∧ (t.lane n).stuckSwitch = 0)
    ∧ (∀ n v, w n = some v →
        t.mem.readBytes (flowBase n.val (nextFlowPosition (s.lane n).flowPosition)) 32 =
          le 2 (nextFlowNumber (s.lane n).flowNumber) ++ le 2 v.day ++ le 2 v.index
            ++ le 2 (v.index * s.options.windowLength)
            ++ le 1 ((s.ms + 59999) / 60000 - v.index * s.options.windowLength)
            ++ le 1 (windowFlags { v with isPartial := true }) ++ v.counts.bytes ++ List.replicate 6 0
        ∧ t.peek (hdrFlow n.val) 2 = nextFlowPosition (s.lane n).flowPosition)
    ∧ ∀ p, t.port p =
        if inService s p then { x p with silence := none, silent := false, rfFault := false, repeatRec := none }
        else x p

/-- The bytes that the completion of quieting writes beside the records: the state mirror, the Lane Blocks, the flow
records and their indices. -/
def inQuieting (s : State) (a : Nat) : Prop :=
  inField hdrState 2 a ∨ inField (hdrFlow 0) 8 a
    ∨ ∃ n : Fin 4, inLaneMirror n a ∨ inField (flowBase n.val (nextFlowPosition (s.lane n).flowPosition)) 32 a

/-- The lanes that the start of free flow moves: ENTRY lanes that are neither DOWN nor FREE (R105). -/
def freesLane (s : State) (n : Fin 4) : Prop :=
  (s.lane n).config.role = .entry ∧ (s.lane n).state ≠ .down ∧ (s.lane n).state ≠ .free

/-- The records of the start of free flow: the STATION record, then each lane's VOID or DENY (R105). -/
def freeFlowAsks (s : State) (byEvacuate : Bool) : List Asked :=
  (false, ⟨none, s.day, s.ms, [], none, .station .freeFlowOn s.online byEvacuate 0 0⟩)
    :: allFour.filterMap fun n =>
      if (s.lane n).config.role = .entry then displacedAsk s .freeFlow .freeFlow .freeFlow n else none

/-- The start of free flow at the lanes (R73, R82, R105): each lane moved is FREE with its lock released, its grant voided or
its referral denied FREE_FLOW first, a PARTIAL mark and the FREE cue; every other lane keeps all but its lock pulse. -/
def lanesFreed (s t : State) : Prop :=
  (∀ n, ¬freesLane s n → t.lane n = { s.lane n with lockPulse := (t.lane n).lockPulse })
    ∧ (∀ n, freesLane s n →
        (t.lane n).state = .free ∧ lockReleased t n = true ∧ keepsSetup s t n
          ∧ (t.lane n).window = markedPartial (s.lane n).displacedWindow
          ∧ cuesHanded s t n ((s.lane n).state.displacedCue ++ [.free]) ∧ (t.lane n).latestEntry = (s.lane n).latestEntry
          ∧ (t.lane n).stuckEntry = 0 ∧ (t.lane n).stuckExit = 0 ∧ (t.lane n).stuckSwitch = 0)
    ∧ grantsReleased s t (freesLane s) ∧ referralsAnswered s (freesLane s) .freeFlow t.port

/-- The start of free flow does not let quieting complete: the station is not QUIETING, or some lane that is CAPTURING or
PASSING is not moved (R105, R111). -/
def quietingGoesOn (s : State) : Prop :=
  s.station = .quieting → ∃ n, (s.lane n).state.isBusy = true ∧ ¬freesLane s n

/-- The SET_LANE that waited for a PASSING lane which the event makes FREE (R91, R105): the order ends OK with its
configuration pending, or PORT_TAKEN where another lane's configuration clashes. -/
def waitingPended (s t : State) (o : LaneOrder) : Prop :=
  let clash := ∃ m, m ≠ o.lane ∧ ∃ d ∈ (s.lane m).configs, portsClash o.config d
  t.lanesWaiting = s.lanesWaiting.filter (fun x => x.lane ≠ o.lane)
    ∧ (¬clash → (t.lane o.lane).pendingConfig = some o.config ∧ orderState t o.slot = 3
        ∧ t.peek (orderBase o.slot.val + 3) 1 = 0)
    ∧ (clash → (t.lane o.lane).pendingConfig = (s.lane o.lane).pendingConfig ∧ orderState t o.slot = 4
        ∧ t.peek (orderBase o.slot.val + 3) 1 = 14)

/-- The pending configurations of FREE lanes. -/
def freePending (s : State) (n : Fin 4) : Option LaneConfig :=
  if (s.lane n).state = .free then (s.lane n).pendingConfig else none

/-- The records of the end of free flow: the LANE record of each pending configuration applied, then the STATION record
(R92, R107). -/
def freeFlowOffAsks (s t : State) : List Asked :=
  (allFour.filterMap fun n => (freePending s n).map fun c => (false, applicationRecord s t n c))
    ++ [(false, ⟨none, s.day, s.ms, [], none, .station .freeFlowOff s.online false 0 0⟩)]

/-- A lane's lock pulse after an event that released every lock: begun where the lock was engaged and the drive is PULSE
(R185). -/
def pulseReleased (s : State) (n : Fin 4) : Option Nat :=
  if lockReleased s n then (s.lane n).lockPulse
  else match (s.lane n).config.drive with
    | .pulse width => some (s.now + width)
    | .level => none

/-! ### The end of a reset (R194, R195) -/

/-- The Lane Blocks show the lanes and ports as they stand, but for the current-window fields (R194, R195 step 4). -/
def laneBlocksWritten (t : State) : Prop :=
  ∀ n : Fin 4, t.mem.readBytes (laneBlockBase n.val) 26 = laneBytes (t.lane n)
    ∧ t.mem.readBytes (laneBlockBase n.val + 32) 14 = heldBytes (t.lane n)
    ∧ t.mem.readBytes (laneBlockBase n.val + 46) 24 = figureBytes (t.lane n)
    ∧ t.mem.readBytes (laneBlockBase n.val + 72) 4 = portBytes (t.port n)
    ∧ t.mem.readBytes (laneBlockBase n.val + 112) 6 = cueBytes (t.lane n)

/-- What the end of a reset asks for with EVACUATE high: the STATION record of the free flow it starts (R105, R108). -/
def evacuateAsks (s t : State) : List Asked :=
  if s.evacuatePin = true ∧ s.freeFlow = false then
    [(false, ⟨none, t.day, t.ms, [], none, .station .freeFlowOn s.online true 0 0⟩)]
  else []

/-! ### The probe (R5 to R7) -/

/-- The home slot: the bytes as digits in base 33, the first the highest, modulo 6,144 (R5). -/
def homeOf : List Byte → Nat
  | [] => 0
  | b :: bs => (b.toNat * 33 ^ bs.length + homeOf bs) % 6144

/-- The slot probed at place `i`, wrapping behind slot 6,143 (R6). -/
def probed (uid : List Byte) (i : Nat) : Nat := (homeOf uid + i) % 6144

/-- The slot an insert of a card not in the table takes: the first of the sixteen probed that is TOMB or FREE, or holds a
slot state above 2 (R7, log entry 16). -/
def firstVacant (s : State) (uid : List Byte) (slot : Nat) : Prop :=
  ∃ i < 16, slot = probed uid i ∧ slotStateOf s.mem slot ≠ 1 ∧ ∀ j < i, slotStateOf s.mem (probed uid j) = 1

/-! ### The checks of admission (R61 to R64) -/

/-- The first failing check of a list decides (R61). -/
def firstFailure (l : List (Bool × DenyReason)) : Option DenyReason := (l.find? fun x => !x.1).map (·.2)

/-- Checks 5 to 14 of R61 on an entry, under its product. -/
def entryChecks (s : State) (e : PassEntry) (p : Product) (stamp : Nat) : List (Bool × DenyReason) :=
  [ (stamp = e.stamp, .staleCard), (!e.blocked, .blocked), (!e.retired, .retired), (!e.exhausted, .exhausted)
  , (e.marker = none, .inUse), (p.mask.testBit s.liftNumber, .wrongLift)
  , (match e.firstDay with | some f => f ≤ s.day | none => true, .notYet)
  , (match e.firstDay with | some f => s.day < f + p.span | none => s.day < e.issueDay + p.activation, .expired)
  , (p.openMinute ≤ s.ms / 60000 && s.ms / 60000 < p.closeMinute, .hours)
  , (!(e.lastDay = some s.day && (match e.lastMinute with | some m => s.ms / 60000 < m + p.passback | none => false)),
      .passback)
  , (!(p.kind = .days) || e.lastDay = some s.day || e.usage % 256 < p.daysBought, .noDays) ]

/-- The deny reason of a tap at a READY entry lane, none where it is granted or referred (R61). -/
def tapReason (s : State) (q : TapRecord) : Option DenyReason :=
  firstFailure
    ([(decide (5 ≤ s.journal.room), DenyReason.journalFull), (decide (s.liftNumber ≠ 31), .stationUnset)
      , (decide (q.quality ≠ 0), .reread)]
     ++ match lookup s.mem q.uid with
        | some slot => entryChecks s (s.pass slot) (s.product (s.pass slot).product) q.stamp
        | none => [(s.online, .unknown)])

/-! ### Refunds (R152 to R154) -/

/-- The refund of a gross amount: scaled by φ, less the fee, rounded down to a multiple of r. -/
def refundOf (gross phi fee r : Nat) : Nat :=
  let scaled := gross * phi / 1000
  let net := if fee < scaled then scaled - fee else 0
  net / r * r

end Sys2Proof.Machine
end

