-- ==== Sys2Proof/Certificates/Slice0/Obligations.lean ====
section
/-! DEFINITION. The statements for the provers. Each says in its docstring which rules it formalises. -/

open Sys2Proof Sys2Proof.Machine

/-! ### The step and the resets -/

/-- One step runs the command at the front of the queue on the state with the rest of the queue, and idles on an empty
queue (the block's convention, log entries 1 and 3). -/
def Obligations.StepRunsFrontCommand : Prop :=
  (∀ (s : State) (c : Instr) (rest : List Instr),
      step { s with pending := c :: rest } = exec c { s with pending := rest })
    ∧ ∀ s : State, s.pending = [] → step s = .next s

/-- What a power-on reset leaves in every block (R27, R42, R58, R86, R88, R93, R113, R126, R176, R180, R191, R211). RUN
reads 0 in bits 0 to 2 and 4 to 5 (R193); its bit 3 reads 0 since State.reset is the reset with the EVACUATE pin low, the
model's choice (log entry 29).
Bits that a table gives no meaning are 0 by the model's choice (log entry 54). -/
def Obligations.ResetLeavesStatedValues : Prop :=
  State.reset.station = .starting ∧ readRegister State.reset .run = 0 ∧ State.reset.attn = 0 ∧ State.reset.attnMask = 0
    ∧ State.reset.timeSet = false ∧ State.reset.day = 0 ∧ State.reset.ms = 0 ∧ State.reset.dividerTaken = 24000
    ∧ State.reset.options = ⟨24000, 4, 10, 800, 5000, 15⟩ ∧ State.reset.freeFlow = false ∧ State.reset.tapQueue = []
    ∧ State.reset.journal = ⟨0, 0, [], 0, 0⟩
    ∧ (∀ n, (State.reset.lane n).state = .down ∧ (State.reset.lane n).pendingConfig = none
        ∧ (State.reset.lane n).config = ⟨.down, 6000, 20000, .level, n, List.replicate 13 none⟩
        ∧ (State.reset.lane n).cue = none ∧ (State.reset.lane n).levels = ⟨0, 0, 0, 0⟩
        ∧ (State.reset.lane n).window = none ∧ (State.reset.lane n).flowPosition = none
        ∧ (State.reset.lane n).flowNumber = 0 ∧ (State.reset.lane n).arm = ⟨none, false, 0⟩
        ∧ (State.reset.lane n).entryBeam = ⟨none, false, 0⟩ ∧ (State.reset.lane n).exitBeam = ⟨none, false, 0⟩
        ∧ (State.reset.lane n).switch = ⟨none, false, 0⟩)
    ∧ ∀ p, (State.reset.port p).parser = .hunt ∧ (State.reset.port p).badFrames = 0
        ∧ (State.reset.port p).repeatRec = none ∧ (State.reset.port p).silence = none
        ∧ (State.reset.port p).readerLost = false ∧ (State.reset.port p).sending = none
        ∧ (State.reset.port p).pendingShow = none

/-- POWER_ON_RESET puts every block in its power-on state and begins the fill (R194); memory stands until the fill
reaches it (log entry 11). PIN_RESET during a fill begins the fill again (R194); otherwise it begins the restart scan:
every block as its rule gives, the Journal Writer by R211, the Input Map from its mirror (R85, R112, R195), and memory
keeps all but mirrors. Every other field is as State.reset has it, which is the model's choice where the spec gives no
reset value (log entry 12), and so are the map and the read index taken at PIN_RESET itself (log entry 9) and the
forgotten sample of EVACUATE beside the level the pin gives (log entry 29). The queue of commands and the free-value
counter are the model's (log entry 36). -/
def Obligations.ResetsBeginFillOrScan : Prop :=
  ∀ s : State, s.mem.wf →
    (∀ c, c = .powerOnReset ∨ (c = .pinReset ∧ s.station = .starting ∧ s.startPhase = .fill) →
      exec c s = .next { State.reset with
        mem := s.mem, evacuatePin := s.evacuatePin, pending := s.pending, freeCount := s.freeCount })
    ∧ (¬(s.station = .starting ∧ s.startPhase = .fill) →
      ∃ t, exec .pinReset s = .next t
        ∧ t = { State.reset with
                  mem := t.mem, lanes := t.lanes, evacuatePin := s.evacuatePin, pending := s.pending
                  freeCount := s.freeCount, startPhase := .scan
                  journal :=
                    ⟨s.journal.writeIndex, s.peek hdrReadIndex 2 % 1024, [], 0,
                      if s.station = .starting then s.journal.dropped else s.journal.hold.length⟩ }
        ∧ (∀ n, t.lane n = { Lane.atReset n with
                               arm := (t.lane n).arm, entryBeam := (t.lane n).entryBeam
                               exitBeam := (t.lane n).exitBeam, switch := (t.lane n).switch })
        ∧ keepsBytes s t (fun a => inField hdrState 2 a ∨ (∃ n, inLaneMirror n a)
            ∨ (mapInMirror s.mem = none ∧ inField inputMapBase 128 a))
        ∧ (∀ l, mapInMirror s.mem = some l → ∀ n : Fin 4,
            (t.lane n).arm = ⟨sourceOf l n 0, false, 0⟩ ∧ (t.lane n).entryBeam = ⟨sourceOf l n 1, false, 0⟩
              ∧ (t.lane n).exitBeam = ⟨sourceOf l n 2, false, 0⟩ ∧ (t.lane n).switch = ⟨sourceOf l n 3, false, 0⟩)
        ∧ (mapInMirror s.mem = none →
            (∀ n, (t.lane n).arm = ⟨none, false, 0⟩ ∧ (t.lane n).entryBeam = ⟨none, false, 0⟩
              ∧ (t.lane n).exitBeam = ⟨none, false, 0⟩ ∧ (t.lane n).switch = ⟨none, false, 0⟩)
              ∧ ∀ i < 16, t.peek (inputMapBase + 2 * i) 1 = 0xFF ∧ t.peek (inputMapBase + 2 * i + 1) 1 = 0))

/-- FILL_DONE ends the power-on fill: every byte of the filled region not yet passed reads 0 but for the fields R194
names, the host scratch stands, the Lane Blocks show the lanes and ports, the lift number follows the straps (R199), the
station is QUIET. With the EVACUATE pin high the moment counts as an asserting edge: EVACUATE is raised, every lock is
released, and free flow starts with its STATION record; the lanes, DOWN, stand (R105, R108). The capture figures of a
lane that is not CAPTURING read 0 by R194 here.
By the model's choice the words of the Lane Blocks that hold no field stand, a byte of no field beside one is 0 (log
entry 51), and the bytes of a journal record and of a Lane Block UID without content are 0 (log entry 52).
Bits that a table gives no meaning are 0 by the model's choice (log entry 54). -/
def Obligations.FillDoneEntersQuiet : Prop :=
  ∀ (s : State) (straps : BitVec 6), s.mem.wf → s.station = .starting → s.startPhase = .fill →
    ∃ t, exec (.fillDone straps) s = .next t ∧ t.station = .quiet ∧ t.sweepTimer = 0
      ∧ t.liftNumber = (if ((List.range 6).countP straps.getLsbD) % 2 = 1 then straps.toNat % 32 else 31)
      ∧ (s.evacuatePin = true → t.attn.getLsbD 7 = true ∧ t.freeFlow = true ∧ t.evacuate = true
          ∧ ∀ n, lockReleased t n = true)
      ∧ ((s.evacuatePin = true → s.ok ∧ ∀ n, (s.lane n).state = .down) →
          t = { s with
                  mem := t.mem, attn := t.attn, lanes := t.lanes, journal := t.journal, station := .quiet
                  sweepTimer := 0, startPos := 0, liftNumber := t.liftNumber
                  freeFlow := s.freeFlow || s.evacuatePin, evacuate := s.evacuate || s.evacuatePin }
          ∧ attnRaised s t (if s.evacuatePin then 0x80 else 0)
          ∧ (∀ n, t.lane n = { s.lane n with
                lockPulse := if s.evacuatePin then pulseReleased s n else (s.lane n).lockPulse })
          ∧ recorded { s with mem := t.mem } t (evacuateAsks s t)
          ∧ t.peek hdrLayoutVersion 2 = 1 ∧ t.peek hdrStartCause 2 = 1 ∧ t.peek hdrLift 2 = t.liftNumber
          ∧ t.peek hdrState 2 = stateMirror t ∧ t.mem.readBytes hdrTaken 12 = s.options.bytes
          ∧ t.peek hdrMs 4 = 0 ∧ t.peek hdrDay 2 = 0
          ∧ (t.journal.writeIndex = s.journal.writeIndex → t.peek hdrWriteIndex 2 = 0)
          ∧ (t.journal.dropped = s.journal.dropped → t.peek hdrDropped 2 = 0)
          ∧ (∀ n < 4, t.peek (hdrFlow n) 2 = 0xFFFF)
          ∧ (∀ (n : Fin 4) (a : Nat), inField (laneBlockBase n.val + 80) 22 a → t.mem.byteAt a = 0)
          ∧ (∀ i < 16, t.peek (inputMapBase + 2 * i) 1 = 0xFF ∧ t.peek (inputMapBase + 2 * i + 1) 1 = 0)
          ∧ (∀ a, inField (inputMapBase + 32) 96 a → t.mem.byteAt a = 0)
          ∧ laneBlocksWritten t
          ∧ ∀ a, ¬(a < 38 ∨ inField inputMapBase 128 a ∨ (∃ n, inLaneMirror n a)
                ∨ (s.evacuatePin = true ∧ inAppend s a)) →
              t.mem.byteAt a = if 2 * s.startPos ≤ a ∧ a < 0x3E200 then 0 else s.mem.byteAt a)

/-- RESTART_SCAN_DONE: of what the scan has not yet visited, slot `startPos` on, every LIVE marker is NONE and every TAKEN
order FAILED with RESET and ORDER_DONE; how far host writes found the scan is free (log entry 9). The dropped count, the
header and the Lane Blocks are written, station time taken from its mirror or day 0, the flow positions from the header
and ring, the station QUIET (R31, R126, R195, R199). The capture figures of a lane that is not CAPTURING are written 0
(log entry 46). With the EVACUATE pin high the moment counts as an asserting edge: EVACUATE is raised, every lock is
released, and free flow starts with its STATION record; the lanes, DOWN, stand (R105, R108).
By the model's choice the words of the Lane Blocks that hold no field stand, a byte of no field beside one is 0 (log
entry 51), and the bytes of a journal record and of a Lane Block UID without content are 0 (log entry 52).
Bits that a table gives no meaning are 0 by the model's choice (log entry 54). -/
def Obligations.RestartScanEntersQuiet : Prop :=
  ∀ (s : State) (straps : BitVec 6), s.mem.wf → s.station = .starting → s.startPhase = .scan →
    (s.evacuatePin = true → s.ok ∧ ∀ n, (s.lane n).state = .down) →
    ∃ t, exec (.restartScanDone straps) s = .next t
      ∧ t = { s with
                mem := t.mem, attn := t.attn, lanes := t.lanes, journal := t.journal, station := .quiet
                sweepTimer := 0, startPos := 0
                liftNumber := if ((List.range 6).countP straps.getLsbD) % 2 = 1 then straps.toNat % 32 else 31
                day := t.day, ms := t.ms
                freeFlow := s.freeFlow || s.evacuatePin, evacuate := s.evacuate || s.evacuatePin }
      ∧ (∀ slot < 6144, s.startPos ≤ slot → slotStateOf s.mem slot = 1 → t.peek (passBase slot + 31) 1 = 0xFF)
      ∧ (∀ k : Fin 32, s.startPos ≤ 6144 + k.val → orderState s k = 2 →
          orderState t k = 4 ∧ t.peek (orderBase k.val + 3) 1 = 23 ∧ t.attn.getLsbD 0 = true)
      ∧ attnRaised s t ((if ∃ k : Fin 32, s.startPos ≤ 6144 + k.val ∧ orderState s k = 2 then 1 else 0)
          ||| (if s.evacuatePin then 0x80 else 0))
      ∧ recorded s t (evacuateAsks s t)
      ∧ (s.evacuatePin = true → ∀ n, lockReleased t n = true)
      ∧ laneBlocksWritten t
      ∧ t.peek hdrLayoutVersion 2 = 1 ∧ t.peek hdrStartCause 2 = 2 ∧ t.peek hdrLift 2 = t.liftNumber
      ∧ t.peek hdrState 2 = stateMirror t ∧ t.peek hdrDropped 2 = t.journal.dropped % 65536
      ∧ t.mem.readBytes hdrTaken 12 = s.options.bytes
      ∧ (s.peek hdrDay 2 ≠ 65535 ∧ s.peek hdrMs 4 < 86400000 → t.day = s.peek hdrDay 2 ∧ t.ms = s.peek hdrMs 4)
      ∧ (¬(s.peek hdrDay 2 ≠ 65535 ∧ s.peek hdrMs 4 < 86400000) →
          t.day = 0 ∧ t.ms = 0 ∧ t.peek hdrDay 2 = 0 ∧ t.peek hdrMs 4 = 0)
      ∧ (∀ n : Fin 4,
          let p := s.peek (hdrFlow n.val) 2
          t.lane n = { s.lane n with
            lockPulse := if s.evacuatePin then pulseReleased s n else (s.lane n).lockPulse
            flowPosition := if p ≤ 63 then some p else (s.lane n).flowPosition
            flowNumber := if p ≤ 63 then s.peek (flowBase n.val p) 2 else (s.lane n).flowNumber })
      ∧ (∀ n : Fin 4, 63 < s.peek (hdrFlow n.val) 2 → t.peek (hdrFlow n.val) 2 = 0xFFFF)
      ∧ (∀ (n : Fin 4) (a : Nat), inField (laneBlockBase n.val + 80) 22 a → t.mem.byteAt a = s.mem.byteAt a)
      ∧ keepsBytes s t (fun a =>
          (∃ slot < 6144, s.startPos ≤ slot ∧ slotStateOf s.mem slot = 1 ∧ a = passBase slot + 31)
          ∨ (∃ k : Fin 32, s.startPos ≤ 6144 + k.val ∧ orderState s k = 2 ∧ inOrderEnd k a)
          ∨ (s.evacuatePin = true ∧ inAppend s a)
          ∨ a < 8 ∨ inField hdrDropped 2 a ∨ inField hdrTaken 12 a
          ∨ (¬(s.peek hdrDay 2 ≠ 65535 ∧ s.peek hdrMs 4 < 86400000) ∧ inField hdrMs 6 a)
          ∨ (∃ n : Fin 4, 63 < s.peek (hdrFlow n.val) 2 ∧ inField (hdrFlow n.val) 2 a)
          ∨ ∃ n, inLaneMirror n a)

/-! ### Time -/

/-- TICK: one tick of the count of ticks, of station time while it counts, of the sweep timer outside STARTING, of the
presence sample while RUNNING; memory keeps all but the time mirror, which follows at whole seconds (R25, R29, R32, R198,
R202). At most one sweep is owed: the model's choice (log entry 40). The end of a day is marked for its rollover, the
milliseconds standing (log entry 5). At each lane the settle timer, the window count and the stuck timers count on the
levels as they stood, and nothing else of its state changes (R71, R94, R95, R103); each source is sampled, an edge that
waits for its command standing still, the arm's release taken at once (R86, log entry 6); the gap and silence timers of a
port count (R46, R53). The lamps and buzzers go through the tick's CLK_IN cycles: a new duty, and the divider a RUN has
taken, take effect where a carrier period ends, a new tone where a half-cycle does (R182, R183, log entry 20). -/
def Obligations.TickCountsTime : Prop :=
  ∀ (s : State) (sense : BitVec 16), timeLaw s → s.mem.wf →
    ∃ t, exec (.tick sense) s = .next t
      ∧ t = { s with
                now := s.now + 1, divider := s.dividerTaken
                ms := if s.timeSet ∧ s.ms + 1 < 86400000 then s.ms + 1 else s.ms
                dayEnd := s.dayEnd || (s.timeSet && s.ms = 86399999 && decide (s.day < 65534))
                sweepTimer :=
                  if s.station = .starting then s.sweepTimer
                  else if s.options.sweepPeriod ≤ s.sweepTimer + 1 then 0 else s.sweepTimer + 1
                sweepDue :=
                  s.sweepDue || (s.station ≠ .starting && decide (s.options.sweepPeriod ≤ s.sweepTimer + 1))
                presenceTimer :=
                  if s.station ≠ .running then s.presenceTimer
                  else if 1000 ≤ s.presenceTimer + 1 then 0 else s.presenceTimer + 1
                presenceDue := s.presenceDue || (s.station = .running && decide (1000 ≤ s.presenceTimer + 1))
                carrier := t.carrier, lanes := t.lanes, ports := t.ports, mem := t.mem }
      ∧ (if s.timeSet ∧ s.ms + 1 < 86400000 ∧ (s.ms + 1) % 1000 = 0 then
          t.peek hdrMs 4 = s.ms + 1 ∧ t.peek hdrDay 2 = s.day ∧ keepsBytes s t (inField hdrMs 6)
        else t.mem = s.mem)
      ∧ (∀ n : Fin 4,
        let l := s.lane n
        let clear :=
          (l.config.role = .entry ∧ l.entryBeam.level = false ∧ l.exitBeam.level = false)
            ∨ (l.config.role = .ret ∧ l.switch.level = false)
        let watched := fun role => l.config.role = role ∧ (l.state.code = 1 ∨ l.state.code = 2)
        t.lane n = { l with
          state := match l.state with
            | .arming c => .arming (if clear then c + 1 else c)
            | .granted g => .granted
                { g with windowCount := if l.entryBeam.level then g.windowCount else g.windowCount + 1 }
            | st => st
          stuckEntry := if watched .entry ∧ l.entryBeam.level then l.stuckEntry + 1 else l.stuckEntry
          stuckExit := if watched .entry ∧ l.exitBeam.level then l.stuckExit + 1 else l.stuckExit
          stuckSwitch := if watched .ret ∧ l.switch.level then l.stuckSwitch + 1 else l.stuckSwitch
          arm := armSampled sense l.arm, entryBeam := inputSampled sense l.entryBeam
          exitBeam := inputSampled sense l.exitBeam, switch := inputSampled sense l.switch
          lamps := (t.lane n).lamps, buzzer := (t.lane n).buzzer })
      ∧ (∀ p : Fin 4, t.port p = { s.port p with
          gap := if (s.port p).parser = .hunt then 0 else (s.port p).gap + 1
          silence := (s.port p).silence.map fun c => if c < 3000 then c + 1 else c })
      ∧ (let left := s.carrier.divider / 2 - s.carrier.elapsed
        (s.divider < left → t.carrier = ⟨s.carrier.divider, s.carrier.elapsed + s.divider⟩
          ∧ ∀ n, (t.lane n).lamps = (s.lane n).lamps)
        ∧ (left ≤ s.divider → t.carrier = ⟨s.dividerTaken, (s.divider - left) % (s.dividerTaken / 2)⟩
          ∧ ∀ n, (t.lane n).lamps = ⟨(s.lane n).levels.green, (s.lane n).levels.red, (s.lane n).levels.amber⟩)
        ∧ ∀ (n : Fin 4) (cycle : Nat),
          let gone := if cycle < left then s.carrier.elapsed + cycle else (cycle - left) % (s.dividerTaken / 2)
          let active := fun duty level =>
            if cycle < left then duty * s.carrier.divider / 510 else level * s.dividerTaken / 510
          (lampPin s n .green cycle = true ↔ gone < active (s.lane n).lamps.green (s.lane n).levels.green)
          ∧ (lampPin s n .red cycle = true ↔ gone < active (s.lane n).lamps.red (s.lane n).levels.red)
          ∧ (lampPin s n .amber cycle = true ↔ gone < active (s.lane n).lamps.amber (s.lane n).levels.amber))
      ∧ ∀ n : Fin 4,
        let b := (s.lane n).buzzer
        let tone := (s.lane n).levels.buzzer
        let left := if b.tone = 0 ∨ b.elapsed = 0 then 0 else s.divider / b.tone - b.elapsed
        (∀ cycle, b.tone ≠ 0 → tone = b.tone →
          buzzerPin s n cycle = (if (b.elapsed + cycle) / (s.divider / b.tone) % 2 = 0 then b.active else !b.active))
        ∧ (∀ cycle, tone ≠ b.tone → cycle < left → buzzerPin s n cycle = b.active)
        ∧ (∀ cycle, tone ≠ b.tone ∨ tone = 0 → left ≤ cycle →
          buzzerPin s n cycle =
            (decide (tone ≠ 0) && decide ((cycle - left) / (s.divider / tone) % 2 = 0)))
        ∧ (t.lane n).buzzer =
          { tone := if tone ≠ b.tone ∧ s.divider < left then b.tone else tone
            elapsed :=
              if tone = b.tone then (if tone = 0 then 0 else (b.elapsed + s.divider) % (s.divider / tone))
              else if s.divider < left then b.elapsed + s.divider
              else if tone = 0 then 0 else (s.divider - left) % (s.divider / tone)
            active := buzzerPin s n s.divider }

/-- ROLLOVER taken at the end of a day with no credit sweep running: the day rises by 1, the milliseconds are 0, the staged
records are in the Product Table and the Staging Area is empty, the Closure List is empty, each current window closes
into its ring, SHORT when the day cut it, and gives way to window 0 of the new day, the time mirror shows it, ROLLOVER
is raised and a STATION record asked for (R24, R32, R37, R118, R123, R124). Where a SET_TIME was taken in between, the
tick advances the new time by one millisecond and nothing rolls over (R41); without an end of day nothing happens.
The bytes of a journal record without content are 0 by the model's choice (log entry 52).
Bits that a table gives no meaning are 0 by the model's choice (log entry 54). -/
def Obligations.RolloverStartsNewDay : Prop :=
  (∀ s : State, s.ok → s.dayEnd = true → s.ms + 1 = 86400000 → s.day < 65534 → s.creditSweep = none →
    (∀ x ∈ readStaging s.mem, x.1 < 64) → ((readStaging s.mem).map (·.1)).Nodup →
    ∃ t, exec .rollover s = .next t
      ∧ t = { s with
                mem := t.mem, attn := t.attn, lanes := t.lanes, journal := t.journal
                day := s.day + 1, ms := 0, dayEnd := false }
      ∧ (∀ x ∈ readStaging s.mem, t.product x.1 = x.2)
      ∧ readStaging t.mem = [] ∧ heldClosures t.mem = []
      ∧ (∀ n, (s.lane n).window = none → t.lane n = s.lane n)
      ∧ (∀ n w, (s.lane n).window = some w →
          let p := nextFlowPosition (s.lane n).flowPosition
          t.lane n = { s.lane n with
              window := some ⟨s.day + 1, 0, false, false, !s.online, ⟨0, 0, 0, 0, 0, 0, 0, 0⟩⟩
              flowPosition := some p, flowNumber := nextFlowNumber (s.lane n).flowNumber }
          ∧ t.peek (hdrFlow n.val) 2 = p
          ∧ t.mem.readBytes (flowBase n.val p) 32 =
              le 2 (nextFlowNumber (s.lane n).flowNumber) ++ le 2 w.day ++ le 2 w.index
                ++ le 2 (w.index * s.options.windowLength) ++ le 1 (1440 - w.index * s.options.windowLength)
                ++ le 1 (windowFlags
                    { w with isShort := w.isShort || decide (1440 < (w.index + 1) * s.options.windowLength) })
                ++ w.counts.bytes ++ List.replicate 6 0)
      ∧ t.peek hdrDay 2 = s.day + 1 ∧ t.peek hdrMs 4 = 0
      ∧ attnRaised s t 0x40
      ∧ unpledgedRecord s t ⟨none, s.day + 1, 0, [], none, .station .rollover s.online false 0 0⟩
      ∧ keepsBytes s t (fun a =>
          inAppend s a ∨ inField hdrMs 6 a ∨ inField (hdrFlow 0) 8 a ∨ inField (closureBase 0) 128 a
          ∨ inField (stagingBase 0) 1024 a ∨ (∃ x ∈ readStaging s.mem, inField (productBase x.1) 128 a)
          ∨ ∃ n : Fin 4, inLaneMirror n a ∨ inField (flowBase n.val (nextFlowPosition (s.lane n).flowPosition)) 32 a))
    ∧ ∀ s : State, s.mem.wf → s.ms < 86400000 → s.day < 65536 →
      (s.dayEnd = true → s.ms + 1 < 86400000 →
        ∃ t, exec .rollover s = .next t ∧ t = { s with mem := t.mem, ms := s.ms + 1, dayEnd := false }
          ∧ ((s.ms + 1) % 1000 = 0 →
            t.peek hdrMs 4 = s.ms + 1 ∧ t.peek hdrDay 2 = s.day ∧ keepsBytes s t (inField hdrMs 6))
          ∧ ((s.ms + 1) % 1000 ≠ 0 → t.mem = s.mem))
      ∧ (s.dayEnd = false → exec .rollover s = .next s)

/-- WINDOW_END: each current window whose end the time has reached closes into the next position of its lane's ring with
the flags and counts it has, the header names the position, and the next window opens (R117, R122, R123, R124, R127).
Bits that a table gives no meaning are 0 by the model's choice (log entry 54). -/
def Obligations.WindowEndWritesFlowRecord : Prop :=
  ∀ s : State, s.mem.wf →
    ∃ t, exec .windowEnd s = .next t ∧ t = { s with mem := t.mem, lanes := t.lanes }
      ∧ (∀ (n : Fin 4) (w : Window), (s.lane n).window = some w →
          (w.index + 1) * s.options.windowLength * 60000 ≤ s.ms →
          (w.index + 1) * s.options.windowLength * 60000 < 86400000 →
          let p := nextFlowPosition (s.lane n).flowPosition
          t.lane n = { s.lane n with
              window := some ⟨w.day, w.index + 1, false, false, !s.online, ⟨0, 0, 0, 0, 0, 0, 0, 0⟩⟩
              flowPosition := some p, flowNumber := nextFlowNumber (s.lane n).flowNumber }
          ∧ t.peek (hdrFlow n.val) 2 = p
          ∧ t.mem.readBytes (flowBase n.val p) 32 =
              le 2 (nextFlowNumber (s.lane n).flowNumber) ++ le 2 w.day ++ le 2 w.index
                ++ le 2 (w.index * s.options.windowLength) ++ le 1 s.options.windowLength ++ le 1 (windowFlags w)
                ++ w.counts.bytes ++ List.replicate 6 0)
      ∧ (∀ n : Fin 4, (s.lane n).window = none → t.lane n = s.lane n)
      ∧ (∀ (n : Fin 4) (w : Window), (s.lane n).window = some w →
          s.ms < (w.index + 1) * s.options.windowLength * 60000
            ∨ 86400000 ≤ (w.index + 1) * s.options.windowLength * 60000 → t.lane n = s.lane n)
      ∧ keepsBytes s t (fun a => ∃ (n : Fin 4) (w : Window), (s.lane n).window = some w
          ∧ (w.index + 1) * s.options.windowLength * 60000 ≤ s.ms
          ∧ (w.index + 1) * s.options.windowLength * 60000 < 86400000
          ∧ (inField (laneBlockBase n.val + 80) 22 a ∨ inField (hdrFlow n.val) 2 a
            ∨ inField (flowBase n.val (nextFlowPosition (s.lane n).flowPosition)) 32 a))

/-- SET_TIME naming a time of the same day that is taken: the milliseconds become the value named, the flag is set, the
mirror shows the time, a STATION record holds the time before, and each current window closes SHORT at the station
time of the step and the window that contains the new time opens (R33 to R36, R119).
The bytes of a journal record without content are 0 by the model's choice (log entry 52).
Bits that a table gives no meaning are 0 by the model's choice (log entry 54). -/
def Obligations.SetTimeWithinDay : Prop :=
  ∀ (s : State) (k : Fin 32), s.ok → timeLaw s → carries s k 9 → s.peek (orderBase k.val + 8) 2 = s.day →
    s.peek (orderBase k.val + 10) 4 < 86400000 →
    s.station = .quiet ∨ s.ms ≤ s.peek (orderBase k.val + 10) 4 →
    ∃ t, exec (.setTime k) s = .next t ∧ orderEnded s t k .ok
      ∧ t = { s with
                mem := t.mem, attn := t.attn, sweepNext := t.sweepNext, journal := t.journal, lanes := t.lanes
                ms := s.peek (orderBase k.val + 10) 4, timeSet := true }
      ∧ attnRaised s t 1
      ∧ t.peek hdrDay 2 = s.day ∧ t.peek hdrMs 4 = t.ms / 1000 * 1000
      ∧ unpledgedRecord s t ⟨none, s.day, t.ms, [], none, .station .setTime s.online false s.day s.ms⟩
      ∧ (t.ms = s.ms → t.lanes = s.lanes)
      ∧ (t.ms ≠ s.ms → ∀ n, t.lane n = { s.lane n with
            window := (s.lane n).window.map fun _ =>
              ⟨s.day, t.ms / 60000 / s.options.windowLength, false,
                !(t.ms = t.ms / 60000 / s.options.windowLength * s.options.windowLength * 60000), !s.online,
                ⟨0, 0, 0, 0, 0, 0, 0, 0⟩⟩
            flowPosition := if (s.lane n).window = none then (s.lane n).flowPosition
              else some (nextFlowPosition (s.lane n).flowPosition)
            flowNumber := if (s.lane n).window = none then (s.lane n).flowNumber
              else nextFlowNumber (s.lane n).flowNumber })
      ∧ (t.ms ≠ s.ms → ∀ n w, (s.lane n).window = some w →
          t.mem.readBytes (flowBase n.val (nextFlowPosition (s.lane n).flowPosition)) 32 =
            le 2 (nextFlowNumber (s.lane n).flowNumber) ++ le 2 w.day ++ le 2 w.index
              ++ le 2 (w.index * s.options.windowLength)
              ++ le 1 ((s.ms + 59999) / 60000 - w.index * s.options.windowLength)
              ++ le 1 (windowFlags { w with isShort := true }) ++ w.counts.bytes ++ List.replicate 6 0)
      ∧ keepsBytes s t (fun a =>
          inOrderEnd k a ∨ inAppend s a ∨ inField hdrMs 6 a
          ∨ ∃ (n : Fin 4) (w : Window), (s.lane n).window = some w ∧ t.ms ≠ s.ms
            ∧ (inField (laneBlockBase n.val + 80) 22 a ∨ inField (hdrFlow n.val) 2 a
              ∨ inField (flowBase n.val (nextFlowPosition (s.lane n).flowPosition)) 32 a))

/-- SET_TIME naming a later day is one rollover, however many days lie between, and then the milliseconds: the staged
records are in the Product Table, the Staging Area and the Closure List empty, each current window closes SHORT at the
station time the old day had and gives way to the window of the new time, SHORT where it opens inside it, ROLLOVER is
raised, and two STATION records are asked for, ROLLOVER and then SET_TIME with the time before (R34 to R37, R40, R118,
R119, R123). In QUIET an earlier day moves station time back and clears the Closure List; the Staging Area, the Product
Table and the lanes stay, and nothing rolls over (R34).
The bytes of a journal record without content are 0 by the model's choice (log entry 52).
Bits that a table gives no meaning are 0 by the model's choice (log entry 54). -/
def Obligations.SetTimeAcrossDays : Prop :=
  ∀ (s : State) (k : Fin 32), s.ok → timeLaw s → carries s k 9 → s.creditSweep = none →
    let day := s.peek (orderBase k.val + 8) 2
    let ms := s.peek (orderBase k.val + 10) 4
    let setTime : Record := ⟨none, day, ms, [], none, .station .setTime s.online false s.day s.ms⟩
    day < 65535 → ms < 86400000 →
    (s.day < day → (∀ x ∈ readStaging s.mem, x.1 < 64) → ((readStaging s.mem).map (·.1)).Nodup →
      ∃ t, exec (.setTime k) s = .next t ∧ orderEnded s t k .ok
        ∧ (∀ x ∈ readStaging s.mem, t.product x.1 = x.2) ∧ readStaging t.mem = [] ∧ heldClosures t.mem = []
        ∧ t.peek hdrDay 2 = day ∧ t.peek hdrMs 4 = ms / 1000 * 1000
        ∧ (∀ n, (s.lane n).window = none → t.lane n = s.lane n)
        ∧ (∀ n w, (s.lane n).window = some w →
            let p := nextFlowPosition (s.lane n).flowPosition
            let index := ms / 60000 / s.options.windowLength
            t.lane n = { s.lane n with
                window := some ⟨day, index, false, decide (ms ≠ index * s.options.windowLength * 60000), !s.online,
                  ⟨0, 0, 0, 0, 0, 0, 0, 0⟩⟩
                flowPosition := some p, flowNumber := nextFlowNumber (s.lane n).flowNumber }
            ∧ t.peek (hdrFlow n.val) 2 = p
            ∧ t.mem.readBytes (flowBase n.val p) 32 =
                le 2 (nextFlowNumber (s.lane n).flowNumber) ++ le 2 w.day ++ le 2 w.index
                  ++ le 2 (w.index * s.options.windowLength)
                  ++ le 1 ((s.ms + 59999) / 60000 - w.index * s.options.windowLength)
                  ++ le 1 (windowFlags { w with isShort := true }) ++ w.counts.bytes ++ List.replicate 6 0)
        ∧ attnRaised s t 0x41
        ∧ recorded s t
            [(false, ⟨none, day, 0, [], none, .station .rollover s.online false 0 0⟩), (false, setTime)]
        ∧ t = { s with
                  mem := t.mem, attn := t.attn, sweepNext := t.sweepNext, journal := t.journal, lanes := t.lanes
                  day := day, ms := ms, timeSet := true }
        ∧ keepsBytes s t (fun a =>
            inOrderEnd k a ∨ inAppends s 2 a ∨ inField hdrMs 6 a ∨ inField (hdrFlow 0) 8 a
            ∨ inField (closureBase 0) 128 a ∨ inField (stagingBase 0) 1024 a
            ∨ (∃ x ∈ readStaging s.mem, inField (productBase x.1) 128 a)
            ∨ ∃ n : Fin 4, inLaneMirror n a ∨ inField (flowBase n.val (nextFlowPosition (s.lane n).flowPosition)) 32 a))
    ∧ (day < s.day → s.station = .quiet → (∀ n, (s.lane n).window = none) →
      ∃ t, exec (.setTime k) s = .next t ∧ orderEnded s t k .ok
        ∧ heldClosures t.mem = [] ∧ readStaging t.mem = readStaging s.mem ∧ (∀ i ≤ 63, t.product i = s.product i)
        ∧ t.peek hdrDay 2 = day ∧ t.peek hdrMs 4 = ms / 1000 * 1000 ∧ attnRaised s t 1
        ∧ unpledgedRecord s t setTime
        ∧ t = { s with
                  mem := t.mem, attn := t.attn, sweepNext := t.sweepNext, journal := t.journal
                  day := day, ms := ms, timeSet := true }
        ∧ keepsBytes s t (fun a => inOrderEnd k a ∨ inAppend s a ∨ inField hdrMs 6 a ∨ inField (closureBase 0) 128 a))

/-! ### Reader ports -/

/-- A valid TAP at a port in service of an ENTRY lane while RUNNING, with the parser in HUNT, SILENT and RF_FAULT clear and
quality 1 to 3: it joins the tail of the tap queue in the place of one waiting for the lane, the repeat record is
replaced and the silence timer restarts; a repeat restarts the record and is not handed on. One of quality 0 joins the
queue and leaves the repeat record (R50, R51, R53, R58). With
no lane naming the port or in QUIET it is discarded; while QUIETING or with RF_FAULT held it is discarded with the
silence timer restarted (R42, R49, R50). A valid GONE of the UID of the repeat record empties it, and of another leaves
it; at a port in service the silence timer restarts (R49, R51). -/
def Obligations.TapsJoinQueueAndGoneFrees : Prop :=
  (∀ (s : State) (p : Fin 4) (q : Byte) (stamp : Word) (uid : List Byte),
    (s.port p).parser = .hunt → q.toNat ≤ 3 → uid.length = 4 ∨ uid.length = 7 ∨ uid.length = 10 →
    (∀ n, s.station = .running → servedLane s p = some n → (s.lane n).config.role = .entry →
      (s.port p).silent = false → (s.port p).rfFault = false →
      ∃ t, exec (.tap p q stamp uid) s = .next t
        ∧ t = { s with ports := t.ports, tapQueue := t.tapQueue } ∧ keepsOtherPorts s t p
        ∧ t.port p = { s.port p with
              repeatRec := if q = 0 then (s.port p).repeatRec else some ⟨uid, s.now⟩, silence := some 0, gap := 0 }
        ∧ t.tapQueue =
          if q ≠ 0 ∧ ∃ r, (s.port p).repeatRec = some r ∧ r.uid = uid ∧ s.now - r.tick < 2000 then s.tapQueue
          else s.tapQueue.filter (fun x => x.lane ≠ n) ++ [⟨n, p, q.toNat, stamp.toNat, uid⟩])
    ∧ (s.station ≠ .starting → s.station = .quiet ∨ servedLane s p = none →
      exec (.tap p q stamp uid) s = .next (s.setPort p { s.port p with gap := 0 }))
    ∧ (inService s p = true → s.station = .quieting ∨ (s.port p).rfFault = true → (s.port p).silent = false →
      exec (.tap p q stamp uid) s = .next (s.setPort p { s.port p with gap := 0, silence := some 0 })))
  ∧ ∀ (s : State) (p : Fin 4) (uid : List Byte), s.station ≠ .starting → (s.port p).parser = .hunt →
    (s.port p).silent = false → uid.length = 4 ∨ uid.length = 7 ∨ uid.length = 10 →
    exec (.gone p uid) s = .next (s.setPort p { s.port p with
      gap := 0
      silence := if inService s p then some 0 else (s.port p).silence
      repeatRec := (s.port p).repeatRec.filter fun r => r.uid ≠ uid })

/-- A valid TAP at a RETURN lane of a RUNNING station, no repeat, is taken at once by the Settlement Unit. A READY lane
whose checks of R149 and R161 pass starts a capture with the figures of R152 to R154: the context, the marker, a pledge,
CAPTURING with its capture output driven, SHOW REFUND and the RETURN_CAPTURE cue (R104, R148, R160, R161, R164).
OFFLINE it is answered OFFLINE, with the DENY cue and a DENIED count and no record; it is denied REREAD, UNKNOWN,
STALE_CARD, BLOCKED, RETIRED, IN_USE or NOT_REFUNDABLE by the first check that fails, REFUND_NONE answers a refund of 0
without a record or a count, and an unpledged room below 5 denies JOURNAL_FULL; the lane stays READY and no entry changes
(R149, R161 to R163). A DOWN, ARMING or FAULT lane ignores it, and a CAPTURING one ignores the card it holds and denies
another LANE_BUSY without a cue (R66, R160).
The bytes of a journal record without content are 0 by the model's choice (log entry 52). -/
def Obligations.ReturnTapStartsCapture : Prop :=
  ∀ (s : State) (p n : Fin 4) (q : Byte) (stamp : Word) (uid : List Byte),
    s.ok → s.station = .running → servedLane s p = some n → (s.lane n).config.role = .ret →
    (s.port p).parser = .hunt → (s.port p).silent = false → (s.port p).rfFault = false →
    q.toNat ≤ 3 → uid.length = 4 ∨ uid.length = 7 ∨ uid.length = 10 →
    (∀ r, (s.port p).repeatRec = some r → r.uid ≠ uid ∨ 2000 ≤ s.now - r.tick ∨ q = 0) →
    let heard : State := s.setPort p { s.port p with
      repeatRec := if q = 0 then (s.port p).repeatRec else some ⟨uid, s.now⟩, silence := some 0, gap := 0 }
    let e := fun slot => s.pass slot
    let d := fun slot => s.product (e slot).product
    let lastDay : Nat → Int := fun slot =>
      match (e slot).firstDay with
      | some f => f + (d slot).span - 1
      | none => (e slot).issueDay + (d slot).activation - 1
    let unused := fun slot =>
      if (d slot).kind = .days then (e slot).usage % 256 - (e slot).usage / 256
      else min (e slot).usage (d slot).ridesInitial
    let gross := fun slot =>
      if (d slot).kind = .days then (e slot).paid - (d slot).price (unused slot)
      else (e slot).paid * unused slot / (d slot).ridesInitial
    -- checks 3 to 7 of R149 for a tap, with the period factor of R151
    let refundable := fun slot phi =>
      (e slot).blocked = false ∧ (e slot).retired = false ∧ (e slot).marker = none ∧ (d slot).refundable = true
        ∧ ((d slot).kind = .days ∨ (d slot).kind = .rides)
        ∧ ((s.day ≤ lastDay slot ∧ phi = 1000)
          ∨ (lastDay slot < s.day ∧ s.day ≤ lastDay slot + (d slot).deadline ∧ phi = (d slot).late))
    let refund := fun slot phi => refundOf (gross slot) phi (d slot).fee (d slot).rounding
    let answered := fun (x : Show) (counts : Bool) (o : Option CueOutcome) (asks : List Asked) =>
      ∃ t, exec (.tap p q stamp uid) s = .next t ∧ showAsked heard t p x ∧ keepsOtherPorts s t p
        ∧ (t.lane n).state = (s.lane n).state ∧ keepsSetup s t n ∧ keepsOtherLanes s t n
        ∧ (if counts then countedOnce s t n .denied else (t.lane n).window = (s.lane n).window)
        ∧ cuesHanded s t n o.toList ∧ recorded s t asks ∧ attnRaised s t 0
        ∧ t = { s with mem := t.mem, attn := t.attn, lanes := t.lanes, ports := t.ports, journal := t.journal }
        ∧ keepsBytes s t (fun a => inAppends s asks.length a ∨ inField (laneBlockBase n.val + 80) 22 a
            ∨ inField (laneBlockBase n.val + 112) 6 a)
    let denied := fun (uid' : List Byte) (slot : Option Nat) (reason : DenyReason) =>
      answered ⟨.deny reason, 0⟩ true (some .deny) [(false, ⟨some n, s.day, s.ms, uid', slot, .deny reason .none⟩)]
    (∀ w, (s.lane n).state = .ready w →
      (s.online = false → answered ⟨.offline, 0⟩ true (some .deny) [])
      ∧ (s.online = true → q = 0 → denied [] none .reread)
      ∧ (s.online = true → q ≠ 0 → lookup s.mem uid = none → denied uid none .unknown)
      ∧ ∀ slot, s.online = true → q ≠ 0 → lookup s.mem uid = some slot →
        (stamp.toNat ≠ (e slot).stamp → denied uid (some slot) .staleCard)
        ∧ (stamp.toNat = (e slot).stamp →
          ((e slot).blocked = true → denied uid (some slot) .blocked)
          ∧ ((e slot).blocked = false → (e slot).retired = true → denied uid (some slot) .retired)
          ∧ ((e slot).blocked = false → (e slot).retired = false → (e slot).marker ≠ none →
            denied uid (some slot) .inUse)
          ∧ ((e slot).blocked = false → (e slot).retired = false → (e slot).marker = none →
            (d slot).refundable = false ∨ ((d slot).kind ≠ .days ∧ (d slot).kind ≠ .rides)
              ∨ (lastDay slot < s.day ∧ lastDay slot + (d slot).deadline < s.day) →
            denied uid (some slot) .notRefundable)
          ∧ ∀ phi, refundable slot phi →
            (refund slot phi = 0 → answered ⟨.refundNone, 0⟩ false (some .refundNone) [])
            ∧ (refund slot phi ≠ 0 → s.journal.room < 5 → denied uid (some slot) .journalFull)
            ∧ (refund slot phi ≠ 0 → 5 ≤ s.journal.room →
              ∃ t, exec (.tap p q stamp uid) s = .next t
                ∧ (t.lane n).state = .capturing
                  { slot := slot, uid := uid, tick := s.now, timeout := s.options.captureTimeout
                    figures :=
                      { kind := (d slot).kind, paid := (e slot).paid, unused := unused slot, phi := phi
                        gross := gross slot, scaled := gross slot * phi / 1000
                        net := if (d slot).fee < gross slot * phi / 1000 then gross slot * phi / 1000 - (d slot).fee else 0
                        fee := (d slot).fee, rounding := (d slot).rounding, refund := refund slot phi } }
                ∧ t.peek (passBase slot + 31) 1 = n.val ∧ capturePin t n = true
                ∧ t.journal = { s.journal with pledges := s.journal.pledges + 1 }
                ∧ showAsked heard t p ⟨.refund, refund slot phi⟩ ∧ cueHanded s t n .returnCapture
                ∧ (t.lane n).window = (s.lane n).window ∧ keepsSetup s t n
                ∧ t = { s with mem := t.mem, lanes := t.lanes, ports := t.ports, journal := t.journal }
                ∧ keepsOtherLanes s t n ∧ keepsOtherPorts s t p
                ∧ keepsBytes s t (fun a => a = passBase slot + 31 ∨ inLaneMirror n a))))
    ∧ ((s.lane n).state.code = 0 ∨ (s.lane n).state.code = 1 ∨ (s.lane n).state.code = 7
        ∨ (∃ c, (s.lane n).state = .capturing c ∧ c.uid = uid) →
      exec (.tap p q stamp uid) s = .next heard)
    ∧ ∀ c, (s.lane n).state = .capturing c → c.uid ≠ uid →
      answered ⟨.deny .laneBusy, 0⟩ true none
        [(false, ⟨some n, s.day, s.ms, uid, none, .deny .laneBusy .none⟩)]

/-- READER_LOST at a port in service. SILENT at 3,000 ms, and a STATUS frame of value 1, set their cause; where READER_LOST
goes from clear to set, the NO_READER cue is handed to the port's lane, a LANE record with the change and the cause is
asked for and LANE_FAULT raised. A STATUS of value 0 clears RF_FAULT, and any valid frame clears SILENT; where READER_LOST
goes from set to clear, a LANE record is asked for and READY handed to a READY lane, and no lane attention is raised. A
cause added or cleared while the flag stays set makes no record, and a STATUS of the value held changes no cause (R49,
R52, R53).
The bytes of a journal record without content are 0 by the model's choice (log entry 52). -/
def Obligations.ReaderLostFollowsCauses : Prop :=
  ∀ (s : State) (p n : Fin 4), s.ok → inService s p = true → servedLane s p = some n →
    let record := fun lost silent rf : Bool => (⟨some n, s.day, s.ms, [], none,
      .lane (s.lane n).state.code (s.lane n).state.faultCode (s.lane n).state.faultExit true lost silent rf⟩ : Record)
    let frame := fun t : State =>
      keepsOtherPorts s t p ∧ keepsOtherLanes s t n ∧ keepsSetup s t n ∧ (t.lane n).state = (s.lane n).state
        ∧ (t.lane n).window = (s.lane n).window
        ∧ t = { s with mem := t.mem, attn := t.attn, journal := t.journal, lanes := t.lanes, ports := t.ports }
        ∧ keepsBytes s t (fun a => inAppend s a ∨ inField (laneBlockBase p.val + 72) 4 a
            ∨ inField (laneBlockBase n.val + 112) 6 a)
    let back := fun t : State =>
      ((s.lane n).state.code = 2 → cueHanded s t n .ready) ∧ ((s.lane n).state.code ≠ 2 → cueKept s t n)
        ∧ attnRaised s t 0 ∧ unpledgedRecord s t (record false false false) ∧ frame t
    ((s.port p).silent = false →
      (∀ c, (s.port p).silence = some c → 3000 ≤ c →
        ((s.port p).rfFault = false →
          ∃ t, exec (.silent p) s = .next t ∧ t.port p = { s.port p with silent := true }
            ∧ cueHanded s t n .noReader ∧ attnRaised s t 0x10 ∧ unpledgedRecord s t (record true true false) ∧ frame t)
        ∧ ((s.port p).rfFault = true →
          ∃ t, exec (.silent p) s = .next t ∧ t = { s.setPort p { s.port p with silent := true } with mem := t.mem }
            ∧ keepsBytes s t (inField (laneBlockBase p.val + 72) 4)))
      ∧ ((s.port p).parser = .hunt →
        ((s.port p).rfFault = false →
          ∃ t, exec (.status p 0x01) s = .next t
            ∧ t.port p = { s.port p with rfFault := true, silence := some 0, gap := 0 }
            ∧ cueHanded s t n .noReader ∧ attnRaised s t 0x10 ∧ unpledgedRecord s t (record true false true) ∧ frame t)
        ∧ ((s.port p).rfFault = true →
          ∃ t, exec (.status p 0x00) s = .next t
            ∧ t.port p = { s.port p with rfFault := false, silence := some 0, gap := 0 } ∧ back t)
        ∧ ∀ code : Byte, code = 0x00 ∨ code = 0x01 → ((s.port p).rfFault = true ↔ code = 0x01) →
            exec (.status p code) s = .next (s.setPort p { s.port p with silence := some 0, gap := 0 })))
    ∧ ((s.port p).silent = true → (s.port p).parser = .hunt →
      ∀ (c : Instr) (x : Port),
        (∃ uid : List Byte, (uid.length = 4 ∨ uid.length = 7 ∨ uid.length = 10) ∧ c = .gone p uid
            ∧ x = { s.port p with
                silent := false, silence := some 0, gap := 0
                repeatRec := (s.port p).repeatRec.filter fun r => r.uid ≠ uid })
          ∨ (∃ code : Byte, (code = 0x00 ∨ code = 0x01) ∧ ((s.port p).rfFault = true ↔ code = 0x01) ∧ c = .status p code
            ∧ x = { s.port p with silent := false, silence := some 0, gap := 0 })
          ∨ (s.station = .quieting ∧ ∃ (q : Byte) (stamp : Word) (uid : List Byte), q.toNat ≤ 3
            ∧ (uid.length = 4 ∨ uid.length = 7 ∨ uid.length = 10) ∧ c = .tap p q stamp uid
            ∧ x = { s.port p with silent := false, silence := some 0, gap := 0 }) →
        ((s.port p).rfFault = false → ∃ t, exec c s = .next t ∧ t.port p = x ∧ back t)
        ∧ ((s.port p).rfFault = true →
          ∃ t, exec c s = .next t ∧ t = { s.setPort p x with mem := t.mem }
            ∧ keepsBytes s t (inField (laneBlockBase p.val + 72) 4)))

/-- Bytes that make no frame. A broken byte is discarded in HUNT, and in LENGTH, BODY or CHECK drops the frame, returns the
parser to HUNT and adds 1 to the bad-frame count, which saturates and is mirrored (R47, R48). A frame whose sum byte is
wrong is dropped and counted, whatever its body (R43, R45). A well-summed frame whose body R49 does not accept, and a
frame whose length byte is 0 or above 24, are dropped without a count (R44, R49). -/
def Obligations.DroppedFramesAreCounted : Prop :=
  ∀ (s : State) (p : Fin 4), s.mem.wf → s.station ≠ .starting →
    let counted := fun t : State =>
      t = { s.setPort p { s.port p with
              parser := .hunt, gap := 0, badFrames := min ((s.port p).badFrames + 1) 65535 } with mem := t.mem }
        ∧ ((s.port p).badFrames < 65535 → t.peek (laneBlockBase p.val + 72) 2 = (s.port p).badFrames + 1)
        ∧ keepsBytes s t (inField (laneBlockBase p.val + 72) 2)
    (∀ v : Byte, (s.port p).parser = .hunt → exec (.badFrame p [⟨v, true⟩]) s = .next s)
    ∧ (∀ v : Byte, (s.port p).parser ≠ .hunt → ∃ t, exec (.badFrame p [⟨v, true⟩]) s = .next t ∧ counted t)
    ∧ ((s.port p).parser = .hunt →
      (∀ (body : List Byte) (sum : Byte), 1 ≤ body.length → body.length ≤ 24 →
        (body.length + (body.map BitVec.toNat).sum + sum.toNat) % 256 ≠ 0 →
        ∃ t, exec (.badFrame p (soundLine (0xA5 :: BitVec.ofNat 8 body.length :: (body ++ [sum])))) s = .next t
          ∧ counted t)
      ∧ (∀ body : List Byte, 1 ≤ body.length → body.length ≤ 24 → bodyIsValidFrame body = false →
        exec (.malformedFrame p body) s = .next (s.setPort p { s.port p with gap := 0 }))
      ∧ ∀ len : Byte, len.toNat = 0 ∨ 24 < len.toNat →
        exec (.frameDroppedForLength p len) s = .next (s.setPort p { s.port p with gap := 0 }))

/-- Timers whose end changes one lane or port and nothing else. GAP_TIMEOUT drops the frame in progress once the gap timer
has reached 21 ms, without a count (R46). SHOW_END starts a pending frame at once and otherwise makes the transmitter
IDLE (R55). DUCK_WATCH_CLOSE closes the watch 3,000 ms after its tick, without a count (R101). LOCK_PULSE_END ends the
pulse at its last tick, the lock staying as it is (R185). CUE_ENTRY applies, in list order, every entry whose offset the
elapsed time has reached, up to an END; behind entry 15 the cue stops, an END stops it or, in a repeating list with
elapsed time 1 or more, starts a new pass, whose entries at offset 0 are applied in the same event (R177, R178); the Lane
Block shows it. An outcome handed to a lane, as the statements on commands have it, starts the list its map names: the
sixteen entries and the mode copied from the Cue Table, the start now, the entries at offset 0 applied in order up to an
entry of a later offset, and none running where an END or the end of the list is reached; a DOWN lane, and an outcome
mapped to NONE, start nothing (R173, R174, R176, R178). -/
def Obligations.TimersEndOnTheirTick : Prop :=
  (∀ (s : State) (p : Fin 4), (s.port p).parser ≠ .hunt → 21 ≤ (s.port p).gap →
      exec (.gapTimeout p) s = .next (s.setPort p { s.port p with parser := .hunt, gap := 0 }))
    ∧ (∀ (s : State) (p : Fin 4) (x : Show), (s.port p).sending = some x →
      exec (.showEnd p) s =
        .next (s.setPort p { s.port p with sending := (s.port p).pendingShow, pendingShow := none }))
    ∧ (∀ (s : State) (n : Fin 4) (w : Nat), (s.lane n).state = .ready (some w) → 3000 ≤ s.now - w →
      exec (.duckWatchClose n) s = .next (s.setLane n { s.lane n with state := .ready none }))
    ∧ (∀ (s : State) (n : Fin 4) (e : Nat), (s.lane n).lockPulse = some e → e ≤ s.now →
      exec (.lockPulseEnd n) s = .next (s.setLane n { s.lane n with lockPulse := none }))
    ∧ (∀ (s : State) (n : Fin 4) (c : Cue) (due rest : List CueEntry), s.mem.wf → (s.lane n).cue = some c →
      c.entries.drop c.position = due ++ rest →
      let elapsed := s.now - c.start
      let after := due.foldl (fun lv e => e.applied lv) (s.lane n).levels
      let becomes := fun (cue : Option Cue) (lv : Levels) =>
        ∃ t, exec (.cueEntry n) s = .next t ∧ t = { s with mem := t.mem, lanes := t.lanes } ∧ keepsOtherLanes s t n
          ∧ t.lane n = { s.lane n with cue := cue, levels := lv }
          ∧ keepsBytes s t (inField (laneBlockBase n.val + 112) 6)
      (∀ e ∈ due, e.offset ≤ elapsed ∧ e.target ≠ .stop) →
      (rest = [] → becomes none after)
      ∧ ∀ e more, rest = e :: more →
        (elapsed < e.offset → becomes (some { c with position := c.position + due.length }) after)
        ∧ (e.offset ≤ elapsed → e.target = .stop →
          (c.repeats = false ∨ elapsed = 0 → becomes none after)
          ∧ (c.repeats = true → 1 ≤ elapsed → ∀ first later, c.entries = first ++ later →
            let again := first.foldl (fun lv e => e.applied lv) after
            (∀ e ∈ first, e.offset = 0 ∧ e.target ≠ .stop) →
            (∀ e more, later = e :: more → 0 < e.offset →
              becomes (some { c with position := first.length, start := s.now }) again)
            ∧ ∀ e more, later = e :: more → e.offset = 0 → e.target = .stop → becomes none again)))
    ∧ ∀ (s : State) (n : Fin 4) (o : CueOutcome),
      let named := (s.lane n).config.cueMap.getD o.index none
      ((s.lane n).state = .down ∨ named = none → handOutcome n o s = s)
      ∧ ∀ list : Fin 32, (s.lane n).state ≠ .down → named = some list →
        ∀ first later : List CueEntry, (first ++ later).length = 16 →
        (∀ i < 16, ∃ e, (first ++ later)[i]? = some e ∧
          let a := 0x1500 + 64 * list.val + 4 * i
          let value := s.peek (a + 3) 1
          e.offset = s.peek a 2
            ∧ e.target = ([.stop, .green, .red, .amber, .buzzer, .stop, .stop, .stop] : List CueTarget).getD
                (s.peek (a + 2) 1 % 8) .stop
            ∧ e.value = (if e.target = .buzzer then min value 8 else value)) →
        (∀ e ∈ first, e.offset = 0 ∧ e.target ≠ .stop) →
        let levels := first.foldl (fun lv e => e.applied lv) (s.lane n).levels
        let starts := fun cue => handOutcome n o s = s.setLane n { s.lane n with cue := cue, levels := levels }
        (later = [] → starts none)
        ∧ ∀ e more, later = e :: more →
          (e.offset = 0 → e.target = .stop → starts none)
          ∧ (0 < e.offset → starts (some
              ⟨first ++ later, decide (128 ≤ s.peek (0x1500 + 64 * list.val + 2) 1), list, o, first.length, s.now⟩))

/-! ### Admission -/

/-- TAP_TAKE at a READY entry lane whose checks all pass is a grant: the record of R67, the marker, a pledge, the lock
released, the GRANT cue, SHOW GRANT with the value of R70; no record, no count, and nothing else of the entry is
touched (R59 to R70). -/
def Obligations.TapTakeGrants : Prop :=
  ∀ (s : State) (q : TapRecord) (rest : List TapRecord) (w : Option Nat) (slot : Nat), s.ok →
    s.tapQueue = q :: rest → s.station = .running → (s.lane q.lane).config.role = .entry →
    (s.lane q.lane).state = .ready w → tapReason s q = none → lookup s.mem q.uid = some slot →
    let e := s.pass slot
    let d := s.product e.product
    ∃ t, exec .tapTake s = .next t
      ∧ (t.lane q.lane).state = .granted
          { slot := slot, uid := q.uid, tick := s.now
            willConsume := decide (d.kind = .days) && decide (e.lastDay ≠ some s.day), windowCount := 0
            grantWindow := (s.lane q.lane).config.grantWindow, holdLimit := (s.lane q.lane).config.holdLimit
            exitBlocks := 0 }
      ∧ t.peek (passBase slot + 31) 1 = q.lane.val
      ∧ t.journal = { s.journal with pledges := s.journal.pledges + 1 }
      ∧ lockReleased t q.lane = true
      ∧ (lockReleased s q.lane = false → ∀ width, (s.lane q.lane).config.drive = .pulse width →
          (t.lane q.lane).lockPulse = some (s.now + width))
      ∧ cueHanded s t q.lane .grant
      ∧ showAsked s t q.port ⟨.grant,
          match d.kind with
          | .days => if e.lastDay = some s.day then d.daysBought - e.usage % 256 else d.daysBought - e.usage % 256 - 1
          | .rides => e.usage - 1
          | _ => 0⟩
      ∧ t.peek (laneBlockBase q.lane.val) 1 = 4 ∧ t.peek (laneBlockBase q.lane.val + 32) 2 = slot
      ∧ (t.lane q.lane).window = (s.lane q.lane).window
      ∧ t = { s with
                mem := t.mem, lanes := t.lanes, ports := t.ports, journal := t.journal, tapQueue := rest }
      ∧ keepsOtherLanes s t q.lane ∧ keepsSetup s t q.lane ∧ keepsOtherPorts s t q.port
      ∧ keepsBytes s t (fun a => a = passBase slot + 31 ∨ inLaneMirror q.lane a)

/-- TAP_TAKE at a READY entry lane. Where some check of R61 fails, the first failing check's reason goes into a DENY record
(UID length 0 at checks 1 to 3, the pass slot where the lookup hit) and into SHOW, the DENY cue is handed and DENIED
counted; the lane stays READY and no pass entry changes (R61 to R65). A card not in the table, checks 1 to 3 passed,
while ONLINE is referred: the lane is REFERRED, a REFERRAL record is asked for and REFERRAL raised; no SHOW, no cue, no
count, no marker, no pledge (R77).
The bytes of a journal record without content are 0 by the model's choice (log entry 52). -/
def Obligations.TapTakeDeniesOrRefers : Prop :=
  ∀ (s : State) (q : TapRecord) (rest : List TapRecord) (w : Option Nat), s.ok →
    s.tapQueue = q :: rest → s.station = .running → (s.lane q.lane).config.role = .entry →
    (s.lane q.lane).state = .ready w →
    (∀ reason, tapReason s q = some reason →
      let early := reason = .journalFull ∨ reason = .stationUnset ∨ reason = .reread
      ∃ t, exec .tapTake s = .next t
        ∧ (t.lane q.lane).state = .ready w
        ∧ (early → unpledgedRecord s t ⟨some q.lane, s.day, s.ms, [], none, .deny reason .none⟩)
        ∧ (¬early → unpledgedRecord s t ⟨some q.lane, s.day, s.ms, q.uid, lookup s.mem q.uid, .deny reason .none⟩)
        ∧ showAsked s t q.port ⟨.deny reason, 0⟩ ∧ cueHanded s t q.lane .deny ∧ countedOnce s t q.lane .denied
        ∧ attnRaised s t 0
        ∧ t = { s with
                  mem := t.mem, attn := t.attn, lanes := t.lanes, ports := t.ports, journal := t.journal
                  tapQueue := rest }
        ∧ keepsOtherLanes s t q.lane ∧ keepsSetup s t q.lane ∧ keepsOtherPorts s t q.port
        ∧ keepsBytes s t (fun a => inAppend s a ∨ inField (laneBlockBase q.lane.val + 80) 22 a
            ∨ inField (laneBlockBase q.lane.val + 112) 6 a))
    ∧ (tapReason s q = none → lookup s.mem q.uid = none →
      ∃ t, exec .tapTake s = .next t
        ∧ (t.lane q.lane).state = .referred ⟨q.uid, q.stamp, s.now, q.port⟩
        ∧ unpledgedRecord s t ⟨some q.lane, s.day, s.ms, q.uid, none, .referral⟩ ∧ attnRaised s t 0x08
        ∧ cueKept s t q.lane ∧ (t.lane q.lane).window = (s.lane q.lane).window
        ∧ t = { s with
                  mem := t.mem, attn := t.attn, lanes := t.lanes, journal := t.journal, tapQueue := rest }
        ∧ keepsOtherLanes s t q.lane ∧ keepsSetup s t q.lane
        ∧ keepsBytes s t (fun a => inAppend s a ∨ inLaneMirror q.lane a))

/-- TAP_TAKE by the lane's state: ignored at a lane that is DOWN, ARMING or in FAULT, or that holds the same card;
LANE_BUSY for another card at a REFERRED or GRANTED lane and for any card at a PASSING one, with no cue and the lane
as it was; SHOW FREE in FREE; discarded outside RUNNING or at a lane of another role (R59, R60, R66).
The bytes of a journal record without content are 0 by the model's choice (log entry 52). -/
def Obligations.TapTakeByLaneState : Prop :=
  ∀ (s : State) (q : TapRecord) (rest : List TapRecord), s.ok → s.tapQueue = q :: rest →
    (s.station ≠ .running ∨ (s.lane q.lane).config.role ≠ .entry →
      exec .tapTake s = .next { s with tapQueue := rest })
    ∧ (s.station = .running → (s.lane q.lane).config.role = .entry →
      ((s.lane q.lane).state.code = 0 ∨ (s.lane q.lane).state.code = 1 ∨ (s.lane q.lane).state.code = 7
          ∨ (∃ r, (s.lane q.lane).state = .referred r ∧ r.uid = q.uid)
          ∨ (∃ g, (s.lane q.lane).state = .granted g ∧ g.uid = q.uid) →
        exec .tapTake s = .next { s with tapQueue := rest })
      ∧ ((s.lane q.lane).state = .free →
        ∃ t, exec .tapTake s = .next t ∧ showAsked s t q.port ⟨.free, 0⟩ ∧ keepsOtherPorts s t q.port
          ∧ t = { s with tapQueue := rest, ports := t.ports })
      ∧ ((∃ r, (s.lane q.lane).state = .referred r ∧ r.uid ≠ q.uid)
          ∨ (∃ g, (s.lane q.lane).state = .granted g ∧ g.uid ≠ q.uid) ∨ (s.lane q.lane).state.code = 5 →
        ∃ t, exec .tapTake s = .next t
          ∧ unpledgedRecord s t ⟨some q.lane, s.day, s.ms, q.uid, none, .deny .laneBusy .none⟩
          ∧ showAsked s t q.port ⟨.deny .laneBusy, 0⟩ ∧ keepsOtherPorts s t q.port
          ∧ t.lane q.lane = { s.lane q.lane with
              window := (s.lane q.lane).window.map fun w => { w with counts := w.counts.add .denied } }
          ∧ keepsOtherLanes s t q.lane ∧ attnRaised s t 0
          ∧ t = { s with
                    mem := t.mem, attn := t.attn, lanes := t.lanes, ports := t.ports, journal := t.journal
                    tapQueue := rest }
          ∧ keepsBytes s t (fun a => inAppend s a ∨ inField (laneBlockBase q.lane.val + 80) 22 a)))

/-- GRANT_WINDOW and HOLD_LIMIT void the grant once its timer has reached its limit: the marker is NONE, the pledge is
used for the VOID record, VOID is counted, the VOID cue handed (READY's where the map gives NONE for VOID), the lane is
READY with its lock engaged unless EVACUATE is asserted, and the pass entry is otherwise as it was (R71 to R73, R175).
The bytes of a journal record without content are 0 by the model's choice (log entry 52). -/
def Obligations.GrantTimersVoid : Prop :=
  ∀ (s : State) (n : Fin 4) (g : Grant), s.ok → (s.lane n).state = .granted g →
    ∀ c cause, (c = .grantWindow n ∧ cause = VoidCause.window ∧ g.grantWindow ≤ g.windowCount)
        ∨ (c = .holdLimit n ∧ cause = VoidCause.holdLimit ∧ g.holdLimit ≤ s.now - g.tick) →
      ∃ t, exec c s = .next t ∧ (t.lane n).state = .ready none
        ∧ t.peek (passBase g.slot + 31) 1 = 0xFF
        ∧ pledgedRecord s t ⟨some n, s.day, s.ms, g.uid, some g.slot, .void cause⟩
        ∧ countedOnce s t n .void
        ∧ cueHanded s t n (if ((s.lane n).config.cueFor .void).isSome then .void else .ready)
        ∧ lockReleased t n = s.evacuate ∧ attnRaised s t 0
        ∧ t = { s with mem := t.mem, attn := t.attn, lanes := t.lanes, journal := t.journal }
        ∧ keepsOtherLanes s t n ∧ keepsSetup s t n
        ∧ keepsBytes s t (fun a => inAppend s a ∨ a = passBase g.slot + 31 ∨ inLaneMirror n a)

/-- REFERRAL_TIMEOUT once the ticks have reached the referral timeout, and DECLINE_REFERRAL for the card the lane is
REFERRED for: the referral ends denied UNKNOWN, TIMEOUT or DECLINE, with the DENY record, SHOW to the port of the
referral record, the DENY cue in place of READY's, DENIED counted, the lane READY. Any other DECLINE_REFERRAL ends
STALE, and one with a bad lane or UID length BAD_FIELD (R79 to R81).
The bytes of a journal record without content are 0 by the model's choice (log entry 52). -/
def Obligations.ReferralEndsUnknown : Prop :=
  (∀ (s : State) (n : Fin 4) (r : Referral), s.ok → (s.lane n).state = .referred r →
      s.options.referralTimeout ≤ s.now - r.tick →
      ∃ t, exec (.referralTimeout n) s = .next t ∧ (t.lane n).state = .ready none
        ∧ unpledgedRecord s t ⟨some n, s.day, s.ms, r.uid, none, .deny .unknown .timeout⟩
        ∧ showAsked s t r.port ⟨.deny .unknown, 0⟩ ∧ countedOnce s t n .denied
        ∧ cueHanded s t n (if ((s.lane n).config.cueFor .deny).isSome then .deny else .ready) ∧ attnRaised s t 0
        ∧ t = { s with mem := t.mem, attn := t.attn, lanes := t.lanes, ports := t.ports, journal := t.journal }
        ∧ keepsOtherLanes s t n ∧ keepsSetup s t n ∧ keepsOtherPorts s t r.port
        ∧ keepsBytes s t (fun a => inAppend s a ∨ inLaneMirror n a))
    ∧ (∀ (s : State) (k : Fin 32) (n : Fin 4) (r : Referral), s.ok → carries s k 5 →
      s.peek (orderBase k.val + 19) 1 = n.val → (s.lane n).state = .referred r → payloadUid s k = some r.uid →
      ∃ t, exec (.declineReferral k) s = .next t ∧ orderEnded s t k .ok ∧ (t.lane n).state = .ready none
        ∧ unpledgedRecord s t ⟨some n, s.day, s.ms, r.uid, none, .deny .unknown .decline⟩
        ∧ showAsked s t r.port ⟨.deny .unknown, 0⟩ ∧ countedOnce s t n .denied
        ∧ cueHanded s t n (if ((s.lane n).config.cueFor .deny).isSome then .deny else .ready) ∧ attnRaised s t 1
        ∧ t = { s with
                  mem := t.mem, attn := t.attn, sweepNext := t.sweepNext, lanes := t.lanes, ports := t.ports
                  journal := t.journal }
        ∧ keepsOtherLanes s t n ∧ keepsSetup s t n ∧ keepsOtherPorts s t r.port
        ∧ keepsBytes s t (fun a => inOrderEnd k a ∨ inAppend s a ∨ inLaneMirror n a))
    ∧ ∀ (s : State) (k : Fin 32), s.ok → carries s k 5 →
      (3 < s.peek (orderBase k.val + 19) 1 ∨ payloadUid s k = none →
        ∃ t, exec (.declineReferral k) s = .next t ∧ onlyOrder s t k .badField fun _ => False)
      ∧ ∀ (n : Fin 4) (uid : List Byte), s.peek (orderBase k.val + 19) 1 = n.val → payloadUid s k = some uid →
        (∀ r, (s.lane n).state = .referred r → r.uid ≠ uid) →
        ∃ t, exec (.declineReferral k) s = .next t ∧ onlyOrder s t k .stale fun _ => False

/-! ### The sweep and the pass orders -/

/-- SWEEP and the take. A sweep that is due starts at slot 0 while none runs, outside STARTING. A running sweep visits the
slots in ascending order, each visit one command (log entry 4): a slot that is POSTED and has no order in flight is
taken by the row of the order it holds, and SWEEP leaves it to that row; over any other slot SWEEP passes, to the next
slot, and behind slot 31 the sweep ends (R201, R202). An order row for another slot than the one visited takes nothing.
An order of a kind R203 does not name ends FAILED with UNKNOWN_KIND (R202). -/
def Obligations.SweepTakesPostedSlots : Prop :=
  (∀ s : State, s.sweepNext = none →
      (s.sweepDue = true → s.station ≠ .starting →
        exec .sweep s = .next { s with sweepNext := some 0, sweepDue := false })
      ∧ (s.sweepDue = false ∨ s.station = .starting → exec .sweep s = .next s))
    ∧ (∀ (s : State) (k : Fin 32), s.sweepNext = some k →
        let flies :=
          (∃ w, s.withdrawal = some w ∧ w.order.slot = k) ∨ (∃ o ∈ s.withdrawalsWaiting, o.slot = k)
            ∨ (∃ c, s.creditSweep = some c ∧ c.order.slot = k) ∨ (∃ o ∈ s.closuresWaiting, o.slot = k)
            ∨ ∃ o ∈ s.lanesWaiting, o.slot = k
        (orderState s k = 1 ∧ ¬flies → nextOrder s = some k ∧ exec .sweep s = .next s)
        ∧ (orderState s k ≠ 1 ∨ flies → nextOrder s = none
          ∧ ∃ t, exec .sweep s = .next t ∧ t = { s with sweepNext := t.sweepNext }
            ∧ (k.val = 31 → t.sweepNext = none)
            ∧ ∀ j : Fin 32, j.val = k.val + 1 → t.sweepNext = some j))
    ∧ (∀ (s : State) (k : Fin 32) (c : Instr), nextOrder s ≠ some k →
        c ∈ [.insertPass k, .amendPass k, .removePass k, .readPass k, .declineReferral k, .settlePassQuote k
            , .settlePassFinal k, .stageProduct k, .postClosure k, .setTime k, .setLane k, .mapInputs k, .freeFlowOn k
            , .freeFlowOff k, .unknownKind k] →
        exec c s = .next s)
    ∧ ∀ (s : State) (k : Fin 32), s.ok → nextOrder s = some k → orderKind s k = 0 ∨ 12 < orderKind s k →
        ∃ t, exec (.unknownKind k) s = .next t ∧ onlyOrder s t k .unknownKind fun _ => False

/-- INSERT_PASS of a card not in the table, its checks passed and no lane REFERRED for it: the first TOMB or FREE slot of
the sixteen probed becomes LIVE with every field R11 gives, and the order ends OK; a withdrawal scan of the product that has
passed the slot notes it (R7, R9, R11, R12, R23).
Bits that a table gives no meaning are 0 by the model's choice (log entry 54). -/
def Obligations.InsertPassWritesNewEntry : Prop :=
  ∀ (s : State) (k : Fin 32) (uid : List Byte) (slot : Nat), s.ok → carries s k 1 → payloadUid s k = some uid →
    let f := fun off n => s.peek (orderBase k.val + off) n
    let d := s.product (f 19 1)
    f 19 1 ≤ 63 → d.kind ≠ .none → (∀ x ∈ readStaging s.mem, ¬(x.1 = f 19 1 ∧ x.2.kind = .none)) →
    lookup s.mem uid = none → (f 24 2 ≠ 0xFFFF ∨ d.floating = true) → firstVacant s uid slot →
    (∀ n r, (s.lane n).state = .referred r → r.uid ≠ uid) →
    ∃ t, exec (.insertPass k) s = .next t ∧ orderEnded s t k .ok
      ∧ t.pass slot =
        { slotState := 1, uidLength := uid.length, uid := padTo 10 uid, stamp := f 20 2, product := f 19 1
          flags := if (f 29 1).testBit 0 then 1 else 0, issueDay := f 22 2, firstDay := wordOpt (f 24 2)
          lastDay := none, usage := if d.kind = .rides then d.ridesInitial else 0, lastMinute := none
          creditedDay := none, paid := f 26 3, marker := none }
      ∧ t = { s with
                mem := t.mem, attn := s.attn ||| 1#8, sweepNext := slotAfter k
                withdrawal := s.withdrawal.map fun w =>
                  if w.order.index = f 19 1 ∧ slot < w.position then { w with late := true } else w }
      ∧ keepsBytes s t (fun a => inOrderEnd k a ∨ inField (passBase slot) 32 a)

/-- INSERT_PASS of a card in the table, its checks passed and no lane REFERRED for it, updates the entry in place: the
host's fields follow the payload, and the part's are kept without RESET_USAGE and take their initial values with it
(R9, R10, R12). -/
def Obligations.InsertPassUpdatesEntry : Prop :=
  ∀ (s : State) (k : Fin 32) (uid : List Byte) (slot : Nat), s.ok → carries s k 1 → payloadUid s k = some uid →
    let f := fun off n => s.peek (orderBase k.val + off) n
    let d := s.product (f 19 1)
    let e := s.pass slot
    let old := s.product e.product
    let resetUsage := (f 29 1).testBit 1
    let first := if f 24 2 ≠ 0xFFFF then some (f 24 2) else if resetUsage then none else e.firstDay
    f 19 1 ≤ 63 → d.kind ≠ .none → (∀ x ∈ readStaging s.mem, ¬(x.1 = f 19 1 ∧ x.2.kind = .none)) →
    lookup s.mem uid = some slot → (resetUsage = true → e.retired = false ∧ e.marker = none) →
    (resetUsage = false → old.kind = d.kind
      ∧ (d.kind = .days → e.usage % 256 ≤ d.daysBought) ∧ (d.kind = .rides → e.usage ≤ d.ridesInitial)) →
    (first ≠ none ∨ d.floating = true) → (∀ n r, (s.lane n).state = .referred r → r.uid ≠ uid) →
    ∃ t, exec (.insertPass k) s = .next t ∧ orderEnded s t k .ok
      ∧ t.pass slot =
        { e with
          stamp := f 20 2, product := f 19 1, issueDay := f 22 2, paid := f 26 3, firstDay := first
          flags :=
            if resetUsage then setFlag (setFlag (setFlag e.flags 0 ((f 29 1).testBit 0)) 1 false) 2 false
            else setFlag e.flags 0 ((f 29 1).testBit 0)
          usage := if resetUsage then (if d.kind = .rides then d.ridesInitial else 0) else e.usage
          lastDay := if resetUsage then none else e.lastDay
          lastMinute := if resetUsage then none else e.lastMinute
          creditedDay := if resetUsage then none else e.creditedDay
          marker := if resetUsage then none else e.marker }
      ∧ t = { s with
                mem := t.mem, attn := s.attn ||| 1#8, sweepNext := slotAfter k
                withdrawal := s.withdrawal.map fun w =>
                  if w.order.index = f 19 1 ∧ slot < w.position then { w with late := true } else w }
      ∧ keepsBytes s t (fun a => inOrderEnd k a ∨ inField (passBase slot) 32 a)

/-- INSERT_PASS re-evaluates, in the same event, the referral a lane holds for its card, whether the card was new or found
in the table: with checks 5 to 14 of R61 passed against the entry just written and an unpledged room of at least 5 the
lane is granted as by R68, with the grant record of R67 and the SHOW GRANT value of R70; with the room below 5 it is
denied JOURNAL_FULL, and otherwise denied with the failing check's reason; a denial ends INSERT and leaves the lane
READY. Of two lanes REFERRED for the card the lower decides first, and where it is granted the other is denied IN_USE.
The order ends OK either way (R9 to R12, R67, R68, R70, R78, R79).
The bytes of a journal record without content are 0 by the model's choice (log entry 52).
Bits that a table gives no meaning are 0 by the model's choice (log entry 54). -/
def Obligations.InsertPassDecidesReferral : Prop :=
  ∀ (s : State) (k : Fin 32) (uid : List Byte) (slot : Nat) (n : Fin 4) (r : Referral) (e : PassEntry), s.ok →
    carries s k 1 → payloadUid s k = some uid →
    let f := fun off len => s.peek (orderBase k.val + off) len
    let d := s.product (f 19 1)
    let old := s.pass slot
    let resetUsage := (f 29 1).testBit 1
    let initial := if d.kind = .rides then d.ridesInitial else 0
    let first := if f 24 2 ≠ 0xFFFF then some (f 24 2) else if resetUsage then none else old.firstDay
    f 19 1 ≤ 63 → d.kind ≠ .none → (∀ x ∈ readStaging s.mem, ¬(x.1 = f 19 1 ∧ x.2.kind = .none)) →
    (lookup s.mem uid = none ∧ (f 24 2 ≠ 0xFFFF ∨ d.floating = true) ∧ firstVacant s uid slot
        ∧ e =
          { slotState := 1, uidLength := uid.length, uid := padTo 10 uid, stamp := f 20 2, product := f 19 1
            flags := if (f 29 1).testBit 0 then 1 else 0, issueDay := f 22 2, firstDay := wordOpt (f 24 2)
            lastDay := none, usage := initial, lastMinute := none, creditedDay := none, paid := f 26 3, marker := none })
      ∨ (lookup s.mem uid = some slot ∧ (resetUsage = true → old.retired = false ∧ old.marker = none)
        ∧ (resetUsage = false → (s.product old.product).kind = d.kind
          ∧ (d.kind = .days → old.usage % 256 ≤ d.daysBought) ∧ (d.kind = .rides → old.usage ≤ d.ridesInitial))
        ∧ (first ≠ none ∨ d.floating = true)
        ∧ e =
          { old with
            stamp := f 20 2, product := f 19 1, issueDay := f 22 2, paid := f 26 3, firstDay := first
            flags :=
              if resetUsage then setFlag (setFlag (setFlag old.flags 0 ((f 29 1).testBit 0)) 1 false) 2 false
              else setFlag old.flags 0 ((f 29 1).testBit 0)
            usage := if resetUsage then initial else old.usage
            lastDay := if resetUsage then none else old.lastDay
            lastMinute := if resetUsage then none else old.lastMinute
            creditedDay := if resetUsage then none else old.creditedDay
            marker := if resetUsage then none else old.marker }) →
    (s.lane n).state = .referred r → r.uid = uid →
    let withdrawal := s.withdrawal.map fun w =>
      if w.order.index = f 19 1 ∧ slot < w.position then { w with late := true } else w
    let granted := fun t : State =>
      (t.lane n).state = .granted
          { slot := slot, uid := uid, tick := s.now
            willConsume := decide (d.kind = .days) && decide (e.lastDay ≠ some s.day), windowCount := 0
            grantWindow := (s.lane n).config.grantWindow, holdLimit := (s.lane n).config.holdLimit, exitBlocks := 0 }
        ∧ t.pass slot = { e with marker := some n.val } ∧ cueHanded s t n .grant ∧ lockReleased t n = true
        ∧ (t.lane n).window = (s.lane n).window
        ∧ showAsked s t r.port ⟨.grant,
            match d.kind with
            | .days => if e.lastDay = some s.day then d.daysBought - e.usage % 256 else d.daysBought - e.usage % 256 - 1
            | .rides => e.usage - 1
            | _ => 0⟩
    let denied := fun (before t : State) (m : Fin 4) (q : Referral) (reason : DenyReason) =>
      (t.lane m).state = .ready none ∧ showAsked s t q.port ⟨.deny reason, 0⟩ ∧ countedOnce s t m .denied
        ∧ cueHanded s t m (if ((s.lane m).config.cueFor .deny).isSome then .deny else .ready)
        ∧ unpledgedRecord before t ⟨some m, s.day, s.ms, uid, some slot, .deny reason .insert⟩
    let frame := fun t : State =>
      orderEnded s t k .ok ∧ attnRaised s t 1
        ∧ t = { s with
                  mem := t.mem, attn := t.attn, sweepNext := t.sweepNext, lanes := t.lanes, ports := t.ports
                  journal := t.journal, withdrawal := withdrawal }
    ((∀ m q, m ≠ n → (s.lane m).state = .referred q → q.uid ≠ uid) →
      ∃ t, exec (.insertPass k) s = .next t ∧ frame t ∧ keepsOtherLanes s t n ∧ keepsSetup s t n
        ∧ keepsOtherPorts s t r.port
        ∧ keepsBytes s t (fun a => inOrderEnd k a ∨ inField (passBase slot) 32 a ∨ inAppend s a ∨ inLaneMirror n a)
        ∧ (firstFailure (entryChecks s e d r.stamp) = none → 5 ≤ s.journal.room →
            granted t ∧ t.journal = { s.journal with pledges := s.journal.pledges + 1 })
        ∧ ∀ reason,
            (firstFailure (entryChecks s e d r.stamp) = none ∧ s.journal.room < 5 ∧ reason = .journalFull)
              ∨ firstFailure (entryChecks s e d r.stamp) = some reason →
            denied s t n r reason ∧ t.pass slot = e)
    ∧ ∀ (m : Fin 4) (q : Referral), n < m → (s.lane m).state = .referred q → q.uid = uid → q.stamp = r.stamp →
      q.port ≠ r.port → (∀ l x, l ≠ n → l ≠ m → (s.lane l).state = .referred x → x.uid ≠ uid) →
      firstFailure (entryChecks s e d r.stamp) = none → 5 ≤ s.journal.room →
      let pledged : State := { s with journal := { s.journal with pledges := s.journal.pledges + 1 } }
      ∃ t, exec (.insertPass k) s = .next t ∧ frame t ∧ granted t ∧ denied pledged t m q .inUse ∧ keepsSetup s t n ∧ keepsSetup s t m
        ∧ (∀ l, l ≠ n → l ≠ m → t.lane l = s.lane l) ∧ (∀ p, p ≠ r.port → p ≠ q.port → t.port p = s.port p)
        ∧ keepsBytes s t (fun a => inOrderEnd k a ∨ inField (passBase slot) 32 a ∨ inAppend s a ∨ inLaneMirror n a
            ∨ inLaneMirror m a)

/-- INSERT_PASS refuses in the order of R9: a UID length, a product index or a product that is none or under withdrawal
fails BAD_FIELD; a RETIRED or held entry under RESET_USAGE fails RETIRED or IN_USE; another kind without it
KIND_MISMATCH; a full probe TABLE_CROWDED. A refused order changes nothing but its slot (R8, R9). -/
def Obligations.InsertPassRefusals : Prop :=
  ∀ (s : State) (k : Fin 32), s.ok → carries s k 1 →
    let f := fun off n => s.peek (orderBase k.val + off) n
    let d := s.product (f 19 1)
    let refused := fun (r : Result) => ∃ t, exec (.insertPass k) s = .next t ∧ onlyOrder s t k r fun _ => False
    (payloadUid s k = none → refused .badField)
    ∧ ∀ uid, payloadUid s k = some uid →
      (63 < f 19 1 ∨ d.kind = .none ∨ (∃ x ∈ readStaging s.mem, x.1 = f 19 1 ∧ x.2.kind = .none) → refused .badField)
      ∧ (f 19 1 ≤ 63 → d.kind ≠ .none → (∀ x ∈ readStaging s.mem, ¬(x.1 = f 19 1 ∧ x.2.kind = .none)) →
        (∀ slot, lookup s.mem uid = some slot → (f 29 1).testBit 1 = true → (s.pass slot).retired = true →
          refused .retired)
        ∧ (∀ slot, lookup s.mem uid = some slot → (f 29 1).testBit 1 = true → (s.pass slot).retired = false →
          (s.pass slot).marker ≠ none → refused .inUse)
        ∧ (∀ slot, lookup s.mem uid = some slot → (f 29 1).testBit 1 = false →
          (s.product (s.pass slot).product).kind ≠ d.kind → refused .kindMismatch)
        ∧ (∀ slot, lookup s.mem uid = some slot → (f 29 1).testBit 1 = false →
          (s.product (s.pass slot).product).kind = d.kind →
          (d.kind = .days ∧ d.daysBought < (s.pass slot).usage % 256)
            ∨ (d.kind = .rides ∧ d.ridesInitial < (s.pass slot).usage) → refused .badField)
        ∧ (∀ slot, lookup s.mem uid = some slot →
          (if (f 29 1).testBit 1 then (s.pass slot).retired = false ∧ (s.pass slot).marker = none
           else (s.product (s.pass slot).product).kind = d.kind ∧ (s.pass slot).firstDay = none
             ∧ (d.kind = .days → (s.pass slot).usage % 256 ≤ d.daysBought)
             ∧ (d.kind = .rides → (s.pass slot).usage ≤ d.ridesInitial)) →
          f 24 2 = 0xFFFF → d.floating = false → refused .badField)
        ∧ (lookup s.mem uid = none → f 24 2 = 0xFFFF → d.floating = false → refused .badField)
        ∧ (lookup s.mem uid = none → (f 24 2 ≠ 0xFFFF ∨ d.floating = true) →
          (∀ i < 16, slotStateOf s.mem (probed uid i) = 1) →
          refused .tableCrowded))

/-- AMEND_PASS sets or clears BLOCKED as asked, replaces the stamp when a new one is given, and leaves every other field
of the entry and everything else alone; an unknown action fails BAD_FIELD and a miss NOT_FOUND (R13). -/
def Obligations.AmendPassChangesEntry : Prop :=
  ∀ (s : State) (k : Fin 32) (uid : List Byte) (slot : Nat), s.ok → carries s k 2 → payloadUid s k = some uid →
    let f := fun off n => s.peek (orderBase k.val + off) n
    (2 < f 19 1 → ∃ t, exec (.amendPass k) s = .next t ∧ onlyOrder s t k .badField fun _ => False)
    ∧ (f 19 1 ≤ 2 → lookup s.mem uid = none →
      ∃ t, exec (.amendPass k) s = .next t ∧ onlyOrder s t k .notFound fun _ => False)
    ∧ (f 19 1 ≤ 2 → lookup s.mem uid = some slot →
      ∃ t, exec (.amendPass k) s = .next t
        ∧ onlyOrder s t k .ok (fun a => inField (passBase slot + 12) 2 a ∨ a = passBase slot + 15)
        ∧ t.pass slot = { s.pass slot with
            stamp := if f 20 1 = 0 then (s.pass slot).stamp else f 21 2
            flags :=
              if f 19 1 = 1 then (s.pass slot).flags ||| 1#8
              else if f 19 1 = 2 then (s.pass slot).flags &&& 0xFE#8 else (s.pass slot).flags })

/-- The lookup that every pass order and every tap makes: a slot is found where it is the first of the sixteen probed from
the UID's home slot that is LIVE with the UID sought, no FREE slot standing before it; TOMB slots and other LIVE entries
are passed over, and where there is no such slot the lookup misses (R5, R6; a slot state above 2 is passed over as TOMB
is, log entry 16). REMOVE_PASS of a pass no lane holds makes its slot TOMB and keeps the slot's other bytes; a held one
fails IN_USE, and a miss NOT_FOUND (R14). READ_PASS copies the 32 bytes of the entry and the slot number into the result
area and changes no entry; a miss fails NOT_FOUND (R15). -/
def Obligations.RemoveAndReadPass : Prop :=
  (∀ (s : State) (uid : List Byte),
    let is := fun i => slotStateOf s.mem (probed uid i) = 1 ∧ s.peek (passBase (probed uid i) + 1) 1 = uid.length
      ∧ s.mem.readBytes (passBase (probed uid i) + 2) uid.length = uid
    let found := fun i => i < 16 ∧ is i ∧ ∀ j < i, slotStateOf s.mem (probed uid j) ≠ 0 ∧ ¬is j
    (∀ i, found i → lookup s.mem uid = some (probed uid i)) ∧ ((∀ i, ¬found i) → lookup s.mem uid = none))
  ∧ ∀ (s : State) (k : Fin 32) (uid : List Byte), s.ok → payloadUid s k = some uid →
    (∀ (c : Instr) (kind : Nat), (c, kind) ∈ [(Instr.removePass k, 3), (Instr.readPass k, 4)] → carries s k kind →
      lookup s.mem uid = none → ∃ t, exec c s = .next t ∧ onlyOrder s t k .notFound fun _ => False)
    ∧ ∀ slot, lookup s.mem uid = some slot →
      (carries s k 3 →
        ((s.pass slot).marker = none →
          ∃ t, exec (.removePass k) s = .next t ∧ onlyOrder s t k .ok (fun a => a = passBase slot)
            ∧ slotStateOf t.mem slot = 2)
        ∧ ((s.pass slot).marker ≠ none →
          ∃ t, exec (.removePass k) s = .next t ∧ onlyOrder s t k .inUse fun _ => False))
      ∧ (carries s k 4 →
        ∃ t, exec (.readPass k) s = .next t ∧ onlyOrder s t k .ok (inField (orderBase k.val + 32) 34)
          ∧ t.mem.readBytes (orderBase k.val + 32) 32 = s.mem.readBytes (passBase slot) 32
          ∧ t.peek (orderBase k.val + 64) 2 = slot)

/-- Refusals that change nothing but the slot. AMEND_PASS, REMOVE_PASS and READ_PASS fail BAD_FIELD on a UID length other
than 4, 7 or 10, before any lookup (R8). SET_TIME fails BAD_FIELD on a time that is none, and TIME_BACKWARD on an
earlier time outside QUIET (R33, R35). -/
def Obligations.OrderRefusalsChangeSlotOnly : Prop :=
  (∀ (s : State) (k : Fin 32) (c : Instr) (kind : Nat), s.ok →
    (c, kind) ∈ [(Instr.amendPass k, 2), (Instr.removePass k, 3), (Instr.readPass k, 4)] → carries s k kind →
    payloadUid s k = none → ∃ t, exec c s = .next t ∧ onlyOrder s t k .badField fun _ => False)
  ∧ ∀ (s : State) (k : Fin 32), s.ok → carries s k 9 →
    let day := s.peek (orderBase k.val + 8) 2
    let ms := s.peek (orderBase k.val + 10) 4
    (day = 65535 ∨ 86400000 ≤ ms →
      ∃ t, exec (.setTime k) s = .next t ∧ onlyOrder s t k .badField fun _ => False)
    ∧ (day < 65535 → ms < 86400000 → s.station ≠ .quiet → day < s.day ∨ (day = s.day ∧ ms < s.ms) →
      ∃ t, exec (.setTime k) s = .next t ∧ onlyOrder s t k .timeBackward fun _ => False)

/-! ### Settlement by order -/

/-- SETTLE_PASS QUOTE of a pass that passes checks 1, 3, 4, 6 and 7 of R149: the result area holds the figures R150 to
R154 give, PROVISIONAL with the holding lane where the marker is not NONE; nothing else changes (R149 to R157).
That byte 67 of the slot stands, and that bits a table gives no meaning are 0, is the model's choice (log entries 53, 54). -/
def Obligations.SettleQuoteGivesFigures : Prop :=
  ∀ (s : State) (k : Fin 32) (uid : List Byte) (slot phi : Nat), s.ok → carries s k 6 →
    s.peek (orderBase k.val + 19) 1 = 1 → payloadUid s k = some uid → lookup s.mem uid = some slot →
    let e := s.pass slot
    let d := s.product e.product
    e.blocked = false → e.retired = false → d.refundable = true → d.kind = .days ∨ d.kind = .rides →
    let lastDay : Int :=
      match e.firstDay with
      | some f => f + d.span - 1
      | none => e.issueDay + d.activation - 1
    (s.day ≤ lastDay ∧ phi = 1000) ∨ (lastDay < s.day ∧ s.day ≤ lastDay + d.deadline ∧ phi = d.late) →
    let n := if d.kind = .days then e.usage % 256 - e.usage / 256 else min e.usage d.ridesInitial
    let gross := if d.kind = .days then e.paid - d.price n else e.paid * n / d.ridesInitial
    let scaled := gross * phi / 1000
    ∃ t, exec (.settlePassQuote k) s = .next t
      ∧ onlyOrder s t k .ok (inField (orderBase k.val + 32) 35)
      ∧ let g := fun off len => t.peek (orderBase k.val + off) len
        g 32 2 = slot ∧ g 34 1 = (if d.kind = .days then 1 else 2)
        ∧ g 35 1 = (if e.marker = none then 0 else 1) ∧ g 36 1 = e.marker.getD 0xFF ∧ g 37 3 = e.paid
        ∧ g 40 2 = n ∧ g 42 3 = (if d.kind = .days then d.price n else d.ridesInitial)
        ∧ (g 45 4 : Int) = lastDay % 4294967296 ∧ g 49 2 = phi ∧ g 51 3 = gross % 16777216
        ∧ g 54 3 = scaled % 16777216 ∧ g 57 3 = (scaled - d.fee) % 16777216 ∧ g 60 2 = d.fee
        ∧ g 62 2 = d.rounding ∧ g 64 3 = refundOf gross phi d.fee d.rounding % 16777216

/-- SETTLE_PASS FINAL with room for its pledge, of a pass no lane holds that passes the checks of R149: RETIRED is set,
a REFUND record of path ORDER is placed in the Journal by a pledge taken and used at once, and the whole result area is
written as for a QUOTE, PROVISIONAL clear and no holding lane (R150 to R154, R158, R208).
The bytes of a journal record without content are 0 by the model's choice (log entry 52).
That byte 67 of the slot stands, and that bits a table gives no meaning are 0, is the model's choice (log entries 53, 54). -/
def Obligations.SettleFinalRetiresPass : Prop :=
  ∀ (s : State) (k : Fin 32) (uid : List Byte) (slot phi : Nat), s.ok → carries s k 6 →
    s.peek (orderBase k.val + 19) 1 = 2 → payloadUid s k = some uid → 5 ≤ s.journal.room →
    lookup s.mem uid = some slot →
    let e := s.pass slot
    let d := s.product e.product
    e.blocked = false → e.retired = false → e.marker = none → d.refundable = true →
    d.kind = .days ∨ d.kind = .rides →
    let lastDay : Int :=
      match e.firstDay with
      | some f => f + d.span - 1
      | none => e.issueDay + d.activation - 1
    (s.day ≤ lastDay ∧ phi = 1000) ∨ (lastDay < s.day ∧ s.day ≤ lastDay + d.deadline ∧ phi = d.late) →
    let n := if d.kind = .days then e.usage % 256 - e.usage / 256 else min e.usage d.ridesInitial
    let gross := if d.kind = .days then e.paid - d.price n else e.paid * n / d.ridesInitial
    let scaled := gross * phi / 1000
    ∃ t, exec (.settlePassFinal k) s = .next t ∧ orderEnded s t k .ok
      ∧ t.pass slot = { e with flags := e.flags ||| 2#8 }
      ∧ t.journal.pledges = s.journal.pledges ∧ t.journal.readIndex = s.journal.readIndex
      ∧ recordPlaced s t ⟨none, s.day, s.ms, uid, some slot,
          .refund false n phi (refundOf gross phi d.fee d.rounding)⟩
      ∧ (let g := fun off len => t.peek (orderBase k.val + off) len
        g 32 2 = slot ∧ g 34 1 = (if d.kind = .days then 1 else 2) ∧ g 35 1 = 0 ∧ g 36 1 = 0xFF ∧ g 37 3 = e.paid
        ∧ g 40 2 = n ∧ g 42 3 = (if d.kind = .days then d.price n else d.ridesInitial)
        ∧ (g 45 4 : Int) = lastDay % 4294967296 ∧ g 49 2 = phi ∧ g 51 3 = gross % 16777216
        ∧ g 54 3 = scaled % 16777216 ∧ g 57 3 = (scaled - d.fee) % 16777216 ∧ g 60 2 = d.fee
        ∧ g 62 2 = d.rounding ∧ g 64 3 = refundOf gross phi d.fee d.rounding % 16777216)
      ∧ attnRaised s t 1
      ∧ t = { s with mem := t.mem, attn := t.attn, sweepNext := t.sweepNext, journal := t.journal }
      ∧ keepsBytes s t (fun a => inOrderEnd k a ∨ inField (orderBase k.val + 32) 35 a
          ∨ a = passBase slot + 15 ∨ inAppend s a)

/-- SETTLE_PASS refusals change nothing but the slot: a mode that is neither QUOTE nor FINAL (under the row
SETTLE_PASS_QUOTE, the model's choice, log entry 28) or a bad UID length BAD_FIELD, too little room for a FINAL JOURNAL_FULL before the lookup, a miss NOT_FOUND, then BLOCKED, RETIRED, IN_USE
for a FINAL of a held pass, NOT_REFUNDABLE (R149, R156, R158). -/
def Obligations.SettleRefusals : Prop :=
  ∀ (s : State) (k : Fin 32) (c : Instr), s.ok → carries s k 6 →
    let mode := s.peek (orderBase k.val + 19) 1
    c = (if mode = 2 then .settlePassFinal k else .settlePassQuote k) →
    let refused := fun (r : Result) => ∃ t, exec c s = .next t ∧ onlyOrder s t k r fun _ => False
    (mode ≠ 1 ∧ mode ≠ 2 ∨ payloadUid s k = none → refused .badField)
    ∧ ∀ uid, payloadUid s k = some uid → (mode = 1 ∨ mode = 2) →
      (mode = 2 → s.journal.room < 5 → refused .journalFull)
      ∧ ((mode = 2 → 5 ≤ s.journal.room) →
        (lookup s.mem uid = none → refused .notFound)
        ∧ ∀ slot, lookup s.mem uid = some slot →
          ((s.pass slot).blocked = true → refused .blocked)
          ∧ ((s.pass slot).blocked = false → (s.pass slot).retired = true → refused .retired)
          ∧ ((s.pass slot).blocked = false → (s.pass slot).retired = false → mode = 2 →
            (s.pass slot).marker ≠ none → refused .inUse)
          ∧ ((s.pass slot).blocked = false → (s.pass slot).retired = false → (mode = 2 → (s.pass slot).marker = none) →
            let d := s.product (s.pass slot).product
            let lastDay : Int :=
              match (s.pass slot).firstDay with
              | some f => f + d.span - 1
              | none => (s.pass slot).issueDay + d.activation - 1
            d.refundable = false ∨ (d.kind ≠ .days ∧ d.kind ≠ .rides)
              ∨ (lastDay < s.day ∧ lastDay + d.deadline < s.day) → refused .notRefundable))

/-! ### Products -/

/-- STAGE_PRODUCT of a definition whose fields pass R19: with IMMEDIATE in QUIET the record stands at once at its index,
each field the kind does not use 0 (R17), and no staged record is left for the index; without IMMEDIATE, room in the Staging Area, the record
replaces the staged one for its index in place or joins the end, and the Product Table is not touched (R17, R19 to R21).
That the station mask is stored as posted, bit 31 unchecked, is the model's reading (log entry 17). -/
def Obligations.StageProductPlacesRecord : Prop :=
  ∀ (s : State) (k : Fin 32), s.ok → carries s k 7 →
    let f := fun off n => s.peek (orderBase k.val + off) n
    let index := f 8 1
    let new := readProductAt s.mem (orderBase k.val + 10)
    let old := s.product index
    let staged := readStaging s.mem
    let days := new.kind = .days
    let season := new.kind = .season
    let stored : Product :=
      { kind := new.kind, floating := new.floating, refundable := decide ¬season && new.refundable
        daysBought := if days then new.daysBought else 0, span := new.span
        activation := if new.floating then new.activation else 0
        ridesInitial := if new.kind = .rides then new.ridesInitial else 0, mask := new.mask
        openMinute := new.openMinute, closeMinute := new.closeMinute, passback := new.passback
        cutoff := if days then new.cutoff else 0, fee := if season then 0 else new.fee
        rounding := if season then 0 else new.rounding, late := if season then 0 else new.late
        deadline := if season then 0 else new.deadline
        ladder := (List.range 14).map fun i => if days ∧ i < new.daysBought then new.price (i + 1) else 0 }
    index ≤ 63 → 1 ≤ f 10 1 → f 10 1 ≤ 3 → 1 ≤ new.span → new.span ≤ 255 →
    (new.floating = true → 1 ≤ new.activation ∧ new.activation ≤ 365) → new.openMinute ≤ 1410 →
    30 ≤ new.closeMinute → new.closeMinute ≤ 1440 → new.openMinute + 30 ≤ new.closeMinute → new.passback ≤ 120 →
    (new.kind = .days → 1 ≤ new.daysBought ∧ new.daysBought ≤ 14 ∧ new.cutoff ≤ 1440
      ∧ ∀ i, 1 ≤ i → i < new.daysBought → new.price i ≤ new.price (i + 1)) →
    (new.kind = .rides → 1 ≤ new.ridesInitial ∧ new.ridesInitial ≤ 500) →
    (new.kind ≠ .season → 1 ≤ new.rounding ∧ new.rounding ≤ 10000 ∧ new.late ≤ 1000 ∧ new.deadline ≤ 365) →
    (old.kind ≠ .none → old.kind = new.kind) → (old.kind = .days → old.daysBought ≤ new.daysBought) →
    (old.kind = .rides → old.ridesInitial ≤ new.ridesInitial) →
    ((f 9 1).testBit 0 = true → s.station = .quiet →
      ∃ t, exec (.stageProduct k) s = .next t
        ∧ onlyOrder s t k .ok (fun a => inField (productBase index) 128 a ∨ inField (stagingBase 0) 1024 a)
        ∧ t.product index = stored
        ∧ readStaging t.mem = staged.filter fun x => x.1 ≠ index)
    ∧ ((f 9 1).testBit 0 = false → (∃ x ∈ staged, x.1 = index) ∨ staged.length < 8 →
      ∃ t, exec (.stageProduct k) s = .next t ∧ onlyOrder s t k .ok (inField (stagingBase 0) 1024)
        ∧ readStaging t.mem =
          if (∃ x ∈ staged, x.1 = index) then staged.map fun x => if x.1 = index then (index, stored) else x
          else staged ++ [(index, stored)])

/-- STAGE_PRODUCT that places no definition. Refusals change nothing but the slot and come in the order of R19: an index
above 63, an undefined kind, or a field that the kind uses outside its range BAD_FIELD; hours that are shorter than 30
minutes WINDOW_SHAPE; a ladder that decreases up to the days bought LADDER_ORDER; another kind than in force KIND_CHANGE
and a lower allowance DAYS_LOWERED; IMMEDIATE outside QUIET NOT_QUIET and a full Staging Area with no record for the
index STAGE_FULL, for a definition and for a withdrawal, of a product in force with no scan running (R17, R19, R22). A
withdrawal of a product in force that passes starts the scan, the order staying TAKEN, and waits while another scan runs;
one of a product already NONE is placed at once, by R21 or R20, and ends OK, even while a scan runs (R20 to R22). The
model's readings: bit 31 of a station mask is in no way of a definition (log entry 17), and a close minute above 1,440,
which steps 3 and 4 of R19 both name, fails BAD_FIELD (log entry 18). -/
def Obligations.StageProductRefusesOrScans : Prop :=
  ∀ (s : State) (k : Fin 32), s.ok → carries s k 7 →
    let f := fun off n => s.peek (orderBase k.val + off) n
    let index := f 8 1
    let new := readProductAt s.mem (orderBase k.val + 10)
    let old := s.product index
    let staged := readStaging s.mem
    let refused := fun (r : Result) => ∃ t, exec (.stageProduct k) s = .next t ∧ onlyOrder s t k r fun _ => False
    let inBounds := 1 ≤ new.span ∧ new.span ≤ 255
      ∧ (new.floating = true → 1 ≤ new.activation ∧ new.activation ≤ 365) ∧ new.openMinute ≤ 1410
      ∧ 30 ≤ new.closeMinute ∧ new.closeMinute ≤ 1440 ∧ new.passback ≤ 120
      ∧ (new.kind = .days → 1 ≤ new.daysBought ∧ new.daysBought ≤ 14 ∧ new.cutoff ≤ 1440)
      ∧ (new.kind = .rides → 1 ≤ new.ridesInitial ∧ new.ridesInitial ≤ 500)
      ∧ (new.kind ≠ .season → 1 ≤ new.rounding ∧ new.rounding ≤ 10000 ∧ new.late ≤ 1000 ∧ new.deadline ≤ 365)
    let open30 := new.openMinute + 30 ≤ new.closeMinute
    let rising := new.kind = .days → ∀ i, 1 ≤ i → i < new.daysBought → new.price i ≤ new.price (i + 1)
    let lowered := (old.kind = .days ∧ new.daysBought < old.daysBought)
      ∨ (old.kind = .rides ∧ new.ridesInitial < old.ridesInitial)
    let full := (f 9 1).testBit 0 = false ∧ staged.length = 8 ∧ ∀ x ∈ staged, x.1 ≠ index
    (63 < index ∨ 3 < f 10 1 → refused .badField)
    ∧ (index ≤ 63 → 1 ≤ f 10 1 → f 10 1 ≤ 3 →
        (¬inBounds → refused .badField)
        ∧ (inBounds → ¬open30 → refused .windowShape)
        ∧ (inBounds → open30 → ¬rising → refused .ladderOrder)
        ∧ (inBounds → open30 → rising →
          (old.kind ≠ .none → new.kind ≠ old.kind → refused .kindChange)
          ∧ (new.kind = old.kind → lowered → refused .daysLowered)
          ∧ (old.kind = .none ∨ (new.kind = old.kind ∧ ¬lowered) →
            ((f 9 1).testBit 0 = true → s.station ≠ .quiet → refused .notQuiet) ∧ (full → refused .stageFull))))
    ∧ (index ≤ 63 → f 10 1 = 0 → old.kind = .none →
        ((f 9 1).testBit 0 = true → s.station = .quiet →
          ∃ t, exec (.stageProduct k) s = .next t
            ∧ onlyOrder s t k .ok (fun a => inField (productBase index) 128 a ∨ inField (stagingBase 0) 1024 a)
            ∧ t.product index = .withdrawn ∧ readStaging t.mem = staged.filter fun x => x.1 ≠ index)
        ∧ ((f 9 1).testBit 0 = false → (∃ x ∈ staged, x.1 = index) ∨ staged.length < 8 →
          ∃ t, exec (.stageProduct k) s = .next t ∧ onlyOrder s t k .ok (inField (stagingBase 0) 1024)
            ∧ readStaging t.mem =
              if (∃ x ∈ staged, x.1 = index) then staged.map fun x => if x.1 = index then (index, .withdrawn) else x
              else staged ++ [(index, .withdrawn)]))
    ∧ (index ≤ 63 → f 10 1 = 0 → s.withdrawal = none ∨ old.kind = .none →
        ((f 9 1).testBit 0 = true → s.station ≠ .quiet → refused .notQuiet)
        ∧ (full → refused .stageFull)
        ∧ (old.kind ≠ .none → ((f 9 1).testBit 0 = true → s.station = .quiet) →
          ((f 9 1).testBit 0 = false → staged.length < 8 ∨ ∃ x ∈ staged, x.1 = index) →
          ∃ t, exec (.stageProduct k) s = .next t ∧ orderState t k = 2
            ∧ t = { s with
                      mem := t.mem, sweepNext := slotAfter k
                      withdrawal := some ⟨⟨k, index, (f 9 1).testBit 0⟩, 0, false, false, s.now⟩ }
            ∧ keepsBytes s t (inField (orderBase k.val) 2)))
    ∧ (index ≤ 63 → f 10 1 = 0 → old.kind ≠ .none → s.withdrawal ≠ none →
      ∃ t, exec (.stageProduct k) s = .next t ∧ orderState t k = 2
        ∧ t = { s with
                  mem := t.mem, sweepNext := slotAfter k
                  withdrawalsWaiting := s.withdrawalsWaiting ++ [⟨k, index, (f 9 1).testBit 0⟩] }
        ∧ keepsBytes s t (inField (orderBase k.val) 2))

/-- WITHDRAWAL_SCAN, the visit due at this tick, one slot (log entry 44): a LIVE slot that names the product fails the order
IN_USE; otherwise the scan goes on with the next slot, and behind slot 6,143 it makes a final pass after a late reference
noted in the first, fails IN_USE after one noted in the final pass, and a clean end places the withdrawal and ends OK, or
fails STAGE_FULL where the Staging Area has no room (R23). In the event of an end the waiting withdrawals start, in the
order of their slots, until one starts its scan (R22). An ended order's kind byte stays as it stands (log entry 47). -/
def Obligations.WithdrawalScanSteps : Prop :=
  ∀ (s : State) (w : WithdrawalScan), s.ok → s.withdrawal = some w →
    w.order.index ≤ 63 → w.start + w.position / 512 + 1 ≤ s.now → orderState s w.order.slot = 2 →
    w.position ≤ 6143 →
    let found := slotStateOf s.mem w.position = 1 ∧ (s.pass w.position).product = w.order.index
    let k := w.order.slot
    ((found ∨ (¬found ∧ w.position = 6143 ∧ w.late = true ∧ w.finalPass = true) → s.withdrawalsWaiting = [] →
      ∃ t, exec .withdrawalScan s = .next t ∧ orderState t k = 4 ∧ t.peek (orderBase k.val + 3) 1 = 3
        ∧ t = { s with mem := t.mem, attn := s.attn ||| 1#8, withdrawal := none }
        ∧ keepsBytes s t (inOrderEnd k))
    ∧ (¬found → w.position < 6143 →
      exec .withdrawalScan s = .next { s with withdrawal := some { w with position := w.position + 1 } })
    ∧ (¬found → w.position = 6143 → w.late = true → w.finalPass = false →
      exec .withdrawalScan s = .next { s with withdrawal := some ⟨w.order, 0, true, false, s.now⟩ })
    ∧ (¬found → w.position = 6143 → w.late = false → s.withdrawalsWaiting = [] →
      (w.order.immediate = false → (readStaging s.mem).length < 8 ∨ ∃ x ∈ readStaging s.mem, x.1 = w.order.index) →
      ∃ t, exec .withdrawalScan s = .next t ∧ orderState t k = 3 ∧ t.peek (orderBase k.val + 3) 1 = 0
        ∧ t = { s with mem := t.mem, attn := s.attn ||| 1#8, withdrawal := none }
        ∧ (w.order.immediate = true → (t.product w.order.index).kind = .none
            ∧ readStaging t.mem = (readStaging s.mem).filter (fun x => x.1 ≠ w.order.index))
        ∧ (w.order.immediate = false → (∃ x ∈ readStaging t.mem, x.1 = w.order.index ∧ x.2 = .withdrawn)
            ∧ ∀ i ≤ 63, t.product i = s.product i)
        ∧ keepsBytes s t (fun a => inOrderEnd k a ∨ inField (productBase w.order.index) 128 a
            ∨ inField (stagingBase 0) 1024 a))
    ∧ (¬found → w.position = 6143 → w.late = false → s.withdrawalsWaiting = [] → w.order.immediate = false →
      (readStaging s.mem).length = 8 → (∀ x ∈ readStaging s.mem, x.1 ≠ w.order.index) →
      ∃ t, exec .withdrawalScan s = .next t ∧ orderState t k = 4 ∧ t.peek (orderBase k.val + 3) 1 = 9
        ∧ t = { s with mem := t.mem, attn := s.attn ||| 1#8, withdrawal := none }
        ∧ keepsBytes s t (inOrderEnd k))
    ∧ ∀ o ∈ s.withdrawalsWaiting, found → o.index ≤ 63 → (s.product o.index).kind ≠ .none → o.slot ≠ k →
      (o.immediate = true → s.station = .quiet) →
      (o.immediate = false → (readStaging s.mem).length < 8 ∨ ∃ x ∈ readStaging s.mem, x.1 = o.index) →
      (s.withdrawalsWaiting.map (·.slot)).Nodup → (∀ x ∈ s.withdrawalsWaiting, x ≠ o → o.slot < x.slot) →
      ∃ t, exec .withdrawalScan s = .next t ∧ orderState t k = 4 ∧ t.peek (orderBase k.val + 3) 1 = 3
        ∧ t = { s with
                  mem := t.mem, attn := s.attn ||| 1#8, withdrawal := some ⟨o, 0, false, false, s.now⟩
                  withdrawalsWaiting := t.withdrawalsWaiting }
        ∧ (∀ x, x ∈ t.withdrawalsWaiting ↔ x ∈ s.withdrawalsWaiting ∧ x ≠ o)
        ∧ keepsBytes s t (inOrderEnd k))

/-! ### Closures and credits -/

/-- POST_CLOSURE: a payload out of range fails BAD_FIELD; while a sweep runs the order waits TAKEN; otherwise another day
fails CLOSURE_NOT_TODAY, a start minute still to come BAD_FIELD, a full list CLOSURE_FULL; and what passes is appended
at the lowest EMPTY position and starts its credit sweep, the order staying TAKEN (R137 to R139). -/
def Obligations.PostClosureStartsSweep : Prop :=
  ∀ (s : State) (k : Fin 32), s.ok → carries s k 8 →
    let f := fun off n => s.peek (orderBase k.val + off) n
    let inRange := f 8 2 ≠ 65535 ∧ f 10 2 ≤ 1439 ∧ (f 12 2 = 0xFFFF ∨ (f 10 2 < f 12 2 ∧ f 12 2 ≤ 1440))
    let o : ClosureOrder := ⟨k, f 8 2, f 10 2, f 12 2, f 14 1⟩
    let refused := fun (r : Result) => ∃ t, exec (.postClosure k) s = .next t ∧ onlyOrder s t k r fun _ => False
    (¬inRange → refused .badField)
    ∧ (inRange → s.creditSweep ≠ none →
      ∃ t, exec (.postClosure k) s = .next t ∧ orderState t k = 2 ∧ keepsBytes s t (inField (orderBase k.val) 2)
        ∧ t = { s with mem := t.mem, sweepNext := slotAfter k, closuresWaiting := s.closuresWaiting ++ [o] })
    ∧ (inRange → s.creditSweep = none →
      (f 8 2 ≠ s.day → refused .closureNotToday)
      ∧ (f 8 2 = s.day → s.ms / 60000 < f 10 2 → refused .badField)
      ∧ (f 8 2 = s.day → f 10 2 ≤ s.ms / 60000 → (∀ i < 8, closureHeld s.mem i = true) → refused .closureFull)
      ∧ ∀ i < 8, f 8 2 = s.day → f 10 2 ≤ s.ms / 60000 → closureHeld s.mem i = false →
        (∀ j < i, closureHeld s.mem j = true) →
        ∃ t, exec (.postClosure k) s = .next t ∧ orderState t k = 2
          ∧ closureHeld t.mem i = true ∧ readClosure t.mem i = ⟨f 8 2, f 10 2, f 12 2, f 14 1⟩
          ∧ t = { s with
                    mem := t.mem, sweepNext := slotAfter k, creditSweep := some ⟨o, i, 0, 0, s.now⟩ }
          ∧ keepsBytes s t (fun a => inField (orderBase k.val) 2 a ∨ inField (closureBase i) 16 a))

/-- CREDIT_SWEEP, the visit due at this tick, one slot (log entry 41): an entry that earns a credit by R140, and whose lane
marker names no CAPTURING lane, gets one more credited day and today as credited day, counts once, and nothing else of it
changes; any other slot is passed over. Before slot 6,143 the sweep goes on with the next slot and its count. The visit
of slot 6,143 ends it: the order DONE with the count, the list position and CUT_SHORT clear in its result area, a CREDIT
record asked for, and in the same event the waiting POST_CLOSURE orders start in the order of their slots, until one
starts its sweep, none of them holding the sweep's own slot, as no two orders in flight do (R138, R140 to R143, R202). A
rollover, and a SET_TIME to an earlier day in QUIET, cut the sweep short: the order ends DONE with the count so far and
CUT_SHORT set, a CREDIT record of it asked for first, no entry changed (R34, R37, R144). The record's start minute and
reason are those of the part's copy of the order, and the order's kind byte stays as it stands, the model's readings (log
entries 23 and 47).
The bytes of a journal record without content are 0 by the model's choice (log entry 52).
Bits that a table gives no meaning are 0 by the model's choice (log entry 54). -/
def Obligations.CreditSweepCreditsPasses : Prop :=
  ∀ (s : State) (c : CreditSweep), s.ok → s.creditSweep = some c → orderState s c.order.slot = 2 →
    let k := c.order.slot
    let ends := fun (t : State) (count day ms : Nat) (cut : Bool) (more : List Asked) =>
      orderState t k = 3 ∧ t.peek (orderBase k.val + 3) 1 = 0 ∧ t.peek (orderBase k.val + 32) 2 = count % 65536
        ∧ t.peek (orderBase k.val + 34) 1 = c.listPosition % 256
        ∧ t.peek (orderBase k.val + 35) 1 = (if cut then 1 else 0)
        ∧ recorded s t ((false, ⟨none, day, ms, [], none,
            .credit count cut false c.listPosition c.order.startMinute c.order.reason⟩) :: more)
    (c.start + c.position / 512 + 1 ≤ s.now → c.position ≤ 6143 →
      let e := s.pass c.position
      let d := s.product e.product
      let earns := slotStateOf s.mem c.position = 1 ∧ d.kind = .days ∧ e.retired = false
        ∧ e.lastDay = some s.day ∧ e.creditedDay ≠ some s.day ∧ e.usage / 256 < e.usage % 256 ∧ d.cutoff < 1440
        ∧ (∃ i < 8, closureHeld s.mem i = true ∧ (readClosure s.mem i).startMinute ≤ d.cutoff)
        ∧ ∀ n : Fin 4, e.marker = some n.val → (s.lane n).state.code ≠ 8
      let credited := fun a => earns ∧ (a = passBase c.position + 23 ∨ inField (passBase c.position + 26) 2 a)
      ∀ count, (earns → count = c.count + 1) → (¬earns → count = c.count) →
        ∃ t, exec .creditSweep s = .next t
          ∧ (earns → t.pass c.position = { e with usage := e.usage + 256, creditedDay := some s.day })
          ∧ (c.position < 6143 →
            t = { s with mem := t.mem, creditSweep := some { c with position := c.position + 1, count := count } }
            ∧ keepsBytes s t credited)
          ∧ (c.position = 6143 → (∀ x ∈ s.closuresWaiting, x.slot ≠ k) →
            ends t count s.day s.ms false [] ∧ attnRaised s t 1
            ∧ (s.closuresWaiting = [] →
              t = { s with mem := t.mem, attn := t.attn, journal := t.journal, creditSweep := none }
              ∧ keepsBytes s t (fun a =>
                  inOrderEnd k a ∨ inField (orderBase k.val + 32) 4 a ∨ inAppend s a ∨ credited a))
            ∧ ∀ o ∈ s.closuresWaiting, ∀ i < 8, o.day = s.day → o.startMinute ≤ s.ms / 60000 →
              closureHeld s.mem i = false → (∀ j < i, closureHeld s.mem j = true) →
              o.day < 65536 → o.startMinute < 65536 → o.endMinute < 65536 → o.reason < 256 →
              (s.closuresWaiting.map (·.slot)).Nodup → (∀ x ∈ s.closuresWaiting, x ≠ o → o.slot < x.slot) →
              readClosure t.mem i = ⟨o.day, o.startMinute, o.endMinute, o.reason⟩ ∧ closureHeld t.mem i = true
              ∧ t = { s with
                        mem := t.mem, attn := t.attn, journal := t.journal, creditSweep := some ⟨o, i, 0, 0, s.now⟩
                        closuresWaiting := t.closuresWaiting }
              ∧ (∀ x, x ∈ t.closuresWaiting ↔ x ∈ s.closuresWaiting ∧ x ≠ o)
              ∧ keepsBytes s t (fun a => inOrderEnd k a ∨ inField (orderBase k.val + 32) 4 a ∨ inAppend s a
                  ∨ credited a ∨ inField (closureBase i) 16 a)))
    ∧ (s.closuresWaiting = [] → s.dayEnd = true → s.ms + 1 = 86400000 → s.day < 65534 →
      (∀ x ∈ readStaging s.mem, x.1 < 64) →
      ∃ t, exec .rollover s = .next t ∧ t.creditSweep = none ∧ t.day = s.day + 1 ∧ t.ms = 0
        ∧ ends t c.count (s.day + 1) 0 true
            [(false, ⟨none, s.day + 1, 0, [], none, .station .rollover s.online false 0 0⟩)]
        ∧ attnRaised s t 0x41 ∧ heldClosures t.mem = [] ∧ ∀ slot < 6144, t.pass slot = s.pass slot)
    ∧ ∀ j : Fin 32, s.closuresWaiting = [] → timeLaw s → carries s j 9 → s.station = .quiet → j ≠ k →
      (∀ n, (s.lane n).window = none) →
      let day := s.peek (orderBase j.val + 8) 2
      let ms := s.peek (orderBase j.val + 10) 4
      day < s.day → ms < 86400000 →
      ∃ t, exec (.setTime j) s = .next t ∧ orderEnded s t j .ok ∧ t.creditSweep = none ∧ t.day = day ∧ t.ms = ms
        ∧ ends t c.count day ms true
            [(false, ⟨none, day, ms, [], none, .station .setTime s.online false s.day s.ms⟩)]
        ∧ attnRaised s t 1 ∧ heldClosures t.mem = [] ∧ ∀ slot < 6144, t.pass slot = s.pass slot

/-! ### The orders of the lanes -/

/-- SET_LANE in QUIET, its payload in R89's bounds, its sources mapped and its port free: the configuration, clamped as R88
gives, is in force and the order ends OK; a port that another lane's configuration takes fails PORT_TAKEN, and missing
sources BAD_FIELD. In any station state a lane above 3, a role above 2, a lock drive above 1, a port above 3 or a cue list
of 32 to 254 fails BAD_FIELD (R56, R88 to R90). -/
def Obligations.SetLaneInQuiet : Prop :=
  (∀ (s : State) (k : Fin 32), s.ok → carries s k 10 →
    let f := fun off => s.peek (orderBase k.val + off) 1
    3 < f 8 ∨ 2 < f 9 ∨ 1 < f 14 ∨ 3 < f 17 ∨ (∃ i < 13, 31 < f (18 + i) ∧ f (18 + i) < 0xFF) →
    ∃ t, exec (.setLane k) s = .next t ∧ onlyOrder s t k .badField fun _ => False)
  ∧ ∀ (s : State) (k : Fin 32) (n : Fin 4) (c : LaneConfig), s.ok → carries s k 10 → s.station = .quiet →
    let f := fun off len => s.peek (orderBase k.val + off) len
    f 8 1 = n.val → (f 9 1 = 0 ∧ c.role = .down ∨ f 9 1 = 1 ∧ c.role = .entry ∨ f 9 1 = 2 ∧ c.role = .ret) →
    c.grantWindow = (if f 10 2 = 0 then 6000 else max 1000 (min 15000 (f 10 2))) →
    c.holdLimit = (if f 12 2 = 0 then 20000 else max 5000 (min 60000 (f 12 2))) →
    (f 14 1 = 0 ∧ c.drive = .level ∨ f 14 1 = 1 ∧ c.drive = .pulse (max 50 (min 500 (f 15 2)))) →
    f 17 1 = c.port.val →
    (∀ i < 13, (∃ list : Fin 32, f (18 + i) 1 = list.val ∧ c.cueMap[i]? = some (some list))
      ∨ f (18 + i) 1 = 0xFF ∧ c.cueMap[i]? = some none) → c.cueMap.length = 13 →
    let mapped := (c.role = .entry → (s.lane n).arm.source ≠ none ∧ (s.lane n).entryBeam.source ≠ none
        ∧ (s.lane n).exitBeam.source ≠ none) ∧ (c.role = .ret → (s.lane n).switch.source ≠ none)
    let taken := ∃ m, m ≠ n ∧ ∃ d ∈ (s.lane m).configs, portsClash c d
    (¬mapped → ∃ t, exec (.setLane k) s = .next t ∧ onlyOrder s t k .badField fun _ => False)
    ∧ (mapped → taken → ∃ t, exec (.setLane k) s = .next t ∧ onlyOrder s t k .portTaken fun _ => False)
    ∧ (mapped → ¬taken → ∃ t, exec (.setLane k) s = .next t ∧ orderEnded s t k .ok
      ∧ t.lane n = { s.lane n with
          config := c, pendingConfig := none
          lockPulse := if (s.lane n).config.drive = c.drive then (s.lane n).lockPulse else none }
      ∧ keepsOtherLanes s t n
      ∧ t = { s with mem := t.mem, attn := s.attn ||| 1#8, sweepNext := slotAfter k, lanes := t.lanes }
      ∧ keepsBytes s t (fun a => inOrderEnd k a ∨ inField (laneBlockBase n.val) 26 a))

/-- SET_LANE while RUNNING, its payload read as `c` for lane `n` and its sources mapped. With its port free, at a DOWN,
ARMING, READY, REFERRED, GRANTED or FAULT lane it is applied at once: a grant is voided and a referral denied with cause
LANE_CHANGE first, each with its record, count, cue and answer; the lane goes to DOWN, ARMING or FREE by the role and
the free-flow flag, its trackers cleared, with a PARTIAL mark and a LANE record, whose reader bits are those of the lane's
port (log entry 19). At a FREE lane it becomes pending. At a PASSING or CAPTURING lane the order waits TAKEN. With its port
taken it fails PORT_TAKEN, a grant or referral ended all the same and the lane left READY (R56, R73, R82, R90 to R92).
While QUIETING it becomes pending and ends OK, or fails PORT_TAKEN (R90); at a PASSING or CAPTURING lane it does that, or
waits TAKEN by R91, as a free value decides (log entry 45).
The bytes of a journal record without content are 0 by the model's choice (log entry 52). -/
def Obligations.SetLaneWhileRunning : Prop :=
  ∀ (s : State) (k : Fin 32) (n : Fin 4) (c : LaneConfig), s.ok → carries s k 10 →
    s.station = .running ∨ s.station = .quieting →
    readSetLane s k = some (n, c) → sourcesMapped s n c.role = true →
    let running := s.station = .running
    let clash := ∃ m, m ≠ n ∧ ∃ d ∈ (s.lane m).configs, portsClash c d
    let busy := (s.lane n).state.code = 5 ∨ (s.lane n).state.code = 8
    let held := (s.lane n).state.code = 3 ∨ (s.lane n).state.code = 4
    let atRest := (s.lane n).state.code = 0 ∨ (s.lane n).state.code = 1 ∨ (s.lane n).state.code = 2
      ∨ (s.lane n).state.code = 7
    let ended := (displacedAsk s .laneChange .laneChange .laneChange n).toList
    let frame := fun t : State =>
      attnRaised s t 1 ∧ keepsOtherLanes s t n ∧ grantsReleased s t (· = n)
        ∧ t = { s with
                  mem := t.mem, attn := t.attn, sweepNext := t.sweepNext, lanes := t.lanes, ports := t.ports
                  journal := t.journal }
        ∧ keepsBytes s t (fun a => inOrderEnd k a ∨ inAppends s 2 a ∨ inLaneMirror n a
            ∨ (∃ g, (s.lane n).state = .granted g ∧ a = passBase g.slot + 31)
            ∨ ∃ q : Fin 4, inField (laneBlockBase q.val + 72) 4 a)
    let refused := fun t : State => onlyOrder s t k .portTaken fun _ => False
    let madePending := fun t : State =>
      orderEnded s t k .ok ∧ t.lane n = { s.lane n with pendingConfig := some c } ∧ keepsOtherLanes s t n
        ∧ t = { s with mem := t.mem, attn := s.attn ||| 1#8, sweepNext := slotAfter k, lanes := t.lanes }
        ∧ keepsBytes s t (fun a => inOrderEnd k a ∨ inField (laneBlockBase n.val) 26 a)
    let waits := fun t : State =>
      orderState t k = 2
        ∧ t = { s with mem := t.mem, sweepNext := slotAfter k, lanesWaiting := s.lanesWaiting ++ [⟨k, n, c⟩] }
        ∧ keepsBytes s t (inField (orderBase k.val) 2)
    (running → ¬clash → atRest ∨ held →
      ∃ t, exec (.setLane k) s = .next t ∧ orderEnded s t k .ok ∧ frame t
        ∧ configApplied s t n c (s.lane n).state.displacedCue (s.lane n).displacedWindow
        ∧ (t.lane n).switch = (s.lane n).switch
        ∧ (∀ x, referralsAnswered s (· = n) .laneChange x → serviceChanged s t x)
        ∧ recorded s t (ended ++ [(false, applicationRecord s t n c)]))
    ∧ (running → clash → held →
      ∃ t, exec (.setLane k) s = .next t ∧ orderEnded s t k .portTaken ∧ frame t
        ∧ (t.lane n).state = .ready none ∧ keepsSetup s t n ∧ (t.lane n).window = (s.lane n).displacedWindow
        ∧ (∀ o ∈ (s.lane n).state.displacedCue,
            cueHanded s t n (if ((s.lane n).config.cueFor o).isSome then o else .ready))
        ∧ referralsAnswered s (· = n) .laneChange t.port ∧ recorded s t ended)
    ∧ (clash → (s.station = .quieting ∧ ¬busy) ∨ (running ∧ atRest) ∨ (s.lane n).state = .free →
      ∃ t, exec (.setLane k) s = .next t ∧ refused t)
    ∧ (¬clash → (s.station = .quieting ∧ ¬busy) ∨ (s.lane n).state = .free →
      ∃ t, exec (.setLane k) s = .next t ∧ madePending t)
    ∧ (running → busy → ∃ t, exec (.setLane k) s = .next t ∧ waits t)
    ∧ (s.station = .quieting → busy →
      ∃ t, exec (.setLane k) s = .next t
        ∧ (Config.quietingWaits = true → waits t)
        ∧ (Config.quietingWaits = false → (clash → refused t) ∧ (¬clash → madePending t)))

/-- MAP_INPUTS: with a lane that is not DOWN it fails LANES_ACTIVE; with a pin above 15, an unknown polarity or a debounce
time outside 1 to 50 on a source that names a pin, or a pin named twice, BAD_FIELD, and so with a source NONE that the
configuration of some lane, in force or pending, needs: arm, entry and exit beam for role ENTRY, the capture switch for
RETURN. Otherwise the map is in force whole, every source inactive with hold count 0, the mirror holding its 32 bytes and
96 bytes of 0 (R85 to R87, R205). -/
def Obligations.MapInputsReplacesMap : Prop :=
  ∀ (s : State) (k : Fin 32), s.ok → carries s k 11 →
    let pin := fun i => s.peek (orderBase k.val + 8 + 2 * i) 1
    let low := fun i => s.peek (orderBase k.val + 8 + 2 * i + 1) 1
    let sound := (∀ i < 16, pin i = 0xFF ∨ (pin i ≤ 15 ∧ low i % 4 ≤ 1 ∧ 1 ≤ low i / 4 ∧ low i / 4 ≤ 50))
      ∧ ∀ i < 16, ∀ j < 16, i ≠ j → pin i ≠ 0xFF → pin i ≠ pin j
    let serves := ∀ n : Fin 4, ∀ c ∈ (s.lane n).configs,
      (c.role = .entry → pin (4 * n.val) ≠ 0xFF ∧ pin (4 * n.val + 1) ≠ 0xFF ∧ pin (4 * n.val + 2) ≠ 0xFF)
        ∧ (c.role = .ret → pin (4 * n.val + 3) ≠ 0xFF)
    ((∃ n, (s.lane n).state ≠ .down) →
      ∃ t, exec (.mapInputs k) s = .next t ∧ onlyOrder s t k .lanesActive fun _ => False)
    ∧ ((∀ n, (s.lane n).state = .down) → ¬sound ∨ ¬serves →
      ∃ t, exec (.mapInputs k) s = .next t ∧ onlyOrder s t k .badField fun _ => False)
    ∧ ((∀ n, (s.lane n).state = .down) → sound → serves →
      ∃ t, exec (.mapInputs k) s = .next t ∧ orderEnded s t k .ok
        ∧ (∀ n : Fin 4, ∀ x ∈ [((t.lane n).arm, 0), ((t.lane n).entryBeam, 1), ((t.lane n).exitBeam, 2),
              ((t.lane n).switch, 3)],
            x.1.level = false ∧ x.1.hold = 0
            ∧ (pin (4 * n.val + x.2) = 0xFF → x.1.source = none)
            ∧ (pin (4 * n.val + x.2) ≠ 0xFF → ∃ src, x.1.source = some src ∧ src.pin.val = pin (4 * n.val + x.2)
              ∧ src.debounce = low (4 * n.val + x.2) / 4
              ∧ (src.polarity = .activeLow ↔ low (4 * n.val + x.2) % 4 = 1)))
        ∧ (∀ n, t.lane n = { s.lane n with
              arm := (t.lane n).arm, entryBeam := (t.lane n).entryBeam, exitBeam := (t.lane n).exitBeam
              switch := (t.lane n).switch })
        ∧ t.mem.readBytes inputMapBase 32 = s.mem.readBytes (orderBase k.val + 8) 32
        ∧ (∀ a, inField (inputMapBase + 32) 96 a → t.mem.byteAt a = 0)
        ∧ t = { s with mem := t.mem, attn := s.attn ||| 1#8, sweepNext := slotAfter k, lanes := t.lanes }
        ∧ keepsBytes s t (fun a => inOrderEnd k a ∨ inField inputMapBase 128 a))

/-- FREE_FLOW with the flag already set, ON, changes nothing but the slot, and an action that is neither ON nor OFF fails
BAD_FIELD (under the row FREE_FLOW_ON, the model's choice, log entry 28). ON with the flag clear sets the flag, with a
STATION record of cause ORDER: each ENTRY lane that is neither DOWN nor FREE is FREE with its lock released, a grant voided
and a referral denied FREE_FLOW first, with a PARTIAL mark and the FREE cue; DOWN and RETURN lanes stay as they are. The
VOID and DENY records of several lanes stand in the ascending order of the lanes, the model's choice (log entry 14). The
station is else as it was, in QUIET, RUNNING and QUIETING, but that a SET_LANE waiting for a PASSING lane so freed becomes
its pending configuration; where the passages so ended are the last that QUIETING waited for, quieting completes in the
same event (R73, R82, R91, R105, R111, R203).
The bytes of a journal record without content are 0 by the model's choice (log entry 52).
Bits that a table gives no meaning are 0 by the model's choice (log entry 54). -/
def Obligations.FreeFlowOnFreesLanes : Prop :=
  ∀ (s : State) (k : Fin 32), s.ok → carries s k 12 → s.peek (orderBase k.val + 8) 1 ≠ 2 →
    (s.peek (orderBase k.val + 8) 1 ≠ 1 →
      ∃ t, exec (.freeFlowOn k) s = .next t ∧ onlyOrder s t k .badField fun _ => False)
    ∧ (s.peek (orderBase k.val + 8) 1 = 1 →
      (s.freeFlow = true → ∃ t, exec (.freeFlowOn k) s = .next t ∧ onlyOrder s t k .ok fun _ => False)
      ∧ (s.freeFlow = false → referralPortsDistinct s → quietingGoesOn s →
        ∀ o : LaneOrder, s.lanesWaiting.filter (fun x => (s.lane x.lane).state.code = 5) = [o] →
        (s.lane o.lane).config.role = .entry → orderState s o.slot = 2 →
        s.station = .running ∨ s.station = .quieting →
        ∃ t, exec (.freeFlowOn k) s = .next t ∧ orderEnded s t k .ok ∧ waitingPended s t o
          ∧ lanesFreed s (t.modLane o.lane fun l => { l with pendingConfig := (s.lane o.lane).pendingConfig })
          ∧ recorded s t (freeFlowAsks s false) ∧ attnRaised s t 1 ∧ t.peek hdrState 2 = stateMirror t
          ∧ t = { s with
                    mem := t.mem, attn := t.attn, sweepNext := t.sweepNext, lanes := t.lanes, ports := t.ports
                    journal := t.journal, freeFlow := true, lanesWaiting := t.lanesWaiting }
          ∧ keepsBytes s t (fun a => inOrderEnd k a ∨ inOrderEnd o.slot a ∨ inAppends s 5 a ∨ inField hdrState 2 a
              ∨ inGrantMarker s a ∨ ∃ n, inLaneMirror n a))
      ∧ (s.freeFlow = false → referralPortsDistinct s → (∀ o ∈ s.lanesWaiting, (s.lane o.lane).state.code ≠ 5) →
        (quietingGoesOn s →
          ∃ t, exec (.freeFlowOn k) s = .next t ∧ orderEnded s t k .ok ∧ lanesFreed s t
            ∧ recorded s t (freeFlowAsks s false) ∧ attnRaised s t 1 ∧ t.peek hdrState 2 = stateMirror t
            ∧ t = { s with
                      mem := t.mem, attn := t.attn, sweepNext := t.sweepNext, lanes := t.lanes, ports := t.ports
                      journal := t.journal, freeFlow := true }
            ∧ keepsBytes s t (fun a => inOrderEnd k a ∨ inAppends s 5 a ∨ inField hdrState 2 a ∨ inGrantMarker s a
                ∨ ∃ n, inLaneMirror n a))
        ∧ (¬quietingGoesOn s → lanesLaw s →
          ∃ t, exec (.freeFlowOn k) s = .next t ∧ orderEnded s t k .ok
            ∧ quietCompleted s t
              (fun n => if (s.lane n).config.role = .entry ∧ (s.lane n).state ≠ .down ∧ (s.lane n).state ≠ .free
                then markedPartial (s.lane n).window else (s.lane n).window) s.port
            ∧ recorded s t (freeFlowAsks s false ++ [(false, quietRecord s)]) ∧ attnRaised s t 1
            ∧ t = { s with
                      mem := t.mem, attn := t.attn, sweepNext := t.sweepNext, lanes := t.lanes, ports := t.ports
                      journal := t.journal, station := .quiet, freeFlow := true }
            ∧ keepsBytes s t (fun a => inOrderEnd k a ∨ inAppends s 2 a ∨ inQuieting s a))))

/-- FREE_FLOW OFF: EVACUATE_HELD while EVACUATE is asserted; with the flag clear it ends OK and changes nothing else;
otherwise the flag is cleared, each FREE lane with no pending configuration enters ARMING, one with a pending
configuration has it applied with its LANE record and its port's service, each with a PARTIAL mark, every other lane
stays, and the STATION record follows (R57, R92, R107). No two lanes' configurations name one port (R56). The model's
readings: the LANE records of several lanes stand in the ascending order of the lanes (log entry 14), their reader bits
are those of the lane's port (log entry 19), and a lane that is FREE while QUIETING arms in the same way (log entry 26).
The bytes of a journal record without content are 0 by the model's choice (log entry 52).
Bits that a table gives no meaning are 0 by the model's choice (log entry 54). -/
def Obligations.FreeFlowOffArmsLanes : Prop :=
  ∀ (s : State) (k : Fin 32), s.ok → carries s k 12 → s.peek (orderBase k.val + 8) 1 = 2 →
    (s.evacuate = true → ∃ t, exec (.freeFlowOff k) s = .next t ∧ onlyOrder s t k .evacuateHeld fun _ => False)
    ∧ (s.evacuate = false → s.freeFlow = false →
      ∃ t, exec (.freeFlowOff k) s = .next t ∧ onlyOrder s t k .ok fun _ => False)
    ∧ (s.evacuate = false → s.freeFlow = true →
      ∃ t, exec (.freeFlowOff k) s = .next t ∧ orderEnded s t k .ok ∧ t.freeFlow = false
        ∧ (∀ n, (s.lane n).state ≠ .free → t.lane n = s.lane n)
        ∧ (∀ n, (s.lane n).state = .free → (s.lane n).pendingConfig = none →
            t.lane n = { s.lane n with
              state := .arming 0, latestEntry := none, stuckEntry := 0, stuckExit := 0, stuckSwitch := 0
              lockPulse := none
              window := (s.lane n).window.map (fun w => { w with isPartial := true }) })
        ∧ (∀ n c, freePending s n = some c →
            configApplied { s with freeFlow := false } t n c [] (s.lane n).window
            ∧ (t.lane n).switch = (s.lane n).switch ∧ (t.lane n).lockPulse = none)
        ∧ ((∀ n, freePending s n = none) → t.ports = s.ports)
        ∧ (portsExclusive s ∨ (∀ n, freePending s n = none) →
            serviceChanged s t s.port ∧ recorded s t (freeFlowOffAsks s t))
        ∧ keepsBytes s t (fun a =>
            inOrderEnd k a ∨ inAppends s (allFour.countP (fun n => (freePending s n).isSome) + 1) a
            ∨ inField hdrState 2 a ∨ ∃ n, inLaneMirror n a)
        ∧ t.peek hdrState 2 = stateMirror t
        ∧ attnRaised s t 1
        ∧ t = { s with
                  mem := t.mem, attn := t.attn, sweepNext := t.sweepNext, lanes := t.lanes, ports := t.ports
                  journal := t.journal, freeFlow := false })

/-! ### The station and the Host Port -/

/-- RUN_REQUEST. In QUIET with the time-set flag set: the options are taken, each clamped or defaulted by R190, and shown
in the header; the station is ONLINE with its presence baseline, RUNNING, and a current window, PARTIAL, is open for
every lane; ENTRY lanes are FREE or ARMING by the free-flow flag, RETURN lanes ARMING, DOWN lanes DOWN; the ports named
enter service; a STATION record is asked for (R57, R116, R190, R196). With the flag clear the station stays QUIET and
RUN shows TIME_UNSET (R30, R193); in any other state nothing happens (R193).
The bytes of a journal record without content are 0 by the model's choice (log entry 52).
Bits that a table gives no meaning are 0 by the model's choice (log entry 54). -/
def Obligations.RunRequestStartsStation : Prop :=
  ∀ s : State, s.ok →
    (s.station ≠ .quiet → exec .runRequest s = .next s)
    ∧ (s.station = .quiet → s.timeSet = false → exec .runRequest s = .next { s with timeUnsetRefused := true })
    ∧ (s.station = .quiet → s.timeSet = true → (∀ n, (s.lane n).state = .down) →
      let f := fun off => s.peek (0x40 + off) 2
      ∃ t, exec .runRequest s = .next t
        ∧ t.options.divider = (if f 0 = 0 then 24000 else max 8000 (min 32000 (f 0)))
        ∧ t.options.sweepPeriod =
          (if f 2 = 0 then 4 else if f 2 ≤ 1 then 1 else if f 2 ≤ 3 then 2 else if f 2 ≤ 6 then 4 else 8)
        ∧ t.options.presenceLimit = (if f 4 = 0 then 10 else max 1 (min 60 (f 4)))
        ∧ t.options.referralTimeout = (if f 6 = 0 then 800 else max 200 (min 2000 (f 6)))
        ∧ t.options.captureTimeout = (if f 8 = 0 then 5000 else max 2000 (min 10000 (f 8)))
        ∧ t.options.windowLength = (if f 10 = 0 then 15 else max 1 (min 60 (f 10)))
        ∧ t.mem.readBytes hdrTaken 12 = t.options.bytes
        ∧ (∀ n, (t.lane n).state =
            match (s.lane n).config.role with
            | .down => .down
            | .entry => if s.freeFlow then .free else .arming 0
            | .ret => .arming 0)
        ∧ (∀ n, (t.lane n).window =
            some ⟨s.day, s.ms / 60000 / t.options.windowLength, true, false, false, ⟨0, 0, 0, 0, 0, 0, 0, 0⟩⟩)
        ∧ (∀ n, keepsSetup s t n)
        ∧ (∀ n list, (s.lane n).config.role = .entry → s.freeFlow = true →
            (s.lane n).config.cueFor .free = some list →
            (t.lane n).cue = ((startCue n .free list s).lane n).cue
            ∧ (t.lane n).levels = ((startCue n .free list s).lane n).levels)
        ∧ (∀ n, (s.lane n).config.role ≠ .entry ∨ s.freeFlow = false ∨ (s.lane n).config.cueFor .free = none →
            cueKept s t n)
        ∧ (∀ p, t.port p =
            if servedLane s p = none then s.port p
            else { s.port p with silence := some 0, silent := false, rfFault := false, repeatRec := none })
        ∧ unpledgedRecord s t ⟨none, s.day, s.ms, [], none, .station .run true false 0 0⟩ ∧ attnRaised s t 0
        ∧ t = { s with
                  mem := t.mem, attn := t.attn, lanes := t.lanes, ports := t.ports, journal := t.journal
                  options := t.options, dividerTaken := t.options.divider, station := .running, online := true
                  presenceValue := s.peek hdrPresence 2, presenceCount := 0, presenceTimer := 0, presenceDue := false
                  sweepTimer := 0, timeUnsetRefused := false }
        ∧ t.peek hdrState 2 = stateMirror t
        ∧ keepsBytes s t (fun a => inAppend s a ∨ inField hdrState 2 a ∨ inField hdrTaken 12 a
            ∨ ∃ n, inLaneMirror n a))

/-- QUIET_REQUEST outside RUNNING has no effect. In RUNNING the tap queue is emptied and presence sampling stops, each
grant is voided and each referral denied with cause LANE_CHANGE, the lane READY; while some lane is PASSING or CAPTURING
the station is QUIETING and the other lanes stand; with none quieting completes at once: pending configurations come
into force, every lane is DOWN with its cue stopped and its levels 0, each current window closes PARTIAL, the ports leave
service, a STATION record is asked for and the station is QUIET (R57, R58, R73, R82, R111, R120, R180, R193, R197). The
VOID and DENY records of several lanes stand in the ascending order of the lanes, the model's choice (log entry 14).
The bytes of a journal record without content are 0 by the model's choice (log entry 52).
Bits that a table gives no meaning are 0 by the model's choice (log entry 54). -/
def Obligations.QuietRequestQuietsStation : Prop :=
  ∀ s : State, s.ok →
    (s.station ≠ .running → exec .quietRequest s = .next s)
    ∧ (s.station = .running → referralPortsDistinct s →
      let ended := allFour.filterMap (displacedAsk s .laneChange .laneChange .laneChange)
      ((∃ n, (s.lane n).state.code = 5 ∨ (s.lane n).state.code = 8) →
        ∃ t, exec .quietRequest s = .next t ∧ t.peek hdrState 2 = stateMirror t
          ∧ (∀ n, (s.lane n).state.code ≠ 3 → (s.lane n).state.code ≠ 4 → t.lane n = s.lane n)
          ∧ (∀ n, ∀ o ∈ (s.lane n).state.displacedCue,
              (t.lane n).state = .ready none ∧ keepsSetup s t n ∧ (t.lane n).window = (s.lane n).displacedWindow
              ∧ cueHanded s t n (if ((s.lane n).config.cueFor o).isSome then o else .ready)
              ∧ lockReleased t n = s.evacuate)
          ∧ grantsReleased s t (fun _ => True) ∧ referralsAnswered s (fun _ => True) .laneChange t.port
          ∧ recorded s t ended ∧ attnRaised s t 0
          ∧ t = { s with
                    mem := t.mem, attn := t.attn, lanes := t.lanes, ports := t.ports, journal := t.journal
                    station := .quieting, tapQueue := [], presenceTimer := 0, presenceDue := false }
          ∧ keepsBytes s t (fun a => inAppends s 4 a ∨ inField hdrState 2 a ∨ inGrantMarker s a
              ∨ ∃ n, inLaneMirror n a))
      ∧ ((∀ n, (s.lane n).state.code ≠ 5 ∧ (s.lane n).state.code ≠ 8) →
        ∃ t, exec .quietRequest s = .next t
          ∧ (∀ x, referralsAnswered s (fun _ => True) .laneChange x →
              quietCompleted s t (fun n => (s.lane n).displacedWindow) x)
          ∧ grantsReleased s t (fun _ => True)
          ∧ recorded s t (ended ++ [(false, quietRecord s)]) ∧ attnRaised s t 0
          ∧ t = { s with
                    mem := t.mem, attn := t.attn, lanes := t.lanes, ports := t.ports, journal := t.journal
                    station := .quiet, tapQueue := [], presenceTimer := 0, presenceDue := false }
          ∧ keepsBytes s t (fun a => inAppends s 5 a ∨ inGrantMarker s a ∨ inQuieting s a)))

/-- The registers (R191, R193). ATTN_CLEAR, and a write with RS high to ATTN, clear each bit written as 1 and leave the
others; ATTN_MASK_WRITE, and a write to ATTN_MASK, set its eight bits; nothing else of the state changes, and ATTN_N is
driven low exactly while some bit is set in both. A write to RUN of 1 is a RUN request and of 2 a QUIET request; one of
another value, and a write to IDENT, have no effect. With RS low a word of station memory is written (R188, log entry 2).
In STARTING the fill or the restart scan has then come to some place, which the spec leaves open (log entries 8, 9): the
word is written behind it or before it, and what the fill or the scan has passed is done (R194, R195). -/
def Obligations.RegisterWritesTakeEffect : Prop :=
  (∀ (s : State) (v : Word) (a : BitVec 17) (c : Instr),
      (c = .attnClear v ∨ (c = .registerWrite true a v ∧ a.toNat % 4 = 1) →
        ∃ t, exec c s = .next t ∧ t = { s with attn := t.attn }
          ∧ (∀ i < 8, t.attn.getLsbD i = (s.attn.getLsbD i && !v.getLsbD i))
          ∧ (attnN t = false ↔ ∃ i < 8, t.attn.getLsbD i = true ∧ t.attnMask.getLsbD i = true))
      ∧ (c = .attnMaskWrite v ∨ (c = .registerWrite true a v ∧ a.toNat % 4 = 2) →
        ∃ t, exec c s = .next t ∧ t = { s with attnMask := t.attnMask }
          ∧ (∀ i < 8, t.attnMask.getLsbD i = v.getLsbD i)
          ∧ (attnN t = false ↔ ∃ i < 8, t.attn.getLsbD i = true ∧ t.attnMask.getLsbD i = true))
      ∧ (a.toNat % 4 = 3 → exec (.registerWrite true a 1) s = exec .runRequest s
          ∧ exec (.registerWrite true a 2) s = exec .quietRequest s)
      ∧ (c = .registerWrite true a v → a.toNat % 4 = 0 ∨ (a.toNat % 4 = 3 ∧ v ≠ 1 ∧ v ≠ 2) → exec c s = .next s))
    ∧ (∀ (s : State) (v : Word) (a : BitVec 17), s.mem.wf → s.station ≠ .starting → 2 * a.toNat ≠ hdrReadIndex →
      ∃ t, exec (.registerWrite false a v) s = .next t ∧ t = { s with mem := t.mem } ∧ readWord t a = v
        ∧ keepsBytes s t (inField (2 * a.toNat) 2))
    ∧ ∀ (s : State) (v : Word) (a : BitVec 17), s.mem.wf → s.station = .starting → 2 * a.toNat ≠ hdrReadIndex →
      let word := inField (2 * a.toNat) 2
      (s.startPhase = .fill → ∃ t p, exec (.registerWrite false a v) s = .next t
        ∧ s.startPos ≤ p ∧ p ≤ max s.startPos 0x1F100 ∧ readWord t a = v
        ∧ t = { s with mem := t.mem, startPos := p, freeCount := s.freeCount + 1 }
        ∧ ∀ x, ¬word x → t.mem.byteAt x = if 2 * s.startPos ≤ x ∧ x < 2 * p then 0 else s.mem.byteAt x)
      ∧ (s.startPhase = .scan → ∃ t p, exec (.registerWrite false a v) s = .next t
        ∧ s.startPos ≤ p ∧ p ≤ max s.startPos 6176 ∧ readWord t a = v
        ∧ t = { s with mem := t.mem, attn := t.attn, startPos := p, freeCount := s.freeCount + 1 }
        ∧ (∀ slot < 6144, s.startPos ≤ slot → slot < p → slotStateOf s.mem slot = 1 → ¬word (passBase slot + 31) →
            t.peek (passBase slot + 31) 1 = 0xFF)
        ∧ (∀ k : Fin 32, s.startPos ≤ 6144 + k.val → 6144 + k.val < p → orderState s k = 2 →
            (¬word (orderBase k.val) → orderState t k = 4) ∧ (¬word (orderBase k.val + 2) →
              t.peek (orderBase k.val + 3) 1 = 23)
            ∧ t.attn = s.attn ||| 1#8)
        ∧ ((∀ k : Fin 32, ¬(s.startPos ≤ 6144 + k.val ∧ 6144 + k.val < p ∧ orderState s k = 2)) → t.attn = s.attn)
        ∧ keepsBytes s t (fun x => word x
            ∨ (∃ slot < 6144, s.startPos ≤ slot ∧ slot < p ∧ slotStateOf s.mem slot = 1 ∧ x = passBase slot + 31)
            ∨ ∃ k : Fin 32, s.startPos ≤ 6144 + k.val ∧ 6144 + k.val < p ∧ orderState s k = 2 ∧ inOrderEnd k x))

/-- JOURNAL_READ_INDEX outside STARTING: the header word keeps the value written. A value of 0 to 1,023 that lies no
further ahead of the taken read index than the fill is taken, and in the same event the hold queue drains, oldest
first, while the fill is below 1,023, JOURNAL_LEVEL raised where this brings the fill to the threshold; any other value
leaves the Journal Writer as it was (R206, R207, R210).
The bytes of a journal record without content are 0 by the model's choice (log entry 52). -/
def Obligations.JournalReadIndexGivesRoom : Prop :=
  ∀ (s : State) (v : Word), s.ok → s.station ≠ .starting →
    let j := s.journal
    let taken := v.toNat < 1024 ∧ (v.toNat + 1024 - j.readIndex) % 1024 ≤ (j.writeIndex + 1024 - j.readIndex) % 1024
    let fill := (j.writeIndex + 1024 - v.toNat) % 1024
    let drained := min j.hold.length (1023 - fill)
    ∃ t, exec (.journalReadIndex v) s = .next t ∧ t.peek hdrReadIndex 2 = v.toNat
      ∧ (¬taken → t = { s with mem := t.mem } ∧ keepsBytes s t (inField hdrReadIndex 2))
      ∧ (taken → t = { s with mem := t.mem, attn := t.attn, journal :=
            { j with
              readIndex := v.toNat, writeIndex := (j.writeIndex + drained) % 1024, hold := j.hold.drop drained } }
        ∧ (0 < drained → t.peek hdrWriteIndex 2 = (j.writeIndex + drained) % 1024)
        ∧ (∀ i r, i < drained → j.hold[i]? = some r →
            t.mem.readBytes (journalBase ((j.writeIndex + i) % 1024)) 32 = r.bytes)
        ∧ (fill < thresholdOf s ∧ thresholdOf s ≤ fill + drained → t.attn = s.attn ||| 2#8)
        ∧ (¬(fill < thresholdOf s ∧ thresholdOf s ≤ fill + drained) → t.attn = s.attn)
        ∧ keepsBytes s t (fun a => inField hdrReadIndex 2 a ∨ inField hdrWriteIndex 2 a
            ∨ ∃ i < drained, inField (journalBase ((j.writeIndex + i) % 1024)) 32 a))

/-- PRESENCE_SAMPLE due while RUNNING: a word that differs from the value held becomes it, with count 0, and makes an
OFFLINE station ONLINE; an equal word counts up to the presence limit and there makes an ONLINE station OFFLINE, every
current window marked. Each change raises PRESENCE, shows in the state mirror and asks for a STATION record (R122,
R198), whose ONLINE bit is the view after the change, the model's reading (log entry 34).
The bytes of a journal record without content are 0 by the model's choice (log entry 52).
Bits that a table gives no meaning are 0 by the model's choice (log entry 54). -/
def Obligations.PresenceSampleFollowsWord : Prop :=
  ∀ s : State, s.ok → s.station = .running → s.presenceDue = true →
    let v := s.peek hdrPresence 2
    let count := min (s.presenceCount + 1) s.options.presenceLimit
    (v ≠ s.presenceValue → s.online = true →
      exec .presenceSample s = .next { s with presenceDue := false, presenceValue := v, presenceCount := 0 })
    ∧ (v ≠ s.presenceValue → s.online = false →
      ∃ t, exec .presenceSample s = .next t ∧ attnRaised s t 0x20 ∧ t.peek hdrState 2 = stateMirror t
        ∧ unpledgedRecord s t ⟨none, s.day, s.ms, [], none, .station .online true false 0 0⟩
        ∧ t = { s with
                  mem := t.mem, attn := t.attn, journal := t.journal, online := true, presenceDue := false
                  presenceValue := v, presenceCount := 0 }
        ∧ keepsBytes s t (fun a => inAppend s a ∨ inField hdrState 2 a))
    ∧ (v = s.presenceValue → s.online = false ∨ count < s.options.presenceLimit →
      exec .presenceSample s = .next { s with presenceDue := false, presenceCount := count })
    ∧ (v = s.presenceValue → s.online = true → count = s.options.presenceLimit →
      ∃ t, exec .presenceSample s = .next t ∧ attnRaised s t 0x20 ∧ t.peek hdrState 2 = stateMirror t
        ∧ unpledgedRecord s t ⟨none, s.day, s.ms, [], none, .station .offline false false 0 0⟩
        ∧ (∀ n, t.lane n = { s.lane n with
              window := (s.lane n).window.map fun w => { w with isOffline := true } })
        ∧ t = { s with
                  mem := t.mem, attn := t.attn, journal := t.journal, lanes := t.lanes, online := false
                  presenceDue := false, presenceCount := count }
        ∧ keepsBytes s t (fun a => inAppend s a ∨ inField hdrState 2 a
            ∨ ∃ n : Fin 4, inField (laneBlockBase n.val + 80) 22 a))

/-! ### Passages -/

/-- INDEX_PULSE in GRANTED commits the passage. The lane is PASSING with its lock engaged unless EVACUATE holds it, the
latest entry block cleared, no cue of its own. The entry is charged by kind: a DAYS pass not used today consumes a day
while U is below D and is OVERDRAWN otherwise, a RIDES pass loses a ride and is EXHAUSTED at 0; a day consumed earns
the credit R140 gives; first valid day, last use day, last admission minute and marker follow. The pledge is used for
the PASSAGE record of class PAID, and PAID counts (R97, R114, R128 to R134, R140, R141, R145).
The bytes of a journal record without content are 0 by the model's choice (log entry 52). -/
def Obligations.IndexPulseCommitsGrant : Prop :=
  ∀ (s : State) (n : Fin 4) (g : Grant) (src : Source), s.ok → timeLaw s → (s.lane n).config.role = .entry →
    (s.lane n).state = .granted g → (s.lane n).arm.source = some src → src.debounce ≤ (s.lane n).arm.hold →
    (s.lane n).arm.level = false →
    let e := s.pass g.slot
    let d := s.product e.product
    let newDay := d.kind = .days ∧ e.lastDay ≠ some s.day
    let consumed := newDay ∧ e.usage % 256 < d.daysBought
    let credited := consumed ∧ e.slotState = 1 ∧ e.retired = false ∧ e.creditedDay ≠ some s.day
      ∧ e.usage / 256 < e.usage % 256 + 1 ∧ d.cutoff < 1440
      ∧ ∃ i < 8, closureHeld s.mem i = true ∧ (readClosure s.mem i).startMinute ≤ d.cutoff
    let dwell := match (s.lane n).latestEntry with
      | some b => min (s.now - b) 65535
      | none => 65535
    ∃ t, exec (.indexPulse n) s = .next t
      ∧ (t.lane n).state = .passing ⟨g.slot, g.uid, s.now, g.exitBlocks⟩ ∧ lockReleased t n = s.evacuate
      ∧ (t.lane n).arm = ⟨some src, true, 0⟩ ∧ (t.lane n).latestEntry = none ∧ cueKept s t n
      ∧ countedOnce s t n .paid
      ∧ (∀ cr : Bool, (cr = true ↔ credited) →
          t.pass g.slot =
            { e with
              firstDay := some (e.firstDay.getD s.day), lastDay := some s.day, lastMinute := some (s.ms / 60000)
              marker := none, creditedDay := if cr then some s.day else e.creditedDay
              usage :=
                if consumed then e.usage % 256 + 1 + 256 * (e.usage / 256 + if cr then 1 else 0)
                else if d.kind = .rides then e.usage - 1 else e.usage
              flags := if d.kind = .rides ∧ e.usage - 1 = 0 then e.flags ||| 4#8 else e.flags }
          ∧ pledgedRecord s t ⟨some n, s.day, s.ms, g.uid, some g.slot,
              .passage .paid dwell (decide consumed) (decide (newDay ∧ ¬consumed)) cr
                (if d.kind = .days then (if consumed then e.usage % 256 + 1 else e.usage % 256)
                 else if d.kind = .rides then e.usage - 1 else 0)⟩)
      ∧ attnRaised s t 0 ∧ t = { s with mem := t.mem, attn := t.attn, lanes := t.lanes, journal := t.journal }
      ∧ (t.lane n).config = (s.lane n).config ∧ (t.lane n).pendingConfig = (s.lane n).pendingConfig
      ∧ keepsOtherLanes s t n
      ∧ keepsBytes s t (fun a => inAppend s a ∨ inField (passBase g.slot) 32 a ∨ inLaneMirror n a)

/-- INDEX_PULSE outside GRANTED. At an ENTRY lane that is ARMING, READY, REFERRED, PASSING or in FAULT it is a forced
passage: an unpledged PASSAGE record, with the passage's card in PASSING, FORCED counted, the FORCED cue, the latest
entry block cleared, the duck watch ended and the state otherwise kept; no pass entry is touched. In FREE it counts
FREE, makes no record, and gives a further lock pulse with a PULSE drive. At a lane whose role or state is DOWN only the
debounced level follows (R86, R100, R102, R106, R185).
The bytes of a journal record without content are 0 by the model's choice (log entry 52). -/
def Obligations.IndexPulseForcedOrFree : Prop :=
  ∀ (s : State) (n : Fin 4) (src : Source), s.ok → (s.lane n).arm.source = some src →
    src.debounce ≤ (s.lane n).arm.hold → (s.lane n).arm.level = false →
    ((s.lane n).config.role ≠ .entry ∨ (s.lane n).state = .down →
      exec (.indexPulse n) s = .next (s.setLane n { s.lane n with arm := ⟨some src, true, 0⟩ }))
    ∧ ((s.lane n).config.role = .entry → (s.lane n).state = .free →
      ∃ t, exec (.indexPulse n) s = .next t ∧ t = { s with mem := t.mem, lanes := t.lanes }
        ∧ t.lane n = { s.lane n with
            arm := ⟨some src, true, 0⟩
            window := (s.lane n).window.map fun w => { w with counts := w.counts.add .free }
            lockPulse := match (s.lane n).config.drive with
              | .pulse width => some (s.now + width)
              | .level => (s.lane n).lockPulse }
        ∧ keepsOtherLanes s t n ∧ keepsBytes s t (inField (laneBlockBase n.val + 80) 22))
    ∧ ((s.lane n).config.role = .entry →
      ∀ (st : LaneState) (uid : List Byte) (slot : Option Nat),
        (((s.lane n).state = st ∧ (st.code = 1 ∨ st.code = 3 ∨ st.code = 7) ∧ uid = [] ∧ slot = none)
          ∨ ((∃ w, (s.lane n).state = .ready w) ∧ st = .ready none ∧ uid = [] ∧ slot = none)
          ∨ ∃ p : Passage, (s.lane n).state = .passing p ∧ st = .passing p ∧ uid = p.uid ∧ slot = some p.slot) →
        ∃ t, exec (.indexPulse n) s = .next t ∧ (t.lane n).state = st ∧ (t.lane n).latestEntry = none
          ∧ (t.lane n).arm = ⟨some src, true, 0⟩
          ∧ unpledgedRecord s t ⟨some n, s.day, s.ms, uid, slot,
              .passage .forced (match (s.lane n).latestEntry with
                | some b => min (s.now - b) 65535
                | none => 65535) false false false 0⟩
          ∧ countedOnce s t n .forced ∧ cueHanded s t n .forced ∧ attnRaised s t 0
          ∧ t = { s with mem := t.mem, attn := t.attn, lanes := t.lanes, journal := t.journal }
          ∧ (t.lane n).config = (s.lane n).config ∧ (t.lane n).pendingConfig = (s.lane n).pendingConfig
          ∧ keepsOtherLanes s t n ∧ keepsBytes s t (fun a => inAppend s a ∨ inLaneMirror n a))

/-- Edges that only move levels and trackers (R71, R86, R94 to R96, R98, R101, R103). ENTRY_BEAM_BLOCK at a lane that acts
records the latest entry block, in FAULT too, which is the model's choice (log entry 43), restarts an ARMING lane's settle
timer and opens or moves a READY lane's duck watch.
ENTRY_BEAM_CLEAR, EXIT_BEAM_CLEAR outside a passage's end and CAPTURE_SWITCH_RELEASE return their stuck timer to 0.
CAPTURE_SWITCH_ACTIVATION outside CAPTURING restarts an ARMING lane's settle timer and nothing more. -/
def Obligations.EdgesMoveTrackers : Prop :=
  ∀ (s : State) (n : Fin 4) (src : Source),
    let l := s.lane n
    let restart := match l.state with
      | .arming _ => LaneState.arming 0
      | st => st
    (l.entryBeam.source = some src → src.debounce ≤ l.entryBeam.hold →
      (l.entryBeam.level = false → l.config.role = .entry → l.state ≠ .down →
        exec (.entryBeamBlock n) s = .next (s.setLane n { l with
          entryBeam := ⟨some src, true, 0⟩, latestEntry := some s.now
          state := match l.state with
            | .arming _ => .arming 0
            | .ready _ => .ready (some s.now)
            | st => st }))
      ∧ (l.entryBeam.level = false → l.config.role ≠ .entry ∨ l.state = .down →
        exec (.entryBeamBlock n) s = .next (s.setLane n { l with entryBeam := ⟨some src, true, 0⟩ }))
      ∧ (l.entryBeam.level = true →
        exec (.entryBeamClear n) s = .next (s.setLane n { l with
          entryBeam := ⟨some src, false, 0⟩, stuckEntry := 0 })))
    ∧ (l.exitBeam.source = some src → src.debounce ≤ l.exitBeam.hold → l.exitBeam.level = true →
      l.state.code ≠ 5 ∨ l.config.role ≠ .entry →
      exec (.exitBeamClear n) s = .next (s.setLane n { l with exitBeam := ⟨some src, false, 0⟩, stuckExit := 0 }))
    ∧ (l.switch.source = some src → src.debounce ≤ l.switch.hold →
      (l.switch.level = true →
        exec (.captureSwitchRelease n) s = .next (s.setLane n { l with
          switch := ⟨some src, false, 0⟩, stuckSwitch := 0 }))
      ∧ (l.switch.level = false → l.config.role = .ret → l.state.code ≠ 8 →
        exec (.captureSwitchActivation n) s = .next (s.setLane n { l with
          switch := ⟨some src, true, 0⟩, state := restart })))

/-- EXIT_BEAM_BLOCK at an ENTRY lane. In GRANTED and PASSING it raises the exit-block count; the block that takes it from 1
to 2 counts a tailgate, with an unpledged record of the grant's card, its dwell the ms from the commit or 65,535, and
the TAILGATE cue, and every other block changes the count alone. In READY with the duck watch open fewer than 3,000 ms
it counts a duck-under, with a record, the DUCK cue and the watch closed; with the watch closed it counts nothing. In
ARMING it restarts the settle timer (R94, R99, R101, R102).
The bytes of a journal record without content are 0 by the model's choice (log entry 52). -/
def Obligations.ExitBlockCountsTailgateOrDuck : Prop :=
  ∀ (s : State) (n : Fin 4) (src : Source), s.ok → (s.lane n).config.role = .entry →
    (s.lane n).exitBeam.source = some src → src.debounce ≤ (s.lane n).exitBeam.hold →
    (s.lane n).exitBeam.level = false →
    let l := s.lane n
    let beam : Input := ⟨some src, true, 0⟩
    (∀ st : LaneState, (∃ g, l.state = .granted g ∧ g.exitBlocks ≠ 1 ∧ st = .granted { g with exitBlocks := g.exitBlocks + 1 })
        ∨ (∃ p, l.state = .passing p ∧ p.exitBlocks ≠ 1 ∧ st = .passing { p with exitBlocks := p.exitBlocks + 1 })
        ∨ ((∃ c, l.state = .arming c) ∧ st = .arming 0)
        ∨ (l.state = .ready none ∧ st = .ready none)
        ∨ (l.state = st ∧ (st.code = 0 ∨ st.code = 3 ∨ st.code = 6 ∨ st.code = 7)) →
      exec (.exitBeamBlock n) s = .next (s.setLane n { l with exitBeam := beam, state := st }))
    ∧ ∀ (st : LaneState) (uid : List Byte) (slot : Option Nat) (dwell : Nat) (cls : PassageClass) (kind : CountKind)
      (cue : CueOutcome),
      ((∃ g, l.state = .granted g ∧ g.exitBlocks = 1 ∧ st = .granted { g with exitBlocks := 2 } ∧ uid = g.uid
            ∧ slot = some g.slot ∧ dwell = 65535
            ∧ cls = .tailgate ∧ kind = .tailgate ∧ cue = .tailgate)
        ∨ (∃ p, l.state = .passing p ∧ p.exitBlocks = 1 ∧ st = .passing { p with exitBlocks := 2 } ∧ uid = p.uid
            ∧ slot = some p.slot ∧ dwell = min (s.now - p.tick) 65535
            ∧ cls = .tailgate ∧ kind = .tailgate ∧ cue = .tailgate)
        ∨ (∃ w, l.state = .ready (some w) ∧ s.now - w < 3000 ∧ st = .ready none ∧ uid = [] ∧ slot = none
            ∧ dwell = s.now - w ∧ cls = .duck ∧ kind = .duck ∧ cue = .duck)) →
      ∃ t, exec (.exitBeamBlock n) s = .next t ∧ (t.lane n).state = st ∧ (t.lane n).exitBeam = beam
        ∧ unpledgedRecord s t ⟨some n, s.day, s.ms, uid, slot, .passage cls dwell false false false 0⟩
        ∧ countedOnce s t n kind ∧ cueHanded s t n cue ∧ attnRaised s t 0
        ∧ t = { s with mem := t.mem, attn := t.attn, lanes := t.lanes, journal := t.journal }
        ∧ (t.lane n).config = l.config ∧ (t.lane n).latestEntry = l.latestEntry ∧ keepsOtherLanes s t n
        ∧ keepsBytes s t (fun a => inAppend s a ∨ inLaneMirror n a)

/-- Entries into READY. SETTLE after 500 ms with the beams clear, or the switch released, makes an ARMING lane READY with
the READY cue (R94, R103, R175). PASSING_END, after 300 ms with the exit beam clear or after 1,500 ms, and
EXIT_BEAM_CLEAR after at least 300 ms, end a passage: the lane is READY, and the READY cue starts unless two exit blocks
have made the TAILGATE cue (R98). While RUNNING with no SET_LANE waiting for the lane, or QUIETING with another lane
still busy, that is all. Where the lane was the last that QUIETING waited for, quieting completes in the same event
(R111). A SET_LANE waiting for the lane is carried out in the same event: while RUNNING, with its port free it is
applied, the order ending OK, its LANE record with the reader bits of the lane's port (log entry 19), and with its port
taken it fails PORT_TAKEN; of several the last in the order of their slots leaves its configuration in force; while
QUIETING it becomes pending, or fails PORT_TAKEN, and comes into force where quieting then completes (R91, R92). An ended
order's kind byte stays as it stands (log entry 47).
The bytes of a journal record without content are 0 by the model's choice (log entry 52).
Bits that a table gives no meaning are 0 by the model's choice (log entry 54). -/
def Obligations.LaneReturnsToReady : Prop :=
  ∀ (s : State) (n : Fin 4), s.ok →
    let quietly := fun t : State =>
      t = { s with mem := t.mem, lanes := t.lanes } ∧ keepsOtherLanes s t n ∧ (t.lane n).state = .ready none
        ∧ (t.lane n).config = (s.lane n).config ∧ (t.lane n).window = (s.lane n).window
        ∧ (t.lane n).latestEntry = (s.lane n).latestEntry ∧ lockReleased t n = s.evacuate
        ∧ keepsBytes s t (inLaneMirror n)
    let othersBusy := ∃ m, m ≠ n ∧ ((s.lane m).state.code = 5 ∨ (s.lane m).state.code = 8)
    (∀ c, (s.lane n).state = .arming c → 500 ≤ c →
      ∃ t, exec (.settle n) s = .next t ∧ quietly t ∧ cueHanded s t n .ready ∧ keepsSetup s t n)
    ∧ ∀ p, (s.lane n).state = .passing p →
      let cues : List CueOutcome := if p.exitBlocks < 2 then [.ready] else []
      let due := (300 ≤ s.now - p.tick ∧ (s.lane n).exitBeam.level = false) ∨ 1500 ≤ s.now - p.tick
      ((∀ o ∈ s.lanesWaiting, o.lane ≠ n) → s.station = .running ∨ (s.station = .quieting ∧ othersBusy) →
        (due → ∃ t, exec (.passingEnd n) s = .next t ∧ quietly t ∧ cuesHanded s t n cues ∧ keepsSetup s t n)
        ∧ ∀ src, (s.lane n).config.role = .entry → (s.lane n).exitBeam.source = some src →
          src.debounce ≤ (s.lane n).exitBeam.hold → (s.lane n).exitBeam.level = true →
          (300 ≤ s.now - p.tick →
            ∃ t, exec (.exitBeamClear n) s = .next t ∧ quietly t ∧ cuesHanded s t n cues
              ∧ (t.lane n).exitBeam = ⟨some src, false, 0⟩ ∧ (t.lane n).stuckExit = 0)
          ∧ (s.now - p.tick < 300 →
            exec (.exitBeamClear n) s = .next (s.setLane n { s.lane n with
              exitBeam := ⟨some src, false, 0⟩, stuckExit := 0 })))
      ∧ (due → (∀ o ∈ s.lanesWaiting, o.lane ≠ n) → s.station = .quieting → ¬othersBusy →
        ∃ t, exec (.passingEnd n) s = .next t ∧ quietCompleted s t (fun m => (s.lane m).window) s.port
          ∧ recorded s t [(false, quietRecord s)] ∧ attnRaised s t 0
          ∧ t = { s with
                    mem := t.mem, attn := t.attn, lanes := t.lanes, ports := t.ports, journal := t.journal
                    station := .quiet }
          ∧ keepsBytes s t (fun a => inAppends s 1 a ∨ inQuieting s a))
      ∧ (∀ o : LaneOrder, due → s.lanesWaiting.filter (fun o => o.lane = n) = [o] → s.station = .running →
        orderState s o.slot = 2 →
        let clash := ∃ m, m ≠ n ∧ ∃ d ∈ (s.lane m).configs, portsClash o.config d
        ∃ t, exec (.passingEnd n) s = .next t ∧ keepsOtherLanes s t n ∧ attnRaised s t 1
          ∧ t = { s with
                    mem := t.mem, attn := t.attn, lanes := t.lanes, ports := t.ports, journal := t.journal
                    lanesWaiting := s.lanesWaiting.filter fun o => o.lane ≠ n }
          ∧ keepsBytes s t (fun a => inOrderEnd o.slot a ∨ inAppends s 1 a ∨ inLaneMirror n a
              ∨ ∃ q : Fin 4, inField (laneBlockBase q.val + 72) 4 a)
          ∧ (¬clash → orderState t o.slot = 3 ∧ t.peek (orderBase o.slot.val + 3) 1 = 0
            ∧ configApplied s t n o.config cues (s.lane n).window ∧ serviceChanged s t s.port
            ∧ recorded s t [(false, applicationRecord s t n o.config)])
          ∧ (clash → orderState t o.slot = 4 ∧ t.peek (orderBase o.slot.val + 3) 1 = 14
            ∧ (t.lane n).state = .ready none ∧ keepsSetup s t n ∧ cuesHanded s t n cues
            ∧ t.ports = s.ports ∧ recorded s t []))
      ∧ (∀ o : LaneOrder, due → s.lanesWaiting.filter (fun o => o.lane = n) = [o] → s.station = .quieting →
        orderState s o.slot = 2 →
        let clash := ∃ m, m ≠ n ∧ ∃ d ∈ (s.lane m).configs, portsClash o.config d
        ∀ pending : Option LaneConfig, (¬clash → pending = some o.config) →
        (clash → pending = (s.lane n).pendingConfig) →
        ∃ t, exec (.passingEnd n) s = .next t
          ∧ (¬clash → orderState t o.slot = 3 ∧ t.peek (orderBase o.slot.val + 3) 1 = 0)
          ∧ (clash → orderState t o.slot = 4 ∧ t.peek (orderBase o.slot.val + 3) 1 = 14) ∧ attnRaised s t 1
          ∧ (othersBusy → (t.lane n).state = .ready none ∧ cuesHanded s t n cues
            ∧ keepsSetup (s.modLane n fun l => { l with pendingConfig := pending }) t n ∧ keepsOtherLanes s t n
            ∧ t = { s with
                      mem := t.mem, attn := t.attn, lanes := t.lanes
                      lanesWaiting := s.lanesWaiting.filter fun o => o.lane ≠ n }
            ∧ keepsBytes s t (fun a => inOrderEnd o.slot a ∨ inLaneMirror n a))
          ∧ (¬othersBusy →
            quietCompleted (s.modLane n fun l => { l with pendingConfig := pending }) t (fun m => (s.lane m).window)
              s.port
            ∧ recorded s t [(false, quietRecord s)]
            ∧ t = { s with
                      mem := t.mem, attn := t.attn, lanes := t.lanes, ports := t.ports, journal := t.journal
                      station := .quiet, lanesWaiting := s.lanesWaiting.filter fun o => o.lane ≠ n }
            ∧ keepsBytes s t (fun a => inOrderEnd o.slot a ∨ inAppends s 1 a ∨ inQuieting s a)))
      ∧ ∀ o : LaneOrder, due → s.station = .running → s.freeFlow = false →
        let mine := s.lanesWaiting.filter fun o => o.lane = n
        o ∈ mine → (∀ x ∈ mine, x ≠ o → x.slot < o.slot) → (mine.map (·.slot)).Nodup →
        (∀ x ∈ mine, orderState s x.slot = 2 ∧ ∀ m, m ≠ n → ∀ d ∈ (s.lane m).configs, ¬portsClash x.config d) →
        ∃ t, exec (.passingEnd n) s = .next t ∧ keepsOtherLanes s t n ∧ attnRaised s t 1
          ∧ (∀ x ∈ mine, orderState t x.slot = 3 ∧ t.peek (orderBase x.slot.val + 3) 1 = 0)
          ∧ (t.lane n).config = o.config ∧ (t.lane n).pendingConfig = none
          ∧ (t.lane n).state = (if o.config.role = .down then .down else .arming 0)
          ∧ (t.lane n).window = markedPartial (s.lane n).window
          ∧ t = { s with
                    mem := t.mem, attn := t.attn, lanes := t.lanes, ports := t.ports, journal := t.journal
                    lanesWaiting := s.lanesWaiting.filter fun o => o.lane ≠ n }

/-- BEAM_STUCK at an ENTRY lane and SWITCH_STUCK at a RETURN lane, the lane ARMING or READY and the stuck timer at 10,000 ms:
the lane is in FAULT with the cause, a LANE record with state, cause and beam is asked for, LANE_FAULT raised and the
FAULT cue handed (R95, R103). The beam is an operand of the command (log entry 24), and the record's reader bits are
those of the lane's port (log entry 19), the model's readings.
The bytes of a journal record without content are 0 by the model's choice (log entry 52). -/
def Obligations.StuckInputFaultsLane : Prop :=
  ∀ (s : State) (n : Fin 4) (c : Instr) (cause : FaultCause) (code : Nat) (exit : Bool), s.ok →
    (s.lane n).state.code = 1 ∨ (s.lane n).state.code = 2 →
    ((s.lane n).config.role = .entry ∧ c = .beamStuck n exit ∧ cause = .beamStuck exit ∧ code = 1
        ∧ 10000 ≤ (if exit then (s.lane n).stuckExit else (s.lane n).stuckEntry))
      ∨ ((s.lane n).config.role = .ret ∧ c = .switchStuck n ∧ cause = .switchStuck ∧ code = 2 ∧ exit = false
        ∧ 10000 ≤ (s.lane n).stuckSwitch) →
    ∃ t, exec c s = .next t ∧ (t.lane n).state = .fault cause
      ∧ (t.lane n).stuckEntry = 0 ∧ (t.lane n).stuckExit = 0 ∧ (t.lane n).stuckSwitch = 0
      ∧ (let p := s.port (s.lane n).config.port
         unpledgedRecord s t ⟨some n, s.day, s.ms, [], none,
           .lane 7 code exit false p.readerLost p.silent p.rfFault⟩)
      ∧ attnRaised s t 0x10 ∧ cueHanded s t n .fault ∧ (t.lane n).window = (s.lane n).window
      ∧ t = { s with mem := t.mem, attn := t.attn, lanes := t.lanes, journal := t.journal }
      ∧ keepsOtherLanes s t n ∧ keepsSetup s t n ∧ keepsBytes s t (fun a => inAppend s a ∨ inLaneMirror n a)

/-- The ends of a capture. CAPTURE_SWITCH_ACTIVATION confirms it: RETIRED set, the pledge used for a REFUND record of path
RETURN with the context's figures, RETURNED counted, the marker NONE, the lane READY with the RETURN_DONE cue, or READY's
where the map gives none (R166). CAPTURE_TIMEOUT aborts it: the marker NONE, a REFUND_ABORT record, the READY cue, the
pass otherwise as it was (R167) but for the credit it earns by R140, which counts on its usage word and credited day and
asks for a CREDIT record of source CAPTURE_END behind the capture's own, with UID length 0 (R147, log entry 42). The
capture output is inactive after either (R110). While RUNNING with no SET_LANE waiting for the lane, or QUIETING with
another lane still busy, that is all; the last lane QUIETING waited for completes it in the same event (R111), and a
SET_LANE waiting for the lane while RUNNING is carried out in the same event: with its port free it is applied, its LANE
record with the reader bits of the lane's port (log entry 19), and with its port taken it fails PORT_TAKEN and the lane
is READY (R91, R92); its kind byte stays as it stands (log entry 47).
The bytes of a journal record without content are 0 by the model's choice (log entry 52).
Bits that a table gives no meaning are 0 by the model's choice (log entry 54). -/
def Obligations.CaptureEndsBySwitchOrTimeout : Prop :=
  ∀ (s : State) (n : Fin 4) (c : Capture), s.ok → (s.lane n).state = .capturing c →
    let e := s.pass c.slot
    let cutoff := (s.product e.product).cutoff
    let earns := e.slotState = 1 ∧ (s.product e.product).kind = .days ∧ e.retired = false ∧ e.lastDay = some s.day
      ∧ e.creditedDay ≠ some s.day ∧ e.usage / 256 < e.usage % 256 ∧ cutoff < 1440
    let meets := fun i => closureHeld s.mem i = true ∧ (readClosure s.mem i).startMinute ≤ cutoff
    let overdue := c.timeout ≤ s.now - c.tick
    let abort : Asked := (true, ⟨some n, s.day, s.ms, c.uid, some c.slot, .refundAbort⟩)
    let othersBusy := ∃ m, m ≠ n ∧ ((s.lane m).state.code = 5 ∨ (s.lane m).state.code = 8)
    let frame := fun t : State =>
      capturePin t n = false ∧ (t.pass c.slot).marker = none
        ∧ keepsBytes s t (fun a => inAppends s 3 a ∨ inField (passBase c.slot + 15) 17 a ∨ inQuieting s a
            ∨ (∃ o ∈ s.lanesWaiting, inOrderEnd o.slot a) ∨ ∃ q : Fin 4, inField (laneBlockBase q.val + 72) 4 a)
    ∀ (i : Instr) (after : PassEntry) (asks : List Asked) (cue : CueOutcome) (w : Option Window) (switch : Input),
      ((∃ src, (s.lane n).config.role = .ret ∧ (s.lane n).switch.source = some src
          ∧ src.debounce ≤ (s.lane n).switch.hold ∧ (s.lane n).switch.level = false
          ∧ i = .captureSwitchActivation n ∧ after = { e with flags := e.flags ||| 2#8, marker := none }
          ∧ asks = [(true, ⟨some n, s.day, s.ms, c.uid, some c.slot,
              .refund true c.figures.unused c.figures.phi c.figures.refund⟩)]
          ∧ cue = (if ((s.lane n).config.cueFor .returnDone).isSome then .returnDone else .ready)
          ∧ w = (s.lane n).window.map (fun w => { w with counts := w.counts.add .returned })
          ∧ switch = ⟨some src, true, 0⟩)
        ∨ (overdue ∧ ¬(earns ∧ ∃ j < 8, meets j) ∧ i = .captureTimeout n ∧ after = { e with marker := none }
          ∧ asks = [abort] ∧ cue = .ready ∧ w = (s.lane n).window ∧ switch = (s.lane n).switch)
        ∨ (overdue ∧ earns ∧ ∃ j < 8, meets j ∧ (∀ l < j, ¬meets l) ∧ i = .captureTimeout n
          ∧ after = { e with marker := none, usage := e.usage + 256, creditedDay := some s.day }
          ∧ asks = [abort, (false, ⟨some n, s.day, s.ms, [], some c.slot,
              .credit 1 false true j (readClosure s.mem j).startMinute (readClosure s.mem j).reason⟩)]
          ∧ cue = .ready ∧ w = (s.lane n).window ∧ switch = (s.lane n).switch)) →
      ((∀ o ∈ s.lanesWaiting, o.lane ≠ n) → s.station = .running ∨ (s.station = .quieting ∧ othersBusy) →
        ∃ t, exec i s = .next t ∧ frame t ∧ t.pass c.slot = after ∧ recorded s t asks ∧ attnRaised s t 0
          ∧ t.lane n = { s.lane n with
              state := .ready none, switch := switch, window := w, cue := (t.lane n).cue, levels := (t.lane n).levels
              stuckEntry := 0, stuckExit := 0, stuckSwitch := 0 }
          ∧ cueHanded s t n cue ∧ keepsOtherLanes s t n
          ∧ t = { s with mem := t.mem, attn := t.attn, lanes := t.lanes, journal := t.journal }
          ∧ keepsBytes s t (fun a => inAppends s 2 a ∨ inField (passBase c.slot + 15) 17 a ∨ inLaneMirror n a))
      ∧ ((∀ o ∈ s.lanesWaiting, o.lane ≠ n) → s.station = .quieting → ¬othersBusy →
        ∃ t, exec i s = .next t ∧ frame t ∧ t.pass c.slot = after
          ∧ quietCompleted s t (fun m => if m = n then w else (s.lane m).window) s.port
          ∧ recorded s t (asks ++ [(false, quietRecord s)]) ∧ attnRaised s t 0
          ∧ t = { s with
                    mem := t.mem, attn := t.attn, lanes := t.lanes, ports := t.ports, journal := t.journal
                    station := .quiet })
      ∧ ∀ o : LaneOrder, s.lanesWaiting.filter (fun o => o.lane = n) = [o] → s.station = .running →
        orderState s o.slot = 2 →
        let clash := ∃ m, m ≠ n ∧ ∃ d ∈ (s.lane m).configs, portsClash o.config d
        ∃ t, exec i s = .next t ∧ frame t ∧ t.pass c.slot = after ∧ keepsOtherLanes s t n ∧ attnRaised s t 1
          ∧ (t.lane n).switch = switch
          ∧ (¬clash → orderState t o.slot = 3 ∧ t.peek (orderBase o.slot.val + 3) 1 = 0
            ∧ configApplied s t n o.config [cue] w ∧ serviceChanged s t s.port
            ∧ recorded s t (asks ++ [(false, applicationRecord s t n o.config)]))
          ∧ (clash → orderState t o.slot = 4 ∧ t.peek (orderBase o.slot.val + 3) 1 = 14
            ∧ t.lane n = { s.lane n with
                state := .ready none, switch := switch, window := w, cue := (t.lane n).cue
                levels := (t.lane n).levels, stuckEntry := 0, stuckExit := 0, stuckSwitch := 0 }
            ∧ cueHanded s t n cue ∧ t.ports = s.ports ∧ recorded s t asks)
          ∧ t = { s with
                    mem := t.mem, attn := t.attn, lanes := t.lanes, ports := t.ports, journal := t.journal
                    lanesWaiting := s.lanesWaiting.filter fun o => o.lane ≠ n }

/-- EVACUATE sampled high after low: every lock is released at once, in STARTING with nothing more; outside STARTING
EVACUATE is raised, and with the free-flow flag clear free flow starts with cause EVACUATE, a grant voided and a referral
denied FREE_FLOW at each lane moved, the records of several lanes in the ascending order of the lanes, the model's choice
(log entry 14); it does not move a DOWN or RETURN lane, a SET_LANE waiting for a PASSING lane it frees becomes pending
(R91), and a passage it ends may be the last that QUIETING waited for, which then completes. A pin sampled high again does
nothing. EVACUATE_LOW engages again every lock
whose lane is neither GRANTED nor FREE, ending its pulse, and does nothing else. RUN shows the pin's level (R73, R82,
R105, R108, R109, R111, R185, R193).
The bytes of a journal record without content are 0 by the model's choice (log entry 52).
Bits that a table gives no meaning are 0 by the model's choice (log entry 54). -/
def Obligations.EvacuateReleasesLocks : Prop :=
  ∀ s : State, s.ok →
    (s.evacuate = true → exec .evacuate s = .next { s with evacuatePin := true })
    ∧ (s.evacuate = false →
      (∃ t, exec .evacuate s = .next t ∧ t.evacuate = true ∧ (∀ n, lockReleased t n = true)
        ∧ (readRegister t .run).getLsbD 3 = true)
      ∧ (s.station = .starting ∨ s.freeFlow = true →
        ∃ t, exec .evacuate s = .next t
          ∧ t = { s with
                    evacuate := true, evacuatePin := true, lanes := t.lanes
                    attn := if s.station = .starting then s.attn else s.attn ||| 128#8 }
          ∧ ∀ n, t.lane n = { s.lane n with lockPulse := pulseReleased s n })
      ∧ (s.station ≠ .starting → s.freeFlow = false → referralPortsDistinct s → quietingGoesOn s →
        ∀ o : LaneOrder, s.lanesWaiting.filter (fun x => (s.lane x.lane).state.code = 5) = [o] →
        (s.lane o.lane).config.role = .entry → orderState s o.slot = 2 →
        s.station = .running ∨ s.station = .quieting →
        ∃ t, exec .evacuate s = .next t ∧ waitingPended s t o
          ∧ lanesFreed s (t.modLane o.lane fun l => { l with pendingConfig := (s.lane o.lane).pendingConfig })
          ∧ recorded s t (freeFlowAsks s true) ∧ attnRaised s t 0x81 ∧ t.peek hdrState 2 = stateMirror t
          ∧ t = { s with
                    mem := t.mem, attn := t.attn, lanes := t.lanes, ports := t.ports, journal := t.journal
                    evacuate := true, evacuatePin := true, freeFlow := true, lanesWaiting := t.lanesWaiting }
          ∧ keepsBytes s t (fun a => inOrderEnd o.slot a ∨ inAppends s 5 a ∨ inField hdrState 2 a ∨ inGrantMarker s a
              ∨ ∃ n, inLaneMirror n a))
      ∧ (s.station ≠ .starting → s.freeFlow = false → referralPortsDistinct s →
        (∀ o ∈ s.lanesWaiting, (s.lane o.lane).state.code ≠ 5) →
        (quietingGoesOn s →
          ∃ t, exec .evacuate s = .next t ∧ lanesFreed s t ∧ recorded s t (freeFlowAsks s true) ∧ attnRaised s t 0x80
            ∧ t.peek hdrState 2 = stateMirror t
            ∧ t = { s with
                      mem := t.mem, attn := t.attn, lanes := t.lanes, ports := t.ports, journal := t.journal
                      evacuate := true, evacuatePin := true, freeFlow := true }
            ∧ keepsBytes s t (fun a => inAppends s 5 a ∨ inField hdrState 2 a ∨ inGrantMarker s a
                ∨ ∃ n, inLaneMirror n a))
        ∧ (¬quietingGoesOn s → lanesLaw s →
          ∃ t, exec .evacuate s = .next t
            ∧ quietCompleted s t
              (fun n => if (s.lane n).config.role = .entry ∧ (s.lane n).state ≠ .down ∧ (s.lane n).state ≠ .free
                then markedPartial (s.lane n).window else (s.lane n).window) s.port
            ∧ recorded s t (freeFlowAsks s true ++ [(false, quietRecord s)]) ∧ attnRaised s t 0x80
            ∧ t = { s with
                      mem := t.mem, attn := t.attn, lanes := t.lanes, ports := t.ports, journal := t.journal
                      evacuate := true, evacuatePin := true, freeFlow := true, station := .quiet }
            ∧ keepsBytes s t (fun a => inAppends s 2 a ∨ inQuieting s a))))
    ∧ ∃ t, exec .evacuateLow s = .next t
      ∧ t = { s with evacuate := false, evacuatePin := false, lanes := t.lanes }
      ∧ ∀ n, lockReleased t n = (decide ((s.lane n).state.code = 4) || decide ((s.lane n).state.code = 6))
        ∧ t.lane n = { s.lane n with
            lockPulse := if lockReleased s n = true ∧ lockReleased t n = false then none else (s.lane n).lockPulse }

/-! ### What every step keeps -/

/-- The reset state meets every invariant stated below. -/
def Obligations.ResetMeetsInvariants : Prop :=
  State.reset.mem.wf ∧ journalLaw State.reset ∧ lanesLaw State.reset ∧ portsExclusive State.reset
    ∧ windowsFollowStation State.reset ∧ oneTapPerLane State.reset ∧ ordersDistinct State.reset
    ∧ timeLaw State.reset ∧ usageLaw State.reset
    ∧ holdingLaw State.reset

/-- Station memory keeps its canonical form through every step. -/
def Obligations.StepKeepsMemoryCanonical : Prop :=
  ∀ s t : State, s.mem.wf → step s = .next t → t.mem.wf

/-- Through every step the fill stays at most 1,023, records are held only while the ring is full, the pledges outstanding
are the lanes' grants and captures, and the free places never fall below them (R206 to R209, R211, R212); with it, a
lane is GRANTED or REFERRED only at an ENTRY lane of a RUNNING station and CAPTURING only at a RETURN lane, and every
lane is DOWN in STARTING and QUIET (R80, R93, R103, R111). -/
def Obligations.StepKeepsJournalLaw : Prop :=
  ∀ s t : State, journalLaw s → lanesLaw s → step s = .next t → journalLaw t ∧ lanesLaw t

/-- Through every step no two lanes whose configuration in force or pending has the role ENTRY or RETURN name one port
(R56), every lane has a current window exactly in RUNNING and QUIETING (R113), at most one tap waits for each lane
(R58), and no two orders in flight hold one slot (R202). -/
def Obligations.StepKeepsPortsWindowsTaps : Prop :=
  ∀ s t : State, step s = .next t →
    (portsExclusive s → portsExclusive t) ∧ (windowsFollowStation s → windowsFollowStation t)
      ∧ (oneTapPerLane s → oneTapPerLane t) ∧ (ordersDistinct s → ordersDistinct t)

/-- Through every step station time stays a station time, set whenever the station is RUNNING or QUIETING (R27, R30), and
a step from RUNNING or QUIETING that is no reset never takes it back (R35). -/
def Obligations.StepKeepsTimeForward : Prop :=
  ∀ s t : State, step s = .next t →
    (timeLaw s → timeLaw t)
      ∧ (s.station = .running ∨ s.station = .quieting → t.station ≠ .starting →
        s.day < t.day ∨ (s.day = t.day ∧ s.ms ≤ t.ms))

/-- Through every step that is no host write of station memory, the laws of usage and the law of holding stay: C at most U
at most D, rides left at most the rides initial with EXHAUSTED exactly at 0, one staged record for an index (R3, R20); a
LIVE entry's marker names a lane exactly when that lane holds the pass in a grant or a capture, and the restart scan
clears every marker (R69, R195). Only the host could break them, by writing what is the part's (R188). -/
def Obligations.StepKeepsPassLaws : Prop :=
  ∀ s t : State, s.ok → lanesLaw s → (∀ a v rest, s.pending ≠ .registerWrite false a v :: rest) → step s = .next t →
    (usageLaw s → usageLaw t) ∧ (holdingLaw s → holdingLaw t)
end

