-- ==== Sys2Proof/Laws/State.lean ====
section
/-! SUPPORT. The small lemmas of the state: what each update leaves, field by field, and the lanes and ports read back. -/

namespace Sys2Proof

@[simp] theorem Quad.get_set_same {α : Type} (q : Quad α) (i : Fin 4) (x : α) : (q.set i x).get i = x := by
  fin_cases i <;> rfl

theorem Quad.get_set_other {α : Type} (q : Quad α) {i j : Fin 4} (x : α) (h : j ≠ i) : (q.set i x).get j = q.get j := by
  fin_cases i <;> fin_cases j <;> first | rfl | exact absurd rfl h

theorem Quad.get_set {α : Type} (q : Quad α) (i j : Fin 4) (x : α) :
    (q.set i x).get j = if j = i then x else q.get j := by
  split
  · subst_vars; simp
  · exact q.get_set_other x ‹_›

@[simp] theorem Quad.get_mapIdx {α : Type} (f : Fin 4 → α → α) (q : Quad α) (i : Fin 4) :
    (q.mapIdx f).get i = f i (q.get i) := by
  fin_cases i <;> rfl

theorem Quad.ext_get {α : Type} {q r : Quad α} (h : ∀ i, q.get i = r.get i) : q = r := by
  have h0 := h 0; have h1 := h 1; have h2 := h 2; have h3 := h 3
  cases q; cases r
  simp only [Quad.get] at h0 h1 h2 h3
  simp [h0, h1, h2, h3]

namespace Machine

/-! ### Lanes and ports read back -/

@[simp] theorem lane_setLane_same (s : State) (n : Fin 4) (l : Lane) : (s.setLane n l).lane n = l := by
  simp [State.lane, State.setLane]

theorem lane_setLane_other (s : State) {n m : Fin 4} (l : Lane) (h : m ≠ n) : (s.setLane n l).lane m = s.lane m := by
  simp [State.lane, State.setLane, Quad.get_set_other _ _ h]

@[simp] theorem lane_modLane_same (s : State) (n : Fin 4) (f : Lane → Lane) : (s.modLane n f).lane n = f (s.lane n) := by
  simp [State.modLane]

theorem lane_modLane_other (s : State) {n m : Fin 4} (f : Lane → Lane) (h : m ≠ n) :
    (s.modLane n f).lane m = s.lane m := lane_setLane_other s _ h

theorem lane_modLane (s : State) (n m : Fin 4) (f : Lane → Lane) :
    (s.modLane n f).lane m = if m = n then f (s.lane m) else s.lane m := by
  split
  · subst_vars; simp
  · exact lane_modLane_other s f ‹_›

@[simp] theorem port_setPort_same (s : State) (p : Fin 4) (x : Port) : (s.setPort p x).port p = x := by
  simp [State.port, State.setPort]

theorem port_setPort_other (s : State) {p q : Fin 4} (x : Port) (h : q ≠ p) : (s.setPort p x).port q = s.port q := by
  simp [State.port, State.setPort, Quad.get_set_other _ _ h]

@[simp] theorem port_modPort_same (s : State) (p : Fin 4) (f : Port → Port) : (s.modPort p f).port p = f (s.port p) := by
  simp [State.modPort]

theorem port_modPort_other (s : State) {p q : Fin 4} (f : Port → Port) (h : q ≠ p) :
    (s.modPort p f).port q = s.port q := port_setPort_other s _ h

@[simp] theorem lane_modPort (s : State) (p n : Fin 4) (f : Port → Port) : (s.modPort p f).lane n = s.lane n := rfl
@[simp] theorem port_modLane (s : State) (n p : Fin 4) (f : Lane → Lane) : (s.modLane n f).port p = s.port p := rfl
@[simp] theorem lane_poke (s : State) (a n v : Nat) (m : Fin 4) : (s.poke a n v).lane m = s.lane m := rfl
@[simp] theorem port_poke (s : State) (a n v : Nat) (p : Fin 4) : (s.poke a n v).port p = s.port p := rfl
@[simp] theorem lane_raise (c : Cause) (s : State) (m : Fin 4) : (raise c s).lane m = s.lane m := rfl
@[simp] theorem port_raise (c : Cause) (s : State) (p : Fin 4) : (raise c s).port p = s.port p := rfl

/-! ### What each update leaves -/


@[simp] theorem setLane_mem (s : State) (n : Fin 4) (l : Lane) : (s.setLane n l).mem = s.mem := rfl
@[simp] theorem setLane_attn (s : State) (n : Fin 4) (l : Lane) : (s.setLane n l).attn = s.attn := rfl
@[simp] theorem setLane_attnMask (s : State) (n : Fin 4) (l : Lane) : (s.setLane n l).attnMask = s.attnMask := rfl
@[simp] theorem setLane_timeUnsetRefused (s : State) (n : Fin 4) (l : Lane) : (s.setLane n l).timeUnsetRefused = s.timeUnsetRefused := rfl
@[simp] theorem setLane_station (s : State) (n : Fin 4) (l : Lane) : (s.setLane n l).station = s.station := rfl
@[simp] theorem setLane_startPhase (s : State) (n : Fin 4) (l : Lane) : (s.setLane n l).startPhase = s.startPhase := rfl
@[simp] theorem setLane_startPos (s : State) (n : Fin 4) (l : Lane) : (s.setLane n l).startPos = s.startPos := rfl
@[simp] theorem setLane_freeCount (s : State) (n : Fin 4) (l : Lane) : (s.setLane n l).freeCount = s.freeCount := rfl
@[simp] theorem setLane_online (s : State) (n : Fin 4) (l : Lane) : (s.setLane n l).online = s.online := rfl
@[simp] theorem setLane_freeFlow (s : State) (n : Fin 4) (l : Lane) : (s.setLane n l).freeFlow = s.freeFlow := rfl
@[simp] theorem setLane_evacuate (s : State) (n : Fin 4) (l : Lane) : (s.setLane n l).evacuate = s.evacuate := rfl
@[simp] theorem setLane_evacuatePin (s : State) (n : Fin 4) (l : Lane) : (s.setLane n l).evacuatePin = s.evacuatePin := rfl
@[simp] theorem setLane_liftNumber (s : State) (n : Fin 4) (l : Lane) : (s.setLane n l).liftNumber = s.liftNumber := rfl
@[simp] theorem setLane_now (s : State) (n : Fin 4) (l : Lane) : (s.setLane n l).now = s.now := rfl
@[simp] theorem setLane_divider (s : State) (n : Fin 4) (l : Lane) : (s.setLane n l).divider = s.divider := rfl
@[simp] theorem setLane_dividerTaken (s : State) (n : Fin 4) (l : Lane) : (s.setLane n l).dividerTaken = s.dividerTaken := rfl
@[simp] theorem setLane_carrier (s : State) (n : Fin 4) (l : Lane) : (s.setLane n l).carrier = s.carrier := rfl
@[simp] theorem setLane_timeSet (s : State) (n : Fin 4) (l : Lane) : (s.setLane n l).timeSet = s.timeSet := rfl
@[simp] theorem setLane_day (s : State) (n : Fin 4) (l : Lane) : (s.setLane n l).day = s.day := rfl
@[simp] theorem setLane_ms (s : State) (n : Fin 4) (l : Lane) : (s.setLane n l).ms = s.ms := rfl
@[simp] theorem setLane_dayEnd (s : State) (n : Fin 4) (l : Lane) : (s.setLane n l).dayEnd = s.dayEnd := rfl
@[simp] theorem setLane_options (s : State) (n : Fin 4) (l : Lane) : (s.setLane n l).options = s.options := rfl
@[simp] theorem setLane_sweepTimer (s : State) (n : Fin 4) (l : Lane) : (s.setLane n l).sweepTimer = s.sweepTimer := rfl
@[simp] theorem setLane_sweepDue (s : State) (n : Fin 4) (l : Lane) : (s.setLane n l).sweepDue = s.sweepDue := rfl
@[simp] theorem setLane_sweepNext (s : State) (n : Fin 4) (l : Lane) : (s.setLane n l).sweepNext = s.sweepNext := rfl
@[simp] theorem setLane_presenceTimer (s : State) (n : Fin 4) (l : Lane) : (s.setLane n l).presenceTimer = s.presenceTimer := rfl
@[simp] theorem setLane_presenceDue (s : State) (n : Fin 4) (l : Lane) : (s.setLane n l).presenceDue = s.presenceDue := rfl
@[simp] theorem setLane_presenceValue (s : State) (n : Fin 4) (l : Lane) : (s.setLane n l).presenceValue = s.presenceValue := rfl
@[simp] theorem setLane_presenceCount (s : State) (n : Fin 4) (l : Lane) : (s.setLane n l).presenceCount = s.presenceCount := rfl
@[simp] theorem setLane_tapQueue (s : State) (n : Fin 4) (l : Lane) : (s.setLane n l).tapQueue = s.tapQueue := rfl
@[simp] theorem setLane_ports (s : State) (n : Fin 4) (l : Lane) : (s.setLane n l).ports = s.ports := rfl
@[simp] theorem setLane_withdrawal (s : State) (n : Fin 4) (l : Lane) : (s.setLane n l).withdrawal = s.withdrawal := rfl
@[simp] theorem setLane_withdrawalsWaiting (s : State) (n : Fin 4) (l : Lane) : (s.setLane n l).withdrawalsWaiting = s.withdrawalsWaiting := rfl
@[simp] theorem setLane_creditSweep (s : State) (n : Fin 4) (l : Lane) : (s.setLane n l).creditSweep = s.creditSweep := rfl
@[simp] theorem setLane_closuresWaiting (s : State) (n : Fin 4) (l : Lane) : (s.setLane n l).closuresWaiting = s.closuresWaiting := rfl
@[simp] theorem setLane_lanesWaiting (s : State) (n : Fin 4) (l : Lane) : (s.setLane n l).lanesWaiting = s.lanesWaiting := rfl
@[simp] theorem setLane_journal (s : State) (n : Fin 4) (l : Lane) : (s.setLane n l).journal = s.journal := rfl
@[simp] theorem setLane_pending (s : State) (n : Fin 4) (l : Lane) : (s.setLane n l).pending = s.pending := rfl

@[simp] theorem modLane_mem (s : State) (n : Fin 4) (f : Lane → Lane) : (s.modLane n f).mem = s.mem := rfl
@[simp] theorem modLane_attn (s : State) (n : Fin 4) (f : Lane → Lane) : (s.modLane n f).attn = s.attn := rfl
@[simp] theorem modLane_attnMask (s : State) (n : Fin 4) (f : Lane → Lane) : (s.modLane n f).attnMask = s.attnMask := rfl
@[simp] theorem modLane_timeUnsetRefused (s : State) (n : Fin 4) (f : Lane → Lane) : (s.modLane n f).timeUnsetRefused = s.timeUnsetRefused := rfl
@[simp] theorem modLane_station (s : State) (n : Fin 4) (f : Lane → Lane) : (s.modLane n f).station = s.station := rfl
@[simp] theorem modLane_startPhase (s : State) (n : Fin 4) (f : Lane → Lane) : (s.modLane n f).startPhase = s.startPhase := rfl
@[simp] theorem modLane_startPos (s : State) (n : Fin 4) (f : Lane → Lane) : (s.modLane n f).startPos = s.startPos := rfl
@[simp] theorem modLane_freeCount (s : State) (n : Fin 4) (f : Lane → Lane) : (s.modLane n f).freeCount = s.freeCount := rfl
@[simp] theorem modLane_online (s : State) (n : Fin 4) (f : Lane → Lane) : (s.modLane n f).online = s.online := rfl
@[simp] theorem modLane_freeFlow (s : State) (n : Fin 4) (f : Lane → Lane) : (s.modLane n f).freeFlow = s.freeFlow := rfl
@[simp] theorem modLane_evacuate (s : State) (n : Fin 4) (f : Lane → Lane) : (s.modLane n f).evacuate = s.evacuate := rfl
@[simp] theorem modLane_evacuatePin (s : State) (n : Fin 4) (f : Lane → Lane) : (s.modLane n f).evacuatePin = s.evacuatePin := rfl
@[simp] theorem modLane_liftNumber (s : State) (n : Fin 4) (f : Lane → Lane) : (s.modLane n f).liftNumber = s.liftNumber := rfl
@[simp] theorem modLane_now (s : State) (n : Fin 4) (f : Lane → Lane) : (s.modLane n f).now = s.now := rfl
@[simp] theorem modLane_divider (s : State) (n : Fin 4) (f : Lane → Lane) : (s.modLane n f).divider = s.divider := rfl
@[simp] theorem modLane_dividerTaken (s : State) (n : Fin 4) (f : Lane → Lane) : (s.modLane n f).dividerTaken = s.dividerTaken := rfl
@[simp] theorem modLane_carrier (s : State) (n : Fin 4) (f : Lane → Lane) : (s.modLane n f).carrier = s.carrier := rfl
@[simp] theorem modLane_timeSet (s : State) (n : Fin 4) (f : Lane → Lane) : (s.modLane n f).timeSet = s.timeSet := rfl
@[simp] theorem modLane_day (s : State) (n : Fin 4) (f : Lane → Lane) : (s.modLane n f).day = s.day := rfl
@[simp] theorem modLane_ms (s : State) (n : Fin 4) (f : Lane → Lane) : (s.modLane n f).ms = s.ms := rfl
@[simp] theorem modLane_dayEnd (s : State) (n : Fin 4) (f : Lane → Lane) : (s.modLane n f).dayEnd = s.dayEnd := rfl
@[simp] theorem modLane_options (s : State) (n : Fin 4) (f : Lane → Lane) : (s.modLane n f).options = s.options := rfl
@[simp] theorem modLane_sweepTimer (s : State) (n : Fin 4) (f : Lane → Lane) : (s.modLane n f).sweepTimer = s.sweepTimer := rfl
@[simp] theorem modLane_sweepDue (s : State) (n : Fin 4) (f : Lane → Lane) : (s.modLane n f).sweepDue = s.sweepDue := rfl
@[simp] theorem modLane_sweepNext (s : State) (n : Fin 4) (f : Lane → Lane) : (s.modLane n f).sweepNext = s.sweepNext := rfl
@[simp] theorem modLane_presenceTimer (s : State) (n : Fin 4) (f : Lane → Lane) : (s.modLane n f).presenceTimer = s.presenceTimer := rfl
@[simp] theorem modLane_presenceDue (s : State) (n : Fin 4) (f : Lane → Lane) : (s.modLane n f).presenceDue = s.presenceDue := rfl
@[simp] theorem modLane_presenceValue (s : State) (n : Fin 4) (f : Lane → Lane) : (s.modLane n f).presenceValue = s.presenceValue := rfl
@[simp] theorem modLane_presenceCount (s : State) (n : Fin 4) (f : Lane → Lane) : (s.modLane n f).presenceCount = s.presenceCount := rfl
@[simp] theorem modLane_tapQueue (s : State) (n : Fin 4) (f : Lane → Lane) : (s.modLane n f).tapQueue = s.tapQueue := rfl
@[simp] theorem modLane_ports (s : State) (n : Fin 4) (f : Lane → Lane) : (s.modLane n f).ports = s.ports := rfl
@[simp] theorem modLane_withdrawal (s : State) (n : Fin 4) (f : Lane → Lane) : (s.modLane n f).withdrawal = s.withdrawal := rfl
@[simp] theorem modLane_withdrawalsWaiting (s : State) (n : Fin 4) (f : Lane → Lane) : (s.modLane n f).withdrawalsWaiting = s.withdrawalsWaiting := rfl
@[simp] theorem modLane_creditSweep (s : State) (n : Fin 4) (f : Lane → Lane) : (s.modLane n f).creditSweep = s.creditSweep := rfl
@[simp] theorem modLane_closuresWaiting (s : State) (n : Fin 4) (f : Lane → Lane) : (s.modLane n f).closuresWaiting = s.closuresWaiting := rfl
@[simp] theorem modLane_lanesWaiting (s : State) (n : Fin 4) (f : Lane → Lane) : (s.modLane n f).lanesWaiting = s.lanesWaiting := rfl
@[simp] theorem modLane_journal (s : State) (n : Fin 4) (f : Lane → Lane) : (s.modLane n f).journal = s.journal := rfl
@[simp] theorem modLane_pending (s : State) (n : Fin 4) (f : Lane → Lane) : (s.modLane n f).pending = s.pending := rfl

@[simp] theorem setPort_mem (s : State) (p : Fin 4) (x : Port) : (s.setPort p x).mem = s.mem := rfl
@[simp] theorem setPort_attn (s : State) (p : Fin 4) (x : Port) : (s.setPort p x).attn = s.attn := rfl
@[simp] theorem setPort_attnMask (s : State) (p : Fin 4) (x : Port) : (s.setPort p x).attnMask = s.attnMask := rfl
@[simp] theorem setPort_timeUnsetRefused (s : State) (p : Fin 4) (x : Port) : (s.setPort p x).timeUnsetRefused = s.timeUnsetRefused := rfl
@[simp] theorem setPort_station (s : State) (p : Fin 4) (x : Port) : (s.setPort p x).station = s.station := rfl
@[simp] theorem setPort_startPhase (s : State) (p : Fin 4) (x : Port) : (s.setPort p x).startPhase = s.startPhase := rfl
@[simp] theorem setPort_startPos (s : State) (p : Fin 4) (x : Port) : (s.setPort p x).startPos = s.startPos := rfl
@[simp] theorem setPort_freeCount (s : State) (p : Fin 4) (x : Port) : (s.setPort p x).freeCount = s.freeCount := rfl
@[simp] theorem setPort_online (s : State) (p : Fin 4) (x : Port) : (s.setPort p x).online = s.online := rfl
@[simp] theorem setPort_freeFlow (s : State) (p : Fin 4) (x : Port) : (s.setPort p x).freeFlow = s.freeFlow := rfl
@[simp] theorem setPort_evacuate (s : State) (p : Fin 4) (x : Port) : (s.setPort p x).evacuate = s.evacuate := rfl
@[simp] theorem setPort_evacuatePin (s : State) (p : Fin 4) (x : Port) : (s.setPort p x).evacuatePin = s.evacuatePin := rfl
@[simp] theorem setPort_liftNumber (s : State) (p : Fin 4) (x : Port) : (s.setPort p x).liftNumber = s.liftNumber := rfl
@[simp] theorem setPort_now (s : State) (p : Fin 4) (x : Port) : (s.setPort p x).now = s.now := rfl
@[simp] theorem setPort_divider (s : State) (p : Fin 4) (x : Port) : (s.setPort p x).divider = s.divider := rfl
@[simp] theorem setPort_dividerTaken (s : State) (p : Fin 4) (x : Port) : (s.setPort p x).dividerTaken = s.dividerTaken := rfl
@[simp] theorem setPort_carrier (s : State) (p : Fin 4) (x : Port) : (s.setPort p x).carrier = s.carrier := rfl
@[simp] theorem setPort_timeSet (s : State) (p : Fin 4) (x : Port) : (s.setPort p x).timeSet = s.timeSet := rfl
@[simp] theorem setPort_day (s : State) (p : Fin 4) (x : Port) : (s.setPort p x).day = s.day := rfl
@[simp] theorem setPort_ms (s : State) (p : Fin 4) (x : Port) : (s.setPort p x).ms = s.ms := rfl
@[simp] theorem setPort_dayEnd (s : State) (p : Fin 4) (x : Port) : (s.setPort p x).dayEnd = s.dayEnd := rfl
@[simp] theorem setPort_options (s : State) (p : Fin 4) (x : Port) : (s.setPort p x).options = s.options := rfl
@[simp] theorem setPort_sweepTimer (s : State) (p : Fin 4) (x : Port) : (s.setPort p x).sweepTimer = s.sweepTimer := rfl
@[simp] theorem setPort_sweepDue (s : State) (p : Fin 4) (x : Port) : (s.setPort p x).sweepDue = s.sweepDue := rfl
@[simp] theorem setPort_sweepNext (s : State) (p : Fin 4) (x : Port) : (s.setPort p x).sweepNext = s.sweepNext := rfl
@[simp] theorem setPort_presenceTimer (s : State) (p : Fin 4) (x : Port) : (s.setPort p x).presenceTimer = s.presenceTimer := rfl
@[simp] theorem setPort_presenceDue (s : State) (p : Fin 4) (x : Port) : (s.setPort p x).presenceDue = s.presenceDue := rfl
@[simp] theorem setPort_presenceValue (s : State) (p : Fin 4) (x : Port) : (s.setPort p x).presenceValue = s.presenceValue := rfl
@[simp] theorem setPort_presenceCount (s : State) (p : Fin 4) (x : Port) : (s.setPort p x).presenceCount = s.presenceCount := rfl
@[simp] theorem setPort_tapQueue (s : State) (p : Fin 4) (x : Port) : (s.setPort p x).tapQueue = s.tapQueue := rfl
@[simp] theorem setPort_lanes (s : State) (p : Fin 4) (x : Port) : (s.setPort p x).lanes = s.lanes := rfl
@[simp] theorem setPort_withdrawal (s : State) (p : Fin 4) (x : Port) : (s.setPort p x).withdrawal = s.withdrawal := rfl
@[simp] theorem setPort_withdrawalsWaiting (s : State) (p : Fin 4) (x : Port) : (s.setPort p x).withdrawalsWaiting = s.withdrawalsWaiting := rfl
@[simp] theorem setPort_creditSweep (s : State) (p : Fin 4) (x : Port) : (s.setPort p x).creditSweep = s.creditSweep := rfl
@[simp] theorem setPort_closuresWaiting (s : State) (p : Fin 4) (x : Port) : (s.setPort p x).closuresWaiting = s.closuresWaiting := rfl
@[simp] theorem setPort_lanesWaiting (s : State) (p : Fin 4) (x : Port) : (s.setPort p x).lanesWaiting = s.lanesWaiting := rfl
@[simp] theorem setPort_journal (s : State) (p : Fin 4) (x : Port) : (s.setPort p x).journal = s.journal := rfl
@[simp] theorem setPort_pending (s : State) (p : Fin 4) (x : Port) : (s.setPort p x).pending = s.pending := rfl

@[simp] theorem modPort_mem (s : State) (p : Fin 4) (f : Port → Port) : (s.modPort p f).mem = s.mem := rfl
@[simp] theorem modPort_attn (s : State) (p : Fin 4) (f : Port → Port) : (s.modPort p f).attn = s.attn := rfl
@[simp] theorem modPort_attnMask (s : State) (p : Fin 4) (f : Port → Port) : (s.modPort p f).attnMask = s.attnMask := rfl
@[simp] theorem modPort_timeUnsetRefused (s : State) (p : Fin 4) (f : Port → Port) : (s.modPort p f).timeUnsetRefused = s.timeUnsetRefused := rfl
@[simp] theorem modPort_station (s : State) (p : Fin 4) (f : Port → Port) : (s.modPort p f).station = s.station := rfl
@[simp] theorem modPort_startPhase (s : State) (p : Fin 4) (f : Port → Port) : (s.modPort p f).startPhase = s.startPhase := rfl
@[simp] theorem modPort_startPos (s : State) (p : Fin 4) (f : Port → Port) : (s.modPort p f).startPos = s.startPos := rfl
@[simp] theorem modPort_freeCount (s : State) (p : Fin 4) (f : Port → Port) : (s.modPort p f).freeCount = s.freeCount := rfl
@[simp] theorem modPort_online (s : State) (p : Fin 4) (f : Port → Port) : (s.modPort p f).online = s.online := rfl
@[simp] theorem modPort_freeFlow (s : State) (p : Fin 4) (f : Port → Port) : (s.modPort p f).freeFlow = s.freeFlow := rfl
@[simp] theorem modPort_evacuate (s : State) (p : Fin 4) (f : Port → Port) : (s.modPort p f).evacuate = s.evacuate := rfl
@[simp] theorem modPort_evacuatePin (s : State) (p : Fin 4) (f : Port → Port) : (s.modPort p f).evacuatePin = s.evacuatePin := rfl
@[simp] theorem modPort_liftNumber (s : State) (p : Fin 4) (f : Port → Port) : (s.modPort p f).liftNumber = s.liftNumber := rfl
@[simp] theorem modPort_now (s : State) (p : Fin 4) (f : Port → Port) : (s.modPort p f).now = s.now := rfl
@[simp] theorem modPort_divider (s : State) (p : Fin 4) (f : Port → Port) : (s.modPort p f).divider = s.divider := rfl
@[simp] theorem modPort_dividerTaken (s : State) (p : Fin 4) (f : Port → Port) : (s.modPort p f).dividerTaken = s.dividerTaken := rfl
@[simp] theorem modPort_carrier (s : State) (p : Fin 4) (f : Port → Port) : (s.modPort p f).carrier = s.carrier := rfl
@[simp] theorem modPort_timeSet (s : State) (p : Fin 4) (f : Port → Port) : (s.modPort p f).timeSet = s.timeSet := rfl
@[simp] theorem modPort_day (s : State) (p : Fin 4) (f : Port → Port) : (s.modPort p f).day = s.day := rfl
@[simp] theorem modPort_ms (s : State) (p : Fin 4) (f : Port → Port) : (s.modPort p f).ms = s.ms := rfl
@[simp] theorem modPort_dayEnd (s : State) (p : Fin 4) (f : Port → Port) : (s.modPort p f).dayEnd = s.dayEnd := rfl
@[simp] theorem modPort_options (s : State) (p : Fin 4) (f : Port → Port) : (s.modPort p f).options = s.options := rfl
@[simp] theorem modPort_sweepTimer (s : State) (p : Fin 4) (f : Port → Port) : (s.modPort p f).sweepTimer = s.sweepTimer := rfl
@[simp] theorem modPort_sweepDue (s : State) (p : Fin 4) (f : Port → Port) : (s.modPort p f).sweepDue = s.sweepDue := rfl
@[simp] theorem modPort_sweepNext (s : State) (p : Fin 4) (f : Port → Port) : (s.modPort p f).sweepNext = s.sweepNext := rfl
@[simp] theorem modPort_presenceTimer (s : State) (p : Fin 4) (f : Port → Port) : (s.modPort p f).presenceTimer = s.presenceTimer := rfl
@[simp] theorem modPort_presenceDue (s : State) (p : Fin 4) (f : Port → Port) : (s.modPort p f).presenceDue = s.presenceDue := rfl
@[simp] theorem modPort_presenceValue (s : State) (p : Fin 4) (f : Port → Port) : (s.modPort p f).presenceValue = s.presenceValue := rfl
@[simp] theorem modPort_presenceCount (s : State) (p : Fin 4) (f : Port → Port) : (s.modPort p f).presenceCount = s.presenceCount := rfl
@[simp] theorem modPort_tapQueue (s : State) (p : Fin 4) (f : Port → Port) : (s.modPort p f).tapQueue = s.tapQueue := rfl
@[simp] theorem modPort_lanes (s : State) (p : Fin 4) (f : Port → Port) : (s.modPort p f).lanes = s.lanes := rfl
@[simp] theorem modPort_withdrawal (s : State) (p : Fin 4) (f : Port → Port) : (s.modPort p f).withdrawal = s.withdrawal := rfl
@[simp] theorem modPort_withdrawalsWaiting (s : State) (p : Fin 4) (f : Port → Port) : (s.modPort p f).withdrawalsWaiting = s.withdrawalsWaiting := rfl
@[simp] theorem modPort_creditSweep (s : State) (p : Fin 4) (f : Port → Port) : (s.modPort p f).creditSweep = s.creditSweep := rfl
@[simp] theorem modPort_closuresWaiting (s : State) (p : Fin 4) (f : Port → Port) : (s.modPort p f).closuresWaiting = s.closuresWaiting := rfl
@[simp] theorem modPort_lanesWaiting (s : State) (p : Fin 4) (f : Port → Port) : (s.modPort p f).lanesWaiting = s.lanesWaiting := rfl
@[simp] theorem modPort_journal (s : State) (p : Fin 4) (f : Port → Port) : (s.modPort p f).journal = s.journal := rfl
@[simp] theorem modPort_pending (s : State) (p : Fin 4) (f : Port → Port) : (s.modPort p f).pending = s.pending := rfl

@[simp] theorem poke_attn (s : State) (a n v : Nat) : (s.poke a n v).attn = s.attn := rfl
@[simp] theorem poke_attnMask (s : State) (a n v : Nat) : (s.poke a n v).attnMask = s.attnMask := rfl
@[simp] theorem poke_timeUnsetRefused (s : State) (a n v : Nat) : (s.poke a n v).timeUnsetRefused = s.timeUnsetRefused := rfl
@[simp] theorem poke_station (s : State) (a n v : Nat) : (s.poke a n v).station = s.station := rfl
@[simp] theorem poke_startPhase (s : State) (a n v : Nat) : (s.poke a n v).startPhase = s.startPhase := rfl
@[simp] theorem poke_startPos (s : State) (a n v : Nat) : (s.poke a n v).startPos = s.startPos := rfl
@[simp] theorem poke_freeCount (s : State) (a n v : Nat) : (s.poke a n v).freeCount = s.freeCount := rfl
@[simp] theorem poke_online (s : State) (a n v : Nat) : (s.poke a n v).online = s.online := rfl
@[simp] theorem poke_freeFlow (s : State) (a n v : Nat) : (s.poke a n v).freeFlow = s.freeFlow := rfl
@[simp] theorem poke_evacuate (s : State) (a n v : Nat) : (s.poke a n v).evacuate = s.evacuate := rfl
@[simp] theorem poke_evacuatePin (s : State) (a n v : Nat) : (s.poke a n v).evacuatePin = s.evacuatePin := rfl
@[simp] theorem poke_liftNumber (s : State) (a n v : Nat) : (s.poke a n v).liftNumber = s.liftNumber := rfl
@[simp] theorem poke_now (s : State) (a n v : Nat) : (s.poke a n v).now = s.now := rfl
@[simp] theorem poke_divider (s : State) (a n v : Nat) : (s.poke a n v).divider = s.divider := rfl
@[simp] theorem poke_dividerTaken (s : State) (a n v : Nat) : (s.poke a n v).dividerTaken = s.dividerTaken := rfl
@[simp] theorem poke_carrier (s : State) (a n v : Nat) : (s.poke a n v).carrier = s.carrier := rfl
@[simp] theorem poke_timeSet (s : State) (a n v : Nat) : (s.poke a n v).timeSet = s.timeSet := rfl
@[simp] theorem poke_day (s : State) (a n v : Nat) : (s.poke a n v).day = s.day := rfl
@[simp] theorem poke_ms (s : State) (a n v : Nat) : (s.poke a n v).ms = s.ms := rfl
@[simp] theorem poke_dayEnd (s : State) (a n v : Nat) : (s.poke a n v).dayEnd = s.dayEnd := rfl
@[simp] theorem poke_options (s : State) (a n v : Nat) : (s.poke a n v).options = s.options := rfl
@[simp] theorem poke_sweepTimer (s : State) (a n v : Nat) : (s.poke a n v).sweepTimer = s.sweepTimer := rfl
@[simp] theorem poke_sweepDue (s : State) (a n v : Nat) : (s.poke a n v).sweepDue = s.sweepDue := rfl
@[simp] theorem poke_sweepNext (s : State) (a n v : Nat) : (s.poke a n v).sweepNext = s.sweepNext := rfl
@[simp] theorem poke_presenceTimer (s : State) (a n v : Nat) : (s.poke a n v).presenceTimer = s.presenceTimer := rfl
@[simp] theorem poke_presenceDue (s : State) (a n v : Nat) : (s.poke a n v).presenceDue = s.presenceDue := rfl
@[simp] theorem poke_presenceValue (s : State) (a n v : Nat) : (s.poke a n v).presenceValue = s.presenceValue := rfl
@[simp] theorem poke_presenceCount (s : State) (a n v : Nat) : (s.poke a n v).presenceCount = s.presenceCount := rfl
@[simp] theorem poke_tapQueue (s : State) (a n v : Nat) : (s.poke a n v).tapQueue = s.tapQueue := rfl
@[simp] theorem poke_lanes (s : State) (a n v : Nat) : (s.poke a n v).lanes = s.lanes := rfl
@[simp] theorem poke_ports (s : State) (a n v : Nat) : (s.poke a n v).ports = s.ports := rfl
@[simp] theorem poke_withdrawal (s : State) (a n v : Nat) : (s.poke a n v).withdrawal = s.withdrawal := rfl
@[simp] theorem poke_withdrawalsWaiting (s : State) (a n v : Nat) : (s.poke a n v).withdrawalsWaiting = s.withdrawalsWaiting := rfl
@[simp] theorem poke_creditSweep (s : State) (a n v : Nat) : (s.poke a n v).creditSweep = s.creditSweep := rfl
@[simp] theorem poke_closuresWaiting (s : State) (a n v : Nat) : (s.poke a n v).closuresWaiting = s.closuresWaiting := rfl
@[simp] theorem poke_lanesWaiting (s : State) (a n v : Nat) : (s.poke a n v).lanesWaiting = s.lanesWaiting := rfl
@[simp] theorem poke_journal (s : State) (a n v : Nat) : (s.poke a n v).journal = s.journal := rfl
@[simp] theorem poke_pending (s : State) (a n v : Nat) : (s.poke a n v).pending = s.pending := rfl

@[simp] theorem raise_mem (c : Cause) (s : State) : (raise c s).mem = s.mem := rfl
@[simp] theorem raise_attnMask (c : Cause) (s : State) : (raise c s).attnMask = s.attnMask := rfl
@[simp] theorem raise_timeUnsetRefused (c : Cause) (s : State) : (raise c s).timeUnsetRefused = s.timeUnsetRefused := rfl
@[simp] theorem raise_station (c : Cause) (s : State) : (raise c s).station = s.station := rfl
@[simp] theorem raise_startPhase (c : Cause) (s : State) : (raise c s).startPhase = s.startPhase := rfl
@[simp] theorem raise_startPos (c : Cause) (s : State) : (raise c s).startPos = s.startPos := rfl
@[simp] theorem raise_freeCount (c : Cause) (s : State) : (raise c s).freeCount = s.freeCount := rfl
@[simp] theorem raise_online (c : Cause) (s : State) : (raise c s).online = s.online := rfl
@[simp] theorem raise_freeFlow (c : Cause) (s : State) : (raise c s).freeFlow = s.freeFlow := rfl
@[simp] theorem raise_evacuate (c : Cause) (s : State) : (raise c s).evacuate = s.evacuate := rfl
@[simp] theorem raise_evacuatePin (c : Cause) (s : State) : (raise c s).evacuatePin = s.evacuatePin := rfl
@[simp] theorem raise_liftNumber (c : Cause) (s : State) : (raise c s).liftNumber = s.liftNumber := rfl
@[simp] theorem raise_now (c : Cause) (s : State) : (raise c s).now = s.now := rfl
@[simp] theorem raise_divider (c : Cause) (s : State) : (raise c s).divider = s.divider := rfl
@[simp] theorem raise_dividerTaken (c : Cause) (s : State) : (raise c s).dividerTaken = s.dividerTaken := rfl
@[simp] theorem raise_carrier (c : Cause) (s : State) : (raise c s).carrier = s.carrier := rfl
@[simp] theorem raise_timeSet (c : Cause) (s : State) : (raise c s).timeSet = s.timeSet := rfl
@[simp] theorem raise_day (c : Cause) (s : State) : (raise c s).day = s.day := rfl
@[simp] theorem raise_ms (c : Cause) (s : State) : (raise c s).ms = s.ms := rfl
@[simp] theorem raise_dayEnd (c : Cause) (s : State) : (raise c s).dayEnd = s.dayEnd := rfl
@[simp] theorem raise_options (c : Cause) (s : State) : (raise c s).options = s.options := rfl
@[simp] theorem raise_sweepTimer (c : Cause) (s : State) : (raise c s).sweepTimer = s.sweepTimer := rfl
@[simp] theorem raise_sweepDue (c : Cause) (s : State) : (raise c s).sweepDue = s.sweepDue := rfl
@[simp] theorem raise_sweepNext (c : Cause) (s : State) : (raise c s).sweepNext = s.sweepNext := rfl
@[simp] theorem raise_presenceTimer (c : Cause) (s : State) : (raise c s).presenceTimer = s.presenceTimer := rfl
@[simp] theorem raise_presenceDue (c : Cause) (s : State) : (raise c s).presenceDue = s.presenceDue := rfl
@[simp] theorem raise_presenceValue (c : Cause) (s : State) : (raise c s).presenceValue = s.presenceValue := rfl
@[simp] theorem raise_presenceCount (c : Cause) (s : State) : (raise c s).presenceCount = s.presenceCount := rfl
@[simp] theorem raise_tapQueue (c : Cause) (s : State) : (raise c s).tapQueue = s.tapQueue := rfl
@[simp] theorem raise_lanes (c : Cause) (s : State) : (raise c s).lanes = s.lanes := rfl
@[simp] theorem raise_ports (c : Cause) (s : State) : (raise c s).ports = s.ports := rfl
@[simp] theorem raise_withdrawal (c : Cause) (s : State) : (raise c s).withdrawal = s.withdrawal := rfl
@[simp] theorem raise_withdrawalsWaiting (c : Cause) (s : State) : (raise c s).withdrawalsWaiting = s.withdrawalsWaiting := rfl
@[simp] theorem raise_creditSweep (c : Cause) (s : State) : (raise c s).creditSweep = s.creditSweep := rfl
@[simp] theorem raise_closuresWaiting (c : Cause) (s : State) : (raise c s).closuresWaiting = s.closuresWaiting := rfl
@[simp] theorem raise_lanesWaiting (c : Cause) (s : State) : (raise c s).lanesWaiting = s.lanesWaiting := rfl
@[simp] theorem raise_journal (c : Cause) (s : State) : (raise c s).journal = s.journal := rfl
@[simp] theorem raise_pending (c : Cause) (s : State) : (raise c s).pending = s.pending := rfl

@[simp] theorem takePledge_mem (s : State) : (takePledge s).mem = s.mem := rfl
@[simp] theorem takePledge_attn (s : State) : (takePledge s).attn = s.attn := rfl
@[simp] theorem takePledge_attnMask (s : State) : (takePledge s).attnMask = s.attnMask := rfl
@[simp] theorem takePledge_timeUnsetRefused (s : State) : (takePledge s).timeUnsetRefused = s.timeUnsetRefused := rfl
@[simp] theorem takePledge_station (s : State) : (takePledge s).station = s.station := rfl
@[simp] theorem takePledge_startPhase (s : State) : (takePledge s).startPhase = s.startPhase := rfl
@[simp] theorem takePledge_startPos (s : State) : (takePledge s).startPos = s.startPos := rfl
@[simp] theorem takePledge_freeCount (s : State) : (takePledge s).freeCount = s.freeCount := rfl
@[simp] theorem takePledge_online (s : State) : (takePledge s).online = s.online := rfl
@[simp] theorem takePledge_freeFlow (s : State) : (takePledge s).freeFlow = s.freeFlow := rfl
@[simp] theorem takePledge_evacuate (s : State) : (takePledge s).evacuate = s.evacuate := rfl
@[simp] theorem takePledge_evacuatePin (s : State) : (takePledge s).evacuatePin = s.evacuatePin := rfl
@[simp] theorem takePledge_liftNumber (s : State) : (takePledge s).liftNumber = s.liftNumber := rfl
@[simp] theorem takePledge_now (s : State) : (takePledge s).now = s.now := rfl
@[simp] theorem takePledge_divider (s : State) : (takePledge s).divider = s.divider := rfl
@[simp] theorem takePledge_dividerTaken (s : State) : (takePledge s).dividerTaken = s.dividerTaken := rfl
@[simp] theorem takePledge_carrier (s : State) : (takePledge s).carrier = s.carrier := rfl
@[simp] theorem takePledge_timeSet (s : State) : (takePledge s).timeSet = s.timeSet := rfl
@[simp] theorem takePledge_day (s : State) : (takePledge s).day = s.day := rfl
@[simp] theorem takePledge_ms (s : State) : (takePledge s).ms = s.ms := rfl
@[simp] theorem takePledge_dayEnd (s : State) : (takePledge s).dayEnd = s.dayEnd := rfl
@[simp] theorem takePledge_options (s : State) : (takePledge s).options = s.options := rfl
@[simp] theorem takePledge_sweepTimer (s : State) : (takePledge s).sweepTimer = s.sweepTimer := rfl
@[simp] theorem takePledge_sweepDue (s : State) : (takePledge s).sweepDue = s.sweepDue := rfl
@[simp] theorem takePledge_sweepNext (s : State) : (takePledge s).sweepNext = s.sweepNext := rfl
@[simp] theorem takePledge_presenceTimer (s : State) : (takePledge s).presenceTimer = s.presenceTimer := rfl
@[simp] theorem takePledge_presenceDue (s : State) : (takePledge s).presenceDue = s.presenceDue := rfl
@[simp] theorem takePledge_presenceValue (s : State) : (takePledge s).presenceValue = s.presenceValue := rfl
@[simp] theorem takePledge_presenceCount (s : State) : (takePledge s).presenceCount = s.presenceCount := rfl
@[simp] theorem takePledge_tapQueue (s : State) : (takePledge s).tapQueue = s.tapQueue := rfl
@[simp] theorem takePledge_lanes (s : State) : (takePledge s).lanes = s.lanes := rfl
@[simp] theorem takePledge_ports (s : State) : (takePledge s).ports = s.ports := rfl
@[simp] theorem takePledge_withdrawal (s : State) : (takePledge s).withdrawal = s.withdrawal := rfl
@[simp] theorem takePledge_withdrawalsWaiting (s : State) : (takePledge s).withdrawalsWaiting = s.withdrawalsWaiting := rfl
@[simp] theorem takePledge_creditSweep (s : State) : (takePledge s).creditSweep = s.creditSweep := rfl
@[simp] theorem takePledge_closuresWaiting (s : State) : (takePledge s).closuresWaiting = s.closuresWaiting := rfl
@[simp] theorem takePledge_lanesWaiting (s : State) : (takePledge s).lanesWaiting = s.lanesWaiting := rfl
@[simp] theorem takePledge_pending (s : State) : (takePledge s).pending = s.pending := rfl

/-! ### An event and a step -/

/-- An event answers the next state, whatever it did. -/
@[simp] theorem event_eq (before after : State) : event before after = .next (settleOutputs before after) := rfl

/-- A step runs the front of the queue. -/
theorem step_cons (s : State) (c : Instr) (rest : List Instr) :
    step { s with pending := c :: rest } = exec c { s with pending := rest } := rfl

end Machine

end Sys2Proof
end

