-- ==== Sys2Proof/Laws/Frames.lean ====
section
/-! SUPPORT. The frames of the shared operations. `State.rest` is all of a state but memory, attention, lanes, ports and the
journal; an operation that keeps it changes at most those five, and one lemma each says which of the five it keeps. -/

namespace Sys2Proof.Machine

/-- A state with memory, attention, lanes, ports and the journal blanked. -/
def State.rest (s : State) : State :=
  { s with mem := [], attn := 0, lanes := lanesAtReset, ports := portsAtReset, journal := .atReset }

/-- Equal rests: the states differ in the five fields alone. -/
theorem eq_of_rest {s t : State} (h : t.rest = s.rest) :
    t = { s with mem := t.mem, attn := t.attn, lanes := t.lanes, ports := t.ports, journal := t.journal } := by
  calc
    t = { t.rest with mem := t.mem, attn := t.attn, lanes := t.lanes, ports := t.ports, journal := t.journal } := rfl
    _ = { s.rest with mem := t.mem, attn := t.attn, lanes := t.lanes, ports := t.ports, journal := t.journal } := by
      rw [h]
    _ = _ := rfl

theorem attnMask_of_rest {s t : State} (h : t.rest = s.rest) : t.attnMask = s.attnMask := (congrArg State.attnMask h : t.rest.attnMask = s.rest.attnMask)
theorem timeUnsetRefused_of_rest {s t : State} (h : t.rest = s.rest) : t.timeUnsetRefused = s.timeUnsetRefused := (congrArg State.timeUnsetRefused h : t.rest.timeUnsetRefused = s.rest.timeUnsetRefused)
theorem station_of_rest {s t : State} (h : t.rest = s.rest) : t.station = s.station := (congrArg State.station h : t.rest.station = s.rest.station)
theorem startPhase_of_rest {s t : State} (h : t.rest = s.rest) : t.startPhase = s.startPhase := (congrArg State.startPhase h : t.rest.startPhase = s.rest.startPhase)
theorem startPos_of_rest {s t : State} (h : t.rest = s.rest) : t.startPos = s.startPos := (congrArg State.startPos h : t.rest.startPos = s.rest.startPos)
theorem freeCount_of_rest {s t : State} (h : t.rest = s.rest) : t.freeCount = s.freeCount := (congrArg State.freeCount h : t.rest.freeCount = s.rest.freeCount)
theorem online_of_rest {s t : State} (h : t.rest = s.rest) : t.online = s.online := (congrArg State.online h : t.rest.online = s.rest.online)
theorem freeFlow_of_rest {s t : State} (h : t.rest = s.rest) : t.freeFlow = s.freeFlow := (congrArg State.freeFlow h : t.rest.freeFlow = s.rest.freeFlow)
theorem evacuate_of_rest {s t : State} (h : t.rest = s.rest) : t.evacuate = s.evacuate := (congrArg State.evacuate h : t.rest.evacuate = s.rest.evacuate)
theorem liftNumber_of_rest {s t : State} (h : t.rest = s.rest) : t.liftNumber = s.liftNumber := (congrArg State.liftNumber h : t.rest.liftNumber = s.rest.liftNumber)
theorem now_of_rest {s t : State} (h : t.rest = s.rest) : t.now = s.now := (congrArg State.now h : t.rest.now = s.rest.now)
theorem divider_of_rest {s t : State} (h : t.rest = s.rest) : t.divider = s.divider := (congrArg State.divider h : t.rest.divider = s.rest.divider)
theorem dividerTaken_of_rest {s t : State} (h : t.rest = s.rest) : t.dividerTaken = s.dividerTaken := (congrArg State.dividerTaken h : t.rest.dividerTaken = s.rest.dividerTaken)
theorem timeSet_of_rest {s t : State} (h : t.rest = s.rest) : t.timeSet = s.timeSet := (congrArg State.timeSet h : t.rest.timeSet = s.rest.timeSet)
theorem day_of_rest {s t : State} (h : t.rest = s.rest) : t.day = s.day := (congrArg State.day h : t.rest.day = s.rest.day)
theorem ms_of_rest {s t : State} (h : t.rest = s.rest) : t.ms = s.ms := (congrArg State.ms h : t.rest.ms = s.rest.ms)
theorem dayEnd_of_rest {s t : State} (h : t.rest = s.rest) : t.dayEnd = s.dayEnd := (congrArg State.dayEnd h : t.rest.dayEnd = s.rest.dayEnd)
theorem options_of_rest {s t : State} (h : t.rest = s.rest) : t.options = s.options := (congrArg State.options h : t.rest.options = s.rest.options)
theorem sweepTimer_of_rest {s t : State} (h : t.rest = s.rest) : t.sweepTimer = s.sweepTimer := (congrArg State.sweepTimer h : t.rest.sweepTimer = s.rest.sweepTimer)
theorem sweepDue_of_rest {s t : State} (h : t.rest = s.rest) : t.sweepDue = s.sweepDue := (congrArg State.sweepDue h : t.rest.sweepDue = s.rest.sweepDue)
theorem sweepNext_of_rest {s t : State} (h : t.rest = s.rest) : t.sweepNext = s.sweepNext := (congrArg State.sweepNext h : t.rest.sweepNext = s.rest.sweepNext)
theorem presenceTimer_of_rest {s t : State} (h : t.rest = s.rest) : t.presenceTimer = s.presenceTimer := (congrArg State.presenceTimer h : t.rest.presenceTimer = s.rest.presenceTimer)
theorem presenceDue_of_rest {s t : State} (h : t.rest = s.rest) : t.presenceDue = s.presenceDue := (congrArg State.presenceDue h : t.rest.presenceDue = s.rest.presenceDue)
theorem presenceValue_of_rest {s t : State} (h : t.rest = s.rest) : t.presenceValue = s.presenceValue := (congrArg State.presenceValue h : t.rest.presenceValue = s.rest.presenceValue)
theorem presenceCount_of_rest {s t : State} (h : t.rest = s.rest) : t.presenceCount = s.presenceCount := (congrArg State.presenceCount h : t.rest.presenceCount = s.rest.presenceCount)
theorem tapQueue_of_rest {s t : State} (h : t.rest = s.rest) : t.tapQueue = s.tapQueue := (congrArg State.tapQueue h : t.rest.tapQueue = s.rest.tapQueue)
theorem withdrawal_of_rest {s t : State} (h : t.rest = s.rest) : t.withdrawal = s.withdrawal := (congrArg State.withdrawal h : t.rest.withdrawal = s.rest.withdrawal)
theorem withdrawalsWaiting_of_rest {s t : State} (h : t.rest = s.rest) : t.withdrawalsWaiting = s.withdrawalsWaiting := (congrArg State.withdrawalsWaiting h : t.rest.withdrawalsWaiting = s.rest.withdrawalsWaiting)
theorem creditSweep_of_rest {s t : State} (h : t.rest = s.rest) : t.creditSweep = s.creditSweep := (congrArg State.creditSweep h : t.rest.creditSweep = s.rest.creditSweep)
theorem closuresWaiting_of_rest {s t : State} (h : t.rest = s.rest) : t.closuresWaiting = s.closuresWaiting := (congrArg State.closuresWaiting h : t.rest.closuresWaiting = s.rest.closuresWaiting)
theorem lanesWaiting_of_rest {s t : State} (h : t.rest = s.rest) : t.lanesWaiting = s.lanesWaiting := (congrArg State.lanesWaiting h : t.rest.lanesWaiting = s.rest.lanesWaiting)
theorem pending_of_rest {s t : State} (h : t.rest = s.rest) : t.pending = s.pending := (congrArg State.pending h : t.rest.pending = s.rest.pending)

/-! ### Updates of one field -/

@[simp] theorem setLane_rest (s : State) (n : Fin 4) (l : Lane) : (s.setLane n l).rest = s.rest := rfl
@[simp] theorem modLane_rest (s : State) (n : Fin 4) (f : Lane → Lane) : (s.modLane n f).rest = s.rest := rfl
@[simp] theorem setPort_rest (s : State) (p : Fin 4) (x : Port) : (s.setPort p x).rest = s.rest := rfl
@[simp] theorem modPort_rest (s : State) (p : Fin 4) (f : Port → Port) : (s.modPort p f).rest = s.rest := rfl
@[simp] theorem poke_rest (s : State) (a n v : Nat) : (s.poke a n v).rest = s.rest := rfl
@[simp] theorem raise_rest (s : State) (c : Cause) : (raise c s).rest = s.rest := rfl
@[simp] theorem takePledge_rest (s : State) : (takePledge s).rest = s.rest := rfl
@[simp] theorem putPass_rest (s : State) (slot : Nat) (e : PassEntry) : (s.putPass slot e).rest = s.rest := rfl
@[simp] theorem with_mem_rest (s : State) (m : Memory) : ({ s with mem := m } : State).rest = s.rest := rfl
@[simp] theorem with_journal_rest (s : State) (j : Journal) : ({ s with journal := j } : State).rest = s.rest := rfl
@[simp] theorem with_lanes_rest (s : State) (l : Quad Lane) : ({ s with lanes := l } : State).rest = s.rest := rfl
@[simp] theorem with_ports_rest (s : State) (p : Quad Port) : ({ s with ports := p } : State).rest = s.rest := rfl
@[simp] theorem with_attn_rest (s : State) (a : BitVec 8) : ({ s with attn := a } : State).rest = s.rest := rfl
@[simp] theorem putPass_attn (s : State) (slot : Nat) (e : PassEntry) : (s.putPass slot e).attn = s.attn := rfl
@[simp] theorem putPass_lanes (s : State) (slot : Nat) (e : PassEntry) : (s.putPass slot e).lanes = s.lanes := rfl
@[simp] theorem putPass_ports (s : State) (slot : Nat) (e : PassEntry) : (s.putPass slot e).ports = s.ports := rfl
@[simp] theorem putPass_journal (s : State) (slot : Nat) (e : PassEntry) : (s.putPass slot e).journal = s.journal := rfl

/-! ### Records -/

@[simp] theorem ringWrite_rest (r : Record) (s : State) : (ringWrite r s).rest = s.rest := by
  simp only [ringWrite]; split <;> rfl
@[simp] theorem ringWrite_lanes (r : Record) (s : State) : (ringWrite r s).lanes = s.lanes := by
  simp only [ringWrite]; split <;> simp
@[simp] theorem ringWrite_ports (r : Record) (s : State) : (ringWrite r s).ports = s.ports := by
  simp only [ringWrite]; split <;> simp
@[simp] theorem holdRecord_rest (r : Record) (s : State) : (holdRecord r s).rest = s.rest := by
  simp only [holdRecord]; split <;> simp
@[simp] theorem holdRecord_mem (r : Record) (s : State) : (holdRecord r s).mem = s.mem := by
  simp only [holdRecord]; split <;> simp
@[simp] theorem holdRecord_lanes (r : Record) (s : State) : (holdRecord r s).lanes = s.lanes := by
  simp only [holdRecord]; split <;> simp
@[simp] theorem holdRecord_ports (r : Record) (s : State) : (holdRecord r s).ports = s.ports := by
  simp only [holdRecord]; split <;> simp
@[simp] theorem placeRecord_rest (r : Record) (s : State) : (placeRecord r s).rest = s.rest := by
  simp only [placeRecord]; split <;> simp
@[simp] theorem placeRecord_lanes (r : Record) (s : State) : (placeRecord r s).lanes = s.lanes := by
  simp only [placeRecord]; split <;> simp
@[simp] theorem placeRecord_ports (r : Record) (s : State) : (placeRecord r s).ports = s.ports := by
  simp only [placeRecord]; split <;> simp
@[simp] theorem appendPledged_rest (r : Record) (s : State) : (appendPledged r s).rest = s.rest := by simp [appendPledged]
@[simp] theorem appendPledged_lanes (r : Record) (s : State) : (appendPledged r s).lanes = s.lanes := by simp [appendPledged]
@[simp] theorem appendPledged_ports (r : Record) (s : State) : (appendPledged r s).ports = s.ports := by simp [appendPledged]
@[simp] theorem dropRecord_rest (s : State) : (dropRecord s).rest = s.rest := by
  simp only [dropRecord]; split <;> rfl
@[simp] theorem dropRecord_attn (s : State) : (dropRecord s).attn = s.attn := by
  simp only [dropRecord]; split <;> simp
@[simp] theorem dropRecord_lanes (s : State) : (dropRecord s).lanes = s.lanes := by
  simp only [dropRecord]; split <;> simp
@[simp] theorem dropRecord_ports (s : State) : (dropRecord s).ports = s.ports := by
  simp only [dropRecord]; split <;> simp
@[simp] theorem appendUnpledged_rest (r : Record) (s : State) : (appendUnpledged r s).rest = s.rest := by
  simp only [appendUnpledged]; split <;> simp
@[simp] theorem appendUnpledged_lanes (r : Record) (s : State) : (appendUnpledged r s).lanes = s.lanes := by
  simp only [appendUnpledged]; split <;> simp
@[simp] theorem appendUnpledged_ports (r : Record) (s : State) : (appendUnpledged r s).ports = s.ports := by
  simp only [appendUnpledged]; split <;> simp
@[simp] theorem stationRecord_rest (ev : StationEvent) (b : Bool) (d m : Nat) (s : State) : (stationRecord ev b d m s).rest = s.rest := by simp [stationRecord]
@[simp] theorem stationRecord_lanes (ev : StationEvent) (b : Bool) (d m : Nat) (s : State) : (stationRecord ev b d m s).lanes = s.lanes := by simp [stationRecord]
@[simp] theorem stationRecord_ports (ev : StationEvent) (b : Bool) (d m : Nat) (s : State) : (stationRecord ev b d m s).ports = s.ports := by simp [stationRecord]
@[simp] theorem laneRecord_rest (n : Fin 4) (b : Bool) (s : State) : (laneRecord n b s).rest = s.rest := by simp [laneRecord]
@[simp] theorem laneRecord_lanes (n : Fin 4) (b : Bool) (s : State) : (laneRecord n b s).lanes = s.lanes := by simp [laneRecord]
@[simp] theorem laneRecord_ports (n : Fin 4) (b : Bool) (s : State) : (laneRecord n b s).ports = s.ports := by simp [laneRecord]

/-! ### Cues, counts and SHOW -/

@[simp] theorem startCue_rest (n : Fin 4) (o : CueOutcome) (list : Fin 32) (s : State) : (startCue n o list s).rest = s.rest := rfl
@[simp] theorem startCue_mem (n : Fin 4) (o : CueOutcome) (list : Fin 32) (s : State) : (startCue n o list s).mem = s.mem := rfl
@[simp] theorem startCue_attn (n : Fin 4) (o : CueOutcome) (list : Fin 32) (s : State) : (startCue n o list s).attn = s.attn := rfl
@[simp] theorem startCue_ports (n : Fin 4) (o : CueOutcome) (list : Fin 32) (s : State) : (startCue n o list s).ports = s.ports := rfl
@[simp] theorem startCue_journal (n : Fin 4) (o : CueOutcome) (list : Fin 32) (s : State) : (startCue n o list s).journal = s.journal := rfl
@[simp] theorem handOutcome_rest (n : Fin 4) (o : CueOutcome) (s : State) : (handOutcome n o s).rest = s.rest := by
  simp only [handOutcome]; repeat' split
  all_goals simp
@[simp] theorem handOutcome_mem (n : Fin 4) (o : CueOutcome) (s : State) : (handOutcome n o s).mem = s.mem := by
  simp only [handOutcome]; repeat' split
  all_goals simp
@[simp] theorem handOutcome_attn (n : Fin 4) (o : CueOutcome) (s : State) : (handOutcome n o s).attn = s.attn := by
  simp only [handOutcome]; repeat' split
  all_goals simp
@[simp] theorem handOutcome_ports (n : Fin 4) (o : CueOutcome) (s : State) : (handOutcome n o s).ports = s.ports := by
  simp only [handOutcome]; repeat' split
  all_goals simp
@[simp] theorem handOutcome_journal (n : Fin 4) (o : CueOutcome) (s : State) : (handOutcome n o s).journal = s.journal := by
  simp only [handOutcome]; repeat' split
  all_goals simp
@[simp] theorem handInPlaceOfReady_rest (n : Fin 4) (o : CueOutcome) (s : State) : (handInPlaceOfReady n o s).rest = s.rest := by
  simp only [handInPlaceOfReady]; split <;> simp
@[simp] theorem handInPlaceOfReady_mem (n : Fin 4) (o : CueOutcome) (s : State) : (handInPlaceOfReady n o s).mem = s.mem := by
  simp only [handInPlaceOfReady]; split <;> simp
@[simp] theorem handInPlaceOfReady_attn (n : Fin 4) (o : CueOutcome) (s : State) : (handInPlaceOfReady n o s).attn = s.attn := by
  simp only [handInPlaceOfReady]; split <;> simp
@[simp] theorem handInPlaceOfReady_ports (n : Fin 4) (o : CueOutcome) (s : State) : (handInPlaceOfReady n o s).ports = s.ports := by
  simp only [handInPlaceOfReady]; split <;> simp
@[simp] theorem handInPlaceOfReady_journal (n : Fin 4) (o : CueOutcome) (s : State) : (handInPlaceOfReady n o s).journal = s.journal := by
  simp only [handInPlaceOfReady]; split <;> simp
@[simp] theorem enterReady_rest (n : Fin 4) (s : State) : (enterReady n s).rest = s.rest := by simp [enterReady]
@[simp] theorem enterReady_mem (n : Fin 4) (s : State) : (enterReady n s).mem = s.mem := by simp [enterReady]
@[simp] theorem enterReady_attn (n : Fin 4) (s : State) : (enterReady n s).attn = s.attn := by simp [enterReady]
@[simp] theorem enterReady_ports (n : Fin 4) (s : State) : (enterReady n s).ports = s.ports := by simp [enterReady]
@[simp] theorem enterReady_journal (n : Fin 4) (s : State) : (enterReady n s).journal = s.journal := by simp [enterReady]
@[simp] theorem enterReadyWith_rest (n : Fin 4) (o : CueOutcome) (s : State) : (enterReadyWith n o s).rest = s.rest := by simp [enterReadyWith]
@[simp] theorem enterReadyWith_mem (n : Fin 4) (o : CueOutcome) (s : State) : (enterReadyWith n o s).mem = s.mem := by simp [enterReadyWith]
@[simp] theorem enterReadyWith_attn (n : Fin 4) (o : CueOutcome) (s : State) : (enterReadyWith n o s).attn = s.attn := by simp [enterReadyWith]
@[simp] theorem enterReadyWith_ports (n : Fin 4) (o : CueOutcome) (s : State) : (enterReadyWith n o s).ports = s.ports := by simp [enterReadyWith]
@[simp] theorem enterReadyWith_journal (n : Fin 4) (o : CueOutcome) (s : State) : (enterReadyWith n o s).journal = s.journal := by simp [enterReadyWith]
@[simp] theorem count_rest (n : Fin 4) (k : CountKind) (s : State) : (count n k s).rest = s.rest := rfl
@[simp] theorem count_mem (n : Fin 4) (k : CountKind) (s : State) : (count n k s).mem = s.mem := rfl
@[simp] theorem count_attn (n : Fin 4) (k : CountKind) (s : State) : (count n k s).attn = s.attn := rfl
@[simp] theorem count_ports (n : Fin 4) (k : CountKind) (s : State) : (count n k s).ports = s.ports := rfl
@[simp] theorem count_journal (n : Fin 4) (k : CountKind) (s : State) : (count n k s).journal = s.journal := rfl
@[simp] theorem markPartial_rest (n : Fin 4) (s : State) : (markPartial n s).rest = s.rest := rfl
@[simp] theorem markPartial_mem (n : Fin 4) (s : State) : (markPartial n s).mem = s.mem := rfl
@[simp] theorem markPartial_attn (n : Fin 4) (s : State) : (markPartial n s).attn = s.attn := rfl
@[simp] theorem markPartial_ports (n : Fin 4) (s : State) : (markPartial n s).ports = s.ports := rfl
@[simp] theorem markPartial_journal (n : Fin 4) (s : State) : (markPartial n s).journal = s.journal := rfl
@[simp] theorem markOffline_rest (n : Fin 4) (s : State) : (markOffline n s).rest = s.rest := rfl
@[simp] theorem markOffline_mem (n : Fin 4) (s : State) : (markOffline n s).mem = s.mem := rfl
@[simp] theorem markOffline_attn (n : Fin 4) (s : State) : (markOffline n s).attn = s.attn := rfl
@[simp] theorem markOffline_ports (n : Fin 4) (s : State) : (markOffline n s).ports = s.ports := rfl
@[simp] theorem markOffline_journal (n : Fin 4) (s : State) : (markOffline n s).journal = s.journal := rfl
@[simp] theorem openWindow_rest (n : Fin 4) (w : Window) (s : State) : (openWindow n w s).rest = s.rest :=
  (with_mem_rest (s.modLane n _) _).trans (modLane_rest s n _)
@[simp] theorem openWindow_attn (n : Fin 4) (w : Window) (s : State) : (openWindow n w s).attn = s.attn := by simp [openWindow]
@[simp] theorem openWindow_ports (n : Fin 4) (w : Window) (s : State) : (openWindow n w s).ports = s.ports := by simp [openWindow]
@[simp] theorem openWindow_journal (n : Fin 4) (w : Window) (s : State) : (openWindow n w s).journal = s.journal := by simp [openWindow]
@[simp] theorem closeWindow_rest (n : Fin 4) (w : Window) (len : Nat) (s : State) : (closeWindow n w len s).rest = s.rest :=
  (with_mem_rest (s.modLane n _) _).trans (modLane_rest s n _)
@[simp] theorem closeWindow_attn (n : Fin 4) (w : Window) (len : Nat) (s : State) : (closeWindow n w len s).attn = s.attn := by simp [closeWindow]
@[simp] theorem closeWindow_ports (n : Fin 4) (w : Window) (len : Nat) (s : State) : (closeWindow n w len s).ports = s.ports := by simp [closeWindow]
@[simp] theorem closeWindow_journal (n : Fin 4) (w : Window) (len : Nat) (s : State) : (closeWindow n w len s).journal = s.journal := by simp [closeWindow]
@[simp] theorem closeAtEnd_rest (n : Fin 4) (s : State) : (closeAtEnd n s).rest = s.rest := by
  simp only [closeAtEnd]; repeat' split
  all_goals simp
@[simp] theorem closeAtEnd_attn (n : Fin 4) (s : State) : (closeAtEnd n s).attn = s.attn := by
  simp only [closeAtEnd]; repeat' split
  all_goals simp
@[simp] theorem closeAtEnd_ports (n : Fin 4) (s : State) : (closeAtEnd n s).ports = s.ports := by
  simp only [closeAtEnd]; repeat' split
  all_goals simp
@[simp] theorem closeAtEnd_journal (n : Fin 4) (s : State) : (closeAtEnd n s).journal = s.journal := by
  simp only [closeAtEnd]; repeat' split
  all_goals simp
@[simp] theorem closeAtRollover_rest (cut : Bool) (e : Nat) (n : Fin 4) (s : State) : (closeAtRollover cut e n s).rest = s.rest := by
  simp only [closeAtRollover]; split <;> simp
@[simp] theorem closeAtRollover_attn (cut : Bool) (e : Nat) (n : Fin 4) (s : State) : (closeAtRollover cut e n s).attn = s.attn := by
  simp only [closeAtRollover]; split <;> simp
@[simp] theorem closeAtRollover_ports (cut : Bool) (e : Nat) (n : Fin 4) (s : State) : (closeAtRollover cut e n s).ports = s.ports := by
  simp only [closeAtRollover]; split <;> simp
@[simp] theorem closeAtRollover_journal (cut : Bool) (e : Nat) (n : Fin 4) (s : State) : (closeAtRollover cut e n s).journal = s.journal := by
  simp only [closeAtRollover]; split <;> simp
@[simp] theorem stepWindow_rest (e : Nat) (n : Fin 4) (s : State) : (stepWindow e n s).rest = s.rest := by
  simp only [stepWindow]; split <;> simp
@[simp] theorem stepWindow_attn (e : Nat) (n : Fin 4) (s : State) : (stepWindow e n s).attn = s.attn := by
  simp only [stepWindow]; split <;> simp
@[simp] theorem stepWindow_ports (e : Nat) (n : Fin 4) (s : State) : (stepWindow e n s).ports = s.ports := by
  simp only [stepWindow]; split <;> simp
@[simp] theorem stepWindow_journal (e : Nat) (n : Fin 4) (s : State) : (stepWindow e n s).journal = s.journal := by
  simp only [stepWindow]; split <;> simp
@[simp] theorem replaceWindow_rest (n : Fin 4) (s : State) : (replaceWindow n s).rest = s.rest := by
  simp only [replaceWindow]; split <;> simp
@[simp] theorem replaceWindow_attn (n : Fin 4) (s : State) : (replaceWindow n s).attn = s.attn := by
  simp only [replaceWindow]; split <;> simp
@[simp] theorem replaceWindow_ports (n : Fin 4) (s : State) : (replaceWindow n s).ports = s.ports := by
  simp only [replaceWindow]; split <;> simp
@[simp] theorem replaceWindow_journal (n : Fin 4) (s : State) : (replaceWindow n s).journal = s.journal := by
  simp only [replaceWindow]; split <;> simp
@[simp] theorem closeAtQuiet_rest (n : Fin 4) (s : State) : (closeAtQuiet n s).rest = s.rest := by
  simp only [closeAtQuiet]; split <;> simp
@[simp] theorem closeAtQuiet_attn (n : Fin 4) (s : State) : (closeAtQuiet n s).attn = s.attn := by
  simp only [closeAtQuiet]; split <;> simp
@[simp] theorem closeAtQuiet_ports (n : Fin 4) (s : State) : (closeAtQuiet n s).ports = s.ports := by
  simp only [closeAtQuiet]; split <;> simp
@[simp] theorem closeAtQuiet_journal (n : Fin 4) (s : State) : (closeAtQuiet n s).journal = s.journal := by
  simp only [closeAtQuiet]; split <;> simp
@[simp] theorem sendShow_rest (p : Fin 4) (c : ShowCode) (v : Nat) (s : State) : (sendShow p c v s).rest = s.rest := rfl
@[simp] theorem sendShow_mem (p : Fin 4) (c : ShowCode) (v : Nat) (s : State) : (sendShow p c v s).mem = s.mem := rfl
@[simp] theorem sendShow_attn (p : Fin 4) (c : ShowCode) (v : Nat) (s : State) : (sendShow p c v s).attn = s.attn := rfl
@[simp] theorem sendShow_lanes (p : Fin 4) (c : ShowCode) (v : Nat) (s : State) : (sendShow p c v s).lanes = s.lanes := rfl
@[simp] theorem sendShow_journal (p : Fin 4) (c : ShowCode) (v : Nat) (s : State) : (sendShow p c v s).journal = s.journal := rfl
@[simp] theorem changeService_rest (before : State) (s : State) : (changeService before s).rest = s.rest := rfl
@[simp] theorem changeService_mem (before : State) (s : State) : (changeService before s).mem = s.mem := rfl
@[simp] theorem changeService_attn (before : State) (s : State) : (changeService before s).attn = s.attn := rfl
@[simp] theorem changeService_lanes (before : State) (s : State) : (changeService before s).lanes = s.lanes := rfl
@[simp] theorem changeService_journal (before : State) (s : State) : (changeService before s).journal = s.journal := rfl

/-! ### Passes and orders -/

@[simp] theorem setMarker_rest (slot : Nat) (l : Option (Fin 4)) (s : State) : (setMarker slot l s).rest = s.rest := rfl
@[simp] theorem setMarker_attn (slot : Nat) (l : Option (Fin 4)) (s : State) : (setMarker slot l s).attn = s.attn := rfl
@[simp] theorem setMarker_lanes (slot : Nat) (l : Option (Fin 4)) (s : State) : (setMarker slot l s).lanes = s.lanes := rfl
@[simp] theorem setMarker_ports (slot : Nat) (l : Option (Fin 4)) (s : State) : (setMarker slot l s).ports = s.ports := rfl
@[simp] theorem setMarker_journal (slot : Nat) (l : Option (Fin 4)) (s : State) : (setMarker slot l s).journal = s.journal := rfl
@[simp] theorem retire_rest (slot : Nat) (s : State) : (retire slot s).rest = s.rest := rfl
@[simp] theorem retire_attn (slot : Nat) (s : State) : (retire slot s).attn = s.attn := rfl
@[simp] theorem retire_lanes (slot : Nat) (s : State) : (retire slot s).lanes = s.lanes := rfl
@[simp] theorem retire_ports (slot : Nat) (s : State) : (retire slot s).ports = s.ports := rfl
@[simp] theorem retire_journal (slot : Nat) (s : State) : (retire slot s).journal = s.journal := rfl
@[simp] theorem pokeResult_rest (k : Fin 32) (off : Nat) (bs : List Byte) (s : State) : (pokeResult k off bs s).rest = s.rest := rfl
@[simp] theorem pokeResult_attn (k : Fin 32) (off : Nat) (bs : List Byte) (s : State) : (pokeResult k off bs s).attn = s.attn := rfl
@[simp] theorem pokeResult_lanes (k : Fin 32) (off : Nat) (bs : List Byte) (s : State) : (pokeResult k off bs s).lanes = s.lanes := rfl
@[simp] theorem pokeResult_ports (k : Fin 32) (off : Nat) (bs : List Byte) (s : State) : (pokeResult k off bs s).ports = s.ports := rfl
@[simp] theorem pokeResult_journal (k : Fin 32) (off : Nat) (bs : List Byte) (s : State) : (pokeResult k off bs s).journal = s.journal := rfl
@[simp] theorem endOrder_rest (k : Fin 32) (r : Result) (s : State) : (endOrder k r s).rest = s.rest := by
  simp only [endOrder]; split <;> simp
@[simp] theorem endOrder_lanes (k : Fin 32) (r : Result) (s : State) : (endOrder k r s).lanes = s.lanes := by
  simp only [endOrder]; split <;> simp
@[simp] theorem endOrder_ports (k : Fin 32) (r : Result) (s : State) : (endOrder k r s).ports = s.ports := by
  simp only [endOrder]; split <;> simp
@[simp] theorem endOrder_journal (k : Fin 32) (r : Result) (s : State) : (endOrder k r s).journal = s.journal := by
  simp only [endOrder]; split <;> simp
@[simp] theorem writeTimeMirror_rest (s : State) : (writeTimeMirror s).rest = s.rest := rfl
@[simp] theorem writeTimeMirror_attn (s : State) : (writeTimeMirror s).attn = s.attn := rfl
@[simp] theorem writeTimeMirror_lanes (s : State) : (writeTimeMirror s).lanes = s.lanes := rfl
@[simp] theorem writeTimeMirror_ports (s : State) : (writeTimeMirror s).ports = s.ports := rfl
@[simp] theorem writeTimeMirror_journal (s : State) : (writeTimeMirror s).journal = s.journal := rfl

/-! ### Denials, voids, grants and captures -/

@[simp] theorem denyCore_rest (n p : Fin 4) (uid : List Byte) (slot : Option Nat) (r : DenyReason) (e : ReferralEnd) (s : State) : (denyCore n p uid slot r e s).rest = s.rest := by simp [denyCore]
@[simp] theorem denyTap_rest (n p : Fin 4) (uid : List Byte) (slot : Option Nat) (r : DenyReason) (s : State) : (denyTap n p uid slot r s).rest = s.rest := by simp [denyTap]
@[simp] theorem denyBusy_rest (n p : Fin 4) (uid : List Byte) (s : State) : (denyBusy n p uid s).rest = s.rest := by simp [denyBusy]
@[simp] theorem denyReferralToReady_rest (n : Fin 4) (r : Referral) (slot : Option Nat) (w : DenyReason) (e : ReferralEnd) (s : State) : (denyReferralToReady n r slot w e s).rest = s.rest := by simp [denyReferralToReady]
@[simp] theorem denyReferralOnward_rest (n : Fin 4) (r : Referral) (w : DenyReason) (e : ReferralEnd) (s : State) : (denyReferralOnward n r w e s).rest = s.rest := by simp [denyReferralOnward]
@[simp] theorem voidCore_rest (n : Fin 4) (g : Grant) (c : VoidCause) (s : State) : (voidCore n g c s).rest = s.rest := by simp [voidCore]
@[simp] theorem voidCore_ports (n : Fin 4) (g : Grant) (c : VoidCause) (s : State) : (voidCore n g c s).ports = s.ports := by simp [voidCore]
@[simp] theorem voidToReady_rest (n : Fin 4) (g : Grant) (c : VoidCause) (s : State) : (voidToReady n g c s).rest = s.rest := by simp [voidToReady]
@[simp] theorem voidToReady_ports (n : Fin 4) (g : Grant) (c : VoidCause) (s : State) : (voidToReady n g c s).ports = s.ports := by simp [voidToReady]
@[simp] theorem voidOnward_rest (n : Fin 4) (g : Grant) (c : VoidCause) (s : State) : (voidOnward n g c s).rest = s.rest := by simp [voidOnward]
@[simp] theorem voidOnward_ports (n : Fin 4) (g : Grant) (c : VoidCause) (s : State) : (voidOnward n g c s).ports = s.ports := by simp [voidOnward]
@[simp] theorem grantPass_rest (n p : Fin 4) (uid : List Byte) (slot : Nat) (s : State) : (grantPass n p uid slot s).rest = s.rest := by simp [grantPass]
@[simp] theorem grantPass_attn (n p : Fin 4) (uid : List Byte) (slot : Nat) (s : State) : (grantPass n p uid slot s).attn = s.attn := by simp [grantPass]
@[simp] theorem refer_rest (n p : Fin 4) (uid : List Byte) (stamp : Nat) (s : State) : (refer n p uid stamp s).rest = s.rest := by simp [refer]
@[simp] theorem refer_ports (n p : Fin 4) (uid : List Byte) (stamp : Nat) (s : State) : (refer n p uid stamp s).ports = s.ports := by simp [refer]
@[simp] theorem reevaluate_rest (uid : List Byte) (slot : Nat) (n : Fin 4) (s : State) : (reevaluate uid slot n s).rest = s.rest := by
  simp only [reevaluate]; repeat' split
  all_goals simp
@[simp] theorem evaluateTap_rest (q : TapRecord) (s : State) : (evaluateTap q s).rest = s.rest := by
  simp only [evaluateTap]; repeat' split
  all_goals simp
@[simp] theorem handleTap_rest (q : TapRecord) (s : State) : (handleTap q s).rest = s.rest := by
  simp only [handleTap]; repeat' split
  all_goals simp
@[simp] theorem startCapture_rest (q : TapRecord) (slot : Nat) (f : Figures) (s : State) : (startCapture q slot f s).rest = s.rest := by simp [startCapture]
@[simp] theorem startCapture_attn (q : TapRecord) (slot : Nat) (f : Figures) (s : State) : (startCapture q slot f s).attn = s.attn := by simp [startCapture]
@[simp] theorem returnChecks_rest (q : TapRecord) (s : State) : (returnChecks q s).rest = s.rest := by
  simp only [returnChecks]; repeat' split
  all_goals simp
@[simp] theorem takeReturnTap_rest (q : TapRecord) (s : State) : (takeReturnTap q s).rest = s.rest := by
  simp only [takeReturnTap]; repeat' split
  all_goals simp
@[simp] theorem creditAfterCapture_rest (n : Fin 4) (slot : Nat) (s : State) : (creditAfterCapture n slot s).rest = s.rest := by
  simp only [creditAfterCapture]; split <;> simp
@[simp] theorem creditAfterCapture_lanes (n : Fin 4) (slot : Nat) (s : State) : (creditAfterCapture n slot s).lanes = s.lanes := by
  simp only [creditAfterCapture]; split <;> simp
@[simp] theorem creditAfterCapture_ports (n : Fin 4) (slot : Nat) (s : State) : (creditAfterCapture n slot s).ports = s.ports := by
  simp only [creditAfterCapture]; split <;> simp

/-! ### Lanes -/

@[simp] theorem applyConfig_rest (n : Fin 4) (c : LaneConfig) (s : State) : (applyConfig n c s).rest = s.rest := by simp [applyConfig]
@[simp] theorem makePending_rest (n : Fin 4) (c : LaneConfig) (s : State) : (makePending n c s).rest = s.rest := rfl
@[simp] theorem makePending_mem (n : Fin 4) (c : LaneConfig) (s : State) : (makePending n c s).mem = s.mem := rfl
@[simp] theorem makePending_attn (n : Fin 4) (c : LaneConfig) (s : State) : (makePending n c s).attn = s.attn := rfl
@[simp] theorem makePending_ports (n : Fin 4) (c : LaneConfig) (s : State) : (makePending n c s).ports = s.ports := rfl
@[simp] theorem makePending_journal (n : Fin 4) (c : LaneConfig) (s : State) : (makePending n c s).journal = s.journal := rfl
@[simp] theorem enterFree_rest (n : Fin 4) (s : State) : (enterFree n s).rest = s.rest := by simp [enterFree]
@[simp] theorem enterFree_mem (n : Fin 4) (s : State) : (enterFree n s).mem = s.mem := by simp [enterFree]
@[simp] theorem enterFree_attn (n : Fin 4) (s : State) : (enterFree n s).attn = s.attn := by simp [enterFree]
@[simp] theorem enterFree_ports (n : Fin 4) (s : State) : (enterFree n s).ports = s.ports := by simp [enterFree]
@[simp] theorem enterFree_journal (n : Fin 4) (s : State) : (enterFree n s).journal = s.journal := by simp [enterFree]
@[simp] theorem leaveFree_rest (n : Fin 4) (s : State) : (leaveFree n s).rest = s.rest := by
  simp only [leaveFree]; repeat' split
  all_goals simp
@[simp] theorem windDown_rest (n : Fin 4) (s : State) : (windDown n s).rest = s.rest := by
  simp only [windDown]; split <;> simp
@[simp] theorem startLane_rest (n : Fin 4) (s : State) : (startLane n s).rest = s.rest := by
  simp only [startLane]; repeat' split
  all_goals simp
@[simp] theorem startLane_mem (n : Fin 4) (s : State) : (startLane n s).mem = s.mem := by
  simp only [startLane]; repeat' split
  all_goals simp
@[simp] theorem startLane_attn (n : Fin 4) (s : State) : (startLane n s).attn = s.attn := by
  simp only [startLane]; repeat' split
  all_goals simp
@[simp] theorem startLane_ports (n : Fin 4) (s : State) : (startLane n s).ports = s.ports := by
  simp only [startLane]; repeat' split
  all_goals simp
@[simp] theorem startLane_journal (n : Fin 4) (s : State) : (startLane n s).journal = s.journal := by
  simp only [startLane]; repeat' split
  all_goals simp
@[simp] theorem enterFault_rest (n : Fin 4) (c : FaultCause) (s : State) : (enterFault n c s).rest = s.rest := by simp [enterFault]
@[simp] theorem enterFault_ports (n : Fin 4) (c : FaultCause) (s : State) : (enterFault n c s).ports = s.ports := by simp [enterFault]
@[simp] theorem unpaidRecord_rest (n : Fin 4) (uid : List Byte) (slot : Option Nat) (c : PassageClass) (d : Nat) (s : State) : (unpaidRecord n uid slot c d s).rest = s.rest := by simp [unpaidRecord]
@[simp] theorem unpaidRecord_lanes (n : Fin 4) (uid : List Byte) (slot : Option Nat) (c : PassageClass) (d : Nat) (s : State) : (unpaidRecord n uid slot c d s).lanes = s.lanes := by simp [unpaidRecord]
@[simp] theorem unpaidRecord_ports (n : Fin 4) (uid : List Byte) (slot : Option Nat) (c : PassageClass) (d : Nat) (s : State) : (unpaidRecord n uid slot c d s).ports = s.ports := by simp [unpaidRecord]
@[simp] theorem forced_rest (n : Fin 4) (uid : List Byte) (slot : Option Nat) (s : State) : (forced n uid slot s).rest = s.rest := by simp [forced]
@[simp] theorem forced_ports (n : Fin 4) (uid : List Byte) (slot : Option Nat) (s : State) : (forced n uid slot s).ports = s.ports := by simp [forced]
@[simp] theorem commitGrant_rest (n : Fin 4) (g : Grant) (s : State) : (commitGrant n g s).rest = s.rest := by
  simp only [commitGrant, commitPass]; split <;> simp
@[simp] theorem commitGrant_ports (n : Fin 4) (g : Grant) (s : State) : (commitGrant n g s).ports = s.ports := by
  simp only [commitGrant, commitPass]; split <;> simp
@[simp] theorem freePulse_rest (n : Fin 4) (s : State) : (freePulse n s).rest = s.rest := rfl
@[simp] theorem freePulse_mem (n : Fin 4) (s : State) : (freePulse n s).mem = s.mem := rfl
@[simp] theorem freePulse_attn (n : Fin 4) (s : State) : (freePulse n s).attn = s.attn := rfl
@[simp] theorem freePulse_ports (n : Fin 4) (s : State) : (freePulse n s).ports = s.ports := rfl
@[simp] theorem freePulse_journal (n : Fin 4) (s : State) : (freePulse n s).journal = s.journal := rfl
@[simp] theorem pulse_rest (n : Fin 4) (s : State) : (pulse n s).rest = s.rest := by
  simp only [pulse]; split <;> simp
@[simp] theorem pulse_ports (n : Fin 4) (s : State) : (pulse n s).ports = s.ports := by
  simp only [pulse]; split <;> simp
@[simp] theorem entryBlock_rest (n : Fin 4) (s : State) : (entryBlock n s).rest = s.rest := rfl
@[simp] theorem entryBlock_mem (n : Fin 4) (s : State) : (entryBlock n s).mem = s.mem := rfl
@[simp] theorem entryBlock_attn (n : Fin 4) (s : State) : (entryBlock n s).attn = s.attn := rfl
@[simp] theorem entryBlock_ports (n : Fin 4) (s : State) : (entryBlock n s).ports = s.ports := rfl
@[simp] theorem entryBlock_journal (n : Fin 4) (s : State) : (entryBlock n s).journal = s.journal := rfl
@[simp] theorem tailgate_rest (n : Fin 4) (uid : List Byte) (slot d : Nat) (s : State) : (tailgate n uid slot d s).rest = s.rest := by simp [tailgate]
@[simp] theorem tailgate_ports (n : Fin 4) (uid : List Byte) (slot d : Nat) (s : State) : (tailgate n uid slot d s).ports = s.ports := by simp [tailgate]
@[simp] theorem duckUnder_rest (n : Fin 4) (d : Nat) (s : State) : (duckUnder n d s).rest = s.rest := by simp [duckUnder]
@[simp] theorem duckUnder_ports (n : Fin 4) (d : Nat) (s : State) : (duckUnder n d s).ports = s.ports := by simp [duckUnder]
@[simp] theorem exitBlock_rest (n : Fin 4) (s : State) : (exitBlock n s).rest = s.rest := by
  simp only [exitBlock]; repeat' split
  all_goals simp
@[simp] theorem exitBlock_ports (n : Fin 4) (s : State) : (exitBlock n s).ports = s.ports := by
  simp only [exitBlock]; repeat' split
  all_goals simp
@[simp] theorem lostChanged_rest (n : Fin 4) (b : Bool) (s : State) : (lostChanged n b s).rest = s.rest := by
  simp only [lostChanged]; repeat' split
  all_goals simp
@[simp] theorem lostChanged_ports (n : Fin 4) (b : Bool) (s : State) : (lostChanged n b s).ports = s.ports := by
  simp only [lostChanged]; repeat' split
  all_goals simp
@[simp] theorem setCauses_rest (p : Fin 4) (a b : Bool) (s : State) : (setCauses p a b s).rest = s.rest := by
  simp only [setCauses]; repeat' split
  all_goals simp
@[simp] theorem hearFrame_rest (p : Fin 4) (s : State) : (hearFrame p s).rest = s.rest := by
  simp only [hearFrame]; split <;> simp
@[simp] theorem actGone_rest (p : Fin 4) (uid : List Byte) (s : State) : (actGone p uid s).rest = s.rest := rfl
@[simp] theorem actGone_mem (p : Fin 4) (uid : List Byte) (s : State) : (actGone p uid s).mem = s.mem := rfl
@[simp] theorem actGone_attn (p : Fin 4) (uid : List Byte) (s : State) : (actGone p uid s).attn = s.attn := rfl
@[simp] theorem actGone_lanes (p : Fin 4) (uid : List Byte) (s : State) : (actGone p uid s).lanes = s.lanes := rfl
@[simp] theorem actGone_journal (p : Fin 4) (uid : List Byte) (s : State) : (actGone p uid s).journal = s.journal := rfl
@[simp] theorem actStatus_rest (p : Fin 4) (b : Bool) (s : State) : (actStatus p b s).rest = s.rest := by
  simp only [actStatus]; split <;> simp

/-! ### The end of an event -/

@[simp] theorem drivePulses_rest (before : State) (s : State) : (drivePulses before s).rest = s.rest := rfl
@[simp] theorem drivePulses_mem (before : State) (s : State) : (drivePulses before s).mem = s.mem := rfl
@[simp] theorem drivePulses_attn (before : State) (s : State) : (drivePulses before s).attn = s.attn := rfl
@[simp] theorem drivePulses_ports (before : State) (s : State) : (drivePulses before s).ports = s.ports := rfl
@[simp] theorem drivePulses_journal (before : State) (s : State) : (drivePulses before s).journal = s.journal := rfl
@[simp] theorem syncMirrors_rest (before : State) (s : State) : (syncMirrors before s).rest = s.rest := rfl
@[simp] theorem syncMirrors_attn (before : State) (s : State) : (syncMirrors before s).attn = s.attn := rfl
@[simp] theorem syncMirrors_lanes (before : State) (s : State) : (syncMirrors before s).lanes = s.lanes := rfl
@[simp] theorem syncMirrors_ports (before : State) (s : State) : (syncMirrors before s).ports = s.ports := rfl
@[simp] theorem syncMirrors_journal (before : State) (s : State) : (syncMirrors before s).journal = s.journal := rfl
@[simp] theorem settleOutputs_rest (before : State) (s : State) : (settleOutputs before s).rest = s.rest := rfl
@[simp] theorem settleOutputs_attn (before : State) (s : State) : (settleOutputs before s).attn = s.attn := rfl
@[simp] theorem settleOutputs_ports (before : State) (s : State) : (settleOutputs before s).ports = s.ports := rfl
@[simp] theorem settleOutputs_journal (before : State) (s : State) : (settleOutputs before s).journal = s.journal := rfl
@[simp] theorem writeLaneBlocks_rest (s : State) : (writeLaneBlocks s).rest = s.rest := rfl
@[simp] theorem writeLaneBlocks_attn (s : State) : (writeLaneBlocks s).attn = s.attn := rfl
@[simp] theorem writeLaneBlocks_lanes (s : State) : (writeLaneBlocks s).lanes = s.lanes := rfl
@[simp] theorem writeLaneBlocks_ports (s : State) : (writeLaneBlocks s).ports = s.ports := rfl
@[simp] theorem writeLaneBlocks_journal (s : State) : (writeLaneBlocks s).journal = s.journal := rfl

/-! ### Over the four lanes -/

theorem eachLane_rest {f : Fin 4 → State → State} (h : ∀ n s, (f n s).rest = s.rest) (s : State) :
    (eachLane f s).rest = s.rest := by
  simp [eachLane, allFour, h]

theorem eachLane_attn {f : Fin 4 → State → State} (h : ∀ n s, (f n s).attn = s.attn) (s : State) :
    (eachLane f s).attn = s.attn := by
  simp [eachLane, allFour, h]

theorem eachLane_ports {f : Fin 4 → State → State} (h : ∀ n s, (f n s).ports = s.ports) (s : State) :
    (eachLane f s).ports = s.ports := by
  simp [eachLane, allFour, h]

theorem eachLane_journal {f : Fin 4 → State → State} (h : ∀ n s, (f n s).journal = s.journal) (s : State) :
    (eachLane f s).journal = s.journal := by
  simp [eachLane, allFour, h]

/-! ### Single fields of the rest -/

@[simp] theorem ringWrite_station (r : Record) (s : State) : (ringWrite r s).station = s.station := station_of_rest (ringWrite_rest ..)
@[simp] theorem ringWrite_freeFlow (r : Record) (s : State) : (ringWrite r s).freeFlow = s.freeFlow := freeFlow_of_rest (ringWrite_rest ..)
@[simp] theorem ringWrite_evacuate (r : Record) (s : State) : (ringWrite r s).evacuate = s.evacuate := evacuate_of_rest (ringWrite_rest ..)
@[simp] theorem ringWrite_online (r : Record) (s : State) : (ringWrite r s).online = s.online := online_of_rest (ringWrite_rest ..)
@[simp] theorem ringWrite_now (r : Record) (s : State) : (ringWrite r s).now = s.now := now_of_rest (ringWrite_rest ..)
@[simp] theorem ringWrite_day (r : Record) (s : State) : (ringWrite r s).day = s.day := day_of_rest (ringWrite_rest ..)
@[simp] theorem ringWrite_ms (r : Record) (s : State) : (ringWrite r s).ms = s.ms := ms_of_rest (ringWrite_rest ..)
@[simp] theorem ringWrite_options (r : Record) (s : State) : (ringWrite r s).options = s.options := options_of_rest (ringWrite_rest ..)
@[simp] theorem placeRecord_station (r : Record) (s : State) : (placeRecord r s).station = s.station := station_of_rest (placeRecord_rest ..)
@[simp] theorem placeRecord_freeFlow (r : Record) (s : State) : (placeRecord r s).freeFlow = s.freeFlow := freeFlow_of_rest (placeRecord_rest ..)
@[simp] theorem placeRecord_evacuate (r : Record) (s : State) : (placeRecord r s).evacuate = s.evacuate := evacuate_of_rest (placeRecord_rest ..)
@[simp] theorem placeRecord_online (r : Record) (s : State) : (placeRecord r s).online = s.online := online_of_rest (placeRecord_rest ..)
@[simp] theorem placeRecord_now (r : Record) (s : State) : (placeRecord r s).now = s.now := now_of_rest (placeRecord_rest ..)
@[simp] theorem placeRecord_day (r : Record) (s : State) : (placeRecord r s).day = s.day := day_of_rest (placeRecord_rest ..)
@[simp] theorem placeRecord_ms (r : Record) (s : State) : (placeRecord r s).ms = s.ms := ms_of_rest (placeRecord_rest ..)
@[simp] theorem placeRecord_options (r : Record) (s : State) : (placeRecord r s).options = s.options := options_of_rest (placeRecord_rest ..)
@[simp] theorem appendPledged_station (r : Record) (s : State) : (appendPledged r s).station = s.station := station_of_rest (appendPledged_rest ..)
@[simp] theorem appendPledged_freeFlow (r : Record) (s : State) : (appendPledged r s).freeFlow = s.freeFlow := freeFlow_of_rest (appendPledged_rest ..)
@[simp] theorem appendPledged_evacuate (r : Record) (s : State) : (appendPledged r s).evacuate = s.evacuate := evacuate_of_rest (appendPledged_rest ..)
@[simp] theorem appendPledged_online (r : Record) (s : State) : (appendPledged r s).online = s.online := online_of_rest (appendPledged_rest ..)
@[simp] theorem appendPledged_now (r : Record) (s : State) : (appendPledged r s).now = s.now := now_of_rest (appendPledged_rest ..)
@[simp] theorem appendPledged_day (r : Record) (s : State) : (appendPledged r s).day = s.day := day_of_rest (appendPledged_rest ..)
@[simp] theorem appendPledged_ms (r : Record) (s : State) : (appendPledged r s).ms = s.ms := ms_of_rest (appendPledged_rest ..)
@[simp] theorem appendPledged_options (r : Record) (s : State) : (appendPledged r s).options = s.options := options_of_rest (appendPledged_rest ..)
@[simp] theorem dropRecord_station (s : State) : (dropRecord s).station = s.station := station_of_rest (dropRecord_rest ..)
@[simp] theorem dropRecord_freeFlow (s : State) : (dropRecord s).freeFlow = s.freeFlow := freeFlow_of_rest (dropRecord_rest ..)
@[simp] theorem dropRecord_evacuate (s : State) : (dropRecord s).evacuate = s.evacuate := evacuate_of_rest (dropRecord_rest ..)
@[simp] theorem dropRecord_online (s : State) : (dropRecord s).online = s.online := online_of_rest (dropRecord_rest ..)
@[simp] theorem dropRecord_now (s : State) : (dropRecord s).now = s.now := now_of_rest (dropRecord_rest ..)
@[simp] theorem dropRecord_day (s : State) : (dropRecord s).day = s.day := day_of_rest (dropRecord_rest ..)
@[simp] theorem dropRecord_ms (s : State) : (dropRecord s).ms = s.ms := ms_of_rest (dropRecord_rest ..)
@[simp] theorem dropRecord_options (s : State) : (dropRecord s).options = s.options := options_of_rest (dropRecord_rest ..)
@[simp] theorem appendUnpledged_station (r : Record) (s : State) : (appendUnpledged r s).station = s.station := station_of_rest (appendUnpledged_rest ..)
@[simp] theorem appendUnpledged_freeFlow (r : Record) (s : State) : (appendUnpledged r s).freeFlow = s.freeFlow := freeFlow_of_rest (appendUnpledged_rest ..)
@[simp] theorem appendUnpledged_evacuate (r : Record) (s : State) : (appendUnpledged r s).evacuate = s.evacuate := evacuate_of_rest (appendUnpledged_rest ..)
@[simp] theorem appendUnpledged_online (r : Record) (s : State) : (appendUnpledged r s).online = s.online := online_of_rest (appendUnpledged_rest ..)
@[simp] theorem appendUnpledged_now (r : Record) (s : State) : (appendUnpledged r s).now = s.now := now_of_rest (appendUnpledged_rest ..)
@[simp] theorem appendUnpledged_day (r : Record) (s : State) : (appendUnpledged r s).day = s.day := day_of_rest (appendUnpledged_rest ..)
@[simp] theorem appendUnpledged_ms (r : Record) (s : State) : (appendUnpledged r s).ms = s.ms := ms_of_rest (appendUnpledged_rest ..)
@[simp] theorem appendUnpledged_options (r : Record) (s : State) : (appendUnpledged r s).options = s.options := options_of_rest (appendUnpledged_rest ..)
@[simp] theorem stationRecord_station (ev : StationEvent) (b : Bool) (d m : Nat) (s : State) : (stationRecord ev b d m s).station = s.station := station_of_rest (stationRecord_rest ..)
@[simp] theorem stationRecord_freeFlow (ev : StationEvent) (b : Bool) (d m : Nat) (s : State) : (stationRecord ev b d m s).freeFlow = s.freeFlow := freeFlow_of_rest (stationRecord_rest ..)
@[simp] theorem stationRecord_evacuate (ev : StationEvent) (b : Bool) (d m : Nat) (s : State) : (stationRecord ev b d m s).evacuate = s.evacuate := evacuate_of_rest (stationRecord_rest ..)
@[simp] theorem stationRecord_online (ev : StationEvent) (b : Bool) (d m : Nat) (s : State) : (stationRecord ev b d m s).online = s.online := online_of_rest (stationRecord_rest ..)
@[simp] theorem stationRecord_now (ev : StationEvent) (b : Bool) (d m : Nat) (s : State) : (stationRecord ev b d m s).now = s.now := now_of_rest (stationRecord_rest ..)
@[simp] theorem stationRecord_day (ev : StationEvent) (b : Bool) (d m : Nat) (s : State) : (stationRecord ev b d m s).day = s.day := day_of_rest (stationRecord_rest ..)
@[simp] theorem stationRecord_ms (ev : StationEvent) (b : Bool) (d m : Nat) (s : State) : (stationRecord ev b d m s).ms = s.ms := ms_of_rest (stationRecord_rest ..)
@[simp] theorem stationRecord_options (ev : StationEvent) (b : Bool) (d m : Nat) (s : State) : (stationRecord ev b d m s).options = s.options := options_of_rest (stationRecord_rest ..)
@[simp] theorem laneRecord_station (n : Fin 4) (b : Bool) (s : State) : (laneRecord n b s).station = s.station := station_of_rest (laneRecord_rest ..)
@[simp] theorem laneRecord_freeFlow (n : Fin 4) (b : Bool) (s : State) : (laneRecord n b s).freeFlow = s.freeFlow := freeFlow_of_rest (laneRecord_rest ..)
@[simp] theorem laneRecord_evacuate (n : Fin 4) (b : Bool) (s : State) : (laneRecord n b s).evacuate = s.evacuate := evacuate_of_rest (laneRecord_rest ..)
@[simp] theorem laneRecord_online (n : Fin 4) (b : Bool) (s : State) : (laneRecord n b s).online = s.online := online_of_rest (laneRecord_rest ..)
@[simp] theorem laneRecord_now (n : Fin 4) (b : Bool) (s : State) : (laneRecord n b s).now = s.now := now_of_rest (laneRecord_rest ..)
@[simp] theorem laneRecord_day (n : Fin 4) (b : Bool) (s : State) : (laneRecord n b s).day = s.day := day_of_rest (laneRecord_rest ..)
@[simp] theorem laneRecord_ms (n : Fin 4) (b : Bool) (s : State) : (laneRecord n b s).ms = s.ms := ms_of_rest (laneRecord_rest ..)
@[simp] theorem laneRecord_options (n : Fin 4) (b : Bool) (s : State) : (laneRecord n b s).options = s.options := options_of_rest (laneRecord_rest ..)
@[simp] theorem handOutcome_station (n : Fin 4) (o : CueOutcome) (s : State) : (handOutcome n o s).station = s.station := station_of_rest (handOutcome_rest ..)
@[simp] theorem handOutcome_freeFlow (n : Fin 4) (o : CueOutcome) (s : State) : (handOutcome n o s).freeFlow = s.freeFlow := freeFlow_of_rest (handOutcome_rest ..)
@[simp] theorem handOutcome_evacuate (n : Fin 4) (o : CueOutcome) (s : State) : (handOutcome n o s).evacuate = s.evacuate := evacuate_of_rest (handOutcome_rest ..)
@[simp] theorem handOutcome_online (n : Fin 4) (o : CueOutcome) (s : State) : (handOutcome n o s).online = s.online := online_of_rest (handOutcome_rest ..)
@[simp] theorem handOutcome_now (n : Fin 4) (o : CueOutcome) (s : State) : (handOutcome n o s).now = s.now := now_of_rest (handOutcome_rest ..)
@[simp] theorem handOutcome_day (n : Fin 4) (o : CueOutcome) (s : State) : (handOutcome n o s).day = s.day := day_of_rest (handOutcome_rest ..)
@[simp] theorem handOutcome_ms (n : Fin 4) (o : CueOutcome) (s : State) : (handOutcome n o s).ms = s.ms := ms_of_rest (handOutcome_rest ..)
@[simp] theorem handOutcome_options (n : Fin 4) (o : CueOutcome) (s : State) : (handOutcome n o s).options = s.options := options_of_rest (handOutcome_rest ..)
@[simp] theorem handInPlaceOfReady_station (n : Fin 4) (o : CueOutcome) (s : State) : (handInPlaceOfReady n o s).station = s.station := station_of_rest (handInPlaceOfReady_rest ..)
@[simp] theorem handInPlaceOfReady_freeFlow (n : Fin 4) (o : CueOutcome) (s : State) : (handInPlaceOfReady n o s).freeFlow = s.freeFlow := freeFlow_of_rest (handInPlaceOfReady_rest ..)
@[simp] theorem handInPlaceOfReady_evacuate (n : Fin 4) (o : CueOutcome) (s : State) : (handInPlaceOfReady n o s).evacuate = s.evacuate := evacuate_of_rest (handInPlaceOfReady_rest ..)
@[simp] theorem handInPlaceOfReady_online (n : Fin 4) (o : CueOutcome) (s : State) : (handInPlaceOfReady n o s).online = s.online := online_of_rest (handInPlaceOfReady_rest ..)
@[simp] theorem handInPlaceOfReady_now (n : Fin 4) (o : CueOutcome) (s : State) : (handInPlaceOfReady n o s).now = s.now := now_of_rest (handInPlaceOfReady_rest ..)
@[simp] theorem handInPlaceOfReady_day (n : Fin 4) (o : CueOutcome) (s : State) : (handInPlaceOfReady n o s).day = s.day := day_of_rest (handInPlaceOfReady_rest ..)
@[simp] theorem handInPlaceOfReady_ms (n : Fin 4) (o : CueOutcome) (s : State) : (handInPlaceOfReady n o s).ms = s.ms := ms_of_rest (handInPlaceOfReady_rest ..)
@[simp] theorem handInPlaceOfReady_options (n : Fin 4) (o : CueOutcome) (s : State) : (handInPlaceOfReady n o s).options = s.options := options_of_rest (handInPlaceOfReady_rest ..)
@[simp] theorem enterReady_station (n : Fin 4) (s : State) : (enterReady n s).station = s.station := station_of_rest (enterReady_rest ..)
@[simp] theorem enterReady_freeFlow (n : Fin 4) (s : State) : (enterReady n s).freeFlow = s.freeFlow := freeFlow_of_rest (enterReady_rest ..)
@[simp] theorem enterReady_evacuate (n : Fin 4) (s : State) : (enterReady n s).evacuate = s.evacuate := evacuate_of_rest (enterReady_rest ..)
@[simp] theorem enterReady_online (n : Fin 4) (s : State) : (enterReady n s).online = s.online := online_of_rest (enterReady_rest ..)
@[simp] theorem enterReady_now (n : Fin 4) (s : State) : (enterReady n s).now = s.now := now_of_rest (enterReady_rest ..)
@[simp] theorem enterReady_day (n : Fin 4) (s : State) : (enterReady n s).day = s.day := day_of_rest (enterReady_rest ..)
@[simp] theorem enterReady_ms (n : Fin 4) (s : State) : (enterReady n s).ms = s.ms := ms_of_rest (enterReady_rest ..)
@[simp] theorem enterReady_options (n : Fin 4) (s : State) : (enterReady n s).options = s.options := options_of_rest (enterReady_rest ..)
@[simp] theorem enterReadyWith_station (n : Fin 4) (o : CueOutcome) (s : State) : (enterReadyWith n o s).station = s.station := station_of_rest (enterReadyWith_rest ..)
@[simp] theorem enterReadyWith_freeFlow (n : Fin 4) (o : CueOutcome) (s : State) : (enterReadyWith n o s).freeFlow = s.freeFlow := freeFlow_of_rest (enterReadyWith_rest ..)
@[simp] theorem enterReadyWith_evacuate (n : Fin 4) (o : CueOutcome) (s : State) : (enterReadyWith n o s).evacuate = s.evacuate := evacuate_of_rest (enterReadyWith_rest ..)
@[simp] theorem enterReadyWith_online (n : Fin 4) (o : CueOutcome) (s : State) : (enterReadyWith n o s).online = s.online := online_of_rest (enterReadyWith_rest ..)
@[simp] theorem enterReadyWith_now (n : Fin 4) (o : CueOutcome) (s : State) : (enterReadyWith n o s).now = s.now := now_of_rest (enterReadyWith_rest ..)
@[simp] theorem enterReadyWith_day (n : Fin 4) (o : CueOutcome) (s : State) : (enterReadyWith n o s).day = s.day := day_of_rest (enterReadyWith_rest ..)
@[simp] theorem enterReadyWith_ms (n : Fin 4) (o : CueOutcome) (s : State) : (enterReadyWith n o s).ms = s.ms := ms_of_rest (enterReadyWith_rest ..)
@[simp] theorem enterReadyWith_options (n : Fin 4) (o : CueOutcome) (s : State) : (enterReadyWith n o s).options = s.options := options_of_rest (enterReadyWith_rest ..)
@[simp] theorem count_station (n : Fin 4) (k : CountKind) (s : State) : (count n k s).station = s.station := station_of_rest (count_rest ..)
@[simp] theorem count_freeFlow (n : Fin 4) (k : CountKind) (s : State) : (count n k s).freeFlow = s.freeFlow := freeFlow_of_rest (count_rest ..)
@[simp] theorem count_evacuate (n : Fin 4) (k : CountKind) (s : State) : (count n k s).evacuate = s.evacuate := evacuate_of_rest (count_rest ..)
@[simp] theorem count_online (n : Fin 4) (k : CountKind) (s : State) : (count n k s).online = s.online := online_of_rest (count_rest ..)
@[simp] theorem count_now (n : Fin 4) (k : CountKind) (s : State) : (count n k s).now = s.now := now_of_rest (count_rest ..)
@[simp] theorem count_day (n : Fin 4) (k : CountKind) (s : State) : (count n k s).day = s.day := day_of_rest (count_rest ..)
@[simp] theorem count_ms (n : Fin 4) (k : CountKind) (s : State) : (count n k s).ms = s.ms := ms_of_rest (count_rest ..)
@[simp] theorem count_options (n : Fin 4) (k : CountKind) (s : State) : (count n k s).options = s.options := options_of_rest (count_rest ..)
@[simp] theorem markPartial_station (n : Fin 4) (s : State) : (markPartial n s).station = s.station := station_of_rest (markPartial_rest ..)
@[simp] theorem markPartial_freeFlow (n : Fin 4) (s : State) : (markPartial n s).freeFlow = s.freeFlow := freeFlow_of_rest (markPartial_rest ..)
@[simp] theorem markPartial_evacuate (n : Fin 4) (s : State) : (markPartial n s).evacuate = s.evacuate := evacuate_of_rest (markPartial_rest ..)
@[simp] theorem markPartial_online (n : Fin 4) (s : State) : (markPartial n s).online = s.online := online_of_rest (markPartial_rest ..)
@[simp] theorem markPartial_now (n : Fin 4) (s : State) : (markPartial n s).now = s.now := now_of_rest (markPartial_rest ..)
@[simp] theorem markPartial_day (n : Fin 4) (s : State) : (markPartial n s).day = s.day := day_of_rest (markPartial_rest ..)
@[simp] theorem markPartial_ms (n : Fin 4) (s : State) : (markPartial n s).ms = s.ms := ms_of_rest (markPartial_rest ..)
@[simp] theorem markPartial_options (n : Fin 4) (s : State) : (markPartial n s).options = s.options := options_of_rest (markPartial_rest ..)
@[simp] theorem markOffline_station (n : Fin 4) (s : State) : (markOffline n s).station = s.station := station_of_rest (markOffline_rest ..)
@[simp] theorem markOffline_freeFlow (n : Fin 4) (s : State) : (markOffline n s).freeFlow = s.freeFlow := freeFlow_of_rest (markOffline_rest ..)
@[simp] theorem markOffline_evacuate (n : Fin 4) (s : State) : (markOffline n s).evacuate = s.evacuate := evacuate_of_rest (markOffline_rest ..)
@[simp] theorem markOffline_online (n : Fin 4) (s : State) : (markOffline n s).online = s.online := online_of_rest (markOffline_rest ..)
@[simp] theorem markOffline_now (n : Fin 4) (s : State) : (markOffline n s).now = s.now := now_of_rest (markOffline_rest ..)
@[simp] theorem markOffline_day (n : Fin 4) (s : State) : (markOffline n s).day = s.day := day_of_rest (markOffline_rest ..)
@[simp] theorem markOffline_ms (n : Fin 4) (s : State) : (markOffline n s).ms = s.ms := ms_of_rest (markOffline_rest ..)
@[simp] theorem markOffline_options (n : Fin 4) (s : State) : (markOffline n s).options = s.options := options_of_rest (markOffline_rest ..)
@[simp] theorem openWindow_station (n : Fin 4) (w : Window) (s : State) : (openWindow n w s).station = s.station := station_of_rest (openWindow_rest ..)
@[simp] theorem openWindow_freeFlow (n : Fin 4) (w : Window) (s : State) : (openWindow n w s).freeFlow = s.freeFlow := freeFlow_of_rest (openWindow_rest ..)
@[simp] theorem openWindow_evacuate (n : Fin 4) (w : Window) (s : State) : (openWindow n w s).evacuate = s.evacuate := evacuate_of_rest (openWindow_rest ..)
@[simp] theorem openWindow_online (n : Fin 4) (w : Window) (s : State) : (openWindow n w s).online = s.online := online_of_rest (openWindow_rest ..)
@[simp] theorem openWindow_now (n : Fin 4) (w : Window) (s : State) : (openWindow n w s).now = s.now := now_of_rest (openWindow_rest ..)
@[simp] theorem openWindow_day (n : Fin 4) (w : Window) (s : State) : (openWindow n w s).day = s.day := day_of_rest (openWindow_rest ..)
@[simp] theorem openWindow_ms (n : Fin 4) (w : Window) (s : State) : (openWindow n w s).ms = s.ms := ms_of_rest (openWindow_rest ..)
@[simp] theorem openWindow_options (n : Fin 4) (w : Window) (s : State) : (openWindow n w s).options = s.options := options_of_rest (openWindow_rest ..)
@[simp] theorem closeWindow_station (n : Fin 4) (w : Window) (len : Nat) (s : State) : (closeWindow n w len s).station = s.station := station_of_rest (closeWindow_rest ..)
@[simp] theorem closeWindow_freeFlow (n : Fin 4) (w : Window) (len : Nat) (s : State) : (closeWindow n w len s).freeFlow = s.freeFlow := freeFlow_of_rest (closeWindow_rest ..)
@[simp] theorem closeWindow_evacuate (n : Fin 4) (w : Window) (len : Nat) (s : State) : (closeWindow n w len s).evacuate = s.evacuate := evacuate_of_rest (closeWindow_rest ..)
@[simp] theorem closeWindow_online (n : Fin 4) (w : Window) (len : Nat) (s : State) : (closeWindow n w len s).online = s.online := online_of_rest (closeWindow_rest ..)
@[simp] theorem closeWindow_now (n : Fin 4) (w : Window) (len : Nat) (s : State) : (closeWindow n w len s).now = s.now := now_of_rest (closeWindow_rest ..)
@[simp] theorem closeWindow_day (n : Fin 4) (w : Window) (len : Nat) (s : State) : (closeWindow n w len s).day = s.day := day_of_rest (closeWindow_rest ..)
@[simp] theorem closeWindow_ms (n : Fin 4) (w : Window) (len : Nat) (s : State) : (closeWindow n w len s).ms = s.ms := ms_of_rest (closeWindow_rest ..)
@[simp] theorem closeWindow_options (n : Fin 4) (w : Window) (len : Nat) (s : State) : (closeWindow n w len s).options = s.options := options_of_rest (closeWindow_rest ..)
@[simp] theorem sendShow_station (p : Fin 4) (c : ShowCode) (v : Nat) (s : State) : (sendShow p c v s).station = s.station := station_of_rest (sendShow_rest ..)
@[simp] theorem sendShow_freeFlow (p : Fin 4) (c : ShowCode) (v : Nat) (s : State) : (sendShow p c v s).freeFlow = s.freeFlow := freeFlow_of_rest (sendShow_rest ..)
@[simp] theorem sendShow_evacuate (p : Fin 4) (c : ShowCode) (v : Nat) (s : State) : (sendShow p c v s).evacuate = s.evacuate := evacuate_of_rest (sendShow_rest ..)
@[simp] theorem sendShow_online (p : Fin 4) (c : ShowCode) (v : Nat) (s : State) : (sendShow p c v s).online = s.online := online_of_rest (sendShow_rest ..)
@[simp] theorem sendShow_now (p : Fin 4) (c : ShowCode) (v : Nat) (s : State) : (sendShow p c v s).now = s.now := now_of_rest (sendShow_rest ..)
@[simp] theorem sendShow_day (p : Fin 4) (c : ShowCode) (v : Nat) (s : State) : (sendShow p c v s).day = s.day := day_of_rest (sendShow_rest ..)
@[simp] theorem sendShow_ms (p : Fin 4) (c : ShowCode) (v : Nat) (s : State) : (sendShow p c v s).ms = s.ms := ms_of_rest (sendShow_rest ..)
@[simp] theorem sendShow_options (p : Fin 4) (c : ShowCode) (v : Nat) (s : State) : (sendShow p c v s).options = s.options := options_of_rest (sendShow_rest ..)
@[simp] theorem changeService_station (before : State) (s : State) : (changeService before s).station = s.station := station_of_rest (changeService_rest ..)
@[simp] theorem changeService_freeFlow (before : State) (s : State) : (changeService before s).freeFlow = s.freeFlow := freeFlow_of_rest (changeService_rest ..)
@[simp] theorem changeService_evacuate (before : State) (s : State) : (changeService before s).evacuate = s.evacuate := evacuate_of_rest (changeService_rest ..)
@[simp] theorem changeService_online (before : State) (s : State) : (changeService before s).online = s.online := online_of_rest (changeService_rest ..)
@[simp] theorem changeService_now (before : State) (s : State) : (changeService before s).now = s.now := now_of_rest (changeService_rest ..)
@[simp] theorem changeService_day (before : State) (s : State) : (changeService before s).day = s.day := day_of_rest (changeService_rest ..)
@[simp] theorem changeService_ms (before : State) (s : State) : (changeService before s).ms = s.ms := ms_of_rest (changeService_rest ..)
@[simp] theorem changeService_options (before : State) (s : State) : (changeService before s).options = s.options := options_of_rest (changeService_rest ..)
@[simp] theorem setMarker_station (slot : Nat) (l : Option (Fin 4)) (s : State) : (setMarker slot l s).station = s.station := station_of_rest (setMarker_rest ..)
@[simp] theorem setMarker_freeFlow (slot : Nat) (l : Option (Fin 4)) (s : State) : (setMarker slot l s).freeFlow = s.freeFlow := freeFlow_of_rest (setMarker_rest ..)
@[simp] theorem setMarker_evacuate (slot : Nat) (l : Option (Fin 4)) (s : State) : (setMarker slot l s).evacuate = s.evacuate := evacuate_of_rest (setMarker_rest ..)
@[simp] theorem setMarker_online (slot : Nat) (l : Option (Fin 4)) (s : State) : (setMarker slot l s).online = s.online := online_of_rest (setMarker_rest ..)
@[simp] theorem setMarker_now (slot : Nat) (l : Option (Fin 4)) (s : State) : (setMarker slot l s).now = s.now := now_of_rest (setMarker_rest ..)
@[simp] theorem setMarker_day (slot : Nat) (l : Option (Fin 4)) (s : State) : (setMarker slot l s).day = s.day := day_of_rest (setMarker_rest ..)
@[simp] theorem setMarker_ms (slot : Nat) (l : Option (Fin 4)) (s : State) : (setMarker slot l s).ms = s.ms := ms_of_rest (setMarker_rest ..)
@[simp] theorem setMarker_options (slot : Nat) (l : Option (Fin 4)) (s : State) : (setMarker slot l s).options = s.options := options_of_rest (setMarker_rest ..)
@[simp] theorem retire_station (slot : Nat) (s : State) : (retire slot s).station = s.station := station_of_rest (retire_rest ..)
@[simp] theorem retire_freeFlow (slot : Nat) (s : State) : (retire slot s).freeFlow = s.freeFlow := freeFlow_of_rest (retire_rest ..)
@[simp] theorem retire_evacuate (slot : Nat) (s : State) : (retire slot s).evacuate = s.evacuate := evacuate_of_rest (retire_rest ..)
@[simp] theorem retire_online (slot : Nat) (s : State) : (retire slot s).online = s.online := online_of_rest (retire_rest ..)
@[simp] theorem retire_now (slot : Nat) (s : State) : (retire slot s).now = s.now := now_of_rest (retire_rest ..)
@[simp] theorem retire_day (slot : Nat) (s : State) : (retire slot s).day = s.day := day_of_rest (retire_rest ..)
@[simp] theorem retire_ms (slot : Nat) (s : State) : (retire slot s).ms = s.ms := ms_of_rest (retire_rest ..)
@[simp] theorem retire_options (slot : Nat) (s : State) : (retire slot s).options = s.options := options_of_rest (retire_rest ..)
@[simp] theorem pokeResult_station (k : Fin 32) (off : Nat) (bs : List Byte) (s : State) : (pokeResult k off bs s).station = s.station := station_of_rest (pokeResult_rest ..)
@[simp] theorem pokeResult_freeFlow (k : Fin 32) (off : Nat) (bs : List Byte) (s : State) : (pokeResult k off bs s).freeFlow = s.freeFlow := freeFlow_of_rest (pokeResult_rest ..)
@[simp] theorem pokeResult_evacuate (k : Fin 32) (off : Nat) (bs : List Byte) (s : State) : (pokeResult k off bs s).evacuate = s.evacuate := evacuate_of_rest (pokeResult_rest ..)
@[simp] theorem pokeResult_online (k : Fin 32) (off : Nat) (bs : List Byte) (s : State) : (pokeResult k off bs s).online = s.online := online_of_rest (pokeResult_rest ..)
@[simp] theorem pokeResult_now (k : Fin 32) (off : Nat) (bs : List Byte) (s : State) : (pokeResult k off bs s).now = s.now := now_of_rest (pokeResult_rest ..)
@[simp] theorem pokeResult_day (k : Fin 32) (off : Nat) (bs : List Byte) (s : State) : (pokeResult k off bs s).day = s.day := day_of_rest (pokeResult_rest ..)
@[simp] theorem pokeResult_ms (k : Fin 32) (off : Nat) (bs : List Byte) (s : State) : (pokeResult k off bs s).ms = s.ms := ms_of_rest (pokeResult_rest ..)
@[simp] theorem pokeResult_options (k : Fin 32) (off : Nat) (bs : List Byte) (s : State) : (pokeResult k off bs s).options = s.options := options_of_rest (pokeResult_rest ..)
@[simp] theorem endOrder_station (k : Fin 32) (r : Result) (s : State) : (endOrder k r s).station = s.station := station_of_rest (endOrder_rest ..)
@[simp] theorem endOrder_freeFlow (k : Fin 32) (r : Result) (s : State) : (endOrder k r s).freeFlow = s.freeFlow := freeFlow_of_rest (endOrder_rest ..)
@[simp] theorem endOrder_evacuate (k : Fin 32) (r : Result) (s : State) : (endOrder k r s).evacuate = s.evacuate := evacuate_of_rest (endOrder_rest ..)
@[simp] theorem endOrder_online (k : Fin 32) (r : Result) (s : State) : (endOrder k r s).online = s.online := online_of_rest (endOrder_rest ..)
@[simp] theorem endOrder_now (k : Fin 32) (r : Result) (s : State) : (endOrder k r s).now = s.now := now_of_rest (endOrder_rest ..)
@[simp] theorem endOrder_day (k : Fin 32) (r : Result) (s : State) : (endOrder k r s).day = s.day := day_of_rest (endOrder_rest ..)
@[simp] theorem endOrder_ms (k : Fin 32) (r : Result) (s : State) : (endOrder k r s).ms = s.ms := ms_of_rest (endOrder_rest ..)
@[simp] theorem endOrder_options (k : Fin 32) (r : Result) (s : State) : (endOrder k r s).options = s.options := options_of_rest (endOrder_rest ..)
@[simp] theorem denyCore_station (n p : Fin 4) (uid : List Byte) (slot : Option Nat) (r : DenyReason) (e : ReferralEnd) (s : State) : (denyCore n p uid slot r e s).station = s.station := station_of_rest (denyCore_rest ..)
@[simp] theorem denyCore_freeFlow (n p : Fin 4) (uid : List Byte) (slot : Option Nat) (r : DenyReason) (e : ReferralEnd) (s : State) : (denyCore n p uid slot r e s).freeFlow = s.freeFlow := freeFlow_of_rest (denyCore_rest ..)
@[simp] theorem denyCore_evacuate (n p : Fin 4) (uid : List Byte) (slot : Option Nat) (r : DenyReason) (e : ReferralEnd) (s : State) : (denyCore n p uid slot r e s).evacuate = s.evacuate := evacuate_of_rest (denyCore_rest ..)
@[simp] theorem denyCore_online (n p : Fin 4) (uid : List Byte) (slot : Option Nat) (r : DenyReason) (e : ReferralEnd) (s : State) : (denyCore n p uid slot r e s).online = s.online := online_of_rest (denyCore_rest ..)
@[simp] theorem denyCore_now (n p : Fin 4) (uid : List Byte) (slot : Option Nat) (r : DenyReason) (e : ReferralEnd) (s : State) : (denyCore n p uid slot r e s).now = s.now := now_of_rest (denyCore_rest ..)
@[simp] theorem denyCore_day (n p : Fin 4) (uid : List Byte) (slot : Option Nat) (r : DenyReason) (e : ReferralEnd) (s : State) : (denyCore n p uid slot r e s).day = s.day := day_of_rest (denyCore_rest ..)
@[simp] theorem denyCore_ms (n p : Fin 4) (uid : List Byte) (slot : Option Nat) (r : DenyReason) (e : ReferralEnd) (s : State) : (denyCore n p uid slot r e s).ms = s.ms := ms_of_rest (denyCore_rest ..)
@[simp] theorem denyCore_options (n p : Fin 4) (uid : List Byte) (slot : Option Nat) (r : DenyReason) (e : ReferralEnd) (s : State) : (denyCore n p uid slot r e s).options = s.options := options_of_rest (denyCore_rest ..)
@[simp] theorem denyReferralToReady_station (n : Fin 4) (r : Referral) (slot : Option Nat) (w : DenyReason) (e : ReferralEnd) (s : State) : (denyReferralToReady n r slot w e s).station = s.station := station_of_rest (denyReferralToReady_rest ..)
@[simp] theorem denyReferralToReady_freeFlow (n : Fin 4) (r : Referral) (slot : Option Nat) (w : DenyReason) (e : ReferralEnd) (s : State) : (denyReferralToReady n r slot w e s).freeFlow = s.freeFlow := freeFlow_of_rest (denyReferralToReady_rest ..)
@[simp] theorem denyReferralToReady_evacuate (n : Fin 4) (r : Referral) (slot : Option Nat) (w : DenyReason) (e : ReferralEnd) (s : State) : (denyReferralToReady n r slot w e s).evacuate = s.evacuate := evacuate_of_rest (denyReferralToReady_rest ..)
@[simp] theorem denyReferralToReady_online (n : Fin 4) (r : Referral) (slot : Option Nat) (w : DenyReason) (e : ReferralEnd) (s : State) : (denyReferralToReady n r slot w e s).online = s.online := online_of_rest (denyReferralToReady_rest ..)
@[simp] theorem denyReferralToReady_now (n : Fin 4) (r : Referral) (slot : Option Nat) (w : DenyReason) (e : ReferralEnd) (s : State) : (denyReferralToReady n r slot w e s).now = s.now := now_of_rest (denyReferralToReady_rest ..)
@[simp] theorem denyReferralToReady_day (n : Fin 4) (r : Referral) (slot : Option Nat) (w : DenyReason) (e : ReferralEnd) (s : State) : (denyReferralToReady n r slot w e s).day = s.day := day_of_rest (denyReferralToReady_rest ..)
@[simp] theorem denyReferralToReady_ms (n : Fin 4) (r : Referral) (slot : Option Nat) (w : DenyReason) (e : ReferralEnd) (s : State) : (denyReferralToReady n r slot w e s).ms = s.ms := ms_of_rest (denyReferralToReady_rest ..)
@[simp] theorem denyReferralToReady_options (n : Fin 4) (r : Referral) (slot : Option Nat) (w : DenyReason) (e : ReferralEnd) (s : State) : (denyReferralToReady n r slot w e s).options = s.options := options_of_rest (denyReferralToReady_rest ..)
@[simp] theorem denyReferralOnward_station (n : Fin 4) (r : Referral) (w : DenyReason) (e : ReferralEnd) (s : State) : (denyReferralOnward n r w e s).station = s.station := station_of_rest (denyReferralOnward_rest ..)
@[simp] theorem denyReferralOnward_freeFlow (n : Fin 4) (r : Referral) (w : DenyReason) (e : ReferralEnd) (s : State) : (denyReferralOnward n r w e s).freeFlow = s.freeFlow := freeFlow_of_rest (denyReferralOnward_rest ..)
@[simp] theorem denyReferralOnward_evacuate (n : Fin 4) (r : Referral) (w : DenyReason) (e : ReferralEnd) (s : State) : (denyReferralOnward n r w e s).evacuate = s.evacuate := evacuate_of_rest (denyReferralOnward_rest ..)
@[simp] theorem denyReferralOnward_online (n : Fin 4) (r : Referral) (w : DenyReason) (e : ReferralEnd) (s : State) : (denyReferralOnward n r w e s).online = s.online := online_of_rest (denyReferralOnward_rest ..)
@[simp] theorem denyReferralOnward_now (n : Fin 4) (r : Referral) (w : DenyReason) (e : ReferralEnd) (s : State) : (denyReferralOnward n r w e s).now = s.now := now_of_rest (denyReferralOnward_rest ..)
@[simp] theorem denyReferralOnward_day (n : Fin 4) (r : Referral) (w : DenyReason) (e : ReferralEnd) (s : State) : (denyReferralOnward n r w e s).day = s.day := day_of_rest (denyReferralOnward_rest ..)
@[simp] theorem denyReferralOnward_ms (n : Fin 4) (r : Referral) (w : DenyReason) (e : ReferralEnd) (s : State) : (denyReferralOnward n r w e s).ms = s.ms := ms_of_rest (denyReferralOnward_rest ..)
@[simp] theorem denyReferralOnward_options (n : Fin 4) (r : Referral) (w : DenyReason) (e : ReferralEnd) (s : State) : (denyReferralOnward n r w e s).options = s.options := options_of_rest (denyReferralOnward_rest ..)
@[simp] theorem voidCore_station (n : Fin 4) (g : Grant) (c : VoidCause) (s : State) : (voidCore n g c s).station = s.station := station_of_rest (voidCore_rest ..)
@[simp] theorem voidCore_freeFlow (n : Fin 4) (g : Grant) (c : VoidCause) (s : State) : (voidCore n g c s).freeFlow = s.freeFlow := freeFlow_of_rest (voidCore_rest ..)
@[simp] theorem voidCore_evacuate (n : Fin 4) (g : Grant) (c : VoidCause) (s : State) : (voidCore n g c s).evacuate = s.evacuate := evacuate_of_rest (voidCore_rest ..)
@[simp] theorem voidCore_online (n : Fin 4) (g : Grant) (c : VoidCause) (s : State) : (voidCore n g c s).online = s.online := online_of_rest (voidCore_rest ..)
@[simp] theorem voidCore_now (n : Fin 4) (g : Grant) (c : VoidCause) (s : State) : (voidCore n g c s).now = s.now := now_of_rest (voidCore_rest ..)
@[simp] theorem voidCore_day (n : Fin 4) (g : Grant) (c : VoidCause) (s : State) : (voidCore n g c s).day = s.day := day_of_rest (voidCore_rest ..)
@[simp] theorem voidCore_ms (n : Fin 4) (g : Grant) (c : VoidCause) (s : State) : (voidCore n g c s).ms = s.ms := ms_of_rest (voidCore_rest ..)
@[simp] theorem voidCore_options (n : Fin 4) (g : Grant) (c : VoidCause) (s : State) : (voidCore n g c s).options = s.options := options_of_rest (voidCore_rest ..)
@[simp] theorem voidToReady_station (n : Fin 4) (g : Grant) (c : VoidCause) (s : State) : (voidToReady n g c s).station = s.station := station_of_rest (voidToReady_rest ..)
@[simp] theorem voidToReady_freeFlow (n : Fin 4) (g : Grant) (c : VoidCause) (s : State) : (voidToReady n g c s).freeFlow = s.freeFlow := freeFlow_of_rest (voidToReady_rest ..)
@[simp] theorem voidToReady_evacuate (n : Fin 4) (g : Grant) (c : VoidCause) (s : State) : (voidToReady n g c s).evacuate = s.evacuate := evacuate_of_rest (voidToReady_rest ..)
@[simp] theorem voidToReady_online (n : Fin 4) (g : Grant) (c : VoidCause) (s : State) : (voidToReady n g c s).online = s.online := online_of_rest (voidToReady_rest ..)
@[simp] theorem voidToReady_now (n : Fin 4) (g : Grant) (c : VoidCause) (s : State) : (voidToReady n g c s).now = s.now := now_of_rest (voidToReady_rest ..)
@[simp] theorem voidToReady_day (n : Fin 4) (g : Grant) (c : VoidCause) (s : State) : (voidToReady n g c s).day = s.day := day_of_rest (voidToReady_rest ..)
@[simp] theorem voidToReady_ms (n : Fin 4) (g : Grant) (c : VoidCause) (s : State) : (voidToReady n g c s).ms = s.ms := ms_of_rest (voidToReady_rest ..)
@[simp] theorem voidToReady_options (n : Fin 4) (g : Grant) (c : VoidCause) (s : State) : (voidToReady n g c s).options = s.options := options_of_rest (voidToReady_rest ..)
@[simp] theorem voidOnward_station (n : Fin 4) (g : Grant) (c : VoidCause) (s : State) : (voidOnward n g c s).station = s.station := station_of_rest (voidOnward_rest ..)
@[simp] theorem voidOnward_freeFlow (n : Fin 4) (g : Grant) (c : VoidCause) (s : State) : (voidOnward n g c s).freeFlow = s.freeFlow := freeFlow_of_rest (voidOnward_rest ..)
@[simp] theorem voidOnward_evacuate (n : Fin 4) (g : Grant) (c : VoidCause) (s : State) : (voidOnward n g c s).evacuate = s.evacuate := evacuate_of_rest (voidOnward_rest ..)
@[simp] theorem voidOnward_online (n : Fin 4) (g : Grant) (c : VoidCause) (s : State) : (voidOnward n g c s).online = s.online := online_of_rest (voidOnward_rest ..)
@[simp] theorem voidOnward_now (n : Fin 4) (g : Grant) (c : VoidCause) (s : State) : (voidOnward n g c s).now = s.now := now_of_rest (voidOnward_rest ..)
@[simp] theorem voidOnward_day (n : Fin 4) (g : Grant) (c : VoidCause) (s : State) : (voidOnward n g c s).day = s.day := day_of_rest (voidOnward_rest ..)
@[simp] theorem voidOnward_ms (n : Fin 4) (g : Grant) (c : VoidCause) (s : State) : (voidOnward n g c s).ms = s.ms := ms_of_rest (voidOnward_rest ..)
@[simp] theorem voidOnward_options (n : Fin 4) (g : Grant) (c : VoidCause) (s : State) : (voidOnward n g c s).options = s.options := options_of_rest (voidOnward_rest ..)
@[simp] theorem applyConfig_station (n : Fin 4) (c : LaneConfig) (s : State) : (applyConfig n c s).station = s.station := station_of_rest (applyConfig_rest ..)
@[simp] theorem applyConfig_freeFlow (n : Fin 4) (c : LaneConfig) (s : State) : (applyConfig n c s).freeFlow = s.freeFlow := freeFlow_of_rest (applyConfig_rest ..)
@[simp] theorem applyConfig_evacuate (n : Fin 4) (c : LaneConfig) (s : State) : (applyConfig n c s).evacuate = s.evacuate := evacuate_of_rest (applyConfig_rest ..)
@[simp] theorem applyConfig_online (n : Fin 4) (c : LaneConfig) (s : State) : (applyConfig n c s).online = s.online := online_of_rest (applyConfig_rest ..)
@[simp] theorem applyConfig_now (n : Fin 4) (c : LaneConfig) (s : State) : (applyConfig n c s).now = s.now := now_of_rest (applyConfig_rest ..)
@[simp] theorem applyConfig_day (n : Fin 4) (c : LaneConfig) (s : State) : (applyConfig n c s).day = s.day := day_of_rest (applyConfig_rest ..)
@[simp] theorem applyConfig_ms (n : Fin 4) (c : LaneConfig) (s : State) : (applyConfig n c s).ms = s.ms := ms_of_rest (applyConfig_rest ..)
@[simp] theorem applyConfig_options (n : Fin 4) (c : LaneConfig) (s : State) : (applyConfig n c s).options = s.options := options_of_rest (applyConfig_rest ..)
@[simp] theorem settleOutputs_station (before : State) (s : State) : (settleOutputs before s).station = s.station := station_of_rest (settleOutputs_rest ..)
@[simp] theorem settleOutputs_freeFlow (before : State) (s : State) : (settleOutputs before s).freeFlow = s.freeFlow := freeFlow_of_rest (settleOutputs_rest ..)
@[simp] theorem settleOutputs_evacuate (before : State) (s : State) : (settleOutputs before s).evacuate = s.evacuate := evacuate_of_rest (settleOutputs_rest ..)
@[simp] theorem settleOutputs_online (before : State) (s : State) : (settleOutputs before s).online = s.online := online_of_rest (settleOutputs_rest ..)
@[simp] theorem settleOutputs_now (before : State) (s : State) : (settleOutputs before s).now = s.now := now_of_rest (settleOutputs_rest ..)
@[simp] theorem settleOutputs_day (before : State) (s : State) : (settleOutputs before s).day = s.day := day_of_rest (settleOutputs_rest ..)
@[simp] theorem settleOutputs_ms (before : State) (s : State) : (settleOutputs before s).ms = s.ms := ms_of_rest (settleOutputs_rest ..)
@[simp] theorem settleOutputs_options (before : State) (s : State) : (settleOutputs before s).options = s.options := options_of_rest (settleOutputs_rest ..)

end Sys2Proof.Machine
end

