-- ==== Sys2Proof/Laws/Memory.lean ====
section
/-! SUPPORT. The laws of station memory: every operation keeps the canonical form, a read after a write gives the value
written, and a write leaves every other byte alone. -/

namespace Sys2Proof.Machine

theorem Memory.wf_nil : Memory.wf [] := by simp [Memory.wf]

theorem Memory.wf_cons {c : Host.Cell} {m : Memory} :
    Memory.wf (c :: m) ↔ c.2 ≠ 0 ∧ (∀ d ∈ m, c.1 < d.1) ∧ Memory.wf m := by
  simp only [Memory.wf, List.pairwise_cons, List.forall_mem_cons]
  tauto

/-- An address below every listed one reads 0. -/
theorem Memory.byteAt_of_lt {m : Memory} {a : Nat} (h : ∀ d ∈ m, a < d.1) : m.byteAt a = 0 := by
  cases m with
  | nil => rfl
  | cons c m =>
    have := h c (by simp)
    simp only [Memory.byteAt]
    split <;> try split
    all_goals first | rfl | omega

/-- An address that no cell lists reads 0. -/
theorem Memory.byteAt_of_unlisted {m : Memory} {a : Nat} (h : ∀ c ∈ m, c.1 ≠ a) : m.byteAt a = 0 := by
  induction m with
  | nil => rfl
  | cons c m ih =>
    simp only [List.mem_cons, forall_eq_or_imp] at h
    simp only [Memory.byteAt]
    split
    · exact absurd (Eq.symm ‹_›) h.1
    · split
      · rfl
      · exact ih h.2

/-! ### One byte written -/

theorem Memory.mem_setByte {m : Memory} {x : Nat} {v : Byte} {c : Host.Cell} (h : c ∈ m.setByte x v) :
    c ∈ m ∨ (c.1 = x ∧ c.2 ≠ 0) := by
  induction m with
  | nil =>
    simp only [Memory.setByte] at h
    split at h
    · simp at h
    · right; simp only [List.mem_singleton] at h; subst h; exact ⟨rfl, ‹_›⟩
  | cons d m ih =>
    obtain ⟨a, b⟩ := d
    simp only [Memory.setByte] at h
    split at h
    · split at h
      · exact .inl h
      · rcases List.mem_cons.1 h with rfl | h
        · exact .inr ⟨rfl, ‹_›⟩
        · exact .inl h
    · split at h
      · split at h
        · exact .inl (List.mem_cons_of_mem _ h)
        · rcases List.mem_cons.1 h with rfl | h
          · exact .inr ⟨by simp_all, ‹_›⟩
          · exact .inl (List.mem_cons_of_mem _ h)
      · rcases List.mem_cons.1 h with rfl | h
        · exact .inl (by simp)
        · rcases ih h with h | h
          · exact .inl (List.mem_cons_of_mem _ h)
          · exact .inr h

theorem Memory.setByte_wf {m : Memory} (h : m.wf) (x : Nat) (v : Byte) : (m.setByte x v).wf := by
  induction m with
  | nil =>
    simp only [Memory.setByte]
    split
    · exact Memory.wf_nil
    · simpa [Memory.wf] using ‹_›
  | cons d m ih =>
    obtain ⟨a, b⟩ := d
    obtain ⟨hb, hlt, hm⟩ := Memory.wf_cons.1 h
    simp only [Memory.setByte]
    split
    · split
      · exact h
      · refine Memory.wf_cons.2 ⟨‹_›, ?_, h⟩
        intro d hd
        rcases List.mem_cons.1 hd with rfl | hd
        · assumption
        · exact lt_trans ‹_› (hlt d hd)
    · split
      · split
        · exact hm
        · exact Memory.wf_cons.2 ⟨‹_›, hlt, hm⟩
      · refine Memory.wf_cons.2 ⟨hb, ?_, ih hm⟩
        intro d hd
        rcases Memory.mem_setByte hd with hd | ⟨hd, -⟩
        · exact hlt d hd
        · simp only; omega

theorem Memory.byteAt_setByte {m : Memory} (h : m.wf) (x y : Nat) (v : Byte) :
    (m.setByte x v).byteAt y = if y = x then v else m.byteAt y := by
  induction m with
  | nil =>
    simp only [Memory.setByte]
    by_cases hv : v = 0
    · simp [hv, Memory.byteAt]
    · simp only [hv, if_false, Memory.byteAt]; split <;> simp
  | cons d m ih =>
    obtain ⟨a, b⟩ := d
    obtain ⟨hb, hlt, hm⟩ := Memory.wf_cons.1 h
    have ih := ih hm
    have hz : ∀ y, y ≤ a → Memory.byteAt m y = 0 := fun y hy =>
      Memory.byteAt_of_lt fun d hd => lt_of_le_of_lt hy (hlt d hd)
    simp only [Memory.setByte]
    by_cases h1 : x < a
    · by_cases hv : v = 0
      · simp only [h1, hv, if_true, Memory.byteAt]
        split <;> (try split) <;> (try split) <;> simp_all
      · simp only [h1, hv, if_true, if_false, Memory.byteAt]
        split
        · simp_all
        · split
          · split <;> (try split) <;> simp_all <;> omega
          · rfl
    · by_cases h2 : x = a
      · subst h2
        by_cases hv : v = 0
        · simp only [lt_irrefl, if_false, hv, if_true, Memory.byteAt]
          by_cases hy : y = x
          · simp [hy, hz]
          · simp only [hy, if_false]
            split
            · exact hz y (by omega)
            · rfl
        · simp only [lt_irrefl, if_false, hv, if_true, Memory.byteAt]
          split <;> rfl
      · simp only [h1, h2, if_false, Memory.byteAt]
        by_cases hya : y = a
        · simp [hya, Ne.symm h2]
        · simp only [hya, if_false]
          by_cases hlt' : y < a
          · simp only [hlt', if_true]; split
            · omega
            · rfl
          · simp only [hlt', if_false]; exact ih

/-! ### Runs of bytes -/

theorem Memory.writeBytes_wf {m : Memory} (h : m.wf) (a : Nat) (bs : List Byte) : (m.writeBytes a bs).wf := by
  induction bs generalizing m a with
  | nil => exact h
  | cons b bs ih => exact ih (Memory.setByte_wf h a b) (a + 1)

theorem Memory.byteAt_writeBytes {m : Memory} (h : m.wf) (a y : Nat) (bs : List Byte) :
    (m.writeBytes a bs).byteAt y = if a ≤ y ∧ y < a + bs.length then bs.getD (y - a) 0 else m.byteAt y := by
  induction bs generalizing m a with
  | nil => simp [Memory.writeBytes]
  | cons b bs ih =>
    simp only [Memory.writeBytes, ih (Memory.setByte_wf h a b), Memory.byteAt_setByte h, List.length_cons]
    by_cases hy : y = a
    · subst hy; simp
    · by_cases hr : a + 1 ≤ y ∧ y < a + 1 + bs.length
      · have h1 : a ≤ y ∧ y < a + (bs.length + 1) := by omega
        have h2 : y - a = (y - (a + 1)) + 1 := by omega
        simp [hr, h1, h2]
      · have h1 : ¬(a ≤ y ∧ y < a + (bs.length + 1)) := by omega
        simp only [hr, h1, hy, if_false]

theorem Memory.byteAt_writeBytes_outside {m : Memory} (h : m.wf) {a y : Nat} {bs : List Byte}
    (hy : y < a ∨ a + bs.length ≤ y) : (m.writeBytes a bs).byteAt y = m.byteAt y := by
  rw [Memory.byteAt_writeBytes h, if_neg (by omega)]

@[simp] theorem length_le (n v : Nat) : (le n v).length = n := by
  induction n generalizing v with
  | zero => rfl
  | succ n ih => simp [le, ih]

theorem Memory.write_wf {m : Memory} (h : m.wf) (a n v : Nat) : (m.write a n v).wf := Memory.writeBytes_wf h a _

theorem Memory.byteAt_write_outside {m : Memory} (h : m.wf) {a n v y : Nat} (hy : y < a ∨ a + n ≤ y) :
    (m.write a n v).byteAt y = m.byteAt y :=
  Memory.byteAt_writeBytes_outside h (by simpa using hy)

theorem Memory.read_congr {m m' : Memory} {a n : Nat} (h : ∀ y, a ≤ y → y < a + n → m'.byteAt y = m.byteAt y) :
    m'.read a n = m.read a n := by
  induction n generalizing a with
  | zero => rfl
  | succ n ih =>
    simp only [Memory.read]
    rw [h a (by omega) (by omega), ih fun y h1 h2 => h y (by omega) (by omega)]

theorem Memory.readBytes_congr {m m' : Memory} {a n : Nat}
    (h : ∀ y, a ≤ y → y < a + n → m'.byteAt y = m.byteAt y) : m'.readBytes a n = m.readBytes a n := by
  induction n generalizing a with
  | zero => rfl
  | succ n ih =>
    simp only [Memory.readBytes]
    rw [h a (by omega) (by omega), ih fun y h1 h2 => h y (by omega) (by omega)]

/-- A field of `n` bytes reads below `256 ^ n`. -/
theorem Memory.read_lt (m : Memory) (a n : Nat) : m.read a n < 256 ^ n := by
  induction n generalizing a with
  | zero => simp [Memory.read]
  | succ n ih =>
    have h1 := ih (a + 1)
    have h2 := (m.byteAt a).isLt
    simp only [Memory.read, pow_succ]
    omega

/-- Reading a field just written gives the value, in the field's width. -/
theorem Memory.read_write {m : Memory} (h : m.wf) (a n v : Nat) : (m.write a n v).read a n = v % 256 ^ n := by
  induction n generalizing m a v with
  | zero => simp [Memory.read, Nat.mod_one]
  | succ n ih =>
    have hw := Memory.setByte_wf h a (BitVec.ofNat 8 v)
    have e : m.write a (n + 1) v = (m.setByte a (BitVec.ofNat 8 v)).write (a + 1) n (v / 256) := rfl
    have hb : ((m.setByte a (BitVec.ofNat 8 v)).write (a + 1) n (v / 256)).byteAt a = BitVec.ofNat 8 v := by
      rw [Memory.byteAt_write_outside hw (by omega), Memory.byteAt_setByte h, if_pos rfl]
    rw [e, Memory.read, hb, ih hw, BitVec.toNat_ofNat, Nat.pow_succ' (m := 256), Nat.mod_mul (a := 256)]

/-- Reading a field that a write elsewhere does not touch. -/
theorem Memory.read_write_outside {m : Memory} (h : m.wf) {a n v b k : Nat} (hd : b + k ≤ a ∨ a + n ≤ b) :
    (m.write a n v).read b k = m.read b k :=
  Memory.read_congr fun _ _ _ => Memory.byteAt_write_outside h (by omega)

theorem Memory.readBytes_writeBytes {m : Memory} (h : m.wf) (a : Nat) (bs : List Byte) :
    (m.writeBytes a bs).readBytes a bs.length = bs := by
  induction bs generalizing m a with
  | nil => rfl
  | cons b bs ih =>
    have hw := Memory.setByte_wf h a b
    simp only [Memory.writeBytes, List.length_cons, Memory.readBytes]
    rw [Memory.byteAt_writeBytes_outside hw (by omega), Memory.byteAt_setByte h, if_pos rfl, ih hw]

theorem Memory.readBytes_length (m : Memory) (a n : Nat) : (m.readBytes a n).length = n := by
  induction n generalizing a with
  | zero => rfl
  | succ n ih => simp [Memory.readBytes, ih]

/-! ### Zeroed ranges -/

theorem Memory.zeroRange_wf {m : Memory} (h : m.wf) (lo hi : Nat) : (m.zeroRange lo hi).wf :=
  ⟨h.1.filter _, fun c hc => h.2 c (List.mem_of_mem_filter hc)⟩

theorem Memory.byteAt_zeroRange {m : Memory} (h : m.wf) (lo hi y : Nat) :
    (m.zeroRange lo hi).byteAt y = if lo ≤ y ∧ y < hi then 0 else m.byteAt y := by
  induction m with
  | nil => simp [Memory.zeroRange, Memory.byteAt]
  | cons d m ih =>
    obtain ⟨a, b⟩ := d
    obtain ⟨hb, hlt, hm⟩ := Memory.wf_cons.1 h
    have ih := ih hm
    have hz : ∀ y, y ≤ a → Memory.byteAt (Memory.zeroRange m lo hi) y = 0 := fun y hy =>
      Memory.byteAt_of_lt fun d hd => lt_of_le_of_lt hy (hlt d (List.mem_of_mem_filter hd))
    by_cases hk : a < lo ∨ hi ≤ a
    · have e : Memory.zeroRange ((a, b) :: m) lo hi = (a, b) :: Memory.zeroRange m lo hi := by
        simp [Memory.zeroRange, hk]
      rw [e]
      simp only [Memory.byteAt]
      by_cases h1 : y = a
      · subst h1; simp only [if_true]; rw [if_neg (by omega)]
      · simp only [h1, if_false]
        by_cases h2 : y < a
        · simp [h2]
        · simp only [h2, if_false]; exact ih
    · have e : Memory.zeroRange ((a, b) :: m) lo hi = Memory.zeroRange m lo hi := by
        simp only [Memory.zeroRange, List.filter_cons]
        rw [if_neg (by simpa using hk)]
      rw [e]
      simp only [Memory.byteAt]
      by_cases h1 : y = a
      · subst h1; rw [hz y le_rfl, if_pos (by omega)]
      · by_cases h2 : y < a
        · rw [hz y (by omega)]; simp [h1, h2]
        · simp only [h1, h2, if_false]; exact ih

/-! ### Equal memories -/

/-- Two memories in canonical form that read alike are equal data. -/
theorem Memory.ext_byteAt {m m' : Memory} (h : m.wf) (h' : m'.wf) (e : ∀ y, m.byteAt y = m'.byteAt y) : m = m' := by
  induction m generalizing m' with
  | nil =>
    cases m' with
    | nil => rfl
    | cons d m' =>
      have := e d.1
      simp [Memory.byteAt] at this
      exact absurd this.symm (Memory.wf_cons.1 h').1
  | cons c m ih =>
    obtain ⟨a, b⟩ := c
    obtain ⟨hb, hlt, hm⟩ := Memory.wf_cons.1 h
    cases m' with
    | nil =>
      have := e a
      simp [Memory.byteAt] at this
      exact absurd this hb
    | cons d m' =>
      obtain ⟨a', b'⟩ := d
      obtain ⟨hb', hlt', hm'⟩ := Memory.wf_cons.1 h'
      have haa : a = a' := by
        rcases lt_trichotomy a a' with hl | hl | hl
        · have := e a
          simp [Memory.byteAt, hl, hl.ne] at this
          exact absurd this hb
        · exact hl
        · have := e a'
          simp [Memory.byteAt, hl, hl.ne] at this
          exact absurd this.symm hb'
      subst haa
      have hbb : b = b' := by simpa [Memory.byteAt] using e a
      subst hbb
      congr 1
      refine ih hm hm' fun y => ?_
      by_cases hy : y ≤ a
      · rw [Memory.byteAt_of_lt fun d hd => lt_of_le_of_lt hy (hlt d hd),
          Memory.byteAt_of_lt fun d hd => lt_of_le_of_lt hy (hlt' d hd)]
      · have := e y
        have h1 : y ≠ a := by omega
        have h2 : ¬ y < a := by omega
        simpa [Memory.byteAt, h1, h2] using this

/-- Power-on memory is in canonical form. -/
theorem reset_mem_wf : State.reset.mem.wf := Memory.wf_nil

end Sys2Proof.Machine
end

