-- ==== Sys2Proof/Laws/Outputs.lean ====
section
/-! SUPPORT. What the end of an event does: which mirrored words are written, and that everything else stands; and what the
lamp carrier does. -/

namespace Sys2Proof.Machine

/-! ### Mirrored words -/

theorem syncWords_wf {m : Memory} (h : m.wf) (old new : List (Nat × Byte × Byte)) : (syncWords old new m).wf := by
  induction new generalizing old m with
  | nil => cases old <;> simpa [syncWords] using h
  | cons w new ih =>
    obtain ⟨a, lo, hi⟩ := w
    cases old with
    | nil => exact ih (Memory.setByte_wf (Memory.setByte_wf h _ _) _ _) _
    | cons v old =>
      obtain ⟨b, lo0, hi0⟩ := v
      simp only [syncWords]
      split
      · exact ih h _
      · exact ih (Memory.setByte_wf (Memory.setByte_wf h _ _) _ _) _

/-- Words that did not change are not written. -/
@[simp] theorem syncWords_self (l : List (Nat × Byte × Byte)) (m : Memory) : syncWords l l m = m := by
  induction l generalizing m with
  | nil => rfl
  | cons w l ih => obtain ⟨a, lo, hi⟩ := w; simp [syncWords, ih]

/-- No byte outside the words is written. -/
theorem byteAt_syncWords_outside {m : Memory} (h : m.wf) {old new : List (Nat × Byte × Byte)} {x : Nat}
    (hx : ∀ w ∈ new, x ≠ w.1 ∧ x ≠ w.1 + 1) : (syncWords old new m).byteAt x = m.byteAt x := by
  induction new generalizing old m with
  | nil => cases old <;> rfl
  | cons w new ih =>
    obtain ⟨a, lo, hi⟩ := w
    have hw := hx _ List.mem_cons_self
    have hn : ∀ w ∈ new, x ≠ w.1 ∧ x ≠ w.1 + 1 := fun w hw => hx w (List.mem_cons_of_mem _ hw)
    have key : ((m.setByte a lo).setByte (a + 1) hi).byteAt x = m.byteAt x := by
      rw [Memory.byteAt_setByte (Memory.setByte_wf h _ _), Memory.byteAt_setByte h]
      simp [hw.1, hw.2]
    have wf' := Memory.setByte_wf (Memory.setByte_wf h a lo) (a + 1) hi
    cases old with
    | nil => simp only [syncWords]; rw [ih wf' hn, key]
    | cons v old =>
      obtain ⟨b, lo0, hi0⟩ := v
      simp only [syncWords]
      split
      · exact ih h hn
      · rw [ih wf' hn, key]

theorem wordsFrom_length (a : Nat) (bs : List Byte) : (wordsFrom a bs).length = bs.length / 2 := by
  induction bs using List.twoStepInduction generalizing a with
  | nil => rfl
  | singleton => simp [wordsFrom]
  | cons_cons x y bs ih => simp only [wordsFrom, List.length_cons, ih]; omega

/-- The words of a run of bytes stand within the run. -/
theorem wordsFrom_within {a : Nat} {bs : List Byte} {w : Nat × Byte × Byte} (h : w ∈ wordsFrom a bs) :
    a ≤ w.1 ∧ w.1 + 1 < a + bs.length := by
  induction bs using List.twoStepInduction generalizing a with
  | nil => simp [wordsFrom] at h
  | singleton => simp [wordsFrom] at h
  | cons_cons x y bs ih =>
    simp only [wordsFrom, List.mem_cons] at h
    rcases h with rfl | h
    · simp
    · have := ih h; simp only [List.length_cons]; omega

/-- Segments are brought up to date one after the other. -/
theorem syncWords_append {xs ys : List (Nat × Byte × Byte)} (h : xs.length = ys.length) (old new) (m : Memory) :
    syncWords (xs ++ old) (ys ++ new) m = syncWords old new (syncWords xs ys m) := by
  induction ys generalizing xs m with
  | nil => cases List.eq_nil_of_length_eq_zero h; cases old <;> rfl
  | cons w ys ih =>
    cases xs with
    | nil => simp at h
    | cons v xs =>
      obtain ⟨a, lo, hi⟩ := w
      obtain ⟨b, lo0, hi0⟩ := v
      simp only [List.length_cons, Nat.add_right_cancel_iff] at h
      simp only [List.cons_append, syncWords]
      split <;> exact ih h _

theorem syncWords_nil_append (ys new) (m : Memory) :
    syncWords [] (ys ++ new) m = syncWords [] new (syncWords [] ys m) := by
  induction ys generalizing m with
  | nil => rfl
  | cons w ys ih => obtain ⟨a, lo, hi⟩ := w; simp [syncWords, ih]

/-- A byte of a run brought up to date: the new byte where its word changed, the byte in memory where it did not. -/
theorem byteAt_syncWords_run {m : Memory} (h : m.wf) (a : Nat) {xs ys : List Byte} (hl : xs.length = ys.length)
    (he : ys.length % 2 = 0) {i : Nat} (hi : i < ys.length) :
    (syncWords (wordsFrom a xs) (wordsFrom a ys) m).byteAt (a + i) =
      if ys.getD (i / 2 * 2) 0 = xs.getD (i / 2 * 2) 0 ∧ ys.getD (i / 2 * 2 + 1) 0 = xs.getD (i / 2 * 2 + 1) 0 then
        m.byteAt (a + i)
      else ys.getD i 0 := by
  induction ys using List.twoStepInduction generalizing a xs m i with
  | nil => simp at hi
  | singleton => simp at he
  | cons_cons x y ys ih =>
    match xs, hl with
    | x0 :: y0 :: xs, hl =>
    simp only [List.length_cons, Nat.add_right_cancel_iff] at hl
    simp only [wordsFrom, syncWords]
    have wf' := Memory.setByte_wf (Memory.setByte_wf h a x) (a + 1) y
    have out : ∀ {m' : Memory}, m'.wf → ∀ j, j < 2 →
        (syncWords (wordsFrom (a + 2) xs) (wordsFrom (a + 2) ys) m').byteAt (a + j) = m'.byteAt (a + j) := by
      intro m' hm' j hj
      apply byteAt_syncWords_outside hm'
      intro w hw
      have := wordsFrom_within hw
      omega
    by_cases hi2 : i < 2
    · have : i / 2 * 2 = 0 := by omega
      rw [this]
      simp only [List.getD_cons_zero, List.getD_cons_succ]
      split
      · rw [out h i hi2]
      · rw [out wf' i hi2, Memory.byteAt_setByte (Memory.setByte_wf h _ _), Memory.byteAt_setByte h]
        rcases (by omega : i = 0 ∨ i = 1) with rfl | rfl <;> simp
    · obtain ⟨j, rfl⟩ : ∃ j, i = j + 2 := ⟨i - 2, by omega⟩
      have e1 : (j + 2) / 2 * 2 = j / 2 * 2 + 2 := by omega
      have e2 : a + (j + 2) = a + 2 + j := by omega
      simp only [List.length_cons] at hi he
      rw [e1, e2, show j / 2 * 2 + 2 + 1 = j / 2 * 2 + 1 + 2 by omega]
      simp only [List.getD_cons_succ]
      have hb : ((m.setByte a x).setByte (a + 1) y).byteAt (a + 2 + j) = m.byteAt (a + 2 + j) := by
        rw [Memory.byteAt_setByte (Memory.setByte_wf h _ _), Memory.byteAt_setByte h,
          if_neg (by omega), if_neg (by omega)]
      split
      · exact ih h (a + 2) hl (by omega) (by omega)
      · rw [ih wf' (a + 2) hl (by omega) (by omega), hb]

/-- A run written afresh reads as written. -/
theorem readBytes_syncWords_fresh {m : Memory} (h : m.wf) (a : Nat) {ys : List Byte} (he : ys.length % 2 = 0) :
    (syncWords [] (wordsFrom a ys) m).readBytes a ys.length = ys := by
  induction ys using List.twoStepInduction generalizing a m with
  | nil => rfl
  | singleton => simp at he
  | cons_cons x y ys ih =>
    simp only [List.length_cons] at he ⊢
    simp only [wordsFrom, syncWords, Memory.readBytes]
    have wf' := Memory.setByte_wf (Memory.setByte_wf h a x) (a + 1) y
    rw [show a + 1 + 1 = a + 2 from rfl, ih wf' _ (by omega)]
    have out : ∀ j, j < 2 → (syncWords [] (wordsFrom (a + 2) ys) ((m.setByte a x).setByte (a + 1) y)).byteAt (a + j) =
        ((m.setByte a x).setByte (a + 1) y).byteAt (a + j) := by
      intro j hj
      apply byteAt_syncWords_outside wf'
      intro w hw
      have := wordsFrom_within hw
      omega
    have o0 := out 0 (by omega)
    have o1 := out 1 (by omega)
    simp only [Nat.add_zero] at o0
    rw [o0, o1]
    simp [Memory.byteAt_setByte (Memory.setByte_wf h a x), Memory.byteAt_setByte h]

/-! ### The lengths of the images -/

@[simp] theorem length_padTo (n : Nat) (bs : List Byte) : (padTo n bs).length = n := by
  simp [padTo]

@[simp] theorem length_LaneConfig_bytes (c : LaneConfig) : c.bytes.length = 22 := by
  unfold LaneConfig.bytes; split <;> simp

@[simp] theorem length_laneBytes (l : Lane) : (laneBytes l).length = 26 := by simp [laneBytes]

@[simp] theorem length_heldBytes (l : Lane) : (heldBytes l).length = 14 := by
  unfold heldBytes; dsimp only; split <;> simp

@[simp] theorem length_figureBytes (l : Lane) : (figureBytes l).length = 24 := by
  unfold figureBytes; split <;> simp

@[simp] theorem length_portBytes (p : Port) : (portBytes p).length = 4 := by simp [portBytes]

@[simp] theorem length_cueBytes (l : Lane) : (cueBytes l).length = 6 := by simp [cueBytes]

@[simp] theorem length_Counts_bytes (c : Counts) : c.bytes.length = 16 := by simp [Counts.bytes]

@[simp] theorem length_windowBytes (w : Window) : (windowBytes w).length = 22 := by simp [windowBytes]

@[simp] theorem length_flowBytes (number start len : Nat) (w : Window) : (flowBytes number start len w).length = 32 := by
  simp [flowBytes]

@[simp] theorem length_Record_bytes (r : Record) : r.bytes.length = 32 := by simp [Record.bytes]

@[simp] theorem length_Options_bytes (o : Options) : o.bytes.length = 12 := by simp [Options.bytes]

/-! ### Lane Blocks -/

/-- The mirrored words of a lane stand in its Lane Block. -/
theorem laneImage_within {s : State} {n : Fin 4} {w : Nat × Byte × Byte} (h : w ∈ laneImage s n) :
    inLaneMirror n w.1 ∧ inLaneMirror n (w.1 + 1) := by
  simp only [laneImage, List.mem_append] at h
  rcases h with (((h | h) | h) | h) | h <;> have := wordsFrom_within h <;> simp at this <;>
    constructor <;> unfold inLaneMirror inField <;> omega

/-- The current-window words stand in their part of the Lane Block. -/
theorem windowImage_within {s : State} {n : Fin 4} {w : Nat × Byte × Byte} (h : w ∈ windowImage s n) :
    inField (laneBlockBase n.val + 80) 22 w.1 ∧ inField (laneBlockBase n.val + 80) 22 (w.1 + 1) := by
  unfold windowImage at h
  split at h
  · have := wordsFrom_within h
    simp at this
    constructor <;> unfold inField <;> omega
  · simp at h

theorem syncLane_wf (before after : State) (n : Fin 4) {m : Memory} (h : m.wf) : (syncLane before after n m).wf :=
  syncWords_wf (syncWords_wf h _ _) _ _

/-- Outside a lane's mirrored bytes nothing is written for the lane. -/
theorem byteAt_syncLane_outside (before after : State) (n : Fin 4) {m : Memory} (h : m.wf) {x : Nat}
    (hx : ¬inLaneMirror n x) : (syncLane before after n m).byteAt x = m.byteAt x := by
  unfold syncLane
  rw [byteAt_syncWords_outside (syncWords_wf h _ _), byteAt_syncWords_outside h]
  · intro w hw
    have := laneImage_within hw
    constructor <;> rintro rfl <;> tauto
  · intro w hw
    have := windowImage_within hw
    have hm : ∀ y, inField (laneBlockBase n.val + 80) 22 y → inLaneMirror n y := fun y hy => by
      unfold inLaneMirror; tauto
    constructor <;> rintro rfl
    · exact hx (hm _ this.1)
    · exact hx (hm _ this.2)

/-- A segment of the mirror that no change touches at a byte: the byte lies outside it, or it shows what it showed. -/
def segmentKept (base : Nat) (old new : List Byte) (x : Nat) : Prop := ¬inField base new.length x ∨ old = new

theorem byteAt_syncWords_segment {m : Memory} (h : m.wf) {base : Nat} {old new : List Byte} {x : Nat}
    (hk : segmentKept base old new x) : (syncWords (wordsFrom base old) (wordsFrom base new) m).byteAt x = m.byteAt x := by
  rcases hk with hk | rfl
  · apply byteAt_syncWords_outside h
    intro w hw
    have := wordsFrom_within hw
    unfold inField at hk
    omega
  · rw [syncWords_self]

/-- A byte of a Lane Block stands where every segment that holds it shows what it showed. -/
theorem byteAt_syncLane (before after : State) (n : Fin 4) {m : Memory} (h : m.wf) {x : Nat}
    (h1 : segmentKept (laneBlockBase n.val) (laneBytes (before.lane n)) (laneBytes (after.lane n)) x)
    (h2 : segmentKept (laneBlockBase n.val + 32) (heldBytes (before.lane n)) (heldBytes (after.lane n)) x)
    (h3 : segmentKept (laneBlockBase n.val + 46) (figureBytes (before.lane n)) (figureBytes (after.lane n)) x)
    (h4 : segmentKept (laneBlockBase n.val + 72) (portBytes (before.port n)) (portBytes (after.port n)) x)
    (h5 : segmentKept (laneBlockBase n.val + 112) (cueBytes (before.lane n)) (cueBytes (after.lane n)) x)
    (h6 : ¬inField (laneBlockBase n.val + 80) 22 x ∨ (before.lane n).window = (after.lane n).window) :
    (syncLane before after n m).byteAt x = m.byteAt x := by
  have l (a b : List Byte) (e : a.length = b.length) (c : Nat) : (wordsFrom c a).length = (wordsFrom c b).length := by
    rw [wordsFrom_length, wordsFrom_length, e]
  have key : (syncWords (laneImage before n) (laneImage after n) m).wf ∧
      (syncWords (laneImage before n) (laneImage after n) m).byteAt x = m.byteAt x := by
    refine ⟨syncWords_wf h _ _, ?_⟩
    unfold laneImage
    dsimp only
    rw [syncWords_append (by simp [wordsFrom_length]), syncWords_append (by simp [wordsFrom_length]),
      syncWords_append (by simp [wordsFrom_length]), syncWords_append (l _ _ (by simp) _),
      byteAt_syncWords_segment (syncWords_wf (syncWords_wf (syncWords_wf (syncWords_wf h _ _) _ _) _ _) _ _) h5,
      byteAt_syncWords_segment (syncWords_wf (syncWords_wf (syncWords_wf h _ _) _ _) _ _) h4,
      byteAt_syncWords_segment (syncWords_wf (syncWords_wf h _ _) _ _) h3,
      byteAt_syncWords_segment (syncWords_wf h _ _) h2, byteAt_syncWords_segment h h1]
  unfold syncLane
  rcases h6 with h6 | h6
  · rw [byteAt_syncWords_outside key.1, key.2]
    intro w hw
    have := windowImage_within hw
    constructor <;> rintro rfl <;> tauto
  · rw [show windowImage before n = windowImage after n by simp [windowImage, h6], syncWords_self, key.2]

/-! ### Locks -/

/-- A lane whose lock stays as it was keeps its pulse. -/
theorem drivePulse_same {before after : State} {n : Fin 4} (h : lockReleased before n = lockReleased after n) :
    drivePulse before after n = after.lane n := by
  unfold drivePulse
  rw [h]
  cases lockReleased after n <;> rfl

/-- At most the lock pulse of a lane changes at the end of an event. -/
theorem drivePulse_lane (before after : State) (n : Fin 4) :
    drivePulse before after n = { after.lane n with lockPulse := (drivePulse before after n).lockPulse } := by
  unfold drivePulse
  dsimp only
  split
  · split <;> rfl
  · rfl
  · rfl

@[simp] theorem drivePulses_lane (before after : State) (n : Fin 4) :
    (drivePulses before after).lane n = drivePulse before after n := by
  fin_cases n <;> rfl

@[simp] theorem settleOutputs_lane (before after : State) (n : Fin 4) :
    (settleOutputs before after).lane n = drivePulse before after n := drivePulses_lane before after n

@[simp] theorem settleOutputs_port (before after : State) (p : Fin 4) :
    (settleOutputs before after).port p = after.port p := rfl

/-! ### The end of an event -/

@[simp] theorem laneImage_drivePulses (before after : State) (n : Fin 4) :
    laneImage (drivePulses before after) n = laneImage after n := by
  unfold laneImage
  dsimp only
  rw [drivePulses_lane, drivePulse_lane]
  rfl

@[simp] theorem windowImage_drivePulses (before after : State) (n : Fin 4) :
    windowImage (drivePulses before after) n = windowImage after n := by
  unfold windowImage
  rw [drivePulses_lane, drivePulse_lane]

theorem syncLane_drivePulses (b before after : State) (n : Fin 4) (m : Memory) :
    syncLane b (drivePulses before after) n m = syncLane b after n m := by
  simp [syncLane]

/-- Memory after an event: the state mirror where it changed, then the four Lane Blocks. -/
theorem settleOutputs_mem (before after : State) :
    (settleOutputs before after).mem =
      syncLane before after 3 (syncLane before after 2 (syncLane before after 1 (syncLane before after 0
        (if stateMirror before = stateMirror after then after.mem else after.mem.write hdrState 2 (stateMirror after))))) := by
  simp only [settleOutputs, syncMirrors, syncLane_drivePulses]
  rfl

theorem settleOutputs_wf (before : State) {after : State} (h : after.mem.wf) : (settleOutputs before after).mem.wf := by
  rw [settleOutputs_mem]
  apply syncLane_wf; apply syncLane_wf; apply syncLane_wf; apply syncLane_wf
  split
  · exact h
  · exact Memory.write_wf h _ _ _

/-- Nothing shown changes and no lock: the event ends as it stands. -/
theorem settleOutputs_same {before after : State} (hl : ∀ n, lockReleased before n = lockReleased after n)
    (hi : ∀ n, laneImage before n = laneImage after n) (hw : ∀ n, (before.lane n).window = (after.lane n).window)
    (hs : stateMirror before = stateMirror after) : settleOutputs before after = after := by
  have e : drivePulses before after = after := by
    simp only [drivePulses, drivePulse_same (hl _)]
    rfl
  have w : ∀ n, windowImage before n = windowImage after n := fun n => by simp [windowImage, hw n]
  unfold settleOutputs syncMirrors
  rw [e, if_pos hs]
  simp only [syncLane, hi, w, syncWords_self]

/-- Bytes outside the state mirror and the Lane Block mirrors stand at the end of an event. -/
theorem byteAt_settleOutputs_outside (before : State) {after : State} (h : after.mem.wf) {x : Nat}
    (hs : ¬inField hdrState 2 x ∨ stateMirror before = stateMirror after) (hx : ∀ n, ¬inLaneMirror n x) :
    (settleOutputs before after).mem.byteAt x = after.mem.byteAt x := by
  have w0 : (if stateMirror before = stateMirror after then after.mem
      else after.mem.write hdrState 2 (stateMirror after)).wf := by
    split
    · exact h
    · exact Memory.write_wf h _ _ _
  rw [settleOutputs_mem, byteAt_syncLane_outside _ _ _ (syncLane_wf _ _ _ (syncLane_wf _ _ _ (syncLane_wf _ _ _ w0))) (hx 3),
    byteAt_syncLane_outside _ _ _ (syncLane_wf _ _ _ (syncLane_wf _ _ _ w0)) (hx 2),
    byteAt_syncLane_outside _ _ _ (syncLane_wf _ _ _ w0) (hx 1), byteAt_syncLane_outside _ _ _ w0 (hx 0)]
  split
  · rfl
  · rename_i hne
    rcases hs with hs | hs
    · apply Memory.byteAt_write_outside h
      unfold inField at hs
      omega
    · exact absurd hs hne

/-- A lane's block at the end of an event is what its own update makes of it. -/
theorem byteAt_settleOutputs_mirror (before : State) {after : State} (h : after.mem.wf) (n : Fin 4) {x : Nat}
    (hx : inLaneMirror n x) :
    ∃ m, m.wf ∧ m.byteAt x = after.mem.byteAt x
      ∧ (settleOutputs before after).mem.byteAt x = (syncLane before after n m).byteAt x := by
  have w0 : (if stateMirror before = stateMirror after then after.mem
      else after.mem.write hdrState 2 (stateMirror after)).wf := by
    split
    · exact h
    · exact Memory.write_wf h _ _ _
  have e0 : (if stateMirror before = stateMirror after then after.mem
      else after.mem.write hdrState 2 (stateMirror after)).byteAt x = after.mem.byteAt x := by
    split
    · rfl
    · apply Memory.byteAt_write_outside h
      unfold inLaneMirror inField laneBlockBase at hx
      unfold hdrState
      omega
  have out : ∀ m : Fin 4, m ≠ n → ¬inLaneMirror m x := by
    intro m hm hc
    have : m.val ≠ n.val := fun e => hm (Fin.ext e)
    unfold inLaneMirror inField laneBlockBase at hx hc
    omega
  rw [settleOutputs_mem]
  generalize (if stateMirror before = stateMirror after then after.mem
      else after.mem.write hdrState 2 (stateMirror after)) = m0 at *
  have w1 := syncLane_wf before after 0 w0
  have w2 := syncLane_wf before after 1 w1
  have w3 := syncLane_wf before after 2 w2
  fin_cases n
  · exact ⟨m0, w0, e0, by
      rw [byteAt_syncLane_outside _ _ _ w3 (out 3 (by decide)), byteAt_syncLane_outside _ _ _ w2 (out 2 (by decide)),
        byteAt_syncLane_outside _ _ _ w1 (out 1 (by decide))]; rfl⟩
  · exact ⟨_, w1, by rw [byteAt_syncLane_outside _ _ _ w0 (out 0 (by decide)), e0], by
      rw [byteAt_syncLane_outside _ _ _ w3 (out 3 (by decide)), byteAt_syncLane_outside _ _ _ w2 (out 2 (by decide))]; rfl⟩
  · exact ⟨_, w2, by rw [byteAt_syncLane_outside _ _ _ w1 (out 1 (by decide)),
        byteAt_syncLane_outside _ _ _ w0 (out 0 (by decide)), e0], by
      rw [byteAt_syncLane_outside _ _ _ w3 (out 3 (by decide))]; rfl⟩
  · exact ⟨_, w3, by rw [byteAt_syncLane_outside _ _ _ w2 (out 2 (by decide)),
        byteAt_syncLane_outside _ _ _ w1 (out 1 (by decide)), byteAt_syncLane_outside _ _ _ w0 (out 0 (by decide)), e0], rfl⟩

/-- A byte of a Lane Block stands at the end of an event where every segment that holds it shows what it showed. -/
theorem byteAt_settleOutputs_kept (before : State) {after : State} (h : after.mem.wf) (n : Fin 4) {x : Nat}
    (hx : inLaneMirror n x)
    (h1 : segmentKept (laneBlockBase n.val) (laneBytes (before.lane n)) (laneBytes (after.lane n)) x)
    (h2 : segmentKept (laneBlockBase n.val + 32) (heldBytes (before.lane n)) (heldBytes (after.lane n)) x)
    (h3 : segmentKept (laneBlockBase n.val + 46) (figureBytes (before.lane n)) (figureBytes (after.lane n)) x)
    (h4 : segmentKept (laneBlockBase n.val + 72) (portBytes (before.port n)) (portBytes (after.port n)) x)
    (h5 : segmentKept (laneBlockBase n.val + 112) (cueBytes (before.lane n)) (cueBytes (after.lane n)) x)
    (h6 : ¬inField (laneBlockBase n.val + 80) 22 x ∨ (before.lane n).window = (after.lane n).window) :
    (settleOutputs before after).mem.byteAt x = after.mem.byteAt x := by
  obtain ⟨m, wf, e, e'⟩ := byteAt_settleOutputs_mirror before h n hx
  rw [e', byteAt_syncLane before after n wf h1 h2 h3 h4 h5 h6, e]

/-- The update of a Lane Block, segment by segment. -/
theorem syncLane_segments (before after : State) (n : Fin 4) (m : Memory) :
    syncLane before after n m =
      let b := laneBlockBase n.val
      let seg (base : Nat) (old new : List Byte) (m : Memory) := syncWords (wordsFrom base old) (wordsFrom base new) m
      syncWords (windowImage before n) (windowImage after n)
        (seg (b + 112) (cueBytes (before.lane n)) (cueBytes (after.lane n))
          (seg (b + 72) (portBytes (before.port n)) (portBytes (after.port n))
            (seg (b + 46) (figureBytes (before.lane n)) (figureBytes (after.lane n))
              (seg (b + 32) (heldBytes (before.lane n)) (heldBytes (after.lane n))
                (seg b (laneBytes (before.lane n)) (laneBytes (after.lane n)) m))))) := by
  unfold syncLane laneImage
  dsimp only
  rw [syncWords_append (by simp [wordsFrom_length]), syncWords_append (by simp [wordsFrom_length]),
    syncWords_append (by simp [wordsFrom_length]), syncWords_append (by simp [wordsFrom_length])]

/-- Bytes 0 to 25 of a Lane Block at the end of an event: those the lane shows where their word changed. -/
theorem byteAt_settleOutputs_lane (before : State) {after : State} (h : after.mem.wf) (n : Fin 4) {i : Nat}
    (hi : i < 26) :
    (settleOutputs before after).mem.byteAt (laneBlockBase n.val + i) =
      if (laneBytes (after.lane n)).getD (i / 2 * 2) 0 = (laneBytes (before.lane n)).getD (i / 2 * 2) 0
          ∧ (laneBytes (after.lane n)).getD (i / 2 * 2 + 1) 0 = (laneBytes (before.lane n)).getD (i / 2 * 2 + 1) 0 then
        after.mem.byteAt (laneBlockBase n.val + i)
      else (laneBytes (after.lane n)).getD i 0 := by
  obtain ⟨m, wf, e, e'⟩ := byteAt_settleOutputs_mirror before h n (x := laneBlockBase n.val + i)
    (by unfold inLaneMirror inField; omega)
  have far : ∀ {old new : List Byte} {base : Nat} {m' : Memory}, m'.wf → 32 ≤ base - laneBlockBase n.val →
      (syncWords (wordsFrom base old) (wordsFrom base new) m').byteAt (laneBlockBase n.val + i) =
        m'.byteAt (laneBlockBase n.val + i) := by
    intro old new base m' hm' hb
    apply byteAt_syncWords_outside hm'
    intro w hw
    have := wordsFrom_within hw
    omega
  have w1 := syncWords_wf wf (wordsFrom (laneBlockBase n.val) (laneBytes (before.lane n)))
    (wordsFrom (laneBlockBase n.val) (laneBytes (after.lane n)))
  have w2 := fun a b c => syncWords_wf w1 (wordsFrom a b) c
  rw [e', ← e, ← byteAt_syncWords_run wf (laneBlockBase n.val) (by simp) (by simp) (by simpa using hi),
    syncLane_segments]
  dsimp only
  rw [byteAt_syncWords_outside (by repeat' apply syncWords_wf; try exact wf), far (by repeat' apply syncWords_wf; try exact wf) (by omega),
    far (by repeat' apply syncWords_wf; try exact wf) (by omega), far (by repeat' apply syncWords_wf; try exact wf) (by omega),
    far (by repeat' apply syncWords_wf; try exact wf) (by omega)]
  intro w hw
  have := windowImage_within hw
  unfold inField at this
  omega

/-- Bytes 32 to 45 of a Lane Block at the end of an event. -/
theorem byteAt_settleOutputs_held (before : State) {after : State} (h : after.mem.wf) (n : Fin 4) {i : Nat}
    (hi : i < 14) :
    (settleOutputs before after).mem.byteAt (laneBlockBase n.val + 32 + i) =
      if (heldBytes (after.lane n)).getD (i / 2 * 2) 0 = (heldBytes (before.lane n)).getD (i / 2 * 2) 0
          ∧ (heldBytes (after.lane n)).getD (i / 2 * 2 + 1) 0 = (heldBytes (before.lane n)).getD (i / 2 * 2 + 1) 0 then
        after.mem.byteAt (laneBlockBase n.val + 32 + i)
      else (heldBytes (after.lane n)).getD i 0 := by
  obtain ⟨m, wf, e, e'⟩ := byteAt_settleOutputs_mirror before h n (x := laneBlockBase n.val + 32 + i)
    (by unfold inLaneMirror inField; omega)
  have far : ∀ {old new : List Byte} {base : Nat} {m' : Memory}, m'.wf →
      (laneBlockBase n.val + 32 + i < base ∨ base + new.length ≤ laneBlockBase n.val + 32 + i) →
      (syncWords (wordsFrom base old) (wordsFrom base new) m').byteAt (laneBlockBase n.val + 32 + i) =
        m'.byteAt (laneBlockBase n.val + 32 + i) := by
    intro old new base m' hm' hb
    apply byteAt_syncWords_outside hm'
    intro w hw
    have := wordsFrom_within hw
    omega
  rw [e', syncLane_segments]
  dsimp only
  rw [byteAt_syncWords_outside (by repeat' apply syncWords_wf; try exact wf)]
  · rw [far (by repeat' apply syncWords_wf; try exact wf) (by simp; try omega), far (by repeat' apply syncWords_wf; try exact wf) (by simp; try omega), far (by repeat' apply syncWords_wf; try exact wf) (by simp; try omega),
      byteAt_syncWords_run (by repeat' apply syncWords_wf; try exact wf) _ (by simp) (by simp) (by simpa using hi),
      far wf (by simp; omega), e]
  · intro w hw
    have := windowImage_within hw
    unfold inField at this
    omega

/-- Bytes 72 to 75 of a Lane Block at the end of an event. -/
theorem byteAt_settleOutputs_port (before : State) {after : State} (h : after.mem.wf) (n : Fin 4) {i : Nat}
    (hi : i < 4) :
    (settleOutputs before after).mem.byteAt (laneBlockBase n.val + 72 + i) =
      if (portBytes (after.port n)).getD (i / 2 * 2) 0 = (portBytes (before.port n)).getD (i / 2 * 2) 0
          ∧ (portBytes (after.port n)).getD (i / 2 * 2 + 1) 0 = (portBytes (before.port n)).getD (i / 2 * 2 + 1) 0 then
        after.mem.byteAt (laneBlockBase n.val + 72 + i)
      else (portBytes (after.port n)).getD i 0 := by
  obtain ⟨m, wf, e, e'⟩ := byteAt_settleOutputs_mirror before h n (x := laneBlockBase n.val + 72 + i)
    (by unfold inLaneMirror inField; omega)
  have far : ∀ {old new : List Byte} {base : Nat} {m' : Memory}, m'.wf →
      (laneBlockBase n.val + 72 + i < base ∨ base + new.length ≤ laneBlockBase n.val + 72 + i) →
      (syncWords (wordsFrom base old) (wordsFrom base new) m').byteAt (laneBlockBase n.val + 72 + i) =
        m'.byteAt (laneBlockBase n.val + 72 + i) := by
    intro old new base m' hm' hb
    apply byteAt_syncWords_outside hm'
    intro w hw
    have := wordsFrom_within hw
    omega
  rw [e', syncLane_segments]
  dsimp only
  rw [byteAt_syncWords_outside (by repeat' apply syncWords_wf; try exact wf)]
  · rw [far (by repeat' apply syncWords_wf; try exact wf) (by simp; try omega), byteAt_syncWords_run (by repeat' apply syncWords_wf; try exact wf) _ (by simp) (by simp) (by simpa using hi),
      far (by repeat' apply syncWords_wf; try exact wf) (by simp; omega), far (by repeat' apply syncWords_wf; try exact wf) (by simp; omega),
      far wf (by simp; omega), e]
  · intro w hw
    have := windowImage_within hw
    unfold inField at this
    omega

/-! ### The lamp carrier -/

/-- Within the period in progress the carrier keeps its divider, and the lamps their duties. -/
theorem Carrier.run_within {c : Carrier} {cycles : Nat} (h : cycles < c.left) (divider : Nat) :
    c.run divider cycles = { c with elapsed := c.elapsed + cycles } := if_pos h

theorem Carrier.duties_within {c : Carrier} {cycles : Nat} (h : cycles < c.left) (lv : Levels) (x : Lamps) :
    c.duties cycles lv x = x := if_pos h

/-- Behind it the periods have the divider given, and the lamps the duties of the levels. -/
theorem Carrier.run_beyond {c : Carrier} {cycles : Nat} (h : c.left ≤ cycles) (divider : Nat) :
    c.run divider cycles = ⟨divider, (cycles - c.left) % carrierPeriod divider⟩ := if_neg (by omega)

theorem Carrier.duties_beyond {c : Carrier} {cycles : Nat} (h : c.left ≤ cycles) (lv : Levels) (x : Lamps) :
    c.duties cycles lv x = ⟨lv.green, lv.red, lv.amber⟩ := if_neg (by omega)

end Sys2Proof.Machine
end

