-- ==== Sys2Proof/Laws/Journal.lean ====
section
/-! SUPPORT. What the Journal Writer's operations do: where a record stands, what they leave of memory and attention, and
that they keep the Writer's numbers sound. -/

namespace Sys2Proof.Machine

/-! ### Attention -/

/-- At most the two journal causes are added. -/
def journalCausesOnly (s t : State) : Prop := ∃ j, j &&& 0xF9#8 = 0 ∧ t.attn = s.attn ||| j

theorem journalCausesOnly_refl (s : State) : journalCausesOnly s s := ⟨0, by decide, by simp⟩

theorem journalCausesOnly_trans {s t u : State} (h : journalCausesOnly s t) (k : journalCausesOnly t u) :
    journalCausesOnly s u := by
  obtain ⟨i, hi, ei⟩ := h
  obtain ⟨j, hj, ej⟩ := k
  refine ⟨i ||| j, ?_, by rw [ej, ei, BitVec.or_assoc]⟩
  ext n hn
  have a := congrArg (fun v : BitVec 8 => v.getLsbD n) hi
  have b := congrArg (fun v : BitVec 8 => v.getLsbD n) hj
  simp only [BitVec.getLsbD_and] at a b
  simp only [BitVec.getElem_and, BitVec.getElem_or]
  simp only [BitVec.getLsbD_eq_getElem hn] at a b
  cases h1 : i[n] <;> cases h2 : j[n] <;> simp_all

theorem ringWrite_attn (r : Record) (s : State) : journalCausesOnly s (ringWrite r s) := by
  simp only [ringWrite]
  split
  · exact ⟨2#8, by decide, rfl⟩
  · exact journalCausesOnly_refl s

theorem holdRecord_attn (r : Record) (s : State) : journalCausesOnly s (holdRecord r s) := by
  simp only [holdRecord]
  split
  · exact ⟨4#8, by decide, rfl⟩
  · exact journalCausesOnly_refl s

theorem placeRecord_attn (r : Record) (s : State) : journalCausesOnly s (placeRecord r s) := by
  unfold placeRecord
  split
  · exact ringWrite_attn r s
  · exact holdRecord_attn r s

theorem appendPledged_attn (r : Record) (s : State) : journalCausesOnly s (appendPledged r s) := placeRecord_attn r _

theorem appendUnpledged_attn (r : Record) (s : State) : journalCausesOnly s (appendUnpledged r s) := by
  unfold appendUnpledged
  split
  · exact placeRecord_attn r s
  · rw [journalCausesOnly, dropRecord_attn]
    exact journalCausesOnly_refl s

/-! ### Memory -/

theorem ringWrite_mem (r : Record) (s : State) :
    (ringWrite r s).mem = (s.mem.writeBytes (journalBase s.journal.writeIndex) r.bytes).write hdrWriteIndex 2
      ((s.journal.writeIndex + 1) % 1024) := by
  simp only [ringWrite]
  split <;> rfl

theorem ringWrite_journal (r : Record) (s : State) :
    (ringWrite r s).journal = { s.journal with writeIndex := (s.journal.writeIndex + 1) % 1024 } := by
  simp only [ringWrite]
  split <;> rfl

theorem holdRecord_journal (r : Record) (s : State) :
    (holdRecord r s).journal = { s.journal with hold := s.journal.hold ++ [r] } := by
  simp only [holdRecord]
  split <;> rfl

theorem placeRecord_wf (r : Record) {s : State} (h : s.mem.wf) : (placeRecord r s).mem.wf := by
  unfold placeRecord
  split
  · rw [ringWrite_mem]
    exact Memory.write_wf (Memory.writeBytes_wf h _ _) _ _ _
  · rwa [holdRecord_mem]

theorem appendPledged_wf (r : Record) {s : State} (h : s.mem.wf) : (appendPledged r s).mem.wf := placeRecord_wf r h

theorem dropRecord_wf {s : State} (h : s.mem.wf) : (dropRecord s).mem.wf := by
  unfold dropRecord
  split
  · exact Memory.write_wf h _ _ _
  · exact h

theorem appendUnpledged_wf (r : Record) {s : State} (h : s.mem.wf) : (appendUnpledged r s).mem.wf := by
  unfold appendUnpledged
  split
  · exact placeRecord_wf r h
  · exact dropRecord_wf h

theorem byteAt_placeRecord (r : Record) {s : State} (h : s.mem.wf) {x : Nat} (hx : ¬inAppend s x) :
    (placeRecord r s).mem.byteAt x = s.mem.byteAt x := by
  unfold inAppend inField at hx
  unfold placeRecord
  split
  · rw [ringWrite_mem, Memory.byteAt_write_outside (Memory.writeBytes_wf h _ _) (by omega),
      Memory.byteAt_writeBytes_outside h (by simp only [length_Record_bytes]; omega)]
  · rw [holdRecord_mem]

/-- A pledged append writes only the bytes of an append. -/
theorem byteAt_appendPledged (r : Record) {s : State} (h : s.mem.wf) {x : Nat} (hx : ¬inAppend s x) :
    (appendPledged r s).mem.byteAt x = s.mem.byteAt x := by
  unfold appendPledged
  rw [byteAt_placeRecord]
  · exact h
  · exact hx

/-- An unpledged append writes only the bytes of an append. -/
theorem byteAt_appendUnpledged (r : Record) {s : State} (h : s.mem.wf) {x : Nat} (hx : ¬inAppend s x) :
    (appendUnpledged r s).mem.byteAt x = s.mem.byteAt x := by
  unfold appendUnpledged
  split
  · exact byteAt_placeRecord r h hx
  · unfold dropRecord
    split
    · unfold inAppend inField at hx
      exact Memory.byteAt_write_outside h (by omega)
    · rfl

/-! ### The causes of the Journal Writer (R210) -/

theorem thresholdOf_eq (s : State) : thresholdOf s = journalThreshold s.mem := rfl

theorem raise_bit (c : Cause) (s : State) (i : Nat) (hi : i < 8) :
    (raise c s).attn.getLsbD i = true ↔ s.attn.getLsbD i = true ∨ i = c.bit := by
  unfold raise
  have hc : c.bit < 8 := by cases c <;> decide
  simp only [BitVec.getLsbD_or, BitVec.getLsbD_shiftLeft, Bool.or_eq_true, Bool.and_eq_true, decide_eq_true_eq]
  rw [BitVec.getLsbD_one]
  simp only [decide_eq_true_eq, Bool.not_eq_true', decide_eq_false_iff_not, Bool.and_eq_true]
  constructor
  · rintro (h | h)
    · exact Or.inl h
    · exact Or.inr (by omega)
  · rintro (h | h)
    · exact Or.inl h
    · exact Or.inr (by omega)

theorem fill_step {j : Journal} (hw : j.writeIndex < 1024) (hr : j.readIndex < 1024) (hf : j.fill < 1023) :
    Journal.fill { j with writeIndex := (j.writeIndex + 1) % 1024 } = j.fill + 1 := by
  unfold Journal.fill at *
  dsimp only
  omega

/-- A write into the ring raises JOURNAL_LEVEL exactly where it brings the fill to the threshold. -/
theorem ringWrite_causes (r : Record) {s : State} (hw : s.journal.writeIndex < 1024) (hr : s.journal.readIndex < 1024)
    (hf : s.journal.fill < 1023) : journalCauses s (ringWrite r s) (reachesLevel s) False := by
  have e := fill_step hw hr hf
  unfold journalCauses reachesLevel
  rw [thresholdOf_eq]
  simp only [ringWrite, e]
  split
  · rename_i hc
    rw [raise_bit _ _ 1 (by decide), raise_bit _ _ 2 (by decide)]
    simp [Cause.bit, hc]
  · rename_i hc
    simp [hc]

/-- A held record raises JOURNAL_HOLD exactly where it is the first. -/
theorem holdRecord_causes (r : Record) (s : State) :
    journalCauses s (holdRecord r s) False (s.journal.hold = []) := by
  unfold journalCauses
  simp only [holdRecord]
  split
  · rename_i hc
    rw [raise_bit _ _ 1 (by decide), raise_bit _ _ 2 (by decide)]
    simp [Cause.bit, hc]
  · rename_i hc
    simp [hc]

theorem journalCauses_refl (s : State) : journalCauses s s False False := by simp [journalCauses]

/-- The causes seen from other states with the same bits 1 and 2. -/
theorem journalCauses_congr {s s' t t' : State} {l h : Prop} (k : journalCauses s t l h)
    (hs : s.attn.getLsbD 1 = s'.attn.getLsbD 1 ∧ s.attn.getLsbD 2 = s'.attn.getLsbD 2)
    (ht : t.attn.getLsbD 1 = t'.attn.getLsbD 1 ∧ t.attn.getLsbD 2 = t'.attn.getLsbD 2) :
    journalCauses s' t' l h := by
  unfold journalCauses at *
  rw [← hs.1, ← hs.2, ← ht.1, ← ht.2]
  exact k

/-! ### Where a record stands -/

theorem placeRecord_placed (r : Record) {s : State} (h : s.mem.wf) (hw : s.journal.writeIndex < 1024)
    (hr : s.journal.readIndex < 1024) :
    recordPlaced s (placeRecord r s) r ∧ (placeRecord r s).journal.pledges = s.journal.pledges
      ∧ (placeRecord r s).journal.readIndex = s.journal.readIndex := by
  unfold recordPlaced placeRecord
  split
  · rename_i hc
    have w1 := Memory.writeBytes_wf h (journalBase s.journal.writeIndex) r.bytes
    refine ⟨⟨?_, ?_, ?_, ?_, ?_, ringWrite_causes r hw hr hc.2⟩, ?_, ?_⟩
    · rw [ringWrite_mem]
      have e := Memory.readBytes_writeBytes h (journalBase s.journal.writeIndex) r.bytes
      rw [length_Record_bytes] at e
      refine (Memory.readBytes_congr ?_).trans e
      intro y _ _
      apply Memory.byteAt_write_outside w1
      unfold journalBase at *
      unfold hdrWriteIndex
      omega
    · rw [ringWrite_journal]
    · unfold State.peek
      rw [ringWrite_mem, Memory.read_write w1]
      omega
    · rw [ringWrite_journal]; exact hc.1
    · rw [ringWrite_journal]
    · rw [ringWrite_journal]
    · rw [ringWrite_journal]
  · have k := holdRecord_causes r s
    rw [holdRecord_journal]
    exact ⟨⟨rfl, rfl, rfl, k⟩, rfl, rfl⟩

/-- What a pledged append does. -/
theorem appendPledged_spec (r : Record) {s : State} (h : s.mem.wf) (hw : s.journal.writeIndex < 1024)
    (hr : s.journal.readIndex < 1024) : pledgedRecord s (appendPledged r s) r := by
  obtain ⟨a, b, c⟩ := placeRecord_placed r
    (s := { s with journal := { s.journal with pledges := s.journal.pledges - 1 } }) h hw hr
  exact ⟨b, c, a⟩

/-- What an unpledged append does. -/
theorem appendUnpledged_spec (r : Record) {s : State} (h : s.mem.wf) (hw : s.journal.writeIndex < 1024)
    (hr : s.journal.readIndex < 1024) : unpledgedRecord s (appendUnpledged r s) r := by
  unfold unpledgedRecord appendUnpledged
  split
  · obtain ⟨a, b, c⟩ := placeRecord_placed r h hw hr
    exact ⟨b, c, a⟩
  · unfold dropRecord
    split
    · rename_i hd
      refine ⟨rfl, rfl, rfl, rfl, fun _ => ⟨rfl, ?_⟩, fun hc => absurd hd (by omega), journalCauses_refl s⟩
      unfold State.peek
      dsimp only
      rw [Memory.read_write h]
      omega
    · rename_i hd
      exact ⟨rfl, rfl, rfl, rfl, fun hc => absurd hc hd, fun _ => rfl, journalCauses_refl s⟩

theorem stationRecord_spec (ev : StationEvent) (b : Bool) (d m : Nat) {s : State} (h : s.mem.wf)
    (hw : s.journal.writeIndex < 1024) (hr : s.journal.readIndex < 1024) :
    unpledgedRecord s (stationRecord ev b d m s) ⟨none, s.day, s.ms, [], none, .station ev s.online b d m⟩ :=
  appendUnpledged_spec _ h hw hr

theorem laneRecord_spec (n : Fin 4) (b : Bool) {s : State} (h : s.mem.wf) (hw : s.journal.writeIndex < 1024)
    (hr : s.journal.readIndex < 1024) :
    let p := s.port (s.lane n).config.port
    unpledgedRecord s (laneRecord n b s) ⟨some n, s.day, s.ms, [], none,
      .lane (s.lane n).state.code (s.lane n).state.faultCode (s.lane n).state.faultExit b p.readerLost p.silent
        p.rfFault⟩ :=
  appendUnpledged_spec _ h hw hr

/-! ### Records seen from other states -/

/-- The bytes of an append lie outside every mirror, slot and table. -/
theorem inAppend_region {s : State} (hw : s.journal.writeIndex < 1024) {x : Nat} (h : inAppend s x) :
    (14 ≤ x ∧ x < 18) ∨ (0x6200 ≤ x ∧ x < 0xE200) := by
  unfold inAppend inField journalBase hdrWriteIndex hdrDropped at h
  omega

/-- The two causes of the Journal Writer stand as they were. -/
def sameCauses (s t : State) : Prop :=
  s.attn.getLsbD 1 = t.attn.getLsbD 1 ∧ s.attn.getLsbD 2 = t.attn.getLsbD 2

theorem recordPlaced_right {s t u : State} {r : Record} (h : recordPlaced s t r) (hj : u.journal = t.journal)
    (hm : ∀ x, inAppend s x → u.mem.byteAt x = t.mem.byteAt x) (ha : sameCauses t u) : recordPlaced s u r := by
  unfold recordPlaced at *
  rw [hj]
  split
  · rename_i hc
    rw [if_pos hc] at h
    refine ⟨?_, h.2.1, ?_, h.2.2.2.1, h.2.2.2.2.1, journalCauses_congr h.2.2.2.2.2 ⟨rfl, rfl⟩ ha⟩
    · rw [← h.1]
      exact Memory.readBytes_congr fun y h1 h2 => hm y (Or.inl ⟨h1, h2⟩)
    · rw [← h.2.2.1]
      exact Memory.read_congr fun y h1 h2 => hm y (Or.inr (Or.inl ⟨h1, h2⟩))
  · rename_i hc
    rw [if_neg hc] at h
    exact ⟨h.1, h.2.1, h.2.2.1, journalCauses_congr h.2.2.2 ⟨rfl, rfl⟩ ha⟩

/-- A record stands for every later state with the same journal, its causes and the same bytes of the append. -/
theorem unpledgedRecord_right {s t u : State} {r : Record} (h : unpledgedRecord s t r) (hj : u.journal = t.journal)
    (hm : ∀ x, inAppend s x → u.mem.byteAt x = t.mem.byteAt x) (ha : sameCauses t u) : unpledgedRecord s u r := by
  unfold unpledgedRecord at *
  refine ⟨by rw [hj, h.1], by rw [hj, h.2.1], ?_⟩
  have h := h.2.2
  split
  · rename_i hc
    rw [if_pos hc] at h
    exact recordPlaced_right h hj hm ha
  · rename_i hc
    rw [if_neg hc] at h
    rw [hj]
    refine ⟨h.1, h.2.1, fun hd => ⟨(h.2.2.1 hd).1, ?_⟩, h.2.2.2.1,
      journalCauses_congr h.2.2.2.2 ⟨rfl, rfl⟩ ha⟩
    rw [← (h.2.2.1 hd).2]
    exact Memory.read_congr fun y h1 h2 => hm y (Or.inr (Or.inr ⟨h1, h2⟩))

theorem pledgedRecord_right {s t u : State} {r : Record} (h : pledgedRecord s t r) (hj : u.journal = t.journal)
    (hm : ∀ x, inAppend s x → u.mem.byteAt x = t.mem.byteAt x) (ha : sameCauses t u) : pledgedRecord s u r :=
  ⟨by rw [hj, h.1], by rw [hj, h.2.1], recordPlaced_right h.2.2 hj hm ha⟩

theorem recordPlaced_left {s s' t : State} {r : Record} (h : recordPlaced s' t r) (hj : s'.journal = s.journal)
    (ha : sameCauses s' s) (ht : thresholdOf s' = thresholdOf s) : recordPlaced s t r := by
  unfold recordPlaced at *
  rw [hj] at h
  split
  · rename_i hc
    rw [if_pos hc] at h
    refine ⟨h.1, h.2.1, h.2.2.1, h.2.2.2.1, h.2.2.2.2.1, ?_⟩
    have k := journalCauses_congr h.2.2.2.2.2 ha ⟨rfl, rfl⟩
    unfold reachesLevel at *
    rwa [hj, ht] at k
  · rename_i hc
    rw [if_neg hc] at h
    exact ⟨h.1, h.2.1, h.2.2.1, journalCauses_congr h.2.2.2 ha ⟨rfl, rfl⟩⟩

/-- A record asked for of an earlier state with the same journal, its causes and its threshold. -/
theorem unpledgedRecord_left {s s' t : State} {r : Record} (h : unpledgedRecord s' t r) (hj : s'.journal = s.journal)
    (ha : sameCauses s' s) (ht : thresholdOf s' = thresholdOf s) : unpledgedRecord s t r := by
  unfold unpledgedRecord at *
  rw [hj] at h
  refine ⟨h.1, h.2.1, ?_⟩
  have h := h.2.2
  split
  · rename_i hc
    rw [if_pos hc] at h
    exact recordPlaced_left h hj ha ht
  · rename_i hc
    rw [if_neg hc] at h
    exact ⟨h.1, h.2.1, h.2.2.1, h.2.2.2.1, journalCauses_congr h.2.2.2.2 ha ⟨rfl, rfl⟩⟩

theorem pledgedRecord_left {s s' t : State} {r : Record} (h : pledgedRecord s' t r) (hj : s'.journal = s.journal)
    (ha : sameCauses s' s) (ht : thresholdOf s' = thresholdOf s) : pledgedRecord s t r :=
  ⟨by rw [← hj]; exact h.1, by rw [← hj]; exact h.2.1, recordPlaced_left h.2.2 hj ha ht⟩

theorem inAppend_left {s s' : State} (hj : s'.journal = s.journal) (x : Nat) : inAppend s' x ↔ inAppend s x := by
  simp only [inAppend, hj]

/-! ### The Writer's numbers -/

/-- Both indices in the ring, nothing held while the ring has room, and free places for every pledge. -/
def Journal.sound (j : Journal) : Prop :=
  j.writeIndex < 1024 ∧ j.readIndex < 1024 ∧ (j.hold = [] ∨ j.fill = 1023)
    ∧ j.pledges + j.fill + j.hold.length ≤ 1031

theorem journalLaw_iff (s : State) : journalLaw s ↔ s.journal.sound ∧ s.journal.pledges = holders s := by
  unfold journalLaw Journal.sound
  tauto

theorem Journal.fill_le (j : Journal) : j.fill ≤ 1023 := by unfold Journal.fill; omega

theorem Journal.room_pos {j : Journal} (h : j.sound) :
    j.room = 1031 - j.fill - j.hold.length - j.pledges := by
  have := j.fill_le
  obtain ⟨_, _, h3, h4⟩ := h
  unfold Journal.room
  rcases h3 with h3 | h3
  · simp only [h3, List.length_nil] at *; omega
  · omega

theorem placeRecord_sound (r : Record) {s : State} (h : s.journal.sound)
    (hr : s.journal.pledges + s.journal.fill + s.journal.hold.length ≤ 1030) : (placeRecord r s).journal.sound := by
  obtain ⟨h1, h2, h3, h4⟩ := h
  unfold placeRecord
  split
  · rename_i hc
    rw [ringWrite_journal]
    unfold Journal.sound Journal.fill at *
    refine ⟨by dsimp only; omega, h2, Or.inl hc.1, ?_⟩
    dsimp only
    omega
  · rename_i hc
    rw [holdRecord_journal]
    unfold Journal.sound
    refine ⟨h1, h2, Or.inr ?_, ?_⟩
    · rcases h3 with h3 | h3
      · have := s.journal.fill_le
        have : ¬s.journal.fill < 1023 := fun hlt => hc ⟨h3, hlt⟩
        unfold Journal.fill at *
        dsimp only
        omega
      · exact h3
    · show _ + s.journal.fill + _ ≤ _
      simp only [List.length_append, List.length_singleton]
      omega

theorem appendPledged_sound (r : Record) {s : State} (h : s.journal.sound) (hp : 1 ≤ s.journal.pledges) :
    (appendPledged r s).journal.sound := by
  obtain ⟨h1, h2, h3, h4⟩ := h
  apply placeRecord_sound
  · refine ⟨h1, h2, h3, ?_⟩
    show s.journal.pledges - 1 + s.journal.fill + _ ≤ _
    dsimp only
    omega
  · show s.journal.pledges - 1 + s.journal.fill + _ ≤ _
    dsimp only
    omega

theorem appendUnpledged_sound (r : Record) {s : State} (h : s.journal.sound) :
    (appendUnpledged r s).journal.sound ∧ (appendUnpledged r s).journal.pledges = s.journal.pledges := by
  unfold appendUnpledged
  split
  · rename_i hr
    rw [Journal.room_pos h] at hr
    refine ⟨placeRecord_sound r h (by omega), ?_⟩
    unfold placeRecord
    split
    · rw [ringWrite_journal]
    · rw [holdRecord_journal]
  · unfold dropRecord
    split
    · exact ⟨h, rfl⟩
    · exact ⟨h, rfl⟩

theorem takePledge_sound {s : State} (h : s.journal.sound) (hr : 1 ≤ s.journal.room) : (takePledge s).journal.sound := by
  rw [Journal.room_pos h] at hr
  obtain ⟨h1, h2, h3, h4⟩ := h
  refine ⟨h1, h2, h3, ?_⟩
  show s.journal.pledges + 1 + s.journal.fill + s.journal.hold.length ≤ 1031
  omega

/-! ### Draining (R207) -/

theorem drainHeld_rest (l : List Record) (s : State) : (drainHeld l s).rest = s.rest := by
  induction l generalizing s with
  | nil => rfl
  | cons r l ih =>
    simp only [drainHeld]
    split
    · rw [ih]; simp
    · rfl

theorem drainHeld_sound (l : List Record) {s : State} (hl : s.journal.hold = l) (h1 : s.journal.writeIndex < 1024)
    (h2 : s.journal.readIndex < 1024) (h4 : s.journal.pledges + s.journal.fill + l.length ≤ 1031) :
    (drainHeld l s).journal.sound ∧ (drainHeld l s).journal.pledges = s.journal.pledges := by
  induction l generalizing s with
  | nil => exact ⟨⟨h1, h2, Or.inl hl, by rw [drainHeld, hl]; exact h4⟩, rfl⟩
  | cons r l ih =>
    simp only [drainHeld]
    split
    · rename_i hf
      have e : (ringWrite r { s with journal := { s.journal with hold := l } }).journal =
          { s.journal with hold := l, writeIndex := (s.journal.writeIndex + 1) % 1024 } := by
        rw [ringWrite_journal]
      have := ih (s := ringWrite r { s with journal := { s.journal with hold := l } }) (by rw [e])
        (by rw [e]; dsimp only; omega) (by rw [e]; exact h2)
        (by
          rw [e]
          simp only [List.length_cons] at h4
          unfold Journal.fill at *
          dsimp only
          omega)
      refine ⟨this.1, this.2.trans ?_⟩
      rw [e]
    · rename_i hf
      have := s.journal.fill_le
      exact ⟨⟨h1, h2, Or.inr (by omega), by rw [hl]; exact h4⟩, rfl⟩

end Sys2Proof.Machine
end

