-- ==== Sys2Proof/Laws/Orders.lean ====
section
/-! SUPPORT. The visit of a sweep: the take, the end of an order, and the orders that change their slot alone. -/

namespace Sys2Proof.Machine

/-! ### The take -/

@[simp] theorem takeSlot_attn (k : Fin 32) (s : State) : (takeSlot k s).attn = s.attn := rfl
@[simp] theorem takeSlot_lanes (k : Fin 32) (s : State) : (takeSlot k s).lanes = s.lanes := rfl
@[simp] theorem takeSlot_lane (k : Fin 32) (s : State) (n : Fin 4) : (takeSlot k s).lane n = s.lane n := rfl
@[simp] theorem takeSlot_ports (k : Fin 32) (s : State) : (takeSlot k s).ports = s.ports := rfl
@[simp] theorem takeSlot_port (k : Fin 32) (s : State) (p : Fin 4) : (takeSlot k s).port p = s.port p := rfl
@[simp] theorem takeSlot_journal (k : Fin 32) (s : State) : (takeSlot k s).journal = s.journal := rfl
@[simp] theorem takeSlot_station (k : Fin 32) (s : State) : (takeSlot k s).station = s.station := rfl
@[simp] theorem takeSlot_freeFlow (k : Fin 32) (s : State) : (takeSlot k s).freeFlow = s.freeFlow := rfl
@[simp] theorem takeSlot_evacuate (k : Fin 32) (s : State) : (takeSlot k s).evacuate = s.evacuate := rfl
@[simp] theorem takeSlot_online (k : Fin 32) (s : State) : (takeSlot k s).online = s.online := rfl
@[simp] theorem takeSlot_now (k : Fin 32) (s : State) : (takeSlot k s).now = s.now := rfl
@[simp] theorem takeSlot_day (k : Fin 32) (s : State) : (takeSlot k s).day = s.day := rfl
@[simp] theorem takeSlot_ms (k : Fin 32) (s : State) : (takeSlot k s).ms = s.ms := rfl
@[simp] theorem takeSlot_options (k : Fin 32) (s : State) : (takeSlot k s).options = s.options := rfl
@[simp] theorem takeSlot_sweepNext (k : Fin 32) (s : State) : (takeSlot k s).sweepNext = slotAfter k := rfl
@[simp] theorem takeSlot_withdrawal (k : Fin 32) (s : State) : (takeSlot k s).withdrawal = s.withdrawal := rfl
@[simp] theorem takeSlot_creditSweep (k : Fin 32) (s : State) : (takeSlot k s).creditSweep = s.creditSweep := rfl

theorem takeSlot_wf (k : Fin 32) {s : State} (h : s.mem.wf) : (takeSlot k s).mem.wf := Memory.write_wf h _ _ _

/-- The take writes the slot's state word alone. -/
theorem byteAt_takeSlot (k : Fin 32) {s : State} (h : s.mem.wf) {x : Nat} (hx : ¬inField (orderBase k.val) 2 x) :
    (takeSlot k s).mem.byteAt x = s.mem.byteAt x := by
  unfold inField at hx
  exact Memory.byteAt_write_outside h (by omega)

/-- After the take the slot is TAKEN. -/
theorem orderState_takeSlot (k : Fin 32) {s : State} (h : s.mem.wf) : orderState (takeSlot k s) k = 2 :=
  (Memory.read_write h _ _ _).trans rfl

/-- What the order is read from stands after the take. -/
theorem peek_takeSlot (k : Fin 32) {s : State} (h : s.mem.wf) {a n : Nat}
    (ha : a + n ≤ orderBase k.val ∨ orderBase k.val + 2 ≤ a) : (takeSlot k s).peek a n = s.peek a n :=
  Memory.read_congr fun y _ _ => byteAt_takeSlot k h (by unfold inField; omega)

theorem payload_takeSlot (k : Fin 32) {s : State} (h : s.mem.wf) {off n : Nat} (ho : 2 ≤ off) :
    payload (takeSlot k s) k.val off n = payload s k.val off n :=
  peek_takeSlot k h (Or.inr (by omega))

theorem orderKind_takeSlot (k : Fin 32) {s : State} (h : s.mem.wf) :
    orderKind (takeSlot k s) k.val = orderKind s k.val :=
  peek_takeSlot k h (Or.inr (Nat.le_refl _))

theorem payloadUid_takeSlot (k : Fin 32) {s : State} (h : s.mem.wf) :
    payloadUid (takeSlot k s) k.val = payloadUid s k.val := by
  unfold payloadUid
  rw [payload_takeSlot k h (by omega)]
  split
  · congr 1
    exact Memory.readBytes_congr fun y h1 _ => byteAt_takeSlot k h (by unfold inField; omega)
  · rfl

/-! ### The end -/

theorem Result.code_lt (r : Result) : r.code < 256 := by cases r <;> decide

theorem Result.slotState_lt (r : Result) : r.slotState < 65536 := by cases r <;> decide

theorem endOrder_wf (k : Fin 32) (r : Result) {s : State} (h : s.mem.wf) : (endOrder k r s).mem.wf := by
  have h1 : (s.poke (orderBase k.val + 3) 1 r.code).mem.wf := Memory.write_wf h _ _ _
  simp only [endOrder]
  split
  · exact Memory.write_wf h1 _ _ _
  · exact h1

/-- The end of an order writes its state word and its result code alone. -/
theorem byteAt_endOrder (k : Fin 32) (r : Result) {s : State} (h : s.mem.wf) {x : Nat} (hx : ¬inOrderEnd k x) :
    (endOrder k r s).mem.byteAt x = s.mem.byteAt x := by
  unfold inOrderEnd inField at hx
  have h1 : (s.poke (orderBase k.val + 3) 1 r.code).mem.wf := Memory.write_wf h _ _ _
  have e1 : (s.poke (orderBase k.val + 3) 1 r.code).mem.byteAt x = s.mem.byteAt x :=
    Memory.byteAt_write_outside h (by omega)
  simp only [endOrder]
  split
  · rw [← e1]
    exact Memory.byteAt_write_outside h1 (by omega)
  · exact e1

theorem peek_endOrder (k : Fin 32) (r : Result) {s : State} (h : s.mem.wf) {a n : Nat}
    (ha : a + n ≤ orderBase k.val ∨ orderBase k.val + 4 ≤ a) : (endOrder k r s).peek a n = s.peek a n :=
  Memory.read_congr fun y _ _ => byteAt_endOrder k r h (by unfold inOrderEnd inField; omega)

theorem endOrder_taken (k : Fin 32) (r : Result) {s : State} (h : s.mem.wf) (ht : orderState s k.val = 2) :
    endOrder k r s =
      { s with
        mem := (s.mem.write (orderBase k.val + 3) 1 r.code).write (orderBase k.val) 2 r.slotState
        attn := s.attn ||| 1#8 } := by
  have e : orderState (s.poke (orderBase k.val + 3) 1 r.code) k.val = 2 := by
    rw [← ht]
    exact Memory.read_write_outside h (Or.inl (by omega))
  simp only [endOrder]
  rw [if_pos e]
  rfl

/-- The slot of a TAKEN order shows its end. -/
theorem endOrder_shows (k : Fin 32) (r : Result) {s : State} (h : s.mem.wf) (ht : orderState s k.val = 2) :
    orderState (endOrder k r s) k.val = r.slotState ∧ (endOrder k r s).peek (orderBase k.val + 3) 1 = r.code
      ∧ orderKind (endOrder k r s) k.val = orderKind s k.val ∧ (endOrder k r s).attn = s.attn ||| 1#8 := by
  have h1 := Memory.write_wf h (orderBase k.val + 3) 1 r.code
  have c := r.code_lt
  have d := r.slotState_lt
  rw [endOrder_taken k r h ht]
  refine ⟨?_, ?_, ?_, rfl⟩
  · show Memory.read (Memory.write _ _ _ _) _ _ = _
    rw [Memory.read_write h1]
    omega
  · show Memory.read (Memory.write _ _ _ _) _ _ = _
    rw [Memory.read_write_outside h1 (Or.inr (by omega)), Memory.read_write h]
    omega
  · show Memory.read (Memory.write _ _ _ _) _ _ = _
    rw [Memory.read_write_outside h1 (Or.inr (by omega)), Memory.read_write_outside h (Or.inl (by omega))]
    rfl

theorem or_one_bit (a : BitVec 8) : (a ||| 1#8).getLsbD 0 = true := by simp

/-! ### The visit -/

/-- A command for the slot the sweep takes next, holding its row's kind, is carried out. -/
theorem visit_runs {k : Fin 32} {isRow : State → Bool} {body : State → State} {s : State}
    (hn : nextOrder s = some k) (hr : isRow s = true) :
    visit k isRow body s = .next (settleOutputs s (body (takeSlot k s))) := by
  rw [visit, if_pos ⟨hn, hr⟩, event_eq]

theorem kindIs_of_carries {s : State} {k : Fin 32} {code : Nat} (h : carries s k code) : kindIs k code s = true := by
  simp [kindIs, h.2]

theorem carries_runs {k : Fin 32} {code : Nat} {body : State → State} {s : State} (h : carries s k code) :
    visit k (kindIs k code) body s = .next (settleOutputs s (body (takeSlot k s))) :=
  visit_runs h.1 (kindIs_of_carries h)

/-- Nothing that a lane shows, no lock and no station flag changed: the event ends as it stands. -/
theorem settleOutputs_quiet {before after : State} (hl : after.lanes = before.lanes) (hp : after.ports = before.ports)
    (he : after.evacuate = before.evacuate) (hs : stateMirror before = stateMirror after) :
    settleOutputs before after = after := by
  have l : ∀ n, after.lane n = before.lane n := fun n => by unfold State.lane; rw [hl]
  have p : ∀ n, after.port n = before.port n := fun n => by unfold State.port; rw [hp]
  apply settleOutputs_same _ _ _ hs
  · intro n; simp only [lockReleased, he, l]
  · intro n; simp only [laneImage, l, p]
  · intro n; rw [l]

/-- An order whose body writes memory, and then ends, leaves everything else alone. -/
theorem onlyOrder_of_end {k : Fin 32} {isRow : State → Bool} {body : State → State} {s u : State} {r : Result}
    {stored : Nat → Prop} (h : s.mem.wf) (hn : nextOrder s = some k) (hr : isRow s = true)
    (hb : body (takeSlot k s) = endOrder k r u) (hu : u = { takeSlot k s with mem := u.mem }) (hw : u.mem.wf)
    (hm : ∀ x, ¬stored x → u.mem.byteAt x = (takeSlot k s).mem.byteAt x)
    (hd : ∀ x, stored x → ¬inField (orderBase k.val) 4 x) :
    ∃ t, visit k isRow body s = .next t ∧ onlyOrder s t k r stored
      ∧ ∀ x, ¬inOrderEnd k x → t.mem.byteAt x = u.mem.byteAt x := by
  have hread : ∀ off n, off + n ≤ 4 → u.mem.read (orderBase k.val + off) n = (takeSlot k s).mem.read (orderBase k.val + off) n :=
    fun off n ho => Memory.read_congr fun y h1 h2 => hm y fun hs => hd y hs (by unfold inField; omega)
  have ht : orderState u k.val = 2 := (hread 0 2 (by omega)).trans (orderState_takeSlot k h)
  have hk : orderKind u k.val = orderKind s k.val := (hread 2 1 (by omega)).trans (orderKind_takeSlot k h)
  obtain ⟨e1, e2, e3, e4⟩ := endOrder_shows k r hw ht
  have q : settleOutputs s (body (takeSlot k s)) = endOrder k r u := by
    rw [hb]
    rw [endOrder_taken k r hw ht, hu]
    exact settleOutputs_quiet rfl rfl rfl rfl
  refine ⟨endOrder k r u, by rw [visit_runs hn hr, q], ⟨⟨e1, e2, e3.trans hk, ?_, ?_⟩, ?_, ?_⟩, ?_⟩
  · rw [e4]; exact or_one_bit _
  · rw [endOrder_taken k r hw ht, hu]; rfl
  · rw [endOrder_taken k r hw ht, hu]; rfl
  · intro x hx
    rw [not_or] at hx
    rw [byteAt_endOrder k r hw hx.1, hm x hx.2, byteAt_takeSlot k h]
    exact fun hf => hx.1 (Or.inl hf)
  · intro x hx
    exact byteAt_endOrder k r hw hx

/-- An order that fails its checks changes nothing but its slot. -/
theorem onlyOrder_of_refusal {k : Fin 32} {isRow : State → Bool} {body : State → State} {s : State} {r : Result}
    (h : s.mem.wf) (hn : nextOrder s = some k) (hr : isRow s = true)
    (hb : body (takeSlot k s) = endOrder k r (takeSlot k s)) :
    ∃ t, visit k isRow body s = .next t ∧ onlyOrder s t k r fun _ => False := by
  obtain ⟨t, h1, h2, _⟩ := onlyOrder_of_end (stored := fun _ => False) h hn hr hb rfl (takeSlot_wf k h)
    (fun _ _ => rfl) (fun _ hf => hf.elim)
  exact ⟨t, h1, h2⟩

/-! ### Which slot a sweep takes -/

/-- The slot after a slot, by its number. -/
theorem slotAfter_eq (k j : Fin 32) : slotAfter k = some j ↔ j.val = k.val + 1 := by
  have := j.isLt
  unfold slotAfter
  split
  · simp only [Option.some.injEq, Fin.ext_iff]
    omega
  · simp only [reduceCtorEq, false_iff]
    omega

theorem slotAfter_none (k : Fin 32) : slotAfter k = none ↔ k.val = 31 := by
  have := k.isLt
  unfold slotAfter
  split
  · simp only [reduceCtorEq, false_iff]
    omega
  · simp only [true_iff]
    omega

theorem nextOrder_eq (s : State) (k : Fin 32) :
    nextOrder s = some k ↔ s.sweepNext = some k ∧ orderState s k.val = 1 ∧ inFlight s k.val = false := by
  unfold nextOrder takeable
  cases s.sweepNext with
  | none => simp
  | some p =>
    by_cases e : p = k
    · subst e; simp
    · simp [e]

end Sys2Proof.Machine
end

