-- ==== Sys2Proof/Laws/Tables.lean ====
section
/-! SUPPORT. The tables in station memory: a written record reads back, a read depends on its own bytes alone, and the scans'
slot lists hold what they should. -/

namespace Sys2Proof.Machine

/-! ### Reading a field of a written run -/

/-- The number that little-endian bytes spell. -/
def leValue : List Byte → Nat
  | [] => 0
  | b :: bs => b.toNat + 256 * leValue bs

theorem leValue_le (n v : Nat) : leValue (le n v) = v % 256 ^ n := by
  induction n generalizing v with
  | zero => simp [le, leValue, Nat.mod_one]
  | succ n ih =>
    simp only [le, leValue, ih, BitVec.toNat_ofNat]
    rw [show 256 ^ (n + 1) = 256 * 256 ^ n by ring, Nat.mod_mul]

theorem read_eq_leValue (m : Memory) (a n : Nat) : m.read a n = leValue (m.readBytes a n) := by
  induction n generalizing a with
  | zero => rfl
  | succ n ih => simp [Memory.read, Memory.readBytes, leValue, ih]

theorem readBytes_part (m : Memory) (a : Nat) {len off n : Nat} (h : off + n ≤ len) :
    m.readBytes (a + off) n = ((m.readBytes a len).drop off).take n := by
  induction off generalizing a len with
  | zero =>
    induction n generalizing a len with
    | zero => simp [Memory.readBytes]
    | succ n ih =>
      obtain ⟨len, rfl⟩ : ∃ l, len = l + 1 := ⟨len - 1, by omega⟩
      have := ih (a := a + 1) (len := len) (by omega)
      simp only [Nat.add_zero, List.drop_zero] at this ⊢
      simp only [Memory.readBytes, List.take_succ_cons, this]
  | succ off ih =>
    obtain ⟨len, rfl⟩ : ∃ l, len = l + 1 := ⟨len - 1, by omega⟩
    simp only [Memory.readBytes, List.drop_succ_cons]
    rw [← ih (a := a + 1) (len := len) (by omega), Nat.add_right_comm, Nat.add_assoc]

/-- A part of a written run reads as written. -/
theorem readBytes_writeBytes_part {m : Memory} (h : m.wf) (a : Nat) {bs part : List Byte} {off : Nat}
    (hp : (bs.drop off).take part.length = part) :
    (m.writeBytes a bs).readBytes (a + off) part.length = part := by
  rcases Nat.lt_or_ge bs.length (off + part.length) with hl | hl
  · have := congrArg List.length hp
    simp only [List.length_take, List.length_drop] at this
    have : part = [] := List.eq_nil_of_length_eq_zero (by omega)
    subst this
    rfl
  · rw [readBytes_part _ a hl, Memory.readBytes_writeBytes h, hp]

/-- A number within a written run reads as written. -/
theorem read_writeBytes_part {m : Memory} (h : m.wf) (a : Nat) {bs : List Byte} {off n v : Nat}
    (hp : (bs.drop off).take n = le n v) : (m.writeBytes a bs).read (a + off) n = v % 256 ^ n := by
  have e := readBytes_writeBytes_part h a (part := le n v) (off := off) (bs := bs) (by simpa using hp)
  rw [length_le] at e
  rw [read_eq_leValue, e, leValue_le]

theorem byteAt_writeBytes_part {m : Memory} (h : m.wf) (a : Nat) {bs : List Byte} {off : Nat} {b : Byte}
    (hp : bs[off]? = some b) : (m.writeBytes a bs).byteAt (a + off) = b := by
  have hl : off < bs.length := by
    rw [List.getElem?_eq_some_iff] at hp
    exact hp.1
  rw [Memory.byteAt_writeBytes h, if_pos (by omega), Nat.add_sub_cancel_left, List.getD_eq_getElem?_getD, hp]
  rfl

theorem wordOpt_optWord {v : Option Nat} (h : ∀ x, v = some x → x < 65535) : wordOpt (optWord v) = v := by
  cases v with
  | none => rfl
  | some x => have := h x rfl; exact if_neg (show ¬x = 65535 by omega)

theorem byteOpt_optByte {v : Option Nat} (h : ∀ x, v = some x → x < 255) : byteOpt (optByte v) = v := by
  cases v with
  | none => rfl
  | some x => have := h x rfl; exact if_neg (show ¬x = 255 by omega)

theorem optWord_lt {v : Option Nat} (h : ∀ x, v = some x → x < 65535) : optWord v < 65536 := by
  cases v with
  | none => decide
  | some x => have := h x rfl; simp only [optWord]; omega

theorem optByte_lt {v : Option Nat} (h : ∀ x, v = some x → x < 255) : optByte v < 256 := by
  cases v with
  | none => decide
  | some x => have := h x rfl; simp only [optByte]; omega

/-! ### Pass entries (Table 9) -/

/-- The fields of an entry fit their bytes. -/
structure PassEntry.Fits (e : PassEntry) : Prop where
  slotState : e.slotState < 256
  uidLength : e.uidLength < 256
  uid : e.uid.length = 10
  stamp : e.stamp < 65536
  product : e.product < 256
  issueDay : e.issueDay < 65536
  firstDay : ∀ x, e.firstDay = some x → x < 65535
  lastDay : ∀ x, e.lastDay = some x → x < 65535
  usage : e.usage < 65536
  lastMinute : ∀ x, e.lastMinute = some x → x < 65535
  creditedDay : ∀ x, e.creditedDay = some x → x < 65535
  paid : e.paid < 16777216
  marker : ∀ x, e.marker = some x → x < 255

theorem wordOpt_lt {v x : Nat} (h : v < 65536) (e : wordOpt v = some x) : x < 65535 := by
  unfold wordOpt at e; split at e <;> simp_all; omega

theorem byteOpt_lt {v x : Nat} (h : v < 256) (e : byteOpt v = some x) : x < 255 := by
  unfold byteOpt at e; split at e <;> simp_all; omega

/-- What memory holds fits. -/
theorem readPass_fits (m : Memory) (s : Nat) : (readPass m s).Fits where
  slotState := m.read_lt _ 1
  uidLength := m.read_lt _ 1
  uid := m.readBytes_length _ 10
  stamp := m.read_lt _ 2
  product := m.read_lt _ 1
  issueDay := m.read_lt _ 2
  firstDay _ := wordOpt_lt (m.read_lt _ 2)
  lastDay _ := wordOpt_lt (m.read_lt _ 2)
  usage := m.read_lt _ 2
  lastMinute _ := wordOpt_lt (m.read_lt _ 2)
  creditedDay _ := wordOpt_lt (m.read_lt _ 2)
  paid := m.read_lt _ 3
  marker _ := byteOpt_lt (m.read_lt _ 1)

/-- An entry reads by its 32 bytes alone. -/
theorem readPass_congr {m m' : Memory} {s : Nat} (h : ∀ x, inField (passBase s) 32 x → m'.byteAt x = m.byteAt x) :
    readPass m' s = readPass m s := by
  have r : ∀ off n, off + n ≤ 32 → m'.read (passBase s + off) n = m.read (passBase s + off) n := fun off n ho =>
    Memory.read_congr fun y h1 h2 => h y (by unfold inField; omega)
  unfold readPass
  rw [PassEntry.mk.injEq]
  refine ⟨r 0 1 (by omega), r 1 1 (by omega), ?_, r 12 2 (by omega), r 14 1 (by omega), h _ (by unfold inField; omega),
    r 16 2 (by omega), ?_, ?_, r 22 2 (by omega), ?_, ?_, r 28 3 (by omega), ?_⟩
  · exact Memory.readBytes_congr fun y h1 h2 => h y (by unfold inField; omega)
  · rw [r 18 2 (by omega)]
  · rw [r 20 2 (by omega)]
  · rw [r 24 2 (by omega)]
  · rw [r 26 2 (by omega)]
  · rw [r 31 1 (by omega)]

@[simp] theorem length_PassEntry_bytes (e : PassEntry) : e.bytes.length = 32 := by
  simp [PassEntry.bytes]

/-- A written entry reads back. -/
theorem readPass_writePass {m : Memory} (h : m.wf) (s : Nat) {e : PassEntry} (f : e.Fits) :
    readPass (writePass m s e) s = e := by
  obtain ⟨st, ul, uid, stamp, prod, flags, issue, first, last, usage, minute, credited, paid, marker⟩ := e
  obtain ⟨f1, f2, f3, f4, f5, f6, f7, f8, f9, f10, f11, f12, f13⟩ := f
  dsimp only at f1 f2 f3 f4 f5 f6 f7 f8 f9 f10 f11 f12 f13
  obtain ⟨u0, u1, u2, u3, u4, u5, u6, u7, u8, u9, rfl⟩ :
      ∃ a b c d e f g h i j, uid = [a, b, c, d, e, f, g, h, i, j] := by
    match uid, f3 with
    | [a, b, c, d, e, f, g, h, i, j], _ => exact ⟨a, b, c, d, e, f, g, h, i, j, rfl⟩
  obtain ⟨bs, hb⟩ : ∃ bs, (PassEntry.mk st ul [u0, u1, u2, u3, u4, u5, u6, u7, u8, u9] stamp prod flags issue first last
      usage minute credited paid marker).bytes = bs := ⟨_, rfl⟩
  have e : bs = le 1 st ++ (le 1 ul ++ ([u0, u1, u2, u3, u4, u5, u6, u7, u8, u9] ++ (le 2 stamp
        ++ (le 1 prod ++ ([flags] ++ (le 2 issue ++ (le 2 (optWord first) ++ (le 2 (optWord last) ++ (le 2 usage
        ++ (le 2 (optWord minute) ++ (le 2 (optWord credited) ++ (le 3 paid ++ le 1 (optByte marker))))))))))))) := by
    rw [← hb]
    simp [PassEntry.bytes, padTo]
  have rd : ∀ off n v, (bs.drop off).take n = le n v →
      (m.writeBytes (passBase s) bs).read (passBase s + off) n = v % 256 ^ n :=
    fun off n v hp => read_writeBytes_part h (passBase s) hp
  simp only [le, List.cons_append, List.nil_append] at e
  unfold readPass writePass
  rw [hb, PassEntry.mk.injEq]
  refine ⟨(rd 0 1 st (by rw [e]; rfl)).trans (Nat.mod_eq_of_lt f1), (rd 1 1 ul (by rw [e]; rfl)).trans (Nat.mod_eq_of_lt f2), ?_,
    (rd 12 2 stamp (by rw [e]; rfl)).trans (Nat.mod_eq_of_lt f4), (rd 14 1 prod (by rw [e]; rfl)).trans (Nat.mod_eq_of_lt f5),
    byteAt_writeBytes_part h _ (by rw [e]; rfl), (rd 16 2 issue (by rw [e]; rfl)).trans (Nat.mod_eq_of_lt f6), ?_, ?_,
    (rd 22 2 usage (by rw [e]; rfl)).trans (Nat.mod_eq_of_lt f9), ?_, ?_, (rd 28 3 paid (by rw [e]; rfl)).trans (Nat.mod_eq_of_lt f12), ?_⟩
  · exact readBytes_writeBytes_part h (passBase s) (part := [u0, u1, u2, u3, u4, u5, u6, u7, u8, u9]) (off := 2) (by rw [e]; rfl)
  · rw [rd 18 2 (optWord first) (by rw [e]; rfl), Nat.mod_eq_of_lt (show _ < 256 ^ 2 from optWord_lt f7), wordOpt_optWord f7]
  · rw [rd 20 2 (optWord last) (by rw [e]; rfl), Nat.mod_eq_of_lt (show _ < 256 ^ 2 from optWord_lt f8), wordOpt_optWord f8]
  · rw [rd 24 2 (optWord minute) (by rw [e]; rfl), Nat.mod_eq_of_lt (show _ < 256 ^ 2 from optWord_lt f10), wordOpt_optWord f10]
  · rw [rd 26 2 (optWord credited) (by rw [e]; rfl), Nat.mod_eq_of_lt (show _ < 256 ^ 2 from optWord_lt f11), wordOpt_optWord f11]
  · rw [rd 31 1 (optByte marker) (by rw [e]; rfl), Nat.mod_eq_of_lt (show _ < 256 ^ 1 from optByte_lt f13), byteOpt_optByte f13]

theorem putPass_wf {s : State} (h : s.mem.wf) (slot : Nat) (e : PassEntry) : (s.putPass slot e).mem.wf :=
  Memory.writeBytes_wf h _ _

theorem byteAt_putPass {s : State} (h : s.mem.wf) (slot : Nat) (e : PassEntry) {x : Nat}
    (hx : ¬inField (passBase slot) 32 x) : (s.putPass slot e).mem.byteAt x = s.mem.byteAt x := by
  unfold inField at hx
  exact Memory.byteAt_writeBytes_outside h (by rw [length_PassEntry_bytes]; omega)

theorem pass_putPass {s : State} (h : s.mem.wf) (slot : Nat) {e : PassEntry} (f : e.Fits) :
    (s.putPass slot e).pass slot = e := by
  have e1 : (s.putPass slot e).mem = writePass s.mem slot e := rfl
  rw [State.pass, e1]
  exact readPass_writePass h slot f

theorem pass_putPass_other {s : State} (h : s.mem.wf) {slot other : Nat} (e : PassEntry) (hne : other ≠ slot) :
    (s.putPass slot e).pass other = s.pass other :=
  readPass_congr fun x hx => byteAt_putPass h slot e (by unfold inField passBase at *; omega)

/-- Setting a marker writes the marker's byte alone (R69). -/
theorem byteAt_setMarker (slot : Nat) (l : Option (Fin 4)) {s : State} (h : s.mem.wf) {x : Nat}
    (hx : x ≠ passBase slot + 31) : (setMarker slot l s).mem.byteAt x = s.mem.byteAt x :=
  Memory.byteAt_write_outside h (by omega)

theorem setMarker_wf (slot : Nat) (l : Option (Fin 4)) {s : State} (h : s.mem.wf) : (setMarker slot l s).mem.wf :=
  Memory.write_wf h _ _ _

theorem peek_setMarker (slot : Nat) (l : Option (Fin 4)) {s : State} (h : s.mem.wf) :
    (setMarker slot l s).peek (passBase slot + 31) 1 = optByte (l.map (·.val)) := by
  unfold setMarker State.peek State.poke
  rw [Memory.read_write h]
  apply Nat.mod_eq_of_lt
  cases l with
  | none => decide
  | some n => simp only [Option.map_some, optByte]; omega

/-- The entry but for its marker stands. -/
theorem pass_setMarker (slot : Nat) (l : Option (Fin 4)) {s : State} (h : s.mem.wf) :
    (setMarker slot l s).pass slot = { s.pass slot with marker := l.map (·.val) } := by
  have b : ∀ x, x ≠ passBase slot + 31 → (setMarker slot l s).mem.byteAt x = s.mem.byteAt x := fun x hx =>
    byteAt_setMarker slot l h hx
  have r : ∀ off n, off + n ≤ 31 →
      (setMarker slot l s).mem.read (passBase slot + off) n = s.mem.read (passBase slot + off) n := fun off n ho =>
    Memory.read_congr fun y h1 h2 => b y (by omega)
  unfold State.pass readPass
  rw [PassEntry.mk.injEq]
  refine ⟨r 0 1 (by omega), r 1 1 (by omega), ?_, r 12 2 (by omega), r 14 1 (by omega), b _ (by omega), r 16 2 (by omega),
    ?_, ?_, r 22 2 (by omega), ?_, ?_, r 28 3 (by omega), ?_⟩
  · exact Memory.readBytes_congr fun y h1 h2 => b y (by omega)
  · rw [r 18 2 (by omega)]
  · rw [r 20 2 (by omega)]
  · rw [r 24 2 (by omega)]
  · rw [r 26 2 (by omega)]
  · have := peek_setMarker slot l h
    unfold State.peek at this
    rw [this]
    apply byteOpt_optByte
    cases l with
    | none => simp
    | some n => simp only [Option.map_some, Option.some.injEq]; omega

theorem pass_setMarker_other {slot other : Nat} (l : Option (Fin 4)) {s : State} (h : s.mem.wf) (hne : other ≠ slot) :
    (setMarker slot l s).pass other = s.pass other :=
  readPass_congr fun x hx => byteAt_setMarker slot l h (by unfold inField passBase at *; omega)

/-- Retiring writes the flags byte alone (R159). -/
theorem byteAt_retire (slot : Nat) {s : State} (h : s.mem.wf) {x : Nat} (hx : x ≠ passBase slot + 15) :
    (retire slot s).mem.byteAt x = s.mem.byteAt x := by
  unfold retire
  rw [Memory.byteAt_setByte h, if_neg hx]

theorem retire_wf (slot : Nat) {s : State} (h : s.mem.wf) : (retire slot s).mem.wf := Memory.setByte_wf h _ _

theorem pass_retire (slot : Nat) {s : State} (h : s.mem.wf) :
    (retire slot s).pass slot = { s.pass slot with flags := (s.pass slot).flags ||| 2#8 } := by
  have b : ∀ x, x ≠ passBase slot + 15 → (retire slot s).mem.byteAt x = s.mem.byteAt x := fun x hx =>
    byteAt_retire slot h hx
  have r : ∀ off n, off + n ≤ 15 ∨ 16 ≤ off →
      (retire slot s).mem.read (passBase slot + off) n = s.mem.read (passBase slot + off) n := fun off n ho =>
    Memory.read_congr fun y h1 h2 => b y (by omega)
  unfold State.pass readPass
  rw [PassEntry.mk.injEq]
  refine ⟨r 0 1 (by omega), r 1 1 (by omega), ?_, r 12 2 (by omega), r 14 1 (by omega), ?_, r 16 2 (by omega),
    ?_, ?_, r 22 2 (by omega), ?_, ?_, r 28 3 (by omega), ?_⟩
  · exact Memory.readBytes_congr fun y h1 h2 => b y (by omega)
  · unfold retire
    rw [Memory.byteAt_setByte h, if_pos rfl]
    rfl
  · rw [r 18 2 (by omega)]
  · rw [r 20 2 (by omega)]
  · rw [r 24 2 (by omega)]
  · rw [r 26 2 (by omega)]
  · rw [r 31 1 (by omega)]

/-! ### The lookup (R5, R6) -/

theorem homeSlot_lt (uid : List Byte) : homeSlot uid < passSlots := by
  unfold homeSlot
  have : ∀ (l : List Byte) (h : Nat), h < passSlots → l.foldl (fun h b => (h * 33 + b.toNat) % passSlots) h < passSlots := by
    intro l
    induction l with
    | nil => intro h hh; exact hh
    | cons b l ih => intro h _; exact ih _ (Nat.mod_lt _ (by decide))
  exact this uid 0 (by decide)

theorem uidMatches_congr {m m' : Memory} {s : Nat} {uid : List Byte} (hu : uid.length ≤ 10)
    (h : ∀ x, inField (passBase s) 32 x → m'.byteAt x = m.byteAt x) : uidMatches m' s uid = uidMatches m s uid := by
  unfold uidMatches
  rw [Memory.read_congr fun y h1 h2 => h y (by unfold inField; omega),
    Memory.readBytes_congr fun y h1 h2 => h y (by unfold inField; omega)]

/-- A probe reads the Pass Table alone. -/
theorem probe_congr {m m' : Memory} {uid : List Byte} (hu : uid.length ≤ 10)
    (h : ∀ x, passBase 0 ≤ x → x < passBase passSlots → m'.byteAt x = m.byteAt x) : probe m' uid = probe m uid := by
  have e : ∀ s, s < passSlots → ∀ x, inField (passBase s) 32 x → m'.byteAt x = m.byteAt x := fun s hs x hx =>
    h x (by unfold inField passBase at *; omega) (by unfold inField passBase passSlots at *; omega)
  have key : ∀ fuel s v, s < passSlots → probeFrom m' uid fuel s v = probeFrom m uid fuel s v := by
    intro fuel
    induction fuel with
    | zero => intro s v _; rfl
    | succ fuel ih =>
      intro s v hs
      have hs' : (s + 1) % passSlots < passSlots := Nat.mod_lt _ (by decide)
      have e1 : slotStateOf m' s = slotStateOf m s :=
        Memory.read_congr fun y h1 h2 => e s hs y (by unfold inField; omega)
      simp only [probeFrom, e1, uidMatches_congr hu (e s hs), ih _ _ hs']
  exact key 16 _ none (homeSlot_lt uid)

theorem lookup_congr {m m' : Memory} {uid : List Byte} (hu : uid.length ≤ 10)
    (h : ∀ x, passBase 0 ≤ x → x < passBase passSlots → m'.byteAt x = m.byteAt x) : lookup m' uid = lookup m uid := by
  unfold lookup
  rw [probe_congr hu h]

/-- A hit is a LIVE slot of the table that holds the UID (R6). -/
theorem lookup_spec {m : Memory} {uid : List Byte} {slot : Nat} (h : lookup m uid = some slot) :
    slot < passSlots ∧ slotStateOf m slot = 1 ∧ uidMatches m slot uid = true := by
  have key : ∀ fuel s v, s < passSlots → (probeFrom m uid fuel s v).hit = some slot →
      slot < passSlots ∧ slotStateOf m slot = 1 ∧ uidMatches m slot uid = true := by
    intro fuel
    induction fuel with
    | zero => intro s v _ hh; simp [probeFrom] at hh
    | succ fuel ih =>
      intro s v hs hh
      have hs' : (s + 1) % passSlots < passSlots := Nat.mod_lt _ (by decide)
      simp only [probeFrom] at hh
      split at hh
      · simp at hh
      · split at hh
        · split at hh
          · simp only [Option.some.injEq] at hh
            subst hh
            exact ⟨hs, by assumption, by assumption⟩
          · exact ih _ _ hs' hh
        · exact ih _ _ hs' hh
  exact key 16 _ none (homeSlot_lt uid) h

/-- A vacant slot of a probe is a slot of the table that is not LIVE (R7). -/
theorem vacant_spec {m : Memory} {uid : List Byte} {slot : Nat} (h : (probe m uid).vacant = some slot) :
    slot < passSlots ∧ slotStateOf m slot ≠ 1 := by
  have key : ∀ fuel s v, s < passSlots → (∀ x, v = some x → x < passSlots ∧ slotStateOf m x ≠ 1) →
      (probeFrom m uid fuel s v).vacant = some slot → slot < passSlots ∧ slotStateOf m slot ≠ 1 := by
    intro fuel
    induction fuel with
    | zero => intro s v _ hv hh; exact hv _ hh
    | succ fuel ih =>
      intro s v hs hv hh
      have hs' : (s + 1) % passSlots < passSlots := Nat.mod_lt _ (by decide)
      have hv' : slotStateOf m s ≠ 1 → ∀ x, v.or (some s) = some x → x < passSlots ∧ slotStateOf m x ≠ 1 := by
        intro hne x hx
        cases v with
        | none => simp only [Option.none_or, Option.some.injEq] at hx; subst hx; exact ⟨hs, hne⟩
        | some y => simp only [Option.some_or] at hx; exact hv x hx
      simp only [probeFrom] at hh
      split at hh
      · exact hv' (by omega) _ hh
      · split at hh
        · split at hh
          · exact hv _ hh
          · exact ih _ _ hs' hv hh
        · exact ih _ _ hs' (hv' (by assumption)) hh
  exact key 16 _ none (homeSlot_lt uid) (by simp) h

/-! ### The scans' slots (R23, R142, R195) -/

theorem byteAt_of_mem {m : Memory} (h : m.wf) {c : Host.Cell} (hc : c ∈ m) : m.byteAt c.1 = c.2 := by
  induction m with
  | nil => simp at hc
  | cons d m ih =>
    have hd := Memory.wf_cons.1 h
    obtain ⟨a, b⟩ := d
    simp only [Memory.byteAt]
    rcases List.mem_cons.1 hc with rfl | hc
    · simp
    · have := hd.2.1 c hc
      dsimp only at this
      rw [if_neg (by omega), if_neg (by omega), ih hd.2.2 hc]

theorem mem_of_byteAt {m : Memory} {x : Nat} (hx : m.byteAt x ≠ 0) : (x, m.byteAt x) ∈ m := by
  induction m with
  | nil => simp [Memory.byteAt] at hx
  | cons d m ih =>
    obtain ⟨a, b⟩ := d
    simp only [Memory.byteAt] at hx ⊢
    split at hx
    · rename_i e; subst e; simp
    · split at hx
      · simp at hx
      · rename_i h1 h2
        rw [if_neg h1, if_neg h2]
        exact List.mem_cons_of_mem _ (ih hx)

theorem slotStateOf_eq (m : Memory) (slot : Nat) : slotStateOf m slot = (m.byteAt (passBase slot)).toNat := by
  simp [slotStateOf, Memory.read]

/-- The LIVE slots of a range. -/
theorem mem_liveSlots {m : Memory} (h : m.wf) {lo hi slot : Nat} :
    slot ∈ liveSlots m lo hi ↔ lo ≤ slot ∧ slot < hi ∧ slotStateOf m slot = 1 := by
  unfold liveSlots
  rw [List.mem_filterMap]
  constructor
  · rintro ⟨c, hc, he⟩
    split at he
    · rename_i hif
      simp only [Bool.and_eq_true, decide_eq_true_eq] at hif
      simp only [Option.some.injEq] at he
      unfold passBase at *
      have hb := byteAt_of_mem h hc
      have e : c.1 = passBase slot := by unfold passBase; omega
      refine ⟨by omega, by omega, ?_⟩
      rw [slotStateOf_eq, ← e, hb, hif.2]
      rfl
    · simp at he
  · rintro ⟨h1, h2, h3⟩
    rw [slotStateOf_eq] at h3
    have hv : m.byteAt (passBase slot) = 1 := BitVec.eq_of_toNat_eq h3
    have hm := mem_of_byteAt (m := m) (x := passBase slot) (by rw [hv]; decide)
    refine ⟨_, hm, ?_⟩
    rw [hv]
    unfold passBase
    rw [if_pos (by simp; omega)]
    simp only [Option.some.injEq]
    omega

/-- They come in ascending order. -/
theorem liveSlots_ascending {m : Memory} (h : m.wf) (lo hi : Nat) : List.Pairwise (· < ·) (liveSlots m lo hi) := by
  unfold liveSlots
  rw [List.pairwise_filterMap]
  refine h.1.imp fun {a b} hab c hc d hd => ?_
  split at hc <;> split at hd <;> simp_all
  unfold passBase at *
  omega

end Sys2Proof.Machine
end

