-- ==== Sys2Proof/Laws/Products.lean ====
section
/-! SUPPORT. Product records, the Staging Area and the Closure List: what is written reads back, and nothing else changes. -/

namespace Sys2Proof.Machine

/-! ### Product records (Table 10) -/

/-- The fields of a record fit their bytes. -/
structure Product.Fits (p : Product) : Prop where
  daysBought : p.daysBought < 256
  span : p.span < 256
  activation : p.activation < 65536
  ridesInitial : p.ridesInitial < 65536
  mask : p.mask < 4294967296
  openMinute : p.openMinute < 65536
  closeMinute : p.closeMinute < 65536
  passback : p.passback < 65536
  cutoff : p.cutoff < 65536
  fee : p.fee < 65536
  rounding : p.rounding < 65536
  late : p.late < 65536
  deadline : p.deadline < 65536
  length : p.ladder.length = 14
  ladder : ∀ x ∈ p.ladder, x < 16777216

/-- What memory holds fits. -/
theorem readProductAt_fits (m : Memory) (a : Nat) : (readProductAt m a).Fits where
  daysBought := m.read_lt _ 1
  span := m.read_lt _ 1
  activation := m.read_lt _ 2
  ridesInitial := m.read_lt _ 2
  mask := m.read_lt _ 4
  openMinute := m.read_lt _ 2
  closeMinute := m.read_lt _ 2
  passback := m.read_lt _ 2
  cutoff := m.read_lt _ 2
  fee := m.read_lt _ 2
  rounding := m.read_lt _ 2
  late := m.read_lt _ 2
  deadline := m.read_lt _ 2
  length := by simp [readProductAt]
  ladder := by
    intro x hx
    simp only [readProductAt, List.mem_map] at hx
    obtain ⟨i, _, rfl⟩ := hx
    exact m.read_lt _ 3

theorem withdrawn_fits : Product.withdrawn.Fits := by
  constructor <;> decide

/-- Storing the unused fields as 0 keeps a record within its bytes (R17). -/
theorem clean_fits {p : Product} (f : p.Fits) : p.clean.Fits := by
  have act : (if p.floating = true then p.activation else 0) < 65536 := by
    split
    · exact f.activation
    · decide
  have zeros : ∀ x ∈ List.replicate 14 0, x < 16777216 := by decide
  have y : 0 < 256 := by decide
  have z : 0 < 65536 := by decide
  have lad : ∀ x ∈ (List.range 14).map (fun i => if i < p.daysBought then p.ladder.getD i 0 else 0), x < 16777216 := by
    intro x hx
    simp only [List.mem_map] at hx
    obtain ⟨i, _, rfl⟩ := hx
    split
    · rw [List.getD_eq_getElem?_getD]
      cases e : p.ladder[i]? with
      | none => decide
      | some y => exact f.ladder y (List.mem_of_getElem? e)
    · decide
  obtain ⟨f1, f2, f3, f4, f5, f6, f7, f8, f9, f10, f11, f12, f13, f14, f15⟩ := f
  unfold Product.clean
  split
  · exact withdrawn_fits
  · exact ⟨f1, f2, act, z, f5, f6, f7, f8, f9, f10, f11, f12, f13, by simp, lad⟩
  · exact ⟨y, f2, act, f4, f5, f6, f7, f8, z, f10, f11, f12, f13, by simp, zeros⟩
  · exact ⟨y, f2, act, z, f5, f6, f7, f8, z, z, z, z, z, by simp, zeros⟩

/-- A record reads by its 70 bytes alone. -/
theorem readProductAt_congr {m m' : Memory} {a : Nat} (h : ∀ x, inField a 70 x → m'.byteAt x = m.byteAt x) :
    readProductAt m' a = readProductAt m a := by
  have r : ∀ off n, off + n ≤ 70 → m'.read (a + off) n = m.read (a + off) n := fun off n ho =>
    Memory.read_congr fun y h1 h2 => h y (by unfold inField; omega)
  have b : m'.byteAt (a + 1) = m.byteAt (a + 1) := h _ (by unfold inField; omega)
  have r0 : m'.read a 1 = m.read a 1 := r 0 1 (by omega)
  have rl : (List.range 14).map (fun i => m'.read (a + 28 + 3 * i) 3) =
      (List.range 14).map (fun i => m.read (a + 28 + 3 * i) 3) := by
    apply List.map_congr_left
    intro i hi
    have : i < 14 := by simpa using hi
    rw [Nat.add_assoc]
    exact r _ 3 (by omega)
  unfold readProductAt
  rw [b, r0, rl, r 2 1 (by omega), r 3 1 (by omega), r 4 2 (by omega), r 6 2 (by omega), r 8 4 (by omega),
    r 12 2 (by omega), r 14 2 (by omega), r 16 2 (by omega), r 18 2 (by omega), r 20 2 (by omega), r 22 2 (by omega),
    r 24 2 (by omega), r 26 2 (by omega)]

theorem readProduct_congr {m m' : Memory} {i : Nat}
    (h : ∀ x, inField (productBase i) 70 x → m'.byteAt x = m.byteAt x) : readProduct m' i = readProduct m i :=
  readProductAt_congr h

/-- The flags byte of a record (Table 10). -/
theorem product_flags (a b : Bool) :
    (BitVec.ofNat 8 ((if a then 1 else 0) + (if b then 2 else 0))).getLsbD 0 = a
      ∧ (BitVec.ofNat 8 ((if a then 1 else 0) + (if b then 2 else 0))).getLsbD 1 = b := by
  cases a <;> cases b <;> decide

theorem kindOfCode_code (k : ProductKind) : kindOfCode (k.code % 256 ^ 1) = k := by cases k <;> rfl

/-- A record's bytes, field after field. -/
theorem Product.bytes_eq (p : Product) (post : List Byte) (l0 l1 l2 l3 l4 l5 l6 l7 l8 l9 l10 l11 l12 l13 : Nat)
    (hl : p.ladder = [l0, l1, l2, l3, l4, l5, l6, l7, l8, l9, l10, l11, l12, l13]) :
    p.bytes ++ post = le 1 p.kind.code ++ (le 1 ((if p.floating then 1 else 0) + (if p.refundable then 2 else 0))
      ++ (le 1 p.daysBought ++ (le 1 p.span ++ (le 2 p.activation ++ (le 2 p.ridesInitial ++ (le 4 p.mask
      ++ (le 2 p.openMinute ++ (le 2 p.closeMinute ++ (le 2 p.passback ++ (le 2 p.cutoff ++ (le 2 p.fee
      ++ (le 2 p.rounding ++ (le 2 p.late ++ (le 2 p.deadline ++ (le 3 l0 ++ (le 3 l1 ++ (le 3 l2 ++ (le 3 l3
      ++ (le 3 l4 ++ (le 3 l5 ++ (le 3 l6 ++ (le 3 l7 ++ (le 3 l8 ++ (le 3 l9 ++ (le 3 l10 ++ (le 3 l11 ++ (le 3 l12
      ++ (le 3 l13 ++ post)))))))))))))))))))))))))))) := by
  simp only [Product.bytes, hl, show List.range 14 = [0, 1, 2, 3, 4, 5, 6, 7, 8, 9, 10, 11, 12, 13] from rfl,
    List.map_cons, List.map_nil, List.flatten_cons, List.flatten_nil, List.getD_cons_zero, List.getD_cons_succ,
    List.append_assoc, List.append_nil]

/-- A record written anywhere reads back. -/
theorem readProductAt_written {m : Memory} (h : m.wf) (a : Nat) {p : Product} (f : p.Fits) (post : List Byte) :
    readProductAt (m.writeBytes a (p.bytes ++ post)) a = p := by
  obtain ⟨l0, l1, l2, l3, l4, l5, l6, l7, l8, l9, l10, l11, l12, l13, hl⟩ :
      ∃ l0 l1 l2 l3 l4 l5 l6 l7 l8 l9 l10 l11 l12 l13,
        p.ladder = [l0, l1, l2, l3, l4, l5, l6, l7, l8, l9, l10, l11, l12, l13] := by
    match p.ladder, f.length with
    | [l0, l1, l2, l3, l4, l5, l6, l7, l8, l9, l10, l11, l12, l13], _ =>
      exact ⟨l0, l1, l2, l3, l4, l5, l6, l7, l8, l9, l10, l11, l12, l13, rfl⟩
  have e := p.bytes_eq post _ _ _ _ _ _ _ _ _ _ _ _ _ _ hl
  obtain ⟨bs, hb⟩ : ∃ bs, p.bytes ++ post = bs := ⟨_, rfl⟩
  rw [hb] at e ⊢
  have rd : ∀ off n v, (bs.drop off).take n = le n v → v < 256 ^ n → (m.writeBytes a bs).read (a + off) n = v :=
    fun off n v hp hv => (read_writeBytes_part h a hp).trans (Nat.mod_eq_of_lt hv)
  simp only [le, List.cons_append, List.nil_append] at e
  have rl : ∀ i v, i < 14 → p.ladder[i]? = some v → (bs.drop (28 + 3 * i)).take 3 = le 3 v := by
    intro i v hi hv
    rw [hl] at hv
    rw [e]
    interval_cases i <;> simp only [List.getElem?_cons_zero, List.getElem?_cons_succ, Option.some.injEq] at hv <;>
      subst hv <;> rfl
  have fl := product_flags p.floating p.refundable
  have b1 : (m.writeBytes a bs).byteAt (a + 1) =
      BitVec.ofNat 8 ((if p.floating then 1 else 0) + (if p.refundable then 2 else 0)) :=
    byteAt_writeBytes_part h a (by rw [e]; rfl)
  have k0 : (m.writeBytes a bs).read a 1 = p.kind.code := by
    refine (rd 0 1 p.kind.code (by rw [e]; rfl) ?_)
    cases p.kind <;> decide
  have lad : (List.range 14).map (fun i => (m.writeBytes a bs).read (a + 28 + 3 * i) 3) = p.ladder := by
    apply List.ext_getElem?
    intro i
    rw [List.getElem?_map]
    rcases Nat.lt_or_ge i 14 with hi | hi
    · rw [List.getElem?_range hi]
      obtain ⟨v, hv⟩ : ∃ v, p.ladder[i]? = some v := by
        rw [List.getElem?_eq_getElem (by rw [f.length]; exact hi)]
        exact ⟨_, rfl⟩
      rw [hv, Option.map_some, Nat.add_assoc, rd _ 3 v (rl i v hi hv) (f.ladder v (List.mem_of_getElem? hv))]
    · rw [List.getElem?_eq_none (by simpa using hi), List.getElem?_eq_none (by rw [f.length]; exact hi)]
      rfl
  unfold readProductAt
  rw [b1, fl.1, fl.2, k0, lad, rd 2 1 p.daysBought (by rw [e]; rfl) f.daysBought, rd 3 1 p.span (by rw [e]; rfl) f.span,
    rd 4 2 p.activation (by rw [e]; rfl) f.activation, rd 6 2 p.ridesInitial (by rw [e]; rfl) f.ridesInitial,
    rd 8 4 p.mask (by rw [e]; rfl) f.mask, rd 12 2 p.openMinute (by rw [e]; rfl) f.openMinute,
    rd 14 2 p.closeMinute (by rw [e]; rfl) f.closeMinute, rd 16 2 p.passback (by rw [e]; rfl) f.passback,
    rd 18 2 p.cutoff (by rw [e]; rfl) f.cutoff, rd 20 2 p.fee (by rw [e]; rfl) f.fee,
    rd 22 2 p.rounding (by rw [e]; rfl) f.rounding, rd 24 2 p.late (by rw [e]; rfl) f.late,
    rd 26 2 p.deadline (by rw [e]; rfl) f.deadline]
  have kc : kindOfCode p.kind.code = p.kind := by cases p.kind <;> rfl
  rw [kc]

@[simp] theorem length_Product_bytes {p : Product} : p.bytes.length = 70 := by
  have : (List.map List.length ((List.range 14).map fun i => le 3 (p.ladder.getD i 0))).sum = 42 := by
    simp [show List.range 14 = [0, 1, 2, 3, 4, 5, 6, 7, 8, 9, 10, 11, 12, 13] from rfl]
  unfold Product.bytes
  rw [List.length_append, List.length_flatten, this]
  simp

theorem writeProduct_wf {m : Memory} (h : m.wf) (i : Nat) (p : Product) : (writeProduct m i p).wf :=
  Memory.writeBytes_wf (Memory.zeroRange_wf h _ _) _ _

theorem byteAt_writeProduct {m : Memory} (h : m.wf) (i : Nat) (p : Product) {x : Nat}
    (hx : ¬inField (productBase i) 128 x) : (writeProduct m i p).byteAt x = m.byteAt x := by
  unfold inField productBase at hx
  unfold writeProduct
  rw [Memory.byteAt_writeBytes_outside (Memory.zeroRange_wf h _ _) (by rw [length_Product_bytes]; unfold productBase; omega),
    Memory.byteAt_zeroRange h, if_neg (by unfold productBase; omega)]

/-- A record written at an index is the record in force there. -/
theorem readProduct_writeProduct {m : Memory} (h : m.wf) (i : Nat) {p : Product} (f : p.Fits) :
    readProduct (writeProduct m i p) i = p := by
  have := readProductAt_written (Memory.zeroRange_wf h (productBase i) (productBase (i + 1))) (productBase i) f []
  rw [List.append_nil] at this
  rw [readProduct, writeProduct]
  exact this

theorem readProduct_writeProduct_other {m : Memory} (h : m.wf) {i j : Nat} (p : Product) (hne : j ≠ i) :
    readProduct (writeProduct m i p) j = readProduct m j :=
  readProduct_congr fun x hx => byteAt_writeProduct h i p (by unfold inField productBase at *; omega)

/-! ### The Staging Area -/

theorem stagedBytes_length (i : Nat) (p : Product) : (stagedBytes i p).length = 128 := by
  simp [stagedBytes]

@[simp] theorem writeStagedFrom_nil (m : Memory) (i : Nat) : writeStagedFrom m i [] = m := rfl

theorem writeStagedFrom_cons (m : Memory) (i : Nat) (x : Nat × Product) (l : List (Nat × Product)) :
    writeStagedFrom m i (x :: l) = writeStagedFrom (m.writeBytes (stagingBase i) (stagedBytes x.1 x.2)) (i + 1) l := by
  simp only [writeStagedFrom, List.zipIdx_cons, List.foldl_cons]

theorem writeStagedFrom_wf {m : Memory} (h : m.wf) (i : Nat) (l : List (Nat × Product)) : (writeStagedFrom m i l).wf := by
  induction l generalizing m i with
  | nil => exact h
  | cons x l ih =>
    rw [writeStagedFrom_cons]
    exact ih (Memory.writeBytes_wf h _ _) _

theorem byteAt_writeStagedFrom {m : Memory} (h : m.wf) (i : Nat) (l : List (Nat × Product)) {x : Nat}
    (hx : x < stagingBase i ∨ stagingBase (i + l.length) ≤ x) : (writeStagedFrom m i l).byteAt x = m.byteAt x := by
  induction l generalizing m i with
  | nil => rfl
  | cons y l ih =>
    simp only [List.length_cons] at hx
    rw [writeStagedFrom_cons, ih (Memory.writeBytes_wf h _ _) _ (by unfold stagingBase at *; omega),
      Memory.byteAt_writeBytes_outside h (by rw [stagedBytes_length]; unfold stagingBase at *; omega)]

/-- What one position of the Staging Area holds. -/
def stagedAt (m : Memory) (i : Nat) : Option (Nat × Product) :=
  if m.read (stagingBase i + 127) 1 = 1 then
    some (m.read (stagingBase i + 126) 1, readProductAt m (stagingBase i))
  else none

theorem readStaging_eq (m : Memory) : readStaging m = (List.range 8).filterMap (stagedAt m) := rfl

theorem stagedAt_congr {m m' : Memory} {i : Nat} (h : ∀ x, inField (stagingBase i) 128 x → m'.byteAt x = m.byteAt x) :
    stagedAt m' i = stagedAt m i := by
  have r : ∀ off n, off + n ≤ 128 → m'.read (stagingBase i + off) n = m.read (stagingBase i + off) n := fun off n ho =>
    Memory.read_congr fun y h1 h2 => h y (by unfold inField; omega)
  unfold stagedAt
  rw [r 127 1 (by omega), r 126 1 (by omega), readProductAt_congr fun x hx => h x (by unfold inField at *; omega)]

/-- The Staging Area reads by its own bytes alone. -/
theorem readStaging_congr {m m' : Memory} (h : ∀ x, inField (stagingBase 0) 1024 x → m'.byteAt x = m.byteAt x) :
    readStaging m' = readStaging m := by
  rw [readStaging_eq, readStaging_eq]
  apply List.filterMap_congr
  intro i hi
  have : i < 8 := by simpa using hi
  exact stagedAt_congr fun x hx => h x (by unfold inField stagingBase at *; omega)

/-- Staged records fit their places, and there are at most 8 (R20). -/
theorem readStaging_fits {m : Memory} {x : Nat × Product} (h : x ∈ readStaging m) : x.1 < 256 ∧ x.2.Fits := by
  rw [readStaging_eq, List.mem_filterMap] at h
  obtain ⟨i, _, hi⟩ := h
  unfold stagedAt at hi
  split at hi
  · simp only [Option.some.injEq] at hi
    subst hi
    exact ⟨m.read_lt _ 1, readProductAt_fits _ _⟩
  · simp at hi

theorem readStaging_length (m : Memory) : (readStaging m).length ≤ 8 := by
  rw [readStaging_eq]
  exact (List.length_filterMap_le _ _).trans (by simp)

theorem filterMap_range_getElem? {α : Type} (l : List α) (k : Nat) :
    (List.range (l.length + k)).filterMap (fun j => l[j]?) = l := by
  have none_tail : ∀ (l : List α), ((List.range k).map (l.length + ·)).filterMap (fun j => l[j]?) = [] := by
    intro l
    simp
  rw [List.range_add, List.filterMap_append, none_tail, List.append_nil]
  induction l using List.reverseRecOn with
  | nil => rfl
  | append_singleton l x ih =>
    rw [List.length_append, List.length_singleton, List.range_succ, List.filterMap_append]
    have e : (List.range l.length).filterMap (fun j => (l ++ [x])[j]?) = (List.range l.length).filterMap (fun j => l[j]?) := by
      apply List.filterMap_congr
      intro j hj
      rw [List.getElem?_append_left (by simpa using hj)]
    rw [e, ih]
    simp

theorem stagedAt_writeStagedFrom {m : Memory} (h : m.wf) (i : Nat) (l : List (Nat × Product))
    (hf : ∀ x ∈ l, x.1 < 256 ∧ x.2.Fits) (j : Nat) (hj : j < l.length) :
    stagedAt (writeStagedFrom m i l) (i + j) = l[j]? := by
  induction l generalizing m i j with
  | nil => exact absurd hj (Nat.not_lt_zero _)
  | cons y l ih =>
    obtain ⟨index, p⟩ := y
    have hp := hf (index, p) List.mem_cons_self
    have w := Memory.writeBytes_wf h (stagingBase i) (stagedBytes index p)
    rw [writeStagedFrom_cons]
    dsimp only
    cases j with
    | zero =>
      have c : stagedAt (writeStagedFrom (m.writeBytes (stagingBase i) (stagedBytes index p)) (i + 1) l) i =
          stagedAt (m.writeBytes (stagingBase i) (stagedBytes index p)) i :=
        stagedAt_congr fun x hx => byteAt_writeStagedFrom w _ _ (by unfold inField stagingBase at *; omega)
      show stagedAt _ i = _
      rw [c]
      have hl : p.bytes.length = 70 := length_Product_bytes
      have d1 : ((stagedBytes index p).drop 127).take 1 = le 1 1 := by
        unfold stagedBytes
        rw [List.append_assoc, List.append_assoc, List.drop_append, List.drop_of_length_le (by omega), hl]
        rfl
      have d2 : ((stagedBytes index p).drop 126).take 1 = le 1 index := by
        unfold stagedBytes
        rw [List.append_assoc, List.append_assoc, List.drop_append, List.drop_of_length_le (by omega), hl]
        rfl
      have r1 := read_writeBytes_part h (stagingBase i) d1
      have r2 := (read_writeBytes_part h (stagingBase i) d2).trans (Nat.mod_eq_of_lt hp.1)
      have r3 := readProductAt_written h (stagingBase i) hp.2 (List.replicate 56 0 ++ (le 1 index ++ le 1 1))
      have e : stagedBytes index p = p.bytes ++ (List.replicate 56 0 ++ (le 1 index ++ le 1 1)) := by
        unfold stagedBytes
        rw [List.append_assoc, List.append_assoc]
      rw [← e] at r3
      unfold stagedAt
      rw [r1, r2, r3]
      rfl
    | succ j =>
      rw [show i + (j + 1) = i + 1 + j by omega, List.getElem?_cons_succ]
      exact ih w (i + 1) (fun x hx => hf x (List.mem_cons_of_mem _ hx)) j (by simpa using hj)

theorem writeStaging_wf {m : Memory} (h : m.wf) (l : List (Nat × Product)) : (writeStaging m l).wf :=
  writeStagedFrom_wf (Memory.zeroRange_wf h _ _) _ _

theorem byteAt_writeStaging {m : Memory} (h : m.wf) {l : List (Nat × Product)} (hl : l.length ≤ 8) {x : Nat}
    (hx : ¬inField (stagingBase 0) 1024 x) : (writeStaging m l).byteAt x = m.byteAt x := by
  unfold inField stagingBase at hx
  unfold writeStaging
  rw [byteAt_writeStagedFrom (Memory.zeroRange_wf h _ _) _ _ (by unfold stagingBase; omega), Memory.byteAt_zeroRange h,
    if_neg (by unfold stagingBase; omega)]

/-- A rewritten Staging Area holds exactly the records written. -/
theorem readStaging_writeStaging {m : Memory} (h : m.wf) {l : List (Nat × Product)} (hl : l.length ≤ 8)
    (hf : ∀ x ∈ l, x.1 < 256 ∧ x.2.Fits) : readStaging (writeStaging m l) = l := by
  have w := Memory.zeroRange_wf h (stagingBase 0) (stagingBase 8)
  rw [readStaging_eq]
  conv_rhs => rw [← filterMap_range_getElem? l (8 - l.length)]
  rw [show l.length + (8 - l.length) = 8 by omega]
  apply List.filterMap_congr
  intro j hj
  have hj : j < 8 := by simpa using hj
  rcases Nat.lt_or_ge j l.length with hlt | hge
  · have := stagedAt_writeStagedFrom w 0 l hf j hlt
    rwa [Nat.zero_add] at this
  · rw [List.getElem?_eq_none hge]
    have z : (writeStaging m l).read (stagingBase j + 127) 1 = 0 := by
      unfold writeStaging
      rw [Memory.read_congr fun y h1 h2 => byteAt_writeStagedFrom w 0 l (by unfold stagingBase at *; omega)]
      simp only [Memory.read, Memory.byteAt_zeroRange h]
      rw [if_pos (by unfold stagingBase; omega)]
      rfl
    unfold stagedAt
    rw [z, if_neg (by decide)]

/-! ### The Closure List (R137) -/

theorem clearClosures_wf {m : Memory} (h : m.wf) : (clearClosures m).wf := Memory.zeroRange_wf h _ _

theorem heldClosures_clearClosures {m : Memory} (h : m.wf) : heldClosures (clearClosures m) = [] := by
  unfold heldClosures
  rw [List.filter_eq_nil_iff]
  intro i hi
  have hi : i < 8 := by simpa using hi
  have z : (clearClosures m).read (closureBase i) 2 = 0 := by
    simp only [Memory.read, clearClosures, Memory.byteAt_zeroRange h]
    rw [if_pos (by unfold closureBase; omega), if_pos (by unfold closureBase; omega)]
    rfl
  simp [closureHeld, z]

theorem writeClosure_wf {m : Memory} (h : m.wf) (i : Nat) (c : Closure) : (writeClosure m i c).wf :=
  Memory.writeBytes_wf h _ _

theorem byteAt_writeClosure {m : Memory} (h : m.wf) (i : Nat) (c : Closure) {x : Nat} (hx : ¬inField (closureBase i) 16 x) :
    (writeClosure m i c).byteAt x = m.byteAt x := by
  unfold inField at hx
  exact Memory.byteAt_writeBytes_outside h (by simp; omega)

/-- A closure written at a position is HELD there as written. -/
theorem readClosure_writeClosure {m : Memory} (h : m.wf) (i : Nat) {c : Closure} (h1 : c.day < 65536)
    (h2 : c.startMinute < 65536) (h3 : c.endMinute < 65536) (h4 : c.reason < 256) :
    closureHeld (writeClosure m i c) i = true ∧ readClosure (writeClosure m i c) i = c := by
  obtain ⟨d, st, en, re⟩ := c
  dsimp only at h1 h2 h3 h4
  have rd : ∀ off n v, ((le 2 1 ++ le 2 d ++ le 2 st ++ le 2 en ++ le 1 re ++ List.replicate 7 (0 : Byte)).drop off).take n = le n v →
      v < 256 ^ n → (writeClosure m i ⟨d, st, en, re⟩).read (closureBase i + off) n = v :=
    fun off n v hp hv => (read_writeBytes_part h _ hp).trans (Nat.mod_eq_of_lt hv)
  have r0 : (writeClosure m i ⟨d, st, en, re⟩).read (closureBase i) 2 = 1 := rd 0 2 1 rfl (by decide)
  unfold closureHeld readClosure
  rw [r0, rd 2 2 d rfl h1, rd 4 2 st rfl h2, rd 6 2 en rfl h3, rd 8 1 re rfl h4]
  exact ⟨rfl, rfl⟩

/-- The list reads by its own bytes alone. -/
theorem closure_congr {m m' : Memory} {i : Nat} (h : ∀ x, inField (closureBase i) 16 x → m'.byteAt x = m.byteAt x) :
    closureHeld m' i = closureHeld m i ∧ readClosure m' i = readClosure m i := by
  have r : ∀ off n, off + n ≤ 16 → m'.read (closureBase i + off) n = m.read (closureBase i + off) n := fun off n ho =>
    Memory.read_congr fun y h1 h2 => h y (by unfold inField; omega)
  unfold closureHeld readClosure
  rw [show m'.read (closureBase i) 2 = m.read (closureBase i) 2 from r 0 2 (by omega), r 2 2 (by omega), r 4 2 (by omega),
    r 6 2 (by omega), r 8 1 (by omega)]
  exact ⟨rfl, rfl⟩

/-! ### Placing a record (R20, R21, R24) -/

theorem product_stageRecord (index : Nat) (p : Product) {s : State} (h : s.mem.wf)
    (hl : (∃ x ∈ readStaging s.mem, x.1 = index) ∨ (readStaging s.mem).length < 8) {x : Nat}
    (hx : ¬inField (stagingBase 0) 1024 x) : (stageRecord index p s).mem.byteAt x = s.mem.byteAt x := by
  unfold stageRecord
  apply byteAt_writeStaging h _ hx
  have := readStaging_length s.mem
  split
  · simpa using this
  · rename_i hn
    rcases hl with ⟨y, hy, he⟩ | hl
    · exact absurd (List.any_eq_true.2 ⟨y, hy, by simpa using he⟩) hn
    · simp only [List.length_append, List.length_singleton]; omega

/-- A staged record takes the place of one for the same index, or joins the end (R20). -/
theorem readStaging_stageRecord {index : Nat} (hi : index < 256) {p : Product} (f : p.Fits) {s : State} (h : s.mem.wf)
    (hl : (∃ x ∈ readStaging s.mem, x.1 = index) ∨ (readStaging s.mem).length < 8) :
    readStaging (stageRecord index p s).mem =
      if (∃ x ∈ readStaging s.mem, x.1 = index) then
        (readStaging s.mem).map fun x => if x.1 = index then (index, p) else x
      else readStaging s.mem ++ [(index, p)] := by
  have len := readStaging_length s.mem
  have e : (readStaging s.mem).any (fun x => x.1 = index) = true ↔ ∃ x ∈ readStaging s.mem, x.1 = index := by
    simp
  unfold stageRecord
  dsimp only
  by_cases hc : ∃ x ∈ readStaging s.mem, x.1 = index
  · rw [if_pos hc, if_pos (e.2 hc)]
    apply readStaging_writeStaging h (by simpa using len)
    intro x hx
    rw [List.mem_map] at hx
    obtain ⟨y, hy, rfl⟩ := hx
    split
    · exact ⟨hi, f⟩
    · exact readStaging_fits hy
  · rw [if_neg hc, if_neg (fun h => hc (e.1 h))]
    have hl : (readStaging s.mem).length < 8 := hl.resolve_left hc
    apply readStaging_writeStaging h (by simp only [List.length_append, List.length_singleton]; omega)
    intro x hx
    rw [List.mem_append, List.mem_singleton] at hx
    rcases hx with hx | rfl
    · exact readStaging_fits hx
    · exact ⟨hi, f⟩

/-- A record written at once is in force, and none is left staged for its index (R21). -/
theorem placeNow_spec {index : Nat} (hi : index ≤ 63) {p : Product} (f : p.Fits) {s : State} (h : s.mem.wf) :
    (placeNow index p s).mem.wf ∧ (placeNow index p s).product index = p
      ∧ readStaging (placeNow index p s).mem = (readStaging s.mem).filter (fun x => x.1 ≠ index)
      ∧ ∀ x, ¬inField (productBase index) 128 x → ¬inField (stagingBase 0) 1024 x →
          (placeNow index p s).mem.byteAt x = s.mem.byteAt x := by
  have w := writeProduct_wf h index p
  have st : readStaging (writeProduct s.mem index p) = readStaging s.mem :=
    readStaging_congr fun x hx => byteAt_writeProduct h index p (by unfold inField stagingBase productBase at *; omega)
  have len := readStaging_length s.mem
  have pr : ∀ m', (∀ x, inField (productBase index) 70 x → m'.byteAt x = (writeProduct s.mem index p).byteAt x) →
      readProduct m' index = p := fun m' hm => (readProduct_congr hm).trans (readProduct_writeProduct h index f)
  have hl : ((readStaging s.mem).filter (fun x => x.1 ≠ index)).length ≤ 8 :=
    (List.length_filter_le _ _).trans len
  unfold State.product
  by_cases hc : (readStaging s.mem).any (fun x => x.1 = index) = true
  · have e : (placeNow index p s).mem =
        writeStaging (writeProduct s.mem index p) ((readStaging s.mem).filter (fun x => x.1 ≠ index)) := by
      unfold placeNow
      dsimp only
      rw [st, if_pos hc]
    rw [e]
    refine ⟨writeStaging_wf w _, pr _ fun x hx => ?_, ?_, fun x h1 h2 => ?_⟩
    · exact byteAt_writeStaging w hl (by unfold inField stagingBase productBase at *; omega)
    · exact readStaging_writeStaging w hl fun x hx => readStaging_fits (List.mem_of_mem_filter hx)
    · exact (byteAt_writeStaging w hl h2).trans (byteAt_writeProduct h index p h1)
  · have e : (placeNow index p s).mem = writeProduct s.mem index p := by
      unfold placeNow
      dsimp only
      rw [st, if_neg hc]
    rw [e]
    refine ⟨w, pr _ fun _ _ => rfl, ?_, fun x h1 _ => byteAt_writeProduct h index p h1⟩
    rw [st]
    symm
    rw [List.filter_eq_self]
    intro x hx
    have : ¬x.1 = index := fun e => hc (List.any_eq_true.2 ⟨x, hx, by simpa using e⟩)
    simpa using this

end Sys2Proof.Machine
end

