-- ==== Sys2Proof/Laws/Lanes.lean ====
section
/-! SUPPORT. What cues, counts, SHOW requests and entries into states do to the lanes and ports. -/

namespace Sys2Proof.Machine

theorem lane_of_lanes {s t : State} (h : t.lanes = s.lanes) (n : Fin 4) : t.lane n = s.lane n := by
  unfold State.lane; rw [h]

theorem port_of_ports {s t : State} (h : t.ports = s.ports) (p : Fin 4) : t.port p = s.port p := by
  unfold State.port; rw [h]

/-! ### Cues (R174 to R176) -/

theorem startCue_lane_other {n m : Fin 4} (o : CueOutcome) (list : Fin 32) (s : State) (h : m ≠ n) :
    (startCue n o list s).lane m = s.lane m := lane_modLane_other s _ h

@[simp] theorem startCue_lane (n : Fin 4) (o : CueOutcome) (list : Fin 32) (s : State) :
    (startCue n o list s).lane n =
      let r := startPass ⟨readCueList s.mem list, cueRepeats s.mem list, list, o, 0, s.now⟩ s.now (s.lane n).levels
      { s.lane n with levels := r.1, cue := r.2 } := lane_modLane_same s n _

/-- An outcome handed to one lane leaves the others. -/
theorem handOutcome_lane_other {n m : Fin 4} (o : CueOutcome) (s : State) (h : m ≠ n) :
    (handOutcome n o s).lane m = s.lane m := by
  unfold handOutcome
  split
  · rfl
  · split
    · exact startCue_lane_other o _ s h
    · rfl

/-- An outcome handed to a lane changes its cue and levels alone. -/
theorem handOutcome_lane (n : Fin 4) (o : CueOutcome) (s : State) :
    (handOutcome n o s).lane n =
      { s.lane n with cue := ((handOutcome n o s).lane n).cue, levels := ((handOutcome n o s).lane n).levels } := by
  unfold handOutcome
  split
  · rfl
  · split
    · rw [startCue_lane]
    · rfl

/-- The bytes of the Cue Table (Table 5). -/
def inCueTable (x : Nat) : Prop := inField 0x1500 2048 x

theorem readCueList_congr {m m' : Memory} (list : Fin 32) (h : ∀ x, inCueTable x → m'.byteAt x = m.byteAt x) :
    readCueList m' list = readCueList m list ∧ cueRepeats m' list = cueRepeats m list := by
  have hl := list.isLt
  refine ⟨?_, ?_⟩
  · unfold readCueList
    apply List.map_congr_left
    intro i hi
    have hi : i < 16 := by simpa using hi
    have r : ∀ off n, off + n ≤ 4 → m'.read (cueBase list + 4 * i + off) n = m.read (cueBase list + 4 * i + off) n :=
      fun off n ho => Memory.read_congr fun y h1 h2 => h y (by unfold inCueTable inField cueBase at *; omega)
    unfold readCueEntry
    dsimp only
    have r0 := r 0 2 (by omega)
    rw [Nat.add_zero] at r0
    rw [r 2 1 (by omega), r 3 1 (by omega), r0]
  · unfold cueRepeats
    rw [h _ (by unfold inCueTable inField cueBase; omega)]

/-- What an outcome makes of a lane's cue depends on the lane's configuration, cue and levels, on whether it is DOWN, on
the Cue Table and on the tick. -/
theorem handOutcome_congr (n : Fin 4) (o : CueOutcome) {s t : State} (hc : (t.lane n).config = (s.lane n).config)
    (hd : (t.lane n).state.isDown = (s.lane n).state.isDown) (hq : (t.lane n).cue = (s.lane n).cue)
    (hl : (t.lane n).levels = (s.lane n).levels) (hn : t.now = s.now)
    (hm : ∀ x, inCueTable x → t.mem.byteAt x = s.mem.byteAt x) :
    ((handOutcome n o t).lane n).cue = ((handOutcome n o s).lane n).cue
      ∧ ((handOutcome n o t).lane n).levels = ((handOutcome n o s).lane n).levels := by
  unfold handOutcome
  rw [hd, hc]
  split
  · exact ⟨hq, hl⟩
  · split
    · rename_i list _
      obtain ⟨e1, e2⟩ := readCueList_congr list hm
      rw [startCue_lane, startCue_lane]
      dsimp only
      rw [e1, e2, hl, hn]
      exact ⟨rfl, rfl⟩
    · exact ⟨hq, hl⟩

/-- A READY cue, or one in its place (R175). -/
theorem handInPlaceOfReady_eq (n : Fin 4) (o : CueOutcome) (s : State) :
    handInPlaceOfReady n o s = handOutcome n (if ((s.lane n).config.cueFor o).isSome then o else .ready) s := by
  unfold handInPlaceOfReady
  split <;> rfl

/-! ### Entries into states -/

theorem enter_ready (l : Lane) :
    (l.enter (.ready none)).state = .ready none ∧ (l.enter (.ready none)).config = l.config
      ∧ (l.enter (.ready none)).cue = l.cue ∧ (l.enter (.ready none)).levels = l.levels
      ∧ (l.enter (.ready none)).window = l.window ∧ (l.enter (.ready none)).setup = l.setup
      ∧ (l.enter (.ready none)).latestEntry = l.latestEntry := by
  unfold Lane.enter
  split <;> exact ⟨rfl, rfl, rfl, rfl, rfl, rfl, rfl⟩

/-- Entering a state changes the state and at most the stuck timers. -/
theorem enter_lane (l : Lane) (st : LaneState) :
    l.enter st = { l with
      state := st, stuckEntry := (l.enter st).stuckEntry, stuckExit := (l.enter st).stuckExit
      stuckSwitch := (l.enter st).stuckSwitch } := by
  unfold Lane.enter
  split <;> rfl

theorem enterReadyWith_lane_other {n m : Fin 4} (o : CueOutcome) (s : State) (h : m ≠ n) :
    (enterReadyWith n o s).lane m = s.lane m := by
  unfold enterReadyWith
  rw [handInPlaceOfReady_eq, handOutcome_lane_other _ _ h, lane_modLane_other s _ h]

/-- A lane that enters READY with an outcome in place of READY's: its state, and what it keeps. -/
theorem enterReadyWith_lane (n : Fin 4) (o : CueOutcome) (s : State) :
    ((enterReadyWith n o s).lane n).state = .ready none ∧ ((enterReadyWith n o s).lane n).setup = (s.lane n).setup
      ∧ ((enterReadyWith n o s).lane n).window = (s.lane n).window
      ∧ ((enterReadyWith n o s).lane n).latestEntry = (s.lane n).latestEntry := by
  have e := enter_ready (s.lane n)
  unfold enterReadyWith
  rw [handInPlaceOfReady_eq, handOutcome_lane, lane_modLane_same]
  exact ⟨e.1, e.2.2.2.2.2.1, e.2.2.2.2.1, e.2.2.2.2.2.2⟩

/-- The cue a lane has once it enters READY with an outcome in place of READY's, where it was not DOWN. -/
theorem enterReadyWith_cue (n : Fin 4) (o : CueOutcome) {s : State} (h : (s.lane n).state.isDown = false) :
    ((enterReadyWith n o s).lane n).cue =
        ((handOutcome n (if ((s.lane n).config.cueFor o).isSome then o else .ready) s).lane n).cue
      ∧ ((enterReadyWith n o s).lane n).levels =
        ((handOutcome n (if ((s.lane n).config.cueFor o).isSome then o else .ready) s).lane n).levels := by
  have e := enter_ready (s.lane n)
  have ec : ((s.modLane n (·.enter (.ready none))).lane n).config = (s.lane n).config := by
    rw [lane_modLane_same]; exact e.2.1
  unfold enterReadyWith
  rw [handInPlaceOfReady_eq, ec]
  apply handOutcome_congr
  · exact ec
  · rw [lane_modLane_same, e.1, h]; rfl
  · rw [lane_modLane_same]; exact e.2.2.1
  · rw [lane_modLane_same]; exact e.2.2.2.1
  · rfl
  · intro x _; rfl

/-! ### Counts (R114, R121) -/

@[simp] theorem count_lane (n : Fin 4) (k : CountKind) (s : State) :
    (count n k s).lane n =
      { s.lane n with window := (s.lane n).window.map fun w => { w with counts := w.counts.add k } } :=
  lane_modLane_same s n _

theorem count_lane_other {n m : Fin 4} (k : CountKind) (s : State) (h : m ≠ n) : (count n k s).lane m = s.lane m :=
  lane_modLane_other s _ h

@[simp] theorem markPartial_lane (n : Fin 4) (s : State) :
    (markPartial n s).lane n = { s.lane n with window := (s.lane n).window.map fun w => { w with isPartial := true } } :=
  lane_modLane_same s n _

theorem markPartial_lane_other {n m : Fin 4} (s : State) (h : m ≠ n) : (markPartial n s).lane m = s.lane m :=
  lane_modLane_other s _ h

/-- A count adds once to the lane's window. -/
theorem count_once (n : Fin 4) (k : CountKind) (s : State) : countedOnce s (count n k s) n k := by
  unfold countedOnce
  rw [count_lane]

/-! ### SHOW and port service (R55, R57) -/

theorem sendShow_spec (p : Fin 4) (code : ShowCode) (v : Nat) (s : State) :
    showAsked s (sendShow p code v s) p ⟨code, v⟩ := by
  unfold showAsked Port.asked sendShow
  rw [port_modPort_same]
  cases h : (s.port p).sending <;> simp

theorem sendShow_port_other {p q : Fin 4} (code : ShowCode) (v : Nat) (s : State) (h : q ≠ p) :
    (sendShow p code v s).port q = s.port q := port_modPort_other s _ h

@[simp] theorem sendShow_lane (p : Fin 4) (code : ShowCode) (v : Nat) (s : State) (n : Fin 4) :
    (sendShow p code v s).lane n = s.lane n := rfl

theorem changeService_port (before after : State) (p : Fin 4) :
    (changeService before after).port p =
      if inService before p = false ∧ inService after p = true then (after.port p).enterService
      else if inService before p = true ∧ inService after p = false then (after.port p).leaveService
      else after.port p := by
  unfold changeService State.port
  rw [Quad.get_mapIdx]
  cases inService before p <;> cases inService after p <;> simp

/-- Where no lane changes role, port or the station its state, every port's service stands. -/
theorem changeService_same {before after : State} (h : ∀ p, inService before p = inService after p) :
    changeService before after = after := by
  have e : (changeService before after).ports = after.ports := by
    apply Quad.ext_get
    intro p
    have := changeService_port before after p
    rw [h p] at this
    unfold State.port at this
    rw [this]
    cases inService after p <;> simp
  calc
    changeService before after = { after with ports := (changeService before after).ports } := rfl
    _ = after := by rw [e]

/-! ### Windows (R123, R124) -/

theorem with_mem_lanes (s : State) (m : Memory) : ({ s with mem := m } : State).lanes = s.lanes := rfl

theorem with_mem_mem (s : State) (m : Memory) : ({ s with mem := m } : State).mem = m := rfl

theorem openWindow_lanes (n : Fin 4) (w : Window) (s : State) :
    (openWindow n w s).lanes = (s.modLane n fun l => { l with window := some w }).lanes :=
  with_mem_lanes (s.modLane n _) _

theorem openWindow_mem (n : Fin 4) (w : Window) (s : State) :
    (openWindow n w s).mem = syncWords [] (wordsFrom (laneBlockBase n.val + 80) (windowBytes w)) s.mem :=
  with_mem_mem (s.modLane n _) _

theorem closeWindow_lanes (n : Fin 4) (w : Window) (len : Nat) (s : State) :
    (closeWindow n w len s).lanes = (s.modLane n fun l => { l with
      window := none, flowPosition := some (nextFlowPosition (s.lane n).flowPosition)
      flowNumber := nextFlowNumber (s.lane n).flowNumber }).lanes :=
  with_mem_lanes (s.modLane n _) _

theorem closeWindow_mem (n : Fin 4) (w : Window) (len : Nat) (s : State) :
    (closeWindow n w len s).mem = syncWords [] (wordsFrom (laneBlockBase n.val + 80) (windowBytes w))
      ((s.mem.writeBytes (flowBase n.val (nextFlowPosition (s.lane n).flowPosition))
        (flowBytes (nextFlowNumber (s.lane n).flowNumber) (w.index * s.options.windowLength) len w)).write
          (hdrFlow n.val) 2 (nextFlowPosition (s.lane n).flowPosition)) :=
  with_mem_mem (s.modLane n _) _

@[simp] theorem openWindow_lane (n : Fin 4) (w : Window) (s : State) :
    (openWindow n w s).lane n = { s.lane n with window := some w } := by
  rw [lane_of_lanes (openWindow_lanes n w s), lane_modLane_same]

theorem openWindow_lane_other {n m : Fin 4} (w : Window) (s : State) (h : m ≠ n) :
    (openWindow n w s).lane m = s.lane m := by
  rw [lane_of_lanes (openWindow_lanes n w s), lane_modLane_other _ _ h]

@[simp] theorem closeWindow_lane (n : Fin 4) (w : Window) (len : Nat) (s : State) :
    (closeWindow n w len s).lane n = { s.lane n with
      window := none, flowPosition := some (nextFlowPosition (s.lane n).flowPosition)
      flowNumber := nextFlowNumber (s.lane n).flowNumber } := by
  rw [lane_of_lanes (closeWindow_lanes n w len s), lane_modLane_same]

theorem closeWindow_lane_other {n m : Fin 4} (w : Window) (len : Nat) (s : State) (h : m ≠ n) :
    (closeWindow n w len s).lane m = s.lane m := by
  rw [lane_of_lanes (closeWindow_lanes n w len s), lane_modLane_other _ _ h]

theorem nextFlowPosition_lt (p : Option Nat) : nextFlowPosition p < 64 := by
  cases p with
  | none => decide
  | some p => exact Nat.mod_lt _ (by decide)

theorem openWindow_wf (n : Fin 4) (w : Window) {s : State} (h : s.mem.wf) : (openWindow n w s).mem.wf := by
  rw [openWindow_mem]
  exact syncWords_wf h _ _

theorem closeWindow_wf (n : Fin 4) (w : Window) (len : Nat) {s : State} (h : s.mem.wf) : (closeWindow n w len s).mem.wf := by
  rw [closeWindow_mem]
  exact syncWords_wf (Memory.write_wf (Memory.writeBytes_wf h _ _) _ _ _) _ _

/-- Opening a window writes the window's mirror alone. -/
theorem byteAt_openWindow (n : Fin 4) (w : Window) {s : State} (h : s.mem.wf) {x : Nat}
    (hx : ¬inField (laneBlockBase n.val + 80) 22 x) : (openWindow n w s).mem.byteAt x = s.mem.byteAt x := by
  unfold inField at hx
  rw [openWindow_mem]
  apply byteAt_syncWords_outside h
  intro v hv
  have := wordsFrom_within hv
  rw [length_windowBytes] at this
  omega

/-- Closing a window writes its record, the header's index and the window's mirror alone. -/
theorem byteAt_closeWindow (n : Fin 4) (w : Window) (len : Nat) {s : State} (h : s.mem.wf) {x : Nat}
    (h1 : ¬inField (laneBlockBase n.val + 80) 22 x) (h2 : ¬inField (hdrFlow n.val) 2 x)
    (h3 : ¬inField (flowBase n.val (nextFlowPosition (s.lane n).flowPosition)) 32 x) :
    (closeWindow n w len s).mem.byteAt x = s.mem.byteAt x := by
  unfold inField at h1 h2 h3
  have w1 := Memory.writeBytes_wf h (flowBase n.val (nextFlowPosition (s.lane n).flowPosition))
    (flowBytes (nextFlowNumber (s.lane n).flowNumber) (w.index * s.options.windowLength) len w)
  rw [closeWindow_mem]
  refine (byteAt_syncWords_outside (Memory.write_wf w1 _ _ _) ?_).trans ?_
  · intro v hv
    have := wordsFrom_within hv
    rw [length_windowBytes] at this
    omega
  · rw [Memory.byteAt_write_outside w1 (by omega),
      Memory.byteAt_writeBytes_outside h (by rw [length_flowBytes]; omega)]

/-- A closed window's flow record stands in the ring, and the header names its position. -/
theorem closeWindow_record (n : Fin 4) (w : Window) (len : Nat) {s : State} (h : s.mem.wf) :
    let p := nextFlowPosition (s.lane n).flowPosition
    (closeWindow n w len s).mem.readBytes (flowBase n.val p) 32 =
        flowBytes (nextFlowNumber (s.lane n).flowNumber) (w.index * s.options.windowLength) len w
      ∧ (closeWindow n w len s).peek (hdrFlow n.val) 2 = p := by
  intro p
  have hp : p < 64 := nextFlowPosition_lt _
  have hn := n.isLt
  have w1 := Memory.writeBytes_wf h (flowBase n.val p)
    (flowBytes (nextFlowNumber (s.lane n).flowNumber) (w.index * s.options.windowLength) len w)
  have w2 := Memory.write_wf w1 (hdrFlow n.val) 2 p
  have out : ∀ x, ¬inField (laneBlockBase n.val + 80) 22 x →
      (closeWindow n w len s).mem.byteAt x = ((s.mem.writeBytes (flowBase n.val p)
        (flowBytes (nextFlowNumber (s.lane n).flowNumber) (w.index * s.options.windowLength) len w)).write
          (hdrFlow n.val) 2 p).byteAt x := by
    intro x hx
    rw [closeWindow_mem]
    apply byteAt_syncWords_outside w2
    intro v hv
    have := wordsFrom_within hv
    rw [length_windowBytes] at this
    unfold inField at hx
    omega
  constructor
  · have e := Memory.readBytes_writeBytes h (flowBase n.val p)
      (flowBytes (nextFlowNumber (s.lane n).flowNumber) (w.index * s.options.windowLength) len w)
    rw [length_flowBytes] at e
    refine (Memory.readBytes_congr fun y h1 h2 => ?_).trans e
    rw [out y (by unfold inField laneBlockBase flowBase at *; omega)]
    exact Memory.byteAt_write_outside w1 (by unfold hdrFlow flowBase at *; omega)
  · refine (Memory.read_congr fun y h1 h2 => out y ?_).trans ?_
    · unfold inField laneBlockBase hdrFlow at *
      omega
    · rw [Memory.read_write w1]
      omega

/-! ### The canonical form through every shared operation -/

theorem startCue_wf (n : Fin 4) (o : CueOutcome) (list : Fin 32) {s : State} (h : s.mem.wf) :
    (startCue n o list s).mem.wf := h

theorem stationRecord_wf (ev : StationEvent) (b : Bool) (d m : Nat) {s : State} (h : s.mem.wf) :
    (stationRecord ev b d m s).mem.wf := appendUnpledged_wf _ h

theorem laneRecord_wf (n : Fin 4) (b : Bool) {s : State} (h : s.mem.wf) : (laneRecord n b s).mem.wf :=
  appendUnpledged_wf _ h

theorem pokeResult_wf (k : Fin 32) (off : Nat) (bs : List Byte) {s : State} (h : s.mem.wf) :
    (pokeResult k off bs s).mem.wf := Memory.writeBytes_wf h _ _

theorem writeTimeMirror_wf {s : State} (h : s.mem.wf) : (writeTimeMirror s).mem.wf :=
  Memory.write_wf (Memory.write_wf h _ _ _) _ _ _

theorem denyCore_wf (n p : Fin 4) (uid : List Byte) (slot : Option Nat) (r : DenyReason) (e : ReferralEnd) {s : State}
    (h : s.mem.wf) : (denyCore n p uid slot r e s).mem.wf := by
  unfold denyCore
  rw [count_mem, sendShow_mem]
  exact appendUnpledged_wf _ h

theorem voidCore_wf (n : Fin 4) (g : Grant) (c : VoidCause) {s : State} (h : s.mem.wf) : (voidCore n g c s).mem.wf := by
  unfold voidCore
  dsimp only
  rw [count_mem]
  exact appendPledged_wf _ (setMarker_wf _ _ h)

theorem denyReferralToReady_wf (n : Fin 4) (r : Referral) (slot : Option Nat) (w : DenyReason) (e : ReferralEnd)
    {s : State} (h : s.mem.wf) : (denyReferralToReady n r slot w e s).mem.wf := by
  unfold denyReferralToReady
  rw [enterReadyWith_mem]
  exact denyCore_wf _ _ _ _ _ _ h

theorem denyReferralOnward_wf (n : Fin 4) (r : Referral) (w : DenyReason) (e : ReferralEnd) {s : State} (h : s.mem.wf) :
    (denyReferralOnward n r w e s).mem.wf := by
  unfold denyReferralOnward
  rw [handOutcome_mem]
  exact denyCore_wf _ _ _ _ _ _ h

theorem voidToReady_wf (n : Fin 4) (g : Grant) (c : VoidCause) {s : State} (h : s.mem.wf) :
    (voidToReady n g c s).mem.wf := by
  unfold voidToReady
  rw [enterReadyWith_mem]
  exact voidCore_wf _ _ _ h

theorem voidOnward_wf (n : Fin 4) (g : Grant) (c : VoidCause) {s : State} (h : s.mem.wf) :
    (voidOnward n g c s).mem.wf := by
  unfold voidOnward
  rw [handOutcome_mem]
  exact voidCore_wf _ _ _ h

theorem applyConfig_wf (n : Fin 4) (c : LaneConfig) {s : State} (h : s.mem.wf) : (applyConfig n c s).mem.wf := by
  unfold applyConfig
  dsimp only
  apply laneRecord_wf
  rw [markPartial_mem, changeService_mem]
  exact h

end Sys2Proof.Machine
end

