-- ==== Sys2Proof/Laws/PerInstr.lean ====
section
/-! SUPPORT. The per-command family `WellFormedBody`: what well-formedness says of the frame a command delivers. -/

namespace Sys2Proof.Laws.WellFormedBody

/-- The body a command's line carries in a well-summed frame, with whether R49 accepts it; none for a command that
delivers no such frame. -/
def delivered : Instr → Option (List Byte × Bool)
  | .tap _ quality stamp uid => some (Machine.tapBody quality stamp uid, true)
  | .gone _ uid => some (Machine.goneBody uid, true)
  | .status _ code => some ([0x03, code], true)
  | .malformedFrame _ body => some (body, false)
  | _ => none

/-- A well-formed command's body has 1 to 24 bytes (R43), and R49 accepts it exactly where the row says so. -/
def Statement (i : Instr) : Prop :=
  i.wellFormed = true → ∀ body ok, delivered i = some (body, ok) →
    1 ≤ body.length ∧ body.length ≤ 24 ∧ bodyIsValidFrame body = ok

theorem uid_bounds {uid : List Byte} (h : uidLengthOk uid.length = true) :
    uid.length = 4 ∨ uid.length = 7 ∨ uid.length = 10 := by
  simpa [uidLengthOk, or_assoc] using h

theorem uid_code {uid : List Byte} (h : uidLengthOk uid.length = true) :
    (BitVec.ofNat 8 uid.length).toNat = uid.length := by
  rcases uid_bounds h with e | e | e <;> rw [e] <;> rfl

theorem powerOnReset : Statement .powerOnReset := fun _ _ _ e => nomatch e
theorem pinReset : Statement .pinReset := fun _ _ _ e => nomatch e
theorem fillDone (straps : BitVec 6) : Statement (.fillDone straps) := fun _ _ _ e => nomatch e
theorem restartScanDone (straps : BitVec 6) : Statement (.restartScanDone straps) := fun _ _ _ e => nomatch e
theorem tick (sense : BitVec 16) : Statement (.tick sense) := fun _ _ _ e => nomatch e
theorem rollover : Statement .rollover := fun _ _ _ e => nomatch e
theorem windowEnd : Statement .windowEnd := fun _ _ _ e => nomatch e
theorem tap (port : Fin 4) (quality : Byte) (stamp : Word) (uid : List Byte) : Statement (.tap port quality stamp uid) := by
  intro h body ok e
  simp only [Instr.wellFormed, Bool.and_eq_true, decide_eq_true_eq] at h
  simp only [delivered, Option.some.injEq, Prod.mk.injEq] at e
  obtain ⟨rfl, rfl⟩ := e
  have b := uid_bounds h.2
  have v : bodyIsValidFrame (Machine.tapBody quality stamp uid) =
      (decide (quality.toNat ≤ 3) && uidLengthOk (BitVec.ofNat 8 uid.length).toNat
        && decide (uid.length = (BitVec.ofNat 8 uid.length).toNat)) := rfl
  rw [v, uid_code h.2, h.2, decide_eq_true h.1]
  simp [Machine.tapBody]
  omega
theorem gone (port : Fin 4) (uid : List Byte) : Statement (.gone port uid) := by
  intro h body ok e
  simp only [Instr.wellFormed] at h
  simp only [delivered, Option.some.injEq, Prod.mk.injEq] at e
  obtain ⟨rfl, rfl⟩ := e
  have b := uid_bounds h
  have v : bodyIsValidFrame (Machine.goneBody uid) =
      (uidLengthOk (BitVec.ofNat 8 uid.length).toNat && decide (uid.length = (BitVec.ofNat 8 uid.length).toNat)) := rfl
  rw [v, uid_code h, h]
  simp [Machine.goneBody]
  omega
theorem status (port : Fin 4) (code : Byte) : Statement (.status port code) := by
  intro h body ok e
  simp only [delivered, Option.some.injEq, Prod.mk.injEq] at e
  obtain ⟨rfl, rfl⟩ := e
  exact ⟨by simp, by simp, h⟩
theorem badFrame (port : Fin 4) (line : List LineByte) : Statement (.badFrame port line) := fun _ _ _ e => nomatch e
theorem malformedFrame (port : Fin 4) (b : List Byte) : Statement (.malformedFrame port b) := by
  intro h body ok e
  simp only [Instr.wellFormed, Bool.and_eq_true, decide_eq_true_eq, Bool.not_eq_true'] at h
  simp only [delivered, Option.some.injEq, Prod.mk.injEq] at e
  obtain ⟨rfl, rfl⟩ := e
  exact ⟨h.1.1, h.1.2, h.2⟩
theorem gapTimeout (port : Fin 4) : Statement (.gapTimeout port) := fun _ _ _ e => nomatch e
theorem silent (port : Fin 4) : Statement (.silent port) := fun _ _ _ e => nomatch e
theorem showEnd (port : Fin 4) : Statement (.showEnd port) := fun _ _ _ e => nomatch e
theorem tapTake : Statement .tapTake := fun _ _ _ e => nomatch e
theorem grantWindow (lane : Fin 4) : Statement (.grantWindow lane) := fun _ _ _ e => nomatch e
theorem holdLimit (lane : Fin 4) : Statement (.holdLimit lane) := fun _ _ _ e => nomatch e
theorem referralTimeout (lane : Fin 4) : Statement (.referralTimeout lane) := fun _ _ _ e => nomatch e
theorem sweep : Statement .sweep := fun _ _ _ e => nomatch e
theorem insertPass (slot : Fin 32) : Statement (.insertPass slot) := fun _ _ _ e => nomatch e
theorem amendPass (slot : Fin 32) : Statement (.amendPass slot) := fun _ _ _ e => nomatch e
theorem removePass (slot : Fin 32) : Statement (.removePass slot) := fun _ _ _ e => nomatch e
theorem readPass (slot : Fin 32) : Statement (.readPass slot) := fun _ _ _ e => nomatch e
theorem declineReferral (slot : Fin 32) : Statement (.declineReferral slot) := fun _ _ _ e => nomatch e
theorem settlePassQuote (slot : Fin 32) : Statement (.settlePassQuote slot) := fun _ _ _ e => nomatch e
theorem settlePassFinal (slot : Fin 32) : Statement (.settlePassFinal slot) := fun _ _ _ e => nomatch e
theorem stageProduct (slot : Fin 32) : Statement (.stageProduct slot) := fun _ _ _ e => nomatch e
theorem withdrawalScan : Statement .withdrawalScan := fun _ _ _ e => nomatch e
theorem postClosure (slot : Fin 32) : Statement (.postClosure slot) := fun _ _ _ e => nomatch e
theorem creditSweep : Statement .creditSweep := fun _ _ _ e => nomatch e
theorem setTime (slot : Fin 32) : Statement (.setTime slot) := fun _ _ _ e => nomatch e
theorem setLane (slot : Fin 32) : Statement (.setLane slot) := fun _ _ _ e => nomatch e
theorem mapInputs (slot : Fin 32) : Statement (.mapInputs slot) := fun _ _ _ e => nomatch e
theorem freeFlowOn (slot : Fin 32) : Statement (.freeFlowOn slot) := fun _ _ _ e => nomatch e
theorem freeFlowOff (slot : Fin 32) : Statement (.freeFlowOff slot) := fun _ _ _ e => nomatch e
theorem unknownKind (slot : Fin 32) : Statement (.unknownKind slot) := fun _ _ _ e => nomatch e
theorem runRequest : Statement .runRequest := fun _ _ _ e => nomatch e
theorem quietRequest : Statement .quietRequest := fun _ _ _ e => nomatch e
theorem attnClear (value : Word) : Statement (.attnClear value) := fun _ _ _ e => nomatch e
theorem attnMaskWrite (value : Word) : Statement (.attnMaskWrite value) := fun _ _ _ e => nomatch e
theorem registerWrite (rs : Bool) (address : BitVec 17) (value : Word) : Statement (.registerWrite rs address value) := fun _ _ _ e => nomatch e
theorem presenceSample : Statement .presenceSample := fun _ _ _ e => nomatch e
theorem journalReadIndex (value : Word) : Statement (.journalReadIndex value) := fun _ _ _ e => nomatch e
theorem indexPulse (lane : Fin 4) : Statement (.indexPulse lane) := fun _ _ _ e => nomatch e
theorem entryBeamBlock (lane : Fin 4) : Statement (.entryBeamBlock lane) := fun _ _ _ e => nomatch e
theorem entryBeamClear (lane : Fin 4) : Statement (.entryBeamClear lane) := fun _ _ _ e => nomatch e
theorem exitBeamBlock (lane : Fin 4) : Statement (.exitBeamBlock lane) := fun _ _ _ e => nomatch e
theorem exitBeamClear (lane : Fin 4) : Statement (.exitBeamClear lane) := fun _ _ _ e => nomatch e
theorem passingEnd (lane : Fin 4) : Statement (.passingEnd lane) := fun _ _ _ e => nomatch e
theorem settle (lane : Fin 4) : Statement (.settle lane) := fun _ _ _ e => nomatch e
theorem beamStuck (lane : Fin 4) (exit : Bool) : Statement (.beamStuck lane exit) := fun _ _ _ e => nomatch e
theorem switchStuck (lane : Fin 4) : Statement (.switchStuck lane) := fun _ _ _ e => nomatch e
theorem duckWatchClose (lane : Fin 4) : Statement (.duckWatchClose lane) := fun _ _ _ e => nomatch e
theorem captureSwitchActivation (lane : Fin 4) : Statement (.captureSwitchActivation lane) := fun _ _ _ e => nomatch e
theorem captureSwitchRelease (lane : Fin 4) : Statement (.captureSwitchRelease lane) := fun _ _ _ e => nomatch e
theorem captureTimeout (lane : Fin 4) : Statement (.captureTimeout lane) := fun _ _ _ e => nomatch e
theorem evacuate : Statement .evacuate := fun _ _ _ e => nomatch e
theorem evacuateLow : Statement .evacuateLow := fun _ _ _ e => nomatch e
theorem lockPulseEnd (lane : Fin 4) : Statement (.lockPulseEnd lane) := fun _ _ _ e => nomatch e
theorem cueEntry (lane : Fin 4) : Statement (.cueEntry lane) := fun _ _ _ e => nomatch e
theorem frameDroppedForLength (port : Fin 4) (length : Byte) : Statement (.frameDroppedForLength port length) := fun _ _ _ e => nomatch e

end Sys2Proof.Laws.WellFormedBody
end

