-- ==== Sys2Proof/Tests/Slice0.lean ====
section
/-! SUPPORT. Tests whose expected results are the manual's worked examples, a smoke test of WellFormed, and for each
statement with hypotheses a state and operands that meet them together. -/

namespace Sys2Proof.Machine

set_option Elab.async false

/-! ### The state of the tests -/

/-- The state an outcome answers; the reset state where it answers none. -/
def answered : Host.Outcome State Fault Refusal → State
  | .next t => t
  | _ => .reset

/-- The card of the manual's examples, and another. -/
def cardA : List Byte := [0x04, 0xA1, 0x3C, 0x7E]
def cardB : List Byte := [1, 2, 3, 4]

/-- The six-day product of 10_settlement's worked example; what that example leaves out is chosen (lift 7 alone admits). -/
def sixDay : Product :=
  ⟨.days, true, true, 6, 10, 30, 0, 0x80, 0, 1440, 10, 720, 1500, 500, 750, 30,
    [8900, 17200, 24900, 31800, 37800, 43200, 0, 0, 0, 0, 0, 0, 0, 0]⟩

/-- The ride-count product of the same chapter. -/
def rides30 : Product :=
  ⟨.rides, true, true, 0, 10, 30, 30, 0x80, 0, 1440, 0, 0, 250, 50, 1000, 0, List.replicate 14 0⟩

/-- The six-day pass: paid 41,400, first valid day 811, U = 3 and C = 1, last used on day 816. -/
def sixPass : PassEntry :=
  ⟨1, 4, cardA ++ List.replicate 6 0, 0x0102, 3, 0, 805, some 811, some 816, 259, some 600, some 812, 41400, none⟩

/-- The ride-count pass: paid 9,999, 11 rides left. -/
def ridePass : PassEntry :=
  ⟨1, 4, cardB ++ List.replicate 6 0, 0x0102, 9, 0, 805, some 811, some 816, 11, some 600, none, 9999, none⟩

/-- Station memory with product 3, product 9 and the six-day pass in slot 1,695, as cells. -/
def testMem : Memory :=
  [(0x1E80, 1), (0x1E81, 3), (0x1E82, 6), (0x1E83, 10), (0x1E84, 30), (0x1E88, 128), (0x1E8E, 160),
   (0x1E8F, 5), (0x1E90, 10), (0x1E92, 208), (0x1E93, 2), (0x1E94, 220), (0x1E95, 5), (0x1E96, 244),
   (0x1E97, 1), (0x1E98, 238), (0x1E99, 2), (0x1E9A, 30), (0x1E9C, 196), (0x1E9D, 34), (0x1E9F, 48),
   (0x1EA0, 67), (0x1EA2, 68), (0x1EA3, 97), (0x1EA5, 56), (0x1EA6, 124), (0x1EA8, 168), (0x1EA9, 147),
   (0x1EAB, 192), (0x1EAC, 168), (0x2180, 2), (0x2181, 3), (0x2183, 10), (0x2184, 30), (0x2186, 30),
   (0x2188, 128), (0x218E, 160), (0x218F, 5), (0x2194, 250), (0x2196, 50), (0x2198, 232), (0x2199, 3),
   (0x1B5E0, 1), (0x1B5E1, 4), (0x1B5E2, 4), (0x1B5E3, 161), (0x1B5E4, 60), (0x1B5E5, 126), (0x1B5EC, 2),
   (0x1B5ED, 1), (0x1B5EE, 3), (0x1B5F0, 37), (0x1B5F1, 3), (0x1B5F2, 43), (0x1B5F3, 3), (0x1B5F4, 48),
   (0x1B5F5, 3), (0x1B5F6, 3), (0x1B5F7, 1), (0x1B5F8, 88), (0x1B5F9, 2), (0x1B5FA, 44), (0x1B5FB, 3),
   (0x1B5FC, 184), (0x1B5FD, 161), (0x1B5FF, 255)]

theorem test_memory : testMem = writePass (writeProduct (writeProduct [] 3 sixDay) 9 rides30) 1695 sixPass := by
  decide +kernel

/-- An input of a source at this pin with debounce 3, at a level, its edge waiting. -/
def input (pin : Fin 16) (level : Bool) : Input := ⟨some ⟨pin, .activeHigh, 3⟩, level, 3⟩

/-- A READY lane of a role: port of its number, lists 2, 4 and 5 for READY, GRANT and DENY, NONE for the rest. -/
def testLane (n : Fin 4) (role : LaneRole) : Lane :=
  { Lane.atReset n with
    config := ⟨role, 6000, 20000, .level, n, [some 2, some 4, some 5] ++ List.replicate 10 none⟩
    state := .ready none
    arm := input 0 false, entryBeam := input 1 false, exitBeam := input 2 false, switch := input 3 false
    window := some ⟨818, 40, false, false, false, ⟨0, 0, 0, 0, 0, 0, 0, 0⟩⟩ }

/-- RUNNING on day 818 at minute 600, lift 7, ONLINE: lanes 0 to 2 ENTRY and lane 3 RETURN, all READY, a sweep running. -/
def run : State :=
  { State.reset with
    mem := testMem, station := .running, online := true, liftNumber := 7, now := 100000, timeSet := true
    day := 818, ms := 36000000, sweepNext := some 0
    lanes := ⟨testLane 0 .entry, testLane 1 .entry, testLane 2 .entry, testLane 3 .ret⟩
    ports := ⟨{ Port.atReset with silence := some 5 }, { Port.atReset with silence := some 5 },
      { Port.atReset with silence := some 5 }, { Port.atReset with silence := some 5 }⟩ }

/-- The same station QUIET: every lane DOWN and of role DOWN, no window. -/
def quiet : State :=
  { State.reset with
    mem := testMem, station := .quiet, liftNumber := 7, now := 100000, timeSet := true, day := 818, ms := 36000000
    sweepNext := some 0
    lanes := ⟨{ Lane.atReset 0 with arm := input 0 false, entryBeam := input 1 false, exitBeam := input 2 false },
      Lane.atReset 1, Lane.atReset 2, { Lane.atReset 3 with switch := input 15 false }⟩ }

/-- An order posted in slot `k`, which the sweep visits: its kind and payload fields (offset, bytes, value). -/
def post (k : Fin 32) (kind : Nat) (fields : List (Nat × Nat × Nat)) (s : State) : State :=
  { fields.foldl (fun s f => s.poke (orderBase k.val + f.1) f.2.1 f.2.2)
      ((s.poke (orderBase k.val) 2 1).poke (orderBase k.val + 2) 1 kind) with sweepNext := some k }

/-- The UID fields of a pass order (Table 12): length 4 and the four bytes as one number. -/
def uidA : List (Nat × Nat × Nat) := [(8, 1, 4), (9, 4, 0x7E3CA104)]
def uidB : List (Nat × Nat × Nat) := [(8, 1, 4), (9, 4, 0x04030201)]

/-- A lane put in a state; its role. -/
def inState (n : Fin 4) (st : LaneState) (s : State) : State := s.modLane n fun l => { l with state := st }
def withRole (n : Fin 4) (r : LaneRole) (s : State) : State :=
  s.modLane n fun l => { l with config := { l.config with role := r } }

def grantA : Grant := ⟨1695, cardA, 99000, true, 0, 6000, 20000, 0⟩
def passageA : Passage := ⟨1695, cardA, 99000, 0⟩
def referralB : Referral := ⟨cardB, 0x0102, 99000, 1⟩
def captureA : Capture := ⟨1695, cardA, settle sixPass sixDay 1000, 98000, 2000⟩

/-! ### WellFormed refuses what is ill formed -/

theorem test_wf_tap_quality : (Instr.tap 0 4 0 cardA).wellFormed = false := by decide
theorem test_wf_tap_uid : (Instr.tap 0 3 0 [1, 2, 3, 4, 5]).wellFormed = false := by decide
theorem test_wf_gone_uid : (Instr.gone 0 []).wellFormed = false := by decide
theorem test_wf_status : (Instr.status 0 2).wellFormed = false := by decide
theorem test_wf_malformed_is_valid : (Instr.malformedFrame 0 [0x03, 0x01]).wellFormed = false := by decide
theorem test_wf_malformed_empty : (Instr.malformedFrame 0 []).wellFormed = false := by decide
theorem test_wf_malformed_long : (Instr.malformedFrame 0 (List.replicate 25 9)).wellFormed = false := by decide
theorem test_wf_bad_frame_empty : (Instr.badFrame 0 []).wellFormed = false := by decide
theorem test_wf_dropped_length : (Instr.frameDroppedForLength 0 24).wellFormed = false := by decide
theorem test_wf_register_attn : (Instr.registerWrite true 1 0).wellFormed = false := by decide
theorem test_wf_register_mask : (Instr.registerWrite true 2 0).wellFormed = false := by decide
theorem test_wf_register_run : (Instr.registerWrite true 3 2).wellFormed = false := by decide
theorem test_wf_register_low : (Instr.registerWrite false 3 2).wellFormed = true := by decide

/-! ### The Pass Table (01_pass_table, worked examples) -/

/-- The home slot of 04 A1 3C 7E. -/
theorem test_home_slot : homeSlot cardA = 1695 := by decide

/-- A TOMB is passed over and noted: B in slot 1,696 is hit behind it; a card that misses would take the TOMB. -/
theorem test_probe_passes_tomb :
    let m := (writePass testMem 1696 { sixPass with uid := [0x04, 0xA1, 0x3C, 0x5D] ++ List.replicate 6 0 }).write
      (passBase 1695) 1 2
    probe m cardA = ⟨none, some 1695⟩ := by decide +kernel

/-- REMOVE_PASS of A makes slot 1,695 a TOMB and ends OK. -/
theorem test_remove_pass :
    let t := answered (exec (.removePass 4) (post 4 3 uidA run))
    slotStateOf t.mem 1695 = 2 ∧ orderState t 4 = 3 ∧ t.attn = 1 := by decide +kernel

/-- READ_PASS gives the slot number, and INSERT_PASS of B with 30 rides starts from the rides initial. -/
theorem test_read_pass :
    (answered (exec (.readPass 4) (post 4 4 uidA run))).peek (orderBase 4 + 64) 2 = 1695 := by decide +kernel
theorem test_insert_pass :
    let t := answered (exec (.insertPass 0)
      (post 0 1 (uidB ++ [(19, 1, 9), (20, 2, 0x0102), (22, 2, 805), (24, 2, 811), (26, 3, 9999)]) run))
    t.pass (homeSlot cardB) = { ridePass with usage := 30, lastDay := none, lastMinute := none } := by decide +kernel

/-! ### Station time (03_time, worked example) -/

/-- A SET_TIME to an earlier millisecond of the day is refused while RUNNING. -/
theorem test_time_backward :
    let t := answered (exec (.setTime 0) (post 0 9 [(8, 2, 812), (10, 4, 29990000)] { run with day := 812, ms := 30000000 }))
    t.ms = 30000000 ∧ t.peek (orderBase 0) 2 = 4 ∧ t.peek (orderBase 0 + 3) 1 = 15 := by decide +kernel

/-- SET_TIME 812 / 30,120,000 taken at 812 / 30,000,500: window 33 closes SHORT with length 6 and opens again SHORT. -/
theorem test_set_time_short :
    let s := (post 0 9 [(8, 2, 812), (10, 4, 30120000)] { run with day := 812, ms := 30000500 }).modLane 2 fun l =>
      { l with window := some ⟨812, 33, false, false, false, ⟨20, 0, 0, 0, 1, 0, 0, 0⟩⟩, flowPosition := some 5
               flowNumber := 710 }
    let t := answered (exec (.setTime 0) s)
    t.ms = 30120000 ∧ (t.lane 2).window = some ⟨812, 33, false, true, false, ⟨0, 0, 0, 0, 0, 0, 0, 0⟩⟩
      ∧ t.mem.readBytes (flowBase 2 6) 14 = le 2 711 ++ le 2 812 ++ le 2 33 ++ le 2 495 ++ [6, 2] ++ le 2 20 ++ le 2 0 := by
  decide +kernel

/-- The tick after 86,399,999 waits as a rollover, and the rollover starts day 813 with ROLLOVER attention. -/
theorem test_rollover :
    let t := answered (exec (.tick 0) { run with day := 812, ms := 86399999 })
    let u := answered (exec .rollover t)
    t.dayEnd = true ∧ (u.day, u.ms) = (813, 0) ∧ u.attn = 0x40 ∧ (u.peek hdrDay 2, u.peek hdrMs 4) = (813, 0) := by
  decide +kernel

/-- RUN with the time-set flag clear is refused, with cause TIME_UNSET. -/
theorem test_run_unset :
    let t := answered (exec .runRequest { quiet with timeSet := false })
    t.station = .quiet ∧ readRegister t .run = 0x11 := by decide +kernel

/-! ### The reader lines (04_readers, worked examples) -/

theorem test_tap_frame :
    frameBytes (tapBody 3 0x0102 cardA)
      = [0xA5, 0x09, 0x01, 0x03, 0x02, 0x01, 0x04, 0x04, 0xA1, 0x3C, 0x7E, 0x8D] := by decide
theorem test_show_frame : showBytes ⟨.grant, 4⟩ = [0xA5, 0x05, 0x81, 0x00, 0x04, 0x00, 0x00, 0x76] := by decide

/-- The corrupted sum byte drops the frame and counts it; noise and a length of 165 are not counted. -/
theorem test_bad_sum_counts :
    let s := run.modPort 1 fun x => { x with badFrames := 7 }
    let l := soundLine [0xA5, 0x09, 0x01, 0x03, 0x02, 0x01, 0x04, 0x04, 0xA1, 0x3C, 0x7E, 0x8C]
    ((answered (exec (.badFrame 1 l) s)).port 1).badFrames = 8 := by decide +kernel
theorem test_length_not_counted :
    let s := run.modPort 1 fun x => { x with badFrames := 7 }
    ((answered (exec (.frameDroppedForLength 1 0xA5) s)).port 1).badFrames = 7 := by decide +kernel

/-- Repeat suppression: 500 ms after the record is a repeat, 2,100 ms is not. -/
theorem test_repeat :
    let s := fun age => run.modPort 0 fun x => { x with repeatRec := some ⟨cardA, run.now - age⟩ }
    (answered (exec (.tap 0 3 0x0102 cardA) (s 500))).tapQueue = []
      ∧ (answered (exec (.tap 0 2 0x0102 cardA) (s 2100))).tapQueue = [⟨0, 0, 2, 0x0102, cardA⟩] := by decide +kernel

/-! ### Admission and passages (05_admission, 06_sensing, 09_accounts, worked examples) -/

/-- A tap of the six-day pass on day 818: GRANTED, the marker 0, and SHOW GRANT with D − U − 1 = 2. -/
theorem test_grant :
    let t := answered (exec .tapTake { run with tapQueue := [⟨0, 0, 3, 0x0102, cardA⟩] })
    (t.lane 0).state.code = 4 ∧ (t.pass 1695).marker = some 0 ∧ (t.port 0).sending = some ⟨.grant, 2⟩
      ∧ lockPin t 0 = true := by decide +kernel

/-- The void at a window count of 6,000, and none at 5,999. -/
theorem test_grant_window :
    let s := fun c => inState 1 (.granted { grantA with windowCount := c }) run
    ((answered (exec (.grantWindow 1) (s 6000))).lane 1).state = .ready none
      ∧ (answered (exec (.grantWindow 1) (s 5999))) = s 5999 := by decide +kernel

/-- The tailgate: the second exit block, 290 ms after the commit, makes a TAILGATE record with A's UID. -/
theorem test_tailgate :
    let s := inState 2 (.passing { passageA with tick := 99710, exitBlocks := 1 }) run
    let t := answered (exec (.exitBeamBlock 2) s)
    t.mem.readBytes (journalBase 0) 32
        = (⟨some 2, 818, 36000000, cardA, some 1695, .passage .tailgate 290 false false false 0⟩ : Record).bytes
      ∧ ((t.lane 2).window.map (·.counts.tailgate)) = some 1 := by decide +kernel

/-- A commit across the rollover: last used yesterday with U = 2 of 3, it consumes a day, U becomes 3. -/
theorem test_commit_across_rollover :
    let p := { sixDay with daysBought := 3, span := 7, passback := 20 }
    let e := { sixPass with usage := 2, lastDay := some 812, lastMinute := some 1200, creditedDay := none, marker := some 3 }
    let s := inState 0 (.granted grantA) { run with day := 813, ms := 4000, mem := writePass (writeProduct [] 3 p) 1695 e }
    (answered (exec (.indexPulse 0) s)).pass 1695
      = { e with usage := 3, lastDay := some 813, lastMinute := some 0, marker := none } := by decide +kernel

/-! ### Closures (09_accounts, worked example): slot 40 earns a credit at once, slot 2,000 none -/

theorem test_credit_sweep :
    let e : PassEntry := { sixPass with usage := 2, lastDay := some 812, creditedDay := none }
    let m := writePass (writePass testMem 40 e) 2000 { e with usage := 1, lastDay := some 811 }
    let s := fun at_ => { run with day := 812, ms := 37200000, mem := writeClosure m 0 ⟨812, 620, 0xFFFF, 1⟩
                                   creditSweep := some ⟨⟨0, 812, 620, 0xFFFF, 1⟩, 0, at_, 0, 99980⟩ }
    let t := answered (exec .creditSweep (s 40))
    t.pass 40 = { e with usage := 258, creditedDay := some 812 } ∧ t.creditSweep.map (fun c => (c.position, c.count)) = some (41, 1)
      ∧ (answered (exec .creditSweep (s 2000))).creditSweep.map (fun c => (c.position, c.count)) = some (2001, 0) := by
  decide +kernel

/-! ### Settlement (10_settlement, worked examples) -/

def amounts (f : Figures) : List Nat := [f.unused, f.gross, f.scaled, f.net, f.refund]

theorem test_settle_within : amounts (settle sixPass sixDay 1000) = [2, 24200, 24200, 22700, 22500] := by decide
theorem test_settle_late : amounts (settle sixPass sixDay 750) = [2, 24200, 18150, 16650, 16500] := by decide
theorem test_settle_limits :
    [(4, 1000), (6, 1000), (5, 1000), (5, 750)].map (fun x => amounts (settle { sixPass with usage := x.1 } sixDay x.2))
      = [[4, 9600, 9600, 8100, 8000], [6, 0, 0, 0, 0], [5, 3600, 3600, 2100, 2000], [5, 3600, 2700, 1200, 1000]] := by
  decide
theorem test_settle_rides : amounts (settle ridePass rides30 1000) = [11, 3666, 3666, 3416, 3400] := by decide
theorem test_period :
    [820, 821, 825, 850, 851].map (periodFactor sixPass sixDay) = [some 1000, some 750, some 750, some 750, none] := by
  decide

/-- The quote's result area, and FINAL's retirement. -/
theorem test_quote :
    let t := answered (exec (.settlePassQuote 1) (post 1 6 (uidA ++ [(19, 1, 1)]) run))
    (t.peek (orderBase 1 + 32) 2, t.peek (orderBase 1 + 45) 4, t.peek (orderBase 1 + 64) 3) = (1695, 820, 22500)
      ∧ t.pass 1695 = sixPass := by decide +kernel
theorem test_final :
    let t := answered (exec (.settlePassFinal 1) (post 1 6 (uidA ++ [(19, 1, 2)]) run))
    (t.pass 1695).retired = true ∧ t.journal.writeIndex = 1 ∧ t.journal.pledges = 0 := by decide +kernel

/-- The return: CAPTURING with SHOW REFUND 22,500, and the switch's REFUND record and RETURNED count. -/
theorem test_return :
    let t := answered (exec (.tap 3 3 0x0102 cardA) run)
    let u := answered (exec (.captureSwitchActivation 3) t)
    (t.lane 3).state.code = 8 ∧ (t.port 3).sending = some ⟨.refund, 22500⟩ ∧ (t.pass 1695).marker = some 3
      ∧ (u.lane 3).state = .ready none ∧ (u.pass 1695).retired = true ∧ (u.pass 1695).marker = none
      ∧ ((u.lane 3).window.map (·.counts.returned)) = some 1 := by decide +kernel

/-! ### Cues (11_cues, worked example): list 6 on a stuck beam, its first blink -/

def list6 : Memory → Memory := fun m =>
  [(0, 0, 0x82, 255), (1, 0, 1, 0), (2, 0, 4, 2), (3, 150, 4, 0), (4, 500, 2, 0), (5, 1000, 0, 0)].foldl
    (fun m (e : Nat × Nat × Nat × Nat) => m.write (cueBase 6 + 4 * e.1) 4 (e.2.1 + 65536 * (e.2.2.1 + 256 * e.2.2.2))) m

theorem test_fault_cue :
    let s := { run with mem := list6 run.mem }.modLane 1 fun l =>
      { l with stuckExit := 10000, levels := ⟨255, 0, 0, 0⟩
               config := { l.config with cueMap := (l.config.cueMap).set 8 (some 6) } }
    let t := answered (exec (.beamStuck 1 true) s)
    let u := answered (exec (.cueEntry 1) { t with now := t.now + 150 })
    (t.lane 1).levels = ⟨0, 255, 0, 2⟩ ∧ (t.lane 1).cue.map (·.position) = some 3 ∧ (u.lane 1).levels = ⟨0, 255, 0, 0⟩
      ∧ (u.lane 1).cue.map (·.position) = some 4 := by decide +kernel

/-- The END of a repeating list at elapsed 1,000 starts a new pass, which applies entries 0 to 2. -/
theorem test_cue_repeats :
    let c : Cue := ⟨readCueList (list6 []) 6, true, 6, .fault, 5, 99000⟩
    playCue c 100000 ⟨0, 0, 0, 0⟩ = (⟨0, 255, 0, 2⟩, some { c with position := 3, start := 100000 }) := by decide +kernel

/-- At the default divider: the carrier period of 12,000 cycles, whole at duty 255 and 6,023 cycles of it at duty 128. -/
theorem test_lamp_pins :
    let s := run.modLane 0 fun l => { l with lamps := ⟨255, 128, 0⟩, levels := ⟨255, 128, 0, 0⟩ }
    [0, 6022, 6023, 11999, 12000].map (lampPin s 0 .red) = [true, true, false, false, true]
      ∧ [0, 11999].map (lampPin s 0 .green) = [true, true] ∧ [0, 11999].map (lampPin s 0 .amber) = [false, false] := by
  decide +kernel

/-- After a RUN of divider 8,000 the period in progress goes on for its 12,000 cycles, and the next is one of 4,000. -/
theorem test_lamp_divider :
    let s := { run with dividerTaken := 8000 }.modLane 0 fun l => { l with levels := ⟨128, 0, 0, 0⟩ }
    [0, 11999, 12000, 14006, 14007, 15999, 16000].map (lampPin s 0 .green) = [false, false, true, true, false, false, true]
      ∧ (answered (exec (.tick 0) s)).carrier = ⟨8000, 0⟩ := by decide +kernel

/-- Tone 8 is a square wave of 4 kHz, its active half of 3,000 cycles first; tone 0 ends it with its half-cycle. -/
theorem test_buzzer_pin :
    let s := fun tone => run.modLane 0 fun l => { l with levels := ⟨0, 0, 0, tone⟩ }
    [0, 2999, 3000, 5999, 6000].map (buzzerPin (s 8) 0) = [true, true, false, false, true]
      ∧ [0, 1999, 2000].map (buzzerPin ((s 0).modLane 0 fun l => { l with buzzer := ⟨8, 1000, true⟩ }) 0)
          = [true, true, false] := by decide +kernel

/-! ### Witnesses: hypotheses of the statements met together

Each theorem is named for the statement of Certificates/Slice0/Obligations.lean it serves. Where the hypotheses of
several clauses exclude each other, one conjunct stands for each clause, at boundary values. -/

/-- A station RUNNING on the given memory, or with the given journal. -/
def onMem (m : Memory) (s : State) : State := { s with mem := m }
def journalWith (j : Journal) (s : State) : State := { s with journal := j }

/-- A ring with no place left and four records held: the unpledged room is 4. -/
def crowded : Journal := ⟨1023, 0, List.replicate 4 ⟨none, 818, 0, [], none, .referral⟩, 0, 0⟩

/-- A STAGE_PRODUCT order: index, flags and record. -/
def postProduct (k : Fin 32) (index flags : Nat) (p : Product) (s : State) : State :=
  let t := post k 7 [(8, 1, index), (9, 1, flags)] s
  { t with mem := t.mem.writeBytes (orderBase k.val + 10) p.bytes }

/-- An edge of a lane's input whose other level stands. -/
def blocked (n : Fin 4) (s : State) : State :=
  s.modLane n fun l => { l with entryBeam := input 1 true, exitBeam := input 2 true, switch := input 3 true }

theorem witness_StepRunsFrontCommand : State.reset.pending = [] := by decide

theorem witness_ResetsBeginFillOrScan :
    (State.reset.mem.wf ∧ State.reset.station = .starting ∧ State.reset.startPhase = .fill
      ∧ mapInMirror (State.reset.mem.writeBytes inputMapBase noneSources) ≠ none)
    ∧ run.mem.wf ∧ ¬(run.station = .starting ∧ run.startPhase = .fill) ∧ mapInMirror run.mem = none := by
  decide +kernel

theorem witness_FillDoneEntersQuiet :
    ∀ pin ∈ [false, true], let s := { State.reset with evacuatePin := pin }
      s.mem.wf ∧ s.station = .starting ∧ s.startPhase = .fill ∧ s.evacuatePin = pin ∧ s.ok
        ∧ ∀ n, (s.lane n).state = .down := by unfold State.ok; decide

/-- A restart scan to be done: a LIVE pass with a marker and a TAKEN order; the time mirror shows this day and ms. -/
def scanning (day ms : Nat) : State :=
  let s := { run with station := .starting, startPhase := .scan, lanes := lanesAtReset }
  (((s.poke (passBase 1695 + 31) 1 2).poke (orderBase 5) 2 2).poke hdrDay 2 day).poke hdrMs 4 ms

theorem witness_RestartScanEntersQuiet :
    (let s := scanning 65534 86399999
     s.mem.wf ∧ s.station = .starting ∧ s.startPhase = .scan ∧ s.startPos = 0 ∧ s.evacuatePin = false
      ∧ slotStateOf s.mem 1695 = 1 ∧ orderState s (5 : Fin 32) = 2 ∧ s.peek hdrDay 2 ≠ 65535 ∧ s.peek hdrMs 4 < 86400000
      ∧ s.peek (hdrFlow 0) 2 ≤ 63)
    ∧ let s := (scanning 65535 86400000).poke (hdrFlow 0) 2 64
      s.mem.wf ∧ s.station = .starting ∧ s.startPhase = .scan ∧ s.startPos = 0 ∧ s.evacuatePin = false
      ∧ ¬(s.peek hdrDay 2 ≠ 65535 ∧ s.peek hdrMs 4 < 86400000) ∧ 63 < s.peek (hdrFlow 0) 2 := by decide +kernel

/-- A scan that has come to slot 1,695, to the slot behind it, and to order slot 5, with the EVACUATE pin high. -/
theorem witness_RestartScanEntersQuiet_evacuate :
    ∀ pos ∈ [1695, 1696, 6149], let s := { scanning 818 0 with startPos := pos, evacuatePin := true }
      s.ok ∧ s.station = .starting ∧ s.startPhase = .scan ∧ (∀ n, (s.lane n).state = .down) ∧ s.freeFlow = false
        ∧ (s.startPos ≤ 1695 ↔ pos = 1695) ∧ s.startPos ≤ 6144 + 5 ∧ orderState s (5 : Fin 32) = 2 := by
  unfold State.ok; decide +kernel

theorem witness_TickCountsTime :
    timeLaw run ∧ run.mem.wf ∧ timeLaw { run with ms := 86399999 } ∧ timeLaw { run with day := 65534, ms := 999 } := by
  unfold timeLaw; decide +kernel

/-- A carrier period and a half-cycle that outlast the tick, and ones that end with it; a buzzer that sounds on, one that
changes its tone in the middle of a half-cycle, and one that starts. -/
theorem witness_TickCountsTime_drives :
    ({ run with carrier := ⟨32000, 0⟩, divider := 15999 }.divider < 32000 / 2 - 0)
    ∧ 32000 / 2 - 0 ≤ { run with carrier := ⟨32000, 0⟩, divider := 16000 }.divider
    ∧ (let l := (run.modLane 0 fun l => { l with buzzer := ⟨1, 100, true⟩, levels := ⟨0, 0, 0, 1⟩ }).lane 0
       l.buzzer.tone ≠ 0 ∧ l.levels.buzzer = l.buzzer.tone)
    ∧ (let l := (run.modLane 0 fun l => { l with buzzer := ⟨1, 100, true⟩, levels := ⟨0, 0, 0, 255⟩ }).lane 0
       l.levels.buzzer ≠ l.buzzer.tone ∧ 5 < run.divider / l.buzzer.tone - l.buzzer.elapsed)
    ∧ (run.lane 0).levels.buzzer = 0 := by decide +kernel

/-- The end of day 818, a rollover waiting, product 12 staged. -/
def dayOver : State :=
  { run with ms := 86399999, dayEnd := true, mem := writeStaging testMem [(12, sixDay), (63, .withdrawn)] }

theorem witness_RolloverStartsNewDay :
    dayOver.ok ∧ dayOver.dayEnd = true ∧ dayOver.ms + 1 = 86400000 ∧ dayOver.day < 65534 ∧ dayOver.creditSweep = none
      ∧ (∀ x ∈ readStaging dayOver.mem, x.1 < 64) ∧ ((readStaging dayOver.mem).map (·.1)).Nodup
      ∧ (readStaging dayOver.mem).length = 2 ∧ (dayOver.lane 0).window ≠ none := by unfold State.ok; decide +kernel

/-- A SET_TIME taken in between: the next tick ends a second, or not. -/
theorem witness_RolloverStartsNewDay_replaced :
    (∀ ms ∈ [999, 86399998], let s := { dayOver with ms := ms }
      s.mem.wf ∧ s.ms < 86400000 ∧ s.day < 65536 ∧ s.dayEnd = true ∧ s.ms + 1 < 86400000)
    ∧ run.mem.wf ∧ run.ms < 86400000 ∧ run.dayEnd = false := by decide +kernel

theorem witness_WindowEndWritesFlowRecord :
    (let s := { run with ms := 36900000 }
     let w : Window := ⟨818, 40, false, false, false, ⟨0, 0, 0, 0, 0, 0, 0, 0⟩⟩
     s.mem.wf ∧ (s.lane 0).window = some w ∧ (w.index + 1) * s.options.windowLength * 60000 ≤ s.ms
      ∧ (w.index + 1) * s.options.windowLength * 60000 < 86400000)
    ∧ { run with ms := 36899999 }.ms < (40 + 1) * run.options.windowLength * 60000
    ∧ (quiet.lane 0).window = none := by decide +kernel

theorem witness_SetTimeWithinDay :
    (∀ ms ∈ [36000000, 36000001, 86399999],
      let s := post 4 9 [(8, 2, 818), (10, 4, ms)] run
      s.ok ∧ timeLaw s ∧ carries s 4 9 ∧ s.peek (orderBase 4 + 8) 2 = s.day ∧ s.peek (orderBase 4 + 10) 4 < 86400000
        ∧ s.ms ≤ s.peek (orderBase 4 + 10) 4)
    ∧ let s := post 4 9 [(8, 2, 818), (10, 4, 0)] quiet
      s.ok ∧ timeLaw s ∧ carries s 4 9 ∧ s.peek (orderBase 4 + 8) 2 = s.day ∧ s.station = .quiet := by
  unfold State.ok timeLaw carries; decide +kernel

theorem witness_SetTimeAcrossDays :
    (let s := post 31 9 [(8, 2, 65534), (10, 4, 0)] (onMem dayOver.mem run)
     s.ok ∧ timeLaw s ∧ carries s 31 9 ∧ s.creditSweep = none ∧ (∀ x ∈ readStaging s.mem, x.1 < 64)
      ∧ ((readStaging s.mem).map (·.1)).Nodup ∧ s.day < s.peek (orderBase 31 + 8) 2
      ∧ s.peek (orderBase 31 + 8) 2 < 65535 ∧ s.peek (orderBase 31 + 10) 4 < 86400000)
    ∧ let s := post 31 9 [(8, 2, 817), (10, 4, 86399999)] quiet
      s.ok ∧ timeLaw s ∧ carries s 31 9 ∧ s.creditSweep = none ∧ readStaging s.mem = []
        ∧ s.peek (orderBase 31 + 8) 2 < s.day ∧ s.station = .quiet ∧ s.peek (orderBase 31 + 10) 4 < 86400000
        ∧ ∀ n, (s.lane n).window = none := by
  unfold State.ok timeLaw carries; decide +kernel

theorem witness_TapsJoinQueueAndGoneFrees :
    ((run.port 0).parser = .hunt ∧ run.station = .running ∧ servedLane run 0 = some 0 ∧ (run.lane 0).config.role = .entry
      ∧ (run.port 0).silent = false ∧ (run.port 0).rfFault = false ∧ (∀ q ∈ [(0 : Byte), 1, 3], q.toNat ≤ 3) ∧ cardA.length = 4)
    ∧ (quiet.station ≠ .starting ∧ servedLane quiet 0 = none ∧ (quiet.port 0).parser = .hunt)
    ∧ (let s := run.modPort 0 fun x => { x with rfFault := true }
       inService s 0 = true ∧ (s.port 0).rfFault = true ∧ (s.port 0).silent = false)
    ∧ (let s := { run with station := .quieting }
       inService s 0 = true ∧ (s.port 0).silent = false ∧ (s.port 0).parser = .hunt) := by decide +kernel

/-- The validity end of an entry, as the statements write it (R150). -/
def lastDayOf (s : State) (slot : Nat) : Int :=
  match (s.pass slot).firstDay with
  | some f => f + (s.product (s.pass slot).product).span - 1
  | none => (s.pass slot).issueDay + (s.product (s.pass slot).product).activation - 1

/-- What every clause of the return tap asks of the state. -/
def returnReady (s : State) : Prop :=
  s.ok ∧ s.station = .running ∧ servedLane s 3 = some 3 ∧ (s.lane 3).config.role = .ret ∧ (s.port 3).parser = .hunt
    ∧ (s.port 3).silent = false ∧ (s.port 3).rfFault = false ∧ (s.port 3).repeatRec = none

theorem witness_ReturnTapStartsCapture :
    ∀ x ∈ [(818, 1000), (820, 1000), (821, 750), (850, 750)],
      let s := { run with day := x.1 }
      let e := s.pass 1695
      let d := s.product e.product
      returnReady s ∧ (s.lane 3).state = .ready none ∧ s.online = true ∧ lookup s.mem cardA = some 1695
        ∧ (0x0102 : Word).toNat = e.stamp ∧ e.blocked = false ∧ e.retired = false ∧ e.marker = none
        ∧ d.refundable = true ∧ d.kind = .days ∧ 5 ≤ s.journal.room
        ∧ ((s.day ≤ lastDayOf s 1695 ∧ x.2 = 1000)
          ∨ (lastDayOf s 1695 < s.day ∧ s.day ≤ lastDayOf s 1695 + d.deadline ∧ x.2 = d.late))
        ∧ 0 < refundOf (e.paid - d.price (e.usage % 256 - e.usage / 256)) x.2 d.fee d.rounding := by
  unfold returnReady State.ok; decide +kernel

/-- The other answers: OFFLINE, a card not in the table, a stamp that differs, each flag and marker, a product not
refundable, a day behind the deadline, a refund of 0 and a room below 5. -/
theorem witness_ReturnTapStartsCapture_answers :
    (∀ s ∈ [{ run with online := false }, run.poke (passBase 1695 + 15) 1 1, run.poke (passBase 1695 + 15) 1 2,
        run.poke (passBase 1695 + 31) 1 0, { run with day := 851 }, journalWith crowded run,
        onMem (writeProduct testMem 3 { sixDay with refundable := false }) run, run.poke (passBase 1695 + 28) 3 0],
      returnReady s ∧ (s.lane 3).state = .ready none ∧ lookup s.mem cardA = some 1695 ∧ lookup s.mem cardB = none)
    ∧ (0x0103 : Word).toNat ≠ (run.pass 1695).stamp
    ∧ ((run.poke (passBase 1695 + 15) 1 1).pass 1695).blocked = true
    ∧ (let e := (run.poke (passBase 1695 + 15) 1 2).pass 1695
       e.blocked = false ∧ e.retired = true)
    ∧ (let e := (run.poke (passBase 1695 + 31) 1 0).pass 1695
       e.blocked = false ∧ e.retired = false ∧ e.marker ≠ none)
    ∧ ((onMem (writeProduct testMem 3 { sixDay with refundable := false }) run).product 3).refundable = false
    ∧ (let s := { run with day := 851 }
       lastDayOf s 1695 < s.day ∧ lastDayOf s 1695 + (s.product 3).deadline < s.day)
    ∧ (let s := run.poke (passBase 1695 + 28) 3 0
       refundOf ((s.pass 1695).paid - (s.product 3).price 2) 1000 (s.product 3).fee (s.product 3).rounding = 0)
    ∧ crowded.room < 5 := by unfold returnReady State.ok; decide +kernel

theorem witness_ReturnTapStartsCapture_states :
    ∀ st ∈ [LaneState.down, .arming 0, .fault .switchStuck, .capturing captureA],
      returnReady (inState 3 st run) ∧ ((inState 3 st run).lane 3).state = st ∧ captureA.uid = cardA ∧ cardA ≠ cardB := by
  unfold returnReady State.ok; decide +kernel

theorem witness_ReaderLostFollowsCauses :
    ∀ rf, ∀ silent,
      let s := run.modPort 1 fun x => { x with silence := some 3000, rfFault := rf, silent := silent }
      s.ok ∧ inService s 1 = true ∧ servedLane s 1 = some 1 ∧ (s.port 1).silent = silent
        ∧ (s.port 1).silence = some 3000 ∧ (s.port 1).rfFault = rf ∧ (s.port 1).parser = .hunt
        ∧ inService { s with station := .quieting } 1 = true ∧ { s with station := .quieting }.ok := by
  unfold State.ok; decide +kernel

theorem witness_DroppedFramesAreCounted :
    run.mem.wf ∧ run.station ≠ .starting ∧ (run.port 0).parser = .hunt
      ∧ ((run.modPort 0 (·.parse .length)).port 0).parser ≠ .hunt
      ∧ (([0x03, 0x01] : List Byte).length + (([0x03, 0x01] : List Byte).map BitVec.toNat).sum + (0 : Byte).toNat) % 256 ≠ 0
      ∧ bodyIsValidFrame (List.replicate 24 0) = false ∧ (0 : Byte).toNat = 0 ∧ 24 < (25 : Byte).toNat := by decide +kernel

/-- A running cue: RED 255 at 0, BUZZER 0 at 150, END at 500. -/
def cue0 (repeats : Bool) (position : Nat) : Cue :=
  ⟨[⟨1, .red, 255⟩, ⟨150, .buzzer, 0⟩, ⟨500, .stop, 0⟩], repeats, 6, .fault, position, 99500⟩

theorem witness_TimersEndOnTheirTick :
    (let x := (run.modPort 0 fun x => { x with parser := .length, gap := 21 }).port 0
     x.parser ≠ .hunt ∧ 21 ≤ x.gap)
    ∧ ((run.modPort 0 fun x => { x with sending := some ⟨.free, 0⟩ }).port 0).sending = some ⟨.free, 0⟩
    ∧ (let s := inState 0 (.ready (some 97000)) run
       (s.lane 0).state = .ready (some 97000) ∧ 3000 ≤ s.now - 97000)
    ∧ (let s := run.modLane 0 fun l => { l with lockPulse := some 100000 }
       (s.lane 0).lockPulse = some 100000 ∧ 100000 ≤ s.now)
    ∧ run.mem.wf ∧ ((run.modLane 0 fun l => { l with cue := some (cue0 true 1) }).lane 0).cue = some (cue0 true 1) := by
  decide +kernel

/-- One entry due and the END behind it; two entries due at one tick with none behind; an entry due and one to come. The
list that repeats begins with two entries at offset 0, as the list of the manual's example does. -/
theorem witness_TimersEndOnTheirTick_cues :
    (∀ r, let c := cue0 r 1
      c.entries.drop c.position = [⟨150, .buzzer, 0⟩] ++ [⟨500, .stop, 0⟩] ∧ 500 ≤ run.now - c.start)
    ∧ (let c := { cue0 false 0 with entries := (cue0 false 0).entries.take 2 }
       c.entries.drop c.position = c.entries ++ [] ∧ ∀ e ∈ c.entries, e.offset ≤ run.now - c.start ∧ e.target ≠ .stop)
    ∧ (let c := { cue0 false 0 with start := 99900 }
       c.entries.drop c.position = [⟨1, .red, 255⟩] ++ ⟨150, .buzzer, 0⟩ :: c.entries.drop 2
        ∧ 1 ≤ run.now - c.start ∧ run.now - c.start < 150)
    ∧ (let c : Cue := ⟨readCueList (list6 []) 6, true, 6, .fault, 5, 99000⟩
       c.entries.drop c.position = [] ++ ⟨1000, .stop, 0⟩ :: c.entries.drop 6 ∧ 1000 ≤ run.now - c.start
        ∧ (∀ e ∈ c.entries.take 3, e.offset = 0 ∧ e.target ≠ .stop)
        ∧ ∀ e ∈ (c.entries.drop 3).head?, 0 < e.offset)
    ∧ let c : Cue := ⟨[⟨0, .stop, 0⟩], true, 6, .fault, 0, 99999⟩
      c.entries.drop c.position = [] ++ [⟨0, .stop, 0⟩] ∧ 1 ≤ run.now - c.start := by decide +kernel

/-- List 6 named for FAULT, its three entries at offset 0 before one at 150; list 7, empty, named for VOID; and a list whose
sixteen entries all set a lamp at offset 0, named for FREE. -/
theorem witness_TimersEndOnTheirTick_starts :
    let m := (List.range 16).foldl (fun m i => m.write (cueBase 8 + 4 * i + 2) 2 0xFF01) (list6 run.mem)
    let s := (onMem m run).modLane 1 fun l =>
      { l with config := { l.config with cueMap := [none, none, none, some 7, none, none, none, some 8, some 6] } }
    (s.lane 1).state ≠ .down ∧ (s.lane 1).config.cueMap.getD CueOutcome.fault.index none = some 6
      ∧ (let e := readCueList s.mem 6
         e.length = 16 ∧ (∀ x ∈ e.take 3, x.offset = 0 ∧ x.target ≠ .stop) ∧ (e.drop 3).head? = some ⟨150, .buzzer, 0⟩)
      ∧ (readCueList s.mem 7).head? = some ⟨0, .stop, 0⟩
      ∧ (∀ x ∈ readCueList s.mem 8, x.offset = 0 ∧ x.target ≠ .stop)
      ∧ (s.lane 1).config.cueMap.getD CueOutcome.ready.index none = none
      ∧ ((inState 1 .down s).lane 1).state = .down := by decide +kernel

/-- A tap that waits. -/
def tapOf (uid : List Byte) (stamp quality : Nat) : TapRecord := ⟨0, 0, quality, stamp, uid⟩
def waiting (q : TapRecord) (s : State) : State := { s with tapQueue := [q] }

theorem witness_TapTakeGrants :
    let q := tapOf cardA 0x0102 1
    let s := waiting q run
    s.ok ∧ s.tapQueue = [q] ∧ s.station = .running ∧ (s.lane q.lane).config.role = .entry
      ∧ (s.lane q.lane).state = .ready none ∧ tapReason s q = none ∧ lookup s.mem q.uid = some 1695 := by
  unfold State.ok; decide +kernel

theorem witness_TapTakeDeniesOrRefers :
    (∀ x ∈ [(tapOf cardA 0x0103 3, run, DenyReason.staleCard), (tapOf cardA 0x0102 0, run, .reread),
        (tapOf cardB 0x0102 3, { run with online := false }, .unknown),
        (tapOf cardA 0x0102 3, { run with day := 810 }, .notYet), (tapOf cardA 0x0102 3, { run with day := 821 }, .expired),
        (tapOf cardA 0x0102 3, journalWith crowded run, .journalFull)],
      let s := waiting x.1 x.2.1
      s.ok ∧ s.tapQueue = [x.1] ∧ s.station = .running ∧ (s.lane 0).config.role = .entry ∧ (s.lane 0).state = .ready none
        ∧ tapReason s x.1 = some x.2.2)
    ∧ let q := tapOf cardB 0x0102 1
      tapReason (waiting q run) q = none ∧ lookup (waiting q run).mem q.uid = none := by unfold State.ok; decide +kernel

theorem witness_TapTakeByLaneState :
    (let q := tapOf cardA 0x0102 3
     (waiting q quiet).ok ∧ (waiting q quiet).station ≠ .running
      ∧ (∀ st ∈ [LaneState.down, .arming 0, .granted grantA, .free, .referred referralB, .passing passageA],
          let s := waiting q (inState 0 st run)
          s.ok ∧ s.tapQueue = [q] ∧ s.station = .running ∧ (s.lane 0).config.role = .entry ∧ (s.lane 0).state = st)
      ∧ grantA.uid = q.uid ∧ referralB.uid ≠ q.uid) := by unfold State.ok; decide +kernel

theorem witness_GrantTimersVoid :
    (let g := { grantA with windowCount := 6000 }
     (inState 0 (.granted g) run).ok ∧ ((inState 0 (.granted g) run).lane 0).state = .granted g
      ∧ g.grantWindow ≤ g.windowCount)
    ∧ let g := { grantA with tick := 80000 }
      (inState 0 (.granted g) run).ok ∧ ((inState 0 (.granted g) run).lane 0).state = .granted g
        ∧ g.holdLimit ≤ (inState 0 (.granted g) run).now - g.tick := by unfold State.ok; decide +kernel

theorem witness_ReferralEndsUnknown :
    (let s := inState 1 (.referred { referralB with tick := 99200 }) run
     s.ok ∧ (s.lane 1).state = .referred { referralB with tick := 99200 } ∧ s.options.referralTimeout ≤ s.now - 99200)
    ∧ (let s := post 2 5 (uidB ++ [(19, 1, 1)]) (inState 1 (.referred referralB) run)
       s.ok ∧ carries s 2 5 ∧ s.peek (orderBase 2 + 19) 1 = 1 ∧ (s.lane 1).state = .referred referralB
        ∧ payloadUid s 2 = some referralB.uid)
    ∧ (let s := post 2 5 (uidB ++ [(19, 1, 4)]) run
       s.ok ∧ carries s 2 5 ∧ 3 < s.peek (orderBase 2 + 19) 1)
    ∧ (let s := post 2 5 [(8, 1, 5), (19, 1, 3)] run
       s.ok ∧ carries s 2 5 ∧ payloadUid s 2 = none)
    ∧ let s := post 2 5 (uidA ++ [(19, 1, 3)]) run
      s.ok ∧ carries s 2 5 ∧ s.peek (orderBase 2 + 19) 1 = 3 ∧ payloadUid s 2 = some cardA
        ∧ (s.lane 3).state = .ready none := by unfold State.ok carries; decide +kernel

theorem witness_SweepTakesPostedSlots :
    (let s := { run with sweepDue := true, sweepNext := none }
     s.sweepDue = true ∧ s.station ≠ .starting ∧ s.sweepNext = none)
    ∧ (let s := { State.reset with sweepDue := true }
       s.sweepNext = none ∧ s.station = .starting)
    ∧ (∀ k ∈ [(0 : Fin 32), 31], let s := post k 1 [] run
        s.sweepNext = some k ∧ orderState s k = 1 ∧ inFlight s k = false)
    ∧ (run.sweepNext = some 0 ∧ orderState run (0 : Fin 32) ≠ 1)
    ∧ (let s := { post 31 1 [] run with lanesWaiting := [⟨31, 0, (run.lane 0).config⟩] }
       s.sweepNext = some 31 ∧ ∃ o ∈ s.lanesWaiting, o.slot = 31)
    ∧ nextOrder (post 7 1 [] run) ≠ some 6
    ∧ ∀ kind ∈ [0, 13, 255], (post 31 kind [] run).ok ∧ nextOrder (post 31 kind [] run) = some 31
        ∧ (orderKind (post 31 kind [] run) 31 = 0 ∨ 12 < orderKind (post 31 kind [] run) 31) := by
  unfold State.ok; decide +kernel

/-- The sweep passes over slot 10, takes nothing from a slot behind it, and ends behind slot 31. -/
theorem test_sweep_passes_over :
    let s := { post 20 1 [] (post 2 1 [] run) with sweepNext := some 10, sweepDue := true }
    (answered (exec .sweep s)).sweepNext = some 11 ∧ answered (exec (.insertPass 2) s) = s
      ∧ (answered (exec .sweep { s with sweepNext := some 31 })).sweepNext = none := by decide +kernel

/-- INSERT_PASS of a card: product, first valid day and order flags. -/
def insertOf (uid : List (Nat × Nat × Nat)) (product first flags : Nat) (s : State) : State :=
  post 0 1 (uid ++ [(19, 1, product), (20, 2, 0x0102), (22, 2, 805), (24, 2, first), (26, 3, 9999), (29, 1, flags)]) s

/-- The manual's example behind R24: an insert of product 9 at a slot (1,354) behind the withdrawal scan, which stands at slot
3,000, is noted as a late reference; R23: at the scan's own slot it is not. -/
theorem test_late_reference :
    ∀ x ∈ [(3000, true), (1355, true), (1354, false)],
      let s := { insertOf uidB 9 811 0 run with withdrawal := some ⟨⟨1, 9, false⟩, x.1, false, false, 99990⟩ }
      (answered (exec (.insertPass 0) s)).withdrawal = some ⟨⟨1, 9, false⟩, x.1, false, x.2, 99990⟩ := by decide +kernel

/-- Sixteen LIVE entries of another card (its UID all zeros) from card B's home slot on. -/
def crowdedTable : State :=
  (List.range 16).foldl (fun s i => s.poke (passBase (homeSlot cardB + i)) 2 0x0401) run

theorem witness_InsertPassWritesNewEntry :
    ∀ first ∈ [811, 0xFFFF],
      let s := insertOf uidB 9 first 1 run
      s.ok ∧ carries s 0 1 ∧ payloadUid s 0 = some cardB ∧ s.peek (orderBase 0 + 19) 1 ≤ 63
        ∧ (s.product 9).kind ≠ .none ∧ readStaging s.mem = [] ∧ lookup s.mem cardB = none
        ∧ (first ≠ 0xFFFF ∨ (s.product 9).floating = true) ∧ firstVacant s cardB (probed cardB 0)
        ∧ ∀ n, (s.lane n).state = .ready none := by unfold State.ok carries firstVacant; decide +kernel

/-- The last slot probed is the first vacant one, behind fifteen LIVE entries; it is a TOMB, or its state above 2. -/
theorem witness_InsertPassWritesNewEntry_last :
    ∀ state ∈ [0, 2, 3], let s := insertOf uidB 9 811 1 (crowdedTable.poke (passBase (probed cardB 15)) 1 state)
      firstVacant s cardB (probed cardB 15) ∧ lookup s.mem cardB = none := by unfold firstVacant; decide +kernel

theorem witness_InsertPassUpdatesEntry :
    (∀ flags ∈ [0, 1],
      let s := insertOf uidA 3 811 flags run
      s.ok ∧ carries s 0 1 ∧ payloadUid s 0 = some cardA ∧ (s.product 3).kind ≠ .none ∧ readStaging s.mem = []
        ∧ lookup s.mem cardA = some 1695 ∧ (s.product (s.pass 1695).product).kind = (s.product 3).kind
        ∧ (s.pass 1695).usage % 256 ≤ (s.product 3).daysBought ∧ ∀ n, (s.lane n).state = .ready none)
    ∧ let s := insertOf uidA 9 0xFFFF 2 run
      s.ok ∧ carries s 0 1 ∧ payloadUid s 0 = some cardA ∧ (s.product 9).kind ≠ .none ∧ lookup s.mem cardA = some 1695
        ∧ (s.peek (orderBase 0 + 29) 1).testBit 1 = true ∧ (s.pass 1695).retired = false
        ∧ (s.pass 1695).marker = none ∧ (s.product 9).floating = true := by unfold State.ok carries; decide +kernel

/-- The entry INSERT_PASS writes for card B on product 9. -/
def insertedB : PassEntry :=
  { ridePass with usage := 30, lastDay := none, lastMinute := none }

theorem witness_InsertPassDecidesReferral :
    ∀ x ∈ [(run, 0x0102, none), (journalWith crowded run, 0x0102, none), (run, 0x0103, some DenyReason.staleCard)],
      let r := { referralB with stamp := x.2.1 }
      let s := insertOf uidB 9 811 0 (inState 1 (.referred r) x.1)
      s.ok ∧ carries s 0 1 ∧ payloadUid s 0 = some cardB ∧ (s.product 9).kind ≠ .none ∧ readStaging s.mem = []
        ∧ lookup s.mem cardB = none ∧ s.peek (orderBase 0 + 24) 2 ≠ 0xFFFF ∧ firstVacant s cardB (homeSlot cardB)
        ∧ (s.lane 1).state = .referred r ∧ r.uid = cardB ∧ (∀ m, m ≠ 1 → (s.lane m).state = .ready none)
        ∧ firstFailure (entryChecks s insertedB (s.product 9) r.stamp) = x.2.2 := by
  unfold State.ok carries firstVacant; decide +kernel

/-- A card in the table, updated in place with and without RESET_USAGE, and two lanes REFERRED for it. -/
theorem witness_InsertPassDecidesReferral_known :
    ∀ flags ∈ [0, 2],
      let r := { referralB with uid := cardA }
      let q := { r with port := 2 }
      let s := insertOf uidA 3 811 flags (inState 2 (.referred q) (inState 1 (.referred r) run))
      let e := { sixPass with
        issueDay := 805, paid := 9999, usage := if flags = 2 then 0 else 259
        lastDay := if flags = 2 then none else some 816, lastMinute := if flags = 2 then none else some 600
        creditedDay := if flags = 2 then none else some 812 }
      s.ok ∧ carries s 0 1 ∧ payloadUid s 0 = some cardA ∧ s.peek (orderBase 0 + 19) 1 = 3
        ∧ (s.product 3).kind = .days ∧ readStaging s.mem = [] ∧ lookup s.mem cardA = some 1695
        ∧ (s.pass 1695).retired = false ∧ (s.pass 1695).marker = none ∧ (s.pass 1695).usage % 256 ≤ (s.product 3).daysBought
        ∧ e = { s.pass 1695 with
                stamp := s.peek (orderBase 0 + 20) 2, product := 3, issueDay := s.peek (orderBase 0 + 22) 2
                paid := s.peek (orderBase 0 + 26) 3, firstDay := some 811
                flags := setFlag (s.pass 1695).flags 0 false, usage := e.usage, lastDay := e.lastDay
                lastMinute := e.lastMinute, creditedDay := e.creditedDay }
        ∧ (s.lane 1).state = .referred r ∧ (s.lane 2).state = .referred q ∧ q.stamp = r.stamp ∧ q.port ≠ r.port
        ∧ (s.lane 0).state = .ready none ∧ (s.lane 3).state = .ready none
        ∧ firstFailure (entryChecks s e (s.product 3) r.stamp) = none ∧ 5 ≤ s.journal.room := by
  unfold State.ok carries; decide +kernel

theorem witness_InsertPassDecidesReferral_room :
    5 ≤ run.journal.room ∧ crowded.room < 5 := by decide +kernel

theorem witness_InsertPassRefusals :
    (let s := post 0 1 [(8, 1, 5)] run
     s.ok ∧ carries s 0 1 ∧ payloadUid s 0 = none)
    ∧ (∀ product ∈ [64, 8], let s := insertOf uidA product 811 0 run
        s.ok ∧ carries s 0 1 ∧ payloadUid s 0 = some cardA
          ∧ (63 < s.peek (orderBase 0 + 19) 1 ∨ (s.product (s.peek (orderBase 0 + 19) 1)).kind = .none))
    ∧ (let s := insertOf uidA 3 811 0 (onMem (writeStaging testMem [(3, .withdrawn)]) run)
       ∃ x ∈ readStaging s.mem, x.1 = 3 ∧ x.2.kind = .none)
    ∧ (let s := insertOf uidA 3 811 2 (run.poke (passBase 1695 + 15) 1 2)
       lookup s.mem cardA = some 1695 ∧ (s.peek (orderBase 0 + 29) 1).testBit 1 = true ∧ (s.pass 1695).retired = true)
    ∧ (let s := insertOf uidA 3 811 2 (run.poke (passBase 1695 + 31) 1 0)
       lookup s.mem cardA = some 1695 ∧ (s.pass 1695).retired = false ∧ (s.pass 1695).marker ≠ none)
    ∧ (let s := insertOf uidA 9 811 0 run
       lookup s.mem cardA = some 1695 ∧ (s.product (s.pass 1695).product).kind ≠ (s.product 9).kind)
    ∧ (let s := insertOf uidA 3 811 0 (run.poke (passBase 1695 + 22) 2 7)
       lookup s.mem cardA = some 1695 ∧ (s.product 3).daysBought < (s.pass 1695).usage % 256)
    ∧ (let m := writeProduct run.mem 5 { sixDay with floating := false }
       let s := insertOf uidA 5 0xFFFF 2 (onMem m run)
       lookup s.mem cardA = some 1695 ∧ (s.pass 1695).retired = false ∧ (s.pass 1695).marker = none
        ∧ (s.product 5).kind ≠ .none ∧ (s.product 5).floating = false
        ∧ lookup (insertOf uidB 5 0xFFFF 0 (onMem m run)).mem cardB = none) := by
  unfold State.ok carries; decide +kernel

theorem witness_InsertPassRefusals_crowded :
    let s := insertOf uidB 9 811 0 crowdedTable
    lookup s.mem cardB = none ∧ (∀ i < 16, slotStateOf s.mem (probed cardB i) = 1) ∧ payloadUid s 0 = some cardB := by
  decide +kernel

theorem witness_AmendPassChangesEntry :
    (∀ action ∈ [0, 1, 2, 3],
      let s := post 3 2 (uidA ++ [(19, 1, action), (20, 1, 1), (21, 2, 9)]) run
      s.ok ∧ carries s 3 2 ∧ payloadUid s 3 = some cardA ∧ s.peek (orderBase 3 + 19) 1 = action
        ∧ lookup s.mem cardA = some 1695)
    ∧ let s := post 3 2 uidB run
      s.ok ∧ carries s 3 2 ∧ payloadUid s 3 = some cardB ∧ lookup s.mem cardB = none := by
  unfold State.ok carries; decide +kernel

/-- A card found at the first slot probed, and one found at the last behind fifteen LIVE entries; one not found. -/
theorem witness_RemoveAndReadPass_lookup :
    (slotStateOf run.mem (probed cardA 0) = 1 ∧ run.peek (passBase (probed cardA 0) + 1) 1 = cardA.length
      ∧ run.mem.readBytes (passBase (probed cardA 0) + 2) cardA.length = cardA)
    ∧ (let s := onMem (writePass crowdedTable.mem (probed cardB 15) ridePass) run
       slotStateOf s.mem (probed cardB 15) = 1 ∧ s.peek (passBase (probed cardB 15) + 1) 1 = cardB.length
        ∧ s.mem.readBytes (passBase (probed cardB 15) + 2) cardB.length = cardB
        ∧ ∀ j < 15, slotStateOf s.mem (probed cardB j) ≠ 0
            ∧ ¬(s.peek (passBase (probed cardB j) + 1) 1 = cardB.length
              ∧ s.mem.readBytes (passBase (probed cardB j) + 2) cardB.length = cardB))
    ∧ ∀ i < 16, slotStateOf run.mem (probed cardB i) ≠ 1 := by decide +kernel

theorem witness_RemoveAndReadPass :
    (∀ kind ∈ [3, 4], ∀ uid ∈ [uidA, uidB],
      let s := post 6 kind uid run
      s.ok ∧ carries s 6 kind ∧ payloadUid s 6 = some (if uid = uidA then cardA else cardB)
        ∧ lookup s.mem cardA = some 1695 ∧ lookup s.mem cardB = none ∧ (s.pass 1695).marker = none)
    ∧ (post 6 3 uidA (run.poke (passBase 1695 + 31) 1 3)).pass 1695 ≠ run.pass 1695
    ∧ ((post 6 3 uidA (run.poke (passBase 1695 + 31) 1 3)).pass 1695).marker = some 3 := by
  unfold State.ok carries; decide +kernel

theorem witness_OrderRefusalsChangeSlotOnly :
    (∀ kind ∈ [2, 3, 4], let s := post 6 kind [(8, 1, 11)] run
      s.ok ∧ carries s 6 kind ∧ payloadUid s 6 = none)
    ∧ (∀ x ∈ [(65535, 0), (818, 86400000), (817, 86399999), (818, 35999999)],
        let s := post 6 9 [(8, 2, x.1), (10, 4, x.2)] run
        s.ok ∧ carries s 6 9 ∧ s.station ≠ .quiet ∧ s.peek (orderBase 6 + 8) 2 = x.1 ∧ s.peek (orderBase 6 + 10) 4 = x.2) := by
  unfold State.ok carries; decide +kernel

/-- SETTLE_PASS of card A in a mode on a day. -/
def settleOf (mode day : Nat) : State := post 6 6 (uidA ++ [(19, 1, mode)]) { run with day := day }

theorem witness_SettleQuoteGivesFigures_SettleFinalRetiresPass :
    ∀ mode ∈ [1, 2], ∀ x ∈ [(820, 1000), (821, 750), (850, 750)],
      let s := settleOf mode x.1
      let e := s.pass 1695
      let d := s.product e.product
      s.ok ∧ carries s 6 6 ∧ s.peek (orderBase 6 + 19) 1 = mode ∧ payloadUid s 6 = some cardA ∧ 5 ≤ s.journal.room
        ∧ lookup s.mem cardA = some 1695 ∧ e.blocked = false ∧ e.retired = false ∧ e.marker = none
        ∧ d.refundable = true ∧ d.kind = .days
        ∧ ((s.day ≤ lastDayOf s 1695 ∧ x.2 = 1000)
          ∨ (lastDayOf s 1695 < s.day ∧ s.day ≤ lastDayOf s 1695 + d.deadline ∧ x.2 = d.late)) := by
  unfold State.ok carries; decide +kernel

theorem witness_SettleRefusals :
    (∀ mode ∈ [0, 1, 2, 3], (settleOf mode 818).ok ∧ carries (settleOf mode 818) 6 6
      ∧ (settleOf mode 818).peek (orderBase 6 + 19) 1 = mode ∧ payloadUid (settleOf mode 818) 6 = some cardA)
    ∧ payloadUid (post 6 6 [(8, 1, 3)] run) 6 = none
    ∧ (journalWith crowded (settleOf 2 818)).journal.room < 5
    ∧ lookup (post 6 6 (uidB ++ [(19, 1, 1)]) run).mem cardB = none
    ∧ ((run.poke (passBase 1695 + 15) 1 1).pass 1695).blocked = true
    ∧ ((run.poke (passBase 1695 + 15) 1 2).pass 1695).retired = true
    ∧ ((run.poke (passBase 1695 + 31) 1 1).pass 1695).marker ≠ none
    ∧ (let s := settleOf 1 851
       lastDayOf s 1695 < s.day ∧ lastDayOf s 1695 + (s.product (s.pass 1695).product).deadline < s.day) := by
  unfold State.ok carries; decide +kernel

/-- The hypotheses of STAGE_PRODUCT's placing clauses on the new record, and those against the record in force. -/
def sound (new : Product) : Bool :=
  decide (1 ≤ new.span ∧ new.span ≤ 255 ∧ (new.floating = true → 1 ≤ new.activation ∧ new.activation ≤ 365)
    ∧ new.openMinute ≤ 1410 ∧ 30 ≤ new.closeMinute ∧ new.closeMinute ≤ 1440 ∧ new.openMinute + 30 ≤ new.closeMinute
    ∧ new.passback ≤ 120)
    && decide (new.kind = .days → 1 ≤ new.daysBought ∧ new.daysBought ≤ 14 ∧ new.cutoff ≤ 1440
      ∧ ∀ i < new.daysBought, 1 ≤ i → new.price i ≤ new.price (i + 1))
    && decide (new.kind = .rides → 1 ≤ new.ridesInitial ∧ new.ridesInitial ≤ 500)
    && decide (new.kind ≠ .season → 1 ≤ new.rounding ∧ new.rounding ≤ 10000 ∧ new.late ≤ 1000 ∧ new.deadline ≤ 365)

def follows (old new : Product) : Prop :=
  (old.kind ≠ .none → old.kind = new.kind) ∧ (old.kind = .days → old.daysBought ≤ new.daysBought)
    ∧ (old.kind = .rides → old.ridesInitial ≤ new.ridesInitial)

/-- A new index with bounds at their ends, and product 3 in force staged again. -/
def edgeProduct : Product := { sixDay with span := 255, activation := 365, openMinute := 1410, passback := 120, cutoff := 1440 }

theorem witness_StageProductPlacesRecord :
    sound edgeProduct = true ∧ sound sixDay = true ∧ follows .withdrawn edgeProduct ∧ follows sixDay sixDay := by
  unfold follows; decide +kernel

theorem witness_StageProductPlacesRecord_orders :
    (let s := postProduct 2 63 1 edgeProduct quiet
     s.ok ∧ carries s 2 7 ∧ s.peek (orderBase 2 + 8) 1 = 63 ∧ s.peek (orderBase 2 + 10) 1 = 1
      ∧ readProductAt s.mem (orderBase 2 + 10) = edgeProduct ∧ s.product 63 = .withdrawn
      ∧ (s.peek (orderBase 2 + 9) 1).testBit 0 = true ∧ s.station = .quiet)
    ∧ let s := postProduct 2 3 0 sixDay run
      s.ok ∧ carries s 2 7 ∧ s.peek (orderBase 2 + 8) 1 = 3 ∧ readProductAt s.mem (orderBase 2 + 10) = sixDay
        ∧ s.product 3 = sixDay ∧ (s.peek (orderBase 2 + 9) 1).testBit 0 = false ∧ (readStaging s.mem).length < 8 := by
  unfold State.ok carries; decide +kernel

/-- Eight staged records, none for index 3. -/
def fullStaging : Memory := (List.range 8).foldl (fun m i => m.write (stagingBase i + 126) 2 (0x0100 + 20 + i)) testMem

/-- Orders for each refusal: an index or a kind that is none, a field out of bounds, hours too short, a falling ladder,
another kind, a lower allowance; then one for which only IMMEDIATE or the full Staging Area is in the way. -/
theorem witness_StageProductRefusesOrScans :
    (∀ x ∈ [(64, sixDay), (0, { sixDay with span := 0 }), (0, { sixDay with passback := 121 }),
        (0, { sixDay with openMinute := 720, closeMinute := 749 }), (0, { sixDay with daysBought := 7 }),
        (3, { rides30 with ridesInitial := 500 }), (3, { sixDay with daysBought := 5 }), (3, sixDay), (0, rides30),
        (9, { rides30 with ridesInitial := 29 }), (3, .withdrawn)],
      let s := postProduct 0 x.1 0 x.2 run
      s.ok ∧ carries s 0 7 ∧ s.peek (orderBase 0 + 8) 1 = x.1 ∧ readProductAt s.mem (orderBase 0 + 10) = x.2)
    ∧ (postProduct 0 3 0 sixDay run).peek (orderBase 0 + 10) 1 = 1
    ∧ sound sixDay = true ∧ sound rides30 = true ∧ sound { rides30 with ridesInitial := 500 } = true
    ∧ sound { sixDay with daysBought := 5 } = true
    ∧ ¬720 + 30 ≤ 749 ∧ ¬sixDay.price 6 ≤ sixDay.price 7
    ∧ (run.product 3).kind = .days ∧ (run.product 3).daysBought = 6 ∧ (run.product 0).kind = .none
    ∧ (run.product 9).ridesInitial = 30 ∧ (readStaging run.mem).length < 8 := by
  unfold State.ok carries; decide +kernel

theorem witness_StageProductRefusesOrScans_withdrawal :
    (∀ p ∈ [Product.withdrawn, sixDay], let s := postProduct 0 3 1 p run
      s.ok ∧ carries s 0 7 ∧ s.withdrawal = none ∧ (s.peek (orderBase 0 + 9) 1).testBit 0 = true ∧ s.station ≠ .quiet)
    ∧ (∀ p ∈ [Product.withdrawn, sixDay], let s := postProduct 0 3 0 p (onMem fullStaging run)
       s.ok ∧ carries s 0 7 ∧ (readStaging s.mem).length = 8 ∧ ∀ x ∈ readStaging s.mem, x.1 ≠ 3)
    ∧ (let s := postProduct 0 3 1 .withdrawn { run with station := .quiet }
       s.ok ∧ carries s 0 7 ∧ (s.product 3).kind ≠ .none ∧ s.station = .quiet)
    ∧ let s := { postProduct 0 3 0 .withdrawn run with withdrawal := some ⟨⟨1, 9, false⟩, 512, false, false, 99000⟩ }
      s.ok ∧ carries s 0 7 ∧ s.withdrawal ≠ none ∧ (s.product 3).kind ≠ .none := by
  unfold State.ok carries; decide +kernel

/-- A withdrawal of product 63, which is NONE, while a scan of product 9 runs. -/
theorem witness_StageProductRefusesOrScans_none :
    ∀ x ∈ [(0, StationState.running), (1, .quiet), (1, .running)],
      let s := { postProduct 0 63 x.1 .withdrawn { run with station := x.2 } with
                 withdrawal := some ⟨⟨1, 9, false⟩, 512, false, false, 99000⟩ }
      s.ok ∧ carries s 0 7 ∧ s.peek (orderBase 0 + 8) 1 = 63 ∧ s.peek (orderBase 0 + 10) 1 = 0
        ∧ (s.product 63).kind = .none ∧ ((s.peek (orderBase 0 + 9) 1).testBit 0 = true ↔ x.1 = 1) ∧ s.station = x.2
        ∧ (readStaging s.mem).length < 8 := by
  unfold State.ok carries; decide +kernel

/-- A withdrawal scan whose order stands TAKEN in slot 0. -/
def scanOf (index position : Nat) (immediate finalPass late : Bool) : State :=
  { run.poke (orderBase 0) 2 2 with
    withdrawal := some ⟨⟨0, index, immediate⟩, position, finalPass, late, 100000 - position / 512 - 1⟩ }

theorem witness_WithdrawalScanSteps :
    ∀ x ∈ [(3, 1695), (3, 1024), (3, 0), (5, 6142), (5, 6143)],
      let s := scanOf x.1 x.2 false true true
      s.ok ∧ s.withdrawalsWaiting = [] ∧ x.1 ≤ 63 ∧ (100000 - x.2 / 512 - 1) + x.2 / 512 + 1 ≤ s.now
        ∧ orderState s (0 : Fin 32) = 2 ∧ x.2 ≤ 6143 ∧ (readStaging s.mem).length < 8 := by
  unfold State.ok; decide +kernel

/-- A LIVE pass of product 3 stands in slot 1,695, and none in slots 1,024 and 6,143. -/
theorem witness_WithdrawalScanSteps_found :
    (slotStateOf run.mem 1695 = 1 ∧ (run.pass 1695).product = 3)
      ∧ ∀ slot ∈ [0, 1024, 6142, 6143], slotStateOf run.mem slot ≠ 1 := by decide +kernel

/-- A scan that ends STAGE_FULL, and one behind which two withdrawals wait, the lower slot's to start. -/
theorem witness_WithdrawalScanSteps_ends :
    (let s := onMem fullStaging (scanOf 5 6143 false true false)
     (readStaging s.mem).length = 8 ∧ ∀ x ∈ readStaging s.mem, x.1 ≠ 5)
    ∧ let o : WithdrawalOrder := ⟨7, 9, false⟩
      let s := { scanOf 3 1695 false true true with withdrawalsWaiting := [⟨31, 63, true⟩, o] }
      s.ok ∧ o ∈ s.withdrawalsWaiting ∧ o.index ≤ 63 ∧ (s.product o.index).kind ≠ .none ∧ o.slot ≠ 0
        ∧ (readStaging s.mem).length < 8 ∧ (s.withdrawalsWaiting.map (·.slot)).Nodup
        ∧ ∀ x ∈ s.withdrawalsWaiting, x ≠ o → o.slot < x.slot := by unfold State.ok; decide +kernel

/-- POST_CLOSURE: day, start and end minute. -/
def closureOf (day start stop : Nat) (s : State) : State :=
  post 9 8 [(8, 2, day), (10, 2, start), (12, 2, stop), (14, 1, 2)] s

theorem witness_PostClosureStartsSweep :
    (∀ x ∈ [(818, 600, 1440), (818, 0, 0xFFFF), (818, 601, 602), (817, 600, 601), (65535, 0, 1), (818, 1440, 0xFFFF),
        (818, 600, 600), (818, 0, 1441)],
      let s := closureOf x.1 x.2.1 x.2.2 run
      s.ok ∧ carries s 9 8 ∧ s.creditSweep = none ∧ s.peek (orderBase 9 + 8) 2 = x.1 ∧ s.peek (orderBase 9 + 10) 2 = x.2.1
        ∧ s.peek (orderBase 9 + 12) 2 = x.2.2 ∧ s.ms / 60000 = 600 ∧ closureHeld s.mem 0 = false)
    ∧ (let s := (List.range 8).foldl (fun s i => s.poke (closureBase i) 2 1) (closureOf 818 600 601 run)
       s.ok ∧ carries s 9 8 ∧ ∀ i < 8, closureHeld s.mem i = true)
    ∧ let s := { closureOf 818 600 601 run with creditSweep := some ⟨⟨1, 818, 1, 0xFFFF, 0⟩, 0, 0, 0, 99999⟩ }
      s.ok ∧ carries s 9 8 ∧ s.creditSweep ≠ none := by unfold State.ok carries; decide +kernel

/-- A credit sweep at a position, its order TAKEN in slot 0, on day 818 with the closure of minute 720 in position 7; the
pass in slot 1,695 last used today. -/
def sweeping (position : Nat) : State :=
  let s := (run.poke (orderBase 0) 2 2).poke (passBase 1695 + 20) 2 818
  { s with
    mem := writeClosure s.mem 7 ⟨818, 720, 0xFFFF, 1⟩
    creditSweep := some ⟨⟨0, 818, 720, 0xFFFF, 1⟩, 7, position, 65535, 100000 - position / 512 - 1⟩ }

theorem witness_CreditSweepCreditsPasses :
    (∀ position ∈ [0, 1695, 6143], let s := sweeping position
      s.ok ∧ s.creditSweep.map (fun c => (c.position, c.start + c.position / 512 + 1)) = some (position, s.now)
        ∧ orderState s (0 : Fin 32) = 2 ∧ s.closuresWaiting = [])
    ∧ (let s := sweeping 1695
       let e := s.pass 1695
       let d := s.product e.product
       slotStateOf s.mem 1695 = 1 ∧ d.kind = .days ∧ e.retired = false ∧ e.lastDay = some s.day
        ∧ e.creditedDay ≠ some s.day ∧ e.usage / 256 < e.usage % 256 ∧ d.cutoff < 1440
        ∧ (closureHeld s.mem 7 = true ∧ (readClosure s.mem 7).startMinute ≤ d.cutoff) ∧ e.marker = none)
    ∧ slotStateOf (sweeping 6143).mem 6143 ≠ 1 := by unfold State.ok; decide +kernel

/-- The end of the sweep with two orders waiting, the lower slot's to start in the lowest EMPTY position. -/
theorem witness_CreditSweepCreditsPasses_waiting :
    let o : ClosureOrder := ⟨3, 818, 600, 65535, 255⟩
    let s := { sweeping 6143 with closuresWaiting := [⟨31, 818, 0, 1440, 0⟩, o] }
    s.ok ∧ o ∈ s.closuresWaiting ∧ o.day = s.day ∧ o.startMinute ≤ s.ms / 60000 ∧ closureHeld s.mem 0 = false
      ∧ (s.closuresWaiting.map (·.slot)).Nodup ∧ (∀ x ∈ s.closuresWaiting, x ≠ o → o.slot < x.slot)
      ∧ s.creditSweep.map (·.order.slot) = some 0 ∧ ∀ x ∈ s.closuresWaiting, x.slot ≠ 0 := by
  unfold State.ok; decide +kernel

/-- A sweep cut short by the end of the day, and by a SET_TIME to an earlier day in QUIET. -/
theorem witness_CreditSweepCreditsPasses_cut :
    (let s := { sweeping 1695 with ms := 86399999, dayEnd := true }
     s.ok ∧ s.closuresWaiting = [] ∧ s.ms + 1 = 86400000 ∧ s.day < 65534 ∧ readStaging s.mem = []
      ∧ orderState s (0 : Fin 32) = 2)
    ∧ let s := { post 31 9 [(8, 2, 817), (10, 4, 86399999)] (onMem (sweeping 1695).mem quiet) with
                 creditSweep := (sweeping 1695).creditSweep }
      s.ok ∧ timeLaw s ∧ carries s 31 9 ∧ s.station = .quiet ∧ s.closuresWaiting = [] ∧ orderState s (0 : Fin 32) = 2
        ∧ (∀ n, (s.lane n).window = none) ∧ s.peek (orderBase 31 + 8) 2 < s.day := by
  unfold State.ok timeLaw carries; decide +kernel

/-- SET_LANE of lane 0 with the fields of `config0`. -/
def config0 : LaneConfig := ⟨.entry, 1000, 60000, .pulse 50, 3, [some 0, some 31] ++ List.replicate 11 none⟩
def setLaneOf (lane role port : Nat) (s : State) : State :=
  post 0 10 ([(8, 1, lane), (9, 1, role), (10, 2, 999), (12, 2, 60001), (14, 1, 1), (15, 2, 49), (17, 1, port), (18, 1, 0),
    (19, 1, 31)] ++ (List.range 11).map (fun i => (20 + i, 1, 0xFF))) s

theorem witness_SetLaneInQuiet :
    (let s := setLaneOf 0 1 3 quiet
     let f := fun off len => s.peek (orderBase 0 + off) len
     s.ok ∧ carries s 0 10 ∧ s.station = .quiet ∧ f 8 1 = 0 ∧ f 9 1 = 1
      ∧ config0.grantWindow = (if f 10 2 = 0 then 6000 else max 1000 (min 15000 (f 10 2)))
      ∧ config0.holdLimit = (if f 12 2 = 0 then 20000 else max 5000 (min 60000 (f 12 2)))
      ∧ f 14 1 = 1 ∧ config0.drive = .pulse (max 50 (min 500 (f 15 2))) ∧ f 17 1 = config0.port.val
      ∧ (∀ i < 13, (∃ list : Fin 32, f (18 + i) 1 = list.val ∧ config0.cueMap[i]? = some (some list))
        ∨ f (18 + i) 1 = 0xFF ∧ config0.cueMap[i]? = some none) ∧ config0.cueMap.length = 13
      ∧ sourcesMapped s 0 .entry = true)
    ∧ sourcesMapped quiet 1 .entry = false
    ∧ (let s := withRole 2 .ret (quiet.modLane 2 fun l => { l with config := { l.config with port := 3 } })
       ∃ m, m ≠ 0 ∧ ∃ d ∈ (s.lane m).configs, portsClash config0 d) := by
  unfold State.ok carries portsClash; decide +kernel

/-- A lane, a role, a lock drive, a port and a cue list just beyond R89's bounds, and a list just below NONE. -/
theorem witness_SetLaneInQuiet_bounds :
    ∀ x ∈ [(8, 4), (9, 3), (14, 2), (17, 4), (18, 32), (30, 254)],
      let s := (setLaneOf 0 1 0 run).poke (orderBase 0 + x.1) 1 x.2
      s.ok ∧ carries s 0 10 ∧ s.peek (orderBase 0 + x.1) 1 = x.2 := by
  unfold State.ok carries; decide +kernel

/-- SET_LANE while QUIETING for a READY, a PASSING and a CAPTURING lane, its port free, and taken by lane 3. -/
theorem witness_SetLaneWhileRunning_quieting :
    ∀ st ∈ [LaneState.ready none, .passing passageA, .capturing captureA], ∀ x ∈ [((0 : Fin 4), false), (3, true)],
      let c := { config0 with port := x.1 }
      let s := setLaneOf 0 1 x.1 { inState 0 st run with station := .quieting }
      s.ok ∧ carries s 0 10 ∧ s.station = .quieting ∧ readSetLane s 0 = some (0, c) ∧ sourcesMapped s 0 .entry = true
        ∧ (s.lane 0).state = st
        ∧ ((∃ m, m ≠ 0 ∧ ∃ d ∈ (s.lane m).configs, portsClash c d) ↔ x.2 = true) := by
  unfold State.ok carries portsClash; decide +kernel

theorem witness_SetLaneWhileRunning :
    ∀ st ∈ [LaneState.down, .arming 3, .ready none, .referred referralB, .granted grantA, .fault .switchStuck, .free,
        .passing passageA, .capturing captureA],
      let s := setLaneOf 0 1 0 (inState 0 st run)
      s.ok ∧ carries s 0 10 ∧ s.station = .running ∧ readSetLane s 0 = some (0, { config0 with port := 0 })
        ∧ sourcesMapped s 0 .entry = true ∧ (s.lane 0).state = st
        ∧ (∀ m, m ≠ 0 → ∀ d ∈ (s.lane m).configs, ¬portsClash { config0 with port := 0 } d)
        ∧ (let u := setLaneOf 0 1 3 (inState 0 st run)
           u.ok ∧ carries u 0 10 ∧ readSetLane u 0 = some (0, config0) ∧ portsClash config0 (u.lane 3).config) := by
  unfold State.ok carries portsClash; decide +kernel

/-- MAP_INPUTS of sixteen pins, source i on pin i but for the first, with this debounce and polarity byte. -/
def mapOf (first low : Nat) (s : State) : State :=
  post 0 11 ((List.range 16).map fun i => (8 + 2 * i, 2, (if i = 0 then first else i) + 256 * low)) s

theorem witness_MapInputsReplacesMap :
    (∃ n, ((mapOf 0 4 run).lane n).state ≠ .down)
    ∧ (∀ x ∈ [(0, 4), (0, 201), (0xFF, 4), (1, 4), (16, 4), (0, 204), (0, 0), (0, 6)],
        let s := mapOf x.1 x.2 quiet
        s.ok ∧ carries s 0 11 ∧ (∀ n, (s.lane n).state = .down) ∧ s.peek (orderBase 0 + 8) 1 = x.1
          ∧ s.peek (orderBase 0 + 9) 1 = x.2 ∧ ∀ n, ∀ c ∈ (s.lane n).configs, c.role = .down) := by
  unfold State.ok carries; decide +kernel

theorem witness_MapInputsReplacesMap_sound :
    ∀ x ∈ [(0, 4), (0, 201), (0xFF, 4)],
      let s := mapOf x.1 x.2 quiet
      let pin := fun i => s.peek (orderBase 0 + 8 + 2 * i) 1
      let low := fun i => s.peek (orderBase 0 + 8 + 2 * i + 1) 1
      (∀ i < 16, pin i = 0xFF ∨ (pin i ≤ 15 ∧ low i % 4 ≤ 1 ∧ 1 ≤ low i / 4 ∧ low i / 4 ≤ 50))
        ∧ ∀ i < 16, ∀ j < 16, i ≠ j → pin i ≠ 0xFF → pin i ≠ pin j := by decide +kernel

/-- A lane of role RETURN in force and a lane of role ENTRY pending, each DOWN, under a map that serves both, and under one
that gives lane 0 no arm. -/
theorem witness_MapInputsReplacesMap_roles :
    ∀ first ∈ [0, 0xFF],
      let s := mapOf first 4 ((withRole 3 .ret quiet).modLane 0 fun l => { l with pendingConfig := some config0 })
      let pin := fun i => s.peek (orderBase 0 + 8 + 2 * i) 1
      s.ok ∧ carries s 0 11 ∧ (∀ n, (s.lane n).state = .down) ∧ (s.lane 3).config.role = .ret ∧ pin 15 ≠ 0xFF
        ∧ config0 ∈ (s.lane 0).configs ∧ config0.role = .entry ∧ (pin 0 ≠ 0xFF ↔ first = 0) ∧ pin 1 ≠ 0xFF
        ∧ pin 2 ≠ 0xFF := by
  unfold State.ok carries; decide +kernel

/-- Lane 0 GRANTED and lane 1 REFERRED. -/
def held : State := inState 1 (.referred referralB) (inState 0 (.granted grantA) run)

/-- The port a REFERRED lane answers at. -/
def answersAt : LaneState → Option (Fin 4)
  | .referred r => some r.port
  | _ => none

/-- Two lanes REFERRED, answered at ports of their own. -/
theorem witness_referralPortsDistinct : referralPortsDistinct (inState 2 (.referred { referralB with port := 2 }) held) := by
  intro n m r q hne hn hm h
  have all := (by decide +kernel :
    ∀ n m, n ≠ m → answersAt ((inState 2 (.referred { referralB with port := 2 }) held).lane n).state ≠ none →
      answersAt ((inState 2 (.referred { referralB with port := 2 }) held).lane n).state
        ≠ answersAt ((inState 2 (.referred { referralB with port := 2 }) held).lane m).state) n m hne
  rw [hn, hm] at all
  exact all (by simp [answersAt]) (congrArg some h)

theorem witness_FreeFlowOnFreesLanes :
    ∀ x ∈ [(0, false), (1, true), (1, false)],
      let s := post 0 12 [(8, 1, x.1)] { held with freeFlow := x.2 }
      s.ok ∧ carries s 0 12 ∧ s.peek (orderBase 0 + 8) 1 = x.1 ∧ s.freeFlow = x.2 ∧ s.station = .running
        ∧ (s.lane 0).state = .granted grantA ∧ (s.lane 1).state = .referred referralB
        ∧ s.lanesWaiting = [] := by
  unfold State.ok carries; decide +kernel

/-- Free flow while QUIETING: a CAPTURING lane lets it go on, and a PASSING lane alone lets it complete. -/
theorem witness_FreeFlowOnFreesLanes_quieting :
    (let s := post 0 12 [(8, 1, 1)] { inState 3 (.capturing captureA) run with station := .quieting }
     s.ok ∧ carries s 0 12 ∧ (s.lane 3).state.isBusy = true ∧ (s.lane 3).config.role = .ret)
    ∧ let s := post 0 12 [(8, 1, 1)] { inState 0 (.passing passageA) run with station := .quieting }
      s.ok ∧ carries s 0 12 ∧ s.station = .quieting
        ∧ ∀ n, (s.lane n).state.isBusy = true →
            (s.lane n).config.role = .entry ∧ (s.lane n).state ≠ .down ∧ (s.lane n).state ≠ .free := by
  unfold State.ok carries; decide +kernel

theorem witness_FreeFlowOffArmsLanes :
    ∀ x ∈ [(true, true), (false, false), (false, true)],
      let s := post 0 12 [(8, 1, 2)] ((inState 0 .free (inState 1 .free { run with evacuate := x.1, freeFlow := x.2 })).modLane 1
        fun l => { l with pendingConfig := some config0 })
      s.ok ∧ carries s 0 12 ∧ s.peek (orderBase 0 + 8) 1 = 2 ∧ s.evacuate = x.1 ∧ s.freeFlow = x.2
        ∧ (s.lane 0).state = .free ∧ (s.lane 0).pendingConfig = none ∧ (s.lane 1).state = .free
        ∧ (s.lane 1).pendingConfig = some config0 ∧ (s.lane 2).state ≠ .free := by
  unfold State.ok carries; decide +kernel

/-- Two FREE lanes with pending configurations of ports of their own, RUNNING and QUIETING. -/
theorem witness_FreeFlowOffArmsLanes_pending :
    ∀ station ∈ [StationState.running, .quieting],
      let pend := fun n (c : LaneConfig) (s : State) => s.modLane n fun l =>
        { l with state := .free, pendingConfig := some { c with port := n } }
      let s := post 0 12 [(8, 1, 2)]
        (pend 0 config0 (pend 1 { config0 with role := .down } { run with station := station, freeFlow := true }))
      s.ok ∧ carries s 0 12 ∧ s.peek (orderBase 0 + 8) 1 = 2 ∧ s.evacuate = false ∧ s.freeFlow = true ∧ portsExclusive s
        ∧ freePending s 0 = some { config0 with port := 0 } ∧ freePending s 1 ≠ none ∧ freePending s 2 = none := by
  unfold State.ok carries portsExclusive portsClash; decide +kernel

theorem witness_RunRequestStartsStation :
    (run.ok ∧ run.station ≠ .quiet)
    ∧ ({ quiet with timeSet := false }.ok ∧ { quiet with timeSet := false }.station = .quiet)
    ∧ let s := { (quiet.modLane 0 fun l => { l with config := { config0 with cueMap := List.replicate 13 (some 9) } }) with
                 freeFlow := true }
      s.ok ∧ s.station = .quiet ∧ s.timeSet = true ∧ (∀ n, (s.lane n).state = .down) ∧ (s.lane 0).config.role = .entry
        ∧ (s.lane 0).config.cueFor .free = some 9 ∧ servedLane s 3 = some 0 ∧ servedLane s 0 = none := by
  unfold State.ok; decide +kernel

theorem witness_QuietRequestQuietsStation :
    (quiet.ok ∧ quiet.station ≠ .running)
    ∧ (held.ok ∧ held.station = .running ∧ (held.lane 0).state = .granted grantA
      ∧ (held.lane 1).state = .referred referralB ∧ (held.lane 0).window ≠ none ∧ inService held 0 = true
      ∧ ∀ n, (held.lane n).state.code ≠ 5 ∧ (held.lane n).state.code ≠ 8)
    ∧ let s := inState 2 (.passing passageA) held
      s.ok ∧ s.station = .running ∧ (s.lane 2).state.code = 5 := by unfold State.ok; decide +kernel

theorem witness_RegisterWritesTakeEffect :
    (1 : BitVec 17).toNat % 4 = 1 ∧ (0x1FFFE : BitVec 17).toNat % 4 = 2 ∧ (3 : BitVec 17).toNat % 4 = 3
      ∧ (4 : BitVec 17).toNat % 4 = 0 ∧ run.mem.wf ∧ run.station ≠ .starting
      ∧ 2 * (0x1FFFF : BitVec 17).toNat ≠ hdrReadIndex ∧ 2 * (0 : BitVec 17).toNat ≠ hdrReadIndex
      ∧ (∀ pos ∈ [0, 6144 + 5, 6176], let s := { scanning 0 0 with startPos := pos }
          s.mem.wf ∧ s.station = .starting ∧ s.startPhase = .scan ∧ slotStateOf s.mem 1695 = 1 ∧ orderState s (5 : Fin 32) = 2)
      ∧ ∀ pos ∈ [0, 0x1F100], let s := { State.reset with startPos := pos }
          s.mem.wf ∧ s.station = .starting ∧ s.startPhase = .fill := by decide +kernel

theorem witness_JournalReadIndexGivesRoom :
    (let s := journalWith crowded run
     s.ok ∧ s.station ≠ .starting)
    ∧ crowded.readIndex = 0 ∧ crowded.writeIndex = 1023 ∧ (1 : Word).toNat < 1024 ∧ (1023 : Word).toNat < 1024
    ∧ ¬(1024 : Word).toNat < 1024 := by
  unfold State.ok; decide +kernel

/-- A presence sample due: the word in the header, the count so far, the station's own view. -/
def sampled (word count : Nat) (online : Bool) : State :=
  { run.poke hdrPresence 2 word with presenceDue := true, presenceCount := count, online := online }

theorem witness_PresenceSampleFollowsWord :
    ∀ x ∈ [(7, 0, true), (7, 10, false), (0, 8, true), (0, 10, false), (0, 9, true)],
      let s := sampled x.1 x.2.1 x.2.2
      s.ok ∧ s.station = .running ∧ s.presenceDue = true ∧ s.online = x.2.2
        ∧ (s.peek hdrPresence 2 ≠ s.presenceValue ↔ x.1 = 7)
        ∧ (min (s.presenceCount + 1) s.options.presenceLimit = s.options.presenceLimit ↔ x.2.1 ≠ 0 ∧ x.2.1 ≠ 8) := by
  unfold State.ok; decide +kernel

/-- A commit about to be taken at lane 0, its closure crediting the day where there is one. -/
def committing (closure : Bool) : State :=
  inState 0 (.granted grantA) (onMem (if closure then writeClosure testMem 0 ⟨818, 720, 0xFFFF, 0⟩ else testMem) run)

theorem witness_IndexPulseCommitsGrant :
    ∀ closure, let s := committing closure
      s.ok ∧ timeLaw s ∧ (s.lane 0).config.role = .entry ∧ (s.lane 0).state = .granted grantA
        ∧ (s.lane 0).arm.source = some ⟨0, .activeHigh, 3⟩ ∧ 3 ≤ (s.lane 0).arm.hold ∧ (s.lane 0).arm.level = false
        ∧ (s.product (s.pass grantA.slot).product).kind = .days ∧ (s.pass grantA.slot).lastDay ≠ some s.day
        ∧ (closure = true ↔ ∃ i < 8, closureHeld s.mem i = true
          ∧ (readClosure s.mem i).startMinute ≤ (s.product (s.pass grantA.slot).product).cutoff) := by
  unfold State.ok timeLaw; decide +kernel

theorem witness_IndexPulseForcedOrFree_ExitBlockCountsTailgateOrDuck :
    (∀ st ∈ [LaneState.down, .arming 4, .ready none, .ready (some 97001), .referred referralB, .free,
        .fault (.beamStuck true), .passing passageA, .passing { passageA with exitBlocks := 1 }, .granted grantA,
        .granted { grantA with exitBlocks := 1 }],
      let s := inState 0 st run
      s.ok ∧ (s.lane 0).state = st ∧ (s.lane 0).config.role = .entry ∧ (s.lane 0).arm = input 0 false
        ∧ (s.lane 0).exitBeam = input 2 false)
    ∧ (run.lane 3).config.role ≠ .entry ∧ (run.lane 3).arm = input 0 false ∧ run.now - 97001 < 3000 := by
  unfold State.ok; decide +kernel

theorem witness_EdgesMoveTrackers :
    ((run.lane 0).entryBeam = ⟨some ⟨1, .activeHigh, 3⟩, false, 3⟩ ∧ (run.lane 0).config.role = .entry
      ∧ (run.lane 0).state ≠ .down ∧ (run.lane 3).config.role ≠ .entry
      ∧ (run.lane 3).switch = ⟨some ⟨3, .activeHigh, 3⟩, false, 3⟩ ∧ (run.lane 3).state.code ≠ 8)
    ∧ let l := (blocked 0 run).lane 0
      l.entryBeam = ⟨some ⟨1, .activeHigh, 3⟩, true, 3⟩ ∧ l.exitBeam = ⟨some ⟨2, .activeHigh, 3⟩, true, 3⟩
        ∧ l.switch = ⟨some ⟨3, .activeHigh, 3⟩, true, 3⟩ ∧ l.state.code ≠ 5 := by decide +kernel

theorem witness_LaneReturnsToReady :
    (let s := inState 0 (.arming 500) run
     s.ok ∧ (s.lane 0).state = .arming 500)
    ∧ (∀ tick ∈ [99700, 99701, 98500], ∀ station ∈ [StationState.running, .quieting],
        let s := inState 1 (.passing passageA)
          (inState 0 (.passing { passageA with tick := tick }) (blocked 0 { run with station := station }))
        s.ok ∧ (s.lane 0).state = .passing { passageA with tick := tick } ∧ s.station = station
          ∧ (s.lane 1).state.code = 5 ∧ (∀ o ∈ s.lanesWaiting, o.lane ≠ 0) ∧ (s.lane 0).config.role = .entry
          ∧ (s.lane 0).exitBeam = input 2 true)
    ∧ 300 ≤ run.now - 99700 ∧ run.now - 99701 < 300 ∧ 1500 ≤ run.now - 98500 ∧ (run.lane 0).exitBeam.level = false := by
  unfold State.ok; decide +kernel

/-- A SET_LANE waiting for a lane, its order TAKEN in slot 4: to port 0, that the lane has, or to port 3, that lane 3 has. -/
def waitingFor (n : Fin 4) (c : LaneConfig) (s : State) : State :=
  { s.poke (orderBase 4) 2 2 with lanesWaiting := [⟨5, 2, config0⟩, ⟨4, n, c⟩] }

theorem witness_LaneReturnsToReady_quieting :
    let s := { inState 0 (.passing { passageA with tick := 99700 }) run with station := .quieting }
    s.ok ∧ s.lanesWaiting = [] ∧ ∀ m, m ≠ 0 → (s.lane m).state.code ≠ 5 ∧ (s.lane m).state.code ≠ 8 := by
  unfold State.ok; decide +kernel

theorem witness_LaneReturnsToReady_waiting :
    ∀ port ∈ [(0 : Fin 4), 3],
      let s := waitingFor 0 { config0 with port := port } (inState 0 (.passing { passageA with tick := 99700 }) run)
      s.ok ∧ s.station = .running ∧ s.lanesWaiting.filter (fun o => o.lane = 0) = [⟨4, 0, { config0 with port := port }⟩]
        ∧ orderState s (4 : Fin 32) = 2 ∧ (s.lane 0).exitBeam.level = false := by
  unfold State.ok; decide +kernel

/-- The same while QUIETING, with lane 1 PASSING or none. -/
theorem witness_LaneReturnsToReady_waiting_quieting :
    ∀ busy : Bool, ∀ port ∈ [(0 : Fin 4), 3],
      let t := { inState 0 (.passing { passageA with tick := 99700 }) run with station := .quieting }
      let s := waitingFor 0 { config0 with port := port } (if busy then inState 1 (.passing passageA) t else t)
      s.ok ∧ s.station = .quieting ∧ s.lanesWaiting.filter (fun o => o.lane = 0) = [⟨4, 0, { config0 with port := port }⟩]
        ∧ orderState s (4 : Fin 32) = 2 ∧ (s.lane 0).exitBeam.level = false ∧ ((s.lane 1).state.code = 5 ↔ busy = true)
        ∧ ∀ m, m ≠ 0 → m ≠ 1 → (s.lane m).state.code ≠ 5 ∧ (s.lane m).state.code ≠ 8 := by
  unfold State.ok; decide +kernel

/-- Two SET_LANEs waiting for lane 0, the one in slot 9 the last. -/
theorem witness_LaneReturnsToReady_waiting_two :
    let c := { config0 with port := 0 }
    let s := { (waitingFor 0 c (inState 0 (.passing { passageA with tick := 99700 }) run)).poke (orderBase 9) 2 2 with
               lanesWaiting := [⟨9, 0, { c with role := .down }⟩, ⟨4, 0, c⟩] }
    let mine := s.lanesWaiting.filter fun o => o.lane = 0
    s.ok ∧ s.station = .running ∧ s.freeFlow = false ∧ mine = s.lanesWaiting ∧ (mine.map (·.slot)).Nodup
      ∧ ∀ x ∈ mine, orderState s x.slot = 2 ∧ ∀ m, m ≠ 0 → ∀ d ∈ (s.lane m).configs, ¬portsClash x.config d := by
  unfold State.ok portsClash; decide +kernel

/-- Free flow starts, by the order and by the pin, with a SET_LANE waiting for PASSING lane 0, its port free or taken. -/
theorem witness_FreeFlowOnFreesLanes_waiting :
    ∀ station ∈ [StationState.running, .quieting], ∀ port ∈ [(0 : Fin 4), 3],
      let s := post 0 12 [(8, 1, 1)] { waitingFor 0 { config0 with port := port }
        (inState 3 (.capturing captureA) (inState 0 (.passing passageA) run)) with station := station }
      s.ok ∧ carries s 0 12 ∧ s.peek (orderBase 0 + 8) 1 = 1 ∧ s.freeFlow = false ∧ s.evacuate = false
        ∧ s.lanesWaiting.filter (fun x => (s.lane x.lane).state.code = 5) = [⟨4, 0, { config0 with port := port }⟩]
        ∧ (s.lane 0).config.role = .entry ∧ orderState s (4 : Fin 32) = 2 ∧ s.station = station
        ∧ (s.lane 3).state.isBusy = true ∧ (s.lane 3).config.role = .ret := by
  unfold State.ok carries; decide +kernel

theorem witness_LaneReturnsToReady_ports :
    portsClash config0 (run.lane 3).config
      ∧ ∀ m, m ≠ 0 → ∀ d ∈ (run.lane m).configs, ¬portsClash { config0 with port := 0 } d := by
  unfold portsClash; decide +kernel

theorem witness_StuckInputFaultsLane :
    ∀ st ∈ [LaneState.arming 0, .ready none], ∀ n, let s := (inState n st run).modLane n fun l =>
        { l with stuckEntry := 10000, stuckExit := 10000, stuckSwitch := 10000 }
      s.ok ∧ ((s.lane n).state.code = 1 ∨ (s.lane n).state.code = 2)
        ∧ (s.lane n).config.role = (if n = 3 then .ret else .entry)
        ∧ 10000 ≤ (s.lane n).stuckEntry ∧ 10000 ≤ (s.lane n).stuckExit ∧ 10000 ≤ (s.lane n).stuckSwitch := by
  unfold State.ok; decide +kernel

theorem witness_CaptureEndsBySwitchOrTimeout :
    ∀ used : Bool,
      let m := writeClosure ((run.poke (passBase 1695 + 20) 2 (if used then 818 else 817)).mem) 2 ⟨818, 600, 0xFFFF, 9⟩
      let s := inState 3 (.capturing captureA) (onMem m run)
      let e := s.pass captureA.slot
      let d := s.product e.product
      s.ok ∧ s.station = .running ∧ (s.lane 3).state = .capturing captureA ∧ (∀ o ∈ s.lanesWaiting, o.lane ≠ 3)
        ∧ (s.lane 3).config.role = .ret ∧ (s.lane 3).switch = input 3 false ∧ captureA.timeout ≤ s.now - captureA.tick
        ∧ e.slotState = 1 ∧ d.kind = .days ∧ e.retired = false ∧ (e.lastDay = some s.day ↔ used = true)
        ∧ e.creditedDay ≠ some s.day ∧ e.usage / 256 < e.usage % 256 ∧ d.cutoff < 1440
        ∧ closureHeld s.mem 2 = true ∧ (readClosure s.mem 2).startMinute ≤ d.cutoff
        ∧ closureHeld s.mem 0 = false ∧ closureHeld s.mem 1 = false := by unfold State.ok; decide +kernel

theorem witness_CaptureEndsBySwitchOrTimeout_ends :
    (let s := { inState 3 (.capturing captureA) run with station := .quieting }
     s.ok ∧ s.lanesWaiting = [] ∧ (∀ m, m ≠ 3 → (s.lane m).state.code ≠ 5 ∧ (s.lane m).state.code ≠ 8)
      ∧ ((inState 0 (.passing passageA) s).lane 0).state.code = 5) := by
  unfold State.ok; decide +kernel

/-- A SET_LANE waiting for the CAPTURING lane, its port free, and taken by lane 0. -/
theorem witness_CaptureEndsBySwitchOrTimeout_waiting :
    ∀ port ∈ [(3 : Fin 4), 0],
      let c := { config0 with role := .ret, port := port }
      let s := waitingFor 3 c (inState 3 (.capturing captureA) run)
      s.ok ∧ s.station = .running ∧ s.lanesWaiting.filter (fun o => o.lane = 3) = [⟨4, 3, c⟩]
        ∧ orderState s (4 : Fin 32) = 2
        ∧ ((∃ m, m ≠ 3 ∧ ∃ d ∈ (s.lane m).configs, portsClash c d) ↔ port = 0) := by
  unfold State.ok portsClash; decide +kernel

theorem witness_EvacuateReleasesLocks :
    (held.ok ∧ held.evacuate = false ∧ held.freeFlow = false ∧ held.station = .running ∧ held.lanesWaiting = [])
    ∧ { held with evacuate := true }.ok
    ∧ (let s := { inState 0 (.passing passageA) run with station := .quieting }
       s.ok ∧ s.evacuate = false ∧ s.freeFlow = false ∧ s.station = .quieting
        ∧ ∀ n, (s.lane n).state.isBusy = true →
            (s.lane n).config.role = .entry ∧ (s.lane n).state ≠ .down ∧ (s.lane n).state ≠ .free)
    ∧ State.reset.ok ∧ State.reset.station = .starting ∧ State.reset.evacuate = false := by
  unfold State.ok; decide +kernel

/-! ### The laws of usage and of holding are met where a lane holds a pass -/

/-- Lane 0 GRANTED the pass of slot 1,695, its marker naming the lane, the index pulse to come. -/
def holding : State :=
  { inState 0 (.granted grantA) (run.poke (passBase 1695 + 31) 1 0) with pending := [.indexPulse 0] }

/-- Slot 1,695 holds the one LIVE entry. -/
theorem holding_live (slot : Nat) (h : slotStateOf holding.mem slot = 1) : slot = 1695 := by
  by_contra hne
  have hbyte := Memory.byteAt_of_unlisted (m := holding.mem) (a := passBase slot) fun c hc he => by
    have hat := (by decide +kernel : ∀ c ∈ holding.mem, 0xE200 ≤ c.1 → c.1 % 32 = 0 → c.1 = passBase 1695) c hc
    unfold passBase at he hat
    omega
  simp [slotStateOf, Memory.read, hbyte] at h

theorem witness_StepKeepsPassLaws :
    holding.ok ∧ lanesLaw holding ∧ usageLaw holding ∧ holdingLaw holding
      ∧ step holding = .next (answered (step holding)) := by
  refine ⟨by unfold State.ok; decide +kernel, ⟨by unfold lanesRest; decide +kernel, fun n => ?_⟩,
    ⟨by unfold restsInStarting; decide +kernel, fun h => absurd h.1 (by decide +kernel), fun _ => ⟨?_, by
      unfold Product.allowanceOk; decide +kernel, by decide +kernel, ?_, ?_, ?_⟩⟩,
    ⟨by unfold restsInStarting; decide +kernel, fun h => absurd h.1 (by decide +kernel), fun _ => ⟨?_, ?_⟩,
      fun h => absurd h (by decide +kernel)⟩, rfl⟩
  · match n with
    | 0 => exact ⟨rfl, rfl⟩
    | 1 => trivial
    | 2 => trivial
    | 3 => trivial
  · intro slot _ h
    rw [holding_live slot h]
    decide +kernel
  · intro x hx
    exact absurd hx (by rw [(by decide +kernel : readStaging holding.mem = [])]; exact List.not_mem_nil)
  · intro w hw
    exact absurd hw (by rw [(by decide +kernel : holding.withdrawal = none)]; simp)
  · intro o ho
    exact absurd ho (by rw [(by decide +kernel : holding.withdrawalsWaiting = [])]; exact List.not_mem_nil)
  · intro n slot h
    match n with
    | 0 => cases h; decide +kernel
    | 1 => cases h
    | 2 => cases h
    | 3 => cases h
  · intro slot _ h v hv
    rw [holding_live slot h] at hv ⊢
    refine ⟨0, ?_, by decide +kernel⟩
    rw [(by decide +kernel : (holding.pass 1695).marker = some 0)] at hv
    cases hv; rfl

/-- The invariants of the Step statements hold in the state of the tests, where a queued command gives a next state. -/
theorem witness_StepKeepsInvariants :
    let s := { run with pending := [.evacuateLow] }
    s.mem.wf ∧ journalLaw s ∧ lanesLaw s ∧ portsExclusive s ∧ windowsFollowStation s ∧ oneTapPerLane s ∧ timeLaw s
      ∧ ordersDistinct { sweeping 0 with lanesWaiting := [⟨5, 2, config0⟩], pending := [.creditSweep] } := by
  refine ⟨by decide +kernel, by unfold journalLaw; decide +kernel, ⟨by unfold lanesRest; decide +kernel, fun n => ?_⟩,
    by unfold portsExclusive portsClash; decide +kernel, by unfold windowsFollowStation; decide +kernel,
    by unfold oneTapPerLane; decide +kernel, by unfold timeLaw; decide +kernel, by unfold ordersDistinct; decide +kernel⟩
  rw [(by decide +kernel : ∀ n, (State.lane { run with pending := [.evacuateLow] } n).state = .ready none) n]
  trivial

theorem witness_StepKeepsInvariants_step :
    step { run with pending := [.evacuateLow] } = .next (answered (step { run with pending := [.evacuateLow] })) := rfl

end Sys2Proof.Machine
end

section
/-! PROOFS. The laws that State.reset meets, and the run that takes the law of usage out of force. -/

namespace Sys2Proof.Machine

/-! ### The reset state -/

theorem lane_reset (n : Fin 4) : State.reset.lane n = .atReset n := by
  fin_cases n <;> rfl

theorem reset_journalLaw : journalLaw State.reset := by
  have h : holders State.reset = 0 := by
    simp [holders, lane_reset, Lane.atReset, LaneState.holds]
  refine ⟨by decide, by decide, .inl rfl, h.symm, by decide⟩

theorem reset_lanesLaw : lanesLaw State.reset := by
  refine ⟨fun _ n => by rw [lane_reset]; rfl, fun n => ?_⟩
  rw [lane_reset]
  trivial

/-- Every lane has the role DOWN and no pending configuration, so no two clash. -/
theorem reset_portsExclusive : portsExclusive State.reset := by
  intro n m _ c hc d _ ⟨hdown, _⟩
  rw [lane_reset] at hc
  obtain rfl : c = .atReset n := List.mem_singleton.1 hc
  exact hdown rfl

theorem reset_windowsFollowStation : windowsFollowStation State.reset := by
  intro n
  rw [lane_reset]
  simp [Lane.atReset, State.reset]

theorem reset_restsInStarting : restsInStarting State.reset := fun _ => ⟨rfl, rfl, rfl, rfl, rfl⟩

/-- A fill that has passed nothing has nothing to have zeroed. -/
theorem fillLaw_of_start {s : State} (h : s.startPos = 0) : fillLaw s := by
  intro _ a _ ha
  omega

theorem reset_filling : filling State.reset := ⟨rfl, rfl⟩

theorem reset_usageLaw : usageLaw State.reset :=
  ⟨reset_restsInStarting, fillLaw_of_start rfl, fun h => absurd reset_filling h⟩

theorem reset_holdingLaw : holdingLaw State.reset :=
  ⟨reset_restsInStarting, fillLaw_of_start rfl, fun h => absurd rfl h, fun _ h => absurd h (by decide)⟩

/-- Settles O55, law by law. -/
theorem resetMeetsInvariants : Obligations.ResetMeetsInvariants :=
  ⟨reset_mem_wf, reset_journalLaw, reset_lanesLaw, reset_portsExclusive, reset_windowsFollowStation,
    List.nodup_nil, List.nodup_nil, ⟨by decide, by decide, by decide⟩, reset_usageLaw, reset_holdingLaw⟩

/-! ### The law of usage across the end of a fill -/

theorem finishFill_evacuatePin (straps : BitVec 6) (s : State) : (finishFill straps s).evacuatePin = s.evacuatePin := by
  simp only [finishFill, writeLaneBlocks, noFlowIndices, writeHeader, zeroMirrors, fillTo]

theorem finishFill_withdrawalsWaiting (straps : BitVec 6) (s : State) :
    (finishFill straps s).withdrawalsWaiting = s.withdrawalsWaiting := by
  simp only [finishFill, writeLaneBlocks, noFlowIndices, writeHeader, zeroMirrors, fillTo]

/-- With EVACUATE low, FILL_DONE enters QUIET and leaves the waiting withdrawals as the fill found them. -/
theorem fillDone_entersQuiet (straps : BitVec 6) {s : State} (hf : filling s) (he : s.evacuatePin = false) :
    ∃ t, exec (.fillDone straps) s = .next t ∧ t.station = .quiet ∧ t.withdrawalsWaiting = s.withdrawalsWaiting := by
  have hq : enterQuiet (finishFill straps s) =
      { finishFill straps s with station := .quiet, sweepTimer := 0, startPos := 0 } := by
    simp [enterQuiet, finishFill_evacuatePin, he]
  refine ⟨settleOutputs s (enterQuiet (finishFill straps s)), if_pos hf, ?_, ?_⟩
  · rw [settleOutputs_station, hq]
  · rw [withdrawalsWaiting_of_rest (settleOutputs_rest _ _), hq]
    exact finishFill_withdrawalsWaiting straps s

/-- The reset state with a withdrawal of product 100 waiting. While the fill runs the law of usage asks nothing of the
waiting withdrawals, and no law asks that there be none; no state that the part reaches holds one there. -/
def fillingWithWaiting : State :=
  { State.reset with withdrawalsWaiting := [⟨0, 100, false⟩], pending := [.fillDone 0] }

theorem fillingWithWaiting_filling : filling fillingWithWaiting := ⟨rfl, rfl⟩

theorem fillingWithWaiting_usageLaw : usageLaw fillingWithWaiting :=
  ⟨fun _ => ⟨rfl, rfl, rfl, rfl, rfl⟩, fillLaw_of_start rfl, fun h => absurd fillingWithWaiting_filling h⟩

/-- Refutes O60: FILL_DONE brings the law of usage into force, and with it the bound of 63 on the index of every waiting
withdrawal; the index 100 that waited through the fill breaks it. -/
theorem not_stepKeepsPassLaws : ¬ Obligations.StepKeepsPassLaws := by
  intro h
  obtain ⟨t, hstep, hquiet, hwaiting⟩ :=
    fillDone_entersQuiet 0 (s := { fillingWithWaiting with pending := [] }) fillingWithWaiting_filling rfl
  have hlaws := h fillingWithWaiting t ⟨Memory.wf_nil, by decide, by decide⟩ reset_lanesLaw (by simp [fillingWithWaiting]) hstep
  obtain ⟨_, _, hforce⟩ := hlaws.1 fillingWithWaiting_usageLaw
  obtain ⟨_, _, _, _, _, hindex⟩ := hforce fun hf => absurd (hquiet.symm.trans hf.1) (by decide)
  exact absurd (hindex ⟨0, 100, false⟩ (by rw [hwaiting]; exact List.mem_singleton_self _)) (by decide)

end Sys2Proof.Machine
end

section
/-! PROOFS. What the pass orders read: the payload, the tables and the probe as the take of a slot leaves them, the walk of
the probe (R5 to R7), and the bytes of an entry. -/

namespace Sys2Proof.Machine

/-! ### What the take leaves of the tables -/

/-- The take writes nothing at or behind the Lane Blocks, where every table stands (Table 5). -/
theorem byteAt_takeSlot_table (k : Fin 32) {s : State} (h : s.mem.wf) {x : Nat} (hx : 0x1100 ≤ x) :
    (takeSlot k s).mem.byteAt x = s.mem.byteAt x :=
  byteAt_takeSlot k h (by unfold inField orderBase; omega)

theorem pass_takeSlot (k : Fin 32) {s : State} (h : s.mem.wf) (slot : Nat) : (takeSlot k s).pass slot = s.pass slot :=
  readPass_congr fun _ hx => byteAt_takeSlot_table k h (by unfold inField passBase at hx; omega)

theorem product_takeSlot (k : Fin 32) {s : State} (h : s.mem.wf) (i : Nat) : (takeSlot k s).product i = s.product i :=
  readProduct_congr fun _ hx => byteAt_takeSlot_table k h (by unfold inField productBase at hx; omega)

theorem readStaging_takeSlot (k : Fin 32) {s : State} (h : s.mem.wf) :
    readStaging (takeSlot k s).mem = readStaging s.mem :=
  readStaging_congr fun _ hx => byteAt_takeSlot_table k h (by unfold inField stagingBase at hx; omega)

theorem payloadUid_length {s : State} {k : Nat} {uid : List Byte} (h : payloadUid s k = some uid) : uid.length ≤ 10 := by
  unfold payloadUid at h
  split at h
  · rename_i hl
    obtain rfl := Option.some.inj h
    rw [Memory.readBytes_length]
    simp only [uidLengthOk, Bool.or_eq_true, decide_eq_true_eq] at hl
    omega
  · exact absurd h (by simp)

theorem probe_takeSlot (k : Fin 32) {s : State} (h : s.mem.wf) {uid : List Byte} (hu : uid.length ≤ 10) :
    probe (takeSlot k s).mem uid = probe s.mem uid :=
  probe_congr hu fun _ hx _ => byteAt_takeSlot_table k h (by unfold passBase at hx; omega)

theorem lookup_takeSlot (k : Fin 32) {s : State} (h : s.mem.wf) {uid : List Byte} (hu : uid.length ≤ 10) :
    lookup (takeSlot k s).mem uid = lookup s.mem uid := by
  rw [lookup, probe_takeSlot k h hu, lookup]

/-! ### Orders that end without a further write -/

/-- An order that fails its checks changes nothing but its slot. -/
theorem carries_refused {k : Fin 32} {code : Nat} {body : State → State} {s : State} {r : Result} (h : s.mem.wf)
    (hc : carries s k code) (hb : body (takeSlot k s) = endOrder k r (takeSlot k s)) :
    ∃ t, visit k (kindIs k code) body s = .next t ∧ onlyOrder s t k r fun _ => False :=
  onlyOrder_of_refusal h hc.1 (kindIs_of_carries hc) hb

/-! ### The walk of the probe (R5 to R7) -/

/-- The home slot of R5, digit by digit from the first byte or from the last. -/
theorem homeSlot_eq_homeOf (uid : List Byte) : homeSlot uid = homeOf uid := by
  have key : ∀ (l : List Byte) (h : Nat),
      l.foldl (fun h b => (h * 33 + b.toNat) % passSlots) h % 6144 = (h * 33 ^ l.length + homeOf l) % 6144 := by
    intro l
    induction l with
    | nil => intro h; simp [homeOf]
    | cons b l ih =>
      intro h
      have e : h * 33 ^ (l.length + 1) + (b.toNat * 33 ^ l.length + homeOf l) =
          (h * 33 + b.toNat) * 33 ^ l.length + homeOf l := by ring
      rw [List.foldl_cons, ih, homeOf, List.length_cons, Nat.add_mod_mod, e]
      exact ((Nat.mod_modEq _ _).mul_right _).add_right _
  have hlt : homeOf uid < 6144 := by
    cases uid with
    | nil => decide
    | cons b l => exact Nat.mod_lt _ (by decide)
  have := key uid 0
  rw [Nat.zero_mul, Nat.zero_add, Nat.mod_eq_of_lt hlt] at this
  rw [← this]
  exact (Nat.mod_eq_of_lt (homeSlot_lt uid)).symm

theorem probed_zero (uid : List Byte) : probed uid 0 = homeSlot uid := by
  rw [probed, ← homeSlot_eq_homeOf, Nat.add_zero]
  exact Nat.mod_eq_of_lt (homeSlot_lt uid)

theorem probed_succ (uid : List Byte) (i : Nat) : (probed uid i + 1) % passSlots = probed uid (i + 1) := by
  unfold probed passSlots
  omega

/-- The slot is LIVE with the UID. -/
def isHit (m : Memory) (uid : List Byte) (slot : Nat) : Prop := slotStateOf m slot = 1 ∧ uidMatches m slot uid = true

/-- The probe passes over the slot: it is not FREE, and not a hit (R6). -/
def passesOver (m : Memory) (uid : List Byte) (slot : Nat) : Prop := slotStateOf m slot ≠ 0 ∧ ¬isHit m uid slot

/-- One slot probed: a FREE slot or a hit ends the probe, and a slot passed over lets it go on, noted as vacant where it
is not LIVE (R6, R7). -/
theorem probeFrom_free {m : Memory} {uid : List Byte} {h : Nat} (hs : slotStateOf m h = 0) (fuel : Nat) (v : Option Nat) :
    probeFrom m uid (fuel + 1) h v = ⟨none, v.or (some h)⟩ := if_pos hs

theorem probeFrom_hit {m : Memory} {uid : List Byte} {h : Nat} (hs : isHit m uid h) (fuel : Nat) (v : Option Nat) :
    probeFrom m uid (fuel + 1) h v = ⟨some h, v⟩ := by
  obtain ⟨live, hu⟩ := hs
  simp [probeFrom, live, hu]

theorem probeFrom_passesOver {m : Memory} {uid : List Byte} {h : Nat} (hs : passesOver m uid h) (fuel : Nat)
    (v : Option Nat) :
    probeFrom m uid (fuel + 1) h v =
      probeFrom m uid fuel ((h + 1) % passSlots) (if slotStateOf m h = 1 then v else v.or (some h)) := by
  obtain ⟨nonfree, nohit⟩ := hs
  by_cases live : slotStateOf m h = 1
  · have : uidMatches m h uid = false := by simpa [isHit, live] using nohit
    simp [probeFrom, live, this]
  · simp [probeFrom, live, nonfree]

/-- The first hit behind slots that are passed over is what the probe finds. -/
theorem hit_of_first {m : Memory} {uid : List Byte} (fuel i : Nat) (hi : i < fuel) :
    ∀ (b : Nat) (v : Option Nat), isHit m uid (probed uid (b + i)) →
      (∀ j < i, passesOver m uid (probed uid (b + j))) →
      (probeFrom m uid fuel (probed uid b) v).hit = some (probed uid (b + i)) := by
  induction fuel generalizing i with
  | zero => omega
  | succ fuel ih =>
    intro b v his hover
    cases i with
    | zero => rw [probeFrom_hit (show isHit m uid (probed uid b) from his)]; rfl
    | succ i =>
      have hb : passesOver m uid (probed uid b) := hover 0 (by omega)
      rw [probeFrom_passesOver hb, probed_succ,
        ih i (by omega) (b + 1) _ (by rwa [Nat.add_right_comm, Nat.add_assoc])
          fun j hj => by rw [Nat.add_right_comm, Nat.add_assoc]; exact hover (j + 1) (by omega)]
      rw [Nat.add_right_comm, Nat.add_assoc]

/-- What a probe finds is the first hit, every slot before it passed over. -/
theorem first_of_hit {m : Memory} {uid : List Byte} (fuel : Nat) :
    ∀ (b slot : Nat) (v : Option Nat), (probeFrom m uid fuel (probed uid b) v).hit = some slot →
      ∃ i < fuel, isHit m uid (probed uid (b + i)) ∧ ∀ j < i, passesOver m uid (probed uid (b + j)) := by
  induction fuel with
  | zero => intro b slot v h; exact absurd h (by simp [probeFrom])
  | succ fuel ih =>
    intro b slot v h
    by_cases free : slotStateOf m (probed uid b) = 0
    · rw [probeFrom_free free] at h
      exact absurd h (by simp)
    · by_cases his : isHit m uid (probed uid b)
      · exact ⟨0, by omega, his, fun j hj => absurd hj (by omega)⟩
      · rw [probeFrom_passesOver ⟨free, his⟩, probed_succ] at h
        obtain ⟨i, hi, hhit, hover⟩ := ih (b + 1) slot _ h
        refine ⟨i + 1, by omega, by rwa [Nat.add_right_comm, Nat.add_assoc] at hhit, fun j hj => ?_⟩
        cases j with
        | zero => exact ⟨free, his⟩
        | succ j =>
          have := hover j (by omega)
          rwa [Nat.add_right_comm, Nat.add_assoc] at this

theorem probe_eq (m : Memory) (uid : List Byte) : probe m uid = probeFrom m uid 16 (probed uid 0) none := by
  rw [probe, probed_zero]

/-- The lookup finds the first hit of the sixteen slots probed. -/
theorem lookup_of_first {m : Memory} {uid : List Byte} {i : Nat} (hi : i < 16) (his : isHit m uid (probed uid i))
    (hover : ∀ j < i, passesOver m uid (probed uid j)) : lookup m uid = some (probed uid i) := by
  have := hit_of_first 16 i hi 0 none (by rwa [Nat.zero_add]) fun j hj => by rw [Nat.zero_add]; exact hover j hj
  rw [lookup, probe_eq, this, Nat.zero_add]

/-- The lookup misses where no slot probed is such a first hit. -/
theorem lookup_of_none {m : Memory} {uid : List Byte}
    (h : ∀ i < 16, isHit m uid (probed uid i) → ¬∀ j < i, passesOver m uid (probed uid j)) : lookup m uid = none := by
  cases e : lookup m uid with
  | none => rfl
  | some slot =>
    rw [lookup, probe_eq] at e
    obtain ⟨i, hi, his, hover⟩ := first_of_hit 16 0 slot none e
    simp only [Nat.zero_add] at his hover
    exact absurd hover (h i hi his)

/-- A vacant slot once seen stays the first, whatever the probe meets behind it. -/
theorem vacant_of_seen {m : Memory} {uid : List Byte} (x : Nat) (fuel : Nat) :
    ∀ h, (probeFrom m uid fuel h (some x)).vacant = some x := by
  induction fuel with
  | zero => intro h; rfl
  | succ fuel ih =>
    intro h
    by_cases free : slotStateOf m h = 0
    · rw [probeFrom_free free]; rfl
    · by_cases his : isHit m uid h
      · rw [probeFrom_hit his]
      · rw [probeFrom_passesOver ⟨free, his⟩, Option.some_or, ite_self]
        exact ih _

/-- Behind LIVE slots without the UID the first slot that is not LIVE is the vacant one (R7). -/
theorem vacant_of_first {m : Memory} {uid : List Byte} (fuel i : Nat) (hi : i < fuel) :
    ∀ b, (probeFrom m uid fuel (probed uid b) none).hit = none → slotStateOf m (probed uid (b + i)) ≠ 1 →
      (∀ j < i, slotStateOf m (probed uid (b + j)) = 1) →
      (probeFrom m uid fuel (probed uid b) none).vacant = some (probed uid (b + i)) := by
  induction fuel generalizing i with
  | zero => omega
  | succ fuel ih =>
    intro b hmiss hvac hlive
    by_cases his : isHit m uid (probed uid b)
    · rw [probeFrom_hit his] at hmiss
      exact absurd hmiss (by simp)
    · by_cases free : slotStateOf m (probed uid b) = 0
      · obtain rfl : i = 0 := by
          by_contra hne
          have := hlive 0 (by omega)
          rw [Nat.add_zero] at this
          omega
        rw [probeFrom_free free]
        rfl
      · rw [probeFrom_passesOver ⟨free, his⟩, probed_succ] at hmiss ⊢
        cases i with
        | zero =>
          rw [if_neg (show ¬slotStateOf m (probed uid b) = 1 from hvac)]
          exact vacant_of_seen _ _ _
        | succ i =>
          have live : slotStateOf m (probed uid b) = 1 := hlive 0 (by omega)
          rw [if_pos live] at hmiss ⊢
          rw [ih i (by omega) (b + 1) hmiss (by rwa [Nat.add_right_comm, Nat.add_assoc])
            fun j hj => by rw [Nat.add_right_comm, Nat.add_assoc]; exact hlive (j + 1) (by omega)]
          rw [Nat.add_right_comm, Nat.add_assoc]

/-- Where every slot probed is LIVE there is no vacant one. -/
theorem vacant_of_allLive {m : Memory} {uid : List Byte} (fuel : Nat) :
    ∀ b, (∀ i < fuel, slotStateOf m (probed uid (b + i)) = 1) →
      (probeFrom m uid fuel (probed uid b) none).vacant = none := by
  induction fuel with
  | zero => intro b _; rfl
  | succ fuel ih =>
    intro b hlive
    have live : slotStateOf m (probed uid b) = 1 := hlive 0 (by omega)
    by_cases his : isHit m uid (probed uid b)
    · rw [probeFrom_hit his]
    · rw [probeFrom_passesOver ⟨by omega, his⟩, probed_succ, if_pos live]
      exact ih (b + 1) fun i hi => by rw [Nat.add_right_comm, Nat.add_assoc]; exact hlive (i + 1) (by omega)

/-- A card that is not in the table goes to its first vacant slot (R7). -/
theorem probe_firstVacant {s : State} {uid : List Byte} {slot : Nat} (hm : lookup s.mem uid = none)
    (hv : firstVacant s uid slot) : (probe s.mem uid).vacant = some slot := by
  obtain ⟨i, hi, rfl, hvac, hlive⟩ := hv
  rw [lookup, probe_eq] at hm
  have := vacant_of_first 16 i hi 0 hm (by rwa [Nat.zero_add]) fun j hj => by rw [Nat.zero_add]; exact hlive j hj
  rw [probe_eq, this, Nat.zero_add]

/-! ### The bytes of an entry -/

theorem readBytes_add (m : Memory) (a n k : Nat) : m.readBytes a (n + k) = m.readBytes a n ++ m.readBytes (a + n) k := by
  induction n generalizing a with
  | zero => simp [Memory.readBytes]
  | succ n ih =>
    rw [Nat.add_right_comm, Memory.readBytes, ih, Memory.readBytes, List.cons_append, Nat.add_assoc, Nat.add_comm 1 n]

theorem le_read (m : Memory) (a n : Nat) : le n (m.read a n) = m.readBytes a n := by
  induction n generalizing a with
  | zero => rfl
  | succ n ih =>
    have hb := (m.byteAt a).isLt
    simp only [le, Memory.read, Memory.readBytes]
    rw [show ((m.byteAt a).toNat + 256 * m.read (a + 1) n) / 256 = m.read (a + 1) n by omega, ih]
    congr 1
    apply BitVec.eq_of_toNat_eq
    rw [BitVec.toNat_ofNat]
    omega

theorem optWord_wordOpt (v : Nat) : optWord (wordOpt v) = v := by
  unfold wordOpt
  split
  · subst_vars; rfl
  · rfl

theorem optByte_byteOpt (v : Nat) : optByte (byteOpt v) = v := by
  unfold byteOpt
  split
  · subst_vars; rfl
  · rfl

theorem padTo_of_length {n : Nat} {bs : List Byte} (h : bs.length = n) : padTo n bs = bs := by
  rw [padTo, List.take_append_of_le_length (by omega), List.take_of_length_le (by omega)]

/-- An entry as read spells the 32 bytes it was read from. -/
theorem bytes_readPass (m : Memory) (slot : Nat) : (readPass m slot).bytes = m.readBytes (passBase slot) 32 := by
  have flags : [m.byteAt (passBase slot + 15)] = m.readBytes (passBase slot + 15) 1 := rfl
  simp only [PassEntry.bytes, readPass, le_read, optWord_wordOpt, optByte_byteOpt,
    padTo_of_length (m.readBytes_length _ 10), flags, ← readBytes_add, Nat.add_assoc]

theorem byteAt_readBytes (m : Memory) (a : Nat) {n i : Nat} (hi : i < n) : (m.readBytes a n).getD i 0 = m.byteAt (a + i) := by
  induction n generalizing a i with
  | zero => omega
  | succ n ih =>
    cases i with
    | zero => rfl
    | succ i =>
      rw [Memory.readBytes, List.getD_cons_succ, ih (a + 1) (by omega), Nat.add_right_comm, Nat.add_assoc]

/-- An entry's bytes about its stamp and flags. -/
theorem bytes_around (e : PassEntry) :
    e.bytes = (le 1 e.slotState ++ le 1 e.uidLength ++ padTo 10 e.uid) ++ (le 2 e.stamp ++ (le 1 e.product ++ ([e.flags]
      ++ (le 2 e.issueDay ++ le 2 (optWord e.firstDay) ++ le 2 (optWord e.lastDay) ++ le 2 e.usage
        ++ le 2 (optWord e.lastMinute) ++ le 2 (optWord e.creditedDay) ++ le 3 e.paid ++ le 1 (optByte e.marker))))) := by
  simp only [PassEntry.bytes, List.append_assoc]

theorem getD_stamp_flags (front tail : List Byte) (hl : front.length = 12) (a a' b b' c d d' : Byte) {i : Nat}
    (h12 : i ≠ 12) (h13 : i ≠ 13) (h15 : i ≠ 15) :
    (front ++ a :: b :: c :: d :: tail).getD i 0 = (front ++ a' :: b' :: c :: d' :: tail).getD i 0 := by
  rcases Nat.lt_or_ge i 12 with hi | hi
  · rw [List.getD_append _ _ _ _ (by omega), List.getD_append _ _ _ _ (by omega)]
  · rw [List.getD_append_right _ _ _ _ (by omega), List.getD_append_right _ _ _ _ (by omega), hl]
    obtain ⟨j, rfl⟩ : ∃ j, i = j + 12 := ⟨i - 12, by omega⟩
    rw [Nat.add_sub_cancel]
    match j with
    | 0 | 1 | 3 => omega
    | 2 => rfl
    | j + 4 => rfl

/-- A new stamp and new flags change bytes 12, 13 and 15 of an entry alone. -/
theorem bytes_stamp_flags (e : PassEntry) (stamp : Nat) (flags : Byte) {i : Nat} (h12 : i ≠ 12) (h13 : i ≠ 13)
    (h15 : i ≠ 15) : { e with stamp := stamp, flags := flags }.bytes.getD i 0 = e.bytes.getD i 0 := by
  rw [bytes_around, bytes_around e]
  exact getD_stamp_flags _ _ (by simp) _ _ _ _ _ _ _ h12 h13 h15

/-- The bytes a written entry leaves. -/
theorem byteAt_putPass_inside {s : State} (h : s.mem.wf) (slot : Nat) (e : PassEntry) {i : Nat} (hi : i < 32) :
    (s.putPass slot e).mem.byteAt (passBase slot + i) = e.bytes.getD i 0 := by
  rw [State.putPass, writePass, Memory.byteAt_writeBytes h, if_pos (by rw [length_PassEntry_bytes]; omega),
    Nat.add_sub_cancel_left]

/-- An entry written back with a new stamp and new flags changes three bytes of memory at most. -/
theorem byteAt_putPass_stamp_flags {s : State} (h : s.mem.wf) (slot stamp : Nat) (flags : Byte) {x : Nat}
    (hx : ¬(inField (passBase slot + 12) 2 x ∨ x = passBase slot + 15)) :
    (s.putPass slot { s.pass slot with flags := flags, stamp := stamp }).mem.byteAt x = s.mem.byteAt x := by
  unfold inField at hx
  by_cases inside : inField (passBase slot) 32 x
  · unfold inField at inside
    obtain ⟨i, rfl⟩ : ∃ i, x = passBase slot + i := ⟨x - passBase slot, by omega⟩
    rw [byteAt_putPass_inside h slot _ (by omega), bytes_stamp_flags _ _ _ (by omega) (by omega) (by omega), State.pass,
      bytes_readPass, byteAt_readBytes _ _ (by omega)]
  · exact byteAt_putPass h slot _ inside

end Sys2Proof.Machine
end

section
/-! PROOFS. AMEND_PASS, REMOVE_PASS, READ_PASS and the refusals of the pass orders and of SET_TIME (R8 to R15, R33, R35). -/

namespace Sys2Proof.Machine

/-! ### Refusals (R8, R33, R35) -/

theorem amendPass_badUid {k : Fin 32} {s : State} (h : payloadUid s k = none) : amendPass k s = endOrder k .badField s := by
  simp only [amendPass, h]

theorem removePass_badUid {k : Fin 32} {s : State} (h : payloadUid s k = none) :
    removePass k s = endOrder k .badField s := by
  simp only [removePass, h]

theorem copyPass_badUid {k : Fin 32} {s : State} (h : payloadUid s k = none) : copyPass k s = endOrder k .badField s := by
  simp only [copyPass, h]

theorem setTime_badField {k : Fin 32} {s : State} (h : payload s k 8 2 = 65535 ∨ dayMs ≤ payload s k 10 4) :
    setTime k s = endOrder k .badField s := if_pos h

theorem setTime_timeBackward {k : Fin 32} {s : State} (hr : ¬(payload s k 8 2 = 65535 ∨ dayMs ≤ payload s k 10 4))
    (hq : s.station ≠ .quiet)
    (hb : payload s k 8 2 < s.day ∨ (payload s k 8 2 = s.day ∧ payload s k 10 4 < s.ms)) :
    setTime k s = endOrder k .timeBackward s := (if_neg hr).trans (if_pos ⟨hq, hb⟩)

/-- Settles O28: each order's body, run on the slot taken, is the end of the order. -/
theorem orderRefusalsChangeSlotOnly : Obligations.OrderRefusalsChangeSlotOnly := by
  refine ⟨fun s k c kind hok hmem hc hu => ?_, fun s k hok hc => ?_⟩
  · have hu' := (payloadUid_takeSlot k hok.1).trans hu
    simp only [List.mem_cons, Prod.mk.injEq, List.not_mem_nil, or_false] at hmem
    rcases hmem with ⟨rfl, rfl⟩ | ⟨rfl, rfl⟩ | ⟨rfl, rfl⟩
    · exact carries_refused hok.1 hc (amendPass_badUid hu')
    · exact carries_refused hok.1 hc (removePass_badUid hu')
    · exact carries_refused hok.1 hc (copyPass_badUid hu')
  · have hday := payload_takeSlot k hok.1 (off := 8) (n := 2) (by omega)
    have hms := payload_takeSlot k hok.1 (off := 10) (n := 4) (by omega)
    refine ⟨fun hbad => carries_refused hok.1 hc (setTime_badField ?_), fun hd hm hq hback =>
      carries_refused hok.1 hc (setTime_timeBackward ?_ hq ?_)⟩
    · rw [hday, hms]
      exact hbad
    · rw [hday, hms, dayMs]
      unfold payload
      omega
    · rw [hday, hms]
      exact hback

/-! ### AMEND_PASS (R13) -/

theorem amendPass_badAction {k : Fin 32} {s : State} {uid : List Byte} (hu : payloadUid s k = some uid)
    (ha : 2 < payload s k 19 1) : amendPass k s = endOrder k .badField s := by
  simp only [amendPass, hu, ha, if_true]

theorem amendPass_miss {k : Fin 32} {s : State} {uid : List Byte} (hu : payloadUid s k = some uid)
    (ha : payload s k 19 1 ≤ 2) (hl : lookup s.mem uid = none) : amendPass k s = endOrder k .notFound s := by
  simp only [amendPass, hu, hl, if_neg (show ¬2 < payload s k 19 1 by omega)]

theorem amendPass_hit {k : Fin 32} {s : State} {uid : List Byte} {slot : Nat} (hu : payloadUid s k = some uid)
    (ha : payload s k 19 1 ≤ 2) (hl : lookup s.mem uid = some slot) :
    amendPass k s = endOrder k .ok (s.putPass slot { s.pass slot with
      flags := amendFlags (payload s k 19 1) (s.pass slot).flags
      stamp := if payload s k 20 1 = 0 then (s.pass slot).stamp else payload s k 21 2 }) := by
  simp only [amendPass, hu, hl, if_neg (show ¬2 < payload s k 19 1 by omega)]

theorem amendFlags_eq {action : Nat} (h : action ≤ 2) (f : Byte) :
    amendFlags action f = if action = 1 then f ||| 1#8 else if action = 2 then f &&& 0xFE#8 else f := by
  match action with
  | 0 | 1 | 2 => rfl
  | n + 3 => omega

theorem amended_fits {e : PassEntry} (f : e.Fits) {stamp : Nat} (h : stamp < 65536) (flags : Byte) :
    { e with flags := flags, stamp := stamp }.Fits := { f with stamp := h }

/-- An entry reads by bytes that the end of an order does not write. -/
theorem pass_of_outside_orderEnd {k : Fin 32} {s t : State} (h : ∀ x, ¬inOrderEnd k x → t.mem.byteAt x = s.mem.byteAt x)
    (slot : Nat) : t.pass slot = s.pass slot :=
  readPass_congr fun x hx => h x (by unfold inOrderEnd inField orderBase passBase at *; omega)

theorem with_mem_eq (s : State) (m : Memory) :
    ({ s with mem := m } : State) = { s with mem := ({ s with mem := m } : State).mem } := rfl

theorem putPass_eq (s : State) (slot : Nat) (e : PassEntry) :
    s.putPass slot e = { s with mem := (s.putPass slot e).mem } := with_mem_eq s (writePass s.mem slot e)

/-- An order that writes one entry back and ends changes the bytes of the entry that differ, and its slot. -/
theorem carries_putPass {k : Fin 32} {code : Nat} {body : State → State} {s : State} {r : Result} {slot : Nat}
    {e : PassEntry} {stored : Nat → Prop} (h : s.mem.wf) (hc : carries s k code)
    (hb : body (takeSlot k s) = endOrder k r ((takeSlot k s).putPass slot e))
    (hm : ∀ x, ¬stored x → ((takeSlot k s).putPass slot e).mem.byteAt x = (takeSlot k s).mem.byteAt x)
    (hd : ∀ x, stored x → 0x1100 ≤ x) :
    ∃ t, visit k (kindIs k code) body s = .next t ∧ onlyOrder s t k r stored
      ∧ t.pass slot = ((takeSlot k s).putPass slot e).pass slot := by
  obtain ⟨t, hstep, honly, hbytes⟩ := onlyOrder_of_end h hc.1 (kindIs_of_carries hc) hb
    (putPass_eq _ _ _) (putPass_wf (takeSlot_wf k h) _ _) hm
    fun x hx => by have := hd x hx; unfold inField orderBase; omega
  exact ⟨t, hstep, honly, pass_of_outside_orderEnd hbytes slot⟩

/-- Settles O26: the entry written back differs in its stamp and flags alone. -/
theorem amendPassChangesEntry : Obligations.AmendPassChangesEntry := by
  intro s k uid slot hok hc hu
  have hw := takeSlot_wf k hok.1
  have hu' := (payloadUid_takeSlot k hok.1).trans hu
  have hpay : ∀ off n, 2 ≤ off → payload (takeSlot k s) k off n = payload s k off n :=
    fun off n => payload_takeSlot k hok.1
  have hlook := lookup_takeSlot k hok.1 (payloadUid_length hu)
  refine ⟨fun ha => carries_refused hok.1 hc (amendPass_badAction hu' (by rw [hpay _ _ (by omega)]; exact ha)),
    fun ha hm => carries_refused hok.1 hc
      (amendPass_miss hu' (by rw [hpay _ _ (by omega)]; exact ha) (hlook.trans hm)), fun (ha : payload s k 19 1 ≤ 2) hit => ?_⟩
  have hb := amendPass_hit hu' (by rw [hpay _ _ (by omega)]; exact ha) (hlook.trans hit)
  rw [pass_takeSlot k hok.1, hpay _ _ (by omega), hpay _ _ (by omega), hpay _ _ (by omega), amendFlags_eq ha] at hb
  have hfits : PassEntry.Fits { s.pass slot with
      flags := if payload s k 19 1 = 1 then (s.pass slot).flags ||| 1#8
        else if payload s k 19 1 = 2 then (s.pass slot).flags &&& 0xFE#8 else (s.pass slot).flags
      stamp := if payload s k 20 1 = 0 then (s.pass slot).stamp else payload s k 21 2 } := by
    refine amended_fits (readPass_fits _ _) ?_ _
    split
    · exact (readPass_fits _ _).stamp
    · exact Memory.read_lt _ _ 2
  obtain ⟨t, hstep, honly, hpass⟩ := carries_putPass (body := amendPass k)
    (stored := fun a => inField (passBase slot + 12) 2 a ∨ a = passBase slot + 15) hok.1 hc hb
    (fun x hx => by rw [← pass_takeSlot k hok.1]; exact byteAt_putPass_stamp_flags hw slot _ _ hx)
    fun x hx => by unfold inField passBase at hx; omega
  exact ⟨t, hstep, honly, hpass.trans (pass_putPass hw slot hfits)⟩

/-! ### The lookup, REMOVE_PASS and READ_PASS (R5, R6, R14, R15) -/

theorem isHit_iff (m : Memory) (uid : List Byte) (slot : Nat) :
    isHit m uid slot ↔ slotStateOf m slot = 1 ∧ m.read (passBase slot + 1) 1 = uid.length
      ∧ m.readBytes (passBase slot + 2) uid.length = uid := by
  simp [isHit, uidMatches]

/-- The lookup finds the first hit, and misses where there is none. -/
theorem lookup_finds (m : Memory) (uid : List Byte) :
    (∀ i, i < 16 ∧ isHit m uid (probed uid i) ∧ (∀ j < i, passesOver m uid (probed uid j)) →
        lookup m uid = some (probed uid i))
      ∧ ((∀ i, ¬(i < 16 ∧ isHit m uid (probed uid i) ∧ ∀ j < i, passesOver m uid (probed uid j))) →
        lookup m uid = none) :=
  ⟨fun _ ⟨hi, his, hover⟩ => lookup_of_first hi his hover,
    fun hnone => lookup_of_none fun i hi his hover => hnone i ⟨hi, his, hover⟩⟩

theorem removePass_miss {k : Fin 32} {s : State} {uid : List Byte} (hu : payloadUid s k = some uid)
    (hl : lookup s.mem uid = none) : removePass k s = endOrder k .notFound s := by
  simp only [removePass, hu, hl]

theorem removePass_held {k : Fin 32} {s : State} {uid : List Byte} {slot : Nat} (hu : payloadUid s k = some uid)
    (hl : lookup s.mem uid = some slot) (hm : (s.pass slot).marker ≠ none) : removePass k s = endOrder k .inUse s := by
  simp only [removePass, hu, hl, if_pos (Option.isSome_iff_ne_none.2 hm)]

theorem removePass_free {k : Fin 32} {s : State} {uid : List Byte} {slot : Nat} (hu : payloadUid s k = some uid)
    (hl : lookup s.mem uid = some slot) (hm : (s.pass slot).marker = none) :
    removePass k s = endOrder k .ok (s.poke (passBase slot) 1 2) := by
  simp [removePass, hu, hl, hm]

theorem copyPass_miss {k : Fin 32} {s : State} {uid : List Byte} (hu : payloadUid s k = some uid)
    (hl : lookup s.mem uid = none) : copyPass k s = endOrder k .notFound s := by
  simp only [copyPass, hu, hl]

theorem copyPass_hit {k : Fin 32} {s : State} {uid : List Byte} {slot : Nat} (hu : payloadUid s k = some uid)
    (hl : lookup s.mem uid = some slot) :
    copyPass k s = endOrder k .ok (pokeResult k 32 (s.mem.readBytes (passBase slot) 32 ++ le 2 slot) s) := by
  simp only [copyPass, hu, hl]

theorem poke_eq (s : State) (a n v : Nat) : s.poke a n v = { s with mem := (s.poke a n v).mem } :=
  with_mem_eq s (s.mem.write a n v)

theorem pokeResult_eq (k : Fin 32) (off : Nat) (bs : List Byte) (s : State) :
    pokeResult k off bs s = { s with mem := (pokeResult k off bs s).mem } := with_mem_eq s _

/-- REMOVE_PASS of a pass no lane holds writes the slot's state byte alone, and it reads TOMB. -/
theorem removePass_makesTomb {k : Fin 32} {s : State} {uid : List Byte} {slot : Nat} (h : s.mem.wf) (hc : carries s k 3)
    (hu : payloadUid s k = some uid) (hl : lookup s.mem uid = some slot) (hm : (s.pass slot).marker = none) :
    ∃ t, exec (.removePass k) s = .next t ∧ onlyOrder s t k .ok (fun a => a = passBase slot)
      ∧ slotStateOf t.mem slot = 2 := by
  have hw := takeSlot_wf k h
  have hb := removePass_free ((payloadUid_takeSlot k h).trans hu)
    ((lookup_takeSlot k h (payloadUid_length hu)).trans hl) (by rw [pass_takeSlot k h, hm])
  obtain ⟨t, hstep, honly, hbytes⟩ := onlyOrder_of_end (stored := fun a => a = passBase slot) h hc.1
    (kindIs_of_carries hc) hb (poke_eq _ _ _ _) (Memory.write_wf hw _ _ _)
    (fun x hx => Memory.byteAt_write_outside hw (by omega))
    fun x hx => by unfold inField orderBase; unfold passBase at hx; omega
  refine ⟨t, hstep, honly, ?_⟩
  calc slotStateOf t.mem slot
    _ = slotStateOf ((takeSlot k s).poke (passBase slot) 1 2).mem slot :=
      Memory.read_congr fun x _ _ => hbytes x (by unfold inOrderEnd inField orderBase passBase at *; omega)
    _ = 2 := Memory.read_write hw _ _ _

/-- READ_PASS writes the entry and its slot number into the result area, and nothing else. -/
theorem readPass_copies {k : Fin 32} {s : State} {uid : List Byte} {slot : Nat} (h : s.mem.wf) (hc : carries s k 4)
    (hu : payloadUid s k = some uid) (hl : lookup s.mem uid = some slot) :
    ∃ t, exec (.readPass k) s = .next t ∧ onlyOrder s t k .ok (inField (orderBase k.val + 32) 34)
      ∧ t.mem.readBytes (orderBase k.val + 32) 32 = s.mem.readBytes (passBase slot) 32
      ∧ t.peek (orderBase k.val + 64) 2 = slot := by
  have hw := takeSlot_wf k h
  have hb := copyPass_hit ((payloadUid_takeSlot k h).trans hu) ((lookup_takeSlot k h (payloadUid_length hu)).trans hl)
  have hentry : (takeSlot k s).mem.readBytes (passBase slot) 32 = s.mem.readBytes (passBase slot) 32 :=
    Memory.readBytes_congr fun x hx _ => byteAt_takeSlot_table k h (by unfold passBase at hx; omega)
  rw [hentry] at hb
  generalize hbs : s.mem.readBytes (passBase slot) 32 = entry at hb ⊢
  have hlen : entry.length = 32 := by rw [← hbs, Memory.readBytes_length]
  obtain ⟨t, hstep, honly, hbytes⟩ := onlyOrder_of_end (stored := inField (orderBase k.val + 32) 34) h hc.1
    (kindIs_of_carries hc) hb (pokeResult_eq _ _ _ _) (pokeResult_wf _ _ _ hw)
    (fun x hx => Memory.byteAt_writeBytes_outside hw (by
      unfold inField at hx
      rw [List.length_append, length_le, hlen]
      omega))
    fun x hx => by unfold inField at *; omega
  have hkeep : ∀ x, orderBase k.val + 32 ≤ x →
      t.mem.byteAt x = (pokeResult k 32 (entry ++ le 2 slot) (takeSlot k s)).mem.byteAt x :=
    fun x hx => hbytes x (by unfold inOrderEnd inField; omega)
  have hslot : slot < 65536 := lt_trans (lookup_spec hl).1 (by decide)
  refine ⟨t, hstep, honly, ?_, ?_⟩
  · rw [Memory.readBytes_congr fun x hx _ => hkeep x hx]
    have := readBytes_writeBytes_part hw (orderBase k.val + 32) (bs := entry ++ le 2 slot) (part := entry) (off := 0)
      (by simp)
    rwa [hlen] at this
  · rw [State.peek, Memory.read_congr fun x hx _ => hkeep x (by omega)]
    have := read_writeBytes_part hw (orderBase k.val + 32) (bs := entry ++ le 2 slot) (off := 32) (n := 2) (v := slot)
      (by rw [List.drop_append, List.drop_of_length_le (by omega), hlen]; rfl)
    rw [Nat.mod_eq_of_lt (show slot < 256 ^ 2 from hslot)] at this
    exact this

/-- Settles O27: the walk of the probe gives the lookup, and each order's body runs on the slot taken. -/
theorem removeAndReadPass : Obligations.RemoveAndReadPass := by
  refine ⟨fun s uid => ?_, fun s k uid hok hu => ⟨fun c kind hmem hc hm => ?_, fun slot hl => ⟨fun hc => ⟨fun hm =>
    removePass_makesTomb hok.1 hc hu hl hm, fun hm => ?_⟩, fun hc => readPass_copies hok.1 hc hu hl⟩⟩⟩
  · have := lookup_finds s.mem uid
    simp only [passesOver, isHit_iff] at this
    exact this
  · have hu' := (payloadUid_takeSlot k hok.1).trans hu
    have hm' := (lookup_takeSlot k hok.1 (payloadUid_length hu)).trans hm
    simp only [List.mem_cons, Prod.mk.injEq, List.not_mem_nil, or_false] at hmem
    rcases hmem with ⟨rfl, rfl⟩ | ⟨rfl, rfl⟩
    · exact carries_refused hok.1 hc (removePass_miss hu' hm')
    · exact carries_refused hok.1 hc (copyPass_miss hu' hm')
  · exact carries_refused hok.1 hc (removePass_held ((payloadUid_takeSlot k hok.1).trans hu)
      ((lookup_takeSlot k hok.1 (payloadUid_length hu)).trans hl) (by rwa [pass_takeSlot k hok.1]))

end Sys2Proof.Machine
end

section
/-! PROOFS. INSERT_PASS (R9 to R12): its checks case by case, its refusals, and the entry it writes. -/

namespace Sys2Proof.Machine

/-! ### The checks of R9 -/

/-- The product may be sold: an index of the table, a record in force, no withdrawal staged for it (R9 step 2). -/
def productOpen (s : State) (i : Nat) : Prop :=
  i ≤ 63 ∧ (s.product i).kind ≠ .none ∧ ∀ x ∈ readStaging s.mem, ¬(x.1 = i ∧ x.2.kind = .none)

theorem withdrawalStaged_iff (m : Memory) (i : Nat) :
    withdrawalStaged m i = true ↔ ∃ x ∈ readStaging m, x.1 = i ∧ x.2.kind = .none := by
  simp [withdrawalStaged]

theorem productOpen_iff (s : State) (i : Nat) :
    productOpen s i ↔ ¬(63 < i ∨ (s.product i).kind = .none ∨ withdrawalStaged s.mem i = true) := by
  rw [withdrawalStaged_iff, productOpen]
  push Not
  rfl

theorem productOpen_takeSlot (k : Fin 32) {s : State} (h : s.mem.wf) (i : Nat) :
    productOpen (takeSlot k s) i ↔ productOpen s i := by
  rw [productOpen, productOpen, product_takeSlot k h, readStaging_takeSlot k h]

theorem readInsert_takeSlot (k : Fin 32) {s : State} (h : s.mem.wf) : readInsert (takeSlot k s) k = readInsert s k := by
  have hpay : ∀ off n, 2 ≤ off → payload (takeSlot k s) k off n = payload s k off n := fun off n => payload_takeSlot k h
  simp only [readInsert, hpay _ _ (show 2 ≤ 19 by decide), hpay _ _ (show 2 ≤ 20 by decide),
    hpay _ _ (show 2 ≤ 22 by decide), hpay _ _ (show 2 ≤ 24 by decide), hpay _ _ (show 2 ≤ 26 by decide),
    hpay _ _ (show 2 ≤ 29 by decide)]

theorem wordOpt_eq_none (v : Nat) : wordOpt v = none ↔ v = 0xFFFF := by
  simp [wordOpt]

theorem wordOpt_of_ne {v : Nat} (h : v ≠ 0xFFFF) : wordOpt v = some v := if_neg h

/-- The first valid day a hit entry would hold, by the payload's word. -/
theorem firstDayAfter_eq (e : PassEntry) (s : State) (k : Nat) :
    firstDayAfter e (readInsert s k) =
      if payload s k 24 2 ≠ 0xFFFF then some (payload s k 24 2)
      else if (payload s k 29 1).testBit 1 then none else e.firstDay := by
  unfold firstDayAfter readInsert
  dsimp only
  by_cases hd : payload s k 24 2 = 0xFFFF
  · simp [(wordOpt_eq_none 0xFFFF).2 rfl, hd]
  · simp [wordOpt_of_ne hd, hd]

/-! ### Step 6 of R9: a hit without RESET_USAGE -/

/-- An allowance below what the pass has used (R9 step 6). -/
def allowanceBelow (e : PassEntry) (new : Product) : Prop :=
  (new.kind = .days ∧ new.daysBought < e.usage % 256) ∨ (new.kind = .rides ∧ new.ridesInitial < e.usage)

theorem not_allowanceBelow {e : PassEntry} {new : Product} (hd : new.kind = .days → e.usage % 256 ≤ new.daysBought)
    (hr : new.kind = .rides → e.usage ≤ new.ridesInitial) : ¬allowanceBelow e new := by
  rintro (⟨hk, hlt⟩ | ⟨hk, hlt⟩)
  · exact absurd (hd hk) (by omega)
  · exact absurd (hr hk) (by omega)

theorem replacementProblem_kind {e : PassEntry} {old new : Product} (h : old.kind ≠ new.kind) :
    replacementProblem e old new = some .kindMismatch := if_pos h

theorem replacementProblem_below {e : PassEntry} {old new : Product} (hk : old.kind = new.kind)
    (hb : allowanceBelow e new) : replacementProblem e old new = some .badField := by
  rw [replacementProblem, if_neg (not_not.2 hk)]
  rcases hb with ⟨hn, hlt⟩ | ⟨hn, hlt⟩
  · rw [hn]; exact if_pos hlt
  · rw [hn]; exact if_pos hlt

theorem replacementProblem_none {e : PassEntry} {old new : Product} (hk : old.kind = new.kind)
    (hb : ¬allowanceBelow e new) : replacementProblem e old new = none := by
  rw [replacementProblem, if_neg (not_not.2 hk)]
  cases hn : new.kind with
  | days => exact if_neg fun hlt => hb (.inl ⟨hn, hlt⟩)
  | rides => exact if_neg fun hlt => hb (.inr ⟨hn, hlt⟩)
  | none => rfl
  | season => rfl

/-! ### Steps 4 to 7 of R9: a hit -/

theorem hitProblem_retired {e : PassEntry} {old new : Product} {p : InsertPayload} (hr : p.resetUsage = true)
    (he : e.retired = true) : hitProblem e old new p = some .retired := if_pos ⟨hr, he⟩

theorem hitProblem_held {e : PassEntry} {old new : Product} {p : InsertPayload} (hr : p.resetUsage = true)
    (he : e.retired = false) (hm : e.marker ≠ none) : hitProblem e old new p = some .inUse := by
  simp [hitProblem, hr, he, Option.isSome_iff_ne_none.2 hm]

theorem hitProblem_replacement {e : PassEntry} {old new : Product} {p : InsertPayload} {r : Result}
    (hr : p.resetUsage = false) (hp : replacementProblem e old new = some r) : hitProblem e old new p = some r := by
  simp [hitProblem, hr, hp]

/-- With steps 4 to 6 passed, the first valid day decides (R9 step 7). -/
theorem hitProblem_firstDay {e : PassEntry} {old new : Product} {p : InsertPayload}
    (hreset : p.resetUsage = true → e.retired = false ∧ e.marker = none)
    (hkept : p.resetUsage = false → old.kind = new.kind ∧ ¬allowanceBelow e new) :
    hitProblem e old new p = if firstDayAfter e p = none ∧ new.floating = false then some .badField else none := by
  cases hr : p.resetUsage with
  | true =>
    obtain ⟨hret, hmark⟩ := hreset hr
    simp [hitProblem, hr, hret, hmark]
  | false =>
    obtain ⟨hk, hb⟩ := hkept hr
    simp [hitProblem, hr, replacementProblem_none hk hb]

/-! ### The body of INSERT_PASS, case by case -/

theorem insertPass_badUid {k : Fin 32} {s : State} (h : payloadUid s k = none) :
    insertPass k s = endOrder k .badField s := by
  simp only [insertPass, h]

section
variable {k : Fin 32} {s : State} {uid : List Byte} (hu : payloadUid s k = some uid)
include hu

theorem insertPass_closed (hp : ¬productOpen s (readInsert s k).product) : insertPass k s = endOrder k .badField s := by
  rw [productOpen_iff, not_not] at hp
  simp only [insertPass, hu]
  exact if_pos hp

variable (hp : productOpen s (readInsert s k).product)
include hp

theorem insertPass_hit_refused {slot : Nat} {r : Result} (hl : lookup s.mem uid = some slot)
    (hr : hitProblem (s.pass slot) (s.product (s.pass slot).product) (s.product (readInsert s k).product)
      (readInsert s k) = some r) : insertPass k s = endOrder k r s := by
  simp only [insertPass, hu, if_neg ((productOpen_iff _ _).1 hp), show (probe s.mem uid).hit = some slot from hl, hr]

theorem insertPass_hit_accepted {slot : Nat} (hl : lookup s.mem uid = some slot)
    (hr : hitProblem (s.pass slot) (s.product (s.pass slot).product) (s.product (readInsert s k).product)
      (readInsert s k) = none) :
    insertPass k s = acceptInsert k uid slot
      (updatedEntry (s.pass slot) (s.product (readInsert s k).product) (readInsert s k)) s := by
  simp only [insertPass, hu, if_neg ((productOpen_iff _ _).1 hp), show (probe s.mem uid).hit = some slot from hl, hr]

variable (hm : lookup s.mem uid = none)
include hm

theorem insertPass_miss_noDay (hd : (readInsert s k).firstDay = none)
    (hf : (s.product (readInsert s k).product).floating = false) : insertPass k s = endOrder k .badField s := by
  simp only [insertPass, hu, if_neg ((productOpen_iff _ _).1 hp), show (probe s.mem uid).hit = none from hm]
  exact if_pos ⟨hd, hf⟩

variable (hd : ¬((readInsert s k).firstDay = none ∧ (s.product (readInsert s k).product).floating = false))
include hd

theorem insertPass_miss_crowded (hv : (probe s.mem uid).vacant = none) :
    insertPass k s = endOrder k .tableCrowded s := by
  simp only [insertPass, hu, if_neg ((productOpen_iff _ _).1 hp), show (probe s.mem uid).hit = none from hm, if_neg hd,
    hv]

theorem insertPass_miss_vacant {slot : Nat} (hv : (probe s.mem uid).vacant = some slot) :
    insertPass k s = acceptInsert k uid slot
      (insertedEntry uid (s.product (readInsert s k).product) (readInsert s k)) s := by
  simp only [insertPass, hu, if_neg ((productOpen_iff _ _).1 hp), show (probe s.mem uid).hit = none from hm, if_neg hd,
    hv]

end

/-- The first valid day of a card not in the table is sound: the payload gives one, or the product floats (R9 step 7). -/
theorem firstDay_given {s : State} {k : Fin 32} {d : Product}
    (h : payload s k 24 2 ≠ 0xFFFF ∨ d.floating = true) : ¬((readInsert s k).firstDay = none ∧ d.floating = false) := by
  rintro ⟨hn, hf⟩
  rcases h with h | h
  · exact h ((wordOpt_eq_none _).1 hn)
  · rw [hf] at h
    exact absurd h (by decide)

/-! ### Refusals -/

/-- Settles O25: each check that fails is the body's first to fail, and the refused order ends at once. -/
theorem insertPassRefusals : Obligations.InsertPassRefusals := by
  intro s k hok hc f d refused
  have refuse : ∀ r, insertPass k (takeSlot k s) = endOrder k r (takeSlot k s) → refused r :=
    fun r hb => carries_refused hok.1 hc hb
  refine ⟨fun hu => refuse _ (insertPass_badUid ((payloadUid_takeSlot k hok.1).trans hu)), fun uid hu => ?_⟩
  have hu' := (payloadUid_takeSlot k hok.1).trans hu
  have hri := readInsert_takeSlot k hok.1
  have hlook := lookup_takeSlot k hok.1 (payloadUid_length hu)
  refine ⟨fun hclosed => refuse _ (insertPass_closed hu' ?_), fun h63 hkind hstaged => ?_⟩
  · rw [hri, productOpen_takeSlot k hok.1, productOpen_iff, not_not, withdrawalStaged_iff]
    exact hclosed
  have hopen : productOpen (takeSlot k s) (readInsert (takeSlot k s) k).product := by
    rw [hri, productOpen_takeSlot k hok.1]
    exact ⟨h63, hkind, hstaged⟩
  have onHit : ∀ slot r, lookup s.mem uid = some slot →
      hitProblem (s.pass slot) (s.product (s.pass slot).product) d (readInsert s k) = some r → refused r := by
    intro slot r hl hr
    refine refuse r (insertPass_hit_refused hu' hopen (hlook.trans hl) ?_)
    rw [hri, pass_takeSlot k hok.1, product_takeSlot k hok.1, product_takeSlot k hok.1]
    exact hr
  refine ⟨fun slot hl hr hret => onHit slot _ hl (hitProblem_retired hr hret),
    fun slot hl hr hret hmark => onHit slot _ hl (hitProblem_held hr hret hmark),
    fun slot hl hr hk => onHit slot _ hl (hitProblem_replacement hr (replacementProblem_kind hk)),
    fun slot hl hr hk hb => onHit slot _ hl (hitProblem_replacement hr (replacementProblem_below hk hb)),
    fun slot hl hpass hday hfloat => onHit slot _ hl ?_, fun hm hday hfloat => ?_, fun hm hday hlive => ?_⟩
  · have hnone : firstDayAfter (s.pass slot) (readInsert s k) = none := by
      rw [firstDayAfter_eq, if_neg (not_not.2 (show payload s k 24 2 = 0xFFFF from hday))]
      split
      · rfl
      · rw [if_neg (by assumption)] at hpass
        exact hpass.2.1
    rw [hitProblem_firstDay, if_pos ⟨hnone, hfloat⟩]
    · intro hr
      rwa [if_pos (show (f 29 1).testBit 1 = true from hr)] at hpass
    · intro hr
      rw [if_neg (by rw [show (f 29 1).testBit 1 = false from hr]; decide)] at hpass
      exact ⟨hpass.1, not_allowanceBelow hpass.2.2.1 hpass.2.2.2⟩
  · refine refuse _ (insertPass_miss_noDay hu' hopen (hlook.trans hm) ?_ ?_)
    · rw [hri]
      exact (wordOpt_eq_none _).2 hday
    · rw [hri, product_takeSlot k hok.1]
      exact hfloat
  · refine refuse _ (insertPass_miss_crowded hu' hopen (hlook.trans hm) ?_ ?_)
    · rw [hri, product_takeSlot k hok.1]
      exact firstDay_given hday
    · rw [probe_takeSlot k hok.1 (payloadUid_length hu), probe_eq]
      exact vacant_of_allLive 16 0 fun i hi => by rw [Nat.zero_add]; exact hlive i hi

end Sys2Proof.Machine
end

section
/-! PROOFS. What an INSERT_PASS that passes its checks leaves of memory and state before it looks at the referrals
(R10 to R12), and where no lane is REFERRED for its card. -/

namespace Sys2Proof.Machine

/-! ### The entry written (R10, R11) -/

theorem initialUsage_eq (d : Product) : initialUsage d = if d.kind = .rides then d.ridesInitial else 0 := by
  unfold initialUsage
  cases d.kind <;> rfl

theorem setFlag_blocked (b : Bool) : setFlag 0 0 b = if b then 1 else 0 := by cases b <;> rfl

/-- The entry of a card that was not in the table, by the payload's fields. -/
theorem insertedEntry_eq (uid : List Byte) (d : Product) (s : State) (k : Nat) :
    insertedEntry uid d (readInsert s k) =
      { slotState := 1, uidLength := uid.length, uid := padTo 10 uid, stamp := payload s k 20 2
        product := payload s k 19 1, flags := if (payload s k 29 1).testBit 0 then 1 else 0
        issueDay := payload s k 22 2, firstDay := wordOpt (payload s k 24 2), lastDay := none
        usage := if d.kind = .rides then d.ridesInitial else 0, lastMinute := none, creditedDay := none
        paid := payload s k 26 3, marker := none } := by
  rw [insertedEntry, initialUsage_eq, setFlag_blocked]
  rfl

/-- The entry of a card found in the table, by the payload's fields. -/
theorem updatedEntry_eq (e : PassEntry) (d : Product) (s : State) (k : Nat) :
    updatedEntry e d (readInsert s k) =
      { e with
        stamp := payload s k 20 2, product := payload s k 19 1, issueDay := payload s k 22 2, paid := payload s k 26 3
        firstDay :=
          if payload s k 24 2 ≠ 0xFFFF then some (payload s k 24 2)
          else if (payload s k 29 1).testBit 1 then none else e.firstDay
        flags :=
          if (payload s k 29 1).testBit 1 then
            setFlag (setFlag (setFlag e.flags 0 ((payload s k 29 1).testBit 0)) 1 false) 2 false
          else setFlag e.flags 0 ((payload s k 29 1).testBit 0)
        usage :=
          if (payload s k 29 1).testBit 1 then (if d.kind = .rides then d.ridesInitial else 0) else e.usage
        lastDay := if (payload s k 29 1).testBit 1 then none else e.lastDay
        lastMinute := if (payload s k 29 1).testBit 1 then none else e.lastMinute
        creditedDay := if (payload s k 29 1).testBit 1 then none else e.creditedDay
        marker := if (payload s k 29 1).testBit 1 then none else e.marker } := by
  rw [updatedEntry, firstDayAfter_eq, initialUsage_eq]
  cases hr : (payload s k 29 1).testBit 1 <;> simp [readInsert, hr]

theorem initialUsage_lt {d : Product} (f : d.Fits) : initialUsage d < 65536 := by
  rw [initialUsage_eq]
  split
  · exact f.ridesInitial
  · decide

theorem insertedEntry_fits {uid : List Byte} (hu : uid.length ≤ 10) {d : Product} (f : d.Fits) (s : State) (k : Nat) :
    (insertedEntry uid d (readInsert s k)).Fits where
  slotState := (by decide : 1 < 256)
  uidLength := by simp only [insertedEntry]; omega
  uid := length_padTo _ _
  stamp := s.mem.read_lt _ 2
  product := s.mem.read_lt _ 1
  issueDay := s.mem.read_lt _ 2
  firstDay := fun _ h => wordOpt_lt (s.mem.read_lt _ 2) h
  lastDay := fun _ h => absurd h (by simp [insertedEntry])
  usage := initialUsage_lt f
  lastMinute := fun _ h => absurd h (by simp [insertedEntry])
  creditedDay := fun _ h => absurd h (by simp [insertedEntry])
  paid := s.mem.read_lt _ 3
  marker := fun _ h => absurd h (by simp [insertedEntry])

theorem firstDayAfter_lt {e : PassEntry} (f : e.Fits) (s : State) (k x : Nat)
    (h : firstDayAfter e (readInsert s k) = some x) : x < 65535 := by
  unfold firstDayAfter at h
  split at h
  · next d hd =>
    obtain rfl := Option.some.inj h
    exact wordOpt_lt (s.mem.read_lt _ 2) hd
  · split at h
    · exact absurd h (by simp)
    · exact f.firstDay _ h

theorem updatedEntry_fits {e : PassEntry} (f : e.Fits) {d : Product} (fd : d.Fits) (s : State) (k : Nat) :
    (updatedEntry e d (readInsert s k)).Fits := by
  have stamp : payload s k 20 2 < 65536 := s.mem.read_lt _ 2
  have product : payload s k 19 1 < 256 := s.mem.read_lt _ 1
  have issueDay : payload s k 22 2 < 65536 := s.mem.read_lt _ 2
  have paid : payload s k 26 3 < 16777216 := s.mem.read_lt _ 3
  unfold updatedEntry
  dsimp only
  split
  · exact { f with
      stamp, product, issueDay, paid, firstDay := firstDayAfter_lt f s k, usage := initialUsage_lt fd
      lastDay := fun _ h => absurd h (by simp), lastMinute := fun _ h => absurd h (by simp)
      creditedDay := fun _ h => absurd h (by simp), marker := fun _ h => absurd h (by simp) }
  · exact { f with stamp, product, issueDay, paid, firstDay := firstDayAfter_lt f s k }

/-! ### The checks passed -/

/-- A card not in the table goes to the first vacant slot of its probe. -/
theorem insertPass_new {k : Fin 32} {s : State} {uid : List Byte} {slot : Nat} (h : s.mem.wf)
    (hu : payloadUid s k = some uid) (hp : productOpen s (payload s k 19 1)) (hm : lookup s.mem uid = none)
    (hd : payload s k 24 2 ≠ 0xFFFF ∨ (s.product (payload s k 19 1)).floating = true) (hv : firstVacant s uid slot) :
    insertPass k (takeSlot k s) =
        acceptInsert k uid slot (insertedEntry uid (s.product (payload s k 19 1)) (readInsert s k)) (takeSlot k s)
      ∧ slot < passSlots := by
  have hri := readInsert_takeSlot k h
  have vacant := probe_firstVacant hm hv
  refine ⟨?_, (vacant_spec vacant).1⟩
  rw [insertPass_miss_vacant ((payloadUid_takeSlot k h).trans hu) (by rw [hri, productOpen_takeSlot k h]; exact hp)
    ((lookup_takeSlot k h (payloadUid_length hu)).trans hm) (by rw [hri, product_takeSlot k h]; exact firstDay_given hd)
    ((congrArg Probe.vacant (probe_takeSlot k h (payloadUid_length hu))).trans vacant), hri, product_takeSlot k h]
  rfl

/-- A card in the table keeps its slot. -/
theorem insertPass_known {k : Fin 32} {s : State} {uid : List Byte} {slot : Nat} (h : s.mem.wf)
    (hu : payloadUid s k = some uid) (hp : productOpen s (payload s k 19 1)) (hl : lookup s.mem uid = some slot)
    (hc : hitProblem (s.pass slot) (s.product (s.pass slot).product) (s.product (payload s k 19 1)) (readInsert s k) =
      none) :
    insertPass k (takeSlot k s) =
        acceptInsert k uid slot (updatedEntry (s.pass slot) (s.product (payload s k 19 1)) (readInsert s k)) (takeSlot k s)
      ∧ slot < passSlots := by
  have hri := readInsert_takeSlot k h
  refine ⟨?_, (lookup_spec hl).1⟩
  rw [insertPass_hit_accepted ((payloadUid_takeSlot k h).trans hu) (by rw [hri, productOpen_takeSlot k h]; exact hp)
    ((lookup_takeSlot k h (payloadUid_length hu)).trans hl)
    (by rw [hri, pass_takeSlot k h, product_takeSlot k h, product_takeSlot k h]; exact hc),
    hri, pass_takeSlot k h, product_takeSlot k h]
  rfl

/-- The checks of a hit passed, as the statements give them. -/
theorem hitProblem_none {e : PassEntry} {old d : Product} {s : State} {k : Nat}
    (hreset : (payload s k 29 1).testBit 1 = true → e.retired = false ∧ e.marker = none)
    (hkept : (payload s k 29 1).testBit 1 = false → old.kind = d.kind
      ∧ (d.kind = .days → e.usage % 256 ≤ d.daysBought) ∧ (d.kind = .rides → e.usage ≤ d.ridesInitial))
    (hfirst : (if payload s k 24 2 ≠ 0xFFFF then some (payload s k 24 2)
        else if (payload s k 29 1).testBit 1 then none else e.firstDay) ≠ none ∨ d.floating = true) :
    hitProblem e old d (readInsert s k) = none := by
  rw [hitProblem_firstDay hreset fun hr => ?_, if_neg ?_]
  · rintro ⟨hn, hf⟩
    rw [firstDayAfter_eq] at hn
    rcases hfirst with hfirst | hfirst
    · exact hfirst hn
    · rw [hf] at hfirst
      exact absurd hfirst (by decide)
  · obtain ⟨hk, hdays, hrides⟩ := hkept hr
    exact ⟨hk, not_allowanceBelow hdays hrides⟩

/-! ### The entry stored and the order ended -/

/-- The state of an INSERT_PASS that has written its entry and ended, before the referrals are looked at. -/
def insertStored (k : Fin 32) (slot : Nat) (e : PassEntry) (s : State) : State :=
  noteReference e.product slot (endOrder k .ok ((takeSlot k s).putPass slot e))

/-- The withdrawal scan with a reference to a product at a slot it has passed noted (R12, R23). -/
def referenceNoted (s : State) (index slot : Nat) : Option WithdrawalScan :=
  s.withdrawal.map fun w => if w.order.index = index ∧ slot < w.position then { w with late := true } else w

theorem acceptInsert_takeSlot (k : Fin 32) (uid : List Byte) (slot : Nat) (e : PassEntry) (s : State) :
    acceptInsert k uid slot e (takeSlot k s) = reevaluateAll uid slot (insertStored k slot e s) := rfl

theorem noteReference_mem (index slot : Nat) (s : State) : (noteReference index slot s).mem = s.mem := rfl

section
variable (k : Fin 32) (slot : Nat) (e : PassEntry) {s : State} (h : s.mem.wf)
include h

/-- An entry stands behind the Order Table. -/
theorem byteAt_putPass_low {x : Nat} (hx : x < 0xE200) : (s.putPass slot e).mem.byteAt x = s.mem.byteAt x :=
  byteAt_putPass h slot e (by unfold inField passBase; omega)

theorem orderState_putPass : orderState ((takeSlot k s).putPass slot e) k = 2 :=
  (Memory.read_congr fun _ _ hx => byteAt_putPass_low slot e (takeSlot_wf k h) (by unfold orderBase at hx; omega)).trans
    (orderState_takeSlot k h)

theorem orderKind_putPass : orderKind ((takeSlot k s).putPass slot e) k = orderKind s k :=
  (Memory.read_congr fun _ _ hx => byteAt_putPass_low slot e (takeSlot_wf k h) (by unfold orderBase at hx; omega)).trans
    (orderKind_takeSlot k h)

omit h in
theorem insertStored_mem : (insertStored k slot e s).mem = (endOrder k .ok ((takeSlot k s).putPass slot e)).mem := by
  rw [insertStored, noteReference_mem]

theorem insertStored_wf : (insertStored k slot e s).mem.wf := by
  rw [insertStored_mem]
  exact endOrder_wf k .ok (putPass_wf (takeSlot_wf k h) slot e)

omit h in
/-- What the end of an order does to a state that differs from the slot taken in memory alone. -/
theorem noteReference_endOrder {u : State} (hu : u = { takeSlot k s with mem := u.mem }) (hw : u.mem.wf)
    (ht : orderState u k = 2) (r : Result) (index : Nat) :
    noteReference index slot (endOrder k r u) =
      { s with
        mem := (noteReference index slot (endOrder k r u)).mem, attn := s.attn ||| 1#8, sweepNext := slotAfter k
        withdrawal := referenceNoted s index slot } := by
  generalize u.mem = m at hu hw
  subst hu
  rw [endOrder_taken k r hw ht]
  rfl

theorem insertStored_eq :
    insertStored k slot e s =
      { s with
        mem := (insertStored k slot e s).mem, attn := s.attn ||| 1#8, sweepNext := slotAfter k
        withdrawal := referenceNoted s e.product slot } := by
  unfold insertStored
  exact noteReference_endOrder k slot (putPass_eq _ _ _) (putPass_wf (takeSlot_wf k h) slot e) (orderState_putPass k slot e h) .ok
    e.product

theorem byteAt_insertStored {x : Nat} (hx : ¬(inOrderEnd k x ∨ inField (passBase slot) 32 x)) :
    (insertStored k slot e s).mem.byteAt x = s.mem.byteAt x := by
  rw [not_or] at hx
  obtain ⟨hend, hentry⟩ := hx
  have hw := takeSlot_wf k h
  calc (insertStored k slot e s).mem.byteAt x
    _ = (endOrder k .ok ((takeSlot k s).putPass slot e)).mem.byteAt x := by rw [insertStored_mem]
    _ = ((takeSlot k s).putPass slot e).mem.byteAt x := byteAt_endOrder k .ok (putPass_wf hw slot e) hend
    _ = (takeSlot k s).mem.byteAt x := byteAt_putPass hw slot e hentry
    _ = s.mem.byteAt x := byteAt_takeSlot k h fun hf => hend (.inl hf)

theorem pass_insertStored (f : e.Fits) : (insertStored k slot e s).pass slot = e := by
  unfold State.pass
  rw [insertStored_mem]
  exact (pass_of_outside_orderEnd (fun _ hx => byteAt_endOrder k .ok (putPass_wf (takeSlot_wf k h) slot e) hx) slot).trans
    (pass_putPass (takeSlot_wf k h) slot f)

theorem orderEnded_insertStored : orderEnded s (insertStored k slot e s) k .ok := by
  obtain ⟨hstate, hcode, hkind, hattn⟩ :=
    endOrder_shows k .ok (putPass_wf (takeSlot_wf k h) slot e) (orderState_putPass k slot e h)
  have hkind := hkind.trans (orderKind_putPass k slot e h)
  simp only [orderState, orderKind, State.peek, ← insertStored_mem] at hstate hcode hkind
  refine ⟨hstate, hcode, hkind, ?_, ?_⟩
  · rw [insertStored_eq k slot e h]
    exact or_one_bit _
  · rw [insertStored_eq k slot e h]

end

/-! ### No lane REFERRED for the card -/

theorem reevaluate_unreferred {uid : List Byte} {slot : Nat} {n : Fin 4} {s : State}
    (h : ∀ r, (s.lane n).state = .referred r → r.uid ≠ uid) : reevaluate uid slot n s = s := by
  unfold reevaluate
  split
  · next r hr => exact if_neg (h r hr)
  · rfl

theorem eachLane_fixed {f : Fin 4 → State → State} {s : State} (h : ∀ n, f n s = s) : eachLane f s = s := by
  simp [eachLane, allFour, h]

/-- An INSERT_PASS that no lane waits for ends as its entry and its slot stand. -/
theorem insertPass_stores {k : Fin 32} {s : State} {uid : List Byte} {slot : Nat} {e : PassEntry} (h : s.mem.wf)
    (hc : carries s k 1) (f : e.Fits) (hb : insertPass k (takeSlot k s) = acceptInsert k uid slot e (takeSlot k s))
    (hr : ∀ n r, (s.lane n).state = .referred r → r.uid ≠ uid) :
    ∃ t, exec (.insertPass k) s = .next t ∧ orderEnded s t k .ok ∧ t.pass slot = e
      ∧ t = { s with
                mem := t.mem, attn := s.attn ||| 1#8, sweepNext := slotAfter k
                withdrawal := referenceNoted s e.product slot }
      ∧ keepsBytes s t (fun a => inOrderEnd k a ∨ inField (passBase slot) 32 a) := by
  have heq := insertStored_eq k slot e h
  have hend := orderEnded_insertStored k slot e h
  have hpass := pass_insertStored k slot e h f
  have hbytes := fun a => byteAt_insertStored k slot e h (x := a)
  have hrun : exec (.insertPass k) s = .next (settleOutputs s (reevaluateAll uid slot (insertStored k slot e s))) := by
    rw [← acceptInsert_takeSlot, ← hb]
    exact carries_runs hc
  generalize insertStored k slot e s = t at heq hend hpass hbytes hrun
  have hlane : ∀ n, t.lane n = s.lane n := fun n => by rw [heq]; rfl
  have hfix : reevaluateAll uid slot t = t :=
    eachLane_fixed fun n => reevaluate_unreferred fun r hs => hr n r (by rwa [hlane] at hs)
  have hquiet : settleOutputs s t = t := by
    rw [heq]
    exact settleOutputs_quiet rfl rfl rfl rfl
  rw [hfix, hquiet] at hrun
  exact ⟨t, hrun, hend, hpass, heq, hbytes⟩

/-- Settles O22: the body on the slot taken stores the entry in the first vacant slot of the probe. -/
theorem insertPassWritesNewEntry : Obligations.InsertPassWritesNewEntry := by
  intro s k uid slot hok hc hu f d h63 hkind hstaged hm hd hv hr
  obtain ⟨hb, -⟩ := insertPass_new hok.1 hu ⟨h63, hkind, hstaged⟩ hm hd hv
  obtain ⟨t, hstep, hend, hpass, heq, hbytes⟩ := insertPass_stores hok.1 hc
    (insertedEntry_fits (payloadUid_length hu) (readProductAt_fits _ _) s k) hb hr
  exact ⟨t, hstep, hend, hpass.trans (insertedEntry_eq _ _ _ _), heq, hbytes⟩

/-- Settles O23: the body on the slot taken stores the updated entry at the card's own slot. -/
theorem insertPassUpdatesEntry : Obligations.InsertPassUpdatesEntry := by
  intro s k uid slot hok hc hu f d e old resetUsage first h63 hkind hstaged hl hreset hkept hfirst hr
  obtain ⟨hb, -⟩ := insertPass_known hok.1 hu ⟨h63, hkind, hstaged⟩ hl (hitProblem_none hreset hkept hfirst)
  obtain ⟨t, hstep, hend, hpass, heq, hbytes⟩ := insertPass_stores hok.1 hc
    (updatedEntry_fits (readPass_fits _ _) (readProductAt_fits _ _) s k) hb hr
  refine ⟨t, hstep, hend, hpass.trans (updatedEntry_eq _ _ _ _), ?_, hbytes⟩
  rw [updatedEntry_eq] at heq
  exact heq

end Sys2Proof.Machine
end

section
/-! PROOFS. STAGE_PRODUCT (R17, R19 to R22): its checks case by case, and the records it places. -/

namespace Sys2Proof.Machine

/-! ### The checks of R19 -/

/-- The fields that the kind uses stand in their ranges (R17, R19 step 3). -/
def inBounds (p : Product) : Prop :=
  1 ≤ p.span ∧ p.span ≤ 255
    ∧ (p.floating = true → 1 ≤ p.activation ∧ p.activation ≤ 365) ∧ p.openMinute ≤ 1410
    ∧ 30 ≤ p.closeMinute ∧ p.closeMinute ≤ 1440 ∧ p.passback ≤ 120
    ∧ (p.kind = .days → 1 ≤ p.daysBought ∧ p.daysBought ≤ 14 ∧ p.cutoff ≤ 1440)
    ∧ (p.kind = .rides → 1 ≤ p.ridesInitial ∧ p.ridesInitial ≤ 500)
    ∧ (p.kind ≠ .season → 1 ≤ p.rounding ∧ p.rounding ≤ 10000 ∧ p.late ≤ 1000 ∧ p.deadline ≤ 365)

/-- The ladder does not fall up to the days bought (R19 step 5). -/
def rising (p : Product) : Prop :=
  p.kind = .days → ∀ i, 1 ≤ i → i < p.daysBought → p.price i ≤ p.price (i + 1)

/-- An allowance below that of the record in force (R19 step 7). -/
def lowers (old new : Product) : Prop :=
  (old.kind = .days ∧ new.daysBought < old.daysBought) ∨ (old.kind = .rides ∧ new.ridesInitial < old.ridesInitial)

theorem fieldsInRange_iff (p : Product) : fieldsInRange p = true ↔ inBounds p := by
  have floats : ((!p.floating || (decide (1 ≤ p.activation) && decide (p.activation ≤ 365))) = true) ↔
      (p.floating = true → 1 ≤ p.activation ∧ p.activation ≤ 365) := by
    cases p.floating <;> simp
  unfold fieldsInRange inBounds
  cases p.kind <;> simp only [Bool.and_eq_true, decide_eq_true_eq, floats] <;> simp <;> tauto

theorem ladderOrdered_iff (p : Product) :
    ladderOrdered p = true ↔ ∀ i, 1 ≤ i → i < p.daysBought → p.price i ≤ p.price (i + 1) := by
  simp only [ladderOrdered, List.all_eq_true, List.mem_range, decide_eq_true_eq]
  refine ⟨fun h i _ => h i, fun h i hi => ?_⟩
  cases i with
  | zero => exact Nat.zero_le _
  | succ i => exact h _ (by omega) hi

/-- The check of the ladder, which R19 makes of a DAYS product alone. -/
theorem ladderFalls_iff (p : Product) : (p.kind = .days ∧ ladderOrdered p = false) ↔ ¬rising p := by
  rw [rising, ← ladderOrdered_iff, Classical.not_imp, Bool.not_eq_true]

section
variable {old new : Product}

theorem definitionProblem_badField (h : ¬inBounds new) : definitionProblem old new = some .badField :=
  if_pos (Bool.eq_false_iff.2 fun hf => h ((fieldsInRange_iff _).1 hf))

variable (hb : inBounds new)
include hb

theorem fieldsInRange_of_inBounds : ¬fieldsInRange new = false := by
  rw [(fieldsInRange_iff _).2 hb]
  decide

theorem hoursShort_iff :
    (new.closeMinute ≤ new.openMinute ∨ 1440 < new.closeMinute ∨ new.closeMinute - new.openMinute < 30) ↔
      ¬new.openMinute + 30 ≤ new.closeMinute := by
  obtain ⟨-, -, -, -, -, hclose, -⟩ := hb
  omega

theorem definitionProblem_windowShape (ho : ¬new.openMinute + 30 ≤ new.closeMinute) :
    definitionProblem old new = some .windowShape := by
  rw [definitionProblem, if_neg (fieldsInRange_of_inBounds hb), if_pos ((hoursShort_iff hb).2 ho)]

variable (ho : new.openMinute + 30 ≤ new.closeMinute)
include ho

theorem definitionProblem_ladderOrder (hr : ¬rising new) : definitionProblem old new = some .ladderOrder := by
  rw [definitionProblem, if_neg (fieldsInRange_of_inBounds hb), if_neg fun h => (hoursShort_iff hb).1 h ho,
    if_pos ((ladderFalls_iff new).2 hr)]

variable (hr : rising new)
include hr

theorem definitionProblem_rising :
    definitionProblem old new =
      if old.kind ≠ .none ∧ new.kind ≠ old.kind then some .kindChange
      else if old.kind = .days ∧ new.daysBought < old.daysBought then some .daysLowered
      else if old.kind = .rides ∧ new.ridesInitial < old.ridesInitial then some .daysLowered
      else none := by
  rw [definitionProblem, if_neg (fieldsInRange_of_inBounds hb), if_neg fun h => (hoursShort_iff hb).1 h ho,
    if_neg fun h => (ladderFalls_iff new).1 h hr]

theorem definitionProblem_kindChange (hk : old.kind ≠ .none) (hn : new.kind ≠ old.kind) :
    definitionProblem old new = some .kindChange := by
  rw [definitionProblem_rising hb ho hr, if_pos ⟨hk, hn⟩]

theorem definitionProblem_daysLowered (hn : new.kind = old.kind) (hl : lowers old new) :
    definitionProblem old new = some .daysLowered := by
  rw [definitionProblem_rising hb ho hr, if_neg fun h => h.2 hn]
  rcases hl with hl | hl
  · rw [if_pos hl]
  · rw [if_neg (by rw [hl.1]; simp), if_pos hl]

theorem definitionProblem_none (hn : old.kind = .none ∨ (new.kind = old.kind ∧ ¬lowers old new)) :
    definitionProblem old new = none := by
  have unchanged : ¬(old.kind ≠ .none ∧ new.kind ≠ old.kind) := by
    rintro ⟨h1, h2⟩
    rcases hn with hn | ⟨hn, -⟩
    · exact h1 hn
    · exact h2 hn
  have kept : ¬lowers old new := by
    rcases hn with hn | ⟨-, hn⟩
    · simp [lowers, hn]
    · exact hn
  rw [definitionProblem_rising hb ho hr, if_neg unchanged, if_neg fun h => kept (.inl h), if_neg fun h => kept (.inr h)]

end

theorem stageFull_iff (m : Memory) (index : Nat) :
    stageFull m index = true ↔ (readStaging m).length = 8 ∧ ∀ x ∈ readStaging m, x.1 ≠ index := by
  have := readStaging_length m
  simp only [stageFull, Bool.and_eq_true, decide_eq_true_eq, Bool.not_eq_true', List.any_eq_false]
  exact and_congr_left' (by omega)

/-- There is a place in the Staging Area for a record of the index (R20). -/
def stageHasPlace (m : Memory) (index : Nat) : Prop :=
  (∃ x ∈ readStaging m, x.1 = index) ∨ (readStaging m).length < 8

theorem stageFull_false {m : Memory} {index : Nat} (h : stageHasPlace m index) : stageFull m index = false := by
  rw [← Bool.not_eq_true, stageFull_iff]
  rintro ⟨hlen, hne⟩
  rcases h with ⟨x, hx, he⟩ | h
  · exact hne x hx he
  · omega

theorem placeProblem_notQuiet {s : State} {index : Nat} (hq : s.station ≠ .quiet) :
    placeProblem s index true = some .notQuiet := if_pos ⟨rfl, hq⟩

theorem placeProblem_stageFull {s : State} {index : Nat} (hf : stageFull s.mem index = true) :
    placeProblem s index false = some .stageFull := by
  simp [placeProblem, hf]

theorem placeProblem_none {s : State} {index : Nat} {immediate : Bool} (hq : immediate = true → s.station = .quiet)
    (hp : immediate = false → stageHasPlace s.mem index) : placeProblem s index immediate = none := by
  cases immediate with
  | true => simp [placeProblem, hq rfl]
  | false => simp [placeProblem, stageFull_false (hp rfl)]

theorem placeProblem_takeSlot (k : Fin 32) {s : State} (h : s.mem.wf) (index : Nat) (immediate : Bool) :
    placeProblem (takeSlot k s) index immediate = placeProblem s index immediate := by
  rw [placeProblem, stageFull, readStaging_takeSlot k h]
  rfl

/-! ### The record stored (R17) -/

theorem price_succ (p : Product) (i : Nat) : p.price (i + 1) = p.ladder.getD i 0 := rfl

/-- A record cleaned, field by field. -/
theorem clean_eq {p : Product} (h : p.kind ≠ .none) :
    p.clean =
      { kind := p.kind, floating := p.floating, refundable := decide (¬p.kind = .season) && p.refundable
        daysBought := if p.kind = .days then p.daysBought else 0, span := p.span
        activation := if p.floating then p.activation else 0
        ridesInitial := if p.kind = .rides then p.ridesInitial else 0, mask := p.mask
        openMinute := p.openMinute, closeMinute := p.closeMinute, passback := p.passback
        cutoff := if p.kind = .days then p.cutoff else 0, fee := if p.kind = .season then 0 else p.fee
        rounding := if p.kind = .season then 0 else p.rounding, late := if p.kind = .season then 0 else p.late
        deadline := if p.kind = .season then 0 else p.deadline
        ladder := (List.range 14).map fun i => if p.kind = .days ∧ i < p.daysBought then p.price (i + 1) else 0 } := by
  unfold Product.clean
  split
  case h_1 hk => exact absurd hk h
  case h_2 hk => simp [hk, price_succ]
  case h_3 hk => simp [hk]
  case h_4 hk => simp [hk]

/-! ### What the body reads from the slot taken -/

theorem readProductAt_takeSlot (k : Fin 32) {s : State} (h : s.mem.wf) :
    readProductAt (takeSlot k s).mem (orderBase k.val + 10) = readProductAt s.mem (orderBase k.val + 10) :=
  readProductAt_congr fun _ hx => byteAt_takeSlot k h (by unfold inField at *; omega)

theorem kindOfCode_none {n : Nat} (h : n = 0) : kindOfCode n = .none := by rw [h]; rfl

theorem kindOfCode_ne_none {n : Nat} (h1 : 1 ≤ n) (h3 : n ≤ 3) : kindOfCode n ≠ .none := by
  match n with
  | 1 | 2 | 3 => decide
  | 0 | n + 4 => omega

/-! ### The body of STAGE_PRODUCT, case by case -/

section
variable {k : Fin 32} {s : State}

theorem stageProduct_badField (h : 63 < payload s k 8 1 ∨ 3 < payload s k 10 1) :
    stageProduct k s = endOrder k .badField s := if_pos h

variable (hi : payload s k 8 1 ≤ 63)
include hi

section
variable (h1 : 1 ≤ payload s k 10 1) (h3 : payload s k 10 1 ≤ 3)
include h1 h3

theorem stageProduct_unsound {r : Result}
    (hp : definitionProblem (s.product (payload s k 8 1)) (readProductAt s.mem (orderBase k.val + 10)) = some r) :
    stageProduct k s = endOrder k r s := by
  have hk : (readProductAt s.mem (orderBase k.val + 10)).kind ≠ .none := kindOfCode_ne_none h1 h3
  simp [stageProduct, hk, hp, show ¬(63 < payload s k 8 1 ∨ 3 < payload s k 10 1) by omega]

variable (hp : definitionProblem (s.product (payload s k 8 1)) (readProductAt s.mem (orderBase k.val + 10)) = none)
include hp

theorem stageProduct_noPlace {r : Result}
    (hr : placeProblem s (payload s k 8 1) ((payload s k 9 1).testBit 0) = some r) :
    stageProduct k s = endOrder k r s := by
  have hk : (readProductAt s.mem (orderBase k.val + 10)).kind ≠ .none := kindOfCode_ne_none h1 h3
  simp only [stageProduct, if_neg hk, hp, hr, if_neg (show ¬(63 < payload s k 8 1 ∨ 3 < payload s k 10 1) by omega)]

theorem stageProduct_places (hr : placeProblem s (payload s k 8 1) ((payload s k 9 1).testBit 0) = none) :
    stageProduct k s = endOrder k .ok (placeProduct (payload s k 8 1)
      (readProductAt s.mem (orderBase k.val + 10)).clean ((payload s k 9 1).testBit 0) s) := by
  have hk : (readProductAt s.mem (orderBase k.val + 10)).kind ≠ .none := kindOfCode_ne_none h1 h3
  simp only [stageProduct, if_neg hk, hp, hr, if_neg (show ¬(63 < payload s k 8 1 ∨ 3 < payload s k 10 1) by omega)]

end

variable (h0 : payload s k 10 1 = 0)
include h0

/-- A withdrawal that need not wait is judged at once (R22). -/
theorem stageProduct_begins (hw : s.withdrawal = none ∨ (s.product (payload s k 8 1)).kind = .none) :
    stageProduct k s = beginWithdrawal ⟨k, payload s k 8 1, (payload s k 9 1).testBit 0⟩ s := by
  have hk : (readProductAt s.mem (orderBase k.val + 10)).kind = .none := kindOfCode_none h0
  simp only [stageProduct, if_pos hk, if_neg (show ¬(63 < payload s k 8 1 ∨ 3 < payload s k 10 1) by omega)]
  rcases hw with hw | hw <;> simp [hw]

theorem stageProduct_waits (hk : (s.product (payload s k 8 1)).kind ≠ .none) (hw : s.withdrawal ≠ none) :
    stageProduct k s = { s with
      withdrawalsWaiting := s.withdrawalsWaiting ++ [⟨k, payload s k 8 1, (payload s k 9 1).testBit 0⟩] } := by
  have hn : (readProductAt s.mem (orderBase k.val + 10)).kind = .none := kindOfCode_none h0
  simp only [stageProduct, if_pos hn, if_neg (show ¬(63 < payload s k 8 1 ∨ 3 < payload s k 10 1) by omega), if_neg hk,
    if_pos (Option.isSome_iff_ne_none.2 hw)]

end

/-! ### A withdrawal judged (R22) -/

section
variable {o : WithdrawalOrder} {s : State}

theorem beginWithdrawal_refused {r : Result} (h : placeProblem s o.index o.immediate = some r) :
    beginWithdrawal o s = endOrder o.slot r s := by
  simp only [beginWithdrawal, h]

theorem beginWithdrawal_places (h : placeProblem s o.index o.immediate = none)
    (hk : (s.product o.index).kind = .none) :
    beginWithdrawal o s = endOrder o.slot .ok (placeProduct o.index .withdrawn o.immediate s) := by
  simp only [beginWithdrawal, h, if_pos hk]

theorem beginWithdrawal_starts (h : placeProblem s o.index o.immediate = none)
    (hk : (s.product o.index).kind ≠ .none) :
    beginWithdrawal o s = { s with withdrawal := some ⟨o, 0, false, false, s.now⟩ } := by
  simp only [beginWithdrawal, h, if_neg hk]

end

/-! ### Orders that end with a record placed -/

theorem placeNow_eq (index : Nat) (p : Product) (s : State) :
    placeNow index p s = { s with mem := (placeNow index p s).mem } := with_mem_eq s _

theorem stageRecord_eq (index : Nat) (p : Product) (s : State) :
    stageRecord index p s = { s with mem := (stageRecord index p s).mem } := with_mem_eq s _

theorem stageRecord_wf (index : Nat) (p : Product) {s : State} (h : s.mem.wf) : (stageRecord index p s).mem.wf :=
  writeStaging_wf h _

/-- A table read by bytes that the end of an order does not write. -/
theorem product_of_outside_orderEnd {k : Fin 32} {s t : State} (h : ∀ x, ¬inOrderEnd k x → t.mem.byteAt x = s.mem.byteAt x)
    (i : Nat) : t.product i = s.product i :=
  readProduct_congr fun x hx => h x (by unfold inOrderEnd inField orderBase productBase at *; omega)

theorem readStaging_of_outside_orderEnd {k : Fin 32} {s t : State}
    (h : ∀ x, ¬inOrderEnd k x → t.mem.byteAt x = s.mem.byteAt x) : readStaging t.mem = readStaging s.mem :=
  readStaging_congr fun x hx => h x (by unfold inOrderEnd inField orderBase stagingBase at *; omega)

section
variable {k : Fin 32} {code index : Nat} {body : State → State} {s : State} {p : Product} (h : s.mem.wf)
  (hc : carries s k code) (f : p.Fits)
include h hc f

/-- An order that ends with a record in force at its index, none staged for it (R21). -/
theorem carries_placeNow (hi : index ≤ 63)
    (hb : body (takeSlot k s) = endOrder k .ok (placeProduct index p true (takeSlot k s))) :
    ∃ t, visit k (kindIs k code) body s = .next t
      ∧ onlyOrder s t k .ok (fun a => inField (productBase index) 128 a ∨ inField (stagingBase 0) 1024 a)
      ∧ t.product index = p ∧ readStaging t.mem = (readStaging s.mem).filter fun x => x.1 ≠ index := by
  obtain ⟨hw, hprod, hstaged, hbytes⟩ := placeNow_spec hi f (takeSlot_wf k h)
  obtain ⟨t, hstep, honly, hend⟩ := onlyOrder_of_end
    (stored := fun a => inField (productBase index) 128 a ∨ inField (stagingBase 0) 1024 a) h hc.1
    (kindIs_of_carries hc) hb (placeNow_eq _ _ _) hw
    (fun x hx => hbytes x (fun hf => hx (.inl hf)) fun hf => hx (.inr hf))
    fun x hx => by unfold inField orderBase productBase stagingBase at *; omega
  refine ⟨t, hstep, honly, (product_of_outside_orderEnd hend index).trans hprod, ?_⟩
  rw [readStaging_of_outside_orderEnd hend, ← readStaging_takeSlot k h]
  exact hstaged

/-- An order that ends with a record staged for its index (R20). -/
theorem carries_stageRecord (hi : index ≤ 63) (hp : stageHasPlace s.mem index)
    (hb : body (takeSlot k s) = endOrder k .ok (placeProduct index p false (takeSlot k s))) :
    ∃ t, visit k (kindIs k code) body s = .next t ∧ onlyOrder s t k .ok (inField (stagingBase 0) 1024)
      ∧ readStaging t.mem =
        if (∃ x ∈ readStaging s.mem, x.1 = index) then
          (readStaging s.mem).map fun x => if x.1 = index then (index, p) else x
        else readStaging s.mem ++ [(index, p)] := by
  have hw := takeSlot_wf k h
  have hp' : stageHasPlace (takeSlot k s).mem index := by rwa [stageHasPlace, readStaging_takeSlot k h]
  obtain ⟨t, hstep, honly, hend⟩ := onlyOrder_of_end
    (stored := inField (stagingBase 0) 1024) h hc.1 (kindIs_of_carries hc) hb (stageRecord_eq _ _ _)
    (stageRecord_wf _ _ hw) (fun x hx => product_stageRecord index p hw hp' hx)
    fun x hx => by unfold inField orderBase stagingBase at *; omega
  refine ⟨t, hstep, honly, ?_⟩
  rw [readStaging_of_outside_orderEnd hend, ← readStaging_takeSlot k h]
  exact readStaging_stageRecord (by omega) f hw hp'

end

/-! ### The obligations -/

/-- A definition that stands in every bound of R19 has no problem. -/
theorem stageProduct_sound {k : Fin 32} {s : State} (h : s.mem.wf) (hi : payload s k 8 1 ≤ 63)
    (h1 : 1 ≤ payload s k 10 1) (h3 : payload s k 10 1 ≤ 3)
    (hp : definitionProblem (s.product (payload s k 8 1)) (readProductAt s.mem (orderBase k.val + 10)) = none)
    (hr : placeProblem s (payload s k 8 1) ((payload s k 9 1).testBit 0) = none) :
    stageProduct k (takeSlot k s) = endOrder k .ok (placeProduct (payload s k 8 1)
      (readProductAt s.mem (orderBase k.val + 10)).clean ((payload s k 9 1).testBit 0) (takeSlot k s)) := by
  have hpay : ∀ off n, 2 ≤ off → payload (takeSlot k s) k off n = payload s k off n := fun off n => payload_takeSlot k h
  have := stageProduct_places (k := k) (s := takeSlot k s) (by rwa [hpay _ _ (by decide)])
    (by rwa [hpay _ _ (by decide)]) (by rwa [hpay _ _ (by decide)])
    (by rwa [hpay _ _ (by decide), product_takeSlot k h, readProductAt_takeSlot k h])
    (by rwa [hpay _ _ (by decide), hpay _ _ (by decide), placeProblem_takeSlot k h])
  rwa [hpay _ _ (by decide), hpay _ _ (by decide), readProductAt_takeSlot k h] at this

/-- Settles O32: a sound definition is placed as it is cleaned. -/
theorem stageProductPlacesRecord : Obligations.StageProductPlacesRecord := by
  intro s k hok hc f index new old staged days season stored hi h1 h3 hspan1 hspan hact hopen hclose30 hclose hours hpass
    hdays hrides hrest hkind hlowd hlowr
  have bounds : inBounds new :=
    ⟨hspan1, hspan, hact, hopen, hclose30, hclose, hpass,
      fun hk => ⟨(hdays hk).1, (hdays hk).2.1, (hdays hk).2.2.1⟩, hrides, hrest⟩
  have kept : old.kind = .none ∨ (new.kind = old.kind ∧ ¬lowers old new) := by
    refine or_iff_not_imp_left.2 fun hn => ⟨(hkind hn).symm, ?_⟩
    rintro (⟨hk, hlt⟩ | ⟨hk, hlt⟩)
    · exact absurd (hlowd hk) (by omega)
    · exact absurd (hlowr hk) (by omega)
  have sound : definitionProblem old new = none :=
    definitionProblem_none bounds hours (fun hk => (hdays hk).2.2.2) kept
  have hclean : new.clean = stored := clean_eq (kindOfCode_ne_none h1 h3)
  have fits : stored.Fits := hclean ▸ clean_fits (readProductAt_fits _ _)
  refine ⟨fun (himm : (payload s k 9 1).testBit 0 = true) hq => carries_placeNow hok.1 hc fits hi ?_,
    fun (himm : (payload s k 9 1).testBit 0 = false) hroom => carries_stageRecord hok.1 hc fits hi hroom ?_⟩
  · rw [stageProduct_sound hok.1 hi h1 h3 sound (placeProblem_none (fun _ => hq) fun hf => by simp [himm] at hf), himm]
    exact congrArg (fun p => endOrder k .ok (placeProduct index p true (takeSlot k s))) hclean
  · rw [stageProduct_sound hok.1 hi h1 h3 sound (placeProblem_none (fun hf => by simp [himm] at hf) fun _ => hroom), himm]
    exact congrArg (fun p => endOrder k .ok (placeProduct index p false (takeSlot k s))) hclean

end Sys2Proof.Machine
end

section
/-! PROOFS. STAGE_PRODUCT that places no definition: its refusals in the order of R19, and withdrawals (R22). -/

namespace Sys2Proof.Machine

/-! ### The body on the slot taken -/

section
variable {k : Fin 32} {s : State} (h : s.mem.wf)
include h

theorem payload_takeSlot_index : payload (takeSlot k s) k 8 1 = payload s k 8 1 := payload_takeSlot k h (by decide)

theorem payload_takeSlot_flags : payload (takeSlot k s) k 9 1 = payload s k 9 1 := payload_takeSlot k h (by decide)

theorem payload_takeSlot_kind : payload (takeSlot k s) k 10 1 = payload s k 10 1 := payload_takeSlot k h (by decide)

theorem stageTaken_badField (hb : 63 < payload s k 8 1 ∨ 3 < payload s k 10 1) :
    stageProduct k (takeSlot k s) = endOrder k .badField (takeSlot k s) :=
  stageProduct_badField (by rwa [payload_takeSlot_index h, payload_takeSlot_kind h])

variable (hi : payload s k 8 1 ≤ 63)
include hi

theorem stageTaken_unsound (h1 : 1 ≤ payload s k 10 1) (h3 : payload s k 10 1 ≤ 3) {r : Result}
    (hp : definitionProblem (s.product (payload s k 8 1)) (readProductAt s.mem (orderBase k.val + 10)) = some r) :
    stageProduct k (takeSlot k s) = endOrder k r (takeSlot k s) :=
  stageProduct_unsound (by rwa [payload_takeSlot_index h]) (by rwa [payload_takeSlot_kind h])
    (by rwa [payload_takeSlot_kind h])
    (by rwa [payload_takeSlot_index h, product_takeSlot k h, readProductAt_takeSlot k h])

theorem stageTaken_noPlace (h1 : 1 ≤ payload s k 10 1) (h3 : payload s k 10 1 ≤ 3)
    (hp : definitionProblem (s.product (payload s k 8 1)) (readProductAt s.mem (orderBase k.val + 10)) = none)
    {r : Result} (hr : placeProblem s (payload s k 8 1) ((payload s k 9 1).testBit 0) = some r) :
    stageProduct k (takeSlot k s) = endOrder k r (takeSlot k s) :=
  stageProduct_noPlace (by rwa [payload_takeSlot_index h]) (by rwa [payload_takeSlot_kind h])
    (by rwa [payload_takeSlot_kind h])
    (by rwa [payload_takeSlot_index h, product_takeSlot k h, readProductAt_takeSlot k h])
    (by rwa [payload_takeSlot_index h, payload_takeSlot_flags h, placeProblem_takeSlot k h])

variable (h0 : payload s k 10 1 = 0)
include h0

theorem stageTaken_begins (hw : s.withdrawal = none ∨ (s.product (payload s k 8 1)).kind = .none) :
    stageProduct k (takeSlot k s) =
      beginWithdrawal ⟨k, payload s k 8 1, (payload s k 9 1).testBit 0⟩ (takeSlot k s) := by
  rw [stageProduct_begins (by rwa [payload_takeSlot_index h]) (by rwa [payload_takeSlot_kind h])
    (by rwa [payload_takeSlot_index h, product_takeSlot k h]), payload_takeSlot_index h, payload_takeSlot_flags h]

theorem stageTaken_waits (hk : (s.product (payload s k 8 1)).kind ≠ .none) (hw : s.withdrawal ≠ none) :
    stageProduct k (takeSlot k s) = { takeSlot k s with
      withdrawalsWaiting := s.withdrawalsWaiting ++ [⟨k, payload s k 8 1, (payload s k 9 1).testBit 0⟩] } := by
  rw [stageProduct_waits (s := takeSlot k s) (by rwa [payload_takeSlot_index h]) (by rwa [payload_takeSlot_kind h])
    (by rwa [payload_takeSlot_index h, product_takeSlot k h]) hw, payload_takeSlot_index h, payload_takeSlot_flags h]
  rfl

theorem stageTaken_withdrawal_refused (hw : s.withdrawal = none ∨ (s.product (payload s k 8 1)).kind = .none)
    {r : Result} (hr : placeProblem s (payload s k 8 1) ((payload s k 9 1).testBit 0) = some r) :
    stageProduct k (takeSlot k s) = endOrder k r (takeSlot k s) := by
  rw [stageTaken_begins h hi h0 hw]
  exact beginWithdrawal_refused (o := ⟨k, _, _⟩) ((placeProblem_takeSlot k h _ _).trans hr)

theorem stageTaken_withdrawal_placed (hk : (s.product (payload s k 8 1)).kind = .none)
    (hr : placeProblem s (payload s k 8 1) ((payload s k 9 1).testBit 0) = none) :
    stageProduct k (takeSlot k s) = endOrder k .ok
      (placeProduct (payload s k 8 1) .withdrawn ((payload s k 9 1).testBit 0) (takeSlot k s)) := by
  rw [stageTaken_begins h hi h0 (.inr hk)]
  exact beginWithdrawal_places (o := ⟨k, _, _⟩) ((placeProblem_takeSlot k h _ _).trans hr)
    (by rwa [product_takeSlot k h])

theorem stageTaken_withdrawal_starts (hw : s.withdrawal = none) (hk : (s.product (payload s k 8 1)).kind ≠ .none)
    (hr : placeProblem s (payload s k 8 1) ((payload s k 9 1).testBit 0) = none) :
    stageProduct k (takeSlot k s) = { takeSlot k s with
      withdrawal := some ⟨⟨k, payload s k 8 1, (payload s k 9 1).testBit 0⟩, 0, false, false, s.now⟩ } := by
  rw [stageTaken_begins h hi h0 (.inl hw)]
  exact beginWithdrawal_starts (o := ⟨k, _, _⟩) ((placeProblem_takeSlot k h _ _).trans hr)
    (by rwa [product_takeSlot k h])

end

/-! ### An order that stays TAKEN -/

/-- An order whose body leaves its slot TAKEN, and what is shown as it was, writes its state word alone. -/
theorem carries_staysTaken {k : Fin 32} {code : Nat} {body : State → State} {s u : State} (h : s.mem.wf)
    (hc : carries s k code) (hb : body (takeSlot k s) = u) (hm : u.mem = (takeSlot k s).mem)
    (hq : settleOutputs s u = u) :
    visit k (kindIs k code) body s = .next u ∧ orderState u k = 2 ∧ keepsBytes s u (inField (orderBase k.val) 2) := by
  refine ⟨by rw [carries_runs hc, hb, hq], ?_, fun a ha => ?_⟩
  · rw [orderState, State.peek, hm]
    exact orderState_takeSlot k h
  · rw [hm]
    exact byteAt_takeSlot k h ha

/-! ### The obligation -/

/-- Settles O33: each refusal is the first problem the body meets, and a withdrawal is judged or waits. -/
theorem stageProductRefusesOrScans : Obligations.StageProductRefusesOrScans := by
  intro s k hok hc f index new old staged refused bounds open30 rises lowered full
  have refuse : ∀ r, stageProduct k (takeSlot k s) = endOrder k r (takeSlot k s) → refused r :=
    fun r hb => carries_refused hok.1 hc hb
  have notQuiet : (payload s k 9 1).testBit 0 = true → s.station ≠ .quiet →
      placeProblem s (payload s k 8 1) ((payload s k 9 1).testBit 0) = some .notQuiet := fun himm hq => by
    rw [himm]
    exact placeProblem_notQuiet hq
  have stageIsFull : full → placeProblem s (payload s k 8 1) ((payload s k 9 1).testBit 0) = some .stageFull := by
    rintro ⟨himm, hfull⟩
    rw [show (payload s k 9 1).testBit 0 = false from himm]
    exact placeProblem_stageFull ((stageFull_iff _ _).2 hfull)
  refine ⟨fun hb => refuse _ (stageTaken_badField hok.1 hb), fun hi h1 h3 => ?_, fun hi h0 hk => ?_, fun hi h0 hw => ?_,
    fun hi h0 hk hw => ?_⟩
  · have unsound : ∀ r, definitionProblem old new = some r → refused r :=
      fun r hp => refuse r (stageTaken_unsound hok.1 hi h1 h3 hp)
    refine ⟨fun hb => unsound _ (definitionProblem_badField hb),
      fun hb ho => unsound _ (definitionProblem_windowShape hb ho),
      fun hb ho hr => unsound _ (definitionProblem_ladderOrder hb ho hr), fun hb ho hr =>
      ⟨fun hk hn => unsound _ (definitionProblem_kindChange hb ho hr hk hn),
        fun hn hl => unsound _ (definitionProblem_daysLowered hb ho hr hn hl), fun hkept => ?_⟩⟩
    have sound : definitionProblem old new = none := definitionProblem_none hb ho hr hkept
    exact ⟨fun himm hq => refuse _ (stageTaken_noPlace hok.1 hi h1 h3 sound (notQuiet himm hq)),
      fun hfull => refuse _ (stageTaken_noPlace hok.1 hi h1 h3 sound (stageIsFull hfull))⟩
  · refine ⟨fun (himm : (payload s k 9 1).testBit 0 = true) hq => carries_placeNow hok.1 hc withdrawn_fits hi ?_,
      fun (himm : (payload s k 9 1).testBit 0 = false) hroom => carries_stageRecord hok.1 hc withdrawn_fits hi hroom ?_⟩
    · rw [stageTaken_withdrawal_placed hok.1 hi h0 hk (placeProblem_none (fun _ => hq) fun hf => by simp [himm] at hf),
        himm]
      rfl
    · rw [stageTaken_withdrawal_placed hok.1 hi h0 hk
        (placeProblem_none (fun hf => by simp [himm] at hf) fun _ => hroom), himm]
      rfl
  · refine ⟨fun himm hq => refuse _ (stageTaken_withdrawal_refused hok.1 hi h0 hw (notQuiet himm hq)),
      fun hfull => refuse _ (stageTaken_withdrawal_refused hok.1 hi h0 hw (stageIsFull hfull)), fun hk hq hroom => ?_⟩
    have idle : s.withdrawal = none := hw.resolve_right hk
    obtain ⟨hstep, htaken, hbytes⟩ := carries_staysTaken hok.1 hc
      (stageTaken_withdrawal_starts hok.1 hi h0 idle hk (placeProblem_none hq fun himm => (hroom himm).symm)) rfl
      (settleOutputs_quiet rfl rfl rfl rfl)
    exact ⟨_, hstep, htaken, rfl, hbytes⟩
  · obtain ⟨hstep, htaken, hbytes⟩ := carries_staysTaken hok.1 hc (stageTaken_waits hok.1 hi h0 hk hw) rfl
      (settleOutputs_quiet rfl rfl rfl rfl)
    exact ⟨_, hstep, htaken, rfl, hbytes⟩

end Sys2Proof.Machine
end

section
/-! PROOFS. WITHDRAWAL_SCAN (R22, R23): the visit case by case, the end of the order, and the waiting withdrawals. -/

namespace Sys2Proof.Machine

/-! ### Waiting orders in the order of their slots -/

section
variable {α : Type} {slot : α → Nat}

theorem mem_insertBySlot (x y : α) (l : List α) : y ∈ insertBySlot slot x l ↔ y = x ∨ y ∈ l := by
  induction l with
  | nil => simp [insertBySlot]
  | cons z l ih =>
    rw [insertBySlot]
    split
    · rw [List.mem_cons]
    · rw [List.mem_cons, ih, List.mem_cons]
      tauto

theorem mem_sortBySlot (y : α) (l : List α) : y ∈ sortBySlot slot l ↔ y ∈ l := by
  induction l with
  | nil => rfl
  | cons x l ih => rw [sortBySlot, List.foldr_cons, mem_insertBySlot, List.mem_cons, ← ih]; rfl

/-- An order of a lower slot than all others goes before them. -/
theorem insertBySlot_least {x : α} {l : List α} (h : ∀ y ∈ l, slot x < slot y) : insertBySlot slot x l = x :: l := by
  cases l with
  | nil => rfl
  | cons z l => exact if_pos (h z (by simp)).le

theorem insertBySlot_after {x y : α} (l : List α) (h : slot x < slot y) :
    insertBySlot slot y (x :: l) = x :: insertBySlot slot y l := if_neg (by omega)

/-- The order of the lowest slot comes first, the others behind it. -/
theorem sortBySlot_least {o : α} {l : List α} (hn : l.Nodup) (ho : o ∈ l) (h : ∀ x ∈ l, x ≠ o → slot o < slot x) :
    ∃ r, sortBySlot slot l = o :: r ∧ ∀ x, x ∈ r ↔ x ∈ l ∧ x ≠ o := by
  induction l with
  | nil => exact absurd ho (by simp)
  | cons y l ih =>
    obtain ⟨hy, hn⟩ := List.nodup_cons.1 hn
    have step : sortBySlot slot (y :: l) = insertBySlot slot y (sortBySlot slot l) := rfl
    by_cases hyo : y = o
    · subst hyo
      have others : ∀ x ∈ l, x ≠ y := fun x hx hxy => hy (hxy ▸ hx)
      refine ⟨sortBySlot slot l, step.trans (insertBySlot_least fun x hx => ?_), fun x => ?_⟩
      · rw [mem_sortBySlot] at hx
        exact h x (List.mem_cons_of_mem _ hx) (others x hx)
      · rw [mem_sortBySlot, List.mem_cons]
        exact ⟨fun hx => ⟨.inr hx, others x hx⟩, fun ⟨hx, hne⟩ => hx.resolve_left hne⟩
    · obtain ⟨r, hr, hmem⟩ := ih hn ((List.mem_cons.1 ho).resolve_left (Ne.symm hyo))
        fun x hx => h x (List.mem_cons_of_mem _ hx)
      refine ⟨insertBySlot slot y r, ?_, fun x => ?_⟩
      · rw [step, hr, insertBySlot_after r (h y (by simp) hyo)]
      · rw [mem_insertBySlot, hmem, List.mem_cons]
        constructor
        · rintro (rfl | ⟨hx, hne⟩)
          · exact ⟨.inl rfl, hyo⟩
          · exact ⟨.inr hx, hne⟩
        · rintro ⟨rfl | hx, hne⟩
          · exact .inl rfl
          · exact .inr ⟨hx, hne⟩

end

/-! ### The waiting withdrawals (R22) -/

theorem nextWithdrawals_none {s : State} (h : s.withdrawalsWaiting = []) : nextWithdrawals s = s := by
  rw [nextWithdrawals, h]
  show ({ s with withdrawalsWaiting := [] } : State) = s
  rw [← h]

/-- The first waiting withdrawal starts its scan, and the others wait on. -/
theorem nextWithdrawals_starts {s : State} {o : WithdrawalOrder} {r : List WithdrawalOrder}
    (h : sortBySlot (fun o => o.slot.val) s.withdrawalsWaiting = o :: r)
    (hp : placeProblem s o.index o.immediate = none) (hk : (s.product o.index).kind ≠ .none) :
    nextWithdrawals s =
      { s with withdrawal := some ⟨o, 0, false, false, s.now⟩, withdrawalsWaiting := r } := by
  rw [nextWithdrawals, h, startWithdrawals, beginWithdrawal_starts hp hk]
  rfl

/-! ### The visit, case by case (R23) -/

/-- The scan slot freed. -/
def stopScan (s : State) : State := { s with withdrawal := none }

theorem stopScan_with_mem (s : State) (m : Memory) :
    ({ stopScan s with mem := m } : State) = { s with mem := m, withdrawal := none } := rfl

section
variable {s : State} {w : WithdrawalScan}

theorem withdrawalScan_runs (hw : s.withdrawal = some w) (hd : w.start + w.position / 512 + 1 ≤ s.now) :
    exec .withdrawalScan s = .next (settleOutputs s (scanStep w s)) := by
  show execWithdrawalScan s = _
  unfold execWithdrawalScan
  rw [hw]
  exact (if_pos (decide_eq_true hd)).trans (event_eq _ _)

theorem visitFindsReference_iff :
    visitFindsReference s.mem w.position w.order.index = true ↔
      slotStateOf s.mem w.position = 1 ∧ (s.pass w.position).product = w.order.index := by
  simp [visitFindsReference, State.pass]

theorem scanStep_finds (hf : slotStateOf s.mem w.position = 1 ∧ (s.pass w.position).product = w.order.index) :
    scanStep w s = nextWithdrawals (endOrder w.order.slot .inUse (stopScan s)) :=
  if_pos (visitFindsReference_iff.2 hf)

variable (hf : ¬(slotStateOf s.mem w.position = 1 ∧ (s.pass w.position).product = w.order.index))
include hf

theorem scanStep_goesOn (hp : w.position < 6143) :
    scanStep w s = { s with withdrawal := some { w with position := w.position + 1 } } :=
  (if_neg fun h => hf (visitFindsReference_iff.1 h)).trans (if_pos (by unfold passSlots; omega))

variable (hp : w.position = 6143)
include hp

theorem scanStep_last :
    scanStep w s =
      if w.late then
        if w.finalPass then nextWithdrawals (endOrder w.order.slot .inUse (stopScan s))
        else { s with withdrawal := some ⟨w.order, 0, true, false, s.now⟩ }
      else nextWithdrawals (endScanClean w.order (stopScan s)) :=
  (if_neg fun h => hf (visitFindsReference_iff.1 h)).trans (if_neg (by unfold passSlots; omega))

theorem scanStep_lateAgain (hl : w.late = true) (hn : w.finalPass = true) :
    scanStep w s = nextWithdrawals (endOrder w.order.slot .inUse (stopScan s)) := by
  rw [scanStep_last hf hp, if_pos hl, if_pos hn]

theorem scanStep_finalPass (hl : w.late = true) (hn : w.finalPass = false) :
    scanStep w s = { s with withdrawal := some ⟨w.order, 0, true, false, s.now⟩ } := by
  rw [scanStep_last hf hp, if_pos hl, if_neg (by rw [hn]; decide)]

theorem scanStep_clean (hl : w.late = false) :
    scanStep w s = nextWithdrawals (endScanClean w.order (stopScan s)) := by
  rw [scanStep_last hf hp, if_neg (by rw [hl]; decide)]

end

theorem endScanClean_full {o : WithdrawalOrder} {s : State} (hi : o.immediate = false)
    (hf : stageFull s.mem o.index = true) : endScanClean o s = endOrder o.slot .stageFull s := by
  simp [endScanClean, hi, hf]

theorem endScanClean_places {o : WithdrawalOrder} {s : State}
    (hp : o.immediate = false → stageHasPlace s.mem o.index) :
    endScanClean o s = endOrder o.slot .ok (placeProduct o.index .withdrawn o.immediate s) := by
  cases hi : o.immediate with
  | true => simp [endScanClean, hi]
  | false => simp [endScanClean, hi, stageFull_false (hp hi)]

/-! ### The end of the scanned order -/

/-- What the end of the scanned order leaves, from a state whose memory alone was written since the scan stopped. -/
theorem scan_ends {k : Fin 32} (r : Result) {s v : State} (hv : v = { s with mem := v.mem, withdrawal := none })
    (hw : v.mem.wf) (ht : orderState v k = 2) :
    orderState (endOrder k r v) k = r.slotState ∧ (endOrder k r v).peek (orderBase k.val + 3) 1 = r.code
      ∧ endOrder k r v =
        { s with mem := (endOrder k r v).mem, attn := s.attn ||| 1#8, withdrawal := none } := by
  obtain ⟨hstate, hcode, -, -⟩ := endOrder_shows k r hw ht
  refine ⟨hstate, hcode, ?_⟩
  generalize v.mem = m at hv
  subst hv
  rw [endOrder_taken k r hw ht]

/-- An ended scan with no other waiting: the event leaves the end of the order. -/
theorem withdrawalScan_ends {k : Fin 32} {r : Result} {s v : State} {w : WithdrawalScan}
    (hsw : s.withdrawal = some w) (hd : w.start + w.position / 512 + 1 ≤ s.now)
    (hs : scanStep w s = nextWithdrawals (endOrder k r v)) (hwait : s.withdrawalsWaiting = [])
    (hv : v = { s with mem := v.mem, withdrawal := none }) (hw : v.mem.wf) (ht : orderState v k = 2) :
    ∃ t, exec .withdrawalScan s = .next t ∧ orderState t k = r.slotState ∧ t.peek (orderBase k.val + 3) 1 = r.code
      ∧ t = { s with mem := t.mem, attn := s.attn ||| 1#8, withdrawal := none }
      ∧ ∀ x, ¬inOrderEnd k x → t.mem.byteAt x = v.mem.byteAt x := by
  obtain ⟨hstate, hcode, heq⟩ := scan_ends r hv hw ht
  have hrun := withdrawalScan_runs hsw hd
  have hbytes := fun x => byteAt_endOrder k r hw (x := x)
  rw [hs] at hrun
  generalize endOrder k r v = t at *
  have hnext : nextWithdrawals t = t := nextWithdrawals_none (by rw [heq]; exact hwait)
  have hquiet : settleOutputs s t = t := by
    rw [heq]
    exact settleOutputs_quiet rfl rfl rfl rfl
  rw [hnext, hquiet] at hrun
  exact ⟨t, hrun, hstate, hcode, heq, hbytes⟩

theorem placeNow_stopped (index : Nat) (p : Product) (s : State) :
    placeNow index p (stopScan s) = { s with mem := (placeNow index p (stopScan s)).mem, withdrawal := none } :=
  (placeNow_eq index p _).trans (stopScan_with_mem s _)

theorem stageRecord_stopped (index : Nat) (p : Product) (s : State) :
    stageRecord index p (stopScan s) = { s with mem := (stageRecord index p (stopScan s)).mem, withdrawal := none } :=
  (stageRecord_eq index p _).trans (stopScan_with_mem s _)

/-- Where a record may be placed depends on the station and the Staging Area alone. -/
theorem placeProblem_congr {s t : State} (hq : t.station = s.station) (hr : readStaging t.mem = readStaging s.mem)
    (index : Nat) (immediate : Bool) : placeProblem t index immediate = placeProblem s index immediate := by
  rw [placeProblem, placeProblem, stageFull, stageFull, hq, hr]

/-- An order slot reads as before where the bytes below the tables do. -/
theorem orderState_of_low {s t : State} (k : Fin 32) (h : ∀ x < 0x1100, t.mem.byteAt x = s.mem.byteAt x) :
    orderState t k = orderState s k :=
  Memory.read_congr fun x _ hx => h x (by unfold orderBase at hx; omega)

/-! ### The obligation -/

section
variable {s : State} {w : WithdrawalScan} (h : s.mem.wf) (hsw : s.withdrawal = some w)
  (hd : w.start + w.position / 512 + 1 ≤ s.now) (ht : orderState s w.order.slot = 2)
include h hsw hd ht

/-- A clean end of an IMMEDIATE withdrawal: the record in force is NONE, and none is staged for its index. -/
theorem withdrawalScan_placesNow (hi : w.order.index ≤ 63) (hwait : s.withdrawalsWaiting = [])
    (himm : w.order.immediate = true)
    (hs : scanStep w s = nextWithdrawals (endScanClean w.order (stopScan s))) :
    ∃ t, exec .withdrawalScan s = .next t ∧ orderState t w.order.slot = 3
      ∧ t.peek (orderBase w.order.slot.val + 3) 1 = 0
      ∧ t = { s with mem := t.mem, attn := s.attn ||| 1#8, withdrawal := none }
      ∧ t.product w.order.index = .withdrawn
      ∧ readStaging t.mem = (readStaging s.mem).filter (fun x => x.1 ≠ w.order.index)
      ∧ keepsBytes s t (fun a => inOrderEnd w.order.slot a ∨ inField (productBase w.order.index) 128 a
          ∨ inField (stagingBase 0) 1024 a) := by
  rw [endScanClean_places (s := stopScan s) fun hf => by simp [himm] at hf, himm] at hs
  obtain ⟨hw, hprod, hstaged, hkept⟩ :=
    placeNow_spec (s := stopScan s) hi withdrawn_fits h
  obtain ⟨t, hrun, hstate, hcode, heq, hbytes⟩ := withdrawalScan_ends hsw hd hs hwait
    (placeNow_stopped w.order.index .withdrawn s) hw
    ((orderState_of_low _ fun x hx => hkept x (by unfold inField productBase; omega)
      (by unfold inField stagingBase; omega)).trans ht)
  refine ⟨t, hrun, hstate, hcode, heq, (product_of_outside_orderEnd hbytes _).trans hprod,
    (readStaging_of_outside_orderEnd hbytes).trans hstaged, fun a ha => ?_⟩
  simp only [not_or] at ha
  obtain ⟨hend, hproduct, hstage⟩ := ha
  exact (hbytes a hend).trans (hkept a hproduct hstage)

/-- A clean end of any other withdrawal: NONE is staged for its index, and no record in force is touched. -/
theorem withdrawalScan_stages (hi : w.order.index ≤ 63) (hwait : s.withdrawalsWaiting = [])
    (himm : w.order.immediate = false) (hp : stageHasPlace s.mem w.order.index)
    (hs : scanStep w s = nextWithdrawals (endScanClean w.order (stopScan s))) :
    ∃ t, exec .withdrawalScan s = .next t ∧ orderState t w.order.slot = 3
      ∧ t.peek (orderBase w.order.slot.val + 3) 1 = 0
      ∧ t = { s with mem := t.mem, attn := s.attn ||| 1#8, withdrawal := none }
      ∧ (∃ x ∈ readStaging t.mem, x.1 = w.order.index ∧ x.2 = .withdrawn)
      ∧ (∀ i ≤ 63, t.product i = s.product i)
      ∧ keepsBytes s t (fun a => inOrderEnd w.order.slot a ∨ inField (stagingBase 0) 1024 a) := by
  rw [endScanClean_places (s := stopScan s) fun _ => hp, himm] at hs
  have hkept := fun x => product_stageRecord w.order.index .withdrawn (s := stopScan s) h hp (x := x)
  have hstaged := readStaging_stageRecord (s := stopScan s) (index := w.order.index) (by omega)
    withdrawn_fits h hp
  obtain ⟨t, hrun, hstate, hcode, heq, hbytes⟩ := withdrawalScan_ends hsw hd hs hwait
    (stageRecord_stopped w.order.index .withdrawn s) (stageRecord_wf _ _ h)
    ((orderState_of_low _ fun x hx => hkept x (by unfold inField stagingBase; omega)).trans ht)
  refine ⟨t, hrun, hstate, hcode, heq, ⟨(w.order.index, .withdrawn), ?_, rfl, rfl⟩, fun i hi => ?_, fun a ha => ?_⟩
  · rw [readStaging_of_outside_orderEnd hbytes]
    refine hstaged ▸ ?_
    split
    · next hx =>
      obtain ⟨x, hx, he⟩ := hx
      exact List.mem_map.2 ⟨x, hx, if_pos he⟩
    · simp
  · rw [product_of_outside_orderEnd hbytes]
    exact readProduct_congr fun x hx => hkept x (by unfold inField productBase stagingBase at *; omega)
  · rw [not_or] at ha
    exact (hbytes a ha.1).trans (hkept a ha.2)

/-- In the event that fails the scanned order the first waiting withdrawal starts its scan (R22). -/
theorem withdrawalScan_startsNext {o : WithdrawalOrder} {r : List WithdrawalOrder}
    (hf : slotStateOf s.mem w.position = 1 ∧ (s.pass w.position).product = w.order.index)
    (hr : sortBySlot (fun o => o.slot.val) s.withdrawalsWaiting = o :: r)
    (hp : placeProblem s o.index o.immediate = none) (hk : (s.product o.index).kind ≠ .none) :
    ∃ t, exec .withdrawalScan s = .next t ∧ orderState t w.order.slot = 4
      ∧ t.peek (orderBase w.order.slot.val + 3) 1 = 3
      ∧ t = { s with
                mem := t.mem, attn := s.attn ||| 1#8, withdrawal := some ⟨o, 0, false, false, s.now⟩
                withdrawalsWaiting := r }
      ∧ keepsBytes s t (inOrderEnd w.order.slot) := by
  obtain ⟨hstate, hcode, heq⟩ := scan_ends (k := w.order.slot) (s := s) (v := stopScan s) .inUse rfl h ht
  have hbytes := fun x => byteAt_endOrder w.order.slot .inUse (s := stopScan s) h (x := x)
  have hrun := withdrawalScan_runs hsw hd
  rw [scanStep_finds hf] at hrun
  generalize endOrder w.order.slot .inUse (stopScan s) = u at *
  have hprod : u.product o.index = s.product o.index := product_of_outside_orderEnd hbytes _
  have hplace : placeProblem u o.index o.immediate = none := by
    rw [← hp]
    exact placeProblem_congr (s := s) (by rw [heq]) (readStaging_of_outside_orderEnd hbytes) _ _
  have hsort : sortBySlot (fun o => o.slot.val) u.withdrawalsWaiting = o :: r := by rw [heq]; exact hr
  rw [nextWithdrawals_starts hsort hplace (by rwa [hprod])] at hrun
  rw [settleOutputs_quiet (by rw [heq]) (by rw [heq]) (by rw [heq]) (by rw [heq]; rfl)] at hrun
  refine ⟨_, hrun, hstate, hcode, ?_, hbytes⟩
  rw [heq]

end

/-- Settles O34: each clause is a case of the visit, and the order of the lowest slot is the first to start. -/
theorem withdrawalScanSteps : Obligations.WithdrawalScanSteps := by
  intro s w hok hsw hi hd ht hpos found k
  refine ⟨fun hf hwait => ?_, fun hf hp => ?_, fun hf hp hl hn => ?_, fun hf hp hl hwait hroom => ?_,
    fun hf hp hl hwait himm hlen hne => ?_, fun o ho hf hoi hok' hslot hq hroom hnodup hleast => ?_⟩
  · have hs : scanStep w s = nextWithdrawals (endOrder w.order.slot .inUse (stopScan s)) := by
      rcases hf with hf | ⟨hf, hp, hl, hn⟩
      · exact scanStep_finds hf
      · exact scanStep_lateAgain hf hp hl hn
    exact withdrawalScan_ends hsw hd hs hwait rfl hok.1 ht
  · rw [withdrawalScan_runs hsw hd, scanStep_goesOn hf hp]
    exact congrArg _ (settleOutputs_quiet rfl rfl rfl rfl)
  · rw [withdrawalScan_runs hsw hd, scanStep_finalPass hf hp hl hn]
    exact congrArg _ (settleOutputs_quiet rfl rfl rfl rfl)
  · have hs := scanStep_clean hf hp hl
    cases himm : w.order.immediate with
    | true =>
      obtain ⟨t, hrun, hstate, hcode, heq, hprod, hstaged, hbytes⟩ :=
        withdrawalScan_placesNow hok.1 hsw hd ht hi hwait himm hs
      exact ⟨t, hrun, hstate, hcode, heq, fun _ => ⟨by rw [hprod]; rfl, hstaged⟩, fun hf => by simp at hf, hbytes⟩
    | false =>
      obtain ⟨t, hrun, hstate, hcode, heq, hstaged, hprod, hbytes⟩ :=
        withdrawalScan_stages hok.1 hsw hd ht hi hwait himm (hroom himm).symm hs
      refine ⟨t, hrun, hstate, hcode, heq, fun hf => by simp at hf, fun _ => ⟨hstaged, hprod⟩, fun a ha => hbytes a ?_⟩
      exact fun hs => ha (hs.imp_right .inr)
  · have hs := scanStep_clean hf hp hl
    rw [endScanClean_full (s := stopScan s) himm ((stageFull_iff _ _).2 ⟨hlen, hne⟩)] at hs
    exact withdrawalScan_ends hsw hd hs hwait rfl hok.1 ht
  · obtain ⟨r, hr, hmem⟩ := sortBySlot_least (slot := fun o : WithdrawalOrder => o.slot.val) (.of_map _ hnodup) ho hleast
    obtain ⟨t, hrun, hstate, hcode, heq, hbytes⟩ := withdrawalScan_startsNext hok.1 hsw hd ht hf hr
      (placeProblem_none hq fun himm => (hroom himm).symm) hok'
    have hwaiting : t.withdrawalsWaiting = r := by rw [heq]
    refine ⟨t, hrun, hstate, hcode, ?_, fun x => ?_, hbytes⟩
    · rw [hwaiting]
      exact heq
    · rw [hwaiting]
      exact hmem x

end Sys2Proof.Machine
end

section
/-! PROOFS. What a grant and a denied referral leave (R67, R68, R70, R79), and the checks of an entry (R61 to R64). -/

namespace Sys2Proof.Machine

/-! ### The checks (R61 to R64) -/

theorem firstFailure_cons (b : Bool) (r : DenyReason) (l : List (Bool × DenyReason)) :
    firstFailure ((b, r) :: l) = if b then firstFailure l else some r := by
  cases b <;> rfl

/-- A check that denies, and the same check in the list. -/
theorem check_step {c : Prop} [Decidable c] {b : Bool} {r : DenyReason} {x y : Option DenyReason} (h : c ↔ b = false)
    (hxy : x = y) : (if c then some r else x) = if b then y else some r := by
  subst hxy
  cases b with
  | true => exact if_neg fun hc => absurd (h.1 hc) (by decide)
  | false => exact if_pos (h.2 rfl)

/-- Check 11 as the two checks of the list. -/
theorem validity_step (e : PassEntry) (p : Product) (today : Nat) (x : Option DenyReason) :
    (if (validityDenial e p today).isSome then validityDenial e p today else x) =
      if (match e.firstDay with | some f => decide (f ≤ today) | none => true) then
        if (match e.firstDay with
            | some f => decide (today < f + p.span)
            | none => decide (today < e.issueDay + p.activation)) then x
        else some .expired
      else some .notYet := by
  unfold validityDenial
  cases e.firstDay with
  | none => by_cases ha : e.issueDay + p.activation ≤ today <;> simp [ha]
  | some f =>
    by_cases hf : today < f
    · simp [hf, Nat.not_le.2 hf]
    · by_cases hs : f + p.span ≤ today <;> simp [hf, hs, Nat.not_lt.1 hf]

/-- The admission engine's checks are those of the list, in the same order. -/
theorem entryDenial_eq (s : State) (e : PassEntry) (p : Product) (stamp : Nat) :
    entryDenial e p stamp s.liftNumber s.day s.minute = firstFailure (entryChecks s e p stamp) := by
  unfold entryDenial entryChecks
  simp only [firstFailure_cons, validity_step, State.minute]
  refine check_step (by simp) (check_step (by simp) (check_step (by simp) (check_step (by simp) (check_step ?_
    (check_step (by simp) ?_)))))
  · cases e.marker <;> simp
  congr 2
  refine check_step (by simp) (check_step ?_ (check_step ?_ rfl))
  · unfold inPassback
    cases e.lastDay <;> cases e.lastMinute <;> simp
  · simp [PassEntry.daysUsed, and_assoc]

theorem check_passes {b : Bool} {r : DenyReason} {x : Option DenyReason} (h : (if b then x else some r) = none) :
    b = true ∧ x = none := by
  cases b with
  | true => exact ⟨rfl, h⟩
  | false => exact absurd h (by simp)

/-- With every other check passed, a marker denies IN_USE. -/
theorem firstFailure_held {s : State} {e : PassEntry} {p : Product} {stamp : Nat}
    (h : firstFailure (entryChecks s e p stamp) = none) (v : Nat) :
    firstFailure (entryChecks s { e with marker := some v } p stamp) = some .inUse := by
  simp only [entryChecks, firstFailure_cons] at h ⊢
  obtain ⟨hstamp, h⟩ := check_passes h
  obtain ⟨hblocked, h⟩ := check_passes h
  obtain ⟨hretired, h⟩ := check_passes h
  obtain ⟨hexhausted, -⟩ := check_passes h
  exact (if_pos hstamp).trans ((if_pos hblocked).trans ((if_pos hretired).trans ((if_pos hexhausted).trans
    (if_neg (by simp)))))

/-! ### A grant (R67, R68, R70) -/

section
variable (n port : Fin 4) (uid : List Byte) (slot : Nat) (s : State)

/-- The lane GRANTED, the marker set and a pledge taken, before the cue and the SHOW. -/
def grantEntered : State :=
  takePledge (setMarker slot (some n) (s.modLane n (·.enter (.granted (newGrant s n uid slot)))))

theorem grantPass_eq :
    grantPass n port uid slot s =
      sendShow port .grant (grantValue (s.pass slot) (s.product (s.pass slot).product) s.day)
        (handOutcome n .grant (grantEntered n uid slot s)) := rfl

theorem grantEntered_lanes :
    (grantEntered n uid slot s).lanes = (s.modLane n (·.enter (.granted (newGrant s n uid slot)))).lanes := rfl

theorem grantEntered_lane :
    (grantEntered n uid slot s).lane n = (s.lane n).enter (.granted (newGrant s n uid slot)) := by
  rw [lane_of_lanes (grantEntered_lanes ..), lane_modLane_same]

theorem grantEntered_mem : (grantEntered n uid slot s).mem = (setMarker slot (some n) s).mem := rfl

theorem grantEntered_ports : (grantEntered n uid slot s).ports = s.ports := rfl

theorem grantEntered_journal :
    (grantEntered n uid slot s).journal = { s.journal with pledges := s.journal.pledges + 1 } := rfl

theorem grantEntered_now : (grantEntered n uid slot s).now = s.now := rfl

theorem grantPass_mem : (grantPass n port uid slot s).mem = (setMarker slot (some n) s).mem := by
  rw [grantPass_eq, sendShow_mem, handOutcome_mem, grantEntered_mem]

theorem grantPass_journal :
    (grantPass n port uid slot s).journal = { s.journal with pledges := s.journal.pledges + 1 } := by
  rw [grantPass_eq, sendShow_journal, handOutcome_journal, grantEntered_journal]

theorem grantPass_lane_other {m : Fin 4} (h : m ≠ n) : (grantPass n port uid slot s).lane m = s.lane m := by
  rw [grantPass_eq, sendShow_lane, handOutcome_lane_other _ _ h, lane_of_lanes (grantEntered_lanes ..),
    lane_modLane_other s _ h]

theorem grantPass_port_other {p : Fin 4} (h : p ≠ port) : (grantPass n port uid slot s).port p = s.port p := by
  rw [grantPass_eq, sendShow_port_other _ _ _ h]
  exact port_of_ports ((handOutcome_ports ..).trans (grantEntered_ports ..)) p

theorem grantPass_show :
    showAsked s (grantPass n port uid slot s) port
      ⟨.grant, grantValue (s.pass slot) (s.product (s.pass slot).product) s.day⟩ := by
  have hshow := sendShow_spec port .grant (grantValue (s.pass slot) (s.product (s.pass slot).product) s.day)
    (handOutcome n .grant (grantEntered n uid slot s))
  rw [showAsked, port_of_ports ((handOutcome_ports ..).trans (grantEntered_ports ..)), ← grantPass_eq] at hshow
  exact hshow

/-- A granted lane. -/
theorem grantPass_lane :
    ((grantPass n port uid slot s).lane n).state = .granted (newGrant s n uid slot)
      ∧ ((grantPass n port uid slot s).lane n).setup = (s.lane n).setup
      ∧ ((grantPass n port uid slot s).lane n).window = (s.lane n).window := by
  rw [grantPass_eq, sendShow_lane, handOutcome_lane, grantEntered_lane, enter_lane]
  exact ⟨rfl, rfl, rfl⟩

theorem grantPass_cue {s : State} (h : s.mem.wf) (hd : (s.lane n).state.isDown = false) :
    cueHanded s (grantPass n port uid slot s) n .grant := by
  have hlane := grantEntered_lane n uid slot s
  rw [enter_lane] at hlane
  rw [cueHanded, grantPass_eq, sendShow_lane]
  exact handOutcome_congr n .grant (by rw [hlane]) (by rw [hlane, hd]; rfl) (by rw [hlane]) (by rw [hlane])
    (grantEntered_now ..) fun x hx => byteAt_setMarker slot _ h (by unfold inCueTable inField at hx; unfold passBase; omega)

end

/-! ### A denied referral (R79) -/

section
variable (n : Fin 4) (r : Referral) (slot : Option Nat) (reason : DenyReason) (ending : ReferralEnd) (s : State)

/-- The DENY record of a referral. -/
def denyRecord : Record := mkRecord s (some n) r.uid slot (.deny reason ending)

theorem denyCore_eq :
    denyCore n r.port r.uid slot reason ending s =
      count n .denied (sendShow r.port (.deny reason) 0 (appendUnpledged (denyRecord n r slot reason ending s) s)) := rfl

theorem denyCore_lane :
    (denyCore n r.port r.uid slot reason ending s).lane n =
      { s.lane n with window := (s.lane n).window.map fun w => { w with counts := w.counts.add .denied } } := by
  rw [denyCore_eq, count_lane, sendShow_lane, lane_of_lanes (appendUnpledged_lanes ..)]

theorem denyCore_mem :
    (denyCore n r.port r.uid slot reason ending s).mem =
      (appendUnpledged (denyRecord n r slot reason ending s) s).mem := by
  rw [denyCore_eq, count_mem, sendShow_mem]

theorem denyReferral_mem :
    (denyReferralToReady n r slot reason ending s).mem =
      (appendUnpledged (denyRecord n r slot reason ending s) s).mem := by
  rw [denyReferralToReady, enterReadyWith_mem, denyCore_mem]

theorem denyReferral_attn :
    (denyReferralToReady n r slot reason ending s).attn =
      (appendUnpledged (denyRecord n r slot reason ending s) s).attn := by
  rw [denyReferralToReady, enterReadyWith_attn, denyCore_eq, count_attn, sendShow_attn]

theorem denyReferral_journal :
    (denyReferralToReady n r slot reason ending s).journal =
      (appendUnpledged (denyRecord n r slot reason ending s) s).journal := by
  rw [denyReferralToReady, enterReadyWith_journal, denyCore_eq, count_journal, sendShow_journal]

theorem denyReferral_lane_other {m : Fin 4} (h : m ≠ n) :
    (denyReferralToReady n r slot reason ending s).lane m = s.lane m := by
  rw [denyReferralToReady, enterReadyWith_lane_other _ _ h, denyCore_eq, count_lane_other _ _ h, sendShow_lane,
    lane_of_lanes (appendUnpledged_lanes ..)]

theorem denyReferral_ports :
    (denyReferralToReady n r slot reason ending s).ports =
      (sendShow r.port (.deny reason) 0 (appendUnpledged (denyRecord n r slot reason ending s) s)).ports := by
  rw [denyReferralToReady, enterReadyWith_ports, denyCore_eq, count_ports]

theorem denyReferral_port_other {p : Fin 4} (h : p ≠ r.port) :
    (denyReferralToReady n r slot reason ending s).port p = s.port p := by
  rw [port_of_ports (denyReferral_ports ..), sendShow_port_other _ _ _ h, port_of_ports (appendUnpledged_ports ..)]

theorem denyReferral_show :
    showAsked s (denyReferralToReady n r slot reason ending s) r.port ⟨.deny reason, 0⟩ := by
  have hshow := sendShow_spec r.port (.deny reason) 0 (appendUnpledged (denyRecord n r slot reason ending s) s)
  rwa [showAsked, port_of_ports (appendUnpledged_ports ..), ← port_of_ports (denyReferral_ports ..)] at hshow

/-- The lane of a denied referral is READY with the denial counted. -/
theorem denyReferral_lane :
    ((denyReferralToReady n r slot reason ending s).lane n).state = .ready none
      ∧ ((denyReferralToReady n r slot reason ending s).lane n).setup = (s.lane n).setup
      ∧ countedOnce s (denyReferralToReady n r slot reason ending s) n .denied := by
  obtain ⟨hstate, hsetup, hwindow, -⟩ := enterReadyWith_lane n .deny (denyCore n r.port r.uid slot reason ending s)
  rw [denyCore_lane] at hsetup hwindow
  exact ⟨hstate, hsetup, hwindow⟩

theorem denyReferral_cue {s : State} (h : s.mem.wf) (hw : s.journal.writeIndex < 1024)
    (hd : (s.lane n).state.isDown = false) :
    cueHanded s (denyReferralToReady n r slot reason ending s) n
      (if ((s.lane n).config.cueFor .deny).isSome then .deny else .ready) := by
  have hlane := denyCore_lane n r slot reason ending s
  obtain ⟨hcue, hlevels⟩ := enterReadyWith_cue n .deny (s := denyCore n r.port r.uid slot reason ending s)
    (by rw [hlane]; exact hd)
  rw [show ((denyCore n r.port r.uid slot reason ending s).lane n).config = (s.lane n).config by rw [hlane]]
    at hcue hlevels
  have hnow : (denyCore n r.port r.uid slot reason ending s).now = s.now := now_of_rest (denyCore_rest ..)
  obtain ⟨hcue', hlevels'⟩ := handOutcome_congr n (if ((s.lane n).config.cueFor .deny).isSome then .deny else .ready)
    (s := s) (t := denyCore n r.port r.uid slot reason ending s) (by rw [hlane]) (by rw [hlane]) (by rw [hlane])
    (by rw [hlane]) hnow fun x hx => by
      rw [denyCore_mem]
      exact byteAt_appendUnpledged _ h fun ha => by
        have := inAppend_region hw ha
        unfold inCueTable inField at hx
        omega
  exact ⟨hcue.trans hcue', hlevels.trans hlevels'⟩

end

end Sys2Proof.Machine
end

section
/-! PROOFS. INSERT_PASS and the lanes REFERRED for its card (R78, R79): the decisions, and what the event ends with. -/

namespace Sys2Proof.Machine

/-! ### What an event ends with where one lane or two changed -/

theorem settleOutputs_lane_eq (s v : State) (m : Fin 4) :
    (settleOutputs s v).lane m = { v.lane m with lockPulse := ((settleOutputs s v).lane m).lockPulse } := by
  rw [settleOutputs_lane]
  exact drivePulse_lane s v m

theorem settleOutputs_lane_kept {s v : State} {m : Fin 4} (he : v.evacuate = s.evacuate) (hl : v.lane m = s.lane m) :
    (settleOutputs s v).lane m = s.lane m := by
  rw [settleOutputs_lane, drivePulse_same (by rw [lockReleased, lockReleased, he, hl]), hl]

/-- A byte that no Lane Block shows of a changed lane is as the event left it. -/
theorem byteAt_settleOutputs_unchanged {s v : State} (hw : v.mem.wf) (hm : stateMirror s = stateMirror v)
    (hp : ∀ m, portBytes (v.port m) = portBytes (s.port m)) {x : Nat}
    (hx : ∀ m, inLaneMirror m x → v.lane m = s.lane m) :
    (settleOutputs s v).mem.byteAt x = v.mem.byteAt x := by
  by_cases hin : ∃ m, inLaneMirror m x
  · obtain ⟨m, hin⟩ := hin
    have hl := hx m hin
    exact byteAt_settleOutputs_kept s hw m hin (.inr (by rw [hl])) (.inr (by rw [hl])) (.inr (by rw [hl]))
      (.inr (hp m).symm) (.inr (by rw [hl])) (.inr (by rw [hl]))
  · exact byteAt_settleOutputs_outside s hw (.inr hm) fun m h => hin ⟨m, h⟩

theorem inLaneMirror_region {m : Fin 4} {x : Nat} (h : inLaneMirror m x) : 0x1100 ≤ x ∧ x < 0x1500 := by
  have := m.isLt
  unfold inLaneMirror inField laneBlockBase at h
  omega

/-- What a port shows of itself in the Lane Block is not its transmitter. -/
theorem portBytes_asked (x : Port) (v : Show) : portBytes (x.asked v) = portBytes x := by
  unfold Port.asked
  split <;> rfl

theorem portBytes_of_show {u v : State} {port : Fin 4} {w : Show} (hs : showAsked u v port w)
    (ho : ∀ p, p ≠ port → v.port p = u.port p) (p : Fin 4) : portBytes (v.port p) = portBytes (u.port p) := by
  by_cases hp : p = port
  · subst hp
    rw [show v.port p = (u.port p).asked w from hs, portBytes_asked]
  · rw [ho p hp]

/-! ### A decision -/

/-- What a grant or a denial of a referral may change: lanes, the transmitters, the journal with its bytes and causes, and
the marker of the entry. -/
structure Decides (slot : Nat) (u v : State) : Prop where
  rest : v.rest = u.rest
  wf : v.mem.wf
  causes : journalCausesOnly u v
  bytes : ∀ x, ¬inAppend u x → x ≠ passBase slot + 31 → v.mem.byteAt x = u.mem.byteAt x
  ports : ∀ p, portBytes (v.port p) = portBytes (u.port p)

theorem inAppend_of_writeIndex {u v : State} (h : v.journal.writeIndex = u.journal.writeIndex) (x : Nat) :
    inAppend v x ↔ inAppend u x := by
  rw [inAppend, inAppend, h]

theorem Decides.trans {slot : Nat} {u v w : State} (h1 : Decides slot u v) (h2 : Decides slot v w)
    (hj : v.journal.writeIndex = u.journal.writeIndex) : Decides slot u w where
  rest := h2.rest.trans h1.rest
  wf := h2.wf
  causes := journalCausesOnly_trans h1.causes h2.causes
  bytes := fun x ha hm =>
    (h2.bytes x (fun h => ha ((inAppend_of_writeIndex hj x).1 h)) hm).trans (h1.bytes x ha hm)
  ports := fun p => (h2.ports p).trans (h1.ports p)

theorem grantPass_decides (n port : Fin 4) (uid : List Byte) (slot : Nat) {u : State} (h : u.mem.wf) :
    Decides slot u (grantPass n port uid slot u) where
  rest := grantPass_rest ..
  wf := by
    rw [grantPass_mem]
    exact setMarker_wf slot _ h
  causes := ⟨0, by decide, by rw [grantPass_attn]; simp⟩
  bytes := fun x _ hm => by
    rw [grantPass_mem]
    exact byteAt_setMarker slot _ h hm
  ports := portBytes_of_show (grantPass_show n port uid slot u) fun _ hp => grantPass_port_other n port uid slot u hp

theorem denyReferral_decides (n : Fin 4) (r : Referral) (held : Option Nat) (reason : DenyReason) (ending : ReferralEnd)
    (slot : Nat) {u : State} (h : u.mem.wf) : Decides slot u (denyReferralToReady n r held reason ending u) where
  rest := denyReferralToReady_rest ..
  wf := denyReferralToReady_wf n r held reason ending h
  causes := by
    obtain ⟨j, hj, ha⟩ := appendUnpledged_attn (denyRecord n r held reason ending u) u
    exact ⟨j, hj, (denyReferral_attn ..).trans ha⟩
  bytes := fun x ha _ => by
    rw [denyReferral_mem]
    exact byteAt_appendUnpledged _ h ha
  ports := portBytes_of_show (denyReferral_show n r held reason ending u)
    fun _ hp => denyReferral_port_other n r held reason ending u hp

/-! ### The event of an insert with its decisions -/

/-- The end of the order is shown, ORDER_DONE raised, and the rest of the state is as the insert leaves it. -/
def insertFrame (s : State) (k : Fin 32) (withdrawal : Option WithdrawalScan) (t : State) : Prop :=
  orderEnded s t k .ok ∧ attnRaised s t 1
    ∧ t = { s with
              mem := t.mem, attn := t.attn, sweepNext := t.sweepNext, lanes := t.lanes, ports := t.ports
              journal := t.journal, withdrawal := withdrawal }

/-- The grant of a lane for the entry just written (R67, R68, R70). -/
def grantedFor (s : State) (slot : Nat) (uid : List Byte) (e : PassEntry) (d : Product) (n : Fin 4) (port : Fin 4)
    (t : State) : Prop :=
  (t.lane n).state = .granted
      { slot := slot, uid := uid, tick := s.now, willConsume := willConsume e d s.day, windowCount := 0
        grantWindow := (s.lane n).config.grantWindow, holdLimit := (s.lane n).config.holdLimit, exitBlocks := 0 }
    ∧ t.pass slot = { e with marker := some n.val } ∧ cueHanded s t n .grant ∧ lockReleased t n = true
    ∧ (t.lane n).window = (s.lane n).window ∧ showAsked s t port ⟨.grant, grantValue e d s.day⟩

/-- The denial of a lane's referral by the entry just written, its record judged from a Writer's state (R79). -/
def deniedFor (s : State) (slot : Nat) (uid : List Byte) (before t : State) (m : Fin 4) (q : Referral)
    (reason : DenyReason) : Prop :=
  (t.lane m).state = .ready none ∧ showAsked s t q.port ⟨.deny reason, 0⟩ ∧ countedOnce s t m .denied
    ∧ cueHanded s t m (if ((s.lane m).config.cueFor .deny).isSome then .deny else .ready)
    ∧ unpledgedRecord before t ⟨some m, s.day, s.ms, uid, some slot, .deny reason .insert⟩

/-- The state before the decisions: the entry stored, the order ended, the scan's note taken. -/
structure Inserted (k : Fin 32) (slot : Nat) (e : PassEntry) (s u : State) : Prop where
  eq : u = { s with
    mem := u.mem, attn := s.attn ||| 1#8, sweepNext := slotAfter k, withdrawal := referenceNoted s e.product slot }
  wf : u.mem.wf
  ended : orderEnded s u k .ok
  pass : u.pass slot = e
  bytes : ∀ x, ¬(inOrderEnd k x ∨ inField (passBase slot) 32 x) → u.mem.byteAt x = s.mem.byteAt x

theorem insertStored_inserted (k : Fin 32) (slot : Nat) {e : PassEntry} (f : e.Fits) {s : State} (h : s.mem.wf) :
    Inserted k slot e s (insertStored k slot e s) where
  eq := insertStored_eq k slot e h
  wf := insertStored_wf k slot e h
  ended := orderEnded_insertStored k slot e h
  pass := pass_insertStored k slot e h f
  bytes := fun _ hx => byteAt_insertStored k slot e h hx

section
variable {k : Fin 32} {slot : Nat} {e : PassEntry} {s u : State} (I : Inserted k slot e s u)
include I

theorem Inserted.lane (m : Fin 4) : u.lane m = s.lane m := by rw [I.eq]; rfl

theorem Inserted.port (p : Fin 4) : u.port p = s.port p := by rw [I.eq]; rfl

theorem Inserted.journal : u.journal = s.journal := by rw [I.eq]

theorem Inserted.now : u.now = s.now := by rw [I.eq]

theorem Inserted.day : u.day = s.day := by rw [I.eq]

theorem Inserted.ms : u.ms = s.ms := by rw [I.eq]

/-- Between the Order Table and the Pass Table, and in the header, nothing is written. -/
theorem Inserted.byteAt_between {x : Nat} (hx : x < 0x100 ∨ 0x1100 ≤ x) (hp : x < 0xE200) :
    u.mem.byteAt x = s.mem.byteAt x :=
  I.bytes x (by unfold inOrderEnd inField orderBase passBase; omega)

theorem Inserted.product {i : Nat} (hi : i ≤ 63) : u.product i = s.product i :=
  readProduct_congr fun _ hx => I.byteAt_between (by unfold inField productBase at hx; omega)
    (by unfold inField productBase at hx; omega)

theorem Inserted.threshold : thresholdOf u = thresholdOf s := by
  rw [thresholdOf, thresholdOf, State.peek, Memory.read_congr fun x h1 h2 => I.byteAt_between (x := x)
    (by unfold hdrThreshold at h2; omega) (by unfold hdrThreshold at h2; omega)]
  rfl

theorem Inserted.sameCauses : sameCauses u s := by
  rw [Sys2Proof.Machine.sameCauses, I.eq]
  simp

/-- The checks of a lane's card against the entry just written. -/
theorem Inserted.passDenial (hp : e.product ≤ 63) (stamp : Nat) :
    passDenial u slot stamp = firstFailure (entryChecks s e (s.product e.product) stamp) := by
  rw [Machine.passDenial, I.pass, I.product hp, ← entryDenial_eq, I.eq]
  rfl

end

/-! ### The event with its decisions -/

section
variable {k : Fin 32} {slot : Nat} {e : PassEntry} {s u v : State} (I : Inserted k slot e s u) (D : Decides slot u v)
include I D

theorem decided_eq :
    v = { s with
      mem := v.mem, attn := v.attn, sweepNext := slotAfter k, lanes := v.lanes, ports := v.ports, journal := v.journal
      withdrawal := referenceNoted s e.product slot } := by
  have hv := eq_of_rest D.rest
  rw [I.eq] at hv
  exact hv

theorem decided_stateMirror : stateMirror s = stateMirror v := by
  rw [decided_eq I D]
  rfl

theorem decided_evacuate : v.evacuate = s.evacuate := by
  rw [decided_eq I D]

theorem decided_ports (p : Fin 4) : portBytes (v.port p) = portBytes (s.port p) := by
  rw [D.ports, I.port]

theorem decided_byteAt {x : Nat} (hx : ∀ m, inLaneMirror m x → v.lane m = s.lane m) :
    (settleOutputs s v).mem.byteAt x = v.mem.byteAt x :=
  byteAt_settleOutputs_unchanged D.wf (decided_stateMirror I D) (decided_ports I D) hx

theorem decided_byteAt_outside {x : Nat} (hx : x < 0x1100 ∨ 0x1500 ≤ x) :
    (settleOutputs s v).mem.byteAt x = v.mem.byteAt x :=
  decided_byteAt I D fun _ hm => by
    have := inLaneMirror_region hm
    omega

theorem decided_pass : (settleOutputs s v).pass slot = v.pass slot :=
  readPass_congr fun _ hx => decided_byteAt_outside I D (by unfold inField passBase at hx; omega)

theorem decided_attn : attnRaised s (settleOutputs s v) 1 := by
  obtain ⟨j, hj, ha⟩ := D.causes
  refine ⟨j, hj, ?_⟩
  rw [settleOutputs_attn, ha, I.eq]
  rfl

theorem decided_frame (hw : s.journal.writeIndex < 1024) :
    insertFrame s k (referenceNoted s e.product slot) (settleOutputs s v) := by
  have heq : settleOutputs s v = { s with
      mem := (settleOutputs s v).mem, attn := (settleOutputs s v).attn, sweepNext := slotAfter k
      lanes := (settleOutputs s v).lanes, ports := (settleOutputs s v).ports, journal := (settleOutputs s v).journal
      withdrawal := referenceNoted s e.product slot } := by
    have ht := eq_of_rest (settleOutputs_rest s v)
    generalize settleOutputs s v = t at ht ⊢
    rw [decided_eq I D] at ht
    exact ht
  have hsweep : (settleOutputs s v).sweepNext = slotAfter k := by rw [heq]
  have order : ∀ x, 0x100 ≤ x → x < 0x1100 → (settleOutputs s v).mem.byteAt x = u.mem.byteAt x := fun x h1 h2 =>
    (decided_byteAt_outside I D (.inl h2)).trans (D.bytes x
      (fun ha => by
        have := inAppend_region (by rw [I.journal]; exact hw) ha
        omega)
      (by unfold passBase; omega))
  obtain ⟨hstate, hcode, hkind, -, -⟩ := I.ended
  refine ⟨⟨?_, ?_, ?_, ?_, hsweep⟩, decided_attn I D, ?_⟩
  · exact (Memory.read_congr fun x h1 h2 => order x (by unfold orderBase at h1; omega)
      (by unfold orderBase at h2; omega)).trans hstate
  · exact (Memory.read_congr fun x h1 h2 => order x (by unfold orderBase at h1; omega)
      (by unfold orderBase at h2; omega)).trans hcode
  · exact (Memory.read_congr fun x h1 h2 => order x (by unfold orderBase at h1; omega)
      (by unfold orderBase at h2; omega)).trans hkind
  · obtain ⟨j, -, ha⟩ := decided_attn I D
    rw [ha]
    simp
  · rw [hsweep]
    exact heq

theorem decided_keepsBytes {x : Nat} (hend : ¬inOrderEnd k x) (hentry : ¬inField (passBase slot) 32 x)
    (happend : ¬inAppend s x) (hlanes : ∀ m, inLaneMirror m x → v.lane m = s.lane m) :
    (settleOutputs s v).mem.byteAt x = s.mem.byteAt x := by
  rw [decided_byteAt I D hlanes, D.bytes x ?_ ?_, I.bytes x fun hx => hx.elim hend hentry]
  · rwa [inAppend_of_writeIndex (congrArg Journal.writeIndex I.journal)]
  · unfold inField at hentry
    omega

omit I D in
theorem decided_keepsSetup {m : Fin 4} (hs : (v.lane m).setup = (s.lane m).setup) :
    keepsSetup s (settleOutputs s v) m := by
  rw [keepsSetup, settleOutputs_lane_eq]
  exact hs

/-- A lane that a grant left, and no later decision touched, stands GRANTED at the end of the event. -/
theorem decided_granted {n port : Fin 4} {uid : List Byte} (hp : e.product ≤ 63)
    (hd : (s.lane n).state.isDown = false) (hl : v.lane n = (grantPass n port uid slot u).lane n)
    (hport : v.port port = (grantPass n port uid slot u).port port)
    (hpass : v.pass slot = (grantPass n port uid slot u).pass slot) :
    grantedFor s slot uid e (s.product e.product) n port (settleOutputs s v) := by
  obtain ⟨hstate, -, hwindow⟩ := grantPass_lane n port uid slot u
  obtain ⟨hcue, hlevels⟩ := grantPass_cue n port uid slot I.wf (by rw [I.lane]; exact hd)
  have hshow := grantPass_show n port uid slot u
  obtain ⟨hcue', hlevels'⟩ := handOutcome_congr n .grant (s := s) (t := u) (by rw [I.lane]) (by rw [I.lane])
    (by rw [I.lane]) (by rw [I.lane]) I.now fun x hx => I.byteAt_between (by unfold inCueTable inField at hx; omega)
      (by unfold inCueTable inField at hx; omega)
  have hend := settleOutputs_lane_eq s v n
  rw [hl] at hend
  have hgrant : newGrant u n uid slot =
      { slot := slot, uid := uid, tick := s.now, willConsume := willConsume e (s.product e.product) s.day
        windowCount := 0, grantWindow := (s.lane n).config.grantWindow, holdLimit := (s.lane n).config.holdLimit
        exitBlocks := 0 } := by
    simp only [newGrant, I.pass, I.product hp, I.day, I.now, I.lane]
  have hlane : ((settleOutputs s v).lane n).state = .granted (newGrant u n uid slot) := by rw [hend]; exact hstate
  refine ⟨by rw [hlane, hgrant], ?_, ⟨?_, ?_⟩, ?_, ?_, ?_⟩
  · rw [decided_pass I D, hpass, State.pass, grantPass_mem]
    exact (pass_setMarker slot (some n) I.wf).trans (by rw [I.pass]; rfl)
  · rw [hend]
    exact hcue.trans hcue'
  · rw [hend]
    exact hlevels.trans hlevels'
  · rw [lockReleased, hlane]
    exact Bool.or_true _
  · rw [hend, ← I.lane]
    exact hwindow
  · rw [showAsked, settleOutputs_port, hport, hshow, I.port, I.pass, I.product hp, I.day]

/-- A lane that the last decision denied stands READY at the end of the event. -/
theorem decided_denied {v' before : State} {m : Fin 4} {q : Referral} {reason : DenyReason} {uid : List Byte}
    (hv : v = denyReferralToReady m q (some slot) reason .insert v') (hq : q.uid = uid) (hw : v'.mem.wf)
    (hwrite : v'.journal.writeIndex < 1024) (hread : v'.journal.readIndex < 1024)
    (hd : (s.lane m).state.isDown = false) (hl : v'.lane m = s.lane m) (hport : v'.port q.port = s.port q.port)
    (hnow : v'.now = s.now) (hday : v'.day = s.day) (hms : v'.ms = s.ms)
    (hcues : ∀ x, inCueTable x → v'.mem.byteAt x = s.mem.byteAt x) (hj : v'.journal = before.journal)
    (ha : sameCauses v' before) (hth : thresholdOf v' = thresholdOf before) :
    deniedFor s slot uid before (settleOutputs s v) m q reason := by
  obtain ⟨hstate, -, hcount⟩ := denyReferral_lane m q (some slot) reason .insert v'
  obtain ⟨hcue, hlevels⟩ := denyReferral_cue m q (some slot) reason .insert hw hwrite (by rw [hl]; exact hd)
  have hshow := denyReferral_show m q (some slot) reason .insert v'
  obtain ⟨hcue', hlevels'⟩ := handOutcome_congr m (if ((s.lane m).config.cueFor .deny).isSome then .deny else .ready)
    (s := s) (t := v') (by rw [hl]) (by rw [hl]) (by rw [hl]) (by rw [hl]) hnow hcues
  have hend := settleOutputs_lane_eq s v m
  have hrecord : unpledgedRecord v' v ⟨some m, s.day, s.ms, uid, some slot, .deny reason .insert⟩ := by
    have hspec := appendUnpledged_spec (denyRecord m q (some slot) reason .insert v') hw hwrite hread
    rw [show denyRecord m q (some slot) reason .insert v' =
      ⟨some m, s.day, s.ms, uid, some slot, .deny reason .insert⟩ by rw [denyRecord, mkRecord, hday, hms, hq]] at hspec
    have hsame : denyRecord m q (some slot) reason .insert v' =
      ⟨some m, s.day, s.ms, uid, some slot, .deny reason .insert⟩ := by rw [denyRecord, mkRecord, hday, hms, hq]
    refine unpledgedRecord_right hspec ?_ (fun x _ => ?_) ?_
    · rw [hv, denyReferral_journal, hsame]
    · rw [hv, denyReferral_mem, hsame]
    · rw [sameCauses, hv, denyReferral_attn, hsame]
      exact ⟨rfl, rfl⟩
  rw [hv] at hend
  rw [hl] at hcue hlevels
  refine ⟨by rw [hv, hend]; exact hstate, ?_, ?_, ⟨?_, ?_⟩, ?_⟩
  · rw [showAsked, settleOutputs_port, hv, hshow, hport]
  · rw [countedOnce, hv, hend, ← hl]
    exact hcount
  · rw [hv, hend]
    exact hcue.trans hcue'
  · rw [hv, hend]
    exact hlevels.trans hlevels'
  · refine unpledgedRecord_left (unpledgedRecord_right hrecord (settleOutputs_journal ..) (fun x hx => ?_) ?_) hj ha hth
    · have := inAppend_region hwrite hx
      exact decided_byteAt_outside I D (by omega)
    · rw [sameCauses, settleOutputs_attn]
      exact ⟨rfl, rfl⟩

end

end Sys2Proof.Machine
end

section
/-! PROOFS. INSERT_PASS over the four lanes (R78): the one lane REFERRED for its card, or the lower and the higher of two. -/

namespace Sys2Proof.Machine

/-! ### Over the four lanes -/

theorem foldl_fixed {f : Fin 4 → State → State} {s : State} (l : List (Fin 4)) (h : ∀ m ∈ l, f m s = s) :
    l.foldl (fun t m => f m t) s = s := by
  induction l with
  | nil => rfl
  | cons m l ih => rw [List.foldl_cons, h m (by simp), ih fun x hx => h x (List.mem_cons_of_mem _ hx)]

theorem allFour_split :
    ∀ n m : Fin 4, n < m → allFour = allFour.filter (· < n) ++
      n :: (allFour.filter (fun l => n < l ∧ l < m) ++ m :: allFour.filter (m < ·)) := by
  decide

theorem allFour_around : ∀ n : Fin 4, allFour = allFour.filter (· < n) ++ n :: allFour.filter (n < ·) := by decide

/-- Only one lane changes the state. -/
theorem eachLane_one {f : Fin 4 → State → State} {s : State} {n : Fin 4}
    (h : ∀ m, m ≠ n → f m s = s ∧ f m (f n s) = f n s) : eachLane f s = f n s := by
  rw [eachLane, allFour_around n, List.foldl_append, List.foldl_cons,
    foldl_fixed _ fun m hm => (h m (by simp at hm; exact hm.2.ne)).1,
    foldl_fixed _ fun m hm => (h m (by simp at hm; exact hm.2.ne')).2]

/-- Only two lanes change the state, the lower one first. -/
theorem eachLane_two {f : Fin 4 → State → State} {s : State} {n m : Fin 4} (hnm : n < m)
    (h : ∀ l, l ≠ n → l ≠ m → f l s = s ∧ f l (f n s) = f n s ∧ f l (f m (f n s)) = f m (f n s)) :
    eachLane f s = f m (f n s) := by
  rw [eachLane, allFour_split n m hnm, List.foldl_append, List.foldl_cons, List.foldl_append, List.foldl_cons,
    foldl_fixed _ fun l hl => (h l (by simp at hl; exact hl.2.ne) (by simp at hl; exact (hl.2.trans hnm).ne)).1,
    foldl_fixed _ fun l hl => (h l (by simp at hl; exact hl.2.1.ne') (by simp at hl; exact hl.2.2.ne)).2.1,
    foldl_fixed _ fun l hl => (h l (by simp at hl; exact (hnm.trans hl.2).ne') (by simp at hl; exact hl.2.ne')).2.2]

/-! ### One lane's referral (R78) -/

section
variable {u : State} {uid : List Byte} {slot : Nat} {n : Fin 4} {r : Referral} (hs : (u.lane n).state = .referred r)
  (hr : r.uid = uid)
include hs hr

theorem reevaluate_grants (hp : passDenial u slot r.stamp = none) (hroom : 5 ≤ u.journal.room) :
    reevaluate uid slot n u = grantPass n r.port uid slot u := by
  simp [reevaluate, hs, hr, hp, hroom]

theorem reevaluate_denies {reason : DenyReason} (hp : passDenial u slot r.stamp = some reason) :
    reevaluate uid slot n u = denyReferralToReady n r (some slot) reason .insert u := by
  simp [reevaluate, hs, hr, hp]

theorem reevaluate_noRoom (hp : passDenial u slot r.stamp = none) (hroom : u.journal.room < 5) :
    reevaluate uid slot n u = denyReferralToReady n r (some slot) .journalFull .insert u := by
  simp [reevaluate, hs, hr, hp, Nat.not_le.2 hroom]

/-- The referral is granted or denied. -/
theorem reevaluate_cases :
    reevaluate uid slot n u = grantPass n r.port uid slot u
      ∨ ∃ reason, reevaluate uid slot n u = denyReferralToReady n r (some slot) reason .insert u := by
  cases hp : passDenial u slot r.stamp with
  | some reason => exact .inr ⟨reason, reevaluate_denies hs hr hp⟩
  | none =>
    by_cases hroom : 5 ≤ u.journal.room
    · exact .inl (reevaluate_grants hs hr hp hroom)
    · exact .inr ⟨_, reevaluate_noRoom hs hr hp (Nat.lt_of_not_le hroom)⟩

/-- Either way the decision touches the lane's outcome and its port's transmitter alone. -/
theorem reevaluate_decides (h : u.mem.wf) :
    Decides slot u (reevaluate uid slot n u) ∧ (∀ m, m ≠ n → (reevaluate uid slot n u).lane m = u.lane m)
      ∧ ((reevaluate uid slot n u).lane n).setup = (u.lane n).setup
      ∧ ∀ p, p ≠ r.port → (reevaluate uid slot n u).port p = u.port p := by
  rcases reevaluate_cases (slot := slot) hs hr with hv | ⟨reason, hv⟩
  · rw [hv]
    exact ⟨grantPass_decides n r.port uid slot h, fun _ hm => grantPass_lane_other n r.port uid slot u hm,
      (grantPass_lane n r.port uid slot u).2.1, fun _ hp => grantPass_port_other n r.port uid slot u hp⟩
  · rw [hv]
    exact ⟨denyReferral_decides n r (some slot) reason .insert slot h,
      fun _ hm => denyReferral_lane_other n r (some slot) reason .insert u hm,
      (denyReferral_lane n r (some slot) reason .insert u).2.1,
      fun _ hp => denyReferral_port_other n r (some slot) reason .insert u hp⟩

end

/-! ### The insert with one lane REFERRED -/

theorem insertPass_runs {k : Fin 32} {s : State} {uid : List Byte} {slot : Nat} {e : PassEntry} (hc : carries s k 1)
    (hb : insertPass k (takeSlot k s) = acceptInsert k uid slot e (takeSlot k s)) :
    exec (.insertPass k) s = .next (settleOutputs s (reevaluateAll uid slot (insertStored k slot e s))) := by
  rw [← acceptInsert_takeSlot, ← hb]
  exact carries_runs hc

section
variable {k : Fin 32} {slot : Nat} {e : PassEntry} {s u : State} {uid : List Byte} {n : Fin 4} {r : Referral}
  (I : Inserted k slot e s u) (hok : s.ok) (hs : (s.lane n).state = .referred r) (hr : r.uid = uid)
include I hok hs hr

omit hok in
/-- The lanes not REFERRED for the card decide nothing. -/
theorem reevaluateAll_one (hothers : ∀ m q, m ≠ n → (s.lane m).state = .referred q → q.uid ≠ uid) :
    reevaluateAll uid slot u = reevaluate uid slot n u := by
  obtain ⟨-, hlanes, -⟩ := reevaluate_decides (slot := slot) (by rw [I.lane]; exact hs) hr I.wf
  refine eachLane_one fun m hm => ⟨reevaluate_unreferred fun q hq => hothers m q hm ?_,
    reevaluate_unreferred fun q hq => hothers m q hm ?_⟩
  · rwa [I.lane] at hq
  · rwa [hlanes m hm, I.lane] at hq

/-- What the event leaves alone where one lane decided. -/
theorem oneReferral_keeps :
    insertFrame s k (referenceNoted s e.product slot) (settleOutputs s (reevaluate uid slot n u))
      ∧ keepsOtherLanes s (settleOutputs s (reevaluate uid slot n u)) n
      ∧ keepsSetup s (settleOutputs s (reevaluate uid slot n u)) n
      ∧ keepsOtherPorts s (settleOutputs s (reevaluate uid slot n u)) r.port
      ∧ keepsBytes s (settleOutputs s (reevaluate uid slot n u))
          (fun a => inOrderEnd k a ∨ inField (passBase slot) 32 a ∨ inAppend s a ∨ inLaneMirror n a) := by
  obtain ⟨D, hlanes, hsetup, hports⟩ := reevaluate_decides (slot := slot) (by rw [I.lane]; exact hs) hr I.wf
  have hkept : ∀ m, m ≠ n → (reevaluate uid slot n u).lane m = s.lane m := fun m hm => (hlanes m hm).trans (I.lane m)
  refine ⟨decided_frame I D hok.2.1, fun m hm => settleOutputs_lane_kept (decided_evacuate I D) (hkept m hm),
    decided_keepsSetup (hsetup.trans (by rw [I.lane])), fun p hp => (hports p hp).trans (I.port p), fun a ha => ?_⟩
  simp only [not_or] at ha
  obtain ⟨hend, hentry, happend, hmirror⟩ := ha
  refine decided_keepsBytes I D hend hentry happend fun m hm => hkept m ?_
  rintro rfl
  exact hmirror hm

variable (hp : e.product ≤ 63)
include hp

omit hok in
theorem oneReferral_granted (hpass : firstFailure (entryChecks s e (s.product e.product) r.stamp) = none)
    (hroom : 5 ≤ s.journal.room) :
    grantedFor s slot uid e (s.product e.product) n r.port (settleOutputs s (reevaluate uid slot n u))
      ∧ (settleOutputs s (reevaluate uid slot n u)).journal =
          { s.journal with pledges := s.journal.pledges + 1 } := by
  have hs' : (u.lane n).state = .referred r := by rw [I.lane]; exact hs
  have hv := reevaluate_grants (slot := slot) hs' hr (by rw [I.passDenial hp, hpass]) (by rw [I.journal]; exact hroom)
  obtain ⟨D, -⟩ := reevaluate_decides (slot := slot) hs' hr I.wf
  refine ⟨decided_granted I D hp (by rw [hs]; rfl) (by rw [hv]) (by rw [hv]) (by rw [hv]), ?_⟩
  rw [settleOutputs_journal, hv, grantPass_journal, I.journal]

theorem oneReferral_denied {reason : DenyReason}
    (hreason : (firstFailure (entryChecks s e (s.product e.product) r.stamp) = none ∧ s.journal.room < 5
        ∧ reason = .journalFull) ∨ firstFailure (entryChecks s e (s.product e.product) r.stamp) = some reason) :
    deniedFor s slot uid s (settleOutputs s (reevaluate uid slot n u)) n r reason
      ∧ (settleOutputs s (reevaluate uid slot n u)).pass slot = e := by
  have hs' : (u.lane n).state = .referred r := by rw [I.lane]; exact hs
  have hv : reevaluate uid slot n u = denyReferralToReady n r (some slot) reason .insert u := by
    rcases hreason with ⟨hpass, hroom, rfl⟩ | hpass
    · exact reevaluate_noRoom hs' hr (by rw [I.passDenial hp, hpass]) (by rw [I.journal]; exact hroom)
    · exact reevaluate_denies hs' hr (by rw [I.passDenial hp, hpass])
  obtain ⟨D, -⟩ := reevaluate_decides (slot := slot) hs' hr I.wf
  obtain ⟨-, hwrite, hread⟩ := hok
  have hwrite' : u.journal.writeIndex < 1024 := by rw [I.journal]; exact hwrite
  refine ⟨decided_denied I D hv hr I.wf hwrite' (by rw [I.journal]; exact hread) (by rw [hs]; rfl) (I.lane n)
    (I.port _) I.now I.day I.ms (fun x hx => I.byteAt_between (by unfold inCueTable inField at hx; omega)
      (by unfold inCueTable inField at hx; omega)) I.journal I.sameCauses I.threshold, ?_⟩
  rw [decided_pass I D, hv, ← I.pass]
  refine readPass_congr fun x hx => ?_
  rw [denyReferral_mem]
  refine byteAt_appendUnpledged _ I.wf fun ha => ?_
  have := inAppend_region hwrite' ha
  unfold inField passBase at hx
  omega

/-! ### Two lanes REFERRED for the card -/

variable {m : Fin 4} {q : Referral} (hnm : n < m) (hsm : (s.lane m).state = .referred q) (hq : q.uid = uid)
  (hstamp : q.stamp = r.stamp) (hpass : firstFailure (entryChecks s e (s.product e.product) r.stamp) = none)
  (hroom : 5 ≤ s.journal.room)
include hnm hsm hq hstamp hpass hroom

omit hok in
/-- The marker of the grant denies the higher lane IN_USE. -/
theorem reevaluateAll_two
    (hothers : ∀ l x, l ≠ n → l ≠ m → (s.lane l).state = .referred x → x.uid ≠ uid) :
    reevaluateAll uid slot u =
      denyReferralToReady m q (some slot) .inUse .insert (grantPass n r.port uid slot u) := by
  have hv := reevaluate_grants (slot := slot) (by rw [I.lane]; exact hs) hr (by rw [I.passDenial hp, hpass])
    (by rw [I.journal]; exact hroom)
  have hlane : ∀ l, l ≠ n → (grantPass n r.port uid slot u).lane l = s.lane l := fun l hl =>
    (grantPass_lane_other n r.port uid slot u hl).trans (I.lane l)
  have entry : (grantPass n r.port uid slot u).pass slot = { e with marker := some n.val } := by
    rw [State.pass, grantPass_mem]
    exact (pass_setMarker slot (some n) I.wf).trans (by rw [I.pass]; rfl)
  have prod : (grantPass n r.port uid slot u).product e.product = s.product e.product := by
    rw [← I.product hp]
    refine readProduct_congr fun x hx => ?_
    rw [grantPass_mem]
    exact byteAt_setMarker slot _ I.wf (by unfold inField productBase at hx; unfold passBase; omega)
  have rest : (grantPass n r.port uid slot u).liftNumber = s.liftNumber ∧ (grantPass n r.port uid slot u).day = s.day
      ∧ (grantPass n r.port uid slot u).ms = s.ms :=
    ⟨(liftNumber_of_rest (grantPass_rest ..)).trans (by rw [I.eq]), (day_of_rest (grantPass_rest ..)).trans I.day,
      (ms_of_rest (grantPass_rest ..)).trans I.ms⟩
  have hdeny : passDenial (grantPass n r.port uid slot u) slot q.stamp = some .inUse := by
    obtain ⟨hlift, hday, hms⟩ := rest
    rw [passDenial, entry, prod, State.minute, hlift, hday, hms, hstamp]
    exact (entryDenial_eq s _ _ _).trans (firstFailure_held hpass n.val)
  have hw := reevaluate_denies (slot := slot) (n := m) (by rw [hlane m hnm.ne']; exact hsm) hq hdeny
  have heach := eachLane_two (f := reevaluate uid slot) (s := u) hnm fun l hln hlm =>
    ⟨reevaluate_unreferred fun x hx => hothers l x hln hlm (by rwa [I.lane] at hx),
      reevaluate_unreferred fun x hx => hothers l x hln hlm (by rwa [hv, hlane l hln] at hx),
      reevaluate_unreferred fun x hx => hothers l x hln hlm
        (by rwa [hv, hw, denyReferral_lane_other _ _ _ _ _ _ hlm, hlane l hln] at hx)⟩
  rw [reevaluateAll, heach, hv, hw]

end

end Sys2Proof.Machine
end

section
/-! PROOFS. INSERT_PASS with two lanes REFERRED for its card, and the statement of its decisions (R78). -/

namespace Sys2Proof.Machine

/-! ### The grant of the lower lane and the denial of the higher -/

/-- The state after the lower lane's grant and the higher lane's denial. -/
def grantThenDeny (n m : Fin 4) (r q : Referral) (uid : List Byte) (slot : Nat) (u : State) : State :=
  denyReferralToReady m q (some slot) .inUse .insert (grantPass n r.port uid slot u)

/-- The Journal Writer after the grant: a pledge is taken. -/
def pledgeTaken (s : State) : State := { s with journal := { s.journal with pledges := s.journal.pledges + 1 } }

section
variable {k : Fin 32} {slot : Nat} {e : PassEntry} {s u : State} {uid : List Byte} {n m : Fin 4} {r q : Referral}
  (I : Inserted k slot e s u) (hok : s.ok)
include I

theorem grantPass_byteAt {x : Nat} (hx : x ≠ passBase slot + 31) :
    (grantPass n r.port uid slot u).mem.byteAt x = u.mem.byteAt x := by
  rw [grantPass_mem]
  exact byteAt_setMarker slot _ I.wf hx

theorem grantPass_wf : (grantPass n r.port uid slot u).mem.wf := (grantPass_decides n r.port uid slot I.wf).wf

theorem grantPass_pledge : (grantPass n r.port uid slot u).journal = (pledgeTaken s).journal := by
  rw [grantPass_journal, I.journal]
  rfl

theorem grantThenDeny_decides : Decides slot u (grantThenDeny n m r q uid slot u) :=
  (grantPass_decides n r.port uid slot I.wf).trans (denyReferral_decides m q (some slot) .inUse .insert slot (grantPass_wf I))
    (by rw [grantPass_journal])

theorem grantThenDeny_lane_other {l : Fin 4} (hn : l ≠ n) (hm : l ≠ m) :
    (grantThenDeny n m r q uid slot u).lane l = s.lane l :=
  (denyReferral_lane_other m q _ _ _ _ hm).trans ((grantPass_lane_other n r.port uid slot u hn).trans (I.lane l))

theorem grantThenDeny_port_other {p : Fin 4} (hr : p ≠ r.port) (hq : p ≠ q.port) :
    (grantThenDeny n m r q uid slot u).port p = s.port p :=
  (denyReferral_port_other m q _ _ _ _ hq).trans ((grantPass_port_other n r.port uid slot u hr).trans (I.port p))

theorem grantThenDeny_setup (hnm : n ≠ m) :
    ((grantThenDeny n m r q uid slot u).lane n).setup = (s.lane n).setup
      ∧ ((grantThenDeny n m r q uid slot u).lane m).setup = (s.lane m).setup := by
  constructor
  · rw [grantThenDeny, denyReferral_lane_other _ _ _ _ _ _ hnm, (grantPass_lane n r.port uid slot u).2.1, I.lane]
  · rw [grantThenDeny, (denyReferral_lane m q (some slot) .inUse .insert _).2.1, grantPass_lane_other _ _ _ _ _ hnm.symm,
      I.lane]

include hok

theorem grantThenDeny_pass :
    (grantThenDeny n m r q uid slot u).pass slot = (grantPass n r.port uid slot u).pass slot := by
  refine readPass_congr fun x hx => ?_
  rw [grantThenDeny, denyReferral_mem]
  refine byteAt_appendUnpledged _ (grantPass_wf I) fun ha => ?_
  have := inAppend_region (by rw [grantPass_pledge I]; exact hok.2.1) ha
  unfold inField passBase at hx
  omega

variable (hp : e.product ≤ 63) (hnm : n ≠ m)
include hnm

theorem grantThenDeny_keeps :
    insertFrame s k (referenceNoted s e.product slot) (settleOutputs s (grantThenDeny n m r q uid slot u))
      ∧ keepsSetup s (settleOutputs s (grantThenDeny n m r q uid slot u)) n
      ∧ keepsSetup s (settleOutputs s (grantThenDeny n m r q uid slot u)) m
      ∧ (∀ l, l ≠ n → l ≠ m → (settleOutputs s (grantThenDeny n m r q uid slot u)).lane l = s.lane l)
      ∧ (∀ p, p ≠ r.port → p ≠ q.port → (settleOutputs s (grantThenDeny n m r q uid slot u)).port p = s.port p)
      ∧ keepsBytes s (settleOutputs s (grantThenDeny n m r q uid slot u))
          (fun a => inOrderEnd k a ∨ inField (passBase slot) 32 a ∨ inAppend s a ∨ inLaneMirror n a
            ∨ inLaneMirror m a) := by
  have D : Decides slot u (grantThenDeny n m r q uid slot u) := grantThenDeny_decides I
  obtain ⟨hsetup, hsetup'⟩ := grantThenDeny_setup (r := r) (q := q) (uid := uid) I hnm
  refine ⟨decided_frame I D hok.2.1, decided_keepsSetup hsetup, decided_keepsSetup hsetup',
    fun l hn hm => settleOutputs_lane_kept (decided_evacuate I D) (grantThenDeny_lane_other I hn hm),
    fun p hr hq => grantThenDeny_port_other I hr hq, fun a ha => ?_⟩
  simp only [not_or] at ha
  obtain ⟨hend, hentry, happend, hmirror, hmirror'⟩ := ha
  refine decided_keepsBytes I D hend hentry happend fun l hl => grantThenDeny_lane_other I ?_ ?_
  · rintro rfl
    exact hmirror hl
  · rintro rfl
    exact hmirror' hl

variable (hport : q.port ≠ r.port)
include hport

theorem grantThenDeny_granted (hp : e.product ≤ 63) (hs : (s.lane n).state = .referred r) :
    grantedFor s slot uid e (s.product e.product) n r.port (settleOutputs s (grantThenDeny n m r q uid slot u)) :=
  decided_granted I (grantThenDeny_decides I) hp (by rw [hs]; rfl) (denyReferral_lane_other _ _ _ _ _ _ hnm)
    (denyReferral_port_other _ _ _ _ _ _ hport.symm) (grantThenDeny_pass I hok)

theorem grantThenDeny_denied (hs : (s.lane m).state = .referred q) (hq : q.uid = uid) :
    deniedFor s slot uid (pledgeTaken s) (settleOutputs s (grantThenDeny n m r q uid slot u)) m q .inUse := by
  have hj : (grantPass n r.port uid slot u).journal = (pledgeTaken s).journal := grantPass_pledge I
  have low : ∀ x, x < 0x100 ∨ 0x1100 ≤ x → x < 0xE200 →
      (grantPass n r.port uid slot u).mem.byteAt x = s.mem.byteAt x := fun x h1 h2 =>
    (grantPass_byteAt I (by unfold passBase; omega)).trans (I.byteAt_between h1 h2)
  refine decided_denied I (grantThenDeny_decides I) rfl hq (grantPass_wf I) (by rw [hj]; exact hok.2.1)
    (by rw [hj]; exact hok.2.2) (by rw [hs]; rfl)
    ((grantPass_lane_other n r.port uid slot u hnm.symm).trans (I.lane m))
    ((grantPass_port_other n r.port uid slot u hport).trans (I.port _))
    ((now_of_rest (grantPass_rest ..)).trans I.now) ((day_of_rest (grantPass_rest ..)).trans I.day)
    ((ms_of_rest (grantPass_rest ..)).trans I.ms)
    (fun x hx => low x (by unfold inCueTable inField at hx; omega) (by unfold inCueTable inField at hx; omega)) hj ?_ ?_
  · obtain ⟨h1, h2⟩ := I.sameCauses
    rw [sameCauses, grantPass_attn]
    exact ⟨h1, h2⟩
  · rw [thresholdOf, thresholdOf, State.peek, Memory.read_congr fun x h1 h2 => low x
      (by unfold hdrThreshold at h2; omega) (by unfold hdrThreshold at h2; omega)]
    rfl

end

/-! ### The obligation -/

/-- The entry that an INSERT_PASS stores, with its checks passed: the body accepts it, and it fits its 32 bytes. -/
theorem insertPass_accepts {s : State} {k : Fin 32} {uid : List Byte} {slot : Nat} {e : PassEntry} (h : s.mem.wf)
    (hu : payloadUid s k = some uid) (hp : productOpen s (payload s k 19 1))
    (he : (lookup s.mem uid = none
          ∧ (payload s k 24 2 ≠ 0xFFFF ∨ (s.product (payload s k 19 1)).floating = true) ∧ firstVacant s uid slot
          ∧ e = insertedEntry uid (s.product (payload s k 19 1)) (readInsert s k))
        ∨ (lookup s.mem uid = some slot
          ∧ hitProblem (s.pass slot) (s.product (s.pass slot).product) (s.product (payload s k 19 1)) (readInsert s k) =
              none
          ∧ e = updatedEntry (s.pass slot) (s.product (payload s k 19 1)) (readInsert s k))) :
    insertPass k (takeSlot k s) = acceptInsert k uid slot e (takeSlot k s) ∧ e.Fits
      ∧ e.product = payload s k 19 1 := by
  rcases he with ⟨hm, hd, hv, he⟩ | ⟨hl, hc, he⟩
  · subst he
    exact ⟨(insertPass_new h hu hp hm hd hv).1,
      insertedEntry_fits (payloadUid_length hu) (readProductAt_fits _ _) s k, by rw [insertedEntry_eq]⟩
  · subst he
    exact ⟨(insertPass_known h hu hp hl hc).1, updatedEntry_fits (readPass_fits _ _) (readProductAt_fits _ _) s k,
      by rw [updatedEntry_eq]⟩

/-- Settles O24: of the lanes REFERRED for the card the lowest decides first, by the checks against the entry stored. -/
theorem insertPassDecidesReferral : Obligations.InsertPassDecidesReferral := by
  intro s k uid slot n r e hok hc hu f d old resetUsage initial first h63 hkind hstaged he hs hr withdrawal granted denied
    frame
  obtain ⟨hb, hfits, hprod⟩ := insertPass_accepts (e := e) hok.1 hu ⟨h63, hkind, hstaged⟩ (by
    rcases he with ⟨hm, hd, hv, he⟩ | ⟨hl, hreset, hkept, hfirst, he⟩
    · exact .inl ⟨hm, hd, hv, he.trans (insertedEntry_eq _ _ _ _).symm⟩
    · exact .inr ⟨hl, hitProblem_none hreset hkept hfirst, he.trans (updatedEntry_eq _ _ _ _).symm⟩)
  have I := insertStored_inserted k slot hfits hok.1
  have hp : e.product ≤ 63 := by rw [hprod]; exact h63
  have hd : s.product e.product = d := congrArg s.product hprod
  have hrun := insertPass_runs hc hb
  have toFrame : ∀ t, insertFrame s k (referenceNoted s e.product slot) t → frame t := fun t ht => by
    rw [hprod] at ht
    exact ht
  generalize insertStored k slot e s = u at I hrun
  refine ⟨fun hothers => ?_, fun m q hnm hsm hq hstamp hport hothers hpass hroom => ?_⟩
  · rw [reevaluateAll_one I hs hr hothers] at hrun
    obtain ⟨hframe, hlanes, hsetup, hports, hbytes⟩ := oneReferral_keeps I hok hs hr
    refine ⟨_, hrun, toFrame _ hframe, hlanes, hsetup, hports, hbytes, fun hpass hroom => ?_, fun reason hreason => ?_⟩
    · obtain ⟨hgranted, hjournal⟩ := oneReferral_granted I hs hr hp (by rw [hd]; exact hpass) hroom
      rw [hd] at hgranted
      exact ⟨hgranted, hjournal⟩
    · exact oneReferral_denied I hok hs hr hp (by rw [hd]; exact hreason)
  · rw [reevaluateAll_two I hs hr hp hnm hsm hq hstamp (by rw [hd]; exact hpass) hroom hothers] at hrun
    obtain ⟨hframe, hsetup, hsetup', hlanes, hports, hbytes⟩ := grantThenDeny_keeps (r := r) (q := q) (uid := uid) I hok hnm.ne
    have hgranted := grantThenDeny_granted (uid := uid) I hok hnm.ne hport hp hs
    rw [hd] at hgranted
    exact ⟨_, hrun, toFrame _ hframe, hgranted, grantThenDeny_denied I hok hnm.ne hport hsm hq, hsetup, hsetup', hlanes,
      hports, hbytes⟩

end Sys2Proof.Machine
end

section
/-! PROOFS. ROLLOVER (R24, R32, R37, R118, R123, R124): the tables of the new day, the four windows, the time mirror and
the STATION record. -/

namespace Sys2Proof.Machine

/-! ### The tables of the new day (R24, R37) -/

/-- Staged records written into the Product Table, one after another. -/
def applyRecords : List (Nat × Product) → Memory → Memory
  | [], m => m
  | x :: l, m => applyRecords l (writeProduct m x.1 x.2)

theorem applyRecords_cons (x : Nat × Product) (l : List (Nat × Product)) (m : Memory) :
    applyRecords (x :: l) m = applyRecords l (writeProduct m x.1 x.2) := by rw [applyRecords]

theorem foldl_writeProduct (l : List (Nat × Product)) (m : Memory) :
    l.foldl (fun m x => writeProduct m x.1 x.2) m = applyRecords l m := by
  induction l generalizing m with
  | nil => rfl
  | cons x l ih => rw [List.foldl_cons, ih, applyRecords_cons]

theorem applyRecords_wf (l : List (Nat × Product)) {m : Memory} (h : m.wf) : (applyRecords l m).wf := by
  induction l generalizing m with
  | nil => exact h
  | cons x l ih =>
    rw [applyRecords_cons]
    exact ih (writeProduct_wf h x.1 x.2)

theorem byteAt_applyRecords (l : List (Nat × Product)) {m : Memory} (h : m.wf) {a : Nat}
    (ha : ∀ x ∈ l, ¬inField (productBase x.1) 128 a) : (applyRecords l m).byteAt a = m.byteAt a := by
  induction l generalizing m with
  | nil => rfl
  | cons x l ih =>
    rw [applyRecords_cons, ih (writeProduct_wf h x.1 x.2) fun y hy => ha y (List.mem_cons_of_mem _ hy),
      byteAt_writeProduct h x.1 x.2 (ha x (by simp))]

/-- With one record for an index, each stands in force at its own. -/
theorem readProduct_applyRecords (l : List (Nat × Product)) {m : Memory} (h : m.wf) (hf : ∀ x ∈ l, x.2.Fits)
    (hn : (l.map (·.1)).Nodup) : ∀ x ∈ l, readProduct (applyRecords l m) x.1 = x.2 := by
  induction l generalizing m with
  | nil => intro x hx; exact absurd hx (by simp)
  | cons y l ih =>
    obtain ⟨hy, hn⟩ := List.nodup_cons.1 hn
    intro x hx
    have hw := writeProduct_wf h y.1 y.2
    have kept : readProduct (applyRecords l (writeProduct m y.1 y.2)) y.1 = readProduct (writeProduct m y.1 y.2) y.1 := by
      refine readProduct_congr fun a ha => byteAt_applyRecords l hw ?_
      intro z hz hin
      have : z.1 = y.1 := by
        unfold inField productBase at ha hin
        omega
      exact hy (List.mem_map.2 ⟨z, hz, this⟩)
    rw [applyRecords_cons]
    rcases List.mem_cons.1 hx with hxy | hx
    · rw [hxy, kept]
      exact readProduct_writeProduct h y.1 (hf y (by simp))
    · exact ih hw (fun z hz => hf z (List.mem_cons_of_mem _ hz)) hn x hx

/-- The memory of the new day: the staged records in force, the Staging Area and the Closure List empty. -/
def dayTables (m : Memory) : Memory := clearClosures (writeStaging (applyRecords (readStaging m) m) [])

section
variable {m : Memory} (h : m.wf)
include h

theorem dayTables_staged_wf : (writeStaging (applyRecords (readStaging m) m) []).wf :=
  writeStaging_wf (applyRecords_wf _ h) _

theorem dayTables_wf : (dayTables m).wf := clearClosures_wf (dayTables_staged_wf h)

theorem byteAt_clearClosures {a : Nat} (ha : ¬inField (closureBase 0) 128 a) :
    (clearClosures m).byteAt a = m.byteAt a := by
  unfold inField closureBase at ha
  rw [clearClosures, Memory.byteAt_zeroRange h, if_neg (by unfold closureBase; omega)]

theorem byteAt_dayTables_records {a : Nat} (hc : ¬inField (closureBase 0) 128 a)
    (hs : ¬inField (stagingBase 0) 1024 a) : (dayTables m).byteAt a = (applyRecords (readStaging m) m).byteAt a :=
  (byteAt_clearClosures (dayTables_staged_wf h) hc).trans
    (byteAt_writeStaging (l := []) (applyRecords_wf _ h) (Nat.zero_le 8) hs)

theorem byteAt_dayTables {a : Nat} (hc : ¬inField (closureBase 0) 128 a) (hs : ¬inField (stagingBase 0) 1024 a)
    (hp : ∀ x ∈ readStaging m, ¬inField (productBase x.1) 128 a) : (dayTables m).byteAt a = m.byteAt a :=
  (byteAt_dayTables_records h hc hs).trans (byteAt_applyRecords _ h hp)

theorem readProduct_dayTables (hi : ∀ x ∈ readStaging m, x.1 < 64) (hn : ((readStaging m).map (·.1)).Nodup) :
    ∀ x ∈ readStaging m, readProduct (dayTables m) x.1 = x.2 := by
  intro x hx
  rw [← readProduct_applyRecords (readStaging m) h (fun y hy => (readStaging_fits hy).2) hn x hx]
  have := hi x hx
  exact readProduct_congr fun a ha => byteAt_dayTables_records h
    (by unfold inField productBase closureBase at *; omega) (by unfold inField productBase stagingBase at *; omega)

theorem readStaging_dayTables : readStaging (dayTables m) = [] := by
  have hempty := readStaging_writeStaging (l := []) (applyRecords_wf (readStaging m) h) (Nat.zero_le 8)
    fun _ hx => absurd hx (by simp)
  refine Eq.trans ?_ hempty
  exact readStaging_congr fun a ha => byteAt_clearClosures (dayTables_staged_wf h)
    (by unfold inField stagingBase closureBase at *; omega)

theorem heldClosures_dayTables : heldClosures (dayTables m) = [] := heldClosures_clearClosures (dayTables_staged_wf h)

end

/-- The state as the new day begins, before its windows. -/
def dayTurned (s : State) : State := { s with mem := dayTables s.mem, day := s.day + 1, ms := 0, dayEnd := false }

/-! ### The windows (R118, R123, R124) -/

/-- A lane as a rollover leaves it: a current window gives way to window 0 of the day. -/
def rolledLane (s : State) (l : Lane) : Lane :=
  match l.window with
  | some _ =>
    { l with
      window := some ⟨s.day, 0, false, false, !s.online, ⟨0, 0, 0, 0, 0, 0, 0, 0⟩⟩
      flowPosition := some (nextFlowPosition l.flowPosition), flowNumber := nextFlowNumber l.flowNumber }
  | none => l

/-- The bytes that the close of a lane's window and the opening of the next may write. -/
def inWindowClose (s : State) (n : Fin 4) (x : Nat) : Prop :=
  inField (laneBlockBase n.val + 80) 22 x ∨ inField (hdrFlow n.val) 2 x
    ∨ inField (flowBase n.val (nextFlowPosition (s.lane n).flowPosition)) 32 x

/-- The flow record of the window that the end of the day closed, and the header's index. -/
def flowRecorded (s t : State) (n : Fin 4) : Prop :=
  ∀ w, (s.lane n).window = some w →
    t.mem.readBytes (flowBase n.val (nextFlowPosition (s.lane n).flowPosition)) 32 =
        flowBytes (nextFlowNumber (s.lane n).flowNumber) (w.index * s.options.windowLength)
          (1440 - w.index * s.options.windowLength)
          { w with isShort := w.isShort || decide (1440 < (w.index + 1) * s.options.windowLength) }
      ∧ t.peek (hdrFlow n.val) 2 = nextFlowPosition (s.lane n).flowPosition

theorem flowRecorded_congr {s t v : State} {n : Fin 4} (h : flowRecorded s t n)
    (hb : ∀ x, inField (hdrFlow n.val) 2 x ∨ inField (flowBase n.val (nextFlowPosition (s.lane n).flowPosition)) 32 x →
      v.mem.byteAt x = t.mem.byteAt x) : flowRecorded s v n := by
  intro w hw
  obtain ⟨hrecord, hindex⟩ := h w hw
  exact ⟨(Memory.readBytes_congr fun x h1 h2 => hb x (.inr ⟨h1, h2⟩)).trans hrecord,
    (Memory.read_congr fun x h1 h2 => hb x (.inl ⟨h1, h2⟩)).trans hindex⟩

/-- What the rollover of the windows of some lanes leaves. -/
structure LanesRolled (l : List (Fin 4)) (s t : State) : Prop where
  wf : t.mem.wf
  rest : t.rest = s.rest
  lanes : ∀ m, t.lane m = if m ∈ l then rolledLane s (s.lane m) else s.lane m
  bytes : ∀ x, (∀ m ∈ l, ¬inWindowClose s m x) → t.mem.byteAt x = s.mem.byteAt x
  records : ∀ m ∈ l, flowRecorded s t m

theorem LanesRolled.nil {s : State} (h : s.mem.wf) : LanesRolled [] s s where
  wf := h
  rest := rfl
  lanes := fun _ => by simp
  bytes := fun _ _ => rfl
  records := fun _ hm => absurd hm (by simp)

/-- The day's minutes up to its end, of which a window closed there has the rest. -/
theorem windowLengthTo_dayEnd (s : State) (w : Window) :
    windowLengthTo s w dayMs = 1440 - w.index * s.options.windowLength := rfl

theorem closeAtRollover_none {s : State} {n : Fin 4} (h : (s.lane n).window = none) :
    closeAtRollover false dayMs n s = s := by
  simp only [closeAtRollover, h]

theorem closeAtRollover_some {s : State} {n : Fin 4} {w : Window} (h : (s.lane n).window = some w) :
    closeAtRollover false dayMs n s =
      openWindow n ⟨s.day, 0, false, false, !s.online, Counts.zero⟩
        (closeWindow n { w with isShort := w.isShort || decide (1440 < (w.index + 1) * s.options.windowLength) }
          (1440 - w.index * s.options.windowLength) s) := by
  simp only [closeAtRollover, h, windowLengthTo_dayEnd, Bool.false_or]

theorem closeAtRollover_rolled (n : Fin 4) {s : State} (h : s.mem.wf) :
    LanesRolled [n] s (closeAtRollover false dayMs n s) := by
  cases hw : (s.lane n).window with
  | none =>
    rw [closeAtRollover_none hw]
    refine ⟨h, rfl, fun m => ?_, fun _ _ => rfl, fun m hm w hmw => ?_⟩
    · split
      · next hm =>
        rw [List.mem_singleton.1 hm, rolledLane, hw]
      · rfl
    · rw [List.mem_singleton.1 hm, hw] at hmw
      exact absurd hmw (by simp)
  | some w =>
    have hrest := closeAtRollover_rest false dayMs n s
    rw [closeAtRollover_some hw] at hrest ⊢
    generalize hw' : ({ w with isShort := w.isShort || decide (1440 < (w.index + 1) * s.options.windowLength) } : Window) =
      closed at hrest ⊢
    generalize hlen : 1440 - w.index * s.options.windowLength = len at hrest ⊢
    have hwf := closeWindow_wf n closed len h
    have hbytes : ∀ x, ¬inField (laneBlockBase n.val + 80) 22 x →
        (openWindow n ⟨s.day, 0, false, false, !s.online, Counts.zero⟩ (closeWindow n closed len s)).mem.byteAt x =
          (closeWindow n closed len s).mem.byteAt x := fun x hx => byteAt_openWindow n _ hwf hx
    refine ⟨openWindow_wf n _ hwf, hrest, fun m => ?_, fun x hx => ?_, fun m hm v hv => ?_⟩
    · by_cases hm : m = n
      · subst hm
        rw [if_pos (by simp), openWindow_lane, closeWindow_lane, rolledLane, hw]
        rfl
      · rw [if_neg (by simpa using hm), openWindow_lane_other _ _ hm, closeWindow_lane_other _ _ _ hm]
    · have := hx n (by simp)
      simp only [inWindowClose, not_or] at this
      obtain ⟨h1, h2, h3⟩ := this
      exact (hbytes x h1).trans (byteAt_closeWindow n closed len h h1 h2 h3)
    · obtain rfl := List.mem_singleton.1 hm
      obtain rfl : w = v := Option.some.inj (hw.symm.trans hv)
      obtain ⟨hrecord, hindex⟩ := closeWindow_record m closed len h
      rw [hw', hlen]
      have index : w.index = closed.index := by rw [← hw']
      rw [index]
      have hm := m.isLt
      refine ⟨(Memory.readBytes_congr fun x h1 h2 => hbytes x ?_).trans hrecord,
        (Memory.read_congr fun x h1 h2 => hbytes x ?_).trans hindex⟩
      · unfold inField laneBlockBase flowBase at *
        omega
      · unfold inField laneBlockBase hdrFlow at *
        omega

theorem inWindowClose_congr {s t : State} {n : Fin 4} (h : t.lane n = s.lane n) (x : Nat) :
    inWindowClose t n x ↔ inWindowClose s n x := by
  rw [inWindowClose, inWindowClose, h]

/-- Two lanes write in different places. -/
theorem inWindowClose_apart {s : State} {n m : Fin 4} (hne : m ≠ n) {x : Nat}
    (hx : inField (hdrFlow n.val) 2 x ∨ inField (flowBase n.val (nextFlowPosition (s.lane n).flowPosition)) 32 x) :
    ¬inWindowClose s m x := by
  have hn := n.isLt
  have hm := m.isLt
  have hv : m.val ≠ n.val := fun h => hne (Fin.ext h)
  have hp := nextFlowPosition_lt (s.lane n).flowPosition
  have hp' := nextFlowPosition_lt (s.lane m).flowPosition
  unfold inWindowClose
  unfold inField laneBlockBase hdrFlow flowBase at *
  omega

theorem LanesRolled.cons {n : Fin 4} {l : List (Fin 4)} (hn : n ∉ l) {s t v : State} (h1 : LanesRolled [n] s t)
    (h2 : LanesRolled l t v) : LanesRolled (n :: l) s v := by
  have hlane : ∀ m, m ≠ n → t.lane m = s.lane m := fun m hm => (h1.lanes m).trans (if_neg (by simpa using hm))
  have hrolled : ∀ x, rolledLane t x = rolledLane s x := fun x => by
    rw [rolledLane, rolledLane, day_of_rest h1.rest, online_of_rest h1.rest]
  have hother : ∀ m ∈ l, m ≠ n := fun m hm hmn => hn (hmn ▸ hm)
  refine ⟨h2.wf, h2.rest.trans h1.rest, fun m => ?_, fun x hx => ?_, fun m hm => ?_⟩
  · rw [h2.lanes, hrolled]
    by_cases hmn : m = n
    · subst hmn
      rw [if_neg hn, if_pos (by simp), h1.lanes, if_pos (by simp)]
    · simp only [List.mem_cons, hmn, false_or, hlane m hmn]
  · rw [h2.bytes x fun m hm => by
      rw [inWindowClose_congr (hlane m (hother m hm))]
      exact hx m (List.mem_cons_of_mem _ hm)]
    exact h1.bytes x fun m hm => by
      rw [List.mem_singleton.1 hm]
      exact hx n (by simp)
  · rcases List.mem_cons.1 hm with rfl | hm
    · refine flowRecorded_congr (h1.records m (by simp)) fun x hx => h2.bytes x fun i hi => ?_
      rw [inWindowClose_congr (hlane i (hother i hi))]
      exact inWindowClose_apart (hother i hi) hx
    · have := h2.records m hm
      unfold flowRecorded at this ⊢
      rw [hlane m (hother m hm), options_of_rest h1.rest] at this
      exact this

theorem foldl_rolled (l : List (Fin 4)) (hl : l.Nodup) {s : State} (h : s.mem.wf) :
    LanesRolled l s (l.foldl (fun t n => closeAtRollover false dayMs n t) s) := by
  induction l generalizing s with
  | nil => exact .nil h
  | cons n l ih =>
    obtain ⟨hn, hl⟩ := List.nodup_cons.1 hl
    have h1 := closeAtRollover_rolled n h
    exact h1.cons hn (ih hl h1.wf)

theorem eachLane_rolled {s : State} (h : s.mem.wf) : LanesRolled allFour s (eachLane (closeAtRollover false dayMs) s) :=
  foldl_rolled allFour (by decide) h

end Sys2Proof.Machine
end

section
/-! PROOFS. ROLLOVER as an event: what the new day shows, and a SET_TIME in between (R29, R32, R37, R41). -/

namespace Sys2Proof.Machine

/-! ### The state of the new day, before its record -/

theorem cutSweepShort_none {s : State} (h : s.creditSweep = none) : cutSweepShort s = s := by
  simp only [cutSweepShort, h]

/-- The windows of the new day opened. -/
def dayOpened (s : State) : State := eachLane (closeAtRollover false dayMs) (dayTurned s)

/-- The new day shown in the header, ROLLOVER raised. -/
def dayShown (s : State) : State := raise .rollover (writeTimeMirror (dayOpened s))

theorem applyStaging_clear (s : State) (day : Nat) :
    ({ applyStaging { s with day := day, ms := 0, dayEnd := false } with
        mem := clearClosures (applyStaging { s with day := day, ms := 0, dayEnd := false }).mem } : State) =
      { s with mem := dayTables s.mem, day := day, ms := 0, dayEnd := false } := by
  rw [dayTables, ← foldl_writeProduct]
  rfl

theorem rollTo_eq {s : State} (h : s.creditSweep = none) :
    rollTo (s.day + 1) false { s with dayEnd := false } = stationRecord .rollover false 0 0 (dayShown s) := by
  rw [dayShown, dayOpened, dayTurned, ← applyStaging_clear s (s.day + 1), ← cutSweepShort_none (s :=
    { applyStaging { s with day := s.day + 1, ms := 0, dayEnd := false } with
      mem := clearClosures (applyStaging { s with day := s.day + 1, ms := 0, dayEnd := false }).mem }) h]
  rfl

section
variable {s : State} (h : s.mem.wf)
include h

theorem dayOpened_rolled : LanesRolled allFour (dayTurned s) (dayOpened s) := eachLane_rolled (dayTables_wf h)

omit h in
theorem dayShown_mem :
    (dayShown s).mem =
      ((dayOpened s).mem.write hdrMs 4 ((dayOpened s).ms / 1000 * 1000)).write hdrDay 2 (dayOpened s).day := by
  rw [dayShown, raise_mem]
  exact with_mem_mem (dayOpened s) _

theorem dayShown_wf : (dayShown s).mem.wf := by
  rw [dayShown_mem]
  exact Memory.write_wf (Memory.write_wf (dayOpened_rolled h).wf _ _ _) _ _ _

theorem byteAt_dayShown {x : Nat} (hx : ¬inField hdrMs 6 x) :
    (dayShown s).mem.byteAt x = (dayOpened s).mem.byteAt x := by
  have hw := (dayOpened_rolled h).wf
  unfold inField hdrMs at hx
  rw [dayShown_mem, Memory.byteAt_write_outside (Memory.write_wf hw _ _ _) (by unfold hdrDay; omega),
    Memory.byteAt_write_outside hw (by unfold hdrMs; omega)]

theorem dayShown_time (hd : s.day < 65534) : (dayShown s).peek hdrDay 2 = s.day + 1 ∧ (dayShown s).peek hdrMs 4 = 0 := by
  have hw := (dayOpened_rolled h).wf
  have hday : (dayOpened s).day = s.day + 1 := day_of_rest (dayOpened_rolled h).rest
  have hms : (dayOpened s).ms = 0 := ms_of_rest (dayOpened_rolled h).rest
  rw [State.peek, State.peek, dayShown_mem, hday, hms]
  constructor
  · rw [Memory.read_write (Memory.write_wf hw _ _ _)]
    omega
  · rw [Memory.read_write_outside (Memory.write_wf hw _ _ _) (by unfold hdrMs hdrDay; omega), Memory.read_write hw]
    rfl

theorem dayShown_rest : (dayShown s).rest = (dayTurned s).rest := by
  rw [dayShown, raise_rest, writeTimeMirror_rest, (dayOpened_rolled h).rest]

theorem dayShown_lane (m : Fin 4) : (dayShown s).lane m = rolledLane (dayTurned s) (s.lane m) := by
  rw [dayShown, lane_raise, lane_of_lanes (writeTimeMirror_lanes _), (dayOpened_rolled h).lanes,
    if_pos (by revert m; decide)]
  rfl

omit h in
theorem dayShown_ports : (dayShown s).ports = s.ports := by
  rw [dayShown, raise_ports, writeTimeMirror_ports, dayOpened, eachLane_ports (closeAtRollover_ports false dayMs)]
  rfl

omit h in
theorem dayShown_journal : (dayShown s).journal = s.journal := by
  rw [dayShown, raise_journal, writeTimeMirror_journal, dayOpened, eachLane_journal (closeAtRollover_journal false dayMs)]
  rfl

omit h in
theorem dayShown_attn : (dayShown s).attn = s.attn ||| 0x40#8 := by
  have : (dayOpened s).attn = s.attn := (eachLane_attn (closeAtRollover_attn false dayMs) _).trans rfl
  rw [← this]
  rfl

theorem byteAt_dayShown_tables {x : Nat} (hm : ¬inField hdrMs 6 x) (hl : ∀ n, ¬inWindowClose s n x) :
    (dayShown s).mem.byteAt x = (dayTables s.mem).byteAt x :=
  (byteAt_dayShown h hm).trans ((dayOpened_rolled h).bytes x fun n _ => hl n)

omit h in
theorem inWindowClose_region {n : Fin 4} {x : Nat} (hx : inWindowClose s n x) :
    (18 ≤ x ∧ x < 26) ∨ (0x1100 ≤ x ∧ x < 0x1500) ∨ (0x4200 ≤ x ∧ x < 0x6200) := by
  have hn := n.isLt
  have hp := nextFlowPosition_lt (s.lane n).flowPosition
  unfold inWindowClose inField laneBlockBase hdrFlow flowBase at hx
  omega

/-- The header behind the flow positions stands. -/
theorem byteAt_dayShown_low {x : Nat} (h1 : 26 ≤ x) (h2 : x < 0x1100) : (dayShown s).mem.byteAt x = s.mem.byteAt x := by
  rw [byteAt_dayShown_tables h (by unfold inField hdrMs; omega) fun n hn => ?_]
  · exact byteAt_dayTables h (by unfold inField closureBase; omega) (by unfold inField stagingBase; omega)
      fun x _ => by unfold inField productBase; omega
  · have := inWindowClose_region hn
    omega

theorem dayShown_flow (n : Fin 4) : flowRecorded s (dayShown s) n := by
  have hrec := (dayOpened_rolled h).records n (by revert n; decide)
  refine flowRecorded_congr (show flowRecorded s (dayOpened s) n from hrec) fun x hx => byteAt_dayShown h ?_
  unfold inField hdrMs hdrFlow flowBase at *
  omega

end

/-! ### The event -/

/-- The state that the rollover's event ends with. -/
def dayBegun (s : State) : State := settleOutputs s (stationRecord .rollover false 0 0 (dayShown s))

theorem rollover_runs {s : State} (he : s.dayEnd = true) (hms : s.ms + 1 = 86400000) (hd : s.day < 65534)
    (hc : s.creditSweep = none) : exec .rollover s = .next (dayBegun s) := by
  rw [dayBegun, ← rollTo_eq hc]
  show execRollover s = _
  unfold execRollover
  rw [if_pos he]
  exact (if_neg (by unfold dayMs; omega)).trans (if_pos hd)

section
variable {s : State} (h : s.mem.wf)
include h

theorem dayBegun_rest : (dayBegun s).rest = (dayTurned s).rest := by
  rw [dayBegun, settleOutputs_rest, stationRecord_rest, dayShown_rest h]

theorem dayBegun_eq :
    dayBegun s = { s with
      mem := (dayBegun s).mem, attn := (dayBegun s).attn, lanes := (dayBegun s).lanes, journal := (dayBegun s).journal
      day := s.day + 1, ms := 0, dayEnd := false } := by
  have hports : (dayBegun s).ports = s.ports := by
    rw [dayBegun, settleOutputs_ports, stationRecord_ports, dayShown_ports]
  have heq := eq_of_rest (dayBegun_rest h)
  rw [hports] at heq
  exact heq

theorem byteAt_dayBegun {x : Nat} (ha : ¬inAppend s x) (hl : ∀ n, ¬inLaneMirror n x) :
    (dayBegun s).mem.byteAt x = (dayShown s).mem.byteAt x := by
  have hm : stateMirror s = stateMirror (stationRecord .rollover false 0 0 (dayShown s)) := by
    have hrest := (stationRecord_rest .rollover false 0 0 (dayShown s)).trans (dayShown_rest h)
    rw [stateMirror, stateMirror, station_of_rest hrest, online_of_rest hrest, freeFlow_of_rest hrest]
    rfl
  rw [dayBegun, byteAt_settleOutputs_outside s (stationRecord_wf _ _ _ _ (dayShown_wf h)) (.inr hm) hl]
  exact byteAt_appendUnpledged _ (dayShown_wf h) fun hx => ha ((inAppend_left dayShown_journal x).1 hx)

theorem dayBegun_lane (m : Fin 4) : (dayBegun s).lane m = rolledLane (dayTurned s) (s.lane m) := by
  have hlane : (stationRecord .rollover false 0 0 (dayShown s)).lane m = rolledLane (dayTurned s) (s.lane m) := by
    rw [lane_of_lanes (stationRecord_lanes ..), dayShown_lane h]
  have hstate : (rolledLane (dayTurned s) (s.lane m)).state = (s.lane m).state := by
    unfold rolledLane
    split <;> rfl
  have hev : (stationRecord .rollover false 0 0 (dayShown s)).evacuate = s.evacuate :=
    (evacuate_of_rest ((stationRecord_rest ..).trans (dayShown_rest h))).trans rfl
  rw [dayBegun, settleOutputs_lane, drivePulse_same, hlane]
  rw [lockReleased, lockReleased, hev, hlane, hstate]

theorem dayBegun_record (hw : s.journal.writeIndex < 1024) (hr : s.journal.readIndex < 1024) :
    unpledgedRecord s (dayBegun s) ⟨none, s.day + 1, 0, [], none, .station .rollover s.online false 0 0⟩ := by
  have hspec := stationRecord_spec .rollover false 0 0 (dayShown_wf h) (by rw [dayShown_journal]; exact hw)
    (by rw [dayShown_journal]; exact hr)
  rw [day_of_rest (dayShown_rest h), ms_of_rest (dayShown_rest h), online_of_rest (dayShown_rest h)] at hspec
  refine unpledgedRecord_left (unpledgedRecord_right hspec (settleOutputs_journal ..) (fun x hx => ?_)
    ⟨by rw [dayBegun, settleOutputs_attn], by rw [dayBegun, settleOutputs_attn]⟩) dayShown_journal ?_ ?_
  · have := inAppend_region (by rw [dayShown_journal]; exact hw) hx
    refine byteAt_settleOutputs_outside s (stationRecord_wf _ _ _ _ (dayShown_wf h)) (.inl ?_) fun n hn => ?_
    · unfold inField hdrState
      omega
    · have := inLaneMirror_region hn
      omega
  · rw [sameCauses, dayShown_attn]
    simp
  · rw [thresholdOf, thresholdOf, State.peek, Memory.read_congr fun x h1 h2 => byteAt_dayShown_low h (x := x)
      (by unfold hdrThreshold at h1; omega) (by unfold hdrThreshold at h2; omega)]
    rfl

omit h in
theorem dayBegun_attn : attnRaised s (dayBegun s) 0x40 := by
  obtain ⟨j, hj, ha⟩ := appendUnpledged_attn
    (mkRecord (dayShown s) none [] none (.station .rollover (dayShown s).online false 0 0)) (dayShown s)
  refine ⟨j, hj, ?_⟩
  rw [dayBegun, settleOutputs_attn, stationRecord, ha, dayShown_attn]
  rfl

variable (hw : s.journal.writeIndex < 1024)
include hw

/-- From the Cue Table to the Staging Area the event leaves what the new day's tables hold. -/
theorem byteAt_dayBegun_tables {x : Nat} (h1 : 0x1500 ≤ x) (h2 : x < 0x4200) :
    (dayBegun s).mem.byteAt x = (dayTables s.mem).byteAt x := by
  rw [byteAt_dayBegun h (fun ha => ?_) fun n hn => ?_, byteAt_dayShown_tables h ?_ fun n hn => ?_]
  · unfold inField hdrMs
    omega
  · have := inWindowClose_region hn
    omega
  · have := inAppend_region hw ha
    omega
  · have := inLaneMirror_region hn
    omega

theorem dayBegun_tables (hi : ∀ x ∈ readStaging s.mem, x.1 < 64) (hn : ((readStaging s.mem).map (·.1)).Nodup) :
    (∀ x ∈ readStaging s.mem, (dayBegun s).product x.1 = x.2) ∧ readStaging (dayBegun s).mem = []
      ∧ heldClosures (dayBegun s).mem = [] := by
  refine ⟨fun x hx => ?_, ?_, ?_⟩
  · rw [← readProduct_dayTables h hi hn x hx]
    have := hi x hx
    exact readProduct_congr fun a ha => byteAt_dayBegun_tables h hw (by unfold inField productBase at ha; omega)
      (by unfold inField productBase at ha; omega)
  · rw [← readStaging_dayTables h]
    exact readStaging_congr fun a ha => byteAt_dayBegun_tables h hw (by unfold inField stagingBase at ha; omega)
      (by unfold inField stagingBase at ha; omega)
  · rw [← heldClosures_dayTables h]
    refine List.filter_congr fun i hi => (closure_congr fun a ha => byteAt_dayBegun_tables h hw ?_ ?_).1
    · unfold inField closureBase at ha
      omega
    · have := List.mem_range.1 hi
      unfold inField closureBase at ha
      omega

theorem dayBegun_time (hd : s.day < 65534) : (dayBegun s).peek hdrDay 2 = s.day + 1 ∧ (dayBegun s).peek hdrMs 4 = 0 := by
  obtain ⟨hday, hms⟩ := dayShown_time h hd
  have shown : ∀ x, 8 ≤ x → x < 14 → (dayBegun s).mem.byteAt x = (dayShown s).mem.byteAt x := fun x h1 h2 =>
    byteAt_dayBegun h (fun ha => by have := inAppend_region hw ha; omega) fun n hn => by
      have := inLaneMirror_region hn
      omega
  exact ⟨(Memory.read_congr fun x h1 h2 => shown x (by unfold hdrDay at h1; omega) (by unfold hdrDay at h2; omega)).trans hday,
    (Memory.read_congr fun x h1 h2 => shown x (by unfold hdrMs at h1; omega) (by unfold hdrMs at h2; omega)).trans hms⟩

theorem dayBegun_flow (n : Fin 4) : flowRecorded s (dayBegun s) n := by
  have hp := nextFlowPosition_lt (s.lane n).flowPosition
  have hn := n.isLt
  refine flowRecorded_congr (dayShown_flow h n) fun x hx => byteAt_dayBegun h (fun ha => ?_) fun m hm => ?_
  · have := inAppend_region hw ha
    unfold inField hdrFlow flowBase at hx
    omega
  · have := inLaneMirror_region hm
    unfold inField hdrFlow flowBase at hx
    omega

omit hw in
theorem dayBegun_keepsBytes :
    keepsBytes s (dayBegun s) (fun a =>
      inAppend s a ∨ inField hdrMs 6 a ∨ inField (hdrFlow 0) 8 a ∨ inField (closureBase 0) 128 a
        ∨ inField (stagingBase 0) 1024 a ∨ (∃ x ∈ readStaging s.mem, inField (productBase x.1) 128 a)
        ∨ ∃ n : Fin 4, inLaneMirror n a
            ∨ inField (flowBase n.val (nextFlowPosition (s.lane n).flowPosition)) 32 a) := by
  intro a ha
  simp only [not_or, not_exists, not_and] at ha
  obtain ⟨happend, hms, hflow, hclosure, hstaging, hproduct, hlanes⟩ := ha
  rw [byteAt_dayBegun h happend fun n => (hlanes n).1, byteAt_dayShown_tables h hms fun n hn => ?_]
  · exact byteAt_dayTables h hclosure hstaging hproduct
  · rcases hn with hn | hn | hn
    · exact (hlanes n).1 (.inr (.inr (.inr (.inl hn))))
    · refine hflow ?_
      have := n.isLt
      unfold inField hdrFlow at *
      omega
    · exact (hlanes n).2 hn

end

/-! ### A SET_TIME in between (R41) -/

theorem rollover_advances {s : State} (he : s.dayEnd = true) (hms : s.ms + 1 < 86400000) :
    exec .rollover s = .next (addMs { s with dayEnd := false }) := by
  have hrun : exec .rollover s = .next (settleOutputs s (addMs { s with dayEnd := false })) := by
    show execRollover s = _
    unfold execRollover
    rw [if_pos he]
    exact if_pos hms
  rw [hrun]
  refine congrArg _ (settleOutputs_quiet ?_ ?_ ?_ ?_)
  all_goals
    unfold addMs
    dsimp only
    split <;> rfl

theorem addMs_second {s : State} (hs : (s.ms + 1) % 1000 = 0) : addMs s = writeTimeMirror { s with ms := s.ms + 1 } :=
  if_pos hs

theorem addMs_within {s : State} (hs : (s.ms + 1) % 1000 ≠ 0) : addMs s = { s with ms := s.ms + 1 } := if_neg hs

/-- The header shows a station time of a whole second. -/
theorem writeTimeMirror_shows {s : State} (h : s.mem.wf) (hs : s.ms % 1000 = 0) (hm : s.ms < 86400000)
    (hd : s.day < 65536) :
    (writeTimeMirror s).peek hdrMs 4 = s.ms ∧ (writeTimeMirror s).peek hdrDay 2 = s.day
      ∧ keepsBytes s (writeTimeMirror s) (inField hdrMs 6) := by
  have hw := Memory.write_wf h hdrMs 4 (s.ms / 1000 * 1000)
  refine ⟨(Memory.read_write_outside hw (by unfold hdrMs hdrDay; omega)).trans ((Memory.read_write h _ _ _).trans ?_),
    (Memory.read_write hw _ _ _).trans (by omega), fun a ha => ?_⟩
  · rw [Nat.mod_eq_of_lt (by omega)]
    omega
  · unfold inField hdrMs at ha
    exact (Memory.byteAt_write_outside hw (by unfold hdrDay; omega)).trans
      (Memory.byteAt_write_outside h (by unfold hdrMs; omega))

/-- Settles O7: the event is the new day begun, and between a SET_TIME and its tick only a millisecond added. -/
theorem rolloverStartsNewDay : Obligations.RolloverStartsNewDay := by
  refine ⟨fun s hok he hms hd hc hi hn => ?_, fun s h hms hd => ⟨fun he hlt => ?_, fun he => ?_⟩⟩
  · obtain ⟨h, hw, hr⟩ := hok
    obtain ⟨hprod, hstaged, hclosed⟩ := dayBegun_tables h hw hi hn
    obtain ⟨hday, hzero⟩ := dayBegun_time h hw hd
    refine ⟨dayBegun s, rollover_runs he hms hd hc, dayBegun_eq h, hprod, hstaged, hclosed, fun n hnone => ?_,
      fun n w hsome => ?_, hday, hzero, dayBegun_attn, dayBegun_record h hw hr, dayBegun_keepsBytes h⟩
    · rw [dayBegun_lane h, rolledLane, hnone]
    · obtain ⟨hrecord, hindex⟩ := dayBegun_flow h hw n w hsome
      refine ⟨?_, hindex, hrecord⟩
      rw [dayBegun_lane h, rolledLane, hsome]
      rfl
  · refine ⟨addMs { s with dayEnd := false }, rollover_advances he hlt, ?_, fun hs => ?_, fun hs => ?_⟩
    · by_cases hs : (s.ms + 1) % 1000 = 0
      · rw [addMs_second (s := { s with dayEnd := false }) hs]
        rfl
      · rw [addMs_within (s := { s with dayEnd := false }) hs]
    · rw [addMs_second (s := { s with dayEnd := false }) hs]
      exact writeTimeMirror_shows (s := { s with ms := s.ms + 1, dayEnd := false }) h hs hlt hd
    · rw [addMs_within (s := { s with dayEnd := false }) hs]
  · show execRollover s = _
    unfold execRollover
    rw [if_neg (by rw [he]; decide)]

end Sys2Proof.Machine
end

section
/-! PROOFS. The values that State.reset leaves in every block (R25, R31, R42, R58, R86, R88). -/

namespace Sys2Proof.Machine

/-- Settles O2: the reset state field by field, its lanes and ports read back. -/
theorem resetLeavesStatedValues : Obligations.ResetLeavesStatedValues := by
  refine ⟨rfl, rfl, rfl, rfl, rfl, rfl, rfl, rfl, rfl, rfl, rfl, rfl, fun n => ?_, fun p => ?_⟩
  · rw [lane_reset]
    exact ⟨rfl, rfl, rfl, rfl, rfl, rfl, rfl, rfl, rfl, rfl, rfl, rfl⟩
  · have port_reset : State.reset.port p = .atReset := by fin_cases p <;> rfl
    rw [port_reset]
    exact ⟨rfl, rfl, rfl, rfl, rfl, rfl, rfl⟩

end Sys2Proof.Machine
end

section
/-! PROOFS. What keeps station time: orders that wait, quieting, free flow and the scans leave the Time Base alone (R27, R30). -/

namespace Sys2Proof.Machine

/-! ### What keeps station time -/

/-- Station time stands, and the station is RUNNING or QUIETING only where it was. -/
structure KeepsTime (s t : State) : Prop where
  day : t.day = s.day
  ms : t.ms = s.ms
  timeSet : t.timeSet = s.timeSet
  station : t.station = .running ∨ t.station = .quieting → s.station = .running ∨ s.station = .quieting

theorem KeepsTime.refl (s : State) : KeepsTime s s := ⟨rfl, rfl, rfl, id⟩

theorem KeepsTime.trans {s t u : State} (h : KeepsTime s t) (k : KeepsTime t u) : KeepsTime s u :=
  ⟨k.day.trans h.day, k.ms.trans h.ms, k.timeSet.trans h.timeSet, fun hu => h.station (k.station hu)⟩

theorem KeepsTime.of_rest {s t : State} (h : t.rest = s.rest) : KeepsTime s t :=
  ⟨day_of_rest h, ms_of_rest h, timeSet_of_rest h, fun ht => station_of_rest h ▸ ht⟩

/-- An operation that keeps the rest, after one that keeps station time. -/
theorem KeepsTime.then {s t u : State} (h : KeepsTime s t) (k : u.rest = t.rest) : KeepsTime s u := h.trans (.of_rest k)

theorem KeepsTime.foldl {α : Type} {f : State → α → State} (h : ∀ s x, KeepsTime s (f s x)) (l : List α) (s : State) :
    KeepsTime s (l.foldl f s) := by
  induction l generalizing s with
  | nil => exact .refl s
  | cons x l ih => exact (h s x).trans (ih (f s x))

theorem KeepsTime.eachLane {f : Fin 4 → State → State} (h : ∀ n s, KeepsTime s (f n s)) (s : State) :
    KeepsTime s (eachLane f s) :=
  KeepsTime.foldl (fun s n => h n s) allFour s

/-! ### Orders that wait, quieting and free flow -/

theorem carrySetLane_keepsTime (o : LaneOrder) (s : State) : KeepsTime s (carrySetLane o s) := by
  have waits : KeepsTime s { s with lanesWaiting := s.lanesWaiting ++ [o] } := ⟨rfl, rfl, rfl, id⟩
  unfold carrySetLane
  dsimp only
  repeat' split
  all_goals first | exact waits | exact .of_rest (by simp)

theorem runWaiting_keepsTime (n : Fin 4) (s : State) : KeepsTime s (runWaiting n s) :=
  KeepsTime.trans (t := { s with lanesWaiting := s.lanesWaiting.filter (fun o => o.lane ≠ n) }) ⟨rfl, rfl, rfl, id⟩
    (KeepsTime.foldl (fun s o => carrySetLane_keepsTime o s) _ _)

theorem completeQuieting_keepsTime (s : State) : KeepsTime s (completeQuieting s) := by
  have windows : (stationRecord .quiet false 0 0 (eachLane closeAtQuiet
      { s with lanes := s.lanes.mapIdx fun _ l => l.quietDown })).rest = s.rest := by
    rw [stationRecord_rest, eachLane_rest closeAtQuiet_rest]
    rfl
  have quiets (u : State) : KeepsTime u { u with station := .quiet } :=
    ⟨rfl, rfl, rfl, fun h => absurd h (by simp)⟩
  exact ((KeepsTime.of_rest windows).trans (quiets _)).then (changeService_rest ..)

theorem quietIfIdle_keepsTime (s : State) : KeepsTime s (quietIfIdle s) := by
  unfold quietIfIdle
  split
  · exact completeQuieting_keepsTime s
  · exact .refl s

theorem afterBusy_keepsTime (n : Fin 4) (s : State) : KeepsTime s (afterBusy n s) :=
  (runWaiting_keepsTime n s).trans (quietIfIdle_keepsTime _)

theorem freeLane_keepsTime (n : Fin 4) (s : State) : KeepsTime s (freeLane n s) := by
  unfold freeLane
  repeat' split
  case h_5 => exact (KeepsTime.of_rest (enterFree_rest n s)).trans (runWaiting_keepsTime n _)
  all_goals exact .of_rest (by simp)

theorem startFreeFlow_keepsTime (byEvacuate : Bool) (s : State) : KeepsTime s (startFreeFlow byEvacuate s) := by
  unfold startFreeFlow
  split
  · exact .refl s
  · have starts : KeepsTime s { s with freeFlow := true } := ⟨rfl, rfl, rfl, id⟩
    exact ((starts.then (stationRecord_rest ..)).trans (KeepsTime.eachLane freeLane_keepsTime _)).trans
      (quietIfIdle_keepsTime _)

theorem endFreeFlow_keepsTime (s : State) : KeepsTime s (endFreeFlow s) := by
  have ends : KeepsTime s { s with freeFlow := false } := ⟨rfl, rfl, rfl, id⟩
  exact (ends.then (eachLane_rest leaveFree_rest _)).then (stationRecord_rest ..)

theorem assertEvacuate_keepsTime (s : State) : KeepsTime s (assertEvacuate s) :=
  (KeepsTime.of_rest (raise_rest s .evacuate)).trans (startFreeFlow_keepsTime true _)

/-! ### The scans -/

theorem placeProduct_rest (index : Nat) (p : Product) (immediate : Bool) (s : State) :
    (placeProduct index p immediate s).rest = s.rest := by
  unfold placeProduct placeNow stageRecord
  split
  · exact with_mem_rest s _
  · exact with_mem_rest s _

theorem beginWithdrawal_keepsTime (o : WithdrawalOrder) (s : State) : KeepsTime s (beginWithdrawal o s) := by
  unfold beginWithdrawal
  split
  · exact .of_rest (endOrder_rest ..)
  · split
    · exact (KeepsTime.of_rest (placeProduct_rest ..)).then (endOrder_rest ..)
    · exact ⟨rfl, rfl, rfl, id⟩

theorem startWithdrawals_keepsTime (l : List WithdrawalOrder) (s : State) : KeepsTime s (startWithdrawals l s) := by
  induction l generalizing s with
  | nil => exact ⟨rfl, rfl, rfl, id⟩
  | cons o os ih =>
    have begins := beginWithdrawal_keepsTime o s
    unfold startWithdrawals
    dsimp only
    split
    · exact begins.trans ⟨rfl, rfl, rfl, id⟩
    · exact begins.trans (ih _)

theorem endScanClean_rest (o : WithdrawalOrder) (s : State) : (endScanClean o s).rest = s.rest := by
  unfold endScanClean
  split
  · exact endOrder_rest ..
  · rw [endOrder_rest, placeProduct_rest]

theorem nextWithdrawals_keepsTime (s : State) : KeepsTime s (nextWithdrawals s) := startWithdrawals_keepsTime _ s

theorem scanStep_keepsTime (w : WithdrawalScan) (s : State) : KeepsTime s (scanStep w s) := by
  have frees : KeepsTime s { s with withdrawal := none } := ⟨rfl, rfl, rfl, id⟩
  have inUse := (frees.then (endOrder_rest w.order.slot .inUse _)).trans (nextWithdrawals_keepsTime _)
  unfold scanStep
  repeat' split
  · exact inUse
  · exact ⟨rfl, rfl, rfl, id⟩
  · exact inUse
  · exact ⟨rfl, rfl, rfl, id⟩
  · exact (frees.then (endScanClean_rest w.order _)).trans (nextWithdrawals_keepsTime _)

theorem beginClosure_keepsTime (o : ClosureOrder) (s : State) : KeepsTime s (beginClosure o s) := by
  unfold beginClosure
  repeat' split
  · exact .of_rest (endOrder_rest ..)
  · exact ⟨rfl, rfl, rfl, id⟩
  · exact .of_rest (endOrder_rest ..)

theorem startClosures_keepsTime (l : List ClosureOrder) (s : State) : KeepsTime s (startClosures l s) := by
  induction l generalizing s with
  | nil => exact ⟨rfl, rfl, rfl, id⟩
  | cons o os ih =>
    have begins := beginClosure_keepsTime o s
    unfold startClosures
    dsimp only
    split
    · exact begins.trans ⟨rfl, rfl, rfl, id⟩
    · exact begins.trans (ih _)

theorem endSweep_keepsTime (c : CreditSweep) (cut : Bool) (s : State) : KeepsTime s (endSweep c cut s) := by
  have frees : KeepsTime s { s with creditSweep := none } := ⟨rfl, rfl, rfl, id⟩
  exact (((frees.then (pokeResult_rest ..)).then (endOrder_rest ..)).then (appendUnpledged_rest ..)).trans
    (startClosures_keepsTime _ _)

theorem cutSweepShort_keepsTime (s : State) : KeepsTime s (cutSweepShort s) := by
  unfold cutSweepShort
  split
  · exact endSweep_keepsTime _ true s
  · exact .refl s

theorem sweepStep_keepsTime (c : CreditSweep) (s : State) : KeepsTime s (sweepStep c s) := by
  have credits : KeepsTime s (if visitCredits s c.position then
      s.putPass c.position (creditEntry s.day (s.pass c.position)) else s) := by
    split
    · exact .of_rest (putPass_rest ..)
    · exact .refl s
  unfold sweepStep
  dsimp only
  split
  · exact credits.trans ⟨rfl, rfl, rfl, id⟩
  · exact credits.trans (endSweep_keepsTime _ false _)

end Sys2Proof.Machine
end

section
/-! PROOFS. What keeps station time, continued: the bodies of the orders, the reader lines, the passages and the Host Port. -/

namespace Sys2Proof.Machine

/-! ### The bodies of the orders -/

theorem noteReference_keepsTime (index slot : Nat) (s : State) : KeepsTime s (noteReference index slot s) :=
  ⟨rfl, rfl, rfl, id⟩

theorem acceptInsert_keepsTime (k : Fin 32) (uid : List Byte) (slot : Nat) (e : PassEntry) (s : State) :
    KeepsTime s (acceptInsert k uid slot e s) := by
  have ended := (KeepsTime.of_rest (putPass_rest s slot e)).then (endOrder_rest k .ok _)
  have noted := ended.trans (noteReference_keepsTime e.product slot _)
  unfold acceptInsert reevaluateAll
  exact noted.then (eachLane_rest (reevaluate_rest uid slot) _)

theorem insertPass_keepsTime (k : Fin 32) (s : State) : KeepsTime s (insertPass k s) := by
  have ends (r : Result) : KeepsTime s (endOrder k r s) := .of_rest (endOrder_rest k r s)
  unfold insertPass
  split
  · exact ends _
  · dsimp only
    split
    · exact ends _
    · split
      · split
        · exact ends _
        · exact acceptInsert_keepsTime ..
      · split
        · exact ends _
        · split
          · exact ends _
          · exact acceptInsert_keepsTime ..

theorem amendPass_keepsTime (k : Fin 32) (s : State) : KeepsTime s (amendPass k s) := by
  unfold amendPass
  repeat' split
  all_goals exact .of_rest (by simp)

theorem removePass_keepsTime (k : Fin 32) (s : State) : KeepsTime s (removePass k s) := by
  unfold removePass
  repeat' split
  all_goals exact .of_rest (by simp)

theorem copyPass_keepsTime (k : Fin 32) (s : State) : KeepsTime s (copyPass k s) := by
  unfold copyPass
  repeat' split
  all_goals exact .of_rest (by simp)

theorem declineReferral_keepsTime (k : Fin 32) (s : State) : KeepsTime s (declineReferral k s) := by
  unfold declineReferral
  repeat' split
  all_goals exact .of_rest (by simp)

theorem settleQuote_keepsTime (k : Fin 32) (s : State) : KeepsTime s (settleQuote k s) := by
  unfold settleQuote
  repeat' split
  all_goals exact .of_rest (by simp [pokeSettlement])

theorem settleFinal_keepsTime (k : Fin 32) (s : State) : KeepsTime s (settleFinal k s) := by
  unfold settleFinal
  repeat' split
  all_goals exact .of_rest (by simp [acceptFinal, pokeSettlement])

theorem stageProduct_keepsTime (k : Fin 32) (s : State) : KeepsTime s (stageProduct k s) := by
  unfold stageProduct
  dsimp only
  repeat' split
  case isFalse.isTrue.isTrue => exact beginWithdrawal_keepsTime _ s
  case isFalse.isTrue.isFalse.isTrue => exact ⟨rfl, rfl, rfl, id⟩
  case isFalse.isTrue.isFalse.isFalse => exact beginWithdrawal_keepsTime _ s
  all_goals exact .of_rest (by simp [placeProduct_rest])

theorem postClosure_keepsTime (k : Fin 32) (s : State) : KeepsTime s (postClosure k s) := by
  unfold postClosure
  dsimp only
  repeat' split
  · exact .of_rest (endOrder_rest ..)
  · exact ⟨rfl, rfl, rfl, id⟩
  · exact beginClosure_keepsTime _ s

theorem setLaneOrder_keepsTime (k : Fin 32) (s : State) : KeepsTime s (setLaneOrder k s) := by
  unfold setLaneOrder
  repeat' split
  · exact .of_rest (endOrder_rest ..)
  · exact carrySetLane_keepsTime _ s
  · exact .of_rest (endOrder_rest ..)

theorem mapInputsOrder_keepsTime (k : Fin 32) (s : State) : KeepsTime s (mapInputsOrder k s) := by
  have ends (r : Result) (u : State) : KeepsTime u (endOrder k r u) := .of_rest (endOrder_rest k r u)
  unfold mapInputsOrder
  repeat' split
  · exact ends ..
  · exact ends ..
  · exact ends ..
  · refine KeepsTime.trans ?_ (ends ..)
    exact ⟨rfl, rfl, rfl, id⟩

theorem freeFlowOn_keepsTime (k : Fin 32) (s : State) : KeepsTime s (freeFlowOn k s) := by
  unfold freeFlowOn
  split
  · exact (startFreeFlow_keepsTime false s).then (endOrder_rest ..)
  · exact .of_rest (endOrder_rest ..)

theorem freeFlowOff_keepsTime (k : Fin 32) (s : State) : KeepsTime s (freeFlowOff k s) := by
  unfold freeFlowOff
  repeat' split
  · exact .of_rest (endOrder_rest ..)
  · exact (endFreeFlow_keepsTime s).then (endOrder_rest ..)
  · exact .of_rest (endOrder_rest ..)

/-! ### Lines, passages and the Host Port -/

theorem handTap_keepsTime (q : TapRecord) (s : State) : KeepsTime s (handTap q s) := by
  unfold handTap
  split
  · exact ⟨rfl, rfl, rfl, id⟩
  · exact .of_rest (takeReturnTap_rest q s)
  · exact .refl s

theorem actTap_keepsTime (p : Fin 4) (quality stamp : Nat) (uid : List Byte) (s : State) :
    KeepsTime s (actTap p quality stamp uid s) := by
  have heard : KeepsTime s (s.modPort p fun x => { x with repeatRec := some ⟨uid, s.now⟩ }) := .of_rest (modPort_rest ..)
  unfold actTap
  dsimp only
  repeat' split
  · exact .refl s
  · exact .refl s
  · exact .refl s
  · exact handTap_keepsTime _ s
  · exact heard
  · exact heard.trans (handTap_keepsTime _ _)

theorem handleFrame_keepsTime (p : Fin 4) (body : List Byte) (s : State) : KeepsTime s (handleFrame p body s) := by
  have heard := KeepsTime.of_rest (hearFrame_rest p s)
  unfold handleFrame
  split
  · exact .refl s
  · exact heard.trans (actTap_keepsTime ..)
  · exact heard.then (actGone_rest ..)
  · exact heard.then (actStatus_rest ..)

theorem receiveByte_keepsTime (p : Fin 4) (b : LineByte) (s : State) : KeepsTime s (receiveByte p b s) := by
  unfold receiveByte
  repeat' split
  case h_4.isFalse.isTrue => exact (KeepsTime.of_rest (modPort_rest ..)).trans (handleFrame_keepsTime ..)
  all_goals exact .of_rest (by simp)

theorem receiveLine_keepsTime (p : Fin 4) (line : List LineByte) (s : State) : KeepsTime s (receiveLine p line s) := by
  induction line generalizing s with
  | nil => exact .refl s
  | cons b bs ih => exact (receiveByte_keepsTime p b s).trans (ih _)

theorem endPassage_keepsTime (n : Fin 4) (p : Passage) (s : State) : KeepsTime s (endPassage n p s) := by
  unfold endPassage
  split
  · exact (KeepsTime.of_rest (modLane_rest ..)).trans (afterBusy_keepsTime n _)
  · exact (KeepsTime.of_rest (enterReady_rest n s)).trans (afterBusy_keepsTime n _)

theorem confirmCapture_keepsTime (n : Fin 4) (c : Capture) (s : State) : KeepsTime s (confirmCapture n c s) :=
  KeepsTime.trans (.of_rest (by simp)) (afterBusy_keepsTime n _)

theorem abortCapture_keepsTime (n : Fin 4) (c : Capture) (s : State) : KeepsTime s (abortCapture n c s) :=
  KeepsTime.trans (.of_rest (by simp)) (afterBusy_keepsTime n _)

theorem switchActivation_keepsTime (n : Fin 4) (s : State) : KeepsTime s (switchActivation n s) := by
  unfold switchActivation
  split
  · exact confirmCapture_keepsTime n _ s
  · exact .of_rest (modLane_rest ..)

theorem scanTo_keepsTime (visit : Nat) (s : State) : KeepsTime s (scanTo visit s) := by
  have marked : KeepsTime s ((liveSlots s.mem s.startPos (min visit passSlots)).foldl
      (fun t slot => setMarker slot none t) s) := KeepsTime.foldl (fun t _ => .of_rest (setMarker_rest ..)) _ s
  have orders (u : State) (k : Fin 32) : KeepsTime u (resetOrder s.startPos visit u k) := by
    unfold resetOrder
    split
    · exact .of_rest (endOrder_rest ..)
    · exact .refl u
  exact (marked.trans (KeepsTime.foldl orders _ _)).trans ⟨rfl, rfl, rfl, id⟩

theorem hostWrite_keepsTime (a : Nat) (v : Word) (s : State) : KeepsTime s (hostWrite a v s) := by
  have advances : KeepsTime s (advanceStart s) := by
    unfold advanceStart
    split
    · exact ⟨rfl, rfl, rfl, id⟩
    · exact (scanTo_keepsTime _ s).trans ⟨rfl, rfl, rfl, id⟩
    · exact .refl s
  have offers (u : State) : KeepsTime u (offerReadIndex v.toNat u) := by
    unfold offerReadIndex
    split
    · exact .of_rest (drainHeld_rest ..)
    · exact .refl u
  have written := advances.then (poke_rest _ a 2 v.toNat)
  unfold hostWrite
  dsimp only
  split
  · exact written.trans (offers _)
  · exact written

theorem requestQuiet_keepsTime (s : State) : KeepsTime s (requestQuiet s) := by
  unfold requestQuiet
  split
  · next hs =>
    have quieting : KeepsTime s
        { s with station := .quieting, tapQueue := [], presenceTimer := 0, presenceDue := false } :=
      ⟨rfl, rfl, rfl, fun _ => .inl hs⟩
    exact (quieting.then (eachLane_rest windDown_rest _)).trans (quietIfIdle_keepsTime _)
  · exact .refl s

theorem goOffline_keepsTime (s : State) : KeepsTime s (goOffline s) := by
  have lost : KeepsTime s { s with online := false } := ⟨rfl, rfl, rfl, id⟩
  exact ((lost.then (raise_rest _ .presence)).then (stationRecord_rest ..)).then (eachLane_rest markOffline_rest _)

theorem goOnline_keepsTime (s : State) : KeepsTime s (goOnline s) := by
  have back : KeepsTime s { s with online := true } := ⟨rfl, rfl, rfl, id⟩
  exact (back.then (raise_rest _ .presence)).then (stationRecord_rest ..)

theorem samplePresence_keepsTime (s : State) : KeepsTime s (samplePresence s) := by
  have sampled (v c : Nat) : KeepsTime s { s with presenceDue := false, presenceValue := v, presenceCount := c } :=
    ⟨rfl, rfl, rfl, id⟩
  unfold samplePresence
  dsimp only
  repeat' split
  · exact (sampled s.presenceValue _).trans (goOffline_keepsTime _)
  · exact sampled s.presenceValue _
  · exact sampled _ 0
  · exact (sampled _ 0).trans (goOnline_keepsTime _)

theorem sweepVisit_keepsTime (s : State) : KeepsTime s (sweepVisit s) := by
  unfold sweepVisit
  repeat' split
  · exact .refl s
  · exact ⟨rfl, rfl, rfl, id⟩
  · exact ⟨rfl, rfl, rfl, id⟩
  · exact .refl s

end Sys2Proof.Machine
end

section
/-! PROOFS. Every command that is no reset, TICK, ROLLOVER, SET_TIME or RUN keeps station time. -/

namespace Sys2Proof.Machine

/-! ### The commands that keep station time -/

/-- Whatever a command answers next, it keeps station time. -/
def AnswersKeeping (s : State) (o : Host.Outcome State Fault Refusal) : Prop := ∀ t, o = .next t → KeepsTime s t

theorem KeepsTime.next {s t : State} (h : KeepsTime s t) : AnswersKeeping s (.next t) := by
  intro u hu
  cases hu
  exact h

theorem KeepsTime.event {s u : State} (h : KeepsTime s u) : AnswersKeeping s (event s u) :=
  (h.then (settleOutputs_rest s u)).next

/-- An event or nothing, as a command's guard decides. -/
theorem AnswersKeeping.ite {c : Prop} [Decidable c] {s u : State} (h : KeepsTime s u) :
    AnswersKeeping s (if c then Machine.event s u else .next s) := by
  split
  · exact h.event
  · exact (KeepsTime.refl s).next

theorem visit_answersKeeping (k : Fin 32) (isRow : State → Bool) {body : State → State} (hb : ∀ u, KeepsTime u (body u))
    (s : State) : AnswersKeeping s (visit k isRow body s) := by
  have taken : KeepsTime s (takeSlot k s) := ⟨rfl, rfl, rfl, id⟩
  exact .ite (taken.trans (hb _))

theorem deliver_answersKeeping (p : Fin 4) (line : List LineByte) (s : State) :
    AnswersKeeping s (deliver p line s) := by
  unfold deliver
  split
  · exact (KeepsTime.refl s).next
  · exact (receiveLine_keepsTime p line s).event

/-- An edge taken: the input flips, and a lane that acts on it goes on. -/
theorem edge_keepsTime {n : Fin 4} {acts : Prop} [Decidable acts] {f : Lane → Lane} {g : State → State}
    (h : ∀ u, KeepsTime u (g u)) (s : State) :
    KeepsTime s (if acts then g (s.modLane n f) else s.modLane n f) := by
  have flips : KeepsTime s (s.modLane n f) := .of_rest (modLane_rest s n f)
  split
  · exact flips.trans (h _)
  · exact flips

theorem execTapTake_answersKeeping (s : State) : AnswersKeeping s (execTapTake s) := by
  unfold execTapTake
  split
  · exact (KeepsTime.refl s).next
  · next rest _ =>
    have taken : KeepsTime s { s with tapQueue := rest } := ⟨rfl, rfl, rfl, id⟩
    dsimp only
    split
    · exact (taken.then (handleTap_rest ..)).event
    · exact taken.next

theorem execExitBeamClear_answersKeeping (n : Fin 4) (s : State) : AnswersKeeping s (execExitBeamClear n s) := by
  unfold execExitBeamClear
  dsimp only
  split
  · split
    · next p _ => exact (edge_keepsTime (endPassage_keepsTime n p) s).event
    · exact (KeepsTime.of_rest (modLane_rest ..)).event
  · exact (KeepsTime.refl s).next

theorem execEvacuate_answersKeeping (s : State) : AnswersKeeping s (execEvacuate s) := by
  have sampled : KeepsTime s { s with evacuate := true, evacuatePin := true } := ⟨rfl, rfl, rfl, id⟩
  unfold execEvacuate
  dsimp only
  repeat' split
  · exact KeepsTime.next ⟨rfl, rfl, rfl, id⟩
  · exact sampled.event
  · exact (sampled.trans (assertEvacuate_keepsTime _)).event

/-- The commands that station time does not stand through: the resets, the ends of the fill and the scan, TICK, ROLLOVER,
SET_TIME, and RUN, by request or by register. -/
def movesTime : Instr → Bool
  | .powerOnReset | .pinReset | .fillDone _ | .restartScanDone _ | .tick _ | .rollover | .setTime _ | .runRequest
  | .registerWrite .. => true
  | _ => false

theorem exec_answersKeeping (c : Instr) (hc : movesTime c = false) (s : State) : AnswersKeeping s (exec c s) := by
  have stays := (KeepsTime.refl s).next
  cases c with
  | powerOnReset | pinReset | fillDone | restartScanDone | tick | rollover | setTime | runRequest | registerWrite =>
    exact Bool.noConfusion hc
  | windowEnd => exact (KeepsTime.of_rest (eachLane_rest closeAtEnd_rest s)).event
  | tap p q stamp uid => exact deliver_answersKeeping p (soundLine (frameBytes (tapBody q stamp uid))) s
  | gone p uid => exact deliver_answersKeeping p (soundLine (frameBytes (goneBody uid))) s
  | status p code => exact deliver_answersKeeping p (soundLine (frameBytes [0x03, code])) s
  | badFrame p line => exact deliver_answersKeeping p line s
  | malformedFrame p body => exact deliver_answersKeeping p (soundLine (frameBytes body)) s
  | frameDroppedForLength p length => exact deliver_answersKeeping p (soundLine [0xA5, length]) s
  | gapTimeout p =>
    simp only [exec, execGapTimeout]
    split
    · exact (KeepsTime.of_rest (modPort_rest ..)).next
    · exact stays
  | silent p =>
    simp only [exec, execSilent]
    exact .ite (.of_rest (setCauses_rest ..))
  | showEnd p =>
    simp only [exec, execShowEnd]
    exact (KeepsTime.of_rest (modPort_rest ..)).next
  | tapTake => exact execTapTake_answersKeeping s
  | grantWindow n =>
    simp only [exec, execGrantWindow]
    split
    · exact .ite (.of_rest (voidToReady_rest ..))
    · exact stays
  | holdLimit n =>
    simp only [exec, execHoldLimit]
    split
    · exact .ite (.of_rest (voidToReady_rest ..))
    · exact stays
  | referralTimeout n =>
    simp only [exec, execReferralTimeout]
    split
    · exact .ite (.of_rest (denyReferralToReady_rest ..))
    · exact stays
  | sweep => exact (sweepVisit_keepsTime s).next
  | insertPass k => exact visit_answersKeeping k _ (insertPass_keepsTime k) s
  | amendPass k => exact visit_answersKeeping k _ (amendPass_keepsTime k) s
  | removePass k => exact visit_answersKeeping k _ (removePass_keepsTime k) s
  | readPass k => exact visit_answersKeeping k _ (copyPass_keepsTime k) s
  | declineReferral k => exact visit_answersKeeping k _ (declineReferral_keepsTime k) s
  | settlePassQuote k =>
    simp only [exec, execSettlePassQuote]
    exact visit_answersKeeping k _ (settleQuote_keepsTime k) s
  | settlePassFinal k =>
    simp only [exec, execSettlePassFinal]
    exact visit_answersKeeping k _ (settleFinal_keepsTime k) s
  | stageProduct k => exact visit_answersKeeping k _ (stageProduct_keepsTime k) s
  | withdrawalScan =>
    simp only [exec, execWithdrawalScan]
    split
    · exact .ite (scanStep_keepsTime _ s)
    · exact stays
  | postClosure k => exact visit_answersKeeping k _ (postClosure_keepsTime k) s
  | creditSweep =>
    simp only [exec, execCreditSweep]
    split
    · exact .ite (sweepStep_keepsTime _ s)
    · exact stays
  | setLane k => exact visit_answersKeeping k _ (setLaneOrder_keepsTime k) s
  | mapInputs k => exact visit_answersKeeping k _ (mapInputsOrder_keepsTime k) s
  | freeFlowOn k =>
    simp only [exec, execFreeFlowOn]
    exact visit_answersKeeping k _ (freeFlowOn_keepsTime k) s
  | freeFlowOff k =>
    simp only [exec, execFreeFlowOff]
    exact visit_answersKeeping k _ (freeFlowOff_keepsTime k) s
  | unknownKind k => exact visit_answersKeeping k _ (fun u => .of_rest (endOrder_rest k .unknownKind u)) s
  | quietRequest => exact (requestQuiet_keepsTime s).event
  | attnClear | attnMaskWrite => exact KeepsTime.next ⟨rfl, rfl, rfl, id⟩
  | presenceSample =>
    simp only [exec, execPresenceSample]
    exact .ite (samplePresence_keepsTime s)
  | journalReadIndex v =>
    simp only [exec, execJournalReadIndex]
    exact (hostWrite_keepsTime _ v s).next
  | indexPulse n =>
    simp only [exec, execIndexPulse]
    exact .ite (edge_keepsTime (fun u => .of_rest (pulse_rest n u)) s)
  | entryBeamBlock n =>
    simp only [exec, execEntryBeamBlock]
    exact .ite (edge_keepsTime (fun u => .of_rest (entryBlock_rest n u)) s)
  | entryBeamClear n =>
    simp only [exec, execEntryBeamClear]
    exact .ite (.of_rest (modLane_rest ..))
  | exitBeamBlock n =>
    simp only [exec, execExitBeamBlock]
    exact .ite (edge_keepsTime (fun u => .of_rest (exitBlock_rest n u)) s)
  | exitBeamClear n => exact execExitBeamClear_answersKeeping n s
  | passingEnd n =>
    simp only [exec, execPassingEnd]
    split
    · exact .ite (endPassage_keepsTime n _ s)
    · exact stays
  | settle n =>
    simp only [exec, execSettle]
    split
    · exact .ite (.of_rest (enterReady_rest n s))
    · exact stays
  | beamStuck n exit =>
    simp only [exec, execBeamStuck]
    exact .ite (.of_rest (enterFault_rest ..))
  | switchStuck n =>
    simp only [exec, execSwitchStuck]
    exact .ite (.of_rest (enterFault_rest ..))
  | duckWatchClose n =>
    simp only [exec, execDuckWatchClose]
    repeat' split
    · exact (KeepsTime.of_rest (modLane_rest ..)).next
    · exact stays
    · exact stays
  | captureSwitchActivation n =>
    simp only [exec, execCaptureSwitchActivation]
    exact .ite (edge_keepsTime (switchActivation_keepsTime n) s)
  | captureSwitchRelease n =>
    simp only [exec, execCaptureSwitchRelease]
    exact .ite (.of_rest (modLane_rest ..))
  | captureTimeout n =>
    simp only [exec, execCaptureTimeout]
    split
    · exact .ite (abortCapture_keepsTime n _ s)
    · exact stays
  | evacuate => exact execEvacuate_answersKeeping s
  | evacuateLow =>
    simp only [exec, execEvacuateLow]
    exact KeepsTime.event ⟨rfl, rfl, rfl, id⟩
  | lockPulseEnd n =>
    simp only [exec, execLockPulseEnd]
    repeat' split
    · exact (KeepsTime.of_rest (modLane_rest ..)).next
    · exact stays
    · exact stays
  | cueEntry n =>
    simp only [exec, execCueEntry]
    split
    · exact .ite (.of_rest (modLane_rest ..))
    · exact stays

end Sys2Proof.Machine
end

section
/-! PROOFS. Where station time moves: additions, rollovers and SET_TIME, the pin reset and the ends of fill and scan (R29 to R37). -/

namespace Sys2Proof.Machine

/-! ### Where station time moves (R29 to R37) -/

/-- Station time stays a station time, set while it counts, and from RUNNING or QUIETING it does not go back outside a
reset. -/
def TimeForward (s t : State) : Prop :=
  (timeLaw s → timeLaw t)
    ∧ (s.station = .running ∨ s.station = .quieting → t.station ≠ .starting →
      s.day < t.day ∨ (s.day = t.day ∧ s.ms ≤ t.ms))

/-- Station time moved to a day and a millisecond, and nothing of it moved since. -/
theorem TimeForward.of_moved {s t : State} {day ms : Nat} {set : Bool}
    (h : KeepsTime { s with day := day, ms := ms, timeSet := set } t) (hset : s.timeSet = true → set = true)
    (hvalid : timeLaw s → day ≤ 65534 ∧ ms < 86400000)
    (hforward : s.station = .running ∨ s.station = .quieting → s.day < day ∨ (s.day = day ∧ s.ms ≤ ms)) :
    TimeForward s t := by
  have hday : t.day = day := h.day
  have hms : t.ms = ms := h.ms
  refine ⟨fun law => ⟨hday ▸ (hvalid law).1, hms ▸ (hvalid law).2, fun ht => ?_⟩, fun hs _ => ?_⟩
  · obtain ⟨_, _, counts⟩ := law
    exact h.timeSet.trans (hset (counts (h.station ht)))
  · rw [hday, hms]
    exact hforward hs

theorem KeepsTime.forward {s t : State} (h : KeepsTime s t) : TimeForward s t :=
  .of_moved (day := s.day) (ms := s.ms) (set := s.timeSet) h id (fun ⟨hday, hms, _⟩ => ⟨hday, hms⟩)
    fun _ => .inr ⟨rfl, Nat.le_refl _⟩

/-- A reset: station time begins at day 0, millisecond 0. -/
theorem TimeForward.of_reset {s t : State} (hs : t.station = .starting) (hday : t.day = 0) (hms : t.ms = 0) :
    TimeForward s t := by
  refine ⟨fun _ => ⟨by omega, by omega, fun ht => ?_⟩, fun _ ht => absurd hs ht⟩
  rw [hs] at ht
  simp at ht

theorem addMs_moves (s : State) : KeepsTime { s with ms := s.ms + 1 } (addMs s) := by
  unfold addMs
  dsimp only
  split
  · exact .of_rest (writeTimeMirror_rest _)
  · exact .refl _

theorem rollTo_moves (day : Nat) (cut : Bool) (s : State) : KeepsTime { s with day := day, ms := 0 } (rollTo day cut s) := by
  have staged : KeepsTime { s with day := day, ms := 0 } (applyStaging { s with day := day, ms := 0 }) := ⟨rfl, rfl, rfl, id⟩
  have cleared := staged.then (with_mem_rest _ (clearClosures (applyStaging { s with day := day, ms := 0 }).mem))
  have swept := cleared.trans (cutSweepShort_keepsTime _)
  have rolled := swept.then (eachLane_rest (closeAtRollover_rest cut (if cut then s.ms else dayMs)) _)
  unfold rollTo
  dsimp only
  exact ((rolled.then (writeTimeMirror_rest _)).then (raise_rest _ .rollover)).then (stationRecord_rest ..)

theorem moveTime_moves (day ms : Nat) (s : State) : KeepsTime { s with day := day, ms := ms } (moveTime day ms s) := by
  unfold moveTime
  split
  · next h =>
    subst h
    exact .refl _
  · split
    · have rolled := rollTo_moves day true s
      exact ⟨rolled.day, rfl, rolled.timeSet, rolled.station⟩
    · have cleared : KeepsTime { s with day := day, ms := ms }
          { s with day := day, ms := ms, mem := clearClosures s.mem } := ⟨rfl, rfl, rfl, id⟩
      exact cleared.trans (cutSweepShort_keepsTime _)

theorem handStep_rest (day ms : Nat) (s : State) : (handStep day ms s).rest = s.rest := by
  unfold handStep
  repeat' split
  · rfl
  · exact eachLane_rest (stepWindow_rest ms) s
  · rfl
  · exact eachLane_rest replaceWindow_rest s

theorem acceptTime_moves (k : Fin 32) (day ms : Nat) (s : State) :
    KeepsTime { s with day := day, ms := ms, timeSet := true } (acceptTime k day ms s) := by
  have moved := ((moveTime_moves day ms s).then (writeTimeMirror_rest _)).then
    (stationRecord_rest .setTime false s.day s.ms _)
  have set : KeepsTime { s with day := day, ms := ms, timeSet := true }
      { stationRecord .setTime false s.day s.ms (writeTimeMirror (moveTime day ms s)) with timeSet := true } :=
    ⟨moved.day, moved.ms, rfl, moved.station⟩
  unfold acceptTime
  dsimp only
  exact (set.then (handStep_rest s.day s.ms _)).then (endOrder_rest ..)

/-! ### The commands that move it -/

theorem execPinReset_forward {s t : State} (h : execPinReset s = .next t) : TimeForward s t := by
  unfold execPinReset at h
  split at h
  · cases h
    exact .of_reset rfl rfl rfl
  · cases h
    have reset : (settleOutputs s (pinReset s)).rest = { State.reset with
        evacuatePin := s.evacuatePin, pending := s.pending, freeCount := s.freeCount, startPhase := .scan }.rest := by
      rw [settleOutputs_rest]
      unfold pinReset reloadInputs
      split
      · rw [with_lanes_rest]
        rfl
      · rw [with_mem_rest]
        rfl
    exact .of_reset (station_of_rest reset) (day_of_rest reset) (ms_of_rest reset)

theorem enterQuiet_keepsTime (s : State) : KeepsTime s (enterQuiet s) := by
  have quiet : KeepsTime s { s with station := .quiet, sweepTimer := 0, startPos := 0 } :=
    ⟨rfl, rfl, rfl, fun h => absurd h (by simp)⟩
  have sampled : KeepsTime s { s with station := .quiet, sweepTimer := 0, startPos := 0, evacuate := true } :=
    ⟨rfl, rfl, rfl, fun h => absurd h (by simp)⟩
  unfold enterQuiet
  dsimp only
  split
  · exact sampled.trans (assertEvacuate_keepsTime _)
  · exact quiet

theorem writeHeader_keepsTime (cause lift : Nat) (s : State) : KeepsTime s (writeHeader cause lift s) := by
  unfold writeHeader
  exact ⟨rfl, rfl, rfl, id⟩

theorem finishFill_keepsTime (straps : BitVec 6) (s : State) : KeepsTime s (finishFill straps s) := by
  have filled : KeepsTime s (fillTo fillWords s) := ⟨rfl, rfl, rfl, id⟩
  have zeroed : KeepsTime s (zeroMirrors (fillTo fillWords s)) := filled.then (with_mem_rest _ _)
  have headed := zeroed.trans (writeHeader_keepsTime 1 (liftOf straps) _)
  unfold finishFill noFlowIndices
  dsimp only
  exact ((headed.then (with_mem_rest _ _)).then (with_mem_rest _ _)).then (writeLaneBlocks_rest _)

theorem execFillDone_answersKeeping (straps : BitVec 6) (s : State) : AnswersKeeping s (execFillDone straps s) := by
  unfold execFillDone
  exact .ite ((finishFill_keepsTime straps s).trans (enterQuiet_keepsTime _))

end Sys2Proof.Machine
end

section
/-! PROOFS. The commands that move station time take it forward (R27, R30, R35). -/

namespace Sys2Proof.Machine

theorem takeFlowPosition_rest (n : Fin 4) (s : State) : (takeFlowPosition n s).rest = s.rest := by
  unfold takeFlowPosition
  dsimp only
  repeat' split
  · exact modLane_rest ..
  · rfl
  · exact poke_rest ..

/-- The end of the restart scan takes a station time from the mirror, and changes nothing else of it. -/
theorem finishScan_moves (straps : BitVec 6) (s : State) :
    ∃ day ms, (timeLaw s → day ≤ 65534 ∧ ms < 86400000)
      ∧ KeepsTime { s with day := day, ms := ms } (finishScan straps s) := by
  have scanned := (scanTo_keepsTime scanVisits s).then
    (poke_rest _ hdrDropped 2 (scanTo scanVisits s).journal.dropped)
  have headed := scanned.trans (writeHeader_keepsTime 2 (liftOf straps) _)
  generalize hu : writeHeader 2 (liftOf straps)
    ((scanTo scanVisits s).poke hdrDropped 2 (scanTo scanVisits s).journal.dropped) = u at headed
  have shows (t : State) (ht : KeepsTime t (takeMirrorTime u)) : KeepsTime t (finishScan straps s) := by
    unfold finishScan
    dsimp only
    rw [hu]
    exact (ht.then (eachLane_rest takeFlowPosition_rest _)).then (writeLaneBlocks_rest _)
  by_cases hm : u.peek hdrDay 2 = 65535 ∨ dayMs ≤ u.peek hdrMs 4
  · refine ⟨0, 0, fun _ => by omega, shows _ ?_⟩
    have zero : KeepsTime { s with day := 0, ms := 0 } { u with day := 0, ms := 0 } :=
      ⟨rfl, rfl, headed.timeSet, headed.station⟩
    rw [takeMirrorTime, if_pos hm]
    exact zero.then (writeTimeMirror_rest _)
  · refine ⟨u.peek hdrDay 2, u.peek hdrMs 4, fun _ => ?_, shows _ ?_⟩
    · have hlt : u.peek hdrDay 2 < 65536 := u.mem.read_lt hdrDay 2
      unfold dayMs at hm
      omega
    · rw [takeMirrorTime, if_neg hm]
      exact ⟨rfl, rfl, headed.timeSet, headed.station⟩

theorem execRestartScanDone_forward {straps : BitVec 6} {s t : State} (h : execRestartScanDone straps s = .next t) :
    TimeForward s t := by
  unfold execRestartScanDone at h
  split at h
  · next hs =>
    cases h
    obtain ⟨day, ms, hvalid, moved⟩ := finishScan_moves straps s
    have ended := (moved.trans (enterQuiet_keepsTime _)).then (settleOutputs_rest s _)
    refine .of_moved (set := s.timeSet) ended id hvalid fun hcounts => ?_
    rw [hs.1] at hcounts
    simp at hcounts
  · cases h
    exact (KeepsTime.refl s).forward

theorem tickTime_moves (s : State) :
    ∃ ms, (ms = s.ms ∨ (ms = s.ms + 1 ∧ ms < 86400000)) ∧ KeepsTime { s with ms := ms } (tickTime s) := by
  unfold tickTime
  repeat' split
  · exact ⟨s.ms, .inl rfl, .refl s⟩
  · next hms => exact ⟨s.ms + 1, .inr ⟨rfl, hms⟩, addMs_moves s⟩
  · exact ⟨s.ms, .inl rfl, rfl, rfl, rfl, id⟩
  · exact ⟨s.ms, .inl rfl, .refl s⟩

theorem tickSweep_keepsTime (s : State) : KeepsTime s (tickSweep s) := by
  unfold tickSweep
  repeat' split
  · exact .refl s
  · exact ⟨rfl, rfl, rfl, id⟩
  · exact ⟨rfl, rfl, rfl, id⟩

theorem tickPresence_keepsTime (s : State) : KeepsTime s (tickPresence s) := by
  unfold tickPresence
  repeat' split
  · exact .refl s
  · exact ⟨rfl, rfl, rfl, id⟩
  · exact ⟨rfl, rfl, rfl, id⟩

theorem execTick_forward {sense : BitVec 16} {s t : State} (h : execTick sense s = .next t) : TimeForward s t := by
  unfold execTick at h
  generalize hu : ({ s with
    now := s.now + 1
    divider := s.dividerTaken
    carrier := s.carrier.run s.dividerTaken s.divider
    lanes := s.lanes.mapIdx fun _ l => tickLane s.divider s.carrier sense l
    ports := s.ports.mapIdx fun _ x => tickPort x } : State) = u at h
  cases h
  have hkept : u.day = s.day ∧ u.ms = s.ms ∧ u.timeSet = s.timeSet ∧ u.station = s.station := by
    subst hu
    exact ⟨rfl, rfl, rfl, rfl⟩
  obtain ⟨hday, hms, hset, hstation⟩ := hkept
  obtain ⟨ms, hcase, moved⟩ := tickTime_moves u
  have counted : KeepsTime { s with ms := ms } { u with ms := ms } := ⟨hday, rfl, hset, fun hc => hstation ▸ hc⟩
  have ticked := ((counted.trans moved).trans (tickSweep_keepsTime _)).trans (tickPresence_keepsTime _)
  exact .of_moved (day := s.day) (set := s.timeSet) ticked id
    (fun ⟨hd, hm, _⟩ => ⟨hd, by omega⟩) fun _ => .inr ⟨rfl, by omega⟩

theorem execRollover_forward {s t : State} (h : execRollover s = .next t) : TimeForward s t := by
  unfold execRollover at h
  dsimp only at h
  split at h
  · split at h
    · next hms =>
      cases h
      have moved := (addMs_moves { s with dayEnd := false }).then (settleOutputs_rest s _)
      have begun : KeepsTime { s with ms := s.ms + 1 } { s with dayEnd := false, ms := s.ms + 1 } := ⟨rfl, rfl, rfl, id⟩
      exact .of_moved (day := s.day) (set := s.timeSet) (begun.trans moved) id (fun ⟨hd, _, _⟩ => ⟨hd, hms⟩)
        fun _ => .inr ⟨rfl, Nat.le_succ _⟩
    · split at h
      · next hd =>
        cases h
        have moved := (rollTo_moves (s.day + 1) false { s with dayEnd := false }).then (settleOutputs_rest s _)
        have begun : KeepsTime { s with day := s.day + 1, ms := 0 }
            { s with dayEnd := false, day := s.day + 1, ms := 0 } := ⟨rfl, rfl, rfl, id⟩
        exact .of_moved (set := s.timeSet) (begun.trans moved) id (fun _ => by omega) fun _ => .inl (Nat.lt_succ_self _)
      · cases h
        exact KeepsTime.forward ⟨rfl, rfl, rfl, id⟩
  · cases h
    exact (KeepsTime.refl s).forward

/-- A SET_TIME that is taken names a station time, in RUNNING and QUIETING none before the present one (R33, R35). -/
theorem setTime_cases (k : Fin 32) (s : State) :
    KeepsTime s (setTime k s)
      ∨ ∃ day ms, day ≤ 65534 ∧ ms < 86400000 ∧ (s.station ≠ .quiet → s.day < day ∨ (s.day = day ∧ s.ms ≤ ms))
        ∧ setTime k s = acceptTime k day ms s := by
  have refused (r : Result) : KeepsTime s (endOrder k r s) := .of_rest (endOrder_rest ..)
  have hday : payload s k 8 2 < 65536 := s.mem.read_lt _ 2
  unfold setTime
  dsimp only
  split
  · exact .inl (refused _)
  · next hrange =>
    split
    · exact .inl (refused _)
    · next hforward =>
      refine .inr ⟨_, _, ?_, ?_, fun hq => ?_, rfl⟩
      · omega
      · unfold dayMs at hrange
        omega
      · have hnot : ¬(payload s k 8 2 < s.day ∨ (payload s k 8 2 = s.day ∧ payload s k 10 4 < s.ms)) :=
          fun hback => hforward ⟨hq, hback⟩
        omega

theorem execSetTime_forward {k : Fin 32} {s t : State} (h : execSetTime k s = .next t) : TimeForward s t := by
  unfold execSetTime visit at h
  split at h
  · cases h
    have taken : KeepsTime s (takeSlot k s) := ⟨rfl, rfl, rfl, id⟩
    rcases setTime_cases k (takeSlot k s) with kept | ⟨day, ms, hday, hms, hforward, accepts⟩
    · exact ((taken.trans kept).then (settleOutputs_rest s _)).forward
    · have begun : KeepsTime { s with day := day, ms := ms, timeSet := true }
          { takeSlot k s with day := day, ms := ms, timeSet := true } := ⟨rfl, rfl, rfl, id⟩
      have moved := begun.trans (acceptTime_moves k day ms (takeSlot k s))
      rw [accepts]
      refine .of_moved (moved.then (settleOutputs_rest s _)) (fun _ => rfl) (fun _ => ⟨hday, hms⟩) fun hs => ?_
      refine hforward fun hq => ?_
      rw [takeSlot_station] at hq
      rw [hq] at hs
      simp at hs
  · cases h
    exact (KeepsTime.refl s).forward

/-! ### RUN -/

theorem startRunning_clock (s : State) :
    (startRunning s).day = s.day ∧ (startRunning s).ms = s.ms ∧ (startRunning s).timeSet = s.timeSet := by
  have taken : KeepsTime s (startPresence (takeOptions s)) := by
    unfold startPresence takeOptions
    exact ⟨rfl, rfl, rfl, id⟩
  unfold startRunning startWindows
  dsimp only
  generalize startPresence (takeOptions s) = u at taken
  have opened (n : Fin 4) (v : State) : (openWindow n (windowAt v true false false) v).rest = v.rest := openWindow_rest ..
  have run : ∀ v : State, (stationRecord .run false 0 0 (changeService s (eachLane startLane
      (eachLane (fun n t => openWindow n (windowAt t true false false) t) v)))).rest = v.rest := fun v => by
    rw [stationRecord_rest, changeService_rest, eachLane_rest startLane_rest, eachLane_rest opened]
  exact ⟨(day_of_rest (run _)).trans taken.day, (ms_of_rest (run _)).trans taken.ms,
    (timeSet_of_rest (run _)).trans taken.timeSet⟩

theorem requestRun_cases (s : State) :
    KeepsTime s (requestRun s) ∨ (s.station = .quiet ∧ s.timeSet = true ∧ requestRun s = startRunning s) := by
  unfold requestRun
  split
  · next hq =>
    split
    · next hset => exact .inr ⟨hq, hset, rfl⟩
    · exact .inl ⟨rfl, rfl, rfl, id⟩
  · exact .inl (.refl s)

/-- A RUN request starts the station where the time is set, and station time stands (R30, R196). -/
theorem requestRun_forward (s : State) : TimeForward s (settleOutputs s (requestRun s)) := by
  have settled : KeepsTime (requestRun s) (settleOutputs s (requestRun s)) := .of_rest (settleOutputs_rest ..)
  rcases requestRun_cases s with kept | ⟨hq, hset, runs⟩
  · exact (kept.trans settled).forward
  · obtain ⟨hday, hms, htime⟩ := startRunning_clock s
    rw [runs] at settled ⊢
    refine ⟨fun ⟨hd, hm, _⟩ => ⟨?_, ?_, fun _ => settled.timeSet.trans (htime.trans hset)⟩, fun hs => ?_⟩
    · rw [settled.day, hday]
      exact hd
    · rw [settled.ms, hms]
      exact hm
    · rw [hq] at hs
      simp at hs

theorem execRegisterWrite_forward {rs : Bool} {address : BitVec 17} {v : Word} {s t : State}
    (h : execRegisterWrite rs address v s = .next t) : TimeForward s t := by
  unfold execRegisterWrite at h
  split at h
  · cases h
    have quiet {u : State} (hu : KeepsTime s u) : TimeForward s (settleOutputs s u) := (hu.then (settleOutputs_rest s u)).forward
    unfold writeRegister
    split
    · exact quiet (.refl s)
    · exact quiet ⟨rfl, rfl, rfl, id⟩
    · exact quiet ⟨rfl, rfl, rfl, id⟩
    · split
      · exact requestRun_forward s
      · split
        · exact quiet (requestQuiet_keepsTime s)
        · exact quiet (.refl s)
  · cases h
    exact (hostWrite_keepsTime _ v s).forward

/-- Every command takes station time forward. -/
theorem exec_forward {c : Instr} {s t : State} (h : exec c s = .next t) : TimeForward s t := by
  by_cases hc : movesTime c = false
  · exact (exec_answersKeeping c hc s t h).forward
  · cases c with
    | powerOnReset =>
      cases h
      exact .of_reset rfl rfl rfl
    | pinReset => exact execPinReset_forward h
    | fillDone straps => exact (execFillDone_answersKeeping straps s t h).forward
    | restartScanDone straps => exact execRestartScanDone_forward h
    | tick sense => exact execTick_forward h
    | rollover => exact execRollover_forward h
    | setTime k => exact execSetTime_forward h
    | runRequest =>
      cases h
      exact requestRun_forward s
    | registerWrite rs address v => exact execRegisterWrite_forward h
    | _ => exact absurd rfl hc

/-- Settles O59: a step on an empty queue is none, and every command takes station time forward. -/
theorem stepKeepsTimeForward : Obligations.StepKeepsTimeForward := by
  intro s t h
  unfold step at h
  split at h
  · cases h
    exact (KeepsTime.refl s).forward
  · next c rest _ => exact exec_forward (s := { s with pending := rest }) h

end Sys2Proof.Machine
end

section
/-! PROOFS. The counters of TICK: station time, the sweep timer and the presence timer (R25, R29, R198, R202). -/

namespace Sys2Proof.Machine

/-! ### The counters of the tick (R25, R29, R198, R202) -/

/-- The state at the tick before its additions to station time and to the timers of the station. -/
def tickBegun (sense : BitVec 16) (s : State) : State :=
  { s with
    now := s.now + 1
    divider := s.dividerTaken
    carrier := s.carrier.run s.dividerTaken s.divider
    lanes := s.lanes.mapIdx fun _ l => tickLane s.divider s.carrier sense l
    ports := s.ports.mapIdx fun _ x => tickPort x }

/-- The state that the tick leaves. -/
def ticked (sense : BitVec 16) (s : State) : State := tickPresence (tickSweep (tickTime (tickBegun sense s)))

theorem tick_runs (sense : BitVec 16) (s : State) : exec (.tick sense) s = .next (ticked sense s) := rfl

/-- The addition to station time: a millisecond within the day, the mark of the day's end behind it (R29). -/
theorem tickTime_eq {s : State} (hms : s.ms < 86400000) :
    tickTime s = { s with
      ms := if s.timeSet ∧ s.ms + 1 < 86400000 then s.ms + 1 else s.ms
      dayEnd := s.dayEnd || (s.timeSet && s.ms = 86399999 && decide (s.day < 65534))
      mem := (tickTime s).mem } := by
  unfold tickTime
  split
  · next hset =>
    cases s
    simp_all
  · next hset =>
    have hset : s.timeSet = true := by simpa using hset
    split
    · next hlt =>
      have hlt : s.ms + 1 < 86400000 := hlt
      have hne : s.ms ≠ 86399999 := by omega
      unfold addMs writeTimeMirror
      dsimp only
      split <;> simp [hset, hlt, hne]
    · next hlt =>
      have hlt : ¬s.ms + 1 < 86400000 := hlt
      have heq : s.ms = 86399999 := by omega
      split
      · next hday => simp [hset, heq, hday]
      · next hday =>
        cases s
        simp_all

/-- The mirror follows station time at each whole second (R32). -/
theorem tickTime_mem {s : State} (h : s.mem.wf) (hday : s.day < 65536) :
    if s.timeSet ∧ s.ms + 1 < 86400000 ∧ (s.ms + 1) % 1000 = 0 then
      (tickTime s).peek hdrMs 4 = s.ms + 1 ∧ (tickTime s).peek hdrDay 2 = s.day
        ∧ keepsBytes s (tickTime s) (inField hdrMs 6)
    else (tickTime s).mem = s.mem := by
  split
  · next hsecond =>
    obtain ⟨hset, hlt, hs⟩ := hsecond
    have hrun : tickTime s = writeTimeMirror { s with ms := s.ms + 1 } := by
      unfold tickTime
      rw [if_neg (by simp [hset]), if_pos (by unfold dayMs; exact hlt), addMs_second hs]
    rw [hrun]
    exact writeTimeMirror_shows (s := { s with ms := s.ms + 1 }) h hs hlt hday
  · next hno =>
    unfold tickTime
    split
    · rfl
    · next hset =>
      split
      · next hlt =>
        have hlt : s.ms + 1 < 86400000 := hlt
        rw [addMs_within fun hs => hno ⟨by simpa using hset, hlt, hs⟩]
      · split <;> rfl

theorem tickSweep_eq (s : State) :
    tickSweep s = { s with
      sweepTimer :=
        if s.station = .starting then s.sweepTimer
        else if s.options.sweepPeriod ≤ s.sweepTimer + 1 then 0 else s.sweepTimer + 1
      sweepDue :=
        s.sweepDue || (s.station ≠ .starting && decide (s.options.sweepPeriod ≤ s.sweepTimer + 1)) } := by
  unfold tickSweep
  split
  · next hs =>
    cases s
    simp_all
  · next hs =>
    split
    · next hp => simp [hs, hp]
    · next hp => simp [hs, hp]

theorem tickPresence_eq (s : State) :
    tickPresence s = { s with
      presenceTimer :=
        if s.station ≠ .running then s.presenceTimer
        else if 1000 ≤ s.presenceTimer + 1 then 0 else s.presenceTimer + 1
      presenceDue := s.presenceDue || (s.station = .running && decide (1000 ≤ s.presenceTimer + 1)) } := by
  unfold tickPresence
  split
  · next hs =>
    have hs : ¬s.station = .running := hs
    simp [hs]
  · next hs =>
    have hs : s.station = .running := by simpa using hs
    split
    · next hp => simp [hs, hp]
    · next hp => simp [hs, hp]

theorem ticked_counters (sense : BitVec 16) {s : State} (hms : s.ms < 86400000) :
    ticked sense s = { s with
      now := s.now + 1, divider := s.dividerTaken
      ms := if s.timeSet ∧ s.ms + 1 < 86400000 then s.ms + 1 else s.ms
      dayEnd := s.dayEnd || (s.timeSet && s.ms = 86399999 && decide (s.day < 65534))
      sweepTimer :=
        if s.station = .starting then s.sweepTimer
        else if s.options.sweepPeriod ≤ s.sweepTimer + 1 then 0 else s.sweepTimer + 1
      sweepDue :=
        s.sweepDue || (s.station ≠ .starting && decide (s.options.sweepPeriod ≤ s.sweepTimer + 1))
      presenceTimer :=
        if s.station ≠ .running then s.presenceTimer
        else if 1000 ≤ s.presenceTimer + 1 then 0 else s.presenceTimer + 1
      presenceDue := s.presenceDue || (s.station = .running && decide (1000 ≤ s.presenceTimer + 1))
      carrier := (tickBegun sense s).carrier, lanes := (tickBegun sense s).lanes, ports := (tickBegun sense s).ports
      mem := (tickTime (tickBegun sense s)).mem } := by
  unfold ticked
  rw [tickPresence_eq, tickSweep_eq, tickTime_eq (s := tickBegun sense s) hms]
  rfl

end Sys2Proof.Machine
end

section
/-! PROOFS. What TICK does to lanes and ports, the lamp carrier and the buzzers within the tick (R86, R94, R95, R182, R183). -/

namespace Sys2Proof.Machine

/-! ### The lanes at a tick (R71, R86, R94, R95, R103) -/

theorem Input.sample_eq (sense : BitVec 16) (i : Input) : i.sample sense = inputSampled sense i := by
  unfold Input.sample inputSampled
  cases hsrc : i.source with
  | none => rfl
  | some src =>
    have hlevel : activeLevel src sense =
        if src.polarity = .activeHigh then sense.getLsbD src.pin.val else !sense.getLsbD src.pin.val := by
      unfold activeLevel
      cases src.polarity <;> rfl
    dsimp only
    rw [← hlevel]
    split
    · rfl
    · split <;> rfl

/-- A sample touches the hold count alone. -/
theorem inputSampled_keeps (sense : BitVec 16) (i : Input) :
    (inputSampled sense i).source = i.source ∧ (inputSampled sense i).level = i.level := by
  unfold inputSampled
  split
  · exact ⟨rfl, rfl⟩
  · dsimp only
    split <;> exact ⟨rfl, rfl⟩

theorem Input.sampleArm_eq (sense : BitVec 16) (i : Input) : i.sampleArm sense = armSampled sense i := by
  obtain ⟨hsource, hlevel⟩ := inputSampled_keeps sense i
  unfold Input.sampleArm armSampled
  rw [Input.sample_eq]
  cases hsrc : i.source with
  | none =>
    simp [Input.edgeTo, inputSampled, hsrc]
  | some src =>
    rw [hsrc] at hsource
    by_cases hedge : i.level = true ∧ src.debounce ≤ (inputSampled sense i).hold
    · obtain ⟨hl, hd⟩ := hedge
      simp [Input.edgeTo, Input.flip, hsource, hlevel, hl, hd]
    · simp only [Input.edgeTo, hsource, hlevel]
      rw [if_neg (by simpa [and_comm] using hedge), if_neg hedge]

/-- What lets the settle timer of a lane count (R94, R103). -/
theorem Lane.settles_iff (l : Lane) :
    l.settles = true ↔ (l.config.role = .entry ∧ l.entryBeam.level = false ∧ l.exitBeam.level = false)
      ∨ (l.config.role = .ret ∧ l.switch.level = false) := by
  unfold Lane.settles
  cases l.config.role <;> simp

theorem LaneState.stuckRuns_iff (st : LaneState) : st.stuckRuns = true ↔ st.code = 1 ∨ st.code = 2 := by
  cases st <;> simp [LaneState.stuckRuns, LaneState.code]

theorem tickState_eq (l : Lane) :
    tickState l = match l.state with
      | .arming c => .arming (if (l.config.role = .entry ∧ l.entryBeam.level = false ∧ l.exitBeam.level = false)
          ∨ (l.config.role = .ret ∧ l.switch.level = false) then c + 1 else c)
      | .granted g => .granted
          { g with windowCount := if l.entryBeam.level then g.windowCount else g.windowCount + 1 }
      | st => st := by
  unfold tickState
  cases l.state with
  | arming c =>
    dsimp only
    simp only [← l.settles_iff]
    split <;> rfl
  | granted g =>
    dsimp only
    split <;> rfl
  | _ => rfl

theorem tickStuck_eq (l : Lane) (role : LaneRole) (i : Input) (n : Nat) :
    tickStuck l role i n =
      if (l.config.role = role ∧ (l.state.code = 1 ∨ l.state.code = 2)) ∧ i.level then n + 1 else n := by
  unfold tickStuck
  simp only [← LaneState.stuckRuns_iff, and_assoc]

theorem tickBegun_lane (sense : BitVec 16) (s : State) (n : Fin 4) :
    (tickBegun sense s).lane n = tickLane s.divider s.carrier sense (s.lane n) := by
  unfold tickBegun State.lane
  exact Quad.get_mapIdx ..

theorem tickBegun_port (sense : BitVec 16) (s : State) (p : Fin 4) : (tickBegun sense s).port p = tickPort (s.port p) := by
  unfold tickBegun State.port
  exact Quad.get_mapIdx ..

theorem ticked_lanes (sense : BitVec 16) {s : State} (hms : s.ms < 86400000) :
    (ticked sense s).lanes = (tickBegun sense s).lanes := by rw [ticked_counters sense hms]

theorem ticked_lane (sense : BitVec 16) {s : State} (hms : s.ms < 86400000) (n : Fin 4) :
    (ticked sense s).lane n = tickLane s.divider s.carrier sense (s.lane n) :=
  (lane_of_lanes (ticked_lanes sense hms) n).trans (tickBegun_lane sense s n)

theorem ticked_port (sense : BitVec 16) {s : State} (hms : s.ms < 86400000) (p : Fin 4) :
    (ticked sense s).port p = tickPort (s.port p) :=
  (port_of_ports (by rw [ticked_counters sense hms]) p).trans (tickBegun_port sense s p)

theorem ticked_carrier (sense : BitVec 16) {s : State} (hms : s.ms < 86400000) :
    (ticked sense s).carrier = s.carrier.run s.dividerTaken s.divider := by
  rw [ticked_counters sense hms]
  rfl

/-! ### The lamps within a tick (R182) -/

/-- The carrier's place in its period a number of cycles later. -/
theorem Carrier.run_elapsed (c : Carrier) (divider cycle : Nat) :
    (c.run divider cycle).elapsed =
      if cycle < c.divider / 2 - c.elapsed then c.elapsed + cycle
      else (cycle - (c.divider / 2 - c.elapsed)) % (divider / 2) := by
  unfold Carrier.run Carrier.left carrierPeriod
  split <;> rfl

theorem Carrier.run_active (c : Carrier) (divider cycle : Nat) (lv : Levels) (x : Lamps) (lamp : Lamp) :
    lampActiveCycles (c.run divider cycle).divider ((c.duties cycle lv x).duty lamp) =
      if cycle < c.divider / 2 - c.elapsed then x.duty lamp * c.divider / 510
      else (Lamps.duty ⟨lv.green, lv.red, lv.amber⟩ lamp) * divider / 510 := by
  unfold Carrier.run Carrier.duties Carrier.left carrierPeriod lampActiveCycles
  split <;> rfl

theorem lampPin_iff (s : State) (n : Fin 4) (lamp : Lamp) (cycle : Nat) :
    lampPin s n lamp cycle = true ↔
      (if cycle < s.carrier.divider / 2 - s.carrier.elapsed then s.carrier.elapsed + cycle
        else (cycle - (s.carrier.divider / 2 - s.carrier.elapsed)) % (s.dividerTaken / 2)) <
      (if cycle < s.carrier.divider / 2 - s.carrier.elapsed then (s.lane n).lamps.duty lamp * s.carrier.divider / 510
        else (Lamps.duty ⟨(s.lane n).levels.green, (s.lane n).levels.red, (s.lane n).levels.amber⟩ lamp)
          * s.dividerTaken / 510) := by
  rw [← Carrier.run_elapsed, ← Carrier.run_active]
  unfold lampPin
  dsimp only
  rw [decide_eq_true_iff]

/-! ### The buzzer within a tick (R183) -/

section
variable {divider level : Nat} {b : Buzzer}

/-- The same tone goes on through its half-cycles. -/
theorem Buzzer.run_same (hb : b.tone ≠ 0) (hl : level = b.tone) (cycle : Nat) :
    b.run divider cycle level =
      ⟨b.tone, (b.elapsed + cycle) % (divider / b.tone),
        if (b.elapsed + cycle) / (divider / b.tone) % 2 = 0 then b.active else !b.active⟩ := by
  unfold Buzzer.run
  rw [if_pos ⟨hl, hb⟩]
  rfl

/-- Another tone waits for the end of the half-cycle in progress. -/
theorem Buzzer.run_waiting (hl : level ≠ b.tone) {cycle : Nat} (hc : cycle < b.left divider) :
    b.run divider cycle level = { b with elapsed := b.elapsed + cycle } := by
  unfold Buzzer.run
  rw [if_neg fun h => hl h.1, if_pos hc]

/-- Then it sounds from its own first half-cycle, or silence. -/
theorem Buzzer.run_changed (hl : level ≠ b.tone ∨ level = 0) {cycle : Nat} (hc : b.left divider ≤ cycle) :
    b.run divider cycle level =
      ⟨level, if level = 0 then 0 else (cycle - b.left divider) % (divider / level),
        decide (level ≠ 0) && decide ((cycle - b.left divider) / (divider / level) % 2 = 0)⟩ := by
  unfold Buzzer.run Buzzer.sounded buzzerHalfCycle
  rw [if_neg (by omega), if_neg (by omega)]
  split
  · next hz => simp [hz]
  · next hz => simp [hz]

end

end Sys2Proof.Machine
end

section
/-! PROOFS. TICK as a whole (R25, R29, R32, R182, R183). -/

namespace Sys2Proof.Machine

/-- The buzzer that the tick leaves, from the pin it drives. -/
theorem Buzzer.run_eq (divider level : Nat) (b : Buzzer) :
    b.run divider divider level =
      { tone := if level ≠ b.tone ∧ divider < b.left divider then b.tone else level
        elapsed :=
          if level = b.tone then (if level = 0 then 0 else (b.elapsed + divider) % (divider / level))
          else if divider < b.left divider then b.elapsed + divider
          else if level = 0 then 0 else (divider - b.left divider) % (divider / level)
        active := (b.run divider divider level).active } := by
  by_cases hl : level = b.tone
  · by_cases hz : b.tone = 0
    · have hleft : b.left divider = 0 := if_pos (.inl hz)
      rw [Buzzer.run_changed (.inr (hl.trans hz)) (by omega)]
      simp [hl, hz]
    · rw [Buzzer.run_same hz hl]
      simp [hl, hz]
  · by_cases hc : divider < b.left divider
    · rw [Buzzer.run_waiting hl hc]
      simp [hl, hc]
    · rw [Buzzer.run_changed (.inl hl) (by omega)]
      simp [hl, hc]

/-- Settles O6: the counters of the station, then each lane, each port, the lamps and the buzzers. -/
theorem tickCountsTime : Obligations.TickCountsTime := by
  intro s sense ⟨hday, hms, _⟩ h
  have hmem : (ticked sense s).mem = (tickTime (tickBegun sense s)).mem := by rw [ticked_counters sense hms]
  have hlamps (n : Fin 4) :
      ((ticked sense s).lane n).lamps = s.carrier.duties s.divider (s.lane n).levels (s.lane n).lamps := by
    rw [ticked_lane sense hms, tickLane]
  refine ⟨ticked sense s, tick_runs sense s, ?_, ?_, fun n => ?_, fun p => ?_, ⟨fun hc => ⟨?_, fun n => ?_⟩,
    fun hc => ⟨?_, fun n => ?_⟩, fun n cycle => ⟨lampPin_iff .., lampPin_iff .., lampPin_iff ..⟩⟩,
    fun n => ⟨fun cycle hb hl => ?_, fun cycle hl hc => ?_, fun cycle hl hc => ?_, ?_⟩⟩
  · have hports : (ticked sense s).ports = (tickBegun sense s).ports := by rw [ticked_counters sense hms]
    rw [hmem, ticked_lanes sense hms, hports, ticked_carrier sense hms]
    exact ticked_counters sense hms
  · have htime := tickTime_mem (s := tickBegun sense s) h (by show s.day < 65536; omega)
    simp only [State.peek, keepsBytes, hmem]
    exact htime
  · simp only [ticked_lane sense hms, tickLane, tickState_eq, tickStuck_eq, Input.sample_eq, Input.sampleArm_eq]
      <;> rfl
  · rw [ticked_port sense hms]
    rfl
  · rw [ticked_carrier sense hms]
    exact Carrier.run_within hc _
  · rw [hlamps]
    exact Carrier.duties_within hc _ _
  · rw [ticked_carrier sense hms]
    exact Carrier.run_beyond hc _
  · rw [hlamps]
    exact Carrier.duties_beyond hc _ _
  · unfold buzzerPin
    rw [Buzzer.run_same hb hl]
  · unfold buzzerPin
    rw [Buzzer.run_waiting hl hc]
  · unfold buzzerPin
    rw [Buzzer.run_changed hl hc]
    rfl
  · rw [ticked_lane sense hms, tickLane]
    exact Buzzer.run_eq ..

end Sys2Proof.Machine
end

section
/-! PROOFS. Records asked for one after another (R206 to R210). -/

namespace Sys2Proof.Machine

/-! ### Records asked for one after another (R206 to R210) -/

/-- What a run of records asked for left stands in a state reached since. -/
structure RecordsStand (s t : State) (x : Appended) : Prop where
  journal : t.journal = x.journal
  written : ∀ w ∈ x.written, t.mem.readBytes (journalBase w.1) 32 = w.2.bytes
  index : x.written ≠ [] → t.peek hdrWriteIndex 2 = x.journal.writeIndex
  dropped : x.journal.dropped ≠ s.journal.dropped → t.peek hdrDropped 2 = x.journal.dropped
  causes : journalCauses s t (x.level = true) (x.held = true)

theorem recorded_iff (s t : State) (asks : List Asked) :
    recorded s t asks ↔
      RecordsStand s t (asks.foldl (Appended.ask (thresholdOf s)) ⟨s.journal, [], false, false⟩) :=
  ⟨fun ⟨hj, hw, hi, hd, hc⟩ => ⟨hj, hw, hi, hd, hc⟩,
    fun ⟨hj, hw, hi, hd, hc⟩ => ⟨hj, hw, hi, hd, hc⟩⟩

/-- No record asked for. -/
theorem RecordsStand.none {s t : State} (hj : t.journal = s.journal) (ha : sameCauses s t) :
    RecordsStand s t ⟨s.journal, [], false, false⟩ where
  journal := hj
  written := fun _ hw => absurd hw (by simp)
  index := fun hn => absurd rfl hn
  dropped := fun hd => absurd rfl hd
  causes := journalCauses_congr (s := s) (t := s) (by simp [journalCauses]) ⟨rfl, rfl⟩ ha

/-- The bytes that the Journal Writer writes: the write index and the dropped count in the header, and the ring. -/
def inWriter (x : Nat) : Prop := (14 ≤ x ∧ x < 18) ∨ (0x6200 ≤ x ∧ x < 0xE200)

/-- The positions written lie in the ring, none of them at the write index. -/
def Appended.fresh (x : Appended) : Prop := ∀ w ∈ x.written, w.1 < 1024 ∧ w.1 ≠ x.journal.writeIndex

theorem RecordsStand.right {s t u : State} {x : Appended} (R : RecordsStand s t x) (hf : ∀ w ∈ x.written, w.1 < 1024)
    (hj : u.journal = t.journal) (hm : ∀ a, inWriter a → u.mem.byteAt a = t.mem.byteAt a) (ha : sameCauses t u) :
    RecordsStand s u x where
  journal := hj.trans R.journal
  written := fun w hw => by
    have := hf w hw
    rw [← R.written w hw]
    exact Memory.readBytes_congr fun a h1 h2 => hm a (by unfold inWriter; unfold journalBase at h1 h2; omega)
  index := fun hn => by
    rw [← R.index hn]
    exact Memory.read_congr fun a h1 h2 => hm a (by unfold inWriter; unfold hdrWriteIndex at h1 h2; omega)
  dropped := fun hd => by
    rw [← R.dropped hd]
    exact Memory.read_congr fun a h1 h2 => hm a (by unfold inWriter; unfold hdrDropped at h1 h2; omega)
  causes := journalCauses_congr R.causes ⟨rfl, rfl⟩ ha

/-- Records asked for of an earlier state with the same journal and its causes. -/
theorem RecordsStand.left {s s' t : State} {x : Appended} (R : RecordsStand s' t x) (hj : s'.journal = s.journal)
    (ha : sameCauses s' s) : RecordsStand s t x where
  journal := R.journal
  written := R.written
  index := R.index
  dropped := fun hd => R.dropped (hj ▸ hd)
  causes := journalCauses_congr R.causes ha ⟨rfl, rfl⟩

theorem journalCauses_trans {s t u : State} {l h l' h' : Prop} (a : journalCauses s t l h) (b : journalCauses t u l' h') :
    journalCauses s u (l ∨ l') (h ∨ h') := by
  obtain ⟨al, ah⟩ := a
  obtain ⟨bl, bh⟩ := b
  exact ⟨by rw [bl, al, or_assoc], by rw [bh, ah, or_assoc]⟩

theorem journalCauses_iff {s t : State} {l h l' h' : Prop} (a : journalCauses s t l h) (hl : l' ↔ l) (hh : h' ↔ h) :
    journalCauses s t l' h' := by
  rw [hl.eq, hh.eq]
  exact a

/-! ### What an append leaves of the records before it -/

theorem ringWrite_keeps (r : Record) {t : State} (h : t.mem.wf) {a : Nat}
    (h1 : ¬inField (journalBase t.journal.writeIndex) 32 a) (h2 : ¬inField hdrWriteIndex 2 a) :
    (ringWrite r t).mem.byteAt a = t.mem.byteAt a := by
  unfold inField at h1 h2
  rw [ringWrite_mem, Memory.byteAt_write_outside (Memory.writeBytes_wf h _ _) (by omega),
    Memory.byteAt_writeBytes_outside h (by rw [length_Record_bytes]; omega)]

theorem readBytes_journal_congr {t u : State} {i : Nat} (h : ∀ a, inField (journalBase i) 32 a →
    u.mem.byteAt a = t.mem.byteAt a) :
    u.mem.readBytes (journalBase i) 32 = t.mem.readBytes (journalBase i) 32 :=
  Memory.readBytes_congr fun a h1 h2 => h a ⟨h1, h2⟩

section
variable {s t : State} {x : Appended} (R : RecordsStand s t x) (hfresh : x.fresh) (h : t.mem.wf)
  (hw : t.journal.writeIndex < 1024) (hr : t.journal.readIndex < 1024)
include R hfresh h hw hr

/-- One more record into the ring. -/
theorem RecordsStand.ring (r : Record) (hf : t.journal.fill < 1023) :
    RecordsStand s (ringWrite r t)
      { x with
        journal := { x.journal with writeIndex := (x.journal.writeIndex + 1) % 1024 }
        written := x.written ++ [(x.journal.writeIndex, r)]
        level := x.level
          || (decide (x.journal.fill < thresholdOf t) && decide (thresholdOf t ≤ x.journal.fill + 1)) } := by
  have hj := R.journal
  have w1 := Memory.writeBytes_wf h (journalBase t.journal.writeIndex) r.bytes
  refine ⟨by rw [ringWrite_journal, hj], fun w hmem => ?_, fun _ => ?_, fun hd => ?_, ?_⟩
  · rcases List.mem_append.1 hmem with hold | hnew
    · obtain ⟨hlt, hne⟩ := hfresh w hold
      rw [← hj] at hne
      rw [← R.written w hold]
      refine readBytes_journal_congr fun a ha => ringWrite_keeps r h ?_ ?_
      · unfold inField journalBase at *
        omega
      · unfold inField journalBase hdrWriteIndex at *
        omega
    · rw [List.mem_singleton.1 hnew, ringWrite_mem, ← hj]
      have e := Memory.readBytes_writeBytes h (journalBase t.journal.writeIndex) r.bytes
      rw [length_Record_bytes] at e
      refine (Memory.readBytes_congr fun a h1 _ => Memory.byteAt_write_outside w1 ?_).trans e
      unfold journalBase at h1
      unfold hdrWriteIndex
      omega
  · rw [State.peek, ringWrite_mem, Memory.read_write w1, ← hj]
    exact Nat.mod_eq_of_lt (by omega)
  · rw [State.peek, ← R.dropped hd]
    refine Memory.read_congr fun a h1 h2 => ringWrite_keeps r h ?_ ?_
    · unfold inField journalBase
      unfold hdrDropped at h2
      omega
    · unfold inField hdrWriteIndex
      unfold hdrDropped at h1
      omega
  · refine journalCauses_iff (journalCauses_trans R.causes (ringWrite_causes r hw hr hf)) ?_ (by simp)
    rw [reachesLevel, hj]
    simp

omit hfresh h hw hr in
/-- One more record held. -/
theorem RecordsStand.hold (r : Record) :
    RecordsStand s (holdRecord r t)
      { x with journal := { x.journal with hold := x.journal.hold ++ [r] }, held := x.held || x.journal.hold.isEmpty } where
  journal := by rw [holdRecord_journal, R.journal]
  written := fun w hw => by rw [holdRecord_mem, R.written w hw]
  index := fun hn => by rw [State.peek, holdRecord_mem, ← R.index hn]; rfl
  dropped := fun hd => by rw [State.peek, holdRecord_mem, ← R.dropped hd]; rfl
  causes := by
    refine journalCauses_iff (journalCauses_trans R.causes (holdRecord_causes r t)) (by simp) ?_
    rw [R.journal]
    simp

omit hfresh hw hr in
/-- One more record dropped and counted. -/
theorem RecordsStand.drop :
    RecordsStand s (dropRecord t)
      { x with journal := { x.journal with dropped := min (x.journal.dropped + 1) (max x.journal.dropped 65535) } } := by
  have hj := R.journal
  by_cases hd : t.journal.dropped < 65535
  · have heq : dropRecord t = { t with
        journal := { t.journal with dropped := t.journal.dropped + 1 }
        mem := t.mem.write hdrDropped 2 (t.journal.dropped + 1) } := if_pos hd
    have hmin : min (x.journal.dropped + 1) (max x.journal.dropped 65535) = t.journal.dropped + 1 := by
      rw [← hj]
      omega
    rw [heq, hmin]
    refine ⟨by rw [hj], fun w hmem => ?_, fun hn => ?_, fun _ => ?_, journalCauses_congr R.causes ⟨rfl, rfl⟩ ⟨rfl, rfl⟩⟩
    · rw [← R.written w hmem]
      refine readBytes_journal_congr fun a ha => Memory.byteAt_write_outside h ?_
      unfold inField journalBase at ha
      unfold hdrDropped
      omega
    · rw [State.peek, ← R.index hn]
      exact Memory.read_write_outside h (by unfold hdrWriteIndex hdrDropped; omega)
    · exact (Memory.read_write h _ _ _).trans (Nat.mod_eq_of_lt (by omega))
  · have heq : dropRecord t = t := if_neg hd
    have hmin : min (x.journal.dropped + 1) (max x.journal.dropped 65535) = x.journal.dropped := by
      rw [← hj]
      omega
    rw [heq, hmin]
    exact R

/-- One more unpledged record asked for. -/
theorem RecordsStand.ask (r : Record) (ht : thresholdOf t = thresholdOf s) :
    RecordsStand s (appendUnpledged r t) (Appended.ask (thresholdOf s) x (false, r)) := by
  have hj := R.journal
  unfold appendUnpledged Appended.ask placeRecord
  simp only [Bool.false_eq_true, if_false, false_or]
  rw [← hj, ← ht]
  split
  · split
    · next hc =>
      rw [hj]
      exact R.ring hfresh h hw hr r hc.2
    · rw [hj]
      exact R.hold r
  · rw [hj]
    exact R.drop h

end

/-- A record is asked for once, and the positions written stay apart from the write index. -/
theorem Appended.fresh_ask {j : Journal} (hw : j.writeIndex < 1024) (threshold : Nat) (r : Record) :
    (Appended.ask threshold ⟨j, [], false, false⟩ (false, r)).fresh := by
  unfold Appended.ask Appended.fresh
  simp only [Bool.false_eq_true, if_false, false_or]
  split
  · split
    · intro w hmem
      simp only [List.nil_append, List.mem_singleton] at hmem
      subst hmem
      dsimp only
      omega
    · intro w hmem
      exact absurd hmem (by simp)
  · intro w hmem
    exact absurd hmem (by simp)

theorem Appended.fresh_nil (j : Journal) : (⟨j, [], false, false⟩ : Appended).fresh := fun _ hw => absurd hw (by simp)

end Sys2Proof.Machine
end

section
/-! PROOFS. States reached by writes and by records asked for, one step after another (R191, R206 to R210). -/

namespace Sys2Proof.Machine

/-! ### States reached by writes and by records asked for -/

/-- A state amended without the Journal Writer: memory at `Q` alone, attention raised by `c`, lanes and Time Base apart. -/
structure Amends (t u : State) (Q : Nat → Prop) (c : BitVec 8) : Prop where
  wf : u.mem.wf
  ports : u.ports = t.ports
  journal : u.journal = t.journal
  attn : u.attn = t.attn ||| c
  bytes : ∀ a, ¬Q a → u.mem.byteAt a = t.mem.byteAt a

theorem Amends.trans {t u v : State} {Q Q' : Nat → Prop} {c c' : BitVec 8} (A : Amends t u Q c) (B : Amends u v Q' c') :
    Amends t v (fun a => Q a ∨ Q' a) (c ||| c') where
  wf := B.wf
  ports := B.ports.trans A.ports
  journal := B.journal.trans A.journal
  attn := by rw [B.attn, A.attn, BitVec.or_assoc]
  bytes := fun a ha => by
    rw [not_or] at ha
    exact (B.bytes a ha.2).trans (A.bytes a ha.1)

theorem Amends.mono {t u : State} {Q Q' : Nat → Prop} {c : BitVec 8} (A : Amends t u Q c) (h : ∀ a, Q a → Q' a) :
    Amends t u Q' c :=
  { A with bytes := fun a ha => A.bytes a fun hq => ha (h a hq) }

/-- A state reached from `s` with the records of `x` asked for, memory changed at `P` alone and attention raised by `b`. -/
structure Reached (s t : State) (P : Nat → Prop) (b : BitVec 8) (x : Appended) : Prop where
  wf : t.mem.wf
  ports : t.ports = s.ports
  attn : attnRaised s t b
  bytes : keepsBytes s t P
  records : RecordsStand s t x
  fresh : ∀ w ∈ x.written, w.1 < 1024

theorem sameCauses_of_attn {s t : State} {c : BitVec 8} (hc : c &&& 6#8 = 0) (ha : t.attn = s.attn ||| c) :
    sameCauses s t := by
  have h1 : (c &&& 6#8).getLsbD 1 = false := by rw [hc]; rfl
  have h2 : (c &&& 6#8).getLsbD 2 = false := by rw [hc]; rfl
  rw [BitVec.getLsbD_and] at h1 h2
  rw [sameCauses, ha, BitVec.getLsbD_or, BitVec.getLsbD_or]
  constructor
  · simp_all
  · simp_all

/-- No record asked for yet. -/
theorem Amends.reached {s t : State} {Q : Nat → Prop} {c : BitVec 8} (A : Amends s t Q c) (hc : c &&& 6#8 = 0) :
    Reached s t Q c ⟨s.journal, [], false, false⟩ where
  wf := A.wf
  ports := A.ports
  attn := ⟨0#8, by decide, by rw [A.attn, BitVec.or_zero]⟩
  bytes := A.bytes
  records := .none A.journal (sameCauses_of_attn hc A.attn)
  fresh := fun w hw => (Appended.fresh_nil s.journal w hw).1

/-- Amended apart from the Journal Writer. -/
theorem Reached.amend {s t u : State} {P Q : Nat → Prop} {b c : BitVec 8} {x : Appended} (R : Reached s t P b x)
    (A : Amends t u Q c) (hc : c &&& 6#8 = 0) (hQ : ∀ a, Q a → ¬inWriter a) :
    Reached s u (fun a => P a ∨ Q a) (b ||| c) x where
  wf := A.wf
  ports := A.ports.trans R.ports
  attn := by
    obtain ⟨j, hj, ha⟩ := R.attn
    exact ⟨j, hj, by rw [A.attn, ha, BitVec.or_assoc, BitVec.or_comm j, ← BitVec.or_assoc, ← BitVec.or_assoc]⟩
  bytes := fun a ha => by
    rw [not_or] at ha
    exact (A.bytes a ha.2).trans (R.bytes a ha.1)
  records := R.records.right R.fresh A.journal (fun a ha => A.bytes a fun hq => hQ a hq ha) (sameCauses_of_attn hc A.attn)
  fresh := R.fresh

theorem Reached.mono {s t : State} {P P' : Nat → Prop} {b : BitVec 8} {x : Appended} (R : Reached s t P b x)
    (h : ∀ a, P a → P' a) : Reached s t P' b x :=
  { R with bytes := fun a ha => R.bytes a fun hp => ha (h a hp) }

/-- Reached from a state that was only amended. -/
theorem Reached.after {s d t : State} {Q P : Nat → Prop} {b : BitVec 8} {x : Appended} (A : Amends s d Q 0#8)
    (R : Reached d t P b x) : Reached s t (fun a => Q a ∨ P a) b x where
  wf := R.wf
  ports := R.ports.trans A.ports
  attn := by
    obtain ⟨j, hj, ha⟩ := R.attn
    refine ⟨j, hj, ?_⟩
    rw [ha, A.attn, BitVec.or_zero]
  bytes := fun a ha => by
    rw [not_or] at ha
    exact (R.bytes a ha.2).trans (A.bytes a ha.1)
  records := R.records.left A.journal <| by
    rw [sameCauses, A.attn, BitVec.or_zero]
    exact ⟨rfl, rfl⟩
  fresh := R.fresh

/-- The indices of the Journal Writer lie in the ring. -/
def Journal.indexed (j : Journal) : Prop := j.writeIndex < 1024 ∧ j.readIndex < 1024

/-- Where the write index of a Journal Writer stands after one record more. -/
theorem Appended.ask_index (threshold : Nat) (x : Appended) (r : Record) :
    let j := (Appended.ask threshold x (false, r)).journal
    (j.writeIndex = x.journal.writeIndex ∨ j.writeIndex = (x.journal.writeIndex + 1) % 1024)
      ∧ j.readIndex = x.journal.readIndex := by
  unfold Appended.ask
  simp only [Bool.false_eq_true, if_false, false_or]
  split
  · split
    · exact ⟨.inr rfl, rfl⟩
    · exact ⟨.inl rfl, rfl⟩
  · exact ⟨.inl rfl, rfl⟩

theorem Appended.ask_indexed {threshold : Nat} {x : Appended} (h : x.journal.indexed) (r : Record) :
    (Appended.ask threshold x (false, r)).journal.indexed := by
  obtain ⟨hwrite, hread⟩ := Appended.ask_index threshold x r
  obtain ⟨hw, hr⟩ := h
  refine ⟨?_, hread ▸ hr⟩
  rcases hwrite with h | h
  · exact h ▸ hw
  · rw [h]
    exact Nat.mod_lt _ (by decide)

/-- The positions written so far stay in the ring with one record more. -/
theorem Appended.ask_written {threshold : Nat} {x : Appended} (hf : ∀ w ∈ x.written, w.1 < 1024)
    (h : x.journal.indexed) (r : Record) : ∀ w ∈ (Appended.ask threshold x (false, r)).written, w.1 < 1024 := by
  intro w hw
  unfold Appended.ask at hw
  simp only [Bool.false_eq_true, if_false, false_or] at hw
  split at hw
  · split at hw
    · rcases List.mem_append.1 hw with hold | hnew
      · exact hf w hold
      · rw [List.mem_singleton.1 hnew]
        exact h.1
    · exact hf w hw
  · exact hf w hw

/-- The header's threshold lies outside what changed. -/
theorem Reached.threshold {s t : State} {P : Nat → Prop} {b : BitVec 8} {x : Appended} (R : Reached s t P b x)
    (hP : ∀ a, P a → ¬inField hdrThreshold 2 a) : thresholdOf t = thresholdOf s := by
  have hsame : t.peek hdrThreshold 2 = s.peek hdrThreshold 2 :=
    Memory.read_congr fun a h1 h2 => R.bytes a fun hp => hP a hp ⟨h1, h2⟩
  rw [thresholdOf, thresholdOf, hsame]

theorem or_and_bits (i j m : BitVec 8) : (i ||| j) &&& m = (i &&& m) ||| (j &&& m) := by
  ext
  simp [Bool.and_or_distrib_right]

/-- One record more asked for. -/
theorem Reached.ask {s t : State} {P : Nat → Prop} {b : BitVec 8} {x : Appended} (R : Reached s t P b x)
    (hx : x.fresh) (hj : x.journal.indexed) (hP : ∀ a, P a → ¬inField hdrThreshold 2 a) (r : Record) :
    Reached s (appendUnpledged r t) (fun a => P a ∨ inAppend t a) b (Appended.ask (thresholdOf s) x (false, r)) where
  wf := appendUnpledged_wf r R.wf
  ports := (appendUnpledged_ports r t).trans R.ports
  attn := by
    obtain ⟨i, hi, ha⟩ := R.attn
    obtain ⟨j, hj, hb⟩ := appendUnpledged_attn r t
    refine ⟨i ||| j, ?_, by rw [hb, ha, BitVec.or_assoc]⟩
    rw [or_and_bits, hi, hj]
    rfl
  bytes := fun a ha => by
    rw [not_or] at ha
    exact (byteAt_appendUnpledged r R.wf ha.2).trans (R.bytes a ha.1)
  records := R.records.ask hx R.wf (by rw [R.records.journal]; exact hj.1) (by rw [R.records.journal]; exact hj.2) r
    (R.threshold hP)
  fresh := Appended.ask_written R.fresh hj r

/-- One record asked for and no more: it is the unpledged record of R208. -/
theorem unpledgedRecord_of_asked {s t : State} {r : Record}
    (R : RecordsStand s t (Appended.ask (thresholdOf s) ⟨s.journal, [], false, false⟩ (false, r))) :
    unpledgedRecord s t r := by
  obtain ⟨hj, hwritten, hindex, hdropped, hcauses⟩ := R
  unfold Appended.ask at hj hwritten hindex hdropped hcauses
  simp only [Bool.false_eq_true, if_false, false_or] at hj hwritten hindex hdropped hcauses
  unfold unpledgedRecord recordPlaced
  by_cases hroom : 1 ≤ s.journal.room
  · by_cases hring : s.journal.hold = [] ∧ s.journal.fill < 1023
    · simp only [hroom, hring, if_true, and_self] at hj hwritten hindex hdropped hcauses ⊢
      refine ⟨by simp [hj], by simp [hj], hwritten (s.journal.writeIndex, r) (by simp),
        by simp [hj], hindex (by simp), by simp [hj],
        by simp [hj], ?_⟩
      exact journalCauses_iff hcauses (by simp [reachesLevel]) (by simp)
    · simp only [hroom, hring, if_true, if_false] at hj hwritten hindex hdropped hcauses ⊢
      refine ⟨by simp [hj], by simp [hj], by simp [hj],
        by simp [hj], by simp [hj], ?_⟩
      exact journalCauses_iff hcauses (by simp) (by simp)
  · simp only [hroom, if_false] at hj hwritten hindex hdropped hcauses ⊢
    refine ⟨by simp [hj], by simp [hj], by simp [hj],
      by simp [hj], fun hlt => ?_, fun hge => ?_, ?_⟩
    · have hmin : min (s.journal.dropped + 1) (max s.journal.dropped 65535) = s.journal.dropped + 1 := by omega
      rw [hmin] at hj hdropped
      exact ⟨by rw [hj], hdropped (by omega)⟩
    · rw [hj]
      show min (s.journal.dropped + 1) (max s.journal.dropped 65535) = _
      omega
    · exact journalCauses_iff hcauses (by simp) (by simp)

end Sys2Proof.Machine
end

section
/-! PROOFS. A change made for the lanes one after another, and windows that give way to another (R119, R123, R124). -/

namespace Sys2Proof.Machine

/-! ### A change made for the lanes one after another -/

theorem mem_allFour (n : Fin 4) : n ∈ allFour := by
  revert n
  decide

/-- The lanes of `l` changed by `g`, memory for each at `P` alone. -/
structure LanesChanged (g : Lane → Lane) (P : Fin 4 → Lane → Nat → Prop) (l : List (Fin 4)) (s t : State) : Prop where
  rest : t.rest = s.rest
  lanes : ∀ m, t.lane m = if m ∈ l then g (s.lane m) else s.lane m
  memory : Amends s t (fun a => ∃ m ∈ l, P m (s.lane m) a) 0#8

section
variable {g : Lane → Lane} {P : Fin 4 → Lane → Nat → Prop} {f : Fin 4 → State → State} {r : State}

theorem LanesChanged.other {n m : Fin 4} {s t : State} (h : LanesChanged g P [n] s t) (hm : m ≠ n) :
    t.lane m = s.lane m :=
  (h.lanes m).trans (if_neg (by simpa using hm))

theorem LanesChanged.cons {n : Fin 4} {l : List (Fin 4)} (hn : n ∉ l) {s t v : State} (h1 : LanesChanged g P [n] s t)
    (h2 : LanesChanged g P l t v) : LanesChanged g P (n :: l) s v where
  rest := h2.rest.trans h1.rest
  lanes := fun m => by
    rw [h2.lanes]
    by_cases hmn : m = n
    · subst hmn
      rw [if_neg hn, if_pos (by simp), h1.lanes, if_pos (by simp)]
    · rw [h1.other hmn]
      simp [hmn]
  memory := (h1.memory.trans h2.memory).mono fun a ha => by
    rcases ha with ⟨m, hm, ha⟩ | ⟨m, hm, ha⟩
    · exact ⟨n, by simp, List.mem_singleton.1 hm ▸ ha⟩
    · rw [h1.other fun hmn => hn (hmn ▸ hm)] at ha
      exact ⟨m, List.mem_cons_of_mem _ hm, ha⟩

variable (hf : ∀ n t, t.mem.wf → t.rest = r → LanesChanged g P [n] t (f n t))
include hf

theorem foldl_changed (l : List (Fin 4)) (hl : l.Nodup) {s : State} (h : s.mem.wf) (hr : s.rest = r) :
    LanesChanged g P l s (l.foldl (fun t n => f n t) s) := by
  induction l generalizing s with
  | nil => exact ⟨rfl, fun m => by simp, ⟨h, rfl, rfl, by simp, fun _ _ => rfl⟩⟩
  | cons n l ih =>
    obtain ⟨hn, hl⟩ := List.nodup_cons.1 hl
    have h1 := hf n s h hr
    exact h1.cons hn (ih hl h1.memory.wf (h1.rest.trans hr))

/-- What one lane's change writes stands behind the changes of the others, where they leave it. -/
theorem foldl_shows {R : Fin 4 → Memory → Prop} {s : State}
    (hR : ∀ n t, t.mem.wf → t.rest = r → t.lane n = s.lane n → R n (f n t).mem)
    (hK : ∀ n m m', (∀ a, (∀ i, i ≠ n → ¬P i (s.lane i) a) → m'.byteAt a = m.byteAt a) → R n m → R n m')
    (l : List (Fin 4)) (hl : l.Nodup) {v : State} (h : v.mem.wf) (hr : v.rest = r)
    (hv : ∀ m ∈ l, v.lane m = s.lane m) : ∀ n ∈ l, R n (l.foldl (fun t n => f n t) v).mem := by
  induction l generalizing v with
  | nil => exact fun _ hn => absurd hn (by simp)
  | cons k l ih =>
    obtain ⟨hk, hl⟩ := List.nodup_cons.1 hl
    have h1 := hf k v h hr
    have hlane : ∀ m ∈ l, (f k v).lane m = s.lane m := fun m hm =>
      (h1.other fun hmk => hk (hmk ▸ hm)).trans (hv m (List.mem_cons_of_mem _ hm))
    have h2 := foldl_changed hf l hl h1.memory.wf (h1.rest.trans hr)
    intro n hn
    rcases List.mem_cons.1 hn with rfl | hn
    · refine hK n _ _ (fun a ha => h2.memory.bytes a fun ⟨m, hm, hp⟩ => ?_) (hR n v h hr (hv n (by simp)))
      rw [hlane m hm] at hp
      exact ha m (fun hmn => hk (hmn ▸ hm)) hp
    · exact ih hl h1.memory.wf (h1.rest.trans hr) hlane n hn

end

/-! ### A window gives way to another (R119, R123, R124) -/

/-- A lane's current window closes SHORT at a time of day, and `o` opens. -/
def swapWindow (o : Window) (endMs : Nat) (n : Fin 4) (s : State) : State :=
  match (s.lane n).window with
  | some w => openWindow n o (closeWindow n { w with isShort := true } (windowLengthTo s w endMs) s)
  | none => s

/-- The window that contains station time, SHORT unless it begins there. -/
def windowOfTime (s : State) : Window := windowAt s false (!atWindowStart s) (!s.online)

/-- The first window of the day. -/
def windowOfDay (s : State) : Window := ⟨s.day, 0, false, false, !s.online, Counts.zero⟩

theorem stepWindow_eq (endMs : Nat) (n : Fin 4) (s : State) :
    stepWindow endMs n s = swapWindow (windowOfTime s) endMs n s := by
  unfold stepWindow swapWindow
  cases (s.lane n).window <;> rfl

theorem closeAtRollover_eq (endMs : Nat) (n : Fin 4) (s : State) :
    closeAtRollover true endMs n s = swapWindow (windowOfDay s) endMs n s := by
  unfold closeAtRollover swapWindow
  cases (s.lane n).window with
  | none => rfl
  | some w => simp [windowOfDay]

theorem windowOfTime_of_rest {s t : State} (h : t.rest = s.rest) : windowOfTime t = windowOfTime s := by
  unfold windowOfTime windowAt atWindowStart State.minute
  rw [day_of_rest h, ms_of_rest h, online_of_rest h, options_of_rest h]

theorem windowOfDay_of_rest {s t : State} (h : t.rest = s.rest) : windowOfDay t = windowOfDay s := by
  rw [windowOfDay, windowOfDay, day_of_rest h, online_of_rest h]

/-- A lane whose current window has given way to `o`. -/
def swappedLane (o : Window) (l : Lane) : Lane :=
  { l with
    window := l.window.map fun _ => o
    flowPosition := if l.window = none then l.flowPosition else some (nextFlowPosition l.flowPosition)
    flowNumber := if l.window = none then l.flowNumber else nextFlowNumber l.flowNumber }

theorem swappedLane_none (o : Window) {l : Lane} (h : l.window = none) : swappedLane o l = l := by
  cases l
  simp_all [swappedLane]

/-- The bytes written where a lane's current window gives way. -/
def inWindowSwap (n : Fin 4) (l : Lane) (a : Nat) : Prop :=
  l.window ≠ none ∧ (inField (laneBlockBase n.val + 80) 22 a ∨ inField (hdrFlow n.val) 2 a
    ∨ inField (flowBase n.val (nextFlowPosition l.flowPosition)) 32 a)

/-- The flow record of a window closed SHORT at a time of day, and the header's index. -/
def swapShown (s : State) (endMs : Nat) (n : Fin 4) (m : Memory) : Prop :=
  ∀ w, (s.lane n).window = some w →
    m.readBytes (flowBase n.val (nextFlowPosition (s.lane n).flowPosition)) 32 =
        flowBytes (nextFlowNumber (s.lane n).flowNumber) (w.index * s.options.windowLength) (windowLengthTo s w endMs)
          { w with isShort := true }
      ∧ m.read (hdrFlow n.val) 2 = nextFlowPosition (s.lane n).flowPosition

theorem swapShown_congr {s : State} {endMs : Nat} {n : Fin 4} {m m' : Memory} (h : swapShown s endMs n m)
    (hb : ∀ a, inField (hdrFlow n.val) 2 a ∨ inField (flowBase n.val (nextFlowPosition (s.lane n).flowPosition)) 32 a →
      m'.byteAt a = m.byteAt a) : swapShown s endMs n m' := by
  intro w hw
  obtain ⟨hrecord, hindex⟩ := h w hw
  exact ⟨(Memory.readBytes_congr fun a h1 h2 => hb a (.inr ⟨h1, h2⟩)).trans hrecord,
    (Memory.read_congr fun a h1 h2 => hb a (.inl ⟨h1, h2⟩)).trans hindex⟩

theorem swapShown.of_state {s t : State} {endMs : Nat} {n : Fin 4} {m : Memory} (h : swapShown t endMs n m)
    (hl : t.lane n = s.lane n) (ho : t.options = s.options) : swapShown s endMs n m := by
  unfold swapShown windowLengthTo at h ⊢
  rw [hl, ho] at h
  exact h

section
variable (o : Window) (endMs : Nat) (n : Fin 4)

theorem swapWindow_none {s : State} (h : (s.lane n).window = none) : swapWindow o endMs n s = s := by
  simp only [swapWindow, h]

theorem swapWindow_some {s : State} {w : Window} (h : (s.lane n).window = some w) :
    swapWindow o endMs n s =
      openWindow n o (closeWindow n { w with isShort := true } (windowLengthTo s w endMs) s) := by
  simp only [swapWindow, h]

theorem swapWindow_changed {s : State} (h : s.mem.wf) :
    LanesChanged (swappedLane o) inWindowSwap [n] s (swapWindow o endMs n s) := by
  cases hw : (s.lane n).window with
  | none =>
    rw [swapWindow_none o endMs n hw]
    refine ⟨rfl, fun m => ?_, ⟨h, rfl, rfl, by simp, fun _ _ => rfl⟩⟩
    split
    · next hm =>
      rw [List.mem_singleton.1 hm, swappedLane_none o hw]
    · rfl
  | some w =>
    rw [swapWindow_some o endMs n hw]
    have hwf := closeWindow_wf n { w with isShort := true } (windowLengthTo s w endMs) h
    refine ⟨(openWindow_rest ..).trans (closeWindow_rest ..), fun m => ?_, ⟨openWindow_wf n o hwf, by simp, by simp,
      by simp, fun a ha => ?_⟩⟩
    · by_cases hm : m = n
      · subst hm
        rw [if_pos (by simp), openWindow_lane, closeWindow_lane, swappedLane, hw]
        rfl
      · rw [if_neg (by simpa using hm), openWindow_lane_other _ _ hm, closeWindow_lane_other _ _ _ hm]
    · have hout : ¬inWindowSwap n (s.lane n) a := fun hin => ha ⟨n, by simp, hin⟩
      simp only [inWindowSwap, hw, ne_eq, reduceCtorEq, not_false_eq_true, true_and, not_or] at hout
      obtain ⟨h1, h2, h3⟩ := hout
      exact (byteAt_openWindow n o hwf h1).trans (byteAt_closeWindow n _ _ h h1 h2 h3)

theorem swapWindow_shows {s : State} (h : s.mem.wf) : swapShown s endMs n (swapWindow o endMs n s).mem := by
  intro w hw
  rw [swapWindow_some o endMs n hw]
  have hwf := closeWindow_wf n { w with isShort := true } (windowLengthTo s w endMs) h
  obtain ⟨hrecord, hindex⟩ := closeWindow_record n { w with isShort := true } (windowLengthTo s w endMs) h
  have hn := n.isLt
  refine ⟨(Memory.readBytes_congr fun a h1 h2 => byteAt_openWindow n o hwf ?_).trans hrecord,
    (Memory.read_congr fun a h1 h2 => byteAt_openWindow n o hwf ?_).trans hindex⟩
  · unfold inField laneBlockBase flowBase at *
    omega
  · unfold inField laneBlockBase hdrFlow at *
    omega

end

theorem inWindowSwap_apart {s : State} {n m : Fin 4} (hne : m ≠ n) {a : Nat}
    (ha : inField (hdrFlow n.val) 2 a ∨ inField (flowBase n.val (nextFlowPosition (s.lane n).flowPosition)) 32 a) :
    ¬inWindowSwap m (s.lane m) a := fun h => inWindowClose_apart hne ha h.2

/-- Each lane's current window gives way to the same window. -/
theorem eachLane_swaps {f : Fin 4 → State → State} {o : Window} {endMs : Nat} {s : State} (h : s.mem.wf)
    (hf : ∀ n t, t.rest = s.rest → f n t = swapWindow o endMs n t) :
    LanesChanged (swappedLane o) inWindowSwap allFour s (eachLane f s)
      ∧ ∀ n, swapShown s endMs n (eachLane f s).mem := by
  have hstep (n : Fin 4) (t : State) (ht : t.mem.wf) (hr : t.rest = s.rest) :
      LanesChanged (swappedLane o) inWindowSwap [n] t (f n t) := by
    rw [hf n t hr]
    exact swapWindow_changed o endMs n ht
  refine ⟨foldl_changed hstep allFour (by decide) h rfl, fun n => ?_⟩
  refine foldl_shows (R := swapShown s endMs) hstep (fun n t ht hr hl => ?_) (fun n m m' hm hn => ?_) allFour (by decide) h rfl
    (fun _ _ => rfl) n (mem_allFour n)
  · rw [hf n t hr]
    exact (swapWindow_shows o endMs n ht).of_state hl (options_of_rest hr)
  · exact swapShown_congr hn fun a ha => hm a fun i hi => inWindowSwap_apart hi ha

/-! ### A window replaced without a record (R119) -/

/-- A lane whose current window is replaced. -/
def replacedLane (o : Window) (l : Lane) : Lane := { l with window := l.window.map fun _ => o }

theorem replacedLane_none (o : Window) {l : Lane} (h : l.window = none) : replacedLane o l = l := by
  cases l
  simp_all [replacedLane]

/-- The bytes written where a lane's current window is replaced. -/
def inWindowMirror (n : Fin 4) (l : Lane) (a : Nat) : Prop :=
  l.window ≠ none ∧ inField (laneBlockBase n.val + 80) 22 a

theorem replaceWindow_none {n : Fin 4} {s : State} (h : (s.lane n).window = none) : replaceWindow n s = s := by
  simp only [replaceWindow, h]

theorem replaceWindow_some {n : Fin 4} {s : State} {w : Window} (h : (s.lane n).window = some w) :
    replaceWindow n s = openWindow n (windowOfTime s) s := by
  simp only [replaceWindow, h, windowOfTime]

theorem replaceWindow_changed (n : Fin 4) {s : State} (h : s.mem.wf) :
    LanesChanged (replacedLane (windowOfTime s)) inWindowMirror [n] s (replaceWindow n s) := by
  cases hw : (s.lane n).window with
  | none =>
    rw [replaceWindow_none hw]
    refine ⟨rfl, fun m => ?_, ⟨h, rfl, rfl, by simp, fun _ _ => rfl⟩⟩
    split
    · next hm =>
      rw [List.mem_singleton.1 hm, replacedLane_none _ hw]
    · rfl
  | some w =>
    rw [replaceWindow_some hw]
    refine ⟨openWindow_rest .., fun m => ?_, ⟨openWindow_wf n _ h, by simp, by simp, by simp, fun a ha => ?_⟩⟩
    · by_cases hm : m = n
      · subst hm
        rw [if_pos (by simp), openWindow_lane, replacedLane, hw]
        rfl
      · rw [if_neg (by simpa using hm), openWindow_lane_other _ _ hm]
    · refine byteAt_openWindow n _ h fun hin => ha ⟨n, by simp, ?_, hin⟩
      rw [hw]
      simp

theorem eachLane_replaces {s : State} (h : s.mem.wf) :
    LanesChanged (replacedLane (windowOfTime s)) inWindowMirror allFour s (eachLane replaceWindow s) :=
  foldl_changed (fun n t ht hr => windowOfTime_of_rest hr ▸ replaceWindow_changed n ht) allFour (by decide) h rfl

/-- Without a current window at any lane nothing is replaced. -/
theorem eachLane_replaceWindow_none {s : State} (h : ∀ n, (s.lane n).window = none) : eachLane replaceWindow s = s :=
  eachLane_fixed fun n => replaceWindow_none (h n)

end Sys2Proof.Machine
end

section
/-! PROOFS. The end of an event that moved windows alone, and station time taken with its record (R32, R36). -/

namespace Sys2Proof.Machine

/-! ### The end of an event that moved windows alone -/

/-- A lane the same but for its window and its flow records. -/
def sameButWindow (l l' : Lane) : Prop :=
  l' = { l with window := l'.window, flowPosition := l'.flowPosition, flowNumber := l'.flowNumber }

theorem sameButWindow.refl (l : Lane) : sameButWindow l l := by rw [sameButWindow]

theorem sameButWindow_swapped (o : Window) (l : Lane) : sameButWindow l (swappedLane o l) := by
  rw [sameButWindow, swappedLane]

theorem sameButWindow.replaced {l l' : Lane} (h : sameButWindow l l') (o : Window) :
    sameButWindow l (replacedLane o l') := by
  unfold sameButWindow at h ⊢
  rw [replacedLane, h]

/-- The bytes of the windows' mirrors of the lanes whose window changed. -/
def inWindowsChanged (s e : State) (a : Nat) : Prop :=
  ∃ n, (s.lane n).window ≠ (e.lane n).window ∧ inField (laneBlockBase n.val + 80) 22 a

section
variable {s e : State} (h : e.mem.wf) (hl : ∀ n, sameButWindow (s.lane n) (e.lane n)) (hp : e.ports = s.ports)
  (hev : e.evacuate = s.evacuate) (hm : stateMirror s = stateMirror e)
include hl hev

theorem settleOutputs_windows_lane (n : Fin 4) : (settleOutputs s e).lane n = e.lane n := by
  have hstate : (e.lane n).state = (s.lane n).state := by rw [hl n]
  rw [settleOutputs_lane, drivePulse_same]
  rw [lockReleased, lockReleased, hev, hstate]

omit hev in
include h hp in
/-- At most the state mirror and the windows' mirrors are written. -/
theorem settleOutputs_shows :
    Amends e (settleOutputs s e)
      (fun a => stateMirror s ≠ stateMirror e ∧ inField hdrState 2 a ∨ inWindowsChanged s e a) 0#8 := by
  refine ⟨settleOutputs_wf s h, settleOutputs_ports .., settleOutputs_journal .., by simp, fun a ha => ?_⟩
  rw [not_or] at ha
  obtain ⟨hstate, hwindows⟩ := ha
  by_cases hin : ∃ n, inLaneMirror n a
  · obtain ⟨n, hin⟩ := hin
    have hport : e.port n = s.port n := by rw [State.port, State.port, hp]
    refine byteAt_settleOutputs_kept s h n hin (.inr ?_) (.inr ?_) (.inr ?_) (.inr (by rw [hport])) (.inr ?_) ?_
    · rw [hl n]
      rfl
    · rw [hl n]
      rfl
    · rw [hl n]
      rfl
    · rw [hl n]
      rfl
    · by_cases hw : (s.lane n).window = (e.lane n).window
      · exact .inr hw
      · exact .inl fun hmirror => hwindows ⟨n, hw, hmirror⟩
  · refine byteAt_settleOutputs_outside s h ?_ fun n hn => hin ⟨n, hn⟩
    by_cases hm : stateMirror s = stateMirror e
    · exact .inr hm
    · exact .inl fun hfield => hstate ⟨hm, hfield⟩

omit hev in
include h hp hm in
theorem settleOutputs_windows : Amends e (settleOutputs s e) (inWindowsChanged s e) 0#8 :=
  (settleOutputs_shows h hl hp).mono fun _ ha => ha.resolve_left fun hs => hs.1 hm

end

/-! ### Station time taken from a SET_TIME (R36) -/

/-- Station time as moved, with its STATION record, set. -/
def timeTaken (beforeDay beforeMs : Nat) (m : State) : State :=
  { stationRecord .setTime false beforeDay beforeMs (writeTimeMirror m) with timeSet := true }

theorem timeTaken_rest (d0 m0 : Nat) (m : State) : (timeTaken d0 m0 m).rest = ({ m with timeSet := true } : State).rest := by
  have hrest := stationRecord_rest .setTime false d0 m0 (writeTimeMirror m)
  rw [writeTimeMirror_rest] at hrest
  exact congrArg (fun v : State => { v with timeSet := true }) hrest

theorem timeTaken_lane (d0 m0 : Nat) (m : State) (n : Fin 4) : (timeTaken d0 m0 m).lane n = m.lane n :=
  (lane_of_lanes (stationRecord_lanes .setTime false d0 m0 (writeTimeMirror m)) n).trans
    (lane_of_lanes (writeTimeMirror_lanes m) n)

theorem writeTimeMirror_amends {m : State} (h : m.mem.wf) : Amends m (writeTimeMirror m) (inField hdrMs 6) 0#8 where
  wf := writeTimeMirror_wf h
  ports := writeTimeMirror_ports m
  journal := writeTimeMirror_journal m
  attn := by simp
  bytes := fun a ha => by
    unfold inField hdrMs at ha
    exact (Memory.byteAt_write_outside (Memory.write_wf h hdrMs 4 (m.ms / 1000 * 1000)) (by unfold hdrDay; omega)).trans
      (Memory.byteAt_write_outside h (by unfold hdrMs; omega))

/-- A cause raised behind an amendment. -/
theorem raised_amends {t u : State} {Q : Nat → Prop} (A : Amends t u Q 0#8) (e : Cause) :
    Amends t (raise e u) Q (1#8 <<< e.bit) where
  wf := by rw [raise_mem]; exact A.wf
  ports := (raise_ports ..).trans A.ports
  journal := (raise_journal ..).trans A.journal
  attn := by
    rw [raise, A.attn, BitVec.or_zero]
  bytes := fun a ha => by
    rw [raise_mem]
    exact A.bytes a ha

/-- The header as the time mirror leaves it. -/
theorem writeTimeMirror_peek {m : State} (h : m.mem.wf) (hd : m.day < 65536) (hm : m.ms < 86400000) :
    (writeTimeMirror m).peek hdrDay 2 = m.day ∧ (writeTimeMirror m).peek hdrMs 4 = m.ms / 1000 * 1000 := by
  have hw := Memory.write_wf h hdrMs 4 (m.ms / 1000 * 1000)
  refine ⟨(Memory.read_write hw _ _ _).trans (by omega), ?_⟩
  exact (Memory.read_write_outside hw (by unfold hdrMs hdrDay; omega)).trans
    ((Memory.read_write h _ _ _).trans (Nat.mod_eq_of_lt (by omega)))

theorem byteAt_timeTaken {m : State} (h : m.mem.wf) (d0 m0 : Nat) {a : Nat} (hms : ¬inField hdrMs 6 a)
    (ha : ¬inAppend m a) : (timeTaken d0 m0 m).mem.byteAt a = m.mem.byteAt a :=
  (byteAt_appendUnpledged _ (writeTimeMirror_wf h) ha).trans ((writeTimeMirror_amends h).bytes a hms)

/-- The order slots stand behind station time taken. -/
theorem timeTaken_slot {m : State} (h : m.mem.wf) (hw : m.journal.writeIndex < 1024) (d0 m0 : Nat) (k : Fin 32)
    {off n : Nat} (ho : off + n ≤ 128) :
    (timeTaken d0 m0 m).peek (orderBase k.val + off) n = m.peek (orderBase k.val + off) n := by
  have hk := k.isLt
  refine Memory.read_congr fun a h1 h2 => byteAt_timeTaken h d0 m0 (fun ha => ?_) fun ha => ?_
  · unfold inField hdrMs at ha
    unfold orderBase at h1
    omega
  · have := inAppend_region hw ha
    unfold orderBase at h1 h2
    omega

/-- The record of a SET_TIME with the time before. -/
def setTimeRecord (m : State) (beforeDay beforeMs : Nat) : Record :=
  ⟨none, m.day, m.ms, [], none, .station .setTime m.online false beforeDay beforeMs⟩

section
variable {s m : State} {P : Nat → Prop} {b : BitVec 8} {x : Appended} (R : Reached s m P b x) (hx : x.fresh)
  (hj : x.journal.indexed) (hP : ∀ a, P a → ¬inField hdrThreshold 2 a) (d0 m0 : Nat)
include R hx hj hP

theorem timeTaken_reached :
    Reached s (timeTaken d0 m0 m) (fun a => P a ∨ inField hdrMs 6 a ∨ inAppend m a) b
      (Appended.ask (thresholdOf s) x (false, setTimeRecord m d0 m0)) := by
  have mirrored := R.amend (writeTimeMirror_amends R.wf) (by decide)
    fun a ha => by unfold inWriter; unfold inField hdrMs at ha; omega
  have asked := mirrored.ask hx hj (fun a ha => ha.elim (hP a) fun ha => by
    unfold inField hdrMs at ha
    unfold inField hdrThreshold
    omega) (setTimeRecord m d0 m0)
  have hb : b ||| 0#8 = b := BitVec.or_zero
  rw [hb] at asked
  have hrun : appendUnpledged (setTimeRecord m d0 m0) (writeTimeMirror m) =
      stationRecord .setTime false d0 m0 (writeTimeMirror m) := rfl
  rw [hrun] at asked
  exact ⟨asked.wf, asked.ports, asked.attn, fun a ha => asked.bytes a fun hin => ha (or_assoc.1 hin),
    asked.records.right asked.fresh rfl (fun _ _ => rfl) ⟨rfl, rfl⟩, asked.fresh⟩

omit hx hP in
theorem timeTaken_peek (hd : m.day < 65536) (hm : m.ms < 86400000) :
    (timeTaken d0 m0 m).peek hdrDay 2 = m.day ∧ (timeTaken d0 m0 m).peek hdrMs 4 = m.ms / 1000 * 1000 := by
  obtain ⟨hday, hms⟩ := writeTimeMirror_peek R.wf hd hm
  have hindex : m.journal.writeIndex < 1024 := by rw [R.records.journal]; exact hj.1
  have same (a : Nat) (h1 : 8 ≤ a) (h2 : a < 14) :
      (timeTaken d0 m0 m).mem.byteAt a = (writeTimeMirror m).mem.byteAt a :=
    byteAt_appendUnpledged _ (writeTimeMirror_wf R.wf) fun ha => by
      have := inAppend_region hindex ha
      omega
  exact ⟨(Memory.read_congr fun a h1 h2 => same a (by unfold hdrDay at h1; omega) (by unfold hdrDay at h2; omega)).trans hday,
    (Memory.read_congr fun a h1 h2 => same a (by unfold hdrMs at h1; omega) (by unfold hdrMs at h2; omega)).trans hms⟩

end

end Sys2Proof.Machine
end

section
/-! PROOFS. The end of a SET_TIME that is carried out (R33 to R36, R202). -/

namespace Sys2Proof.Machine

/-! ### The end of a SET_TIME (R33 to R36) -/

theorem endOrder_amends {h : State} (hw : h.mem.wf) {k : Fin 32} (ht : orderState h k = 2) (r : Result) :
    Amends h (endOrder k r h) (inOrderEnd k) 1#8 := by
  obtain ⟨-, -, -, hattn⟩ := endOrder_shows k r hw ht
  exact ⟨endOrder_wf k r hw, endOrder_ports .., endOrder_journal .., hattn, fun a ha => byteAt_endOrder k r hw ha⟩

/-- The event of a SET_TIME that ends OK, its windows moved. -/
def timeSetEnd (s : State) (k : Fin 32) (h : State) : State := settleOutputs s (endOrder k .ok h)

/-- Where the lanes' windows and their flow records are written. -/
def inWindowRegion (a : Nat) : Prop :=
  (18 ≤ a ∧ a < 26) ∨ (0x1100 ≤ a ∧ a < 0x1500) ∨ (0x4200 ≤ a ∧ a < 0x6200)

theorem inWindowSwap_region {n : Fin 4} {l : Lane} {a : Nat} (ha : inWindowSwap n l a) : inWindowRegion a := by
  obtain ⟨-, ha⟩ := ha
  have hn := n.isLt
  have hp := nextFlowPosition_lt l.flowPosition
  unfold inField laneBlockBase hdrFlow flowBase at ha
  unfold inWindowRegion
  omega

theorem inWindowsChanged_region {s e : State} {a : Nat} (ha : inWindowsChanged s e a) : 0x1100 ≤ a ∧ a < 0x1500 := by
  obtain ⟨n, -, ha⟩ := ha
  have hn := n.isLt
  unfold inField laneBlockBase at ha
  omega

section
variable {s v h : State} {k : Fin 32} {W : Nat → Prop} {d m : Nat} {cs : Option CreditSweep}
  (A : Amends v h W 0#8) (hW : ∀ a, W a → inWindowRegion a) (hl : ∀ n, sameButWindow (s.lane n) (h.lane n))
  (hp : v.ports = s.ports)
  (hrest : h.rest = ({ takeSlot k s with day := d, ms := m, timeSet := true, creditSweep := cs } : State).rest)
  (ht : orderState v k = 2) (hk : orderKind v k = orderKind s k)

include hrest

theorem timeSetEnd_rest :
    (timeSetEnd s k h).rest = ({ takeSlot k s with day := d, ms := m, timeSet := true, creditSweep := cs } : State).rest :=
  (settleOutputs_rest ..).trans ((endOrder_rest ..).trans hrest)

include A hp in
theorem timeSetEnd_eq :
    timeSetEnd s k h = { s with
      mem := (timeSetEnd s k h).mem, attn := (timeSetEnd s k h).attn, sweepNext := (timeSetEnd s k h).sweepNext
      journal := (timeSetEnd s k h).journal, lanes := (timeSetEnd s k h).lanes
      day := d, ms := m, timeSet := true, creditSweep := cs } := by
  have hports : (timeSetEnd s k h).ports = s.ports :=
    (settleOutputs_ports ..).trans ((endOrder_ports ..).trans (A.ports.trans hp))
  have hsweep : (timeSetEnd s k h).sweepNext = slotAfter k := sweepNext_of_rest (timeSetEnd_rest hrest)
  have heq := eq_of_rest (timeSetEnd_rest hrest)
  rw [hports] at heq
  rw [hsweep]
  exact heq

include hl in
theorem timeSetEnd_lane (n : Fin 4) : (timeSetEnd s k h).lane n = h.lane n := by
  have hlane (n : Fin 4) : (endOrder k .ok h).lane n = h.lane n := lane_of_lanes (endOrder_lanes ..) n
  have hev : (endOrder k .ok h).evacuate = s.evacuate := (evacuate_of_rest ((endOrder_rest ..).trans hrest)).trans rfl
  exact (settleOutputs_windows_lane (fun n => hlane n ▸ hl n) hev n).trans (hlane n)

omit hrest in
include A hW in
theorem timeSetEnd_slot {off n : Nat} (ho : off + n ≤ 128) :
    h.peek (orderBase k.val + off) n = v.peek (orderBase k.val + off) n := by
  have hk := k.isLt
  refine Memory.read_congr fun a h1 h2 => A.bytes a fun ha => ?_
  have := hW a ha
  unfold inWindowRegion at this
  unfold orderBase at h1 h2
  omega

include A hW hl hp ht

theorem timeSetEnd_settles :
    Amends h (timeSetEnd s k h) (fun a => inOrderEnd k a ∨ inWindowsChanged s h a) 1#8 := by
  have hlane (n : Fin 4) : (endOrder k .ok h).lane n = h.lane n := lane_of_lanes (endOrder_lanes ..) n
  have htaken : orderState h k = 2 := (timeSetEnd_slot A hW (off := 0) (by omega)).trans ht
  have ended := endOrder_amends A.wf htaken .ok
  have hm : stateMirror s = stateMirror (endOrder k .ok h) := by
    have hr := (endOrder_rest k .ok h).trans hrest
    rw [stateMirror, stateMirror, station_of_rest hr, online_of_rest hr, freeFlow_of_rest hr]
    rfl
  have settled := settleOutputs_windows (s := s) ended.wf (fun n => hlane n ▸ hl n)
    (ended.ports.trans (A.ports.trans hp)) hm
  refine (ended.trans settled).mono fun a ha => ?_
  rcases ha with ha | ⟨n, hn, ha⟩
  · exact .inl ha
  · exact .inr ⟨n, hlane n ▸ hn, ha⟩

theorem timeSetEnd_amends :
    Amends v (timeSetEnd s k h) (fun a => W a ∨ inOrderEnd k a ∨ inWindowsChanged s h a) 1#8 :=
  A.trans (timeSetEnd_settles A hW hl hp hrest ht)

include hk

theorem timeSetEnd_ended : orderEnded s (timeSetEnd s k h) k .ok := by
  have hk32 := k.isLt
  have htaken : orderState h k = 2 := (timeSetEnd_slot A hW (off := 0) (by omega)).trans ht
  have hkind : orderKind h k = orderKind s k := (timeSetEnd_slot A hW (off := 2) (by omega)).trans hk
  obtain ⟨hstate, hcode, hended, -⟩ := endOrder_shows k .ok A.wf htaken
  have amended := timeSetEnd_amends A hW hl hp hrest ht
  have hlane (n : Fin 4) : (endOrder k .ok h).lane n = h.lane n := lane_of_lanes (endOrder_lanes ..) n
  have slot (off n : Nat) (ho : off + n ≤ 128) :
      (timeSetEnd s k h).peek (orderBase k.val + off) n = (endOrder k .ok h).peek (orderBase k.val + off) n := by
    refine Memory.read_congr fun a h1 h2 => byteAt_settleOutputs_outside s (endOrder_wf k .ok A.wf) (.inl ?_) fun n hn => ?_
    · unfold inField hdrState
      unfold orderBase at h1
      omega
    · have := inLaneMirror_region hn
      unfold orderBase at h2
      omega
  refine ⟨(slot 0 2 (by omega)).trans hstate, (slot 3 1 (by omega)).trans hcode,
    (slot 2 1 (by omega)).trans (hended.trans hkind), ?_, sweepNext_of_rest (timeSetEnd_rest hrest)⟩
  rw [amended.attn]
  exact or_one_bit _

end

/-! ### The order taken -/

section
variable {s : State} {k : Fin 32} (h : s.mem.wf)
include h

/-- A SET_TIME that passes its checks is carried out. -/
theorem setTime_accepts (hc : carries s k 9) (hd : s.peek (orderBase k.val + 8) 2 < 65535)
    (hm : s.peek (orderBase k.val + 10) 4 < 86400000)
    (hb : s.station = .quiet ∨ s.day < s.peek (orderBase k.val + 8) 2
      ∨ s.peek (orderBase k.val + 8) 2 = s.day ∧ s.ms ≤ s.peek (orderBase k.val + 10) 4) :
    exec (.setTime k) s = .next (timeSetEnd s k (handStep s.day s.ms (timeTaken s.day s.ms
      (moveTime (s.peek (orderBase k.val + 8) 2) (s.peek (orderBase k.val + 10) 4) (takeSlot k s))))) := by
  have hday : payload (takeSlot k s) k 8 2 = s.peek (orderBase k.val + 8) 2 := payload_takeSlot k h (by decide)
  have hms : payload (takeSlot k s) k 10 4 = s.peek (orderBase k.val + 10) 4 := payload_takeSlot k h (by decide)
  have hbody : setTime k (takeSlot k s) =
      acceptTime k (s.peek (orderBase k.val + 8) 2) (s.peek (orderBase k.val + 10) 4) (takeSlot k s) := by
    unfold setTime
    dsimp only
    rw [hday, hms, if_neg (by unfold dayMs; omega), if_neg]
    rintro ⟨hquiet, hback⟩
    rcases hb with hb | hb
    · exact hquiet hb
    · rw [takeSlot_day, takeSlot_ms] at hback
      omega
  show execSetTime k s = _
  unfold execSetTime
  rw [carries_runs hc, hbody]
  rfl

end

end Sys2Proof.Machine
end

section
/-! PROOFS. SET_TIME within the day (R33 to R36, R119). -/

namespace Sys2Proof.Machine

/-! ### A step within the day (R35, R36, R119) -/

/-- The order taken and the milliseconds set. -/
def msMoved (s : State) (k : Fin 32) (ms : Nat) : State := { takeSlot k s with ms := ms }

theorem moveTime_within (s : State) (k : Fin 32) (ms : Nat) : moveTime s.day ms (takeSlot k s) = msMoved s k ms := by
  unfold moveTime msMoved
  exact if_pos (takeSlot_day k s).symm

/-- Station time taken within the day. -/
def timeWithin (s : State) (k : Fin 32) (ms : Nat) : State := timeTaken s.day s.ms (msMoved s k ms)

/-- The lanes' windows stepped where station time moved. -/
def windowsStepped (s : State) (k : Fin 32) (ms : Nat) : State :=
  if ms = s.ms then timeWithin s k ms else eachLane (stepWindow s.ms) (timeWithin s k ms)

section
variable {s : State} {k : Fin 32} {ms : Nat}

theorem timeWithin_rest :
    (timeWithin s k ms).rest = ({ takeSlot k s with day := s.day, ms := ms, timeSet := true
                                                    creditSweep := s.creditSweep } : State).rest :=
  timeTaken_rest s.day s.ms (msMoved s k ms)

theorem timeWithin_lane (n : Fin 4) : (timeWithin s k ms).lane n = s.lane n :=
  timeTaken_lane s.day s.ms (msMoved s k ms) n

theorem handStep_within : handStep s.day s.ms (timeWithin s k ms) = windowsStepped s k ms := by
  have hday : (timeWithin s k ms).day = s.day := (day_of_rest timeWithin_rest).trans rfl
  have hms : (timeWithin s k ms).ms = ms := (ms_of_rest timeWithin_rest).trans rfl
  unfold handStep windowsStepped
  rw [hday, hms]
  simp

theorem windowOfTime_within :
    windowOfTime (timeWithin s k ms) =
      ⟨s.day, ms / 60000 / s.options.windowLength, false,
        !(ms = ms / 60000 / s.options.windowLength * s.options.windowLength * 60000), !s.online,
        ⟨0, 0, 0, 0, 0, 0, 0, 0⟩⟩ :=
  (windowOfTime_of_rest timeWithin_rest).trans rfl

variable (hok : s.ok)
include hok

theorem msMoved_amends : Amends s (msMoved s k ms) (inField (orderBase k.val) 2) 0#8 :=
  ⟨takeSlot_wf k hok.1, rfl, rfl, by simp [msMoved], fun _ ha => byteAt_takeSlot k hok.1 ha⟩

theorem timeWithin_reached :
    Reached s (timeWithin s k ms) (fun a => inField (orderBase k.val) 2 a ∨ inField hdrMs 6 a ∨ inAppend s a) 0#8
      (Appended.ask (thresholdOf s) ⟨s.journal, [], false, false⟩ (false, setTimeRecord (msMoved s k ms) s.day s.ms)) := by
  refine timeTaken_reached ((msMoved_amends hok).reached (by decide)) (Appended.fresh_nil _) ⟨hok.2.1, hok.2.2⟩
    (fun a ha => ?_) s.day s.ms
  unfold inField orderBase at ha
  unfold inField hdrThreshold
  omega

theorem timeWithin_slot {off n : Nat} (ho : off + n ≤ 128) :
    (timeWithin s k ms).peek (orderBase k.val + off) n = (takeSlot k s).peek (orderBase k.val + off) n :=
  timeTaken_slot (m := msMoved s k ms) (takeSlot_wf k hok.1) hok.2.1 s.day s.ms k ho

theorem timeWithin_state : orderState (timeWithin s k ms) k = 2 :=
  (timeWithin_slot hok (off := 0) (by omega)).trans (orderState_takeSlot k hok.1)

theorem timeWithin_kind : orderKind (timeWithin s k ms) k = orderKind s k :=
  (timeWithin_slot hok (off := 2) (by omega)).trans (orderKind_takeSlot k hok.1)

theorem timeWithin_peek (hd : s.day < 65536) (hm : ms < 86400000) :
    (timeWithin s k ms).peek hdrDay 2 = s.day ∧ (timeWithin s k ms).peek hdrMs 4 = ms / 1000 * 1000 :=
  timeTaken_peek ((msMoved_amends hok).reached (by decide)) ⟨hok.2.1, hok.2.2⟩ s.day s.ms hd hm

/-- The windows of the lanes where station time moved. -/
theorem windowsStepped_changed (hne : ms ≠ s.ms) :
    LanesChanged (swappedLane (windowOfTime (timeWithin s k ms))) inWindowSwap allFour (timeWithin s k ms)
        (windowsStepped s k ms)
      ∧ ∀ n, swapShown (timeWithin s k ms) s.ms n (windowsStepped s k ms).mem := by
  rw [windowsStepped, if_neg hne]
  exact eachLane_swaps (timeWithin_reached hok).wf fun n t ht => by rw [stepWindow_eq, windowOfTime_of_rest ht]

theorem windowsStepped_rest :
    (windowsStepped s k ms).rest = ({ takeSlot k s with day := s.day, ms := ms, timeSet := true
                                                        creditSweep := s.creditSweep } : State).rest := by
  by_cases hne : ms = s.ms
  · rw [windowsStepped, if_pos hne]
    exact timeWithin_rest
  · exact (windowsStepped_changed hok hne).1.rest.trans timeWithin_rest

theorem windowsStepped_lane (n : Fin 4) :
    (windowsStepped s k ms).lane n =
      if ms = s.ms then s.lane n else swappedLane (windowOfTime (timeWithin s k ms)) (s.lane n) := by
  by_cases hne : ms = s.ms
  · rw [windowsStepped, if_pos hne, if_pos hne, timeWithin_lane]
  · rw [(windowsStepped_changed hok hne).1.lanes, if_pos (mem_allFour n), if_neg hne, timeWithin_lane]

/-- What the step writes: the windows of the lanes that have one. -/
def inWindowStep (s : State) (ms a : Nat) : Prop := ms ≠ s.ms ∧ ∃ n, inWindowSwap n (s.lane n) a

theorem windowsStepped_amends : Amends (timeWithin s k ms) (windowsStepped s k ms) (inWindowStep s ms) 0#8 := by
  by_cases hne : ms = s.ms
  · rw [windowsStepped, if_pos hne]
    exact ⟨(timeWithin_reached hok).wf, rfl, rfl, by simp, fun _ _ => rfl⟩
  · refine (windowsStepped_changed hok hne).1.memory.mono fun a ⟨n, _, ha⟩ => ⟨hne, n, ?_⟩
    rw [timeWithin_lane] at ha
    exact ha

theorem windowsStepped_same (n : Fin 4) : sameButWindow (s.lane n) ((windowsStepped s k ms).lane n) := by
  rw [windowsStepped_lane hok]
  split
  · exact .refl _
  · exact sameButWindow_swapped _ _

omit hok in
theorem inWindowStep_region {a : Nat} (ha : inWindowStep s ms a) : inWindowRegion a := by
  obtain ⟨-, n, ha⟩ := ha
  exact inWindowSwap_region ha

theorem inWindowsChanged_stepped {a : Nat} (ha : inWindowsChanged s (windowsStepped s k ms) a) : inWindowStep s ms a := by
  obtain ⟨n, hn, ha⟩ := ha
  rw [windowsStepped_lane hok] at hn
  by_cases hne : ms = s.ms
  · rw [if_pos hne] at hn
    exact absurd rfl hn
  · rw [if_neg hne] at hn
    refine ⟨hne, n, fun hnone => hn ?_, .inl ha⟩
    rw [swappedLane_none _ hnone]

/-- The state that the SET_TIME within the day ends with. -/
theorem timeSetEnd_within_amends :
    Amends (timeWithin s k ms) (timeSetEnd s k (windowsStepped s k ms)) (fun a => inOrderEnd k a ∨ inWindowStep s ms a)
      1#8 :=
  (timeSetEnd_amends (windowsStepped_amends hok) (fun _ => inWindowStep_region) (windowsStepped_same hok)
    (timeWithin_reached hok).ports (windowsStepped_rest hok) (timeWithin_state hok)).mono fun a ha => by
      rcases ha with ha | ha | ha
      · exact .inr ha
      · exact .inl ha
      · exact .inr (inWindowsChanged_stepped hok ha)

theorem timeSetEnd_within_reached :
    Reached s (timeSetEnd s k (windowsStepped s k ms))
      (fun a => (inField (orderBase k.val) 2 a ∨ inField hdrMs 6 a ∨ inAppend s a) ∨ inOrderEnd k a ∨ inWindowStep s ms a)
      1#8
      (Appended.ask (thresholdOf s) ⟨s.journal, [], false, false⟩ (false, setTimeRecord (msMoved s k ms) s.day s.ms)) := by
  refine (timeWithin_reached hok).amend (timeSetEnd_within_amends hok) (by decide) fun a ha => ?_
  have hk := k.isLt
  unfold inWriter
  rcases ha with ha | ha
  · unfold inOrderEnd inField orderBase at ha
    omega
  · have := inWindowStep_region ha
    unfold inWindowRegion at this
    omega

end

/-- Settles O9: the order taken, the milliseconds set with their record, the windows stepped, the order ended. -/
theorem setTimeWithinDay : Obligations.SetTimeWithinDay := by
  intro s k hok htime hc hday hlt hforward
  obtain ⟨hd, -, -⟩ := htime
  generalize hms : s.peek (orderBase k.val + 10) 4 = ms at hlt hforward
  have hrun : exec (.setTime k) s = .next (timeSetEnd s k (windowsStepped s k ms)) := by
    rw [setTime_accepts hok.1 hc (by omega) (by omega) (hforward.imp_right fun h => .inr ⟨hday, hms.symm ▸ h⟩), hday, hms,
      moveTime_within, ← timeWithin, handStep_within]
  have reached := timeSetEnd_within_reached (k := k) (ms := ms) hok
  have amended := timeSetEnd_within_amends (k := k) (ms := ms) hok
  have settled := timeSetEnd_settles (windowsStepped_amends hok) (fun _ => inWindowStep_region) (windowsStepped_same hok)
    (timeWithin_reached hok).ports (windowsStepped_rest hok) (timeWithin_state (k := k) (ms := ms) hok)
  have hk := k.isLt
  have heq := timeSetEnd_eq (windowsStepped_amends hok) (timeWithin_reached hok).ports
    (windowsStepped_rest (k := k) (ms := ms) hok)
  have hlane (n : Fin 4) : (timeSetEnd s k (windowsStepped s k ms)).lane n =
      if ms = s.ms then s.lane n else swappedLane (windowOfTime (timeWithin s k ms)) (s.lane n) :=
    (timeSetEnd_lane (windowsStepped_same hok) (windowsStepped_rest hok) n).trans (windowsStepped_lane hok n)
  have htms : (timeSetEnd s k (windowsStepped s k ms)).ms = ms := by rw [heq]
  have shown (a : Nat) (h1 : 8 ≤ a) (h2 : a < 14) :
      (timeSetEnd s k (windowsStepped s k ms)).mem.byteAt a = (timeWithin s k ms).mem.byteAt a := by
    refine amended.bytes a fun ha => ?_
    rcases ha with ha | ha
    · unfold inOrderEnd inField orderBase at ha
      omega
    · have := inWindowStep_region ha
      unfold inWindowRegion at this
      omega
  obtain ⟨hpday, hpms⟩ := timeWithin_peek (k := k) hok (by omega) hlt
  refine ⟨_, hrun, timeSetEnd_ended (windowsStepped_amends hok) (fun _ => inWindowStep_region) (windowsStepped_same hok)
    (timeWithin_reached hok).ports (windowsStepped_rest hok) (timeWithin_state hok) (timeWithin_kind hok), heq,
    reached.attn, ?_, ?_, ?_, fun hsame => ?_, fun hne n => ?_, fun hne n w hw => ?_, fun a ha => ?_⟩
  · exact (Memory.read_congr fun a h1 h2 => shown a (by unfold hdrDay at h1; omega) (by unfold hdrDay at h2; omega)).trans
      hpday
  · rw [htms]
    exact (Memory.read_congr fun a h1 h2 => shown a (by unfold hdrMs at h1; omega) (by unfold hdrMs at h2; omega)).trans hpms
  · rw [htms]
    exact unpledgedRecord_of_asked reached.records
  · rw [htms] at hsame
    exact Quad.ext_get fun n => (hlane n).trans (if_pos hsame)
  · rw [htms] at hne ⊢
    rw [hlane, if_neg hne, windowOfTime_within]
    rfl
  · rw [htms] at hne
    have hp := nextFlowPosition_lt (s.lane n).flowPosition
    have hn := n.isLt
    have hshown := ((windowsStepped_changed (k := k) hok hne).2 n).of_state (timeWithin_lane n)
      ((options_of_rest timeWithin_rest).trans rfl)
    refine Eq.trans ?_ (hshown w hw).1
    refine Memory.readBytes_congr fun a h1 h2 => settled.bytes a fun ha => ?_
    unfold flowBase at h1
    rcases ha with ha | ha
    · unfold inOrderEnd inField orderBase at ha
      omega
    · have := inWindowsChanged_region ha
      omega
  · refine reached.bytes a fun hin => ha ?_
    rw [htms]
    rcases hin with (hin | hin | hin) | hin | hin
    · exact .inl (.inl hin)
    · exact .inr (.inr (.inl hin))
    · exact .inr (.inl hin)
    · exact .inl hin
    · obtain ⟨hne, n, hsome, hin⟩ := hin
      obtain ⟨w, hw⟩ := Option.ne_none_iff_exists'.1 hsome
      exact .inr (.inr (.inr ⟨n, w, hw, hne, hin⟩))

end Sys2Proof.Machine
end

section
/-! PROOFS. SET_TIME to an earlier day in QUIET (R34). -/

namespace Sys2Proof.Machine

/-! ### A step to an earlier day in QUIET (R34) -/

/-- The order taken, station time set back and the Closure List empty, before a running sweep is cut short. -/
def daySetBack (s : State) (k : Fin 32) (day ms : Nat) : State :=
  { takeSlot k s with day := day, ms := ms, mem := clearClosures (takeSlot k s).mem }

theorem backTo_eq (s : State) (k : Fin 32) (day ms : Nat) :
    backTo day ms (takeSlot k s) = cutSweepShort (daySetBack s k day ms) := by
  rw [backTo, daySetBack]

section
variable {s : State} {k : Fin 32} {day ms : Nat}

theorem daySetBack_rest (cs : Option CreditSweep) :
    ({ daySetBack s k day ms with creditSweep := cs } : State).rest =
      ({ takeSlot k s with day := day, ms := ms, creditSweep := cs } : State).rest := by
  unfold daySetBack
  rfl

theorem daySetBack_lanes : (daySetBack s k day ms).lanes = s.lanes := by
  rw [daySetBack, ← takeSlot_lanes k s]

variable (h : s.mem.wf)
include h

theorem daySetBack_amends :
    Amends s (daySetBack s k day ms) (fun a => inField (orderBase k.val) 2 a ∨ inField (closureBase 0) 128 a) 0#8 := by
  have hw := takeSlot_wf k h
  refine ⟨?_, by rw [daySetBack, ← takeSlot_ports k s], by rw [daySetBack, ← takeSlot_journal k s], ?_, fun a ha => ?_⟩
  · rw [daySetBack]
    exact clearClosures_wf hw
  · rw [daySetBack, BitVec.or_zero, ← takeSlot_attn k s]
  · rw [not_or] at ha
    rw [daySetBack]
    exact (byteAt_clearClosures hw ha.2).trans (byteAt_takeSlot k h ha.1)

theorem byteAt_daySetBack {a : Nat} (ha : ¬inField (closureBase 0) 128 a) :
    (daySetBack s k day ms).mem.byteAt a = (takeSlot k s).mem.byteAt a := by
  rw [daySetBack]
  exact byteAt_clearClosures (takeSlot_wf k h) ha

theorem daySetBack_slot {off n : Nat} (j : Fin 32) (ho : off + n ≤ 128) :
    (daySetBack s k day ms).peek (orderBase j.val + off) n = (takeSlot k s).peek (orderBase j.val + off) n := by
  have hj := j.isLt
  refine Memory.read_congr fun a h1 h2 => byteAt_daySetBack h ?_
  unfold inField closureBase
  unfold orderBase at h2
  omega

theorem heldClosures_daySetBack : heldClosures (daySetBack s k day ms).mem = [] := by
  rw [daySetBack]
  exact heldClosures_clearClosures (takeSlot_wf k h)

end

/-- Station time moved back: `m` follows the order taken, `x` the records asked for until then. -/
structure MovedBack (s m : State) (k : Fin 32) (day ms : Nat) (cs : Option CreditSweep) (P : Nat → Prop) (b : BitVec 8)
    (x : Appended) : Prop where
  reached : Reached s m P b x
  fresh : x.fresh
  indexed : x.journal.indexed
  threshold : ∀ a, P a → ¬inField hdrThreshold 2 a
  rest : m.rest = ({ takeSlot k s with day := day, ms := ms, creditSweep := cs } : State).rest
  lanes : m.lanes = s.lanes
  state : orderState m k = 2
  kind : orderKind m k = orderKind s k

/-- The event that a step to an earlier day ends with. -/
def timeSetBack (s m : State) (k : Fin 32) : State := timeSetEnd s k (timeTaken s.day s.ms m)

section
variable {s m : State} {k : Fin 32} {day ms : Nat} {cs : Option CreditSweep} {P : Nat → Prop} {b : BitVec 8} {x : Appended}
  (M : MovedBack s m k day ms cs P b x)
include M

theorem MovedBack.taken_rest :
    (timeTaken s.day s.ms m).rest =
      ({ takeSlot k s with day := day, ms := ms, timeSet := true, creditSweep := cs } : State).rest := by
  refine (timeTaken_rest s.day s.ms m).trans ?_
  have hrest := congrArg (fun v : State => { v with timeSet := true }) M.rest
  exact hrest

theorem MovedBack.taken_lane (n : Fin 4) : (timeTaken s.day s.ms m).lane n = s.lane n :=
  (timeTaken_lane s.day s.ms m n).trans (lane_of_lanes M.lanes n)

theorem MovedBack.index : m.journal.writeIndex < 1024 := by
  rw [M.reached.records.journal]
  exact M.indexed.1

theorem MovedBack.day_ms : m.day = day ∧ m.ms = ms ∧ m.online = s.online :=
  ⟨(day_of_rest M.rest).trans rfl, (ms_of_rest M.rest).trans rfl, (online_of_rest M.rest).trans rfl⟩

theorem MovedBack.taken_reached :
    Reached s (timeTaken s.day s.ms m) (fun a => P a ∨ inField hdrMs 6 a ∨ inAppend m a) b
      (Appended.ask (thresholdOf s) x
        (false, ⟨none, day, ms, [], none, .station .setTime s.online false s.day s.ms⟩)) := by
  obtain ⟨hday, hms, honline⟩ := M.day_ms
  have reached := timeTaken_reached M.reached M.fresh M.indexed M.threshold s.day s.ms
  rw [setTimeRecord, hday, hms, honline] at reached
  exact reached

theorem MovedBack.taken_same (n : Fin 4) : sameButWindow (s.lane n) ((timeTaken s.day s.ms m).lane n) := by
  rw [M.taken_lane]
  exact .refl _

theorem MovedBack.amends_none : Amends (timeTaken s.day s.ms m) (timeTaken s.day s.ms m) (fun _ => False) 0#8 :=
  ⟨M.taken_reached.wf, rfl, rfl, by simp, fun _ _ => rfl⟩

theorem MovedBack.taken_slot {off n : Nat} (j : Fin 32) (ho : off + n ≤ 128) :
    (timeTaken s.day s.ms m).peek (orderBase j.val + off) n = m.peek (orderBase j.val + off) n :=
  timeTaken_slot M.reached.wf M.index s.day s.ms j ho

/-- Without a window at any lane a step to another day leaves the Count Unit as it stands. -/
theorem MovedBack.runs (hc : carries s k 9) (h : s.mem.wf) (hq : s.station = .quiet)
    (hd : s.peek (orderBase k.val + 8) 2 = day) (hm : s.peek (orderBase k.val + 10) 4 = ms) (hlt : day < s.day)
    (hday : s.day < 65536) (hms : ms < 86400000) (hmove : cutSweepShort (daySetBack s k day ms) = m)
    (hwin : ∀ n, (s.lane n).window = none) : exec (.setTime k) s = .next (timeSetBack s m k) := by
  have htaken : (timeTaken s.day s.ms m).day = day := (day_of_rest M.taken_rest).trans rfl
  have hstep : handStep s.day s.ms (timeTaken s.day s.ms m) = timeTaken s.day s.ms m := by
    unfold handStep
    rw [htaken, if_neg (by omega), if_neg (by omega)]
    split
    · rfl
    · exact eachLane_replaceWindow_none fun n => by rw [M.taken_lane, hwin]
  have hback : moveTime day ms (takeSlot k s) = m := by
    unfold moveTime
    rw [takeSlot_day, if_neg (by omega), if_neg (by omega), backTo_eq, hmove]
  rw [setTime_accepts h hc (by omega) (by omega) (.inl hq), hd, hm, hback, hstep, timeSetBack]

theorem MovedBack.set_amends : Amends (timeTaken s.day s.ms m) (timeSetBack s m k) (inOrderEnd k) 1#8 := by
  refine (timeSetEnd_amends M.amends_none (fun _ => False.elim) M.taken_same M.taken_reached.ports M.taken_rest
    ((M.taken_slot k (off := 0) (by omega)).trans M.state)).mono fun a ha => ?_
  rcases ha with ha | ha | ⟨n, hn, -⟩
  · exact ha.elim
  · exact ha
  · rw [M.taken_lane] at hn
    exact absurd rfl hn

theorem MovedBack.set_ended : orderEnded s (timeSetBack s m k) k .ok :=
  timeSetEnd_ended M.amends_none (fun _ => False.elim) M.taken_same M.taken_reached.ports M.taken_rest
    ((M.taken_slot k (off := 0) (by omega)).trans M.state) ((M.taken_slot k (off := 2) (by omega)).trans M.kind)

theorem MovedBack.set_lane (n : Fin 4) : (timeSetBack s m k).lane n = s.lane n :=
  (timeSetEnd_lane M.taken_same M.taken_rest n).trans (M.taken_lane n)

theorem MovedBack.set_eq :
    timeSetBack s m k = { s with
      mem := (timeSetBack s m k).mem, attn := (timeSetBack s m k).attn, sweepNext := (timeSetBack s m k).sweepNext
      journal := (timeSetBack s m k).journal, day := day, ms := ms, timeSet := true, creditSweep := cs } := by
  have heq := timeSetEnd_eq M.amends_none M.taken_reached.ports M.taken_rest
  have hlanes : (timeSetBack s m k).lanes = s.lanes := Quad.ext_get M.set_lane
  rw [← timeSetBack, hlanes] at heq
  exact heq

theorem MovedBack.set_reached :
    Reached s (timeSetBack s m k) (fun a => (P a ∨ inField hdrMs 6 a ∨ inAppend m a) ∨ inOrderEnd k a) (b ||| 1#8)
      (Appended.ask (thresholdOf s) x
        (false, ⟨none, day, ms, [], none, .station .setTime s.online false s.day s.ms⟩)) := by
  refine M.taken_reached.amend M.set_amends (by decide) fun a ha => ?_
  have hk := k.isLt
  unfold inWriter
  unfold inOrderEnd inField orderBase at ha
  omega

theorem MovedBack.set_peek (hd : day < 65536) (hm : ms < 86400000) :
    (timeSetBack s m k).peek hdrDay 2 = day ∧ (timeSetBack s m k).peek hdrMs 4 = ms / 1000 * 1000 := by
  obtain ⟨hday, hms, -⟩ := M.day_ms
  obtain ⟨hpday, hpms⟩ := timeTaken_peek M.reached M.indexed s.day s.ms (by rw [hday]; exact hd) (by rw [hms]; exact hm)
  rw [hday] at hpday
  rw [hms] at hpms
  have shown (a : Nat) (h2 : a < 14) : (timeSetBack s m k).mem.byteAt a = (timeTaken s.day s.ms m).mem.byteAt a :=
    M.set_amends.bytes a fun ha => by
      unfold inOrderEnd inField orderBase at ha
      omega
  exact ⟨(Memory.read_congr fun a h1 h2 => shown a (by unfold hdrDay at h2; omega)).trans hpday,
    (Memory.read_congr fun a h1 h2 => shown a (by unfold hdrMs at h2; omega)).trans hpms⟩

/-- Behind the order slots, outside the Journal, the event leaves what the step back left. -/
theorem MovedBack.byteAt_set {a : Nat} (h1 : 0x1100 ≤ a) (ha : ¬inWriter a) :
    (timeSetBack s m k).mem.byteAt a = m.mem.byteAt a := by
  have hk := k.isLt
  refine (M.set_amends.bytes a fun hin => ?_).trans (byteAt_timeTaken M.reached.wf s.day s.ms (fun hin => ?_)
    fun hin => ha (inAppend_region M.index hin))
  · unfold inOrderEnd inField orderBase at hin
    omega
  · unfold inField hdrMs at hin
    omega

theorem MovedBack.set_closures (he : heldClosures m.mem = []) : heldClosures (timeSetBack s m k).mem = [] := by
  rw [← he]
  refine List.filter_congr fun i hi => (closure_congr fun a ha => M.byteAt_set ?_ ?_).1
  · unfold inField closureBase at ha
    omega
  · have := List.mem_range.1 hi
    unfold inField closureBase at ha
    unfold inWriter
    omega

end

/-- With no sweep running the step back leaves what the order taken and the Closure List emptied left. -/
theorem movedBack_alone {s : State} (hok : s.ok) (k : Fin 32) (day ms : Nat) :
    MovedBack s (daySetBack s k day ms) k day ms s.creditSweep
      (fun a => inField (orderBase k.val) 2 a ∨ inField (closureBase 0) 128 a) 0#8 ⟨s.journal, [], false, false⟩ where
  reached := (daySetBack_amends hok.1).reached (by decide)
  fresh := Appended.fresh_nil _
  indexed := ⟨hok.2.1, hok.2.2⟩
  threshold := fun a ha => by
    unfold inField orderBase closureBase at ha
    unfold inField hdrThreshold
    omega
  rest := daySetBack_rest s.creditSweep
  lanes := daySetBack_lanes
  state := (daySetBack_slot hok.1 k (off := 0) (by omega)).trans (orderState_takeSlot k hok.1)
  kind := (daySetBack_slot hok.1 k (off := 2) (by omega)).trans (orderKind_takeSlot k hok.1)

end Sys2Proof.Machine
end

section
/-! PROOFS. SET_TIME to a later day: the tables and the windows of the new day (R35, R37, R40, R118). -/

namespace Sys2Proof.Machine

/-! ### A step to a later day: the rollover (R35, R37, R40, R118) -/

/-- The order taken and the tables of the later day in force, before its windows. -/
def dayEntered (s : State) (k : Fin 32) (day : Nat) : State :=
  { takeSlot k s with mem := dayTables (takeSlot k s).mem, day := day, ms := 0 }

/-- The windows of the later day open, each current one closed SHORT at the time the old day had. -/
def dayWindows (s : State) (k : Fin 32) (day : Nat) : State := eachLane (closeAtRollover true s.ms) (dayEntered s k day)

/-- The later day shown and announced. -/
def dayRaised (s : State) (k : Fin 32) (day : Nat) : State := raise .rollover (writeTimeMirror (dayWindows s k day))

/-- The rollover with its record, and then the milliseconds. -/
def dayMoved (s : State) (k : Fin 32) (day ms : Nat) : State :=
  { stationRecord .rollover false 0 0 (dayRaised s k day) with ms := ms }

theorem applyStaging_entered (s : State) (k : Fin 32) (day : Nat) :
    ({ applyStaging { takeSlot k s with day := day, ms := 0 } with
        mem := clearClosures (applyStaging { takeSlot k s with day := day, ms := 0 }).mem } : State) =
      dayEntered s k day := by
  rw [dayEntered, dayTables, ← foldl_writeProduct]
  rfl

theorem moveTime_later {s : State} (k : Fin 32) {day : Nat} (ms : Nat) (hd : s.day < day) (hc : s.creditSweep = none) :
    moveTime day ms (takeSlot k s) = dayMoved s k day ms := by
  have hcut : cutSweepShort (dayEntered s k day) = dayEntered s k day := by
    refine cutSweepShort_none ?_
    rw [dayEntered, ← hc, ← takeSlot_creditSweep k s]
  have hroll : rollTo day true (takeSlot k s) = stationRecord .rollover false 0 0 (dayRaised s k day) := by
    rw [dayRaised, dayWindows, ← hcut, ← applyStaging_entered]
    rfl
  unfold moveTime
  rw [takeSlot_day, if_neg (by omega), if_pos hd, hroll, dayMoved]

/-- What the new day's tables and the order taken write. -/
def inDayEntered (s : State) (k : Fin 32) (a : Nat) : Prop :=
  inField (orderBase k.val) 2 a ∨ inField (closureBase 0) 128 a ∨ inField (stagingBase 0) 1024 a
    ∨ ∃ x ∈ readStaging s.mem, inField (productBase x.1) 128 a

section
variable {s : State} {k : Fin 32} {day ms : Nat}

theorem dayEntered_rest :
    (dayEntered s k day).rest = ({ takeSlot k s with day := day, ms := 0 } : State).rest := by
  unfold dayEntered
  rfl

theorem dayEntered_lane (n : Fin 4) : (dayEntered s k day).lane n = s.lane n := by
  refine lane_of_lanes ?_ n
  rw [dayEntered, ← takeSlot_lanes k s]

theorem dayEntered_journal : (dayEntered s k day).journal = s.journal := by
  rw [dayEntered, ← takeSlot_journal k s]

section
variable (h : s.mem.wf)
include h

theorem dayEntered_amends : Amends s (dayEntered s k day) (inDayEntered s k) 0#8 := by
  have hw := takeSlot_wf k h
  refine ⟨?_, by rw [dayEntered, ← takeSlot_ports k s], dayEntered_journal, ?_, fun a ha => ?_⟩
  · rw [dayEntered]
    exact dayTables_wf hw
  · rw [dayEntered, BitVec.or_zero, ← takeSlot_attn k s]
  · simp only [inDayEntered, not_or, not_exists, not_and] at ha
    obtain ⟨hslot, hclosure, hstaging, hproduct⟩ := ha
    rw [dayEntered]
    refine (byteAt_dayTables hw hclosure hstaging fun x hx => ?_).trans (byteAt_takeSlot k h hslot)
    rw [readStaging_takeSlot k h] at hx
    exact hproduct x hx

theorem dayEntered_tables (hi : ∀ x ∈ readStaging s.mem, x.1 < 64) (hn : ((readStaging s.mem).map (·.1)).Nodup) :
    (∀ x ∈ readStaging s.mem, (dayEntered s k day).product x.1 = x.2) ∧ readStaging (dayEntered s k day).mem = []
      ∧ heldClosures (dayEntered s k day).mem = [] := by
  have hw := takeSlot_wf k h
  have hs := readStaging_takeSlot k h
  have hp := readProduct_dayTables hw (by rw [hs]; exact hi) (by rw [hs]; exact hn)
  rw [hs] at hp
  unfold dayEntered
  exact ⟨hp, readStaging_dayTables hw, heldClosures_dayTables hw⟩

theorem dayEntered_slot {off n : Nat} (ho : off + n ≤ 128) (ho2 : 2 ≤ off) :
    (dayEntered s k day).peek (orderBase k.val + off) n = s.peek (orderBase k.val + off) n := by
  have hk := k.isLt
  refine Memory.read_congr fun a h1 h2 => (dayEntered_amends h).bytes a fun ha => ?_
  unfold inDayEntered inField orderBase closureBase stagingBase productBase at ha
  unfold orderBase at h1 h2
  rcases ha with ha | ha | ha | ⟨x, -, ha⟩
  · omega
  · omega
  · omega
  · omega

theorem dayEntered_state : orderState (dayEntered s k day) k = 2 := by
  have hk := k.isLt
  refine Eq.trans (Memory.read_congr fun a h1 h2 => ?_) (orderState_takeSlot k h)
  rw [dayEntered]
  refine byteAt_dayTables (takeSlot_wf k h) ?_ ?_ fun x _ => ?_
  · unfold inField closureBase
    unfold orderBase at h2
    omega
  · unfold inField stagingBase
    unfold orderBase at h2
    omega
  · unfold inField productBase
    unfold orderBase at h2
    omega

/-- The windows of the later day. -/
theorem dayWindows_changed :
    LanesChanged (swappedLane (windowOfDay (dayEntered s k day))) inWindowSwap allFour (dayEntered s k day)
        (dayWindows s k day)
      ∧ ∀ n, swapShown (dayEntered s k day) s.ms n (dayWindows s k day).mem :=
  eachLane_swaps (dayEntered_amends h).wf fun n t ht => by rw [closeAtRollover_eq, windowOfDay_of_rest ht]

/-- What the windows of the lanes write at a rollover. -/
def inWindowsSwap (s : State) (a : Nat) : Prop := ∃ n, inWindowSwap n (s.lane n) a

omit h in
theorem inWindowsSwap_region {a : Nat} (ha : inWindowsSwap s a) : inWindowRegion a := by
  obtain ⟨n, ha⟩ := ha
  exact inWindowSwap_region ha

theorem dayWindows_amends_entered : Amends (dayEntered s k day) (dayWindows s k day) (inWindowsSwap s) 0#8 :=
  (dayWindows_changed h).1.memory.mono fun a ⟨n, _, ha⟩ => ⟨n, by rw [dayEntered_lane] at ha; exact ha⟩

theorem dayWindows_amends : Amends s (dayWindows s k day) (fun a => inDayEntered s k a ∨ inWindowsSwap s a) 0#8 :=
  (dayEntered_amends h).trans (dayWindows_amends_entered h)

theorem dayWindows_rest : (dayWindows s k day).rest = ({ takeSlot k s with day := day, ms := 0 } : State).rest :=
  (dayWindows_changed h).1.rest.trans dayEntered_rest

theorem dayWindows_lane (n : Fin 4) :
    (dayWindows s k day).lane n = swappedLane (windowOfDay (dayEntered s k day)) (s.lane n) := by
  rw [(dayWindows_changed h).1.lanes, if_pos (mem_allFour n), dayEntered_lane]

theorem dayWindows_shown (n : Fin 4) : swapShown s s.ms n (dayWindows s k day).mem :=
  ((dayWindows_changed h).2 n).of_state (dayEntered_lane n) ((options_of_rest dayEntered_rest).trans rfl)

theorem dayWindows_slot {off n : Nat} (ho : off + n ≤ 128) :
    (dayWindows s k day).peek (orderBase k.val + off) n = (dayEntered s k day).peek (orderBase k.val + off) n := by
  have hk := k.isLt
  refine Memory.read_congr fun a h1 h2 => (dayWindows_amends_entered h).bytes a fun ha => ?_
  have := inWindowsSwap_region ha
  unfold inWindowRegion at this
  unfold orderBase at h1 h2
  omega

theorem dayRaised_amends : Amends (dayWindows s k day) (dayRaised s k day) (inField hdrMs 6) 0x40#8 := by
  rw [dayRaised]
  exact raised_amends (writeTimeMirror_amends (dayWindows_amends h).wf) .rollover

theorem dayRaised_rest : (dayRaised s k day).rest = ({ takeSlot k s with day := day, ms := 0 } : State).rest :=
  ((raise_rest ..).trans (writeTimeMirror_rest _)).trans (dayWindows_rest h)

end

end

end Sys2Proof.Machine
end

section
/-! PROOFS. SET_TIME to a later day: its two records, the windows of the new time, the end of the order (R36, R119, R123). -/

namespace Sys2Proof.Machine

/-! ### A step to a later day: its records, the windows of the new time, the order's end (R36, R119, R123) -/

/-- The ROLLOVER record of a step to a later day. -/
def rollRecord (s : State) (day : Nat) : Record := ⟨none, day, 0, [], none, .station .rollover s.online false 0 0⟩

/-- The first of the two records asked for. -/
def rollAsked (s : State) (day : Nat) : Appended :=
  Appended.ask (thresholdOf s) ⟨s.journal, [], false, false⟩ (false, rollRecord s day)

/-- Station time taken at the later day. -/
def timeLater (s : State) (k : Fin 32) (day ms : Nat) : State := timeTaken s.day s.ms (dayMoved s k day ms)

/-- The windows of the new day replaced where the new time is past its start. -/
def windowsReplaced (s : State) (k : Fin 32) (day ms : Nat) : State :=
  if ms = 0 then timeLater s k day ms else eachLane replaceWindow (timeLater s k day ms)

section
variable {s : State} {k : Fin 32} {day ms : Nat} (hok : s.ok)
include hok

theorem dayMoved_rest : (dayMoved s k day ms).rest = ({ takeSlot k s with day := day, ms := ms } : State).rest := by
  have hrest := (stationRecord_rest .rollover false 0 0 (dayRaised s k day)).trans (dayRaised_rest hok.1)
  exact congrArg (fun v : State => { v with ms := ms }) hrest

theorem dayMoved_lane (n : Fin 4) :
    (dayMoved s k day ms).lane n = swappedLane (windowOfDay (dayEntered s k day)) (s.lane n) := by
  rw [← dayWindows_lane hok.1]
  exact (lane_of_lanes (stationRecord_lanes .rollover false 0 0 (dayRaised s k day)) n).trans
    ((lane_raise ..).trans (lane_of_lanes (writeTimeMirror_lanes _) n))

omit hok in
theorem dayWindows_journal (h : s.mem.wf) : (dayWindows s k day).journal = s.journal := (dayWindows_amends h).journal

theorem dayRaised_journal : (dayRaised s k day).journal = s.journal :=
  (dayRaised_amends hok.1).journal.trans (dayWindows_journal hok.1)

theorem dayWindows_threshold : thresholdOf (dayWindows s k day) = thresholdOf s := by
  refine ((dayWindows_amends hok.1).reached (by decide)).threshold fun a ha => ?_
  unfold inField hdrThreshold
  rcases ha with (ha | ha | ha | ⟨x, -, ha⟩) | ha
  · unfold inField orderBase at ha
    omega
  · unfold inField closureBase at ha
    omega
  · unfold inField stagingBase at ha
    omega
  · unfold inField productBase at ha
    omega
  · have := inWindowsSwap_region ha
    unfold inWindowRegion at this
    omega

/-- The day moved, from the windows of the new day on. -/
theorem dayMoved_reached :
    Reached (dayWindows s k day) (dayMoved s k day ms) (fun a => inField hdrMs 6 a ∨ inAppend s a) 0x40#8
      (rollAsked s day) := by
  have hrest := dayRaised_rest (k := k) (day := day) hok.1
  have hrecord : mkRecord (dayRaised s k day) none [] none (.station .rollover (dayRaised s k day).online false 0 0) =
      rollRecord s day := by
    rw [mkRecord, rollRecord, day_of_rest hrest, ms_of_rest hrest, online_of_rest hrest]
    rfl
  have asked := ((dayRaised_amends (k := k) (day := day) hok.1).reached (by decide)).ask (Appended.fresh_nil _)
    (by rw [dayWindows_journal hok.1]; exact ⟨hok.2.1, hok.2.2⟩) (fun a ha => by
      unfold inField hdrMs at ha
      unfold inField hdrThreshold
      omega) (rollRecord s day)
  rw [dayWindows_threshold hok, dayWindows_journal hok.1, ← rollAsked, ← hrecord] at asked
  refine ⟨asked.wf, asked.ports, asked.attn, fun a ha => asked.bytes a fun hin => ha ?_,
    asked.records.right asked.fresh rfl (fun _ _ => rfl) ⟨rfl, rfl⟩, asked.fresh⟩
  exact hin.imp_right (inAppend_left (dayRaised_journal hok) a).1

theorem timeLater_rest :
    (timeLater s k day ms).rest = ({ takeSlot k s with day := day, ms := ms, timeSet := true
                                                       creditSweep := s.creditSweep } : State).rest := by
  refine (timeTaken_rest s.day s.ms (dayMoved s k day ms)).trans ?_
  exact congrArg (fun v : State => { v with timeSet := true }) (dayMoved_rest hok)

theorem timeLater_lane (n : Fin 4) :
    (timeLater s k day ms).lane n = swappedLane (windowOfDay (dayEntered s k day)) (s.lane n) :=
  (timeTaken_lane s.day s.ms (dayMoved s k day ms) n).trans (dayMoved_lane hok n)

/-- The second of the two records asked for. -/
def laterAsked (s : State) (day ms : Nat) : Appended :=
  Appended.ask (thresholdOf s) (rollAsked s day)
    (false, ⟨none, day, ms, [], none, .station .setTime s.online false s.day s.ms⟩)

theorem rollAsked_indexed : (rollAsked s day).journal.indexed := Appended.ask_indexed ⟨hok.2.1, hok.2.2⟩ _

/-- The second record stands at the position behind the first, or in its place. -/
theorem inAppend_dayMoved {a : Nat} (ha : inAppend (dayMoved s k day ms) a) : inAppends s 2 a := by
  have hj := (dayMoved_reached (k := k) (day := day) (ms := ms) hok).records.journal
  obtain ⟨hindex, -⟩ := Appended.ask_index (thresholdOf s) ⟨s.journal, [], false, false⟩ (rollRecord s day)
  rw [← rollAsked, ← hj] at hindex
  have hw := hok.2.1
  rcases ha with ha | ha
  · refine .inl ?_
    rcases hindex with hi | hi
    · exact ⟨0, by omega, by rw [hi] at ha; rw [Nat.add_zero, Nat.mod_eq_of_lt hw]; exact ha⟩
    · exact ⟨1, by omega, by rw [hi] at ha; exact ha⟩
  · exact .inr ha

omit hok in
theorem inAppends_region {a : Nat} (ha : inAppends s 2 a) : inWriter a := by
  unfold inWriter
  rcases ha with ⟨i, -, ha⟩ | ha | ha
  · have := Nat.mod_lt (s.journal.writeIndex + i) (y := 1024) (by decide)
    unfold inField journalBase at ha
    omega
  · unfold inField hdrWriteIndex at ha
    omega
  · unfold inField hdrDropped at ha
    omega

omit hok in
theorem inAppends_of_inAppend (hw : s.journal.writeIndex < 1024) {a : Nat} (ha : inAppend s a) : inAppends s 2 a :=
  ha.imp_left fun ha => ⟨0, by omega, by rw [Nat.add_zero, Nat.mod_eq_of_lt hw]; exact ha⟩

theorem timeLater_reached :
    Reached (dayWindows s k day) (timeLater s k day ms) (fun a => inField hdrMs 6 a ∨ inAppends s 2 a) 0x40#8
      (laterAsked s day ms) := by
  have hrest := dayMoved_rest (k := k) (day := day) (ms := ms) hok
  have hrecord : setTimeRecord (dayMoved s k day ms) s.day s.ms =
      ⟨none, day, ms, [], none, .station .setTime s.online false s.day s.ms⟩ := by
    rw [setTimeRecord, day_of_rest hrest, ms_of_rest hrest, online_of_rest hrest]
    rfl
  have reached := timeTaken_reached (dayMoved_reached (k := k) (day := day) (ms := ms) hok)
    (Appended.fresh_ask hok.2.1 _ _) (rollAsked_indexed hok) (fun a ha => ?_) s.day s.ms
  · rw [dayWindows_threshold hok, hrecord] at reached
    refine reached.mono fun a ha => ?_
    rcases ha with (ha | ha) | ha | ha
    · exact .inl ha
    · exact .inr (inAppends_of_inAppend hok.2.1 ha)
    · exact .inl ha
    · exact .inr (inAppend_dayMoved hok ha)
  · unfold inField hdrThreshold
    rcases ha with ha | ha
    · unfold inField hdrMs at ha
      omega
    · have := inAppend_region hok.2.1 ha
      omega

theorem timeLater_peek (hd : day < 65536) (hm : ms < 86400000) :
    (timeLater s k day ms).peek hdrDay 2 = day ∧ (timeLater s k day ms).peek hdrMs 4 = ms / 1000 * 1000 := by
  have hrest := dayMoved_rest (k := k) (day := day) (ms := ms) hok
  have hday : (dayMoved s k day ms).day = day := (day_of_rest hrest).trans rfl
  have hms : (dayMoved s k day ms).ms = ms := (ms_of_rest hrest).trans rfl
  have hpeek := timeTaken_peek (dayMoved_reached (k := k) (day := day) (ms := ms) hok) (rollAsked_indexed hok) s.day s.ms
    (by rw [hday]; exact hd) (by rw [hms]; exact hm)
  rw [hday, hms] at hpeek
  exact hpeek

theorem timeLater_slot {off n : Nat} (ho : off + n ≤ 128) :
    (timeLater s k day ms).peek (orderBase k.val + off) n = (dayEntered s k day).peek (orderBase k.val + off) n := by
  have hk := k.isLt
  refine Eq.trans ?_ (dayWindows_slot hok.1 ho)
  refine Memory.read_congr fun a h1 h2 => (timeLater_reached hok).bytes a fun ha => ?_
  unfold orderBase at h1 h2
  rcases ha with ha | ha
  · unfold inField hdrMs at ha
    omega
  · have := inAppends_region ha
    unfold inWriter at this
    omega

theorem timeLater_state : orderState (timeLater s k day ms) k = 2 :=
  (timeLater_slot hok (off := 0) (by omega)).trans (dayEntered_state hok.1)

theorem timeLater_kind : orderKind (timeLater s k day ms) k = orderKind s k :=
  (timeLater_slot hok (off := 2) (by omega)).trans (dayEntered_slot hok.1 (by omega) (by omega))

theorem handStep_later (hne : day ≠ s.day) :
    handStep s.day s.ms (timeLater s k day ms) = windowsReplaced s k day ms := by
  have hrest := timeLater_rest (k := k) (day := day) (ms := ms) hok
  have hday : (timeLater s k day ms).day = day := (day_of_rest hrest).trans rfl
  have hms : (timeLater s k day ms).ms = ms := (ms_of_rest hrest).trans rfl
  unfold handStep windowsReplaced
  rw [hday, hms, if_neg (fun h => hne h.1), if_neg hne]

theorem windowsReplaced_changed (hne : ms ≠ 0) :
    LanesChanged (replacedLane (windowOfTime (timeLater s k day ms))) inWindowMirror allFour (timeLater s k day ms)
      (windowsReplaced s k day ms) := by
  rw [windowsReplaced, if_neg hne]
  exact eachLane_replaces (timeLater_reached hok).wf

theorem windowsReplaced_rest :
    (windowsReplaced s k day ms).rest = ({ takeSlot k s with day := day, ms := ms, timeSet := true
                                                             creditSweep := s.creditSweep } : State).rest := by
  by_cases hne : ms = 0
  · rw [windowsReplaced, if_pos hne]
    exact timeLater_rest hok
  · exact (windowsReplaced_changed hok hne).rest.trans (timeLater_rest hok)

/-- The window that the new time opens. -/
def windowLater (s : State) (day ms : Nat) : Window :=
  ⟨day, ms / 60000 / s.options.windowLength, false,
    decide (ms ≠ ms / 60000 / s.options.windowLength * s.options.windowLength * 60000), !s.online,
    ⟨0, 0, 0, 0, 0, 0, 0, 0⟩⟩

omit hok in
theorem windowOfDay_entered : windowOfDay (dayEntered s k day) = windowLater s day 0 := by
  refine (windowOfDay_of_rest dayEntered_rest).trans ?_
  simp [windowOfDay, windowLater, Counts.zero]

theorem windowOfTime_later : windowOfTime (timeLater s k day ms) = windowLater s day ms := by
  have hshort : windowLater s day ms =
      ⟨day, ms / 60000 / s.options.windowLength, false,
        !decide (ms = ms / 60000 / s.options.windowLength * s.options.windowLength * 60000), !s.online, Counts.zero⟩ := by
    rw [windowLater, ← decide_not]
    rfl
  rw [hshort]
  exact (windowOfTime_of_rest (timeLater_rest hok)).trans rfl

omit hok in
theorem replacedLane_swapped (o o' : Window) (l : Lane) : replacedLane o' (swappedLane o l) = swappedLane o' l := by
  simp only [replacedLane, swappedLane, Option.map_map, Function.comp_def]

theorem windowsReplaced_lane (n : Fin 4) :
    (windowsReplaced s k day ms).lane n = swappedLane (windowLater s day ms) (s.lane n) := by
  by_cases hne : ms = 0
  · rw [windowsReplaced, if_pos hne, timeLater_lane hok, windowOfDay_entered, hne]
  · rw [(windowsReplaced_changed hok hne).lanes, if_pos (mem_allFour n), timeLater_lane hok, replacedLane_swapped,
      windowOfTime_later hok]

theorem windowsReplaced_same (n : Fin 4) : sameButWindow (s.lane n) ((windowsReplaced s k day ms).lane n) := by
  rw [windowsReplaced_lane hok]
  exact sameButWindow_swapped _ _

/-- The bytes of the windows' mirrors. -/
def inWindowMirrors (a : Nat) : Prop := ∃ n : Fin 4, inField (laneBlockBase n.val + 80) 22 a

omit hok in
theorem inWindowMirrors_region {a : Nat} (ha : inWindowMirrors a) : 0x1100 ≤ a ∧ a < 0x1500 := by
  obtain ⟨n, ha⟩ := ha
  have hn := n.isLt
  unfold inField laneBlockBase at ha
  omega

theorem windowsReplaced_amends :
    Amends (timeLater s k day ms) (windowsReplaced s k day ms) inWindowMirrors 0#8 := by
  by_cases hne : ms = 0
  · rw [windowsReplaced, if_pos hne]
    exact ⟨(timeLater_reached hok).wf, rfl, rfl, by simp, fun _ _ => rfl⟩
  · exact (windowsReplaced_changed hok hne).memory.mono fun a ⟨n, _, ha⟩ => ⟨n, ha.2⟩

/-- The event that a step to a later day ends with. -/
def timeSetLater (s : State) (k : Fin 32) (day ms : Nat) : State := timeSetEnd s k (windowsReplaced s k day ms)

theorem timeLater_ports : (timeLater s k day ms).ports = s.ports :=
  (timeLater_reached hok).ports.trans (dayWindows_amends hok.1).ports

omit hok in
theorem inWindowMirrors_windowRegion {a : Nat} (ha : inWindowMirrors a) : inWindowRegion a :=
  .inr (.inl (inWindowMirrors_region ha))

theorem timeSetLater_ended : orderEnded s (timeSetLater s k day ms) k .ok :=
  timeSetEnd_ended (windowsReplaced_amends hok) (fun _ => inWindowMirrors_windowRegion) (windowsReplaced_same hok)
    (timeLater_ports hok) (windowsReplaced_rest hok) (timeLater_state hok) (timeLater_kind hok)

theorem timeSetLater_amends :
    Amends (timeLater s k day ms) (timeSetLater s k day ms) (fun a => inWindowMirrors a ∨ inOrderEnd k a) 1#8 :=
  (timeSetEnd_amends (windowsReplaced_amends hok) (fun _ => inWindowMirrors_windowRegion) (windowsReplaced_same hok)
    (timeLater_ports hok) (windowsReplaced_rest hok) (timeLater_state hok)).mono fun a ha => by
      rcases ha with ha | ha | ⟨n, -, ha⟩
      · exact .inl ha
      · exact .inr ha
      · exact .inl ⟨n, ha⟩

theorem timeSetLater_lane (n : Fin 4) :
    (timeSetLater s k day ms).lane n = swappedLane (windowLater s day ms) (s.lane n) :=
  (timeSetEnd_lane (windowsReplaced_same hok) (windowsReplaced_rest hok) n).trans (windowsReplaced_lane hok n)

theorem timeSetLater_eq :
    timeSetLater s k day ms = { s with
      mem := (timeSetLater s k day ms).mem, attn := (timeSetLater s k day ms).attn
      sweepNext := (timeSetLater s k day ms).sweepNext, journal := (timeSetLater s k day ms).journal
      lanes := (timeSetLater s k day ms).lanes, day := day, ms := ms, timeSet := true } :=
  timeSetEnd_eq (windowsReplaced_amends hok) (timeLater_ports hok) (windowsReplaced_rest hok)

/-- From the windows of the new day on. -/
theorem timeSetLater_reached :
    Reached (dayWindows s k day) (timeSetLater s k day ms)
      (fun a => (inField hdrMs 6 a ∨ inAppends s 2 a) ∨ inWindowMirrors a ∨ inOrderEnd k a) 0x41#8 (laterAsked s day ms) := by
  refine (timeLater_reached hok).amend (timeSetLater_amends hok) (by decide) fun a ha => ?_
  have hk := k.isLt
  unfold inWriter
  rcases ha with ha | ha
  · have := inWindowMirrors_region ha
    omega
  · unfold inOrderEnd inField orderBase at ha
    omega

end

end Sys2Proof.Machine
end

section
/-! PROOFS. SET_TIME across days (R34 to R37, R40). -/

namespace Sys2Proof.Machine

/-! ### SET_TIME across days (R34 to R37) -/

section
variable {s : State} {k : Fin 32} {day ms : Nat} (hok : s.ok)
include hok

theorem setTime_later (hc : carries s k 9) (hs : s.creditSweep = none) (hd : s.peek (orderBase k.val + 8) 2 = day)
    (hm : s.peek (orderBase k.val + 10) 4 = ms) (hlt : s.day < day) (hday : day < 65535) (hms : ms < 86400000) :
    exec (.setTime k) s = .next (timeSetLater s k day ms) := by
  rw [setTime_accepts hok.1 hc (by omega) (by omega) (.inr (.inl (hd.symm ▸ hlt))), hd, hm, moveTime_later k ms hlt hs,
    ← timeLater, handStep_later hok (by omega), timeSetLater]

/-- Where the event writes, from the windows of the new day on. -/
def inLaterWrites (s : State) (k : Fin 32) (a : Nat) : Prop :=
  (inField hdrMs 6 a ∨ inAppends s 2 a) ∨ inWindowMirrors a ∨ inOrderEnd k a

omit hok in
theorem inLaterWrites_region {a : Nat} (ha : inLaterWrites s k a) :
    a < 18 ∨ (0x100 ≤ a ∧ a < 0x1500) ∨ 0x6200 ≤ a := by
  rcases ha with (ha | ha) | ha | ha
  · unfold inField hdrMs at ha
    omega
  · have := inAppends_region ha
    unfold inWriter at this
    omega
  · have := inWindowMirrors_region ha
    omega
  · have hk := k.isLt
    unfold inOrderEnd inField orderBase at ha
    omega

theorem byteAt_timeSetLater {a : Nat} (ha : ¬inLaterWrites s k a) :
    (timeSetLater s k day ms).mem.byteAt a = (dayWindows s k day).mem.byteAt a := (timeSetLater_reached hok).bytes a ha

/-- From the Product Table to the Closure List the event leaves the tables of the new day. -/
theorem byteAt_timeSetLater_tables {a : Nat} (h1 : 0x1500 ≤ a) (h2 : a < 0x4200) :
    (timeSetLater s k day ms).mem.byteAt a = (dayEntered s k day).mem.byteAt a := by
  refine (byteAt_timeSetLater hok fun ha => ?_).trans ((dayWindows_amends_entered hok.1).bytes a fun ha => ?_)
  · have := inLaterWrites_region ha
    omega
  · have := inWindowsSwap_region ha
    unfold inWindowRegion at this
    omega

theorem timeSetLater_tables (hi : ∀ x ∈ readStaging s.mem, x.1 < 64) (hn : ((readStaging s.mem).map (·.1)).Nodup) :
    (∀ x ∈ readStaging s.mem, (timeSetLater s k day ms).product x.1 = x.2)
      ∧ readStaging (timeSetLater s k day ms).mem = [] ∧ heldClosures (timeSetLater s k day ms).mem = [] := by
  obtain ⟨hproduct, hstaging, hclosure⟩ := dayEntered_tables (k := k) (day := day) hok.1 hi hn
  refine ⟨fun x hx => ?_, ?_, ?_⟩
  · rw [← hproduct x hx]
    have := hi x hx
    exact readProduct_congr fun a ha => byteAt_timeSetLater_tables hok (by unfold inField productBase at ha; omega)
      (by unfold inField productBase at ha; omega)
  · rw [← hstaging]
    exact readStaging_congr fun a ha => byteAt_timeSetLater_tables hok (by unfold inField stagingBase at ha; omega)
      (by unfold inField stagingBase at ha; omega)
  · rw [← hclosure]
    refine List.filter_congr fun i hi => (closure_congr fun a ha => byteAt_timeSetLater_tables hok ?_ ?_).1
    · unfold inField closureBase at ha
      omega
    · have := List.mem_range.1 hi
      unfold inField closureBase at ha
      omega

theorem timeSetLater_peek (hd : day < 65536) (hm : ms < 86400000) :
    (timeSetLater s k day ms).peek hdrDay 2 = day ∧ (timeSetLater s k day ms).peek hdrMs 4 = ms / 1000 * 1000 := by
  obtain ⟨hpday, hpms⟩ := timeLater_peek (k := k) (day := day) hok hd hm
  have shown (a : Nat) (h2 : a < 14) : (timeSetLater s k day ms).mem.byteAt a = (timeLater s k day ms).mem.byteAt a := by
    refine (timeSetLater_amends hok).bytes a fun ha => ?_
    rcases ha with ha | ha
    · have := inWindowMirrors_region ha
      omega
    · unfold inOrderEnd inField orderBase at ha
      omega
  exact ⟨(Memory.read_congr fun a h1 h2 => shown a (by unfold hdrDay at h2; omega)).trans hpday,
    (Memory.read_congr fun a h1 h2 => shown a (by unfold hdrMs at h2; omega)).trans hpms⟩

theorem timeSetLater_shown (n : Fin 4) : swapShown s s.ms n (timeSetLater s k day ms).mem := by
  have hn := n.isLt
  have hp := nextFlowPosition_lt (s.lane n).flowPosition
  refine swapShown_congr (dayWindows_shown (k := k) (day := day) hok.1 n) fun a ha => byteAt_timeSetLater hok fun hin => ?_
  have := inLaterWrites_region hin
  unfold inField hdrFlow flowBase at ha
  omega

theorem timeSetLater_from : Reached s (timeSetLater s k day ms)
    (fun a => (inDayEntered s k a ∨ inWindowsSwap s a) ∨ inLaterWrites s k a) 0x41#8 (laterAsked s day ms) :=
  (timeSetLater_reached hok).after (dayWindows_amends hok.1)

theorem timeSetLater_keepsBytes :
    keepsBytes s (timeSetLater s k day ms) (fun a =>
      inOrderEnd k a ∨ inAppends s 2 a ∨ inField hdrMs 6 a ∨ inField (hdrFlow 0) 8 a
        ∨ inField (closureBase 0) 128 a ∨ inField (stagingBase 0) 1024 a
        ∨ (∃ x ∈ readStaging s.mem, inField (productBase x.1) 128 a)
        ∨ ∃ n : Fin 4, inLaneMirror n a ∨ inField (flowBase n.val (nextFlowPosition (s.lane n).flowPosition)) 32 a) := by
  intro a ha
  simp only [not_or, not_exists, not_and] at ha
  obtain ⟨hend, happend, hms, hflow, hclosure, hstaging, hproduct, hlanes⟩ := ha
  have hmirror (n : Fin 4) : ¬inField (laneBlockBase n.val + 80) 22 a := fun h => (hlanes n).1 (.inr (.inr (.inr (.inl h))))
  refine (timeSetLater_from hok).bytes a fun hin => ?_
  rcases hin with ((hin | hin | hin | ⟨x, hx, hin⟩) | ⟨n, -, hin | hin | hin⟩) | (hin | hin) | ⟨n, hin⟩ | hin
  · exact hend (.inl hin)
  · exact hclosure hin
  · exact hstaging hin
  · exact hproduct x hx hin
  · exact hmirror n hin
  · refine hflow ?_
    have := n.isLt
    unfold inField hdrFlow at *
    omega
  · exact (hlanes n).2 hin
  · exact hms hin
  · exact happend hin
  · exact hmirror n hin
  · exact hend hin

end

/-- Settles O10: a later day is the rollover with its record and then the milliseconds; an earlier day in QUIET moves
station time back and empties the Closure List. -/
theorem setTimeAcrossDays : Obligations.SetTimeAcrossDays := by
  intro s k hok htime hc hs day ms setTime hday hms
  obtain ⟨hd, -, -⟩ := htime
  refine ⟨fun hlt hi hn => ?_, fun hlt hq hwin => ?_⟩
  · obtain ⟨hproduct, hstaging, hclosure⟩ := timeSetLater_tables (k := k) (day := day) (ms := ms) hok hi hn
    obtain ⟨hpday, hpms⟩ := timeSetLater_peek (k := k) (day := day) (ms := ms) hok (by omega) hms
    have reached := timeSetLater_from (k := k) (day := day) (ms := ms) hok
    refine ⟨timeSetLater s k day ms, setTime_later hok hc hs rfl rfl hlt hday hms, timeSetLater_ended hok, hproduct,
      hstaging, hclosure, hpday, hpms, fun n hnone => ?_, fun n w hsome => ⟨?_, ?_, ?_⟩, reached.attn,
      (recorded_iff ..).2 reached.records, timeSetLater_eq hok, timeSetLater_keepsBytes hok⟩
    · rw [timeSetLater_lane hok, swappedLane_none _ hnone]
    · rw [timeSetLater_lane hok, swappedLane, hsome]
      rfl
    · exact (timeSetLater_shown hok n w hsome).2
    · exact (timeSetLater_shown hok n w hsome).1
  · have M := movedBack_alone hok k day ms
    obtain ⟨hpday, hpms⟩ := M.set_peek (by omega) hms
    have hbyte {a : Nat} (h1 : 0x1100 ≤ a) (h2 : ¬inField (closureBase 0) 128 a) (h3 : ¬inWriter a) :
        (timeSetBack s (daySetBack s k day ms) k).mem.byteAt a = s.mem.byteAt a := by
      refine (M.byteAt_set h1 h3).trans ((byteAt_daySetBack hok.1 h2).trans (byteAt_takeSlot_table k hok.1 h1))
    refine ⟨timeSetBack s (daySetBack s k day ms) k,
      M.runs hc hok.1 hq rfl rfl hlt (by omega) hms (cutSweepShort_none hs) hwin, M.set_ended,
      M.set_closures (heldClosures_daySetBack hok.1), readStaging_congr fun a ha => ?_,
      fun i hi => readProduct_congr fun a ha => ?_, hpday, hpms, M.set_reached.attn,
      unpledgedRecord_of_asked M.set_reached.records, M.set_eq, fun a ha => M.set_reached.bytes a fun hin => ha ?_⟩
    · unfold inField stagingBase at ha
      refine hbyte (by omega) ?_ ?_
      · unfold inField closureBase
        omega
      · unfold inWriter
        omega
    · unfold inField productBase at ha
      refine hbyte (by omega) ?_ ?_
      · unfold inField closureBase
        omega
      · unfold inWriter
        omega
    · rcases hin with ((hin | hin) | hin | hin) | hin
      · exact .inl (.inl hin)
      · exact .inr (.inr (.inr hin))
      · exact .inr (.inr (.inl hin))
      · exact .inr (.inl ((inAppend_left (daySetBack_amends hok.1).journal a).1 hin))
      · exact .inl hin

end Sys2Proof.Machine
end

section
/-! PROOFS. The entry that a credit sweep's visit credits (R140, R141). -/

namespace Sys2Proof.Machine

/-! ### The credited entry (R140, R141) -/

/-- The test of R140 and the capture of R142, as a visit makes them. -/
theorem visitCredits_iff (s : State) (slot : Nat) :
    visitCredits s slot = true ↔
      slotStateOf s.mem slot = 1 ∧ (s.product (s.pass slot).product).kind = .days ∧ (s.pass slot).retired = false
        ∧ (s.pass slot).lastDay = some s.day ∧ (s.pass slot).creditedDay ≠ some s.day
        ∧ (s.pass slot).usage / 256 < (s.pass slot).usage % 256 ∧ (s.product (s.pass slot).product).cutoff < 1440
        ∧ (∃ i < 8, closureHeld s.mem i = true
          ∧ (readClosure s.mem i).startMinute ≤ (s.product (s.pass slot).product).cutoff)
        ∧ ∀ n : Fin 4, (s.pass slot).marker = some n.val → (s.lane n).state.code ≠ 8 := by
  have hcaptured : heldInCapture s (s.pass slot).marker = false ↔
      ∀ n : Fin 4, (s.pass slot).marker = some n.val → (s.lane n).state.code ≠ 8 := by
    cases (s.pass slot).marker with
    | none => simp [heldInCapture]
    | some v =>
      by_cases hv : v < 4
      · have hlane (n : Fin 4) : some v = some n.val ↔ n = ⟨v, hv⟩ := by
          rw [Option.some.injEq, Fin.ext_iff, eq_comm]
        simp only [heldInCapture, fourOf, hv, dif_pos, hlane, forall_eq]
        cases (s.lane ⟨v, hv⟩).state <;> simp [LaneState.code]
      · have hlane (n : Fin 4) : some v ≠ some n.val := fun hn => hv ((Option.some.inj hn) ▸ n.isLt)
        simp [heldInCapture, fourOf, hv, hlane]
  have hclosure (cutoff : Nat) : (creditingClosure s.mem cutoff).isSome = true ↔
      cutoff < 1440 ∧ ∃ i < 8, closureHeld s.mem i = true ∧ (readClosure s.mem i).startMinute ≤ cutoff := by
    unfold creditingClosure heldClosures
    split
    · next hc => simp [hc, List.find?_isSome]
    · next hc => simp [hc]
  have htest : (creditTest s (s.pass slot)).isSome = true ↔
      (slotStateOf s.mem slot = 1 ∧ (s.product (s.pass slot).product).kind = .days ∧ (s.pass slot).retired = false
        ∧ (s.pass slot).lastDay = some s.day ∧ (s.pass slot).creditedDay ≠ some s.day
        ∧ (s.pass slot).usage / 256 < (s.pass slot).usage % 256)
      ∧ (creditingClosure s.mem (s.product (s.pass slot).product).cutoff).isSome = true := by
    unfold creditTest
    split
    · next hc => exact ⟨fun h => ⟨hc, h⟩, fun h => h.2⟩
    · next hc => exact ⟨fun h => absurd h (by simp), fun h => absurd h.1 hc⟩
  unfold visitCredits
  dsimp only
  rw [Bool.and_eq_true, Bool.not_eq_true', hcaptured, htest, hclosure]
  constructor
  · rintro ⟨hcap, ⟨hlive, hkind, hretired, hlast, hday, husage⟩, hcutoff, hheld⟩
    exact ⟨hlive, hkind, hretired, hlast, hday, husage, hcutoff, hheld, hcap⟩
  · rintro ⟨hlive, hkind, hretired, hlast, hday, husage, hcutoff, hheld, hcap⟩
    exact ⟨hcap, ⟨hlive, hkind, hretired, hlast, hday, husage⟩, hcutoff, hheld⟩

/-- An entry that earns a credit has a usage word with room for it, and a credited day that fits its field. -/
theorem creditEntry_fits {e : PassEntry} {today : Nat} (f : e.Fits) (hu : e.usage / 256 < e.usage % 256)
    (hd : e.lastDay = some today) :
    creditEntry today e = { e with usage := e.usage + 256, creditedDay := some today }
      ∧ (creditEntry today e).Fits := by
  have hlt := Nat.mod_lt e.usage (y := 256) (by omega)
  have heq : creditEntry today e = { e with usage := e.usage + 256, creditedDay := some today } := by
    have : daysUsage e.daysUsed (e.credited + 1) = e.usage + 256 := by
      unfold daysUsage PassEntry.daysUsed PassEntry.credited
      omega
    rw [creditEntry, this]
  refine ⟨heq, ?_⟩
  rw [heq]
  exact { f with
    usage := by
      show e.usage + 256 < 65536
      omega
    creditedDay := fun x hx => Option.some.inj hx ▸ f.lastDay today hd }

/-- An entry's bytes about its usage word and its credited day. -/
theorem bytes_around_credit (e : PassEntry) :
    e.bytes = (le 1 e.slotState ++ le 1 e.uidLength ++ padTo 10 e.uid ++ le 2 e.stamp ++ le 1 e.product ++ [e.flags]
      ++ le 2 e.issueDay ++ le 2 (optWord e.firstDay) ++ le 2 (optWord e.lastDay)) ++ (le 2 e.usage
      ++ (le 2 (optWord e.lastMinute) ++ (le 2 (optWord e.creditedDay) ++ (le 3 e.paid ++ le 1 (optByte e.marker))))) := by
  simp only [PassEntry.bytes, List.append_assoc]

theorem getD_credit (front tail : List Byte) (hl : front.length = 22) (a b b' c d x x' y y' : Byte) {i : Nat}
    (h23 : i ≠ 23) (h26 : i ≠ 26) (h27 : i ≠ 27) :
    (front ++ a :: b :: c :: d :: x :: y :: tail).getD i 0 = (front ++ a :: b' :: c :: d :: x' :: y' :: tail).getD i 0 := by
  rcases Nat.lt_or_ge i 22 with hi | hi
  · rw [List.getD_append _ _ _ _ (by omega), List.getD_append _ _ _ _ (by omega)]
  · rw [List.getD_append_right _ _ _ _ (by omega), List.getD_append_right _ _ _ _ (by omega), hl]
    obtain ⟨j, rfl⟩ : ∃ j, i = j + 22 := ⟨i - 22, by omega⟩
    rw [Nat.add_sub_cancel]
    match j with
    | 1 | 4 | 5 => omega
    | 0 | 2 | 3 => rfl
    | j + 6 => rfl

/-- A credit changes bytes 23, 26 and 27 of an entry alone. -/
theorem bytes_credit (e : PassEntry) (day : Option Nat) {i : Nat} (h23 : i ≠ 23) (h26 : i ≠ 26) (h27 : i ≠ 27) :
    { e with usage := e.usage + 256, creditedDay := day }.bytes.getD i 0 = e.bytes.getD i 0 := by
  have hlow : BitVec.ofNat 8 (e.usage + 256) = BitVec.ofNat 8 e.usage := by
    apply BitVec.eq_of_toNat_eq
    simp
  rw [bytes_around_credit, bytes_around_credit e]
  simp only [le, hlow]
  exact getD_credit _ _ (by simp) _ _ _ _ _ _ _ _ _ h23 h26 h27

theorem byteAt_putPass_credit {s : State} (h : s.mem.wf) (slot : Nat) (day : Option Nat) {x : Nat}
    (hx : ¬(x = passBase slot + 23 ∨ inField (passBase slot + 26) 2 x)) :
    (s.putPass slot { s.pass slot with usage := (s.pass slot).usage + 256, creditedDay := day }).mem.byteAt x =
      s.mem.byteAt x := by
  unfold inField at hx
  by_cases inside : inField (passBase slot) 32 x
  · unfold inField at inside
    obtain ⟨i, rfl⟩ : ∃ i, x = passBase slot + i := ⟨x - passBase slot, by omega⟩
    rw [byteAt_putPass_inside h slot _ (by omega), bytes_credit _ _ (by omega) (by omega) (by omega), State.pass,
      bytes_readPass, byteAt_readBytes _ _ (by omega)]
  · exact byteAt_putPass h slot _ inside

/-- What the visit of a slot leaves of its entry, and of memory. -/
def visited (s : State) (slot : Nat) : State :=
  if visitCredits s slot then s.putPass slot (creditEntry s.day (s.pass slot)) else s

theorem visited_eq (s : State) (slot : Nat) : visited s slot = { s with mem := (visited s slot).mem } := by
  unfold visited
  split
  · rw [State.putPass]
  · rfl

theorem visited_wf {s : State} (h : s.mem.wf) (slot : Nat) : (visited s slot).mem.wf := by
  unfold visited
  split
  · exact putPass_wf h slot _
  · exact h

theorem visited_credits {s : State} (h : s.mem.wf) {slot : Nat} (hc : visitCredits s slot = true) :
    (visited s slot).pass slot = { s.pass slot with usage := (s.pass slot).usage + 256, creditedDay := some s.day }
      ∧ ∀ x, ¬(x = passBase slot + 23 ∨ inField (passBase slot + 26) 2 x) →
        (visited s slot).mem.byteAt x = s.mem.byteAt x := by
  obtain ⟨-, -, -, hlast, -, husage, -⟩ := (visitCredits_iff s slot).1 hc
  obtain ⟨heq, hfits⟩ := creditEntry_fits (readPass_fits s.mem slot) husage hlast
  have hrun : visited s slot = s.putPass slot (creditEntry s.day (s.pass slot)) := if_pos hc
  rw [hrun]
  refine ⟨(pass_putPass h slot hfits).trans heq, fun x hx => ?_⟩
  rw [State.pass, heq]
  exact byteAt_putPass_credit h slot _ hx

theorem visited_passes {s : State} {slot : Nat} (hc : ¬visitCredits s slot = true) : visited s slot = s := if_neg hc

end Sys2Proof.Machine
end

section
/-! PROOFS. The end of a credit sweep in its slot, the Journal and attention (R143, R144). -/

namespace Sys2Proof.Machine

/-! ### The end of a sweep (R143, R144) -/

/-- The result of the sweep's order as its slot shows it. -/
def sweepShown (t : State) (k : Fin 32) (count position : Nat) (cut : Bool) : Prop :=
  orderState t k = 3 ∧ t.peek (orderBase k.val + 3) 1 = 0 ∧ t.peek (orderBase k.val + 32) 2 = count % 65536
    ∧ t.peek (orderBase k.val + 34) 1 = position % 256 ∧ t.peek (orderBase k.val + 35) 1 = (if cut then 1 else 0)

theorem sweepShown_congr {t u : State} {k : Fin 32} {count position : Nat} {cut : Bool}
    (h : sweepShown t k count position cut)
    (hm : ∀ x, inField (orderBase k.val) 128 x → u.mem.byteAt x = t.mem.byteAt x) :
    sweepShown u k count position cut := by
  have same (off n : Nat) (hn : off + n ≤ 128) : u.peek (orderBase k.val + off) n = t.peek (orderBase k.val + off) n :=
    Memory.read_congr fun x h1 h2 => hm x ⟨by omega, by omega⟩
  obtain ⟨hstate, hcode, hcount, hposition, hcut⟩ := h
  exact ⟨(same 0 2 (by omega)).trans hstate, (same 3 1 (by omega)).trans hcode, (same 32 2 (by omega)).trans hcount,
    (same 34 1 (by omega)).trans hposition, (same 35 1 (by omega)).trans hcut⟩

/-- The sweep's order with its result written, the sweep over. -/
def sweepResult (c : CreditSweep) (cut : Bool) (s : State) : State :=
  pokeResult c.order.slot 32 (le 2 c.count ++ le 1 c.listPosition ++ le 1 (bit 0 cut)) { s with creditSweep := none }

/-- The CREDIT record of a sweep (R143, R144). -/
def creditRecord (c : CreditSweep) (cut : Bool) (day ms : Nat) : Record :=
  ⟨none, day, ms, [], none, .credit c.count cut false c.listPosition c.order.startMinute c.order.reason⟩

/-- The end of a sweep but for the orders that wait for it. -/
def sweepOver (c : CreditSweep) (cut : Bool) (s : State) : State :=
  appendUnpledged (creditRecord c cut s.day s.ms) (endOrder c.order.slot .ok (sweepResult c cut s))

section
variable {c : CreditSweep} {cut : Bool} {s : State}

theorem sweepResult_rest : (sweepResult c cut s).rest = ({ s with creditSweep := none } : State).rest :=
  pokeResult_rest ..

theorem endSweep_eq :
    endSweep c cut s = startClosures (sortBySlot (fun o => o.slot.val) s.closuresWaiting) (sweepOver c cut s) := by
  have hrest : (endOrder c.order.slot .ok (sweepResult c cut s)).rest = ({ s with creditSweep := none } : State).rest :=
    (endOrder_rest ..).trans sweepResult_rest
  have hday : (endOrder c.order.slot .ok (sweepResult c cut s)).day = s.day := (day_of_rest hrest).trans rfl
  have hms : (endOrder c.order.slot .ok (sweepResult c cut s)).ms = s.ms := (ms_of_rest hrest).trans rfl
  have hwait : (sweepOver c cut s).closuresWaiting = s.closuresWaiting :=
    (closuresWaiting_of_rest ((appendUnpledged_rest ..).trans hrest)).trans rfl
  rw [← hwait, sweepOver, creditRecord, ← hday, ← hms]
  rfl

theorem sweepOver_eq :
    sweepOver c cut s = { s with
      mem := (sweepOver c cut s).mem, attn := (sweepOver c cut s).attn, journal := (sweepOver c cut s).journal
      creditSweep := none } := by
  have hrest : (sweepOver c cut s).rest = ({ s with creditSweep := none } : State).rest :=
    (appendUnpledged_rest ..).trans ((endOrder_rest ..).trans sweepResult_rest)
  have hlanes : (sweepOver c cut s).lanes = s.lanes := by
    rw [sweepOver, appendUnpledged_lanes, endOrder_lanes, sweepResult, pokeResult_lanes]
  have hports : (sweepOver c cut s).ports = s.ports := by
    rw [sweepOver, appendUnpledged_ports, endOrder_ports, sweepResult, pokeResult_ports]
  have heq := eq_of_rest hrest
  rw [hlanes, hports] at heq
  exact heq

variable (h : s.mem.wf)
include h

theorem sweepResult_wf : (sweepResult c cut s).mem.wf := pokeResult_wf _ _ _ h

theorem byteAt_sweepResult {x : Nat} (hx : ¬inField (orderBase c.order.slot.val + 32) 4 x) :
    (sweepResult c cut s).mem.byteAt x = s.mem.byteAt x := by
  unfold inField at hx
  refine Memory.byteAt_writeBytes_outside (m := s.mem) h ?_
  simp only [List.length_append, length_le]
  omega

theorem sweepOver_ended_wf : (endOrder c.order.slot .ok (sweepResult c cut s)).mem.wf := endOrder_wf _ _ (sweepResult_wf h)

theorem sweepOver_wf : (sweepOver c cut s).mem.wf := appendUnpledged_wf _ (sweepOver_ended_wf h)

omit h in
theorem sweepOver_ended_journal : (endOrder c.order.slot .ok (sweepResult c cut s)).journal = s.journal := by
  rw [endOrder_journal, sweepResult, pokeResult_journal]

theorem byteAt_sweepOver {x : Nat} (hend : ¬inOrderEnd c.order.slot x)
    (hresult : ¬inField (orderBase c.order.slot.val + 32) 4 x) (happend : ¬inAppend s x) :
    (sweepOver c cut s).mem.byteAt x = s.mem.byteAt x := by
  rw [sweepOver, byteAt_appendUnpledged _ (sweepOver_ended_wf h)
    fun hx => happend ((inAppend_left (sweepOver_ended_journal) x).1 hx),
    byteAt_endOrder _ _ (sweepResult_wf h) hend, byteAt_sweepResult h hresult]

/-- Outside its own slot and the Writer's bytes the end of a sweep writes nothing. -/
theorem byteAt_sweepOver_far (hw : s.journal.writeIndex < 1024) {x : Nat} (hwriter : ¬inWriter x)
    (hslot : ¬inField (orderBase c.order.slot.val) 36 x) : (sweepOver c cut s).mem.byteAt x = s.mem.byteAt x := by
  unfold inField at hslot
  refine byteAt_sweepOver h ?_ ?_ fun hx => hwriter (inAppend_region hw hx)
  · unfold inOrderEnd inField
    omega
  · unfold inField
    omega

variable (ht : orderState s c.order.slot.val = 2)
include ht

omit h in
theorem sweepResult_taken (h : s.mem.wf) : orderState (sweepResult c cut s) c.order.slot.val = 2 := by
  refine Eq.trans ?_ ht
  refine Memory.read_congr fun x h1 h2 => byteAt_sweepResult h ?_
  unfold inField
  omega

theorem sweepOver_shown (hw : s.journal.writeIndex < 1024) :
    sweepShown (sweepOver c cut s) c.order.slot c.count c.listPosition cut := by
  have hk := c.order.slot.isLt
  obtain ⟨hstate, hcode, -, -⟩ := endOrder_shows c.order.slot .ok (sweepResult_wf (c := c) (cut := cut) h)
    (sweepResult_taken ht h)
  have result (off : Nat) {n v : Nat} (hn : n = 1 ∨ n = 2) (ho : off ≤ 3)
      (hp : ((le 2 c.count ++ le 1 c.listPosition ++ le 1 (bit 0 cut)).drop off).take n = le n v) :
      (endOrder c.order.slot .ok (sweepResult c cut s)).peek (orderBase c.order.slot.val + (32 + off)) n =
        v % 256 ^ n := by
    rw [peek_endOrder _ _ (sweepResult_wf h) (by omega), ← Nat.add_assoc]
    exact read_writeBytes_part (m := s.mem) h _ hp
  have hended : sweepShown (endOrder c.order.slot .ok (sweepResult c cut s)) c.order.slot c.count c.listPosition cut := by
    refine ⟨hstate, hcode, result 0 (n := 2) (.inr rfl) (by omega) rfl, result 2 (n := 1) (.inl rfl) (by omega) rfl, ?_⟩
    refine (result 3 (n := 1) (.inl rfl) (by omega) rfl).trans ?_
    cases cut <;> rfl
  refine sweepShown_congr hended fun x hx => byteAt_appendUnpledged _ (sweepOver_ended_wf h) fun happend => ?_
  rw [inAppend_left (sweepOver_ended_journal)] at happend
  have := inAppend_region hw happend
  unfold inField orderBase at hx
  omega

theorem sweepOver_attn : ∃ j, j &&& 0xF9#8 = 0 ∧ (sweepOver c cut s).attn = s.attn ||| 1#8 ||| j := by
  obtain ⟨-, -, -, hattn⟩ := endOrder_shows c.order.slot .ok (sweepResult_wf (c := c) (cut := cut) h)
    (sweepResult_taken ht h)
  obtain ⟨j, hj, ha⟩ := appendUnpledged_attn (creditRecord c cut s.day s.ms) (endOrder c.order.slot .ok (sweepResult c cut s))
  refine ⟨j, hj, ?_⟩
  rw [sweepOver, ha, hattn]
  rfl

/-- The CREDIT record of the sweep, the first asked for. -/
theorem sweepOver_record (hw : s.journal.writeIndex < 1024) (hr : s.journal.readIndex < 1024) :
    RecordsStand s (sweepOver c cut s)
      (Appended.ask (thresholdOf s) ⟨s.journal, [], false, false⟩ (false, creditRecord c cut s.day s.ms)) := by
  obtain ⟨-, -, -, hattn⟩ := endOrder_shows c.order.slot .ok (sweepResult_wf (c := c) (cut := cut) h)
    (sweepResult_taken ht h)
  have hjournal := sweepOver_ended_journal (c := c) (cut := cut) (s := s)
  have hcauses : sameCauses s (endOrder c.order.slot .ok (sweepResult c cut s)) := by
    rw [sameCauses, hattn]
    constructor
    · simp [sweepResult]
    · simp [sweepResult]
  have hthreshold : thresholdOf (endOrder c.order.slot .ok (sweepResult c cut s)) = thresholdOf s := by
    have hsame : (endOrder c.order.slot .ok (sweepResult c cut s)).peek hdrThreshold 2 = s.peek hdrThreshold 2 := by
      refine Memory.read_congr fun x h1 h2 => ?_
      unfold hdrThreshold at h1 h2
      rw [byteAt_endOrder _ _ (sweepResult_wf h) (by unfold inOrderEnd inField orderBase; omega),
        byteAt_sweepResult h (by unfold inField orderBase; omega)]
    rw [thresholdOf, thresholdOf, hsame]
  exact (RecordsStand.none hjournal hcauses).ask (Appended.fresh_nil _) (sweepOver_ended_wf h)
    (by rw [hjournal]; exact hw) (by rw [hjournal]; exact hr) _ hthreshold

end

end Sys2Proof.Machine
end

section
/-! PROOFS. The start of the POST_CLOSURE orders that wait for a sweep (R138). -/

namespace Sys2Proof.Machine

/-! ### The waiting POST_CLOSURE orders (R138) -/

theorem emptyClosure_lt {m : Memory} {i : Nat} (h : emptyClosure m = some i) : i < 8 :=
  List.mem_range.1 (List.mem_of_find?_eq_some h)

/-- The first EMPTY position of the Closure List. -/
theorem emptyClosure_first {m : Memory} {i : Nat} (hi : i < 8) (he : closureHeld m i = false)
    (hb : ∀ j < i, closureHeld m j = true) : emptyClosure m = some i := by
  unfold emptyClosure
  rw [List.find?_range_eq_some]
  exact ⟨by simp [he], List.mem_range.2 hi, fun j hj => by simp [hb j hj]⟩

/-- A closure appended at a position, its sweep started. -/
def closureBegun (o : ClosureOrder) (i : Nat) (s : State) : State :=
  { s with mem := writeClosure s.mem i ⟨o.day, o.startMinute, o.endMinute, o.reason⟩
           creditSweep := some ⟨o, i, 0, 0, s.now⟩ }

theorem beginClosure_cases (o : ClosureOrder) (s : State) :
    (∃ r, beginClosure o s = endOrder o.slot r s)
      ∨ ∃ i < 8, closureProblem s o = none ∧ emptyClosure s.mem = some i ∧ beginClosure o s = closureBegun o i s := by
  unfold beginClosure
  split
  · exact .inl ⟨_, rfl⟩
  · next hp =>
    split
    · next i hi => exact .inr ⟨i, emptyClosure_lt hi, hp, hi, rfl⟩
    · exact .inl ⟨_, rfl⟩

/-- What the start of some waiting orders leaves. -/
structure ClosuresStarted (l : List ClosureOrder) (u t : State) : Prop where
  wf : t.mem.wf
  lanes : t.lanes = u.lanes
  ports : t.ports = u.ports
  journal : t.journal = u.journal
  evacuate : t.evacuate = u.evacuate
  mirror : stateMirror t = stateMirror u
  attn : t.attn = u.attn ∨ t.attn = u.attn ||| 1#8
  bytes : ∀ x, (∀ o ∈ l, ¬inOrderEnd o.slot x) → ¬inField (closureBase 0) 128 x → t.mem.byteAt x = u.mem.byteAt x

theorem ClosuresStarted.refl (l : List ClosureOrder) {u : State} (h : u.mem.wf) : ClosuresStarted l u u :=
  ⟨h, rfl, rfl, rfl, rfl, rfl, .inl rfl, fun _ _ _ => rfl⟩

theorem ClosuresStarted.cons {o : ClosureOrder} {l : List ClosureOrder} {u v t : State}
    (a : ClosuresStarted [o] u v) (b : ClosuresStarted l v t) : ClosuresStarted (o :: l) u t where
  wf := b.wf
  lanes := b.lanes.trans a.lanes
  ports := b.ports.trans a.ports
  journal := b.journal.trans a.journal
  evacuate := b.evacuate.trans a.evacuate
  mirror := b.mirror.trans a.mirror
  attn := by
    rcases a.attn with ha | ha <;> rcases b.attn with hb | hb <;> rw [hb, ha]
    · exact .inl rfl
    · exact .inr rfl
    · exact .inr rfl
    · exact .inr (by rw [BitVec.or_assoc, BitVec.or_self])
  bytes := fun x hx hc => by
    rw [b.bytes x (fun p hp => hx p (List.mem_cons_of_mem _ hp)) hc, a.bytes x (fun p hp => ?_) hc]
    rw [List.mem_singleton.1 hp]
    exact hx o (by simp)

/-- Only the waiting list and the sweep in progress stand otherwise. -/
theorem ClosuresStarted.with_waiting {l : List ClosureOrder} {u t : State} (a : ClosuresStarted l u t)
    (w : List ClosureOrder) : ClosuresStarted l u { t with closuresWaiting := w } :=
  ⟨a.wf, a.lanes, a.ports, a.journal, a.evacuate, a.mirror, a.attn, a.bytes⟩

theorem endOrder_attn_cases (k : Fin 32) (r : Result) (s : State) :
    (endOrder k r s).attn = s.attn ∨ (endOrder k r s).attn = s.attn ||| 1#8 := by
  unfold endOrder
  dsimp only
  split
  · exact .inr rfl
  · exact .inl rfl

theorem stateMirror_of_rest {s t : State} (h : t.rest = s.rest) : stateMirror t = stateMirror s := by
  rw [stateMirror, stateMirror, station_of_rest h, online_of_rest h, freeFlow_of_rest h]

theorem closureBegun_mem (o : ClosureOrder) (i : Nat) (s : State) :
    (closureBegun o i s).mem = writeClosure s.mem i ⟨o.day, o.startMinute, o.endMinute, o.reason⟩ := by
  rw [closureBegun]

theorem closureBegun_started (o : ClosureOrder) {i : Nat} (hi : i < 8) {u : State} (h : u.mem.wf) :
    ClosuresStarted [o] u (closureBegun o i u) where
  wf := by
    rw [closureBegun_mem]
    exact writeClosure_wf h _ _
  lanes := by rw [closureBegun]
  ports := by rw [closureBegun]
  journal := by rw [closureBegun]
  evacuate := by rw [closureBegun]
  mirror := by rw [stateMirror, stateMirror, closureBegun]
  attn := .inl (by rw [closureBegun])
  bytes := fun x _ hx => by
    rw [closureBegun_mem]
    refine byteAt_writeClosure h _ _ ?_
    unfold inField closureBase at *
    omega

theorem beginClosure_started (o : ClosureOrder) {u : State} (h : u.mem.wf) : ClosuresStarted [o] u (beginClosure o u) := by
  rcases beginClosure_cases o u with ⟨r, hrun⟩ | ⟨i, hi, -, -, hrun⟩
  · rw [hrun]
    exact ⟨endOrder_wf _ _ h, endOrder_lanes .., endOrder_ports .., endOrder_journal .., endOrder_evacuate ..,
      stateMirror_of_rest (endOrder_rest ..), endOrder_attn_cases .., fun x hx _ => byteAt_endOrder _ _ h (hx o (by simp))⟩
  · rw [hrun]
    exact closureBegun_started o hi h

theorem startClosures_started (l : List ClosureOrder) {u : State} (h : u.mem.wf) : ClosuresStarted l u (startClosures l u) := by
  induction l generalizing u with
  | nil => exact (ClosuresStarted.refl [] h).with_waiting []
  | cons o os ih =>
    have begins := beginClosure_started o h
    unfold startClosures
    dsimp only
    split
    · exact (begins.cons (.refl os begins.wf)).with_waiting os
    · exact begins.cons (ih begins.wf)

end Sys2Proof.Machine
end

section
/-! PROOFS. The visit of a slot, and the end behind the last (R142, R143). -/

namespace Sys2Proof.Machine

/-! ### The visit of a slot (R142, R143) -/

/-- The sweep behind the visit of its slot. -/
def sweepMoved (s : State) (c : CreditSweep) : CreditSweep :=
  { c with position := c.position + 1, count := if visitCredits s c.position then c.count + 1 else c.count }

theorem creditSweep_runs {s : State} {c : CreditSweep} (hc : s.creditSweep = some c)
    (hd : c.start + c.position / 512 + 1 ≤ s.now) :
    exec .creditSweep s = .next (settleOutputs s (sweepStep c s)) := by
  show execCreditSweep s = _
  unfold execCreditSweep
  rw [hc]
  exact if_pos (decide_eq_true hd)

theorem sweepStep_goesOn {s : State} {c : CreditSweep} (hp : c.position < 6143) :
    sweepStep c s = { visited s c.position with creditSweep := some (sweepMoved s c) } :=
  if_pos (show c.position + 1 < 6144 by omega)

theorem sweepStep_ends {s : State} {c : CreditSweep} (hp : c.position = 6143) :
    sweepStep c s = endSweep (sweepMoved s c) false (visited s c.position) :=
  if_neg (show ¬c.position + 1 < 6144 by omega)

/-- What a visit writes: a credited entry's usage and credited day. -/
def inCredited (s : State) (slot a : Nat) : Prop :=
  visitCredits s slot = true ∧ (a = passBase slot + 23 ∨ inField (passBase slot + 26) 2 a)

theorem inCredited_region {s : State} {slot a : Nat} (h : inCredited s slot a) : 0xE200 ≤ a := by
  obtain ⟨-, ha⟩ := h
  unfold inField passBase at ha
  omega

theorem byteAt_visited {s : State} (h : s.mem.wf) (slot : Nat) {a : Nat} (ha : ¬inCredited s slot a) :
    (visited s slot).mem.byteAt a = s.mem.byteAt a := by
  by_cases hc : visitCredits s slot = true
  · exact (visited_credits h hc).2 a fun hin => ha ⟨hc, hin⟩
  · rw [visited_passes hc]

/-- Memory and the sweep's place changed: the event leaves them so. -/
theorem settleOutputs_moved (s : State) (m : Memory) (x : Option CreditSweep) :
    settleOutputs s { s with mem := m, creditSweep := x } = { s with mem := m, creditSweep := x } :=
  settleOutputs_quiet rfl rfl rfl (by rw [stateMirror, stateMirror])

/-- The visit of a slot before the last leaves the entry and the sweep's place. -/
theorem creditSweep_goesOn {s : State} {c : CreditSweep} (hc : s.creditSweep = some c)
    (hd : c.start + c.position / 512 + 1 ≤ s.now) (hp : c.position < 6143) :
    exec .creditSweep s =
      .next { s with mem := (visited s c.position).mem, creditSweep := some (sweepMoved s c) } := by
  have hstep : sweepStep c s =
      { s with mem := (visited s c.position).mem, creditSweep := some (sweepMoved s c) } :=
    (sweepStep_goesOn hp).trans
      (congrArg (fun v : State => { v with creditSweep := some (sweepMoved s c) }) (visited_eq s c.position))
  rw [creditSweep_runs hc hd, hstep, settleOutputs_moved]

section
variable {s : State} {c : CreditSweep} (hok : s.ok) (ht : orderState s c.order.slot.val = 2)

/-- The sweep's end behind the visit of the last slot, but for the waiting orders. -/
def sweepFinished (s : State) (c : CreditSweep) : State := sweepOver (sweepMoved s c) false (visited s c.position)

theorem sweepFinished_eq :
    sweepFinished s c = { s with
      mem := (sweepFinished s c).mem, attn := (sweepFinished s c).attn, journal := (sweepFinished s c).journal
      creditSweep := none } := by
  unfold sweepFinished
  exact sweepOver_eq.trans (congrArg (fun v : State => { v with
    mem := (sweepOver (sweepMoved s c) false (visited s c.position)).mem
    attn := (sweepOver (sweepMoved s c) false (visited s c.position)).attn
    journal := (sweepOver (sweepMoved s c) false (visited s c.position)).journal
    creditSweep := none }) (visited_eq s c.position))

theorem visited_journal : (visited s c.position).journal = s.journal := by rw [visited_eq]

theorem visited_attn : (visited s c.position).attn = s.attn := by rw [visited_eq]

include hok

theorem sweepFinished_wf : (sweepFinished s c).mem.wf := sweepOver_wf (visited_wf hok.1 _)

theorem byteAt_sweepFinished {a : Nat} (hend : ¬inOrderEnd c.order.slot a)
    (hresult : ¬inField (orderBase c.order.slot.val + 32) 4 a) (happend : ¬inAppend s a)
    (hcredit : ¬inCredited s c.position a) : (sweepFinished s c).mem.byteAt a = s.mem.byteAt a := by
  unfold sweepFinished
  exact (byteAt_sweepOver (c := sweepMoved s c) (visited_wf hok.1 _) hend hresult
    fun ha => happend ((inAppend_left visited_journal a).1 ha)).trans (byteAt_visited hok.1 _ hcredit)

/-- From the Lane Blocks to the Closure List the end of the sweep writes nothing. -/
theorem byteAt_sweepFinished_tables {a : Nat} (h1 : 0x1100 ≤ a) (h2 : a < 0x6200) :
    (sweepFinished s c).mem.byteAt a = s.mem.byteAt a := by
  have hk := c.order.slot.isLt
  refine byteAt_sweepFinished hok ?_ ?_ (fun ha => ?_) fun ha => ?_
  · unfold inOrderEnd inField orderBase
    omega
  · unfold inField orderBase
    omega
  · have := inAppend_region hok.2.1 ha
    omega
  · have := inCredited_region ha
    omega

/-- The entries of the Pass Table are as the visit left them. -/
theorem pass_sweepFinished (slot : Nat) : (sweepFinished s c).pass slot = (visited s c.position).pass slot := by
  have hk := c.order.slot.isLt
  refine readPass_congr fun a ha => byteAt_sweepOver_far (visited_wf hok.1 _) (by rw [visited_journal]; exact hok.2.1) ?_ ?_
  · unfold inField passBase at ha
    unfold inWriter
    omega
  · unfold inField passBase at ha
    unfold inField
    simp only [sweepMoved, orderBase]
    omega

include ht

theorem visited_taken : orderState (visited s c.position) c.order.slot.val = 2 := by
  refine Eq.trans ?_ ht
  refine Memory.read_congr fun a h1 h2 => byteAt_visited hok.1 _ fun ha => ?_
  have := inCredited_region ha
  have hk := c.order.slot.isLt
  unfold orderBase at h2
  omega

theorem sweepFinished_shown :
    sweepShown (sweepFinished s c) c.order.slot (sweepMoved s c).count c.listPosition false :=
  sweepOver_shown (visited_wf hok.1 _) (visited_taken hok ht) (by rw [visited_journal]; exact hok.2.1)

theorem sweepFinished_attn : ∃ j, j &&& 0xF9#8 = 0 ∧ (sweepFinished s c).attn = s.attn ||| 1#8 ||| j := by
  obtain ⟨j, hj, ha⟩ := sweepOver_attn (c := sweepMoved s c) (cut := false) (visited_wf hok.1 c.position)
    (visited_taken hok ht)
  rw [visited_attn] at ha
  exact ⟨j, hj, ha⟩

theorem sweepFinished_record :
    RecordsStand s (sweepFinished s c)
      (Appended.ask (thresholdOf s) ⟨s.journal, [], false, false⟩ (false, creditRecord (sweepMoved s c) false s.day s.ms)) := by
  have hrecord := sweepOver_record (c := sweepMoved s c) (cut := false) (visited_wf hok.1 c.position)
    (visited_taken hok ht) (by rw [visited_journal]; exact hok.2.1) (by rw [visited_journal]; exact hok.2.2)
  have hthreshold : thresholdOf (visited s c.position) = thresholdOf s := by
    have hsame : (visited s c.position).peek hdrThreshold 2 = s.peek hdrThreshold 2 := by
      refine Memory.read_congr fun a h1 h2 => byteAt_visited hok.1 _ fun ha => ?_
      have := inCredited_region ha
      unfold hdrThreshold at h2
      omega
    rw [thresholdOf, thresholdOf, hsame]
  have hday : (visited s c.position).day = s.day := by rw [visited_eq]
  have hms : (visited s c.position).ms = s.ms := by rw [visited_eq]
  rw [hthreshold, hday, hms, visited_journal] at hrecord
  refine hrecord.left visited_journal ?_
  rw [sameCauses, visited_attn]
  exact ⟨rfl, rfl⟩

end

end Sys2Proof.Machine
end

section
/-! PROOFS. The end of a sweep with the orders that wait for it (R138, R143). -/

namespace Sys2Proof.Machine

/-! ### The end of the sweep with the orders that wait for it (R138, R143) -/

/-- The orders that wait for the sweep, in the order of their slots. -/
def closuresInOrder (s : State) : List ClosureOrder := sortBySlot (fun o => o.slot.val) s.closuresWaiting

/-- The state that the sweep's last visit leaves. -/
def sweepClosed (s : State) (c : CreditSweep) : State := startClosures (closuresInOrder s) (sweepFinished s c)

/-- Raising ORDER_DONE again adds nothing. -/
theorem orderDone_again (a j : BitVec 8) : a ||| 1#8 ||| j ||| 1#8 = a ||| 1#8 ||| j := by
  rw [BitVec.or_assoc, BitVec.or_comm j, ← BitVec.or_assoc, BitVec.or_assoc a, BitVec.or_self]

section
variable {s : State} {c : CreditSweep} (hok : s.ok) (ht : orderState s c.order.slot.val = 2)

include hok in
theorem sweepClosed_started : ClosuresStarted (closuresInOrder s) (sweepFinished s c) (sweepClosed s c) :=
  startClosures_started _ (sweepFinished_wf hok)

include hok in
theorem creditSweep_closes (hc : s.creditSweep = some c) (hd : c.start + c.position / 512 + 1 ≤ s.now)
    (hp : c.position = 6143) : exec .creditSweep s = .next (sweepClosed s c) := by
  have hstep : sweepStep c s = sweepClosed s c := by
    have hwait : (visited s c.position).closuresWaiting = s.closuresWaiting := by rw [visited_eq]
    rw [sweepStep_ends hp, endSweep_eq, hwait]
    rfl
  have S := sweepClosed_started (c := c) hok
  have hfinished := sweepFinished_eq (s := s) (c := c)
  rw [creditSweep_runs hc hd, hstep]
  refine congrArg _ (settleOutputs_quiet ?_ ?_ ?_ ?_)
  · rw [S.lanes, hfinished]
  · rw [S.ports, hfinished]
  · rw [S.evacuate, hfinished]
  · rw [S.mirror, hfinished, stateMirror, stateMirror]

section
variable (hwait : ∀ x ∈ s.closuresWaiting, x.slot ≠ c.order.slot)
include hok hwait

/-- The waiting orders write in slots of their own and in the Closure List. -/
theorem byteAt_sweepClosed {a : Nat} (ha : inField (orderBase c.order.slot.val) 128 a ∨ inWriter a ∨ 0xE200 ≤ a) :
    (sweepClosed s c).mem.byteAt a = (sweepFinished s c).mem.byteAt a := by
  have hk := c.order.slot.isLt
  refine (sweepClosed_started hok).bytes a (fun o ho => ?_) ?_
  · have hslot := hwait o ((mem_sortBySlot o _).1 ho)
    have hne : o.slot.val ≠ c.order.slot.val := fun h => hslot (Fin.ext h)
    have ho := o.slot.isLt
    unfold inWriter inField at ha
    unfold inOrderEnd inField
    unfold orderBase at *
    omega
  · unfold inWriter inField at ha
    unfold inField closureBase
    unfold orderBase at *
    omega

omit hwait in
theorem pass_sweepClosed (slot : Nat) : (sweepClosed s c).pass slot = (visited s c.position).pass slot := by
  rw [← pass_sweepFinished hok]
  refine readPass_congr fun a ha => (sweepClosed_started hok).bytes a (fun o _ => ?_) ?_
  · have ho := o.slot.isLt
    unfold inField passBase at ha
    unfold inOrderEnd inField orderBase
    omega
  · unfold inField passBase at ha
    unfold inField closureBase
    omega

include ht

omit hwait in
theorem sweepClosed_attn : ∃ j, j &&& 0xF9#8 = 0 ∧ (sweepClosed s c).attn = s.attn ||| 1#8 ||| j := by
  obtain ⟨j, hj, ha⟩ := sweepFinished_attn hok ht
  refine ⟨j, hj, ?_⟩
  rcases (sweepClosed_started (c := c) hok).attn with h | h
  · rw [h, ha]
  · rw [h, ha, orderDone_again]

/-- The end of the sweep as its slot, the Journal and attention show it. -/
theorem sweepClosed_ends :
    sweepShown (sweepClosed s c) c.order.slot (sweepMoved s c).count c.listPosition false
      ∧ recorded s (sweepClosed s c) [(false, creditRecord (sweepMoved s c) false s.day s.ms)]
      ∧ attnRaised s (sweepClosed s c) 1 := by
  obtain ⟨i, hi, ha⟩ := sweepFinished_attn hok ht
  obtain ⟨j, hj, hattn⟩ := sweepClosed_attn hok ht
  have hsame : (sweepClosed s c).attn = (sweepFinished s c).attn := by
    rcases (sweepClosed_started (c := c) hok).attn with h | h
    · exact h
    · rw [h, ha, orderDone_again]
  refine ⟨sweepShown_congr (sweepFinished_shown hok ht) fun a ha => byteAt_sweepClosed hok hwait (.inl ha), ?_,
    ⟨j, hj, hattn⟩⟩
  refine (recorded_iff ..).2 ((sweepFinished_record hok ht).right (fun w hw => ?_) (sweepClosed_started hok).journal
    (fun a ha => byteAt_sweepClosed hok hwait (.inr (.inl ha))) ?_)
  · exact (Appended.fresh_ask hok.2.1 _ _ w hw).1
  · rw [sameCauses, hsame]
    exact ⟨rfl, rfl⟩

end

/-- With no order waiting the state is that of the sweep's end. -/
theorem sweepClosed_alone (hnone : s.closuresWaiting = []) : sweepClosed s c = sweepFinished s c := by
  have hfinished := sweepFinished_eq (s := s) (c := c)
  generalize hu : sweepFinished s c = u at hfinished
  have hwait : u.closuresWaiting = [] := by rw [hfinished]; exact hnone
  rw [sweepClosed, hu, closuresInOrder, hnone]
  show ({ u with closuresWaiting := [] } : State) = u
  rw [← hwait]

/-- The first waiting order starts its sweep where its closure passes the checks, and the others wait on. -/
theorem sweepClosed_starts {o : ClosureOrder} {r : List ClosureOrder} {i : Nat} (hok : s.ok)
    (hsort : closuresInOrder s = o :: r) (hday : o.day = s.day) (hminute : o.startMinute ≤ s.ms / 60000) (hi : i < 8)
    (he : closureHeld s.mem i = false) (hb : ∀ j < i, closureHeld s.mem j = true) :
    sweepClosed s c = { closureBegun o i (sweepFinished s c) with closuresWaiting := r } := by
  have hfinished := sweepFinished_eq (s := s) (c := c)
  have hheld (j : Nat) (hj : j < 8) : closureHeld (sweepFinished s c).mem j = closureHeld s.mem j :=
    (closure_congr fun a ha => byteAt_sweepFinished_tables hok (by unfold inField closureBase at ha; omega)
      (by unfold inField closureBase at ha; omega)).1
  have hempty : emptyClosure (sweepFinished s c).mem = some i :=
    emptyClosure_first hi ((hheld i hi).trans he) fun j hj => (hheld j (by omega)).trans (hb j hj)
  have hprob : closureProblem (sweepFinished s c) o = none := by
    have hd : (sweepFinished s c).day = s.day := by rw [hfinished]
    have hm : (sweepFinished s c).minute = s.ms / 60000 := by rw [hfinished]; rfl
    rw [closureProblem, hd, hm, if_neg (not_not.2 hday), if_neg (by omega), hempty]
    rfl
  have hbegin : beginClosure o (sweepFinished s c) = closureBegun o i (sweepFinished s c) := by
    rw [beginClosure, hprob, hempty]
    rfl
  rw [sweepClosed, hsort, startClosures, hbegin]
  rfl

end

end Sys2Proof.Machine
end

section
/-! PROOFS. A sweep cut short by a SET_TIME to an earlier day (R34, R144). -/

namespace Sys2Proof.Machine

/-! ### A sweep cut short (R144) -/

theorem sweepOver_reached {c : CreditSweep} {cut : Bool} {s : State} (hok : s.ok) (ht : orderState s c.order.slot.val = 2) :
    Reached s (sweepOver c cut s)
      (fun a => inOrderEnd c.order.slot a ∨ inField (orderBase c.order.slot.val + 32) 4 a ∨ inAppend s a) 1#8
      (Appended.ask (thresholdOf s) ⟨s.journal, [], false, false⟩ (false, creditRecord c cut s.day s.ms)) where
  wf := sweepOver_wf hok.1
  ports := by rw [sweepOver_eq]
  attn := sweepOver_attn hok.1 ht
  bytes := fun a ha => by
    simp only [not_or] at ha
    exact byteAt_sweepOver hok.1 ha.1 ha.2.1 ha.2.2
  records := sweepOver_record hok.1 ht hok.2.1 hok.2.2
  fresh := fun w hw => (Appended.fresh_ask hok.2.1 _ _ w hw).1

/-- With no order waiting a sweep cut short is the end of the sweep alone. -/
theorem cutSweepShort_alone {s : State} {c : CreditSweep} (hc : s.creditSweep = some c)
    (hwait : s.closuresWaiting = []) : cutSweepShort s = sweepOver c true s := by
  have heq := sweepOver_eq (c := c) (cut := true) (s := s)
  generalize hu : sweepOver c true s = u at heq
  have hnone : u.closuresWaiting = [] := by rw [heq]; exact hwait
  unfold cutSweepShort
  rw [hc]
  dsimp only
  rw [endSweep_eq, hwait, hu]
  show ({ u with closuresWaiting := [] } : State) = u
  rw [← hnone]

theorem sweepOver_rest {c : CreditSweep} {cut : Bool} {s : State} :
    (sweepOver c cut s).rest = ({ s with creditSweep := none } : State).rest :=
  (appendUnpledged_rest ..).trans ((endOrder_rest ..).trans sweepResult_rest)

theorem sweepOver_lanes {c : CreditSweep} {cut : Bool} {s : State} : (sweepOver c cut s).lanes = s.lanes := by
  rw [sweepOver_eq]

/-! ### Cut short by a SET_TIME to an earlier day (R34) -/

section
variable {s : State} {c : CreditSweep} (hok : s.ok) (ht : orderState s c.order.slot.val = 2) {j : Fin 32}
  (hj : j ≠ c.order.slot) {day ms : Nat}
include hok

theorem daySetBack_ok : (daySetBack s j day ms).ok := by
  have A := daySetBack_amends (k := j) (day := day) (ms := ms) hok.1
  exact ⟨A.wf, by rw [A.journal]; exact hok.2.1, by rw [A.journal]; exact hok.2.2⟩

theorem daySetBack_threshold : thresholdOf (daySetBack s j day ms) = thresholdOf s :=
  (movedBack_alone hok j day ms).reached.threshold (movedBack_alone hok j day ms).threshold

omit hok in
include hj in
/-- The sweep's slot is none of the order's. -/
theorem slots_apart {a : Nat} (ha : inField (orderBase c.order.slot.val) 128 a) : ¬inField (orderBase j.val) 128 a := by
  have hne : j.val ≠ c.order.slot.val := fun h => hj (Fin.ext h)
  have := j.isLt
  have := c.order.slot.isLt
  unfold inField orderBase at *
  omega

include hj in
theorem byteAt_daySetBack_sweepSlot {a : Nat} (ha : inField (orderBase c.order.slot.val) 128 a) :
    (daySetBack s j day ms).mem.byteAt a = s.mem.byteAt a := by
  have hk := c.order.slot.isLt
  refine (daySetBack_amends hok.1).bytes a fun hin => ?_
  rcases hin with hin | hin
  · refine slots_apart hj ha ?_
    unfold inField at *
    omega
  · unfold inField orderBase closureBase at *
    omega

include ht hj

theorem daySetBack_taken : orderState (daySetBack s j day ms) c.order.slot.val = 2 := by
  refine Eq.trans ?_ ht
  refine Memory.read_congr fun a h1 h2 => byteAt_daySetBack_sweepSlot hok hj ⟨by omega, by omega⟩

/-- The sweep cut short by a step back. -/
theorem movedBack_cut (day ms : Nat) :
    MovedBack s (sweepOver c true (daySetBack s j day ms)) j day ms none
      (fun a => (inField (orderBase j.val) 2 a ∨ inField (closureBase 0) 128 a)
        ∨ inOrderEnd c.order.slot a ∨ inField (orderBase c.order.slot.val + 32) 4 a ∨ inAppend s a) 1#8
      (Appended.ask (thresholdOf s) ⟨s.journal, [], false, false⟩ (false, creditRecord c true day ms)) := by
  have A := daySetBack_amends (k := j) (day := day) (ms := ms) hok.1
  have hd : (daySetBack s j day ms).day = day := by rw [daySetBack]
  have hm : (daySetBack s j day ms).ms = ms := by rw [daySetBack]
  have swept := (sweepOver_reached (c := c) (cut := true) (daySetBack_ok (j := j) (day := day) (ms := ms) hok)
    (daySetBack_taken hok ht hj)).after A
  rw [daySetBack_threshold hok, A.journal, hd, hm] at swept
  have slot (off n : Nat) (ho : off + n ≤ 128) :
      (sweepOver c true (daySetBack s j day ms)).peek (orderBase j.val + off) n =
        (daySetBack s j day ms).peek (orderBase j.val + off) n := by
    have hk := j.isLt
    refine Memory.read_congr fun a h1 h2 => byteAt_sweepOver_far A.wf (by rw [A.journal]; exact hok.2.1) ?_ fun ha => ?_
    · unfold inWriter
      unfold orderBase at h1 h2
      omega
    · exact slots_apart hj ⟨ha.1, by have := ha.2; omega⟩ ⟨by omega, by omega⟩
  refine ⟨swept.mono fun a ha => ?_, Appended.fresh_ask hok.2.1 _ _, Appended.ask_indexed ⟨hok.2.1, hok.2.2⟩ _,
    fun a ha => ?_, ?_, sweepOver_lanes.trans daySetBack_lanes, ?_, ?_⟩
  · rcases ha with ha | ha | ha | ha
    · exact .inl ha
    · exact .inr (.inl ha)
    · exact .inr (.inr (.inl ha))
    · exact .inr (.inr (.inr ((inAppend_left A.journal a).1 ha)))
  · unfold inField hdrThreshold
    rcases ha with (ha | ha) | ha | ha | ha
    · unfold inField orderBase at ha
      omega
    · unfold inField closureBase at ha
      omega
    · unfold inOrderEnd inField orderBase at ha
      omega
    · unfold inField orderBase at ha
      omega
    · have := inAppend_region hok.2.1 ha
      omega
  · exact sweepOver_rest.trans (daySetBack_rest none)
  · exact (slot 0 2 (by omega)).trans (movedBack_alone hok j day ms).state
  · exact (slot 2 1 (by omega)).trans (movedBack_alone hok j day ms).kind

theorem timeSetBack_cut_shown (day ms : Nat) :
    sweepShown (timeSetBack s (sweepOver c true (daySetBack s j day ms)) j) c.order.slot c.count c.listPosition true := by
  have M := movedBack_cut hok ht hj day ms
  have hok' := daySetBack_ok (j := j) (day := day) (ms := ms) hok
  refine sweepShown_congr (sweepOver_shown hok'.1 (daySetBack_taken hok ht hj) hok'.2.1) fun a ha => ?_
  have hk := c.order.slot.isLt
  refine (M.set_amends.bytes a fun hin => ?_).trans (byteAt_timeTaken M.reached.wf s.day s.ms (fun hin => ?_) fun hin => ?_)
  · refine slots_apart hj ha ?_
    unfold inOrderEnd inField at hin
    unfold inField
    omega
  · unfold inField hdrMs at hin
    unfold inField orderBase at ha
    omega
  · have := inAppend_region M.index hin
    unfold inField orderBase at ha
    omega

/-- No entry and no position of the Closure List but cleared ones changed. -/
theorem timeSetBack_cut_tables (day ms : Nat) :
    heldClosures (timeSetBack s (sweepOver c true (daySetBack s j day ms)) j).mem = []
      ∧ ∀ slot, (timeSetBack s (sweepOver c true (daySetBack s j day ms)) j).pass slot = s.pass slot := by
  have M := movedBack_cut hok ht hj day ms
  have hok' := daySetBack_ok (j := j) (day := day) (ms := ms) hok
  have hk := c.order.slot.isLt
  have far (a : Nat) (h1 : 0x1100 ≤ a) (h2 : ¬inWriter a) :
      (sweepOver c true (daySetBack s j day ms)).mem.byteAt a = (daySetBack s j day ms).mem.byteAt a :=
    byteAt_sweepOver_far hok'.1 hok'.2.1 h2 fun ha => by
      unfold inField orderBase at ha
      omega
  refine ⟨M.set_closures ?_, fun slot => readPass_congr fun a ha => ?_⟩
  · rw [← heldClosures_daySetBack (k := j) (day := day) (ms := ms) hok.1]
    refine List.filter_congr fun i hi => (closure_congr fun a ha => far a ?_ ?_).1
    · unfold inField closureBase at ha
      omega
    · have := List.mem_range.1 hi
      unfold inField closureBase at ha
      unfold inWriter
      omega
  · unfold inField passBase at ha
    have hw : ¬inWriter a := by unfold inWriter; omega
    refine (M.byteAt_set (by omega) hw).trans ((far a (by omega) hw).trans
      ((byteAt_daySetBack hok.1 ?_).trans (byteAt_takeSlot_table j hok.1 (by omega))))
    unfold inField closureBase
    omega

end

end Sys2Proof.Machine
end

section
/-! PROOFS. A sweep cut short by a rollover (R37, R144). -/

namespace Sys2Proof.Machine

/-! ### Cut short by a rollover (R37, R144) -/

/-- The new day's tables with the sweep cut short. -/
def dayCut (s : State) (c : CreditSweep) : State := sweepOver c true (dayTurned s)

/-- The windows of the new day behind it. -/
def cutOpened (s : State) (c : CreditSweep) : State := eachLane (closeAtRollover false dayMs) (dayCut s c)

/-- The new day shown and announced behind them. -/
def cutShown (s : State) (c : CreditSweep) : State := raise .rollover (writeTimeMirror (cutOpened s c))

/-- The state that the rollover's event ends with. -/
def cutBegun (s : State) (c : CreditSweep) : State := settleOutputs s (stationRecord .rollover false 0 0 (cutShown s c))

theorem rollTo_cuts {s : State} {c : CreditSweep} (hc : s.creditSweep = some c) (hw : s.closuresWaiting = []) :
    rollTo (s.day + 1) false { s with dayEnd := false } = stationRecord .rollover false 0 0 (cutShown s c) := by
  have hcut : cutSweepShort (dayTurned s) = dayCut s c := cutSweepShort_alone hc hw
  rw [cutShown, cutOpened, ← hcut, dayTurned, ← applyStaging_clear s (s.day + 1)]
  rfl

theorem rollover_cuts {s : State} {c : CreditSweep} (he : s.dayEnd = true) (hms : s.ms + 1 = 86400000)
    (hd : s.day < 65534) (hc : s.creditSweep = some c) (hw : s.closuresWaiting = []) :
    exec .rollover s = .next (cutBegun s c) := by
  rw [cutBegun, ← rollTo_cuts hc hw]
  show execRollover s = _
  unfold execRollover
  rw [if_pos he]
  exact (if_neg (by unfold dayMs; omega)).trans (if_pos hd)

section
variable {s : State} {c : CreditSweep} (hok : s.ok) (ht : orderState s c.order.slot.val = 2)
  (hi : ∀ x ∈ readStaging s.mem, x.1 < 64)
include hok

/-- What the tables of the new day write. -/
def inDayTables (s : State) (a : Nat) : Prop :=
  inField (closureBase 0) 128 a ∨ inField (stagingBase 0) 1024 a
    ∨ ∃ x ∈ readStaging s.mem, inField (productBase x.1) 128 a

include hi in
omit hok in
theorem inDayTables_region {a : Nat} (ha : inDayTables s a) : 0x1500 ≤ a ∧ a < 0x4200 := by
  rcases ha with ha | ha | ⟨x, hx, ha⟩
  · unfold inField closureBase at ha
    omega
  · unfold inField stagingBase at ha
    omega
  · have := hi x hx
    unfold inField productBase at ha
    omega

theorem dayTurned_amends : Amends s (dayTurned s) (inDayTables s) 0#8 := by
  refine ⟨dayTables_wf hok.1, rfl, rfl, by simp [dayTurned], fun a ha => ?_⟩
  simp only [inDayTables, not_or, not_exists, not_and] at ha
  exact byteAt_dayTables hok.1 ha.1 ha.2.1 ha.2.2

theorem dayTurned_ok : (dayTurned s).ok := ⟨dayTables_wf hok.1, hok.2.1, hok.2.2⟩

include hi

theorem dayTurned_threshold : thresholdOf (dayTurned s) = thresholdOf s :=
  ((dayTurned_amends hok).reached (by decide)).threshold fun a ha => by
    have := inDayTables_region hi ha
    unfold inField hdrThreshold
    omega

include ht

theorem dayTurned_taken : orderState (dayTurned s) c.order.slot.val = 2 := by
  have hk := c.order.slot.isLt
  refine Eq.trans (Memory.read_congr fun a h1 h2 => (dayTurned_amends hok).bytes a fun ha => ?_) ht
  have := inDayTables_region hi ha
  unfold orderBase at h2
  omega

/-- The CREDIT record of the sweep cut short. -/
def cutAsked (s : State) (c : CreditSweep) : Appended :=
  Appended.ask (thresholdOf s) ⟨s.journal, [], false, false⟩ (false, creditRecord c true (s.day + 1) 0)

/-- What the end of the sweep writes in the Journal and its slot. -/
def inSweepEnd (s : State) (c : CreditSweep) (a : Nat) : Prop :=
  inOrderEnd c.order.slot a ∨ inField (orderBase c.order.slot.val + 32) 4 a ∨ inAppend s a

omit ht hi in
theorem inSweepEnd_region {a : Nat} (ha : inSweepEnd s c a) :
    inField (orderBase c.order.slot.val) 36 a ∨ inWriter a := by
  rcases ha with ha | ha | ha
  · unfold inOrderEnd inField at ha
    unfold inField
    omega
  · unfold inField at *
    omega
  · exact .inr (inAppend_region hok.2.1 ha)

theorem dayCut_reached :
    Reached s (dayCut s c) (fun a => inDayTables s a ∨ inSweepEnd s c a) 1#8 (cutAsked s c) := by
  have swept := (sweepOver_reached (c := c) (cut := true) (dayTurned_ok hok) (dayTurned_taken hok ht hi)).after
    (dayTurned_amends hok)
  rw [dayTurned_threshold hok hi] at swept
  exact swept

theorem dayCut_rolled : LanesRolled allFour (dayCut s c) (cutOpened s c) := eachLane_rolled (dayCut_reached hok ht hi).wf

/-- What the windows write at a rollover. -/
def inWindowsClose (s : State) (a : Nat) : Prop := ∃ n, inWindowClose s n a

theorem cutOpened_amends : Amends (dayCut s c) (cutOpened s c) (inWindowsClose (dayCut s c)) 0#8 where
  wf := (dayCut_rolled hok ht hi).wf
  ports := eachLane_ports (closeAtRollover_ports false dayMs) _
  journal := eachLane_journal (closeAtRollover_journal false dayMs) _
  attn := (eachLane_attn (closeAtRollover_attn false dayMs) _).trans BitVec.or_zero.symm
  bytes := fun a ha => (dayCut_rolled hok ht hi).bytes a fun n _ hn => ha ⟨n, hn⟩

theorem cutShown_amends : Amends (cutOpened s c) (cutShown s c) (inField hdrMs 6) 0x40#8 := by
  have mirrored := writeTimeMirror_amends (cutOpened_amends hok ht hi).wf
  rw [cutShown]
  exact raised_amends mirrored .rollover

omit ht hi hok in
theorem dayCut_rest : (dayCut s c).rest = ({ dayTurned s with creditSweep := none } : State).rest := sweepOver_rest

theorem cutShown_rest : (cutShown s c).rest = ({ dayTurned s with creditSweep := none } : State).rest := by
  rw [cutShown, raise_rest, writeTimeMirror_rest, (dayCut_rolled hok ht hi).rest, dayCut_rest]

/-- From the cut on: the windows and the time mirror. -/
theorem cutShown_from :
    Amends (dayCut s c) (cutShown s c) (fun a => inWindowsClose (dayCut s c) a ∨ inField hdrMs 6 a) 0x40#8 :=
  (cutOpened_amends hok ht hi).trans (cutShown_amends hok ht hi)

omit hok ht hi in
theorem inCutShown_region {a : Nat} (ha : inWindowsClose (dayCut s c) a ∨ inField hdrMs 6 a) :
    (8 ≤ a ∧ a < 14) ∨ inWindowRegion a := by
  rcases ha with ⟨n, ha⟩ | ha
  · exact .inr (inWindowClose_region ha)
  · unfold inField hdrMs at ha
    omega

theorem cutShown_reached :
    Reached s (cutShown s c)
      (fun a => (inDayTables s a ∨ inSweepEnd s c a) ∨ inWindowsClose (dayCut s c) a ∨ inField hdrMs 6 a) 0x41#8
      (cutAsked s c) :=
  (dayCut_reached hok ht hi).amend (cutShown_from hok ht hi) (by decide) fun a ha => by
    have := inCutShown_region ha
    unfold inWindowRegion at this
    unfold inWriter
    omega

theorem cutRecorded_reached :
    Reached s (stationRecord .rollover false 0 0 (cutShown s c))
      (fun a => ((inDayTables s a ∨ inSweepEnd s c a) ∨ inWindowsClose (dayCut s c) a ∨ inField hdrMs 6 a)
        ∨ inAppend (cutShown s c) a) 0x41#8
      (Appended.ask (thresholdOf s) (cutAsked s c) (false, rollRecord s (s.day + 1))) := by
  have hrest := cutShown_rest hok ht hi
  have hrecord : mkRecord (cutShown s c) none [] none (.station .rollover (cutShown s c).online false 0 0) =
      rollRecord s (s.day + 1) := by
    rw [mkRecord, rollRecord, day_of_rest hrest, ms_of_rest hrest, online_of_rest hrest]
    rfl
  have hP (a : Nat) (ha : (inDayTables s a ∨ inSweepEnd s c a) ∨ inWindowsClose (dayCut s c) a ∨ inField hdrMs 6 a) :
      ¬inField hdrThreshold 2 a := by
    unfold inField hdrThreshold
    rcases ha with (ha | ha) | ha
    · have := inDayTables_region hi ha
      omega
    · have := inSweepEnd_region hok ha
      unfold inField inWriter orderBase at this
      omega
    · have := inCutShown_region ha
      unfold inWindowRegion at this
      omega
  have asked := (cutShown_reached hok ht hi).ask (Appended.fresh_ask hok.2.1 _ _)
    (Appended.ask_indexed ⟨hok.2.1, hok.2.2⟩ _) hP (rollRecord s (s.day + 1))
  rw [← hrecord] at asked ⊢
  exact asked

/-- The end of the event changes the Lane Blocks alone. -/
theorem cutBegun_amends :
    Amends (stationRecord .rollover false 0 0 (cutShown s c)) (cutBegun s c) (fun a => ∃ n, inLaneMirror n a) 0#8 := by
  have hwf := (cutRecorded_reached hok ht hi).wf
  have hm : stateMirror s = stateMirror (stationRecord .rollover false 0 0 (cutShown s c)) := by
    have hrest := (stationRecord_rest .rollover false 0 0 (cutShown s c)).trans (cutShown_rest hok ht hi)
    rw [stateMirror, stateMirror, station_of_rest hrest, online_of_rest hrest, freeFlow_of_rest hrest]
    rfl
  exact ⟨settleOutputs_wf s hwf, settleOutputs_ports .., settleOutputs_journal .., by rw [cutBegun]; simp,
    fun a ha => byteAt_settleOutputs_outside s hwf (.inr hm) fun n hn => ha ⟨n, hn⟩⟩

theorem cutBegun_reached :
    Reached s (cutBegun s c)
      (fun a => (((inDayTables s a ∨ inSweepEnd s c a) ∨ inWindowsClose (dayCut s c) a ∨ inField hdrMs 6 a)
        ∨ inAppend (cutShown s c) a) ∨ ∃ n, inLaneMirror n a) 0x41#8
      (Appended.ask (thresholdOf s) (cutAsked s c) (false, rollRecord s (s.day + 1))) :=
  (cutRecorded_reached hok ht hi).amend (cutBegun_amends hok ht hi) (by decide) fun a ⟨n, ha⟩ => by
    have := inLaneMirror_region ha
    unfold inWriter
    omega

theorem cutBegun_rest : (cutBegun s c).rest = ({ dayTurned s with creditSweep := none } : State).rest := by
  rw [cutBegun, settleOutputs_rest, stationRecord_rest, cutShown_rest hok ht hi]

theorem inAppend_cutShown {a : Nat} (ha : inAppend (cutShown s c) a) : inWriter a := by
  refine inAppend_region ?_ ha
  rw [(cutShown_reached hok ht hi).records.journal]
  exact (Appended.ask_indexed ⟨hok.2.1, hok.2.2⟩ _).1

/-- Behind the cut, outside the header, the Lane Blocks, the flow rings and the Journal nothing is written. -/
theorem byteAt_cutBegun {a : Nat} (ha : (0x100 ≤ a ∧ a < 0x1100) ∨ (0x1500 ≤ a ∧ a < 0x4200) ∨ 0xE200 ≤ a) :
    (cutBegun s c).mem.byteAt a = (dayCut s c).mem.byteAt a := by
  refine ((cutBegun_amends hok ht hi).bytes a fun ⟨n, hin⟩ => ?_).trans
    ((byteAt_appendUnpledged _ (cutShown_reached hok ht hi).wf fun hin => ?_).trans
      ((cutShown_from hok ht hi).bytes a fun hin => ?_))
  · have := inLaneMirror_region hin
    omega
  · have := inAppend_cutShown hok ht hi hin
    unfold inWriter at this
    omega
  · have := inCutShown_region hin
    unfold inWindowRegion at this
    omega

theorem cutBegun_shown : sweepShown (cutBegun s c) c.order.slot c.count c.listPosition true :=
  sweepShown_congr (sweepOver_shown (dayTurned_ok hok).1 (dayTurned_taken hok ht hi) hok.2.1) fun a ha =>
    byteAt_cutBegun hok ht hi <| by
      have := c.order.slot.isLt
      unfold inField orderBase at ha
      omega

theorem cutBegun_tables :
    heldClosures (cutBegun s c).mem = [] ∧ ∀ slot, (cutBegun s c).pass slot = s.pass slot := by
  have hk := c.order.slot.isLt
  have far (a : Nat) (h1 : 0x1100 ≤ a) (h2 : ¬inWriter a) : (dayCut s c).mem.byteAt a = (dayTurned s).mem.byteAt a :=
    byteAt_sweepOver_far (dayTurned_ok hok).1 hok.2.1 h2 fun ha => by
      unfold inField orderBase at ha
      omega
  constructor
  · rw [← heldClosures_dayTables hok.1]
    refine List.filter_congr fun i hin => (closure_congr fun a ha => ?_).1
    have := List.mem_range.1 hin
    unfold inField closureBase at ha
    refine (byteAt_cutBegun hok ht hi (by omega)).trans (far a (by omega) ?_)
    unfold inWriter
    omega
  · refine fun slot => readPass_congr fun a ha => ?_
    unfold inField passBase at ha
    refine (byteAt_cutBegun hok ht hi (by omega)).trans ((far a (by omega) ?_).trans ((dayTurned_amends hok).bytes a fun hin => ?_))
    · unfold inWriter
      omega
    · have := inDayTables_region hi hin
      omega

end

end Sys2Proof.Machine
end

section
/-! PROOFS. CREDIT_SWEEP (R140 to R144). -/

namespace Sys2Proof.Machine

/-! ### CREDIT_SWEEP as a whole (R140 to R144) -/

theorem sweepMoved_count {s : State} {c : CreditSweep} {earns : Prop} {count : Nat}
    (he : visitCredits s c.position = true ↔ earns) (h1 : earns → count = c.count + 1) (h2 : ¬earns → count = c.count) :
    (sweepMoved s c).count = count := by
  unfold sweepMoved
  by_cases h : earns
  · rw [if_pos (he.2 h), h1 h]
  · rw [if_neg fun hv => h (he.1 hv), h2 h]

section
variable {s : State} {c : CreditSweep} (hok : s.ok)

theorem sweepMoved_eq {count : Nat} (h : (sweepMoved s c).count = count) :
    sweepMoved s c = { c with position := c.position + 1, count := count } := by
  rw [← h, sweepMoved]

include hok

/-- With no order waiting the end of the sweep changes its slot, the Journal and the entry credited. -/
theorem sweepClosed_alone_eq (hnone : s.closuresWaiting = []) :
    sweepClosed s c = { s with
        mem := (sweepClosed s c).mem, attn := (sweepClosed s c).attn, journal := (sweepClosed s c).journal
        creditSweep := none }
      ∧ keepsBytes s (sweepClosed s c) (fun a =>
          inOrderEnd c.order.slot a ∨ inField (orderBase c.order.slot.val + 32) 4 a ∨ inAppend s a
            ∨ inCredited s c.position a) := by
  rw [sweepClosed_alone hnone]
  refine ⟨sweepFinished_eq, fun a ha => ?_⟩
  simp only [not_or] at ha
  obtain ⟨hend, hresult, happend, hcredit⟩ := ha
  exact byteAt_sweepFinished hok hend hresult happend hcredit

/-- The first of the waiting orders starts its sweep behind it. -/
theorem sweepClosed_starts_eq {o : ClosureOrder} {i : Nat} (ho : o ∈ s.closuresWaiting) (hi : i < 8) (hday : o.day = s.day)
    (hminute : o.startMinute ≤ s.ms / 60000) (he : closureHeld s.mem i = false)
    (hb : ∀ j < i, closureHeld s.mem j = true) (hn : (s.closuresWaiting.map (·.slot)).Nodup)
    (hleast : ∀ x ∈ s.closuresWaiting, x ≠ o → o.slot < x.slot) :
    (sweepClosed s c).mem =
        writeClosure (sweepFinished s c).mem i ⟨o.day, o.startMinute, o.endMinute, o.reason⟩
      ∧ sweepClosed s c = { s with
          mem := (sweepClosed s c).mem, attn := (sweepClosed s c).attn, journal := (sweepClosed s c).journal
          creditSweep := some ⟨o, i, 0, 0, s.now⟩, closuresWaiting := (sweepClosed s c).closuresWaiting }
      ∧ ∀ x, x ∈ (sweepClosed s c).closuresWaiting ↔ x ∈ s.closuresWaiting ∧ x ≠ o := by
  obtain ⟨r, hsort, hr⟩ := sortBySlot_least (slot := fun o : ClosureOrder => o.slot.val) (hn.of_map _) ho hleast
  have hstart := sweepClosed_starts (c := c) hok hsort hday hminute hi he hb
  have hfinished := sweepFinished_eq (s := s) (c := c)
  rw [hstart]
  generalize sweepFinished s c = u at hfinished
  refine ⟨closureBegun_mem o i u, ?_, hr⟩
  unfold closureBegun
  exact congrArg (fun v : State => { v with
    mem := writeClosure u.mem i ⟨o.day, o.startMinute, o.endMinute, o.reason⟩
    creditSweep := some ⟨o, i, 0, 0, v.now⟩, closuresWaiting := r }) hfinished

end

/-- Settles O36: the visit of a slot, the end of the sweep with the orders that wait for it, and the two events that cut
it short. -/
theorem creditSweepCreditsPasses : Obligations.CreditSweepCreditsPasses := by
  intro s c hok hc ht k ends
  refine ⟨?_, ?_, ?_⟩
  · intro hd hp e d earns credited count hone hnone
    have hearns : visitCredits s c.position = true ↔ earns := visitCredits_iff s c.position
    have hcount := sweepMoved_count hearns hone hnone
    have hcredited (a : Nat) : inCredited s c.position a ↔ credited a := and_congr_left' hearns
    have hentry (h : earns) : (visited s c.position).pass c.position =
        { e with usage := e.usage + 256, creditedDay := some s.day } := (visited_credits hok.1 (hearns.2 h)).1
    rcases Nat.lt_or_eq_of_le hp with hlast | hlast
    · refine ⟨_, creditSweep_goesOn hc hd hlast, hentry, fun _ => ⟨?_, fun a ha => ?_⟩, fun h => absurd h (by omega)⟩
      · rw [sweepMoved_eq hcount]
      · exact byteAt_visited hok.1 c.position fun hin => ha ((hcredited a).1 hin)
    · refine ⟨sweepClosed s c, creditSweep_closes hok hc hd hlast,
        fun h => (pass_sweepClosed hok c.position).trans (hentry h), fun h => absurd h (by omega), fun _ hslots => ?_⟩
      obtain ⟨⟨hstate, hcode, hshown, hposition, hcut⟩, hrecord, hattn⟩ := sweepClosed_ends hok ht hslots
      rw [hcount] at hshown
      rw [creditRecord, hcount] at hrecord
      refine ⟨⟨hstate, hcode, hshown, hposition, hcut, hrecord⟩, hattn, fun hempty => ?_,
        fun o ho i hi hoday hominute hfree hbelow hday16 hstart16 hend16 hreason8 hn hleast => ?_⟩
      · obtain ⟨heq, hkeeps⟩ := sweepClosed_alone_eq hok hempty
        refine ⟨heq, fun a ha => hkeeps a fun hin => ha ?_⟩
        exact hin.imp_right (Or.imp_right (Or.imp_right (hcredited a).1))
      · obtain ⟨hmem, heq, hlist⟩ := sweepClosed_starts_eq hok ho hi hoday hominute hfree hbelow hn hleast
        have hw := sweepFinished_wf (c := c) hok
        obtain ⟨hheld, hread⟩ := readClosure_writeClosure hw i (c := ⟨o.day, o.startMinute, o.endMinute, o.reason⟩)
          hday16 hstart16 hend16 hreason8
        refine ⟨by rw [hmem]; exact hread, by rw [hmem]; exact hheld, heq, hlist, fun a ha => ?_⟩
        simp only [not_or] at ha
        obtain ⟨hend, hresult, happend, hcredit, hclosure⟩ := ha
        rw [hmem, byteAt_writeClosure hw i _ hclosure]
        exact byteAt_sweepFinished hok hend hresult happend fun hin => hcredit ((hcredited a).1 hin)
  · intro hwait he hms hday hi
    have reached := cutBegun_reached (c := c) hok ht hi
    have hrest := cutBegun_rest (c := c) hok ht hi
    obtain ⟨hstate, hcode, hshown, hposition, hcut⟩ := cutBegun_shown (c := c) hok ht hi
    obtain ⟨hclosures, hpass⟩ := cutBegun_tables (c := c) hok ht hi
    exact ⟨cutBegun s c, rollover_cuts he hms hday hc hwait, (creditSweep_of_rest hrest).trans rfl,
      (day_of_rest hrest).trans rfl, (ms_of_rest hrest).trans rfl,
      ⟨hstate, hcode, hshown, hposition, hcut, (recorded_iff ..).2 reached.records⟩, reached.attn, hclosures,
      fun slot _ => hpass slot⟩
  · intro j hwait htime hj hq hne hwin day ms hlt hms
    have M := movedBack_cut hok ht hne day ms
    have heq := M.set_eq
    have hmove : cutSweepShort (daySetBack s j day ms) = sweepOver c true (daySetBack s j day ms) := by
      refine cutSweepShort_alone ?_ ?_
      · rw [daySetBack, ← hc, ← takeSlot_creditSweep j s]
      · rw [daySetBack, ← hwait]
        rfl
    obtain ⟨hstate, hcode, hshown, hposition, hcut⟩ := timeSetBack_cut_shown hok ht hne day ms
    obtain ⟨hclosures, hpass⟩ := timeSetBack_cut_tables hok ht hne day ms
    exact ⟨_, M.runs hj hok.1 hq rfl rfl hlt (by have := htime.1; omega) hms hmove hwin, M.set_ended, by rw [heq],
      by rw [heq], by rw [heq], ⟨hstate, hcode, hshown, hposition, hcut, (recorded_iff ..).2 M.set_reached.records⟩,
      M.set_reached.attn, hclosures, fun slot _ => hpass slot⟩

end Sys2Proof.Machine
end

section
/-! PROOFS. Steps 1 and 2 of the restart scan: the markers and the orders (R195). -/

namespace Sys2Proof.Machine

/-! ### Steps 1 and 2 of the restart scan (R195) -/

theorem Amends.refl {s : State} (h : s.mem.wf) : Amends s s (fun _ => False) 0#8 :=
  ⟨h, rfl, rfl, by simp, fun _ _ => rfl⟩

/-- The markers of some slots set to NONE. -/
def markersCleared (l : List Nat) (s : State) : State := l.foldl (fun t slot => setMarker slot none t) s

theorem setMarker_none_shows (slot : Nat) {s : State} (h : s.mem.wf) :
    (setMarker slot none s).peek (passBase slot + 31) 1 = 0xFF := peek_setMarker slot none h

/-- Setting a marker to NONE leaves one that reads NONE so, its own or another. -/
theorem setMarker_none_stands (slot other : Nat) {s : State} (h : s.mem.wf)
    (hs : s.peek (passBase slot + 31) 1 = 0xFF ∨ slot = other) :
    (setMarker other none s).peek (passBase slot + 31) 1 = 0xFF := by
  by_cases hslot : slot = other
  · subst hslot
    exact setMarker_none_shows slot h
  · rw [← hs.resolve_right hslot]
    exact Memory.read_congr fun a h1 h2 => byteAt_setMarker other none h (by unfold passBase at *; omega)

theorem markersCleared_rest (l : List Nat) (s : State) :
    (markersCleared l s).rest = s.rest ∧ (markersCleared l s).lanes = s.lanes := by
  induction l generalizing s with
  | nil => exact ⟨rfl, rfl⟩
  | cons x l ih =>
    obtain ⟨hrest, hlanes⟩ := ih (setMarker x none s)
    exact ⟨hrest.trans (setMarker_rest ..), hlanes.trans (setMarker_lanes ..)⟩

theorem markersCleared_amends (l : List Nat) {s : State} (h : s.mem.wf) :
    Amends s (markersCleared l s) (fun a => ∃ slot ∈ l, a = passBase slot + 31) 0#8 := by
  induction l generalizing s with
  | nil => exact (Amends.refl h).mono fun _ => False.elim
  | cons x l ih =>
    have first : Amends s (setMarker x none s) (· = passBase x + 31) 0#8 :=
      ⟨setMarker_wf x none h, setMarker_ports .., setMarker_journal .., by simp, fun a ha => byteAt_setMarker x none h ha⟩
    refine (first.trans (ih first.wf)).mono fun a ha => ?_
    rcases ha with ha | ⟨slot, hslot, ha⟩
    · exact ⟨x, by simp, ha⟩
    · exact ⟨slot, List.mem_cons_of_mem _ hslot, ha⟩

theorem markersCleared_shows (l : List Nat) {s : State} (h : s.mem.wf) {slot : Nat}
    (hs : s.peek (passBase slot + 31) 1 = 0xFF ∨ slot ∈ l) :
    (markersCleared l s).peek (passBase slot + 31) 1 = 0xFF := by
  induction l generalizing s with
  | nil => exact hs.resolve_right (by simp)
  | cons x l ih =>
    refine ih (setMarker_wf x none h) ?_
    rcases hs with hs | hs
    · exact .inl (setMarker_none_stands slot x h (.inl hs))
    · exact (List.mem_cons.1 hs).imp_left fun hx => setMarker_none_stands slot x h (.inr hx)

/-- An order that the scan fails: TAKEN, and not yet visited. -/
def scanFails (lo : Nat) (s : State) (k : Fin 32) : Prop := lo ≤ 6144 + k.val ∧ orderState s k = 2

/-- What step 2 leaves of some order slots: those that fail show RESET, attention is raised by `c` where one does. -/
structure OrdersReset (lo : Nat) (l : List (Fin 32)) (v w : State) (c : BitVec 8) : Prop where
  rest : w.rest = v.rest
  lanes : w.lanes = v.lanes
  amends : Amends v w (fun a => ∃ k ∈ l, scanFails lo v k ∧ inOrderEnd k a) c
  raised : (∃ k ∈ l, scanFails lo v k) → c = 1#8
  quiet : (¬∃ k ∈ l, scanFails lo v k) → c = 0#8
  shows : ∀ k ∈ l, scanFails lo v k → orderState w k = 4 ∧ w.peek (orderBase k.val + 3) 1 = 23

theorem resetOrder_fails {lo : Nat} {s : State} {k : Fin 32} (h : scanFails lo s k) :
    resetOrder lo scanVisits s k = endOrder k .reset s := by
  have hk := k.isLt
  obtain ⟨hlo, hstate⟩ := h
  exact if_pos ⟨hlo, by unfold scanVisits passSlots; omega, hstate⟩

theorem resetOrder_stands {lo : Nat} {s : State} {k : Fin 32} (h : ¬scanFails lo s k) :
    resetOrder lo scanVisits s k = s := if_neg fun ⟨hlo, _, hstate⟩ => h ⟨hlo, hstate⟩

theorem resetOrder_resets (lo : Nat) (k : Fin 32) {s : State} (h : s.mem.wf) :
    ∃ c, OrdersReset lo [k] s (resetOrder lo scanVisits s k) c := by
  by_cases hf : scanFails lo s k
  · obtain ⟨hstate, hcode, -, -⟩ := endOrder_shows k .reset h hf.2
    rw [resetOrder_fails hf]
    refine ⟨1#8, endOrder_rest .., endOrder_lanes .., (endOrder_amends h hf.2 .reset).mono fun a ha => ⟨k, by simp, hf, ha⟩,
      fun _ => rfl, fun hn => absurd ⟨k, by simp, hf⟩ hn, fun i hi _ => ?_⟩
    rw [List.mem_singleton.1 hi]
    exact ⟨hstate, hcode⟩
  · have hnone : ∀ i ∈ [k], ¬scanFails lo s i := fun i hi => List.mem_singleton.1 hi ▸ hf
    rw [resetOrder_stands hf]
    exact ⟨0#8, rfl, rfl, (Amends.refl h).mono fun _ => False.elim, fun ⟨i, hi, hfi⟩ => absurd hfi (hnone i hi),
      fun _ => rfl, fun i hi hfi => absurd hfi (hnone i hi)⟩

/-- Another slot's order fails behind as it did before. -/
theorem OrdersReset.fails_other {lo : Nat} {n k : Fin 32} {v w : State} {c : BitVec 8} (R : OrdersReset lo [n] v w c)
    (hk : k ≠ n) : scanFails lo w k ↔ scanFails lo v k := by
  have hne : k.val ≠ n.val := fun h => hk (Fin.ext h)
  have hsame : orderState w k = orderState v k := by
    refine Memory.read_congr fun a h1 h2 => R.amends.bytes a fun ⟨i, hi, _, ha⟩ => ?_
    rw [List.mem_singleton.1 hi] at ha
    unfold inOrderEnd inField orderBase at ha
    unfold orderBase at h1 h2
    omega
  rw [scanFails, scanFails, hsame]

theorem OrdersReset.cons {lo : Nat} {n : Fin 32} {l : List (Fin 32)} (hn : n ∉ l) {u v w : State} {c c' : BitVec 8}
    (R : OrdersReset lo [n] u v c) (S : OrdersReset lo l v w c') : OrdersReset lo (n :: l) u w (c ||| c') := by
  have hfails (k : Fin 32) (hk : k ∈ l) : scanFails lo v k ↔ scanFails lo u k := R.fails_other fun h => hn (h ▸ hk)
  have hone (k : Fin 32) (hk : k ∈ [n]) : k = n := List.mem_singleton.1 hk
  refine ⟨S.rest.trans R.rest, S.lanes.trans R.lanes, (R.amends.trans S.amends).mono fun a ha => ?_, fun hr => ?_,
    fun hq => ?_, fun k hk hf => ?_⟩
  · rcases ha with ⟨k, hk, hf, ha⟩ | ⟨k, hk, hf, ha⟩
    · exact ⟨k, by rw [hone k hk]; simp, hf, ha⟩
    · exact ⟨k, List.mem_cons_of_mem _ hk, (hfails k hk).1 hf, ha⟩
  · by_cases hfirst : scanFails lo u n
    · rw [R.raised ⟨n, by simp, hfirst⟩]
      by_cases hs : ∃ k ∈ l, scanFails lo v k
      · rw [S.raised hs]
        rfl
      · rw [S.quiet hs]
        rfl
    · obtain ⟨k, hk, hf⟩ := hr
      rcases List.mem_cons.1 hk with rfl | hk
      · exact absurd hf hfirst
      · rw [S.raised ⟨k, hk, (hfails k hk).2 hf⟩, R.quiet fun ⟨i, hi, hfi⟩ => hfirst (hone i hi ▸ hfi)]
        rfl
  · rw [R.quiet fun ⟨k, hk, hf⟩ => hq ⟨n, by simp, hone k hk ▸ hf⟩,
      S.quiet fun ⟨k, hk, hf⟩ => hq ⟨k, List.mem_cons_of_mem _ hk, (hfails k hk).1 hf⟩]
    rfl
  · rcases List.mem_cons.1 hk with rfl | hk
    · obtain ⟨hstate, hcode⟩ := R.shows k (by simp) hf
      have same (off m : Nat) (ho : off + m ≤ 128) :
          w.peek (orderBase k.val + off) m = v.peek (orderBase k.val + off) m := by
        refine Memory.read_congr fun a h1 h2 => S.amends.bytes a fun ⟨i, hi, _, ha⟩ => ?_
        have hne : i.val ≠ k.val := fun h => hn (Fin.ext h ▸ hi)
        unfold inOrderEnd inField orderBase at ha
        unfold orderBase at h1 h2
        omega
      exact ⟨(same 0 2 (by omega)).trans hstate, (same 3 1 (by omega)).trans hcode⟩
    · exact S.shows k hk ((hfails k hk).2 hf)

theorem foldl_resets (lo : Nat) (l : List (Fin 32)) (hl : l.Nodup) {s : State} (h : s.mem.wf) :
    ∃ c, OrdersReset lo l s (l.foldl (resetOrder lo scanVisits) s) c := by
  induction l generalizing s with
  | nil =>
    exact ⟨0#8, rfl, rfl, (Amends.refl h).mono fun _ => False.elim, fun ⟨_, hk, _⟩ => absurd hk (by simp), fun _ => rfl,
      fun _ hk => absurd hk (by simp)⟩
  | cons n l ih =>
    obtain ⟨hn, hl⟩ := List.nodup_cons.1 hl
    obtain ⟨c, first⟩ := resetOrder_resets lo n h
    obtain ⟨c', others⟩ := ih hl first.amends.wf
    exact ⟨c ||| c', first.cons hn others⟩

/-- The slots whose markers the end of the scan still sets to NONE. -/
def unvisited (s : State) : List Nat := liveSlots s.mem s.startPos 6144

/-- Steps 1 and 2 to their end. -/
def scanned (s : State) : State :=
  (List.finRange 32).foldl (resetOrder s.startPos scanVisits) (markersCleared (unvisited s) s)

theorem scanTo_end (s : State) : scanTo scanVisits s = { scanned s with startPos := scanVisits } := by
  unfold scanned markersCleared unvisited
  rfl

/-- What the end of the scan writes of markers and orders. -/
def inScanned (s : State) (a : Nat) : Prop :=
  (∃ slot < 6144, s.startPos ≤ slot ∧ slotStateOf s.mem slot = 1 ∧ a = passBase slot + 31)
    ∨ ∃ k : Fin 32, s.startPos ≤ 6144 + k.val ∧ orderState s k = 2 ∧ inOrderEnd k a

/-- What the end of the scan leaves. -/
structure ScanEnded (s w : State) (c : BitVec 8) : Prop where
  rest : w.rest = s.rest
  lanes : w.lanes = s.lanes
  amends : Amends s w (inScanned s) c
  raised : (∃ k : Fin 32, s.startPos ≤ 6144 + k.val ∧ orderState s k = 2) → c = 1#8
  quiet : (¬∃ k : Fin 32, s.startPos ≤ 6144 + k.val ∧ orderState s k = 2) → c = 0#8
  orders : ∀ k : Fin 32, s.startPos ≤ 6144 + k.val → orderState s k = 2 →
    orderState w k = 4 ∧ w.peek (orderBase k.val + 3) 1 = 23
  markers : ∀ slot < 6144, s.startPos ≤ slot → slotStateOf s.mem slot = 1 → w.peek (passBase slot + 31) 1 = 0xFF

theorem scanned_ended {s : State} (h : s.mem.wf) : ∃ c, ScanEnded s (scanned s) c := by
  have marked := markersCleared_amends (unvisited s) h
  have hmem (slot : Nat) : slot ∈ unvisited s ↔ s.startPos ≤ slot ∧ slot < 6144 ∧ slotStateOf s.mem slot = 1 :=
    mem_liveSlots h
  obtain ⟨hrest, hlanes⟩ := markersCleared_rest (unvisited s) s
  obtain ⟨c, R⟩ := foldl_resets s.startPos (List.finRange 32) (List.nodup_finRange 32) marked.wf
  have hstate (k : Fin 32) : orderState (markersCleared (unvisited s) s) k = orderState s k := by
    have hk := k.isLt
    refine Memory.read_congr fun a h1 h2 => marked.bytes a fun ⟨slot, _, ha⟩ => ?_
    unfold passBase at ha
    unfold orderBase at h2
    omega
  have hfails (k : Fin 32) : scanFails s.startPos (markersCleared (unvisited s) s) k ↔
      s.startPos ≤ 6144 + k.val ∧ orderState s k = 2 := by
    rw [scanFails, hstate]
  refine ⟨c, R.rest.trans hrest, R.lanes.trans hlanes, ?_, fun ⟨k, hf⟩ => R.raised ⟨k, by simp, (hfails k).2 hf⟩,
    fun hq => R.quiet fun ⟨k, _, hf⟩ => hq ⟨k, (hfails k).1 hf⟩,
    fun k hlo ht => R.shows k (by simp) ((hfails k).2 ⟨hlo, ht⟩), fun slot hslot hlo hlive => ?_⟩
  · have both := (marked.trans R.amends).mono (Q' := inScanned s) fun a ha => by
      rcases ha with ⟨slot, hslot, ha⟩ | ⟨k, _, hf, ha⟩
      · obtain ⟨hlo, hlt, hlive⟩ := (hmem slot).1 hslot
        exact .inl ⟨slot, hlt, hlo, hlive, ha⟩
      · obtain ⟨hlo, ht⟩ := (hfails k).1 hf
        exact .inr ⟨k, hlo, ht, ha⟩
    rwa [BitVec.zero_or] at both
  · rw [← markersCleared_shows (unvisited s) h (.inr ((hmem slot).2 ⟨hlo, hslot, hlive⟩))]
    refine Memory.read_congr fun a h1 h2 => R.amends.bytes a fun ⟨k, _, _, ha⟩ => ?_
    have hk := k.isLt
    unfold inOrderEnd inField orderBase at ha
    unfold passBase at h1
    omega

end Sys2Proof.Machine
end

section
/-! PROOFS. Steps 3 and 4 of the restart scan: the header and station time (R31, R189, R195, R199). -/

namespace Sys2Proof.Machine

/-! ### Steps 3 and 4 of the restart scan: the header and station time (R31, R189, R195) -/

/-- The dropped count and the header as the end of the restart scan writes them. -/
def headerWritten (lift : Nat) (u : State) : State := writeHeader 2 lift (u.poke hdrDropped 2 u.journal.dropped)

/-- The memory before the options taken, which stand at the header's end. -/
def headerFields (lift : Nat) (u : State) : Memory :=
  (((u.mem.write hdrDropped 2 u.journal.dropped).write hdrLayoutVersion 2 1).write hdrStartCause 2 2).write hdrLift 2 lift

/-- Where they stand. -/
def inHeaderWritten (a : Nat) : Prop := a < 6 ∨ inField hdrDropped 2 a ∨ inField hdrTaken 12 a

section
variable (lift : Nat) (u : State)

theorem headerWritten_eq :
    headerWritten lift u =
      { u with liftNumber := lift, mem := (headerFields lift u).writeBytes hdrTaken u.options.bytes } := by
  unfold headerWritten writeHeader State.poke headerFields
  rfl

theorem headerWritten_mem :
    (headerWritten lift u).mem = (headerFields lift u).writeBytes hdrTaken u.options.bytes := by
  rw [headerWritten_eq]

theorem headerWritten_rest : (headerWritten lift u).rest = ({ u with liftNumber := lift } : State).rest := by
  rw [headerWritten_eq, State.rest, State.rest]

theorem headerWritten_lanes : (headerWritten lift u).lanes = u.lanes := by
  rw [headerWritten_eq]

variable {u} (h : u.mem.wf)
include h

theorem headerFields_wf : (headerFields lift u).wf :=
  Memory.write_wf (Memory.write_wf (Memory.write_wf (Memory.write_wf h _ _ _) _ _ _) _ _ _) _ _ _

theorem byteAt_headerFields {a : Nat} (ha : ¬(a < 6 ∨ inField hdrDropped 2 a)) :
    (headerFields lift u).byteAt a = u.mem.byteAt a := by
  have w0 := Memory.write_wf h hdrDropped 2 u.journal.dropped
  have w1 := Memory.write_wf w0 hdrLayoutVersion 2 1
  have w2 := Memory.write_wf w1 hdrStartCause 2 2
  unfold inField hdrDropped at ha
  rw [headerFields, Memory.byteAt_write_outside w2 (by unfold hdrLift; omega),
    Memory.byteAt_write_outside w1 (by unfold hdrStartCause; omega),
    Memory.byteAt_write_outside w0 (by unfold hdrLayoutVersion; omega),
    Memory.byteAt_write_outside h (by unfold hdrDropped; omega)]

theorem byteAt_headerWritten_front {a : Nat} (ha : ¬inField hdrTaken 12 a) :
    (headerWritten lift u).mem.byteAt a = (headerFields lift u).byteAt a := by
  unfold inField at ha
  rw [headerWritten_mem]
  exact Memory.byteAt_writeBytes_outside (headerFields_wf lift h) (by rw [length_Options_bytes]; omega)

theorem headerWritten_amends : Amends u (headerWritten lift u) inHeaderWritten 0#8 := by
  refine ⟨?_, by rw [headerWritten_eq], by rw [headerWritten_eq], by rw [headerWritten_eq, BitVec.or_zero], fun a ha => ?_⟩
  · rw [headerWritten_mem]
    exact Memory.writeBytes_wf (headerFields_wf lift h) _ _
  · simp only [inHeaderWritten, not_or] at ha
    obtain ⟨hlow, hdropped, htaken⟩ := ha
    exact (byteAt_headerWritten_front lift h htaken).trans (byteAt_headerFields lift h (not_or.2 ⟨hlow, hdropped⟩))

/-- The words of the header's front. -/
theorem headerFields_read (hl : lift < 65536) :
    (headerFields lift u).read hdrLayoutVersion 2 = 1 ∧ (headerFields lift u).read hdrStartCause 2 = 2
      ∧ (headerFields lift u).read hdrLift 2 = lift
      ∧ (headerFields lift u).read hdrDropped 2 = u.journal.dropped % 65536 := by
  have w0 := Memory.write_wf h hdrDropped 2 u.journal.dropped
  have w1 := Memory.write_wf w0 hdrLayoutVersion 2 1
  have w2 := Memory.write_wf w1 hdrStartCause 2 2
  unfold headerFields
  refine ⟨?_, ?_, ?_, ?_⟩
  · rw [Memory.read_write_outside w2 (by decide), Memory.read_write_outside w1 (by decide), Memory.read_write w0]
    rfl
  · rw [Memory.read_write_outside w2 (by decide), Memory.read_write w1]
    rfl
  · rw [Memory.read_write w2]
    exact Nat.mod_eq_of_lt hl
  · rw [Memory.read_write_outside w2 (by decide), Memory.read_write_outside w1 (by decide),
      Memory.read_write_outside w0 (by decide), Memory.read_write h]
    rfl

/-- The header as the end of the restart scan shows it, but for the dropped count, the time, the flow positions and the
state mirror. -/
def headerShown (lift : Nat) (o : Options) (m : Memory) : Prop :=
  m.read hdrLayoutVersion 2 = 1 ∧ m.read hdrStartCause 2 = 2 ∧ m.read hdrLift 2 = lift
    ∧ m.readBytes hdrTaken 12 = o.bytes

omit h in
theorem headerShown_congr {o : Options} {m m' : Memory} (hs : headerShown lift o m)
    (hm : ∀ a, a < 6 ∨ inField hdrTaken 12 a → m'.byteAt a = m.byteAt a) : headerShown lift o m' := by
  obtain ⟨hversion, hcause, hlift, htaken⟩ := hs
  have front (a : Nat) (ha : a < 6) := hm a (.inl ha)
  exact ⟨(Memory.read_congr fun a h1 h2 => front a (by unfold hdrLayoutVersion at h2; omega)).trans hversion,
    (Memory.read_congr fun a h1 h2 => front a (by unfold hdrStartCause at h2; omega)).trans hcause,
    (Memory.read_congr fun a h1 h2 => front a (by unfold hdrLift at h2; omega)).trans hlift,
    (Memory.readBytes_congr fun a h1 h2 => hm a (.inr ⟨h1, h2⟩)).trans htaken⟩

theorem headerWritten_shows (hl : lift < 65536) :
    headerShown lift u.options (headerWritten lift u).mem
      ∧ (headerWritten lift u).peek hdrDropped 2 = u.journal.dropped % 65536 := by
  obtain ⟨hversion, hcause, hlift, hdropped⟩ := headerFields_read lift h hl
  have front (a n : Nat) (ha : a + n ≤ 26) : (headerWritten lift u).mem.read a n = (headerFields lift u).read a n :=
    Memory.read_congr fun x h1 h2 => byteAt_headerWritten_front lift h (by unfold inField hdrTaken; omega)
  refine ⟨⟨(front _ _ (by decide)).trans hversion, (front _ _ (by decide)).trans hcause, (front _ _ (by decide)).trans hlift,
    ?_⟩, (front _ _ (by decide)).trans hdropped⟩
  have htaken := Memory.readBytes_writeBytes (headerFields_wf lift h) hdrTaken u.options.bytes
  rw [length_Options_bytes] at htaken
  rw [headerWritten_mem]
  exact htaken

end

/-! ### Station time from its mirror (R31) -/

/-- The mirror holds a station time. -/
def mirrorHolds (s : State) : Prop := s.peek hdrDay 2 ≠ 65535 ∧ s.peek hdrMs 4 < 86400000

theorem takeMirrorTime_holds {u : State} (hm : mirrorHolds u) :
    takeMirrorTime u = { u with day := u.peek hdrDay 2, ms := u.peek hdrMs 4 } := by
  obtain ⟨hday, hms⟩ := hm
  exact if_neg (by unfold dayMs; omega)

theorem takeMirrorTime_empty {u : State} (hm : ¬mirrorHolds u) :
    takeMirrorTime u = writeTimeMirror { u with day := 0, ms := 0 } := by
  unfold mirrorHolds at hm
  exact if_pos (by unfold dayMs; omega)

theorem mirrorHolds_congr {s u : State} (h : ∀ a, 8 ≤ a → a < 14 → u.mem.byteAt a = s.mem.byteAt a) :
    u.peek hdrDay 2 = s.peek hdrDay 2 ∧ u.peek hdrMs 4 = s.peek hdrMs 4 ∧ (mirrorHolds u ↔ mirrorHolds s) := by
  have hday : u.peek hdrDay 2 = s.peek hdrDay 2 :=
    Memory.read_congr fun a h1 h2 => h a (by unfold hdrDay at h1; omega) (by unfold hdrDay at h2; omega)
  have hms : u.peek hdrMs 4 = s.peek hdrMs 4 :=
    Memory.read_congr fun a h1 h2 => h a (by unfold hdrMs at h1; omega) (by unfold hdrMs at h2; omega)
  exact ⟨hday, hms, by rw [mirrorHolds, mirrorHolds, hday, hms]⟩

theorem takeMirrorTime_lanes (u : State) : (takeMirrorTime u).lanes = u.lanes := by
  by_cases hm : mirrorHolds u
  · rw [takeMirrorTime_holds hm]
  · rw [takeMirrorTime_empty hm, writeTimeMirror_lanes]

theorem takeMirrorTime_rest (u : State) :
    (takeMirrorTime u).rest =
      ({ u with day := (takeMirrorTime u).day, ms := (takeMirrorTime u).ms } : State).rest := by
  by_cases hm : mirrorHolds u
  · rw [takeMirrorTime_holds hm]
  · rw [takeMirrorTime_empty hm, writeTimeMirror_rest, writeTimeMirror]

theorem takeMirrorTime_amends {u : State} (h : u.mem.wf) :
    Amends u (takeMirrorTime u) (fun a => ¬mirrorHolds u ∧ inField hdrMs 6 a) 0#8 := by
  by_cases hm : mirrorHolds u
  · rw [takeMirrorTime_holds hm]
    exact ⟨h, rfl, rfl, by simp, fun _ _ => rfl⟩
  · rw [takeMirrorTime_empty hm]
    have A := writeTimeMirror_amends (m := { u with day := 0, ms := 0 }) h
    exact ⟨A.wf, A.ports, A.journal, A.attn, fun a ha => A.bytes a fun hin => ha ⟨hm, hin⟩⟩

/-- Where the mirror holds no station time it shows day 0, millisecond 0 afterwards. -/
theorem takeMirrorTime_zero {u : State} (h : u.mem.wf) (hm : ¬mirrorHolds u) :
    (takeMirrorTime u).day = 0 ∧ (takeMirrorTime u).ms = 0 ∧ (takeMirrorTime u).peek hdrDay 2 = 0
      ∧ (takeMirrorTime u).peek hdrMs 4 = 0 := by
  rw [takeMirrorTime_empty hm]
  obtain ⟨hday, hms⟩ := writeTimeMirror_peek (m := { u with day := 0, ms := 0 }) h (Nat.zero_lt_succ _) (Nat.zero_lt_succ _)
  exact ⟨rfl, rfl, hday, hms.trans (show 0 / 1000 * 1000 = 0 from rfl)⟩

end Sys2Proof.Machine
end

section
/-! PROOFS. The flow positions taken and the Lane Blocks written afresh (R126, R194, R195). -/

namespace Sys2Proof.Machine

/-! ### The flow positions from the header and the rings (R126) -/

/-- A lane with its flow position and record number as the header and the ring give them. -/
def flowTakenLane (s : State) (n : Fin 4) (l : Lane) : Lane :=
  let p := s.peek (hdrFlow n.val) 2
  { l with
    flowPosition := if p ≤ 63 then some p else l.flowPosition
    flowNumber := if p ≤ 63 then s.peek (flowBase n.val p) 2 else l.flowNumber }

/-- The header's words of the lanes whose flow position lies outside the ring. -/
def inFlowEmptied (s : State) (a : Nat) : Prop :=
  ∃ n : Fin 4, 63 < s.peek (hdrFlow n.val) 2 ∧ inField (hdrFlow n.val) 2 a

theorem inFlowEmptied_region {s : State} {a : Nat} (ha : inFlowEmptied s a) : 18 ≤ a ∧ a < 26 := by
  obtain ⟨n, -, ha⟩ := ha
  have := n.isLt
  unfold inField hdrFlow at ha
  omega

theorem takeFlowPosition_ring {n : Fin 4} {t : State} (hp : t.peek (hdrFlow n.val) 2 ≤ 63) :
    takeFlowPosition n t = t.modLane n fun l => { l with
      flowPosition := some (t.peek (hdrFlow n.val) 2)
      flowNumber := t.peek (flowBase n.val (t.peek (hdrFlow n.val) 2)) 2 } := if_pos hp

theorem takeFlowPosition_empty {n : Fin 4} {t : State} (hp : t.peek (hdrFlow n.val) 2 = 0xFFFF) :
    takeFlowPosition n t = t := by
  unfold takeFlowPosition
  dsimp only
  rw [if_neg (by omega), if_pos hp]

theorem takeFlowPosition_beyond {n : Fin 4} {t : State} (hp : 63 < t.peek (hdrFlow n.val) 2)
    (hf : t.peek (hdrFlow n.val) 2 ≠ 0xFFFF) : takeFlowPosition n t = t.poke (hdrFlow n.val) 2 0xFFFF := by
  unfold takeFlowPosition
  dsimp only
  rw [if_neg (by omega), if_neg hf]

/-- What the flow positions of the lanes in `l` leave. -/
structure FlowTaken (l : List (Fin 4)) (s t : State) : Prop where
  rest : t.rest = s.rest
  lanes : ∀ m, t.lane m = if m ∈ l then flowTakenLane s m (s.lane m) else s.lane m
  memory : Amends s t (fun a => ∃ m ∈ l, 63 < s.peek (hdrFlow m.val) 2 ∧ inField (hdrFlow m.val) 2 a) 0#8
  shown : ∀ m ∈ l, 63 < s.peek (hdrFlow m.val) 2 → t.peek (hdrFlow m.val) 2 = 0xFFFF

theorem FlowTaken.nil {s : State} (h : s.mem.wf) : FlowTaken [] s s where
  rest := rfl
  lanes := fun m => by simp
  memory := (Amends.refl h).mono fun _ => False.elim
  shown := fun _ hm => absurd hm (by simp)

/-- One lane's flow position. -/
theorem takeFlowPosition_taken (n : Fin 4) {t : State} (h : t.mem.wf) : FlowTaken [n] t (takeFlowPosition n t) := by
  have hone (m : Fin 4) (hm : m ∈ [n]) : m = n := List.mem_singleton.1 hm
  by_cases hp : t.peek (hdrFlow n.val) 2 ≤ 63
  · refine ⟨takeFlowPosition_rest n t, fun m => ?_, ?_, fun m hm hlt => ?_⟩
    · rw [takeFlowPosition_ring hp]
      by_cases hm : m = n
      · subst hm
        rw [if_pos (by simp), lane_modLane_same, flowTakenLane, if_pos hp, if_pos hp]
      · rw [if_neg (by simpa using hm), lane_modLane_other _ _ hm]
    · rw [takeFlowPosition_ring hp]
      exact ⟨h, rfl, rfl, by simp, fun _ _ => rfl⟩
    · rw [hone m hm] at hlt
      omega
  · have hlanes (m : Fin 4) : t.lane m = if m ∈ [n] then flowTakenLane t m (t.lane m) else t.lane m := by
      split
      · next hm => rw [hone m hm, flowTakenLane, if_neg hp, if_neg hp]
      · rfl
    by_cases hf : t.peek (hdrFlow n.val) 2 = 0xFFFF
    · rw [takeFlowPosition_empty hf]
      exact ⟨rfl, hlanes, (Amends.refl h).mono fun _ => False.elim, fun m hm _ => hone m hm ▸ hf⟩
    · rw [takeFlowPosition_beyond (by omega) hf]
      refine ⟨poke_rest .., fun m => (lane_of_lanes (poke_lanes ..) m).trans (hlanes m),
        ⟨Memory.write_wf h _ _ _, rfl, rfl, by simp, fun a ha => ?_⟩, fun m hm _ => ?_⟩
      · refine Memory.byteAt_write_outside h ?_
        have : ¬inField (hdrFlow n.val) 2 a := fun hin => ha ⟨n, by simp, by omega, hin⟩
        unfold inField at this
        omega
      · rw [hone m hm]
        exact Memory.read_write h _ _ _

theorem flowTakenLane_congr {s t : State} {n m : Fin 4} (hm : m ≠ n) (R : FlowTaken [n] s t) (l : Lane) :
    flowTakenLane t m l = flowTakenLane s m l ∧ t.peek (hdrFlow m.val) 2 = s.peek (hdrFlow m.val) 2 := by
  have hv : m.val ≠ n.val := fun h => hm (Fin.ext h)
  have hn := n.isLt
  have hmlt := m.isLt
  have same (a : Nat) (ha : ¬inField (hdrFlow n.val) 2 a) : t.mem.byteAt a = s.mem.byteAt a :=
    R.memory.bytes a fun ⟨i, hi, _, hin⟩ => ha (List.mem_singleton.1 hi ▸ hin)
  have hpeek : t.peek (hdrFlow m.val) 2 = s.peek (hdrFlow m.val) 2 :=
    Memory.read_congr fun a h1 h2 => same a (by unfold inField hdrFlow at *; omega)
  have hring (p : Nat) : t.peek (flowBase m.val p) 2 = s.peek (flowBase m.val p) 2 :=
    Memory.read_congr fun a h1 h2 => same a (by unfold inField hdrFlow; unfold flowBase at h1; omega)
  exact ⟨by rw [flowTakenLane, flowTakenLane, hpeek, hring], hpeek⟩

theorem FlowTaken.cons {n : Fin 4} {l : List (Fin 4)} (hn : n ∉ l) {s t v : State} (R : FlowTaken [n] s t)
    (S : FlowTaken l t v) : FlowTaken (n :: l) s v := by
  have hother (m : Fin 4) (hm : m ∈ l) : m ≠ n := fun h => hn (h ▸ hm)
  have hlane (m : Fin 4) (hm : m ≠ n) : t.lane m = s.lane m := (R.lanes m).trans (if_neg (by simpa using hm))
  refine ⟨S.rest.trans R.rest, fun m => ?_, (R.memory.trans S.memory).mono fun a ha => ?_, fun m hm hlt => ?_⟩
  · rw [S.lanes]
    by_cases hm : m = n
    · subst hm
      rw [if_neg hn, if_pos (by simp), R.lanes, if_pos (by simp)]
    · rw [hlane m hm, (flowTakenLane_congr hm R _).1]
      simp [hm]
  · rcases ha with ⟨m, hm, hlt, ha⟩ | ⟨m, hm, hlt, ha⟩
    · exact ⟨m, by rw [List.mem_singleton.1 hm]; simp, hlt, ha⟩
    · rw [(flowTakenLane_congr (hother m hm) R (s.lane m)).2] at hlt
      exact ⟨m, List.mem_cons_of_mem _ hm, hlt, ha⟩
  · rcases List.mem_cons.1 hm with rfl | hm
    · rw [← R.shown m (by simp) hlt]
      refine Memory.read_congr fun a h1 h2 => S.memory.bytes a fun ⟨i, hi, _, ha⟩ => ?_
      have hv : i.val ≠ m.val := fun h => hother i hi (Fin.ext h)
      unfold inField hdrFlow at *
      omega
    · exact S.shown m hm (by rw [(flowTakenLane_congr (hother m hm) R (s.lane m)).2]; exact hlt)

theorem foldl_flowTaken (l : List (Fin 4)) (hl : l.Nodup) {s : State} (h : s.mem.wf) :
    FlowTaken l s (l.foldl (fun t n => takeFlowPosition n t) s) := by
  induction l generalizing s with
  | nil => exact .nil h
  | cons n l ih =>
    obtain ⟨hn, hl⟩ := List.nodup_cons.1 hl
    have first := takeFlowPosition_taken n h
    exact first.cons hn (ih hl first.memory.wf)

theorem eachLane_flowTaken {s : State} (h : s.mem.wf) : FlowTaken allFour s (eachLane takeFlowPosition s) :=
  foldl_flowTaken allFour (by decide) h

/-! ### The Lane Blocks written afresh (R194, R195) -/

/-- A run of bytes written afresh, and nothing beside it. -/
structure RunWritten (m w : Memory) (base len : Nat) (bs : List Byte) : Prop where
  wf : w.wf
  run : w.readBytes base len = bs
  bytes : ∀ a, ¬inField base len a → w.byteAt a = m.byteAt a

theorem syncWords_writes {m : Memory} (h : m.wf) (base : Nat) {bs : List Byte} {len : Nat} (hl : bs.length = len)
    (he : len % 2 = 0) : RunWritten m (syncWords [] (wordsFrom base bs) m) base len bs := by
  subst hl
  refine ⟨syncWords_wf h _ _, readBytes_syncWords_fresh h base he, fun a ha => byteAt_syncWords_outside h fun w hw => ?_⟩
  have := wordsFrom_within hw
  unfold inField at ha
  omega

/-- The run stands behind what is written elsewhere. -/
theorem RunWritten.stands {m w v : Memory} {base len : Nat} {bs : List Byte} (R : RunWritten m w base len bs)
    (hv : ∀ a, inField base len a → v.byteAt a = w.byteAt a) : v.readBytes base len = bs :=
  (Memory.readBytes_congr fun a h1 h2 => hv a ⟨h1, h2⟩).trans R.run

/-- A Lane Block that shows a lane and a port, but for the current-window fields. -/
def blockShown (m : Memory) (n : Fin 4) (l : Lane) (p : Port) : Prop :=
  m.readBytes (laneBlockBase n.val) 26 = laneBytes l ∧ m.readBytes (laneBlockBase n.val + 32) 14 = heldBytes l
    ∧ m.readBytes (laneBlockBase n.val + 46) 24 = figureBytes l ∧ m.readBytes (laneBlockBase n.val + 72) 4 = portBytes p
    ∧ m.readBytes (laneBlockBase n.val + 112) 6 = cueBytes l

/-- The bytes of a Lane Block that show a lane and a port, but for the current-window fields. -/
def inBlockShown (n : Fin 4) (a : Nat) : Prop :=
  inField (laneBlockBase n.val) 26 a ∨ inField (laneBlockBase n.val + 32) 14 a ∨ inField (laneBlockBase n.val + 46) 24 a
    ∨ inField (laneBlockBase n.val + 72) 4 a ∨ inField (laneBlockBase n.val + 112) 6 a

theorem blockShown_congr {m m' : Memory} {n : Fin 4} {l : Lane} {p : Port} (h : blockShown m n l p)
    (hm : ∀ a, inBlockShown n a → m'.byteAt a = m.byteAt a) : blockShown m' n l p := by
  obtain ⟨hlane, hheld, hfigure, hport, hcue⟩ := h
  exact ⟨(Memory.readBytes_congr fun a h1 h2 => hm a (.inl ⟨h1, h2⟩)).trans hlane,
    (Memory.readBytes_congr fun a h1 h2 => hm a (.inr (.inl ⟨h1, h2⟩))).trans hheld,
    (Memory.readBytes_congr fun a h1 h2 => hm a (.inr (.inr (.inl ⟨h1, h2⟩)))).trans hfigure,
    (Memory.readBytes_congr fun a h1 h2 => hm a (.inr (.inr (.inr (.inl ⟨h1, h2⟩))))).trans hport,
    (Memory.readBytes_congr fun a h1 h2 => hm a (.inr (.inr (.inr (.inr ⟨h1, h2⟩))))).trans hcue⟩

theorem inBlockShown_mirror {n : Fin 4} {a : Nat} (ha : inBlockShown n a) :
    inLaneMirror n a ∧ ∀ i : Fin 4, ¬inField (laneBlockBase i.val + 80) 22 a := by
  have hn := n.isLt
  unfold inBlockShown inField at ha
  constructor
  · unfold inLaneMirror inField
    omega
  · intro i
    unfold inField laneBlockBase at *
    omega

theorem inBlockShown_apart {n i : Fin 4} (hi : i ≠ n) {a : Nat} (ha : inBlockShown n a) : ¬inBlockShown i a := by
  have hv : i.val ≠ n.val := fun h => hi (Fin.ext h)
  unfold inBlockShown inField laneBlockBase at *
  omega

/-- One Lane Block written afresh. -/
theorem laneImage_written (s : State) (n : Fin 4) {m : Memory} (h : m.wf) :
    (syncWords [] (laneImage s n) m).wf ∧ blockShown (syncWords [] (laneImage s n) m) n (s.lane n) (s.port n)
      ∧ ∀ a, ¬inBlockShown n a → (syncWords [] (laneImage s n) m).byteAt a = m.byteAt a := by
  have lane := syncWords_writes h (laneBlockBase n.val) (length_laneBytes (s.lane n)) (by decide)
  have held := syncWords_writes lane.wf (laneBlockBase n.val + 32) (length_heldBytes (s.lane n)) (by decide)
  have figure := syncWords_writes held.wf (laneBlockBase n.val + 46) (length_figureBytes (s.lane n)) (by decide)
  have port := syncWords_writes figure.wf (laneBlockBase n.val + 72) (length_portBytes (s.port n)) (by decide)
  have cue := syncWords_writes port.wf (laneBlockBase n.val + 112) (length_cueBytes (s.lane n)) (by decide)
  unfold laneImage
  dsimp only
  rw [syncWords_nil_append, syncWords_nil_append, syncWords_nil_append, syncWords_nil_append]
  refine ⟨cue.wf, ⟨lane.stands fun a ha => ?_, held.stands fun a ha => ?_, figure.stands fun a ha => ?_,
    port.stands fun a ha => ?_, cue.run⟩, fun a ha => ?_⟩
  · unfold inField at ha
    rw [cue.bytes a (by unfold inField; omega), port.bytes a (by unfold inField; omega),
      figure.bytes a (by unfold inField; omega), held.bytes a (by unfold inField; omega)]
  · unfold inField at ha
    rw [cue.bytes a (by unfold inField; omega), port.bytes a (by unfold inField; omega),
      figure.bytes a (by unfold inField; omega)]
  · unfold inField at ha
    rw [cue.bytes a (by unfold inField; omega), port.bytes a (by unfold inField; omega)]
  · unfold inField at ha
    rw [cue.bytes a (by unfold inField; omega)]
  · simp only [inBlockShown, not_or] at ha
    obtain ⟨h1, h2, h3, h4, h5⟩ := ha
    rw [cue.bytes a h5, port.bytes a h4, figure.bytes a h3, held.bytes a h2, lane.bytes a h1]

/-- The four Lane Blocks written afresh. -/
theorem writeLaneBlocks_shows {s : State} (h : s.mem.wf) :
    (writeLaneBlocks s).mem.wf ∧ (∀ n, blockShown (writeLaneBlocks s).mem n (s.lane n) (s.port n))
      ∧ ∀ a, (∀ n, ¬inBlockShown n a) → (writeLaneBlocks s).mem.byteAt a = s.mem.byteAt a := by
  obtain ⟨w0, shown0, bytes0⟩ := laneImage_written s 0 h
  obtain ⟨w1, shown1, bytes1⟩ := laneImage_written s 1 w0
  obtain ⟨w2, shown2, bytes2⟩ := laneImage_written s 2 w1
  obtain ⟨w3, shown3, bytes3⟩ := laneImage_written s 3 w2
  unfold writeLaneBlocks
  dsimp only
  generalize syncWords [] (laneImage s 0) s.mem = m0 at *
  generalize syncWords [] (laneImage s 1) m0 = m1 at *
  generalize syncWords [] (laneImage s 2) m1 = m2 at *
  generalize syncWords [] (laneImage s 3) m2 = m3 at *
  have apart {n i : Fin 4} (hi : i ≠ n) {a : Nat} (ha : inBlockShown n a) := inBlockShown_apart hi ha
  refine ⟨w3, fun n => ?_, fun a ha => ?_⟩
  · fin_cases n
    · exact blockShown_congr shown0 fun a ha => by
        rw [bytes3 a (apart (by decide) ha), bytes2 a (apart (by decide) ha), bytes1 a (apart (by decide) ha)]
    · exact blockShown_congr shown1 fun a ha => by
        rw [bytes3 a (apart (by decide) ha), bytes2 a (apart (by decide) ha)]
    · exact blockShown_congr shown2 fun a ha => by rw [bytes3 a (apart (by decide) ha)]
    · exact shown3
  · rw [bytes3 a (ha 3), bytes2 a (ha 2), bytes1 a (ha 1), bytes0 a (ha 0)]

theorem writeLaneBlocks_amends {s : State} (h : s.mem.wf) :
    Amends s (writeLaneBlocks s) (fun a => ∃ n, inBlockShown n a) 0#8 :=
  ⟨(writeLaneBlocks_shows h).1, writeLaneBlocks_ports s, writeLaneBlocks_journal s, by simp,
    fun a ha => (writeLaneBlocks_shows h).2.2 a (not_exists.1 ha)⟩

end Sys2Proof.Machine
end

section
/-! PROOFS. The station enters QUIET, with the edge of EVACUATE where its pin is high (R105, R108, R195). -/

namespace Sys2Proof.Machine

/-! ### The station enters QUIET (R105, R108, R195) -/

/-- The station in QUIET, before an edge of EVACUATE. -/
def quietEntered (f : State) : State := { f with station := .quiet, sweepTimer := 0, startPos := 0 }

/-- The asserting edge of EVACUATE taken. -/
def evacuateTaken (f : State) : State := raise .evacuate { quietEntered f with evacuate := true }

/-- Free flow begun. -/
def freeFlowBegun (f : State) : State := { evacuateTaken f with freeFlow := true }

theorem freeLane_down {n : Fin 4} {s : State} (h : (s.lane n).state = .down) : freeLane n s = s := by
  unfold freeLane
  rw [h]
  exact ite_self s

theorem quietIfIdle_quiet {s : State} (h : s.station = .quiet) : quietIfIdle s = s :=
  if_neg fun hq => absurd (h.symm.trans hq.1) (by decide)

theorem enterQuiet_plain {f : State} (hp : f.evacuatePin = false) : enterQuiet f = quietEntered f := by
  unfold enterQuiet
  exact if_neg (by rw [hp]; decide)

theorem enterQuiet_evacuate {f : State} (hp : f.evacuatePin = true) : enterQuiet f = startFreeFlow true (evacuateTaken f) := by
  unfold enterQuiet
  exact if_pos hp

theorem enterQuiet_free {f : State} (hp : f.evacuatePin = true) (hf : f.freeFlow = true) :
    enterQuiet f = evacuateTaken f := by
  rw [enterQuiet_evacuate hp]
  exact if_pos hf

theorem enterQuiet_starts {f : State} (hp : f.evacuatePin = true) (hf : f.freeFlow = false)
    (hd : ∀ n, (f.lane n).state = .down) :
    enterQuiet f = stationRecord .freeFlowOn true 0 0 (freeFlowBegun f) := by
  have hlane (n : Fin 4) : (stationRecord .freeFlowOn true 0 0 (freeFlowBegun f)).lane n = f.lane n :=
    lane_of_lanes (stationRecord_lanes .freeFlowOn true 0 0 (freeFlowBegun f)) n
  have hstation : (stationRecord .freeFlowOn true 0 0 (freeFlowBegun f)).station = .quiet :=
    stationRecord_station ..
  have hoff : ¬(evacuateTaken f).freeFlow = true := by
    show ¬f.freeFlow = true
    rw [hf]
    decide
  rw [enterQuiet_evacuate hp]
  unfold startFreeFlow
  rw [if_neg hoff, ← freeFlowBegun, eachLane_fixed fun n => freeLane_down (by rw [hlane, hd]),
    quietIfIdle_quiet hstation]

/-- The dropped count in the header follows the Journal Writer's through an append. -/
theorem appendUnpledged_dropped (r : Record) {v : State} (h : v.mem.wf) (hw : v.journal.writeIndex < 1024)
    (hd : v.peek hdrDropped 2 = v.journal.dropped % 65536) :
    (appendUnpledged r v).peek hdrDropped 2 = (appendUnpledged r v).journal.dropped % 65536 := by
  have hring : (ringWrite r v).peek hdrDropped 2 = v.peek hdrDropped 2 := by
    refine Memory.read_congr fun a h1 h2 => ringWrite_keeps r h ?_ ?_
    · unfold inField journalBase
      unfold hdrDropped at h2
      omega
    · unfold inField hdrWriteIndex
      unfold hdrDropped at h1
      omega
  unfold appendUnpledged placeRecord
  split
  · split
    · rw [hring, hd, ringWrite_journal]
    · rw [holdRecord_journal, ← hd, State.peek, holdRecord_mem, State.peek]
  · unfold dropRecord
    split
    · exact Memory.read_write h _ _ _
    · exact hd

/-- What the station asks for as it enters QUIET. -/
def quietAsked (s f : State) : Appended :=
  (evacuateAsks s f).foldl (Appended.ask (thresholdOf s)) ⟨s.journal, [], false, false⟩

section
variable {s f : State} {P : Nat → Prop} {c : BitVec 8} (A : Amends s f P c) (hc : c &&& 6#8 = 0)
  (hP : ∀ a, P a → ¬inField hdrThreshold 2 a) (hpin : f.evacuatePin = s.evacuatePin) (hfree : f.freeFlow = s.freeFlow)
  (hevac : f.evacuate = s.evacuate) (honline : f.online = s.online)
  (hdown : s.evacuatePin = true → s.ok ∧ ∀ n, (f.lane n).state = .down)

theorem quietEntered_amends : Amends s (quietEntered f) P c ↔ Amends s f P c :=
  ⟨fun A => ⟨A.wf, A.ports, A.journal, A.attn, A.bytes⟩, fun A => ⟨A.wf, A.ports, A.journal, A.attn, A.bytes⟩⟩

include hpin hfree hevac hdown in
theorem enterQuiet_rest :
    (enterQuiet f).rest = ({ f with station := .quiet, sweepTimer := 0, startPos := 0
                                    freeFlow := s.freeFlow || s.evacuatePin
                                    evacuate := s.evacuate || s.evacuatePin } : State).rest
      ∧ (enterQuiet f).lanes = f.lanes := by
  cases hp : s.evacuatePin with
  | false =>
    rw [enterQuiet_plain (hpin.trans hp), quietEntered, Bool.or_false, Bool.or_false, ← hfree, ← hevac]
    exact ⟨rfl, rfl⟩
  | true =>
    obtain ⟨-, hstate⟩ := hdown hp
    rw [Bool.or_true, Bool.or_true]
    cases hf : s.freeFlow with
    | true =>
      have hft := hfree.trans hf
      rw [enterQuiet_free (hpin.trans hp) hft, evacuateTaken, raise_rest, raise_lanes, quietEntered, State.rest, State.rest,
        hft]
      exact ⟨rfl, rfl⟩
    | false =>
      rw [enterQuiet_starts (hpin.trans hp) (hfree.trans hf) hstate, stationRecord_rest, stationRecord_lanes,
        freeFlowBegun, evacuateTaken, raise, quietEntered, State.rest, State.rest]
      exact ⟨rfl, rfl⟩

include A hc hP hpin hfree honline hdown

theorem enterQuiet_reached :
    Reached s (enterQuiet f) (fun a => P a ∨ s.evacuatePin = true ∧ inAppend s a)
      (c ||| if s.evacuatePin then 0x80#8 else 0#8) (quietAsked s f) := by
  cases hp : s.evacuatePin with
  | false =>
    have hasks : quietAsked s f = ⟨s.journal, [], false, false⟩ := by
      rw [quietAsked, evacuateAsks, hp, if_neg (fun h => absurd h.1 (by decide))]
      rfl
    rw [enterQuiet_plain (hpin.trans hp), hasks, if_neg (by decide), BitVec.or_zero]
    exact ((quietEntered_amends.2 A).reached hc).mono fun a ha => .inl ha
  | true =>
    obtain ⟨hok, hstate⟩ := hdown hp
    have entered : Amends s { quietEntered f with evacuate := true } P c := ⟨A.wf, A.ports, A.journal, A.attn, A.bytes⟩
    have taken : Amends s (evacuateTaken f) P (c ||| 0x80#8) := by
      refine (entered.trans (raised_amends (.refl entered.wf) .evacuate)).mono fun a ha => ha.elim id False.elim
    have hbits : (c ||| 0x80#8) &&& 6#8 = 0 := by
      rw [or_and_bits, hc]
      decide
    rw [if_pos rfl]
    cases hf : s.freeFlow with
    | true =>
      have hasks : quietAsked s f = ⟨s.journal, [], false, false⟩ := by
        rw [quietAsked, evacuateAsks, hf, if_neg (fun h => absurd h.2 (by decide))]
        rfl
      rw [enterQuiet_free (hpin.trans hp) (hfree.trans hf), hasks]
      exact (taken.reached hbits).mono fun a ha => .inl ha
    | false =>
      have begun : Amends s (freeFlowBegun f) P (c ||| 0x80#8) :=
        ⟨taken.wf, taken.ports, taken.journal, taken.attn, taken.bytes⟩
      have hrecord : mkRecord (freeFlowBegun f) none [] none (.station .freeFlowOn (freeFlowBegun f).online true 0 0) =
          ⟨none, f.day, f.ms, [], none, .station .freeFlowOn s.online true 0 0⟩ := by
        rw [← honline]
        rfl
      have hasks : quietAsked s f = Appended.ask (thresholdOf s) ⟨s.journal, [], false, false⟩
          (false, ⟨none, f.day, f.ms, [], none, .station .freeFlowOn s.online true 0 0⟩) := by
        rw [quietAsked, evacuateAsks, if_pos ⟨hp, hf⟩]
        rfl
      rw [enterQuiet_starts (hpin.trans hp) (hfree.trans hf) hstate, hasks, stationRecord, hrecord]
      refine ((begun.reached hbits).ask (Appended.fresh_nil _) ⟨hok.2.1, hok.2.2⟩ hP _).mono fun a ha => ?_
      exact ha.imp_right fun hin => ⟨rfl, (inAppend_left begun.journal a).1 hin⟩

omit hc hP honline in
/-- The dropped count in the header is the Journal Writer's. -/
theorem enterQuiet_dropped (hd : f.peek hdrDropped 2 = f.journal.dropped % 65536) :
    (enterQuiet f).peek hdrDropped 2 = (enterQuiet f).journal.dropped % 65536 := by
  cases hp : s.evacuatePin with
  | false =>
    rw [enterQuiet_plain (hpin.trans hp)]
    exact hd
  | true =>
    obtain ⟨hok, hstate⟩ := hdown hp
    cases hf : s.freeFlow with
    | true =>
      rw [enterQuiet_free (hpin.trans hp) (hfree.trans hf)]
      exact hd
    | false =>
      rw [enterQuiet_starts (hpin.trans hp) (hfree.trans hf) hstate]
      refine appendUnpledged_dropped _ A.wf ?_ hd
      show f.journal.writeIndex < 1024
      rw [A.journal]
      exact hok.2.1

end

end Sys2Proof.Machine
end

section
/-! PROOFS. What the end of the restart scan leaves before the station enters QUIET (R195). -/

namespace Sys2Proof.Machine

/-! ### What the end of the restart scan leaves before the station enters QUIET (R195) -/

/-- Steps 1 and 2 done. -/
def visitsDone (s : State) : State := { scanned s with startPos := scanVisits }

/-- The header written. -/
def headerDone (straps : BitVec 6) (s : State) : State := headerWritten (liftOf straps) (visitsDone s)

/-- Station time taken. -/
def timeDone (straps : BitVec 6) (s : State) : State := takeMirrorTime (headerDone straps s)

/-- The flow positions taken. -/
def flowDone (straps : BitVec 6) (s : State) : State := eachLane takeFlowPosition (timeDone straps s)

theorem finishScan_eq (straps : BitVec 6) (s : State) : finishScan straps s = writeLaneBlocks (flowDone straps s) := by
  unfold finishScan
  rw [scanTo_end]
  rfl

theorem liftOf_lt (straps : BitVec 6) : liftOf straps < 65536 := by
  unfold liftOf
  split <;> omega

/-- What the end of the scan writes before the station enters QUIET. -/
def inScanWrites (s : State) (a : Nat) : Prop :=
  (((inScanned s a ∨ inHeaderWritten a) ∨ ¬mirrorHolds s ∧ inField hdrMs 6 a) ∨ inFlowEmptied s a)
    ∨ ∃ n, inBlockShown n a

section
variable {s : State} {straps : BitVec 6} {c : BitVec 8} (S : ScanEnded s (scanned s) c)

theorem inScanned_region {a : Nat} (ha : inScanned s a) : (0x100 ≤ a ∧ a < 0x1100) ∨ 0xE200 ≤ a := by
  rcases ha with ⟨slot, -, -, -, ha⟩ | ⟨k, -, -, ha⟩
  · unfold passBase at ha
    omega
  · have := k.isLt
    unfold inOrderEnd inField orderBase at ha
    omega

theorem inHeaderWritten_region {a : Nat} (ha : inHeaderWritten a) :
    a < 6 ∨ (16 ≤ a ∧ a < 18) ∨ (26 ≤ a ∧ a < 38) := by
  unfold inHeaderWritten inField hdrDropped hdrTaken at ha
  omega

theorem inBlockShown_region {a : Nat} (ha : ∃ n, inBlockShown n a) : 0x1100 ≤ a ∧ a < 0x1500 := by
  obtain ⟨n, ha⟩ := ha
  have := n.isLt
  unfold inBlockShown inField laneBlockBase at ha
  omega

include S

theorem visitsDone_amends : Amends s (visitsDone s) (inScanned s) c :=
  ⟨S.amends.wf, S.amends.ports, S.amends.journal, S.amends.attn, S.amends.bytes⟩

theorem visitsDone_rest : (visitsDone s).rest = ({ s with startPos := scanVisits } : State).rest :=
  congrArg (fun v : State => { v with startPos := scanVisits }) S.rest

theorem headerDone_amends : Amends (visitsDone s) (headerDone straps s) inHeaderWritten 0#8 :=
  headerWritten_amends _ (visitsDone_amends S).wf

theorem headerDone_rest :
    (headerDone straps s).rest = ({ s with startPos := scanVisits, liftNumber := liftOf straps } : State).rest :=
  (headerWritten_rest (liftOf straps) (visitsDone s)).trans
    (congrArg (fun v : State => { v with liftNumber := liftOf straps }) (visitsDone_rest S))

/-- The time mirror, the flow positions and the rings stand until the header is written. -/
theorem byteAt_headerDone {a : Nat} (h1 : 6 ≤ a) (h2 : a < 16 ∨ (18 ≤ a ∧ a < 26) ∨ (38 ≤ a ∧ a < 0x100)
    ∨ (0x1100 ≤ a ∧ a < 0xE200)) : (headerDone straps s).mem.byteAt a = s.mem.byteAt a := by
  refine ((headerDone_amends S).bytes a fun ha => ?_).trans ((visitsDone_amends S).bytes a fun ha => ?_)
  · have := inHeaderWritten_region ha
    omega
  · have := inScanned_region ha
    omega

theorem headerDone_mirror :
    (headerDone straps s).peek hdrDay 2 = s.peek hdrDay 2 ∧ (headerDone straps s).peek hdrMs 4 = s.peek hdrMs 4
      ∧ (mirrorHolds (headerDone straps s) ↔ mirrorHolds s) :=
  mirrorHolds_congr fun _ h1 h2 => byteAt_headerDone S (by omega) (by omega)

theorem timeDone_amends :
    Amends (headerDone straps s) (timeDone straps s) (fun a => ¬mirrorHolds s ∧ inField hdrMs 6 a) 0#8 :=
  (takeMirrorTime_amends (headerDone_amends S).wf).mono fun _ ha => ⟨fun h => ha.1 ((headerDone_mirror S).2.2.2 h), ha.2⟩

/-- The flow positions of the header and the rings stand until they are taken. -/
theorem byteAt_timeDone {a : Nat} (h1 : 18 ≤ a) (h2 : a < 26 ∨ (0x1100 ≤ a ∧ a < 0xE200)) :
    (timeDone straps s).mem.byteAt a = s.mem.byteAt a := by
  refine ((timeDone_amends S).bytes a fun ha => ?_).trans (byteAt_headerDone S (by omega) (by omega))
  have := ha.2
  unfold inField hdrMs at this
  omega

theorem timeDone_flow (n : Fin 4) :
    (timeDone straps s).peek (hdrFlow n.val) 2 = s.peek (hdrFlow n.val) 2
      ∧ ∀ p ≤ 63, (timeDone straps s).peek (flowBase n.val p) 2 = s.peek (flowBase n.val p) 2 := by
  have hn := n.isLt
  exact ⟨Memory.read_congr fun a h1 h2 => byteAt_timeDone S (by unfold hdrFlow at h1; omega) (by unfold hdrFlow at h2; omega),
    fun p hp => Memory.read_congr fun a h1 h2 => byteAt_timeDone S (by unfold flowBase at h1; omega)
      (by unfold flowBase at h1 h2; omega)⟩

theorem flowDone_taken : FlowTaken allFour (timeDone straps s) (flowDone straps s) :=
  eachLane_flowTaken (timeDone_amends S).wf

theorem flowDone_amends : Amends (timeDone straps s) (flowDone straps s) (inFlowEmptied s) 0#8 :=
  (flowDone_taken S).memory.mono fun _ ⟨n, _, hlt, ha⟩ => ⟨n, (timeDone_flow (straps := straps) S n).1 ▸ hlt, ha⟩

theorem timeDone_lane (n : Fin 4) : (timeDone straps s).lane n = s.lane n := by
  refine lane_of_lanes ?_ n
  unfold timeDone headerDone
  rw [takeMirrorTime_lanes, headerWritten_lanes]
  exact S.lanes

theorem flowDone_lane (n : Fin 4) : (flowDone straps s).lane n = flowTakenLane s n (s.lane n) := by
  obtain ⟨hpeek, hring⟩ := timeDone_flow (straps := straps) S n
  rw [(flowDone_taken S).lanes, if_pos (mem_allFour n), timeDone_lane S, flowTakenLane, flowTakenLane, hpeek]
  by_cases hp : s.peek (hdrFlow n.val) 2 ≤ 63
  · simp only [if_pos hp, hring _ hp]
  · simp only [if_neg hp]

theorem finishScan_amends_flow :
    Amends (flowDone straps s) (finishScan straps s) (fun a => ∃ n, inBlockShown n a) 0#8 := by
  rw [finishScan_eq]
  exact writeLaneBlocks_amends (flowDone_amends S).wf

theorem finishScan_amends : Amends s (finishScan straps s) (inScanWrites s) c := by
  have all := ((((visitsDone_amends S).trans (headerDone_amends (straps := straps) S)).trans (timeDone_amends S)).trans
    (flowDone_amends S)).trans (finishScan_amends_flow S)
  simp only [BitVec.or_zero] at all
  exact all

theorem finishScan_lane (n : Fin 4) : (finishScan straps s).lane n = flowTakenLane s n (s.lane n) := by
  rw [finishScan_eq, lane_of_lanes (writeLaneBlocks_lanes _), flowDone_lane S]

theorem timeDone_rest :
    (timeDone straps s).rest =
      ({ s with startPos := scanVisits, liftNumber := liftOf straps, day := (timeDone straps s).day
                ms := (timeDone straps s).ms } : State).rest := by
  have taken := takeMirrorTime_rest (headerDone straps s)
  rw [← timeDone] at taken
  have headed := headerDone_rest (straps := straps) S
  generalize (timeDone straps s).day = d, (timeDone straps s).ms = m at taken
  generalize headerDone straps s = u at taken headed
  exact taken.trans (congrArg (fun v : State => { v with day := d, ms := m }) headed)

theorem finishScan_rest_time : (finishScan straps s).rest = (timeDone straps s).rest := by
  rw [finishScan_eq, writeLaneBlocks_rest, (flowDone_taken S).rest]

theorem finishScan_rest :
    (finishScan straps s).rest =
      ({ s with startPos := scanVisits, liftNumber := liftOf straps, day := (finishScan straps s).day
                ms := (finishScan straps s).ms } : State).rest := by
  have hflow := finishScan_rest_time (straps := straps) S
  rw [day_of_rest hflow, ms_of_rest hflow]
  exact hflow.trans (timeDone_rest S)

end

end Sys2Proof.Machine
end

section
/-! PROOFS. What the header, the orders and the Lane Blocks show there, and the end of the event (R31, R126, R185). -/

namespace Sys2Proof.Machine

/-! ### What the header, the orders and the markers show at the end of the scan -/

section
variable {s : State} {straps : BitVec 6} {c : BitVec 8} (S : ScanEnded s (scanned s) c)
include S

omit S in
theorem inFlowEmptied_or_block {a : Nat} (ha : inFlowEmptied s a ∨ ∃ n, inBlockShown n a) :
    (18 ≤ a ∧ a < 26) ∨ (0x1100 ≤ a ∧ a < 0x1500) :=
  ha.imp inFlowEmptied_region inBlockShown_region

/-- Behind station time only the flow positions and the Lane Blocks are written. -/
theorem finishScan_amends_time :
    Amends (timeDone straps s) (finishScan straps s) (fun a => inFlowEmptied s a ∨ ∃ n, inBlockShown n a) 0#8 :=
  (flowDone_amends S).trans (finishScan_amends_flow S)

theorem finishScan_amends_header :
    Amends (headerDone straps s) (finishScan straps s)
      (fun a => (8 ≤ a ∧ a < 14) ∨ (18 ≤ a ∧ a < 26) ∨ (0x1100 ≤ a ∧ a < 0x1500)) 0#8 :=
  ((timeDone_amends S).trans (finishScan_amends_time S)).mono fun a ha => by
    rcases ha with ⟨-, ha⟩ | ha
    · unfold inField hdrMs at ha
      omega
    · exact .inr (inFlowEmptied_or_block ha)

theorem finishScan_amends_visits :
    Amends (visitsDone s) (finishScan straps s) (fun a => a < 38 ∨ (0x1100 ≤ a ∧ a < 0x1500)) 0#8 :=
  ((headerDone_amends S).trans (finishScan_amends_header S)).mono fun a ha => by
    rcases ha with ha | ha
    · have := inHeaderWritten_region ha
      omega
    · omega

theorem finishScan_header :
    headerShown (liftOf straps) s.options (finishScan straps s).mem
      ∧ (finishScan straps s).peek hdrDropped 2 = (finishScan straps s).journal.dropped % 65536 := by
  obtain ⟨hshown, hdropped⟩ := headerWritten_shows (liftOf straps) (visitsDone_amends S).wf (liftOf_lt straps)
  have hoptions : (visitsDone s).options = s.options := (options_of_rest (visitsDone_rest S)).trans rfl
  have A := finishScan_amends_header (straps := straps) S
  rw [hoptions] at hshown
  refine ⟨headerShown_congr _ hshown fun a ha => A.bytes a fun hin => ?_, ?_⟩
  · unfold inField hdrTaken at ha
    omega
  · rw [(finishScan_amends S).journal, ← (visitsDone_amends S).journal, ← hdropped]
    exact Memory.read_congr fun a h1 h2 => A.bytes a fun hin => by
      unfold hdrDropped at h1 h2
      omega

theorem finishScan_order (k : Fin 32) (hlo : s.startPos ≤ 6144 + k.val) (ht : orderState s k = 2) :
    orderState (finishScan straps s) k = 4 ∧ (finishScan straps s).peek (orderBase k.val + 3) 1 = 23 := by
  obtain ⟨hstate, hcode⟩ := S.orders k hlo ht
  have hk := k.isLt
  have same (off n : Nat) (ho : off + n ≤ 128) :
      (finishScan straps s).peek (orderBase k.val + off) n = (scanned s).peek (orderBase k.val + off) n :=
    Memory.read_congr fun a h1 h2 => (finishScan_amends_visits S).bytes a fun hin => by
      unfold orderBase at h1 h2
      omega
  exact ⟨(same 0 2 (by omega)).trans hstate, (same 3 1 (by omega)).trans hcode⟩

theorem finishScan_marker {slot : Nat} (hslot : slot < 6144) (hlo : s.startPos ≤ slot)
    (hlive : slotStateOf s.mem slot = 1) : (finishScan straps s).peek (passBase slot + 31) 1 = 0xFF := by
  rw [← S.markers slot hslot hlo hlive]
  exact Memory.read_congr fun a h1 h2 => (finishScan_amends_visits S).bytes a fun hin => by
    unfold passBase at h1
    omega

theorem finishScan_time_holds (hm : mirrorHolds s) :
    (finishScan straps s).day = s.peek hdrDay 2 ∧ (finishScan straps s).ms = s.peek hdrMs 4 := by
  obtain ⟨hday, hms, hmirror⟩ := headerDone_mirror (straps := straps) S
  have hrest := finishScan_rest_time (straps := straps) S
  rw [day_of_rest hrest, ms_of_rest hrest, timeDone, takeMirrorTime_holds (hmirror.2 hm)]
  exact ⟨hday, hms⟩

theorem finishScan_time_empty (hm : ¬mirrorHolds s) :
    (finishScan straps s).day = 0 ∧ (finishScan straps s).ms = 0 ∧ (finishScan straps s).peek hdrDay 2 = 0
      ∧ (finishScan straps s).peek hdrMs 4 = 0 := by
  have hmirror := (headerDone_mirror (straps := straps) S).2.2
  have hrest := finishScan_rest_time (straps := straps) S
  obtain ⟨hday, hms, hpday, hpms⟩ :=
    takeMirrorTime_zero (headerDone_amends (straps := straps) S).wf fun h => hm (hmirror.1 h)
  rw [← timeDone] at hday hms hpday hpms
  have same (a : Nat) (h : a < 14) : (finishScan straps s).mem.byteAt a = (timeDone straps s).mem.byteAt a :=
    (finishScan_amends_time S).bytes a fun hin => by
      have := inFlowEmptied_or_block hin
      omega
  exact ⟨(day_of_rest hrest).trans hday, (ms_of_rest hrest).trans hms,
    (Memory.read_congr fun a h1 h2 => same a (by unfold hdrDay at h2; omega)).trans hpday,
    (Memory.read_congr fun a h1 h2 => same a (by unfold hdrMs at h2; omega)).trans hpms⟩

theorem finishScan_flow (n : Fin 4) (hlt : 63 < s.peek (hdrFlow n.val) 2) :
    (finishScan straps s).peek (hdrFlow n.val) 2 = 0xFFFF := by
  have hn := n.isLt
  rw [← (flowDone_taken (straps := straps) S).shown n (mem_allFour n)
    (by rw [(timeDone_flow (straps := straps) S n).1]; exact hlt)]
  exact Memory.read_congr fun a h1 h2 => (finishScan_amends_flow S).bytes a fun hin => by
    have := inBlockShown_region hin
    unfold hdrFlow at h2
    omega

theorem finishScan_block (n : Fin 4) :
    blockShown (finishScan straps s).mem n ((finishScan straps s).lane n) ((finishScan straps s).port n) := by
  have hblock := (writeLaneBlocks_shows (flowDone_amends (straps := straps) S).wf).2.1 n
  have hport : (finishScan straps s).port n = (flowDone straps s).port n := by
    rw [State.port, State.port, finishScan_eq, writeLaneBlocks_ports]
  rw [hport, finishScan_eq, lane_of_lanes (writeLaneBlocks_lanes _)]
  exact hblock

end

/-! ### The end of the event -/

theorem stateMirror_lt (s : State) : stateMirror s < 16 := by
  have hbit (i : Nat) (b : Bool) : bit i b ≤ 2 ^ i := by cases b <;> simp [bit]
  have h2 := hbit 2 s.online
  have h3 := hbit 3 s.freeFlow
  have hcode : s.station.code ≤ 3 := by cases s.station <;> decide
  unfold stateMirror
  omega

/-- A station that leaves STARTING shows another state. -/
theorem stateMirror_starting {s q : State} (hs : s.station = .starting) (hq : q.station = .quiet) :
    stateMirror s ≠ stateMirror q := by
  have h4 (b : Bool) : bit 2 b % 4 = 0 := by cases b <;> decide
  have h8 (b : Bool) : bit 3 b % 4 = 0 := by cases b <;> decide
  have hmod (v : State) : stateMirror v % 4 = v.station.code % 4 := by
    have := h4 v.online
    have := h8 v.freeFlow
    unfold stateMirror
    omega
  intro heq
  have hcode := (hmod s).symm.trans ((congrArg (· % 4) heq).trans (hmod q))
  rw [hs, hq] at hcode
  exact absurd hcode (by decide)

theorem settleOutputs_state {s q : State} (h : q.mem.wf) (hne : stateMirror s ≠ stateMirror q) :
    (settleOutputs s q).peek hdrState 2 = stateMirror q := by
  have hlt := stateMirror_lt q
  have w := Memory.write_wf h hdrState 2 (stateMirror q)
  refine Eq.trans (Memory.read_congr fun a h1 h2 => ?_) ((Memory.read_write h hdrState 2 (stateMirror q)).trans (by omega))
  have hout (n : Fin 4) : ¬inLaneMirror n a := fun hin => by
    have := inLaneMirror_region hin
    unfold hdrState at h2
    omega
  rw [settleOutputs_mem, if_neg hne,
    byteAt_syncLane_outside _ _ _ (syncLane_wf _ _ _ (syncLane_wf _ _ _ (syncLane_wf _ _ _ w))) (hout 3),
    byteAt_syncLane_outside _ _ _ (syncLane_wf _ _ _ (syncLane_wf _ _ _ w)) (hout 2),
    byteAt_syncLane_outside _ _ _ (syncLane_wf _ _ _ w) (hout 1), byteAt_syncLane_outside _ _ _ w (hout 0)]

/-- The lock pulse of a lane as every lock is released. -/
theorem drivePulse_released {s q : State} {n : Fin 4} (hq : lockReleased q n = true)
    (hd : (q.lane n).config = (s.lane n).config) (hl : (q.lane n).lockPulse = (s.lane n).lockPulse) (hnow : q.now = s.now) :
    drivePulse s q n = { q.lane n with lockPulse := pulseReleased s n } := by
  unfold pulseReleased
  cases hs : lockReleased s n with
  | true =>
    rw [if_pos rfl, ← hl]
    exact drivePulse_same (hs.trans hq.symm)
  | false =>
    rw [if_neg (by decide), ← hd, ← hnow]
    unfold drivePulse
    rw [hs, hq]
    dsimp only
    cases (q.lane n).config.drive <;> rfl

end Sys2Proof.Machine
end

section
/-! PROOFS. The event of RESTART_SCAN_DONE: its state, lanes and memory (R105, R108, R195). -/

namespace Sys2Proof.Machine

/-! ### RESTART_SCAN_DONE (R31, R105, R108, R126, R189, R195, R199) -/

/-- The station in QUIET behind the restart scan. -/
def scanQuiet (straps : BitVec 6) (s : State) : State := enterQuiet (finishScan straps s)

/-- The state that the event ends with. -/
def scanDone (straps : BitVec 6) (s : State) : State := settleOutputs s (scanQuiet straps s)

theorem restartScanDone_runs {s : State} (straps : BitVec 6) (hs : s.station = .starting) (hp : s.startPhase = .scan) :
    exec (.restartScanDone straps) s = .next (scanDone straps s) := by
  show execRestartScanDone straps s = _
  unfold execRestartScanDone
  rw [if_pos ⟨hs, hp⟩]
  rfl

theorem flowTakenLane_state (s : State) (n : Fin 4) (l : Lane) :
    (flowTakenLane s n l).state = l.state ∧ (flowTakenLane s n l).window = l.window
      ∧ (flowTakenLane s n l).config = l.config ∧ (flowTakenLane s n l).lockPulse = l.lockPulse
      ∧ sameButWindow l (flowTakenLane s n l) := ⟨rfl, rfl, rfl, rfl, rfl⟩

section
variable {s : State} {straps : BitVec 6} {c : BitVec 8} (S : ScanEnded s (scanned s) c) (hc : c &&& 6#8 = 0)
  (hdown : s.evacuatePin = true → s.ok ∧ ∀ n, (s.lane n).state = .down)
include S

theorem finishScan_down (hdown : s.evacuatePin = true → s.ok ∧ ∀ n, (s.lane n).state = .down) :
    s.evacuatePin = true → s.ok ∧ ∀ n, ((finishScan straps s).lane n).state = .down := fun hp => by
  obtain ⟨hok, hstate⟩ := hdown hp
  refine ⟨hok, fun n => ?_⟩
  rw [finishScan_lane S]
  exact hstate n

theorem finishScan_flags :
    (finishScan straps s).evacuatePin = s.evacuatePin ∧ (finishScan straps s).freeFlow = s.freeFlow
      ∧ (finishScan straps s).evacuate = s.evacuate ∧ (finishScan straps s).online = s.online
      ∧ (finishScan straps s).now = s.now := by
  have hrest := finishScan_rest (straps := straps) S
  have heq := eq_of_rest hrest
  refine ⟨?_, (freeFlow_of_rest hrest).trans rfl, (evacuate_of_rest hrest).trans rfl, (online_of_rest hrest).trans rfl,
    (now_of_rest hrest).trans rfl⟩
  rw [heq]

include hdown

theorem scanQuiet_rest :
    (scanQuiet straps s).rest =
        ({ s with station := .quiet, sweepTimer := 0, startPos := 0, liftNumber := liftOf straps
                  day := (finishScan straps s).day, ms := (finishScan straps s).ms
                  freeFlow := s.freeFlow || s.evacuatePin, evacuate := s.evacuate || s.evacuatePin } : State).rest
      ∧ (scanQuiet straps s).lanes = (finishScan straps s).lanes := by
  obtain ⟨hpin, hfree, hevac, -, -⟩ := finishScan_flags (straps := straps) S
  obtain ⟨hrest, hlanes⟩ := enterQuiet_rest hpin hfree hevac (finishScan_down S hdown)
  refine ⟨?_, hlanes⟩
  have finished := finishScan_rest (straps := straps) S
  unfold scanQuiet
  rw [hrest]
  generalize finishScan straps s = f at finished ⊢
  exact congrArg (fun v : State => { v with
    station := .quiet, sweepTimer := 0, startPos := 0, freeFlow := s.freeFlow || s.evacuatePin
    evacuate := s.evacuate || s.evacuatePin }) finished

theorem scanQuiet_lane (n : Fin 4) : (scanQuiet straps s).lane n = flowTakenLane s n (s.lane n) :=
  (lane_of_lanes (scanQuiet_rest S hdown).2 n).trans (finishScan_lane S n)

include hc in
theorem scanQuiet_reached :
    Reached s (scanQuiet straps s) (fun a => inScanWrites s a ∨ s.evacuatePin = true ∧ inAppend s a)
      (c ||| if s.evacuatePin then 0x80#8 else 0#8) (quietAsked s (finishScan straps s)) := by
  obtain ⟨hpin, hfree, hevac, honline, -⟩ := finishScan_flags (straps := straps) S
  refine enterQuiet_reached (finishScan_amends S) hc (fun a ha => ?_) hpin hfree honline (finishScan_down S hdown)
  unfold inField hdrThreshold
  rcases ha with (((ha | ha) | ha) | ha) | ha
  · have := inScanned_region ha
    omega
  · have := inHeaderWritten_region ha
    omega
  · have := ha.2
    unfold inField hdrMs at this
    omega
  · have := inFlowEmptied_region ha
    omega
  · have := inBlockShown_region ha
    omega

/-- From the end of the scan on, only the record of free flow. -/
theorem byteAt_scanQuiet {a : Nat} (ha : ¬(s.evacuatePin = true ∧ inAppend s a)) :
    (scanQuiet straps s).mem.byteAt a = (finishScan straps s).mem.byteAt a := by
  have A := finishScan_amends (straps := straps) S
  have down := finishScan_down (straps := straps) S hdown
  have hpin := (finishScan_flags (straps := straps) S).1
  unfold scanQuiet
  generalize finishScan straps s = f at A down hpin ⊢
  have hown : f.evacuatePin = true → f.ok ∧ ∀ n, (f.lane n).state = .down := fun hp => by
    obtain ⟨⟨-, hwrite, hread⟩, hstate⟩ := down (hpin.symm.trans hp)
    exact ⟨⟨A.wf, by rw [A.journal]; exact hwrite, by rw [A.journal]; exact hread⟩, hstate⟩
  have entered := enterQuiet_reached (.refl A.wf) (by decide) (fun _ => False.elim) rfl rfl rfl hown
  refine entered.bytes a fun hin => ha ?_
  rcases hin with hin | ⟨hp, hin⟩
  · exact hin.elim
  · exact ⟨hpin.symm.trans hp, (inAppend_left A.journal a).1 hin⟩

include hc in
theorem scanDone_amends (hs : s.station = .starting) :
    Amends (scanQuiet straps s) (scanDone straps s) (inField hdrState 2) 0#8
      ∧ (scanDone straps s).peek hdrState 2 = stateMirror (scanDone straps s) := by
  have reached := scanQuiet_reached (straps := straps) S hc hdown
  have hquiet : (scanQuiet straps s).station = .quiet := (station_of_rest (scanQuiet_rest S hdown).1).trans rfl
  have hsame (n : Fin 4) : sameButWindow (s.lane n) ((scanQuiet straps s).lane n) := by
    rw [scanQuiet_lane S hdown]
    exact (flowTakenLane_state ..).2.2.2.2
  refine ⟨(settleOutputs_shows reached.wf hsame reached.ports).mono fun a ha => ?_, ?_⟩
  · rcases ha with ha | ⟨n, hn, -⟩
    · exact ha.2
    · rw [scanQuiet_lane S hdown] at hn
      exact absurd rfl hn
  · refine (settleOutputs_state reached.wf (stateMirror_starting hs hquiet)).trans ?_
    exact (stateMirror_of_rest (settleOutputs_rest ..)).symm

include hc in
theorem scanDone_reached (hs : s.station = .starting) :
    Reached s (scanDone straps s)
      (fun a => (inScanWrites s a ∨ s.evacuatePin = true ∧ inAppend s a) ∨ inField hdrState 2 a)
      (c ||| if s.evacuatePin then 0x80#8 else 0#8) (quietAsked s (finishScan straps s)) := by
  have reached := (scanQuiet_reached (straps := straps) S hc hdown).amend (scanDone_amends S hc hdown hs).1 (by decide)
    fun a ha => by
      unfold inField hdrState at ha
      unfold inWriter
      omega
  rwa [BitVec.or_zero] at reached

include hc in
/-- What the scan's end shows stands at the end of the event, but for the state mirror and the record of free flow. -/
theorem byteAt_scanDone (hs : s.station = .starting) {a : Nat} (h1 : a < 6 ∨ (8 ≤ a ∧ a < 14) ∨ (18 ≤ a ∧ a < 0x6200)
    ∨ 0xE200 ≤ a) : (scanDone straps s).mem.byteAt a = (finishScan straps s).mem.byteAt a := by
  refine ((scanDone_amends S hc hdown hs).1.bytes a fun ha => ?_).trans (byteAt_scanQuiet S hdown fun ⟨hp, ha⟩ => ?_)
  · unfold inField hdrState at ha
    omega
  · have := inAppend_region (hdown hp).1.2.1 ha
    omega

theorem scanDone_rest :
    (scanDone straps s).rest =
      ({ s with station := .quiet, sweepTimer := 0, startPos := 0, liftNumber := liftOf straps
                day := (scanDone straps s).day, ms := (scanDone straps s).ms
                freeFlow := s.freeFlow || s.evacuatePin, evacuate := s.evacuate || s.evacuatePin } : State).rest
      ∧ (scanDone straps s).day = (finishScan straps s).day ∧ (scanDone straps s).ms = (finishScan straps s).ms := by
  have hrest := (settleOutputs_rest s (scanQuiet straps s)).trans (scanQuiet_rest S hdown).1
  rw [← scanDone] at hrest
  have hday : (scanDone straps s).day = (finishScan straps s).day := by rw [day_of_rest hrest]
  have hms : (scanDone straps s).ms = (finishScan straps s).ms := by rw [ms_of_rest hrest]
  refine ⟨?_, hday, hms⟩
  rw [hday, hms]
  exact hrest

theorem scanDone_lane (n : Fin 4) :
    (scanDone straps s).lane n = { flowTakenLane s n (s.lane n) with
      lockPulse := if s.evacuatePin then pulseReleased s n else (s.lane n).lockPulse } := by
  obtain ⟨hstate, -, hconfig, hpulse, -⟩ := flowTakenLane_state s n (s.lane n)
  have hlane := scanQuiet_lane (straps := straps) S hdown n
  have hrest := (scanQuiet_rest (straps := straps) S hdown).1
  have hevac : (scanQuiet straps s).evacuate = (s.evacuate || s.evacuatePin) := (evacuate_of_rest hrest).trans rfl
  rw [scanDone, settleOutputs_lane]
  cases hp : s.evacuatePin with
  | false =>
    rw [hp, Bool.or_false] at hevac
    rw [drivePulse_same (by rw [lockReleased, lockReleased, hevac, hlane, hstate]), hlane, if_neg (by decide)]
    rfl
  | true =>
    rw [hp, Bool.or_true] at hevac
    have hnow : (scanQuiet straps s).now = s.now := by rw [now_of_rest hrest]
    rw [drivePulse_released (s := s) (by rw [lockReleased, hevac, Bool.true_or]) (by rw [hlane, hconfig]) (by rw [hlane, hpulse])
      hnow, hlane, if_pos rfl]

end

end Sys2Proof.Machine
end

section
/-! PROOFS. RESTART_SCAN_DONE (R31, R105, R108, R126, R189, R195, R199). -/

namespace Sys2Proof.Machine

/-! ### RESTART_SCAN_DONE as a whole -/

section
variable {s : State} {straps : BitVec 6} {c : BitVec 8} (S : ScanEnded s (scanned s) c) (hc : c &&& 6#8 = 0)
  (hdown : s.evacuatePin = true → s.ok ∧ ∀ n, (s.lane n).state = .down) (hs : s.station = .starting)
include S hc hdown hs

theorem scanDone_eq :
    scanDone straps s = { s with
      mem := (scanDone straps s).mem, attn := (scanDone straps s).attn, lanes := (scanDone straps s).lanes
      journal := (scanDone straps s).journal, station := .quiet, sweepTimer := 0, startPos := 0
      liftNumber := liftOf straps, day := (scanDone straps s).day, ms := (scanDone straps s).ms
      freeFlow := s.freeFlow || s.evacuatePin, evacuate := s.evacuate || s.evacuatePin } := by
  have hrest := (scanDone_rest (straps := straps) S hdown).1
  have hports := (scanDone_reached (straps := straps) S hc hdown hs).ports
  generalize scanDone straps s = t at hrest hports ⊢
  have heq := eq_of_rest hrest
  rw [hports] at heq
  exact heq

theorem scanDone_peek {a n : Nat} (h : a + n ≤ 6 ∨ (8 ≤ a ∧ a + n ≤ 14) ∨ (18 ≤ a ∧ a + n ≤ 0x6200) ∨ 0xE200 ≤ a) :
    (scanDone straps s).peek a n = (finishScan straps s).peek a n :=
  Memory.read_congr fun x h1 h2 => byteAt_scanDone S hc hdown hs (by omega)

theorem scanDone_dropped :
    (scanDone straps s).peek hdrDropped 2 = (scanDone straps s).journal.dropped % 65536 := by
  obtain ⟨hpin, hfree, -⟩ := finishScan_flags (straps := straps) S
  have hquiet := enterQuiet_dropped (finishScan_amends S) hpin hfree (finishScan_down S hdown)
    (finishScan_header (straps := straps) S).2
  have A := (scanDone_amends (straps := straps) S hc hdown hs).1
  rw [scanQuiet] at A
  rw [A.journal]
  refine Eq.trans (Memory.read_congr fun a h1 _ => A.bytes a fun ha => ?_) hquiet
  unfold inField hdrState at ha
  unfold hdrDropped at h1
  omega

theorem scanDone_block (n : Fin 4) :
    blockShown (scanDone straps s).mem n ((scanDone straps s).lane n) ((scanDone straps s).port n) := by
  have hblock := finishScan_block (straps := straps) S n
  have hport : (finishScan straps s).port n = (scanDone straps s).port n := by
    rw [State.port, State.port, (finishScan_amends S).ports, (scanDone_reached S hc hdown hs).ports]
  rw [hport, finishScan_lane S] at hblock
  have hshown := blockShown_congr hblock fun a ha => byteAt_scanDone (straps := straps) S hc hdown hs <| by
    have := inBlockShown_region ⟨n, ha⟩
    omega
  rw [scanDone_lane S hdown]
  exact hshown

/-- The current-window fields stand. -/
theorem scanDone_window {n : Fin 4} {a : Nat} (ha : inField (laneBlockBase n.val + 80) 22 a) :
    (scanDone straps s).mem.byteAt a = s.mem.byteAt a := by
  have hregion : 0x1100 ≤ a ∧ a < 0x1500 := by
    have := n.isLt
    unfold inField laneBlockBase at ha
    omega
  refine (byteAt_scanDone S hc hdown hs (by omega)).trans ((finishScan_amends S).bytes a fun hin => ?_)
  rcases hin with (((hin | hin) | hin) | hin) | ⟨m, hin⟩
  · have := inScanned_region hin
    omega
  · have := inHeaderWritten_region hin
    omega
  · have := hin.2
    unfold inField hdrMs at this
    omega
  · have := inFlowEmptied_region hin
    omega
  · exact (inBlockShown_mirror hin).2 n ha

theorem scanDone_keepsBytes :
    keepsBytes s (scanDone straps s) (fun a =>
      (∃ slot < 6144, s.startPos ≤ slot ∧ slotStateOf s.mem slot = 1 ∧ a = passBase slot + 31)
      ∨ (∃ k : Fin 32, s.startPos ≤ 6144 + k.val ∧ orderState s k = 2 ∧ inOrderEnd k a)
      ∨ (s.evacuatePin = true ∧ inAppend s a)
      ∨ a < 8 ∨ inField hdrDropped 2 a ∨ inField hdrTaken 12 a
      ∨ (¬(s.peek hdrDay 2 ≠ 65535 ∧ s.peek hdrMs 4 < 86400000) ∧ inField hdrMs 6 a)
      ∨ (∃ n : Fin 4, 63 < s.peek (hdrFlow n.val) 2 ∧ inField (hdrFlow n.val) 2 a)
      ∨ ∃ n, inLaneMirror n a) := by
  intro a ha
  simp only [not_or] at ha
  obtain ⟨hmarker, horder, happend, hlow, hdropped, htaken, htime, hflow, hmirror⟩ := ha
  refine (scanDone_reached S hc hdown hs).bytes a fun hin => ?_
  rcases hin with (((((hin | hin) | hin) | hin) | ⟨n, hin⟩) | hin) | hin
  · exact hin.elim hmarker horder
  · rcases hin with hin | hin | hin
    · exact hlow (by omega)
    · exact hdropped hin
    · exact htaken hin
  · exact htime hin
  · exact hflow hin
  · exact hmirror ⟨n, (inBlockShown_mirror hin).1⟩
  · exact happend hin
  · unfold inField hdrState at hin
    exact hlow (by omega)

end

/-- Settles O5: the scan's visits to their end, the header, station time, the flow positions and the Lane Blocks, then
QUIET with the edge of EVACUATE. -/
theorem restartScanEntersQuiet : Obligations.RestartScanEntersQuiet := by
  intro s straps h hs hp hdown
  obtain ⟨c, S⟩ := scanned_ended h
  have hbits : c = if ∃ k : Fin 32, s.startPos ≤ 6144 + k.val ∧ orderState s k = 2 then 1#8 else 0#8 := by
    split
    · next hr => exact S.raised hr
    · next hq => exact S.quiet hq
  have hc : c &&& 6#8 = 0 := by
    rw [hbits]
    split <;> decide
  have reached := scanDone_reached (straps := straps) S hc hdown hs
  obtain ⟨hrest, hday, hms⟩ := scanDone_rest (straps := straps) S hdown
  have heq := scanDone_eq (straps := straps) S hc hdown hs
  have hlane := scanDone_lane (straps := straps) S hdown
  have hattn : attnRaised s (scanDone straps s)
      ((if ∃ k : Fin 32, s.startPos ≤ 6144 + k.val ∧ orderState s k = 2 then 1 else 0)
        ||| (if s.evacuatePin then 0x80 else 0)) := hbits ▸ reached.attn
  obtain ⟨⟨hversion, hcause, hlift, htaken⟩, -⟩ := finishScan_header (straps := straps) S
  have peek {a n : Nat} (ha : a + n ≤ 6 ∨ (8 ≤ a ∧ a + n ≤ 14) ∨ (18 ≤ a ∧ a + n ≤ 0x6200) ∨ 0xE200 ≤ a) :=
    scanDone_peek (straps := straps) S hc hdown hs ha
  have hasks : evacuateAsks s (scanDone straps s) = evacuateAsks s (finishScan straps s) := by
    rw [evacuateAsks, evacuateAsks, hday, hms]
  refine ⟨scanDone straps s, restartScanDone_runs straps hs hp, heq, fun slot hslot hlo hlive => ?_,
    fun k hlo ht => ⟨?_, ?_, ?_⟩, hattn, ?_, fun hpin n => ?_, scanDone_block S hc hdown hs, ?_, ?_, ?_,
    (scanDone_amends S hc hdown hs).2, scanDone_dropped S hc hdown hs, ?_, fun hm => ?_, fun hm => ?_, fun n => ?_,
    fun n hlt => ?_, fun n a ha => ?_, scanDone_keepsBytes S hc hdown hs⟩
  · rw [peek (by unfold passBase; omega)]
    exact finishScan_marker S hslot hlo hlive
  · have hk := k.isLt
    exact (peek (by unfold orderBase; omega)).trans (finishScan_order (straps := straps) S k hlo ht).1
  · have hk := k.isLt
    exact (peek (by unfold orderBase; omega)).trans (finishScan_order (straps := straps) S k hlo ht).2
  · obtain ⟨j, -, ha⟩ := hattn
    rw [ha, if_pos ⟨k, hlo, ht⟩]
    simp
  · rw [recorded_iff, hasks]
    exact reached.records
  · rw [lockReleased, evacuate_of_rest hrest]
    dsimp only
    rw [hpin, Bool.or_true, Bool.true_or]
  · exact (peek (by decide)).trans hversion
  · exact (peek (by decide)).trans hcause
  · rw [liftNumber_of_rest hrest]
    exact (peek (by decide)).trans hlift
  · exact (Memory.readBytes_congr fun a h1 h2 => byteAt_scanDone S hc hdown hs
      (by unfold hdrTaken at h1 h2; omega)).trans htaken
  · rw [hday, hms]
    exact finishScan_time_holds S hm
  · obtain ⟨hzero, hzeroMs, hpday, hpms⟩ := finishScan_time_empty (straps := straps) S hm
    exact ⟨hday.trans hzero, hms.trans hzeroMs, (peek (by decide)).trans hpday, (peek (by decide)).trans hpms⟩
  · exact (hlane n).trans rfl
  · have hn := n.isLt
    rw [peek (by unfold hdrFlow; omega)]
    exact finishScan_flow S n hlt
  · exact scanDone_window S hc hdown hs ha

end Sys2Proof.Machine
end

section
/-! PROOFS. What events leave of a lane's standing: its configurations and whether it has a window (R56, R113). -/

namespace Sys2Proof.Machine

/-! ### The standing of the lanes -/

/-- A lane's configurations, in force and pending, and whether it has a current window. -/
def Lane.standing (l : Lane) : LaneConfig × Option LaneConfig × Bool := (l.config, l.pendingConfig, l.window.isSome)

/-- The standing of every lane. -/
def State.standing (s : State) (n : Fin 4) : LaneConfig × Option LaneConfig × Bool := (s.lane n).standing

theorem standing_of_lanes {s t : State} (h : t.lanes = s.lanes) : t.standing = s.standing := by
  funext n
  exact congrArg Lane.standing (lane_of_lanes h n)

theorem modLane_standing (s : State) (n : Fin 4) {f : Lane → Lane} (h : ∀ l, (f l).standing = l.standing) :
    (s.modLane n f).standing = s.standing := by
  funext m
  unfold State.standing
  rw [lane_modLane]
  split
  · exact h _
  · rfl

theorem mapLanes_standing {s t : State} {f : Fin 4 → Lane → Lane} (ht : t.lanes = s.lanes.mapIdx f)
    (h : ∀ n l, (f n l).standing = l.standing) : t.standing = s.standing := by
  funext m
  unfold State.standing State.lane
  rw [ht, Quad.get_mapIdx]
  exact h m _

theorem eachLane_standing {f : Fin 4 → State → State} (h : ∀ n s, (f n s).standing = s.standing) (s : State) :
    (eachLane f s).standing = s.standing := by
  simp [eachLane, allFour, h]

@[simp] theorem enter_standing (l : Lane) (st : LaneState) : (l.enter st).standing = l.standing := by
  unfold Lane.enter
  split <;> rfl

@[simp] theorem enterArming_standing (l : Lane) : l.enterArming.standing = l.standing := rfl

@[simp] theorem enterDown_standing (l : Lane) : l.enterDown.standing = l.standing := rfl

@[simp] theorem resetSettle_standing (l : Lane) : (resetSettle l).standing = l.standing := by
  unfold resetSettle
  split <;> rfl

/-! ### Memory, attention, ports and records -/

@[simp] theorem modPort_standing (s : State) (p : Fin 4) (f : Port → Port) : (s.modPort p f).standing = s.standing := rfl
@[simp] theorem poke_standing (s : State) (a n v : Nat) : (s.poke a n v).standing = s.standing := rfl
@[simp] theorem raise_standing (c : Cause) (s : State) : (raise c s).standing = s.standing := rfl
@[simp] theorem takePledge_standing (s : State) : (takePledge s).standing = s.standing := rfl
@[simp] theorem putPass_standing (s : State) (slot : Nat) (e : PassEntry) : (s.putPass slot e).standing = s.standing := rfl

theorem with_mem_standing (s : State) (m : Memory) : ({ s with mem := m } : State).standing = s.standing := rfl

@[simp] theorem appendPledged_standing (r : Record) (s : State) : (appendPledged r s).standing = s.standing :=
  standing_of_lanes (appendPledged_lanes r s)

@[simp] theorem appendUnpledged_standing (r : Record) (s : State) : (appendUnpledged r s).standing = s.standing :=
  standing_of_lanes (appendUnpledged_lanes r s)

@[simp] theorem stationRecord_standing (ev : StationEvent) (b : Bool) (d m : Nat) (s : State) :
    (stationRecord ev b d m s).standing = s.standing := standing_of_lanes (stationRecord_lanes ev b d m s)

@[simp] theorem laneRecord_standing (n : Fin 4) (b : Bool) (s : State) : (laneRecord n b s).standing = s.standing :=
  standing_of_lanes (laneRecord_lanes n b s)

@[simp] theorem endOrder_standing (k : Fin 32) (r : Result) (s : State) : (endOrder k r s).standing = s.standing :=
  standing_of_lanes (endOrder_lanes k r s)

@[simp] theorem pokeResult_standing (k : Fin 32) (off : Nat) (bs : List Byte) (s : State) :
    (pokeResult k off bs s).standing = s.standing := rfl

@[simp] theorem setMarker_standing (slot : Nat) (m : Option (Fin 4)) (s : State) :
    (setMarker slot m s).standing = s.standing := rfl

@[simp] theorem sendShow_standing (p : Fin 4) (c : ShowCode) (v : Nat) (s : State) :
    (sendShow p c v s).standing = s.standing := rfl

@[simp] theorem changeService_standing (b s : State) : (changeService b s).standing = s.standing := rfl

/-! ### Cues and counts -/

@[simp] theorem handOutcome_standing (n : Fin 4) (o : CueOutcome) (s : State) :
    (handOutcome n o s).standing = s.standing := by
  unfold handOutcome startCue
  dsimp only
  repeat' split
  · rfl
  · exact modLane_standing s n fun _ => rfl
  · rfl

@[simp] theorem handInPlaceOfReady_standing (n : Fin 4) (o : CueOutcome) (s : State) :
    (handInPlaceOfReady n o s).standing = s.standing := by
  unfold handInPlaceOfReady
  split <;> simp

@[simp] theorem modLane_enter_standing (s : State) (n : Fin 4) (st : LaneState) :
    (s.modLane n (·.enter st)).standing = s.standing := modLane_standing s n fun l => enter_standing l st

@[simp] theorem modLane_enterArming_standing (s : State) (n : Fin 4) :
    (s.modLane n (·.enterArming)).standing = s.standing := modLane_standing s n enterArming_standing

@[simp] theorem modLane_resetSettle_standing (s : State) (n : Fin 4) :
    (s.modLane n resetSettle).standing = s.standing := modLane_standing s n resetSettle_standing

@[simp] theorem enterReady_standing (n : Fin 4) (s : State) : (enterReady n s).standing = s.standing := by
  simp [enterReady]

@[simp] theorem enterReadyWith_standing (n : Fin 4) (o : CueOutcome) (s : State) :
    (enterReadyWith n o s).standing = s.standing := by simp [enterReadyWith]

/-- A current window changed where there is one. -/
theorem modWindow_standing (s : State) (n : Fin 4) (f : Window → Window) :
    (s.modLane n fun l => { l with window := l.window.map f }).standing = s.standing :=
  modLane_standing s n fun l => by simp [Lane.standing]

@[simp] theorem count_standing (n : Fin 4) (k : CountKind) (s : State) : (count n k s).standing = s.standing :=
  modWindow_standing s n _

@[simp] theorem markPartial_standing (n : Fin 4) (s : State) : (markPartial n s).standing = s.standing :=
  modWindow_standing s n _

@[simp] theorem markOffline_standing (n : Fin 4) (s : State) : (markOffline n s).standing = s.standing :=
  modWindow_standing s n _

/-! ### Windows that close and open again -/

/-- A current window that closes, with another opened in its place. -/
theorem openWindow_closeWindow_standing {n : Fin 4} {w : Window} {s : State} (h : (s.lane n).window = some w)
    (v w' : Window) (length : Nat) : (openWindow n v (closeWindow n w' length s)).standing = s.standing := by
  funext m
  simp only [State.standing, openWindow, closeWindow, State.lane, State.modLane, State.setLane, Quad.get_set]
  split
  · next hm =>
    subst hm
    simp only [State.lane] at h
    simp [Lane.standing, h]
  · rfl

/-- A window opened in the place of another. -/
theorem openWindow_standing {n : Fin 4} {w : Window} {s : State} (h : (s.lane n).window = some w) (v : Window) :
    (openWindow n v s).standing = s.standing := by
  funext m
  simp only [State.standing, openWindow, State.lane, State.modLane, State.setLane, Quad.get_set]
  split
  · next hm =>
    subst hm
    simp only [State.lane] at h
    simp [Lane.standing, h]
  · rfl

@[simp] theorem closeAtEnd_standing (n : Fin 4) (s : State) : (closeAtEnd n s).standing = s.standing := by
  unfold closeAtEnd
  split
  · next hw =>
    split
    · exact openWindow_closeWindow_standing hw ..
    · rfl
  · rfl

@[simp] theorem closeAtRollover_standing (cut : Bool) (e : Nat) (n : Fin 4) (s : State) :
    (closeAtRollover cut e n s).standing = s.standing := by
  unfold closeAtRollover
  split
  · next hw => exact openWindow_closeWindow_standing hw ..
  · rfl

@[simp] theorem stepWindow_standing (e : Nat) (n : Fin 4) (s : State) : (stepWindow e n s).standing = s.standing := by
  unfold stepWindow
  split
  · next hw => exact openWindow_closeWindow_standing hw ..
  · rfl

@[simp] theorem replaceWindow_standing (n : Fin 4) (s : State) : (replaceWindow n s).standing = s.standing := by
  unfold replaceWindow
  split
  · next hw => exact openWindow_standing hw _
  · rfl

theorem handStep_standing (day ms : Nat) (s : State) : (handStep day ms s).standing = s.standing := by
  unfold handStep
  repeat' split
  · rfl
  · exact eachLane_standing (stepWindow_standing ms) s
  · rfl
  · exact eachLane_standing replaceWindow_standing s

/-! ### Taps, grants and referrals -/

@[simp] theorem denyCore_standing (n p : Fin 4) (uid : List Byte) (slot : Option Nat) (r : DenyReason) (e : ReferralEnd)
    (s : State) : (denyCore n p uid slot r e s).standing = s.standing := by simp [denyCore]

@[simp] theorem denyTap_standing (n p : Fin 4) (uid : List Byte) (slot : Option Nat) (r : DenyReason) (s : State) :
    (denyTap n p uid slot r s).standing = s.standing := by simp [denyTap]

@[simp] theorem denyBusy_standing (n p : Fin 4) (uid : List Byte) (s : State) :
    (denyBusy n p uid s).standing = s.standing := by simp [denyBusy]

@[simp] theorem denyReferralToReady_standing (n : Fin 4) (r : Referral) (slot : Option Nat) (d : DenyReason)
    (e : ReferralEnd) (s : State) : (denyReferralToReady n r slot d e s).standing = s.standing := by
  simp [denyReferralToReady]

@[simp] theorem denyReferralOnward_standing (n : Fin 4) (r : Referral) (d : DenyReason) (e : ReferralEnd) (s : State) :
    (denyReferralOnward n r d e s).standing = s.standing := by simp [denyReferralOnward]

@[simp] theorem voidCore_standing (n : Fin 4) (g : Grant) (c : VoidCause) (s : State) :
    (voidCore n g c s).standing = s.standing := by simp [voidCore]

@[simp] theorem voidToReady_standing (n : Fin 4) (g : Grant) (c : VoidCause) (s : State) :
    (voidToReady n g c s).standing = s.standing := by simp [voidToReady]

@[simp] theorem voidOnward_standing (n : Fin 4) (g : Grant) (c : VoidCause) (s : State) :
    (voidOnward n g c s).standing = s.standing := by simp [voidOnward]

@[simp] theorem grantPass_standing (n p : Fin 4) (uid : List Byte) (slot : Nat) (s : State) :
    (grantPass n p uid slot s).standing = s.standing := by simp [grantPass]

@[simp] theorem refer_standing (n p : Fin 4) (uid : List Byte) (stamp : Nat) (s : State) :
    (refer n p uid stamp s).standing = s.standing := by simp [refer]

@[simp] theorem reevaluate_standing (uid : List Byte) (slot : Nat) (n : Fin 4) (s : State) :
    (reevaluate uid slot n s).standing = s.standing := by
  unfold reevaluate
  repeat' split
  all_goals simp

@[simp] theorem evaluateTap_standing (t : TapRecord) (s : State) : (evaluateTap t s).standing = s.standing := by
  unfold evaluateTap
  repeat' split
  all_goals simp

@[simp] theorem handleTap_standing (t : TapRecord) (s : State) : (handleTap t s).standing = s.standing := by
  unfold handleTap
  repeat' split
  all_goals simp

@[simp] theorem returnChecks_standing (t : TapRecord) (s : State) : (returnChecks t s).standing = s.standing := by
  unfold returnChecks startCapture
  repeat' split
  all_goals simp

@[simp] theorem takeReturnTap_standing (t : TapRecord) (s : State) : (takeReturnTap t s).standing = s.standing := by
  unfold takeReturnTap
  repeat' split
  all_goals simp

@[simp] theorem creditAfterCapture_standing (n : Fin 4) (slot : Nat) (s : State) :
    (creditAfterCapture n slot s).standing = s.standing := by
  unfold creditAfterCapture
  dsimp only
  split <;> simp

/-! ### Passages, faults and free flow -/

@[simp] theorem enterFree_standing (n : Fin 4) (s : State) : (enterFree n s).standing = s.standing := by simp [enterFree]

@[simp] theorem windDown_standing (n : Fin 4) (s : State) : (windDown n s).standing = s.standing := by
  unfold windDown
  split <;> simp

@[simp] theorem startLane_standing (n : Fin 4) (s : State) : (startLane n s).standing = s.standing := by
  unfold startLane
  repeat' split
  all_goals simp

@[simp] theorem enterFault_standing (n : Fin 4) (c : FaultCause) (s : State) :
    (enterFault n c s).standing = s.standing := by simp [enterFault]

@[simp] theorem forced_standing (n : Fin 4) (uid : List Byte) (slot : Option Nat) (s : State) :
    (forced n uid slot s).standing = s.standing := by
  simp [forced, unpaidRecord, modLane_standing s n (f := fun l => { l with latestEntry := none }) fun _ => rfl]

@[simp] theorem commitPass_standing (slot : Nat) (s : State) : (commitPass slot s).1.standing = s.standing := by
  unfold commitPass
  dsimp only
  split <;> simp

@[simp] theorem commitGrant_standing (n : Fin 4) (g : Grant) (s : State) : (commitGrant n g s).standing = s.standing := by
  have passing := modLane_standing s n
    (f := fun l => { l.enter (.passing ⟨g.slot, g.uid, s.now, g.exitBlocks⟩) with latestEntry := none })
    fun l => enter_standing l _
  simp [commitGrant, passing]

@[simp] theorem freePulse_standing (n : Fin 4) (s : State) : (freePulse n s).standing = s.standing := by
  unfold freePulse
  rw [count_standing]
  refine modLane_standing s n fun l => ?_
  split <;> rfl

@[simp] theorem pulse_standing (n : Fin 4) (s : State) : (pulse n s).standing = s.standing := by
  have watched := modLane_standing s n (f := fun l => { l with state := .ready none }) fun _ => rfl
  unfold pulse
  split <;> simp [watched]

@[simp] theorem entryBlock_standing (n : Fin 4) (s : State) : (entryBlock n s).standing = s.standing := by
  refine modLane_standing s n fun l => ?_
  dsimp only
  split
  · exact resetSettle_standing l
  · exact resetSettle_standing l

@[simp] theorem tailgate_standing (n : Fin 4) (uid : List Byte) (slot dwell : Nat) (s : State) :
    (tailgate n uid slot dwell s).standing = s.standing := by simp [tailgate, unpaidRecord]

@[simp] theorem modState_standing (s : State) (n : Fin 4) (st : LaneState) :
    (s.modLane n fun l => { l with state := st }).standing = s.standing := modLane_standing s n fun _ => rfl

@[simp] theorem exitBlock_standing (n : Fin 4) (s : State) : (exitBlock n s).standing = s.standing := by
  unfold exitBlock
  repeat' split
  all_goals simp [duckUnder, unpaidRecord]

/-! ### Reader ports -/

@[simp] theorem lostChanged_standing (n : Fin 4) (lost : Bool) (s : State) :
    (lostChanged n lost s).standing = s.standing := by
  unfold lostChanged
  repeat' split
  all_goals simp

@[simp] theorem setCauses_standing (p : Fin 4) (a b : Bool) (s : State) : (setCauses p a b s).standing = s.standing := by
  simp only [setCauses]
  repeat' split
  all_goals simp

@[simp] theorem hearFrame_standing (p : Fin 4) (s : State) : (hearFrame p s).standing = s.standing := by
  unfold hearFrame
  split <;> simp

@[simp] theorem actStatus_standing (p : Fin 4) (rf : Bool) (s : State) : (actStatus p rf s).standing = s.standing := by
  unfold actStatus
  split <;> simp

/-! ### The tick, the Input Map and the end of an event -/

theorem tickLane_standing (divider : Nat) (carrier : Carrier) (sense : BitVec 16) (l : Lane) :
    (tickLane divider carrier sense l).standing = l.standing := rfl

theorem mapInputs_standing {s t : State} {l : List (Option Source)} (ht : t.lanes = mapInputs l s.lanes) :
    t.standing = s.standing := mapLanes_standing ht fun _ _ => rfl

theorem takeFlowPosition_standing (n : Fin 4) (s : State) : (takeFlowPosition n s).standing = s.standing := by
  unfold takeFlowPosition
  dsimp only
  repeat' split
  · exact modLane_standing s n fun _ => rfl
  · rfl
  · rfl

theorem drivePulse_standing (before after : State) (n : Fin 4) :
    (drivePulse before after n).standing = (after.lane n).standing := by
  unfold drivePulse
  dsimp only
  repeat' split
  all_goals rfl

@[simp] theorem settleOutputs_standing (before after : State) :
    (settleOutputs before after).standing = after.standing := by
  funext n
  unfold State.standing
  rw [settleOutputs_lane]
  exact drivePulse_standing before after n

end Sys2Proof.Machine
end

section
/-! PROOFS. What keeps the ports exclusive, a window where the station has one, one tap a lane and one order a slot: the
general rules, and the orders that wait, quieting and free flow (R56, R58, R91, R111, R113, R202). -/

namespace Sys2Proof.Machine

/-! ### The orders in flight, counted -/

/-- How many orders in flight hold a slot. -/
def State.flights (s : State) (k : Fin 32) : Nat := (slotsInFlight s).count k

theorem flights_eq (s : State) (k : Fin 32) :
    s.flights k = (s.withdrawal.map (·.order.slot)).toList.count k + (s.withdrawalsWaiting.map (·.slot)).count k
      + (s.creditSweep.map (·.order.slot)).toList.count k + (s.closuresWaiting.map (·.slot)).count k
      + (s.lanesWaiting.map (·.slot)).count k := by
  simp only [State.flights, slotsInFlight, List.count_append]

theorem flights_of_rest {s t : State} (h : t.rest = s.rest) : t.flights = s.flights := by
  funext k
  rw [flights_eq, flights_eq, withdrawal_of_rest h, withdrawalsWaiting_of_rest h, creditSweep_of_rest h,
    closuresWaiting_of_rest h, lanesWaiting_of_rest h]

theorem ordersDistinct_iff (s : State) : ordersDistinct s ↔ ∀ k, s.flights k ≤ 1 := List.nodup_iff_count_le_one

/-! ### Lanes by their standing -/

/-- The configurations of a standing, in force and pending. -/
def configsOf (x : LaneConfig × Option LaneConfig × Bool) : List LaneConfig := x.1 :: x.2.1.toList

theorem portsExclusive_iff (s : State) :
    portsExclusive s ↔ ∀ n m, n ≠ m → ∀ c ∈ configsOf (s.standing n), ∀ d ∈ configsOf (s.standing m), ¬portsClash c d :=
  Iff.rfl

theorem windowsFollowStation_iff (s : State) :
    windowsFollowStation s ↔ ∀ n, (s.standing n).2.2 = true ↔ s.station = .running ∨ s.station = .quieting := Iff.rfl

theorem portsClash_symm {c d : LaneConfig} (h : portsClash c d) : portsClash d c := by
  obtain ⟨hc, hd, hport⟩ := h
  exact ⟨hd, hc, hport.symm⟩

/-- A port is taken where another lane's configuration, in force or pending, clashes (R56). -/
theorem portTaken_iff (s : State) (n : Fin 4) (c : LaneConfig) :
    portTaken s n c = true ↔ ∃ m, m ≠ n ∧ ∃ d ∈ (s.lane m).configs, portsClash c d := by
  have named (d : LaneConfig) : configTakes d c.port = true ∧ c.role ≠ .down ↔ portsClash c d := by
    simp only [configTakes, portsClash, Bool.and_eq_true, decide_eq_true_eq]
    constructor
    · rintro ⟨⟨hd, hport⟩, hc⟩
      exact ⟨hc, hd, hport.symm⟩
    · rintro ⟨hc, hd, hport⟩
      exact ⟨⟨hd, hport.symm⟩, hc⟩
  simp only [portTaken, Bool.and_eq_true, decide_eq_true_eq, List.any_eq_true, Bool.or_eq_true]
  constructor
  · rintro ⟨hc, m, _, hm, hforce | hpending⟩
    · exact ⟨m, hm, _, List.mem_cons_self, (named _).mp ⟨hforce, hc⟩⟩
    · split at hpending
      · next d hd =>
        exact ⟨m, hm, d, by simp [Lane.configs, hd], (named _).mp ⟨hpending, hc⟩⟩
      · exact absurd hpending (by simp)
  · rintro ⟨m, hm, d, hd, hclash⟩
    obtain ⟨htakes, hc⟩ := (named d).mpr hclash
    refine ⟨hc, m, mem_allFour m, hm, ?_⟩
    simp only [Lane.configs, List.mem_cons, Option.mem_toList] at hd
    rcases hd with rfl | hd
    · exact .inl htakes
    · right
      rw [hd]
      exact htakes

/-! ### What keeps the laws -/

/-- The four laws stay, but for the slots `new` of orders that came into flight. -/
structure KeepsLaws (new : List (Fin 32)) (s t : State) : Prop where
  ports : portsExclusive s → portsExclusive t
  windows : windowsFollowStation s → windowsFollowStation t
  taps : oneTapPerLane s → oneTapPerLane t
  orders : ∀ k, t.flights k ≤ s.flights k + new.count k

theorem KeepsLaws.refl (s : State) : KeepsLaws [] s s := ⟨id, id, id, fun _ => Nat.le_add_right ..⟩

theorem KeepsLaws.trans {a b : List (Fin 32)} {s t u : State} (h : KeepsLaws a s t) (k : KeepsLaws b t u) :
    KeepsLaws (a ++ b) s u :=
  ⟨k.ports ∘ h.ports, k.windows ∘ h.windows, k.taps ∘ h.taps, fun x => by
    have := h.orders x
    have := k.orders x
    rw [List.count_append]
    omega⟩

/-- The laws stay where the lanes' standing, the station, the taps and the orders in flight do. -/
theorem KeepsLaws.of_same {new : List (Fin 32)} {s t : State} (hl : t.standing = s.standing) (hs : t.station = s.station)
    (hq : t.tapQueue = s.tapQueue) (ho : ∀ k, t.flights k ≤ s.flights k + new.count k) : KeepsLaws new s t where
  ports := by rw [portsExclusive_iff, portsExclusive_iff, hl]; exact id
  windows := by rw [windowsFollowStation_iff, windowsFollowStation_iff, hl, hs]; exact id
  taps := by rw [oneTapPerLane, oneTapPerLane, hq]; exact id
  orders := ho

/-- An operation that keeps the rest and the lanes' standing. -/
theorem KeepsLaws.of_frame {new : List (Fin 32)} {s t : State} (hr : t.rest = s.rest) (hl : t.standing = s.standing) :
    KeepsLaws new s t :=
  .of_same hl (station_of_rest hr) (tapQueue_of_rest hr) fun k => by rw [flights_of_rest hr]; exact Nat.le_add_right ..

/-- An operation that keeps the rest and the standing, after one that keeps the laws. -/
theorem KeepsLaws.then {new : List (Fin 32)} {s t u : State} (h : KeepsLaws new s t) (hr : u.rest = t.rest)
    (hl : u.standing = t.standing) : KeepsLaws new s u := by
  have := h.trans (KeepsLaws.of_frame (new := []) hr hl)
  rwa [List.append_nil] at this

/-- An operation that keeps the laws, from a state with the same standing that has let go the slots of `new`. -/
theorem KeepsLaws.from {new old : List (Fin 32)} {s s' t : State} (h : KeepsLaws new s' t) (hl : s'.standing = s.standing)
    (hs : s'.station = s.station) (hq : s'.tapQueue = s.tapQueue)
    (ho : ∀ k, s'.flights k + new.count k ≤ s.flights k + old.count k) : KeepsLaws old s t := by
  have same : KeepsLaws (s := s) (t := s') old := .of_same hl hs hq fun k => (Nat.le_add_right ..).trans (ho k)
  exact ⟨h.ports ∘ same.ports, h.windows ∘ same.windows, h.taps ∘ same.taps, fun k => (h.orders k).trans (ho k)⟩

theorem KeepsLaws.widen {new : List (Fin 32)} {s t : State} (h : KeepsLaws [] s t) : KeepsLaws new s t :=
  h.from rfl rfl rfl fun k => by simp

theorem KeepsLaws.foldl {α : Type} {slot : α → Fin 32} {f : State → α → State} (h : ∀ s x, KeepsLaws [slot x] s (f s x))
    (l : List α) (s : State) : KeepsLaws (l.map slot) s (l.foldl f s) := by
  induction l generalizing s with
  | nil => exact .refl s
  | cons x l ih => exact (h s x).trans (ih (f s x))

theorem KeepsLaws.foldlSame {α : Type} {f : State → α → State} (h : ∀ s x, KeepsLaws [] s (f s x)) (l : List α)
    (s : State) : KeepsLaws [] s (l.foldl f s) := by
  induction l generalizing s with
  | nil => exact .refl s
  | cons x l ih => exact (h s x).trans (ih (f s x))

theorem KeepsLaws.eachLane {f : Fin 4 → State → State} (h : ∀ n s, KeepsLaws [] s (f n s)) (s : State) :
    KeepsLaws [] s (eachLane f s) :=
  KeepsLaws.foldlSame (fun s n => h n s) allFour s

/-- A lane given a configuration that clashes with no other lane's, in force or pending (R56). -/
theorem KeepsLaws.of_config {new : List (Fin 32)} {s t : State} {n : Fin 4} {c : LaneConfig}
    {x : LaneConfig × Option LaneConfig × Bool} (free : portTaken s n c = false) (hr : t.rest = s.rest)
    (hl : t.standing = Function.update s.standing n x) (hc : ∀ d ∈ configsOf x, d = c ∨ d ∈ configsOf (s.standing n))
    (hw : x.2.2 = (s.standing n).2.2) : KeepsLaws new s t where
  ports := by
    have noClash (m : Fin 4) (hm : m ≠ n) (d : LaneConfig) (hd : d ∈ configsOf (s.standing m)) : ¬portsClash c d :=
      fun hclash => by
        have := (portTaken_iff s n c).mpr ⟨m, hm, d, hd, hclash⟩
        rw [free] at this
        exact Bool.noConfusion this
    rw [portsExclusive_iff, portsExclusive_iff, hl]
    intro h
    have given (m : Fin 4) (hm : m ≠ n) (d : LaneConfig) (hd : d ∈ configsOf x) (e : LaneConfig)
        (he : e ∈ configsOf (s.standing m)) : ¬portsClash d e := by
      rcases hc d hd with rfl | hold
      · exact noClash m hm e he
      · exact h n m hm.symm d hold e he
    intro i j hij d hd e he
    by_cases hi : i = n
    · subst hi
      rw [Function.update_self] at hd
      rw [Function.update_of_ne hij.symm] at he
      exact given j hij.symm d hd e he
    · rw [Function.update_of_ne hi] at hd
      by_cases hj : j = n
      · subst hj
        rw [Function.update_self] at he
        exact fun hclash => given i hi e he d hd (portsClash_symm hclash)
      · rw [Function.update_of_ne hj] at he
        exact h i j hij d hd e he
  windows := by
    rw [windowsFollowStation_iff, windowsFollowStation_iff, hl, station_of_rest hr]
    intro h m
    by_cases hm : m = n
    · subst hm
      rw [Function.update_self, hw]
      exact h m
    · rw [Function.update_of_ne hm]
      exact h m
  taps := by rw [oneTapPerLane, oneTapPerLane, tapQueue_of_rest hr]; exact id
  orders k := by rw [flights_of_rest hr]; exact Nat.le_add_right ..

/-! ### SET_LANE (R90, R91) -/

theorem modLane_standing_eq (s : State) (n : Fin 4) (f : Lane → Lane) :
    (s.modLane n f).standing = Function.update s.standing n (f (s.lane n)).standing := by
  funext m
  unfold State.standing
  rw [lane_modLane]
  by_cases hm : m = n
  · subst hm
    rw [if_pos rfl, Function.update_self]
  · rw [if_neg hm, Function.update_of_ne hm]

theorem applyConfig_standing (n : Fin 4) (c : LaneConfig) (s : State) :
    (applyConfig n c s).standing = Function.update s.standing n (c, none, (s.standing n).2.2) := by
  simp only [applyConfig, laneRecord_standing, markPartial_standing, changeService_standing, modLane_standing_eq]
  congr 1
  split
  · rfl
  · split <;> rfl
  · rfl

theorem portTaken_of_standing {s t : State} (h : t.standing = s.standing) (n : Fin 4) (c : LaneConfig) :
    portTaken t n c = portTaken s n c := by
  have hiff : portTaken t n c = true ↔ portTaken s n c = true := by
    rw [portTaken_iff, portTaken_iff]
    exact exists_congr fun m => and_congr_right fun _ => by
      change (∃ d ∈ configsOf (t.standing m), _) ↔ ∃ d ∈ configsOf (s.standing m), _
      rw [h]
  exact Bool.eq_iff_iff.mpr hiff

theorem applyConfig_keepsLaws {n : Fin 4} {c : LaneConfig} {s : State} (free : portTaken s n c = false) :
    KeepsLaws [] s (applyConfig n c s) :=
  .of_config free (applyConfig_rest n c s) (applyConfig_standing n c s) (fun d hd => by simp_all [configsOf]) rfl

theorem makePending_keepsLaws {n : Fin 4} {c : LaneConfig} {s : State} (free : portTaken s n c = false) :
    KeepsLaws [] s (makePending n c s) := by
  refine .of_config free (makePending_rest n c s) (modLane_standing_eq s n _) (fun d hd => ?_) rfl
  simp only [configsOf, Lane.standing, Option.toList_some, List.mem_cons, List.not_mem_nil, or_false] at hd
  rcases hd with rfl | rfl
  · exact .inr List.mem_cons_self
  · exact .inl rfl

theorem putConfig_keepsLaws {n : Fin 4} {c : LaneConfig} {s : State} (free : portTaken s n c = false) :
    KeepsLaws [] s (s.modLane n (·.putConfig c)) :=
  .of_config free (modLane_rest ..) (modLane_standing_eq s n _)
    (fun d hd => by simp_all [configsOf, Lane.putConfig, Lane.standing]) rfl

theorem carrySetLane_keepsLaws (o : LaneOrder) (s : State) : KeepsLaws [o.slot] s (carrySetLane o s) := by
  have waits : KeepsLaws [o.slot] s { s with lanesWaiting := s.lanesWaiting ++ [o] } :=
    .of_same rfl rfl rfl fun k => by simp [flights_eq, List.count_append]; omega
  have fails {t : State} (hr : t.rest = s.rest) (hl : t.standing = s.standing) :
      KeepsLaws [o.slot] s (endOrder o.slot .portTaken t) :=
    .of_frame ((endOrder_rest ..).trans hr) ((endOrder_standing ..).trans hl)
  have ends {t u : State} (hr : t.rest = s.rest) (hl : t.standing = s.standing) (h : KeepsLaws [] t u) :
      KeepsLaws [o.slot] s (endOrder o.slot .ok u) :=
    ((KeepsLaws.of_frame (new := [o.slot]) hr hl).trans h).then (endOrder_rest ..) (endOrder_standing ..)
  unfold carrySetLane
  dsimp only
  split
  · split
    · split
      · exact fails (by simp) (by simp)
      · next free =>
        exact ends (t := voidOnward o.lane _ .laneChange s) (by simp) (by simp)
          (applyConfig_keepsLaws (by simp [portTaken_of_standing (voidOnward_standing ..), free]))
    · split
      · exact fails (by simp) (by simp)
      · next free =>
        exact ends (t := denyReferralOnward o.lane _ .laneChange .laneChange s) (by simp) (by simp)
          (applyConfig_keepsLaws (by simp [portTaken_of_standing (denyReferralOnward_standing ..), free]))
    · split
      · exact fails rfl rfl
      · next free => exact ends rfl rfl (makePending_keepsLaws (by simpa using free))
    · exact waits
    · exact waits
    · split
      · exact fails rfl rfl
      · next free => exact ends rfl rfl (applyConfig_keepsLaws (by simpa using free))
  · split
    · exact waits
    · split
      · exact fails rfl rfl
      · next free => exact ends rfl rfl (makePending_keepsLaws (by simpa using free))
  · split
    · exact fails rfl rfl
    · next free => exact ends rfl rfl (putConfig_keepsLaws (by simpa using free))

theorem insertBySlot_perm {α : Type} (slot : α → Nat) (x : α) (l : List α) : (insertBySlot slot x l).Perm (x :: l) := by
  induction l with
  | nil => exact .refl _
  | cons y l ih =>
    unfold insertBySlot
    split
    · exact .refl _
    · exact (ih.cons y).trans (.swap x y l)

/-- Orders in ascending slot order are the orders. -/
theorem sortBySlot_perm {α : Type} (slot : α → Nat) (l : List α) : (sortBySlot slot l).Perm l := by
  induction l with
  | nil => exact .refl _
  | cons x l ih => exact (insertBySlot_perm slot x _).trans (ih.cons x)

theorem runWaiting_keepsLaws (n : Fin 4) (s : State) : KeepsLaws [] s (runWaiting n s) := by
  have carried := KeepsLaws.foldl (slot := LaneOrder.slot) (fun s o => carrySetLane_keepsLaws o s)
    (sortBySlot (fun o => o.slot.val) (s.lanesWaiting.filter (fun o => o.lane = n)))
    { s with lanesWaiting := s.lanesWaiting.filter (fun o => o.lane ≠ n) }
  refine carried.from rfl rfl rfl fun k => ?_
  have sorted := ((sortBySlot_perm (fun o : LaneOrder => o.slot.val)
    (s.lanesWaiting.filter (fun o => o.lane = n))).map (·.slot)).count_eq k
  have parted := ((List.filter_append_perm (fun o : LaneOrder => decide (o.lane = n)) s.lanesWaiting).map
    (·.slot)).count_eq k
  rw [List.map_append, List.count_append] at parted
  simp only [flights_eq, sorted, List.count_nil, ne_eq, decide_not]
  omega

/-! ### Quieting (R111) -/

theorem configsOf_quietDown (l : Lane) : ∀ d ∈ configsOf l.quietDown.standing, d ∈ configsOf l.standing := by
  unfold Lane.quietDown
  cases hp : l.pendingConfig with
  | none => exact fun d hd => hd
  | some c =>
    intro d hd
    simp_all [configsOf, Lane.standing, Lane.enterDown, Lane.putConfig]

theorem closeWindow_standing (n : Fin 4) (w : Window) (length : Nat) (s : State) :
    (closeWindow n w length s).standing =
      Function.update s.standing n ((s.standing n).1, (s.standing n).2.1, false) := by
  funext m
  simp only [State.standing, closeWindow, State.lane, State.modLane, State.setLane, Quad.get_set, Function.update]
  split
  · next hm =>
    subst hm
    rfl
  · rfl

theorem closeAtQuiet_standing (n : Fin 4) (s : State) :
    (closeAtQuiet n s).standing = Function.update s.standing n ((s.standing n).1, (s.standing n).2.1, false) := by
  unfold closeAtQuiet
  split
  · exact closeWindow_standing ..
  · next hw =>
    refine (Function.update_eq_self_iff.mpr ?_).symm
    simp [State.standing, Lane.standing, hw]

theorem eachLane_closeAtQuiet_standing (s : State) (n : Fin 4) :
    (eachLane closeAtQuiet s).standing n = ((s.standing n).1, (s.standing n).2.1, false) := by
  simp only [eachLane, allFour, List.foldl_cons, List.foldl_nil, closeAtQuiet_standing]
  fin_cases n <;> simp [Function.update]

theorem completeQuieting_keepsLaws (s : State) : KeepsLaws [] s (completeQuieting s) := by
  have standing (n : Fin 4) : (completeQuieting s).standing n =
      ((s.lane n).quietDown.standing.1, (s.lane n).quietDown.standing.2.1, false) := by
    unfold completeQuieting
    dsimp only
    rw [changeService_standing]
    change (stationRecord .quiet false 0 0 (eachLane closeAtQuiet
      { s with lanes := s.lanes.mapIdx fun _ l => l.quietDown })).standing n = _
    rw [stationRecord_standing, eachLane_closeAtQuiet_standing]
    simp only [State.standing, State.lane, Quad.get_mapIdx]
  have rest : (completeQuieting s).rest = { s with station := .quiet }.rest := by
    unfold completeQuieting
    dsimp only
    rw [changeService_rest]
    have closed : (stationRecord .quiet false 0 0 (eachLane closeAtQuiet
        { s with lanes := s.lanes.mapIdx fun _ l => l.quietDown })).rest = s.rest := by
      rw [stationRecord_rest, eachLane_rest closeAtQuiet_rest]
      rfl
    exact congrArg (fun u : State => { u with station := StationState.quiet }) closed
  refine ⟨fun h n m hnm c hc d hd => ?_, fun _ n => ?_, ?_, fun k => ?_⟩
  · change c ∈ configsOf ((completeQuieting s).standing n) at hc
    change d ∈ configsOf ((completeQuieting s).standing m) at hd
    rw [standing] at hc hd
    exact h n m hnm c (configsOf_quietDown _ c hc) d (configsOf_quietDown _ d hd)
  · change ((completeQuieting s).standing n).2.2 = true ↔ _
    rw [standing, station_of_rest rest]
    simp
  · rw [oneTapPerLane, oneTapPerLane, tapQueue_of_rest rest]
    exact id
  · rw [flights_of_rest rest]
    exact Nat.le_add_right ..

theorem quietIfIdle_keepsLaws (s : State) : KeepsLaws [] s (quietIfIdle s) := by
  unfold quietIfIdle
  split
  · exact completeQuieting_keepsLaws s
  · exact .refl s

theorem afterBusy_keepsLaws (n : Fin 4) (s : State) : KeepsLaws [] s (afterBusy n s) :=
  (runWaiting_keepsLaws n s).trans (quietIfIdle_keepsLaws _)

/-! ### Free flow (R105, R107) -/

theorem freeLane_keepsLaws (n : Fin 4) (s : State) : KeepsLaws [] s (freeLane n s) := by
  unfold freeLane
  repeat' split
  case h_5 => exact (KeepsLaws.of_frame (new := []) (enterFree_rest n s) (enterFree_standing n s)).trans (runWaiting_keepsLaws n _)
  all_goals exact .of_frame (by simp) (by simp)

theorem startFreeFlow_keepsLaws (byEvacuate : Bool) (s : State) : KeepsLaws [] s (startFreeFlow byEvacuate s) := by
  unfold startFreeFlow
  split
  · exact .refl s
  · have starts : KeepsLaws [] s { s with freeFlow := true } :=
      .of_same rfl rfl rfl fun _ => Nat.le_add_right ..
    exact ((starts.then (stationRecord_rest ..) (stationRecord_standing ..)).trans
      (KeepsLaws.eachLane freeLane_keepsLaws _)).trans (quietIfIdle_keepsLaws _)

/-- The pending configuration of a lane in force: it clashes with no more than before. -/
theorem KeepsLaws.of_pending {s t : State} {n : Fin 4} {c : LaneConfig} (hp : (s.lane n).pendingConfig = some c)
    (hr : t.rest = s.rest) (hl : t.standing = Function.update s.standing n (c, none, (s.standing n).2.2)) :
    KeepsLaws [] s t where
  ports := by
    rw [portsExclusive_iff, portsExclusive_iff, hl]
    intro h i j hij d hd e he
    have within (m : Fin 4) (x : LaneConfig)
        (hx : x ∈ configsOf (Function.update s.standing n (c, none, (s.standing n).2.2) m)) :
        x ∈ configsOf (s.standing m) := by
      by_cases hm : m = n
      · subst hm
        rw [Function.update_self] at hx
        simp_all [configsOf, State.standing, Lane.standing]
      · rwa [Function.update_of_ne hm] at hx
    exact h i j hij d (within i d hd) e (within j e he)
  windows := by
    rw [windowsFollowStation_iff, windowsFollowStation_iff, hl, station_of_rest hr]
    intro h m
    by_cases hm : m = n
    · subst hm
      rw [Function.update_self]
      exact h m
    · rw [Function.update_of_ne hm]
      exact h m
  taps := by rw [oneTapPerLane, oneTapPerLane, tapQueue_of_rest hr]; exact id
  orders k := by rw [flights_of_rest hr]; exact Nat.le_add_right ..

theorem leaveFree_keepsLaws (n : Fin 4) (s : State) : KeepsLaws [] s (leaveFree n s) := by
  unfold leaveFree
  split
  · split
    · next hp => exact .of_pending hp (applyConfig_rest ..) (applyConfig_standing ..)
    · exact .of_frame (by simp) (by simp)
  · exact .refl s

theorem endFreeFlow_keepsLaws (s : State) : KeepsLaws [] s (endFreeFlow s) := by
  have ends : KeepsLaws [] s { s with freeFlow := false } := .of_same rfl rfl rfl fun _ => Nat.le_add_right ..
  exact (ends.trans (KeepsLaws.eachLane leaveFree_keepsLaws _)).then (stationRecord_rest ..) (stationRecord_standing ..)

theorem assertEvacuate_keepsLaws (s : State) : KeepsLaws [] s (assertEvacuate s) :=
  (KeepsLaws.of_frame (new := []) (raise_rest s .evacuate) (raise_standing .evacuate s)).trans (startFreeFlow_keepsLaws true _)

end Sys2Proof.Machine
end

section
/-! PROOFS. What keeps the ports, windows, taps and slots, continued: the scans, the bodies of the orders, the reader
lines and the passages (R22, R58, R138, R202). -/

namespace Sys2Proof.Machine

/-- The laws stay where the lanes' standing does, the station counts as it did, and the taps and orders keep theirs. -/
theorem KeepsLaws.of_lanes {new : List (Fin 32)} {s t : State} (hl : t.standing = s.standing)
    (hs : t.station = .running ∨ t.station = .quieting ↔ s.station = .running ∨ s.station = .quieting)
    (hq : oneTapPerLane s → oneTapPerLane t) (ho : ∀ k, t.flights k ≤ s.flights k + new.count k) : KeepsLaws new s t where
  ports := by rw [portsExclusive_iff, portsExclusive_iff, hl]; exact id
  windows := by rw [windowsFollowStation_iff, windowsFollowStation_iff, hl, hs]; exact id
  taps := hq
  orders := ho

/-- A change of nothing that the laws speak of. -/
theorem KeepsLaws.of_eq {s t : State} (hl : t.standing = s.standing) (hs : t.station = s.station)
    (hq : t.tapQueue = s.tapQueue) (ho : t.flights = s.flights) : KeepsLaws [] s t :=
  .of_same hl hs hq fun k => by rw [ho]; exact Nat.le_add_right ..

/-! ### The withdrawal scan (R22, R23) -/

/-- An order ends with the rest of the state but memory and attention kept, whatever its result. -/
theorem endOrder_keepsLaws {new : List (Fin 32)} (k : Fin 32) (r : Result) (s : State) : KeepsLaws new s (endOrder k r s) :=
  .of_frame (endOrder_rest ..) (endOrder_standing ..)

theorem placeProduct_standing (index : Nat) (p : Product) (immediate : Bool) (s : State) :
    (placeProduct index p immediate s).standing = s.standing := by
  unfold placeProduct placeNow stageRecord
  split
  · exact with_mem_standing s _
  · exact with_mem_standing s _

/-- A withdrawal judged keeps the rest and the standing, or starts its scan. -/
theorem beginWithdrawal_cases (o : WithdrawalOrder) (s : State) :
    ((beginWithdrawal o s).rest = s.rest ∧ (beginWithdrawal o s).standing = s.standing)
      ∨ beginWithdrawal o s = { s with withdrawal := some ⟨o, 0, false, false, s.now⟩ } := by
  unfold beginWithdrawal
  split
  · exact .inl ⟨endOrder_rest .., endOrder_standing ..⟩
  · split
    · left
      exact ⟨by rw [endOrder_rest, placeProduct_rest], by rw [endOrder_standing, placeProduct_standing]⟩
    · exact .inr rfl

theorem beginWithdrawal_keepsLaws (o : WithdrawalOrder) (s : State) : KeepsLaws [o.slot] s (beginWithdrawal o s) := by
  rcases beginWithdrawal_cases o s with ⟨hr, hl⟩ | hstarts
  · exact .of_frame hr hl
  · rw [hstarts]
    refine .of_same rfl rfl rfl fun k => ?_
    simp only [flights_eq, Option.map_some, Option.toList_some]
    omega

theorem startWithdrawals_keepsLaws (l : List WithdrawalOrder) (s : State) :
    KeepsLaws (l.map (·.slot)) { s with withdrawalsWaiting := [] } (startWithdrawals l s) := by
  induction l generalizing s with
  | nil => exact .refl _
  | cons o os ih =>
    unfold startWithdrawals
    dsimp only
    split
    · rcases beginWithdrawal_cases o s with ⟨hr, hl⟩ | hstarts
      · have hs := station_of_rest hr
        have hq := tapQueue_of_rest hr
        refine .of_same hl hs hq fun k => ?_
        simp only [flights_eq, List.map_cons, List.count_cons, List.map_nil, List.count_nil]
        rw [withdrawal_of_rest hr, creditSweep_of_rest hr, closuresWaiting_of_rest hr, lanesWaiting_of_rest hr]
        omega
      · rw [hstarts]
        refine .of_same rfl rfl rfl fun k => ?_
        simp only [flights_eq, Option.map_some, Option.toList_some, List.map_cons, List.count_cons, List.map_nil,
          List.count_nil]
        omega
    · next hidle =>
      rcases beginWithdrawal_cases o s with ⟨hr, hl⟩ | hstarts
      · have hs := station_of_rest hr
        have hq := tapQueue_of_rest hr
        refine (ih (beginWithdrawal o s)).from hl hs hq fun k => ?_
        simp only [flights_eq, List.map_cons, List.count_cons, List.map_nil, List.count_nil]
        rw [withdrawal_of_rest hr, creditSweep_of_rest hr, closuresWaiting_of_rest hr, lanesWaiting_of_rest hr]
        omega
      · rw [hstarts] at hidle
        exact absurd rfl hidle

/-- The scan slot let go and the waiting withdrawals started. -/
theorem nextWithdrawals_keepsLaws (s : State) : KeepsLaws [] s (nextWithdrawals s) := by
  refine (startWithdrawals_keepsLaws _ s).from rfl rfl rfl fun k => ?_
  have sorted := ((sortBySlot_perm (fun o : WithdrawalOrder => o.slot.val) s.withdrawalsWaiting).map (·.slot)).count_eq k
  simp only [flights_eq, sorted, List.map_nil, List.count_nil]
  omega

theorem endScanClean_standing (o : WithdrawalOrder) (s : State) : (endScanClean o s).standing = s.standing := by
  unfold endScanClean
  split
  · exact endOrder_standing ..
  · rw [endOrder_standing, placeProduct_standing]

theorem scanStep_keepsLaws {w : WithdrawalScan} {s : State} (hw : s.withdrawal = some w) :
    KeepsLaws [] s (scanStep w s) := by
  have frees : KeepsLaws [] s { s with withdrawal := none } :=
    .of_same rfl rfl rfl fun k => by simp only [flights_eq, Option.map_none, Option.toList_none, List.count_nil]; omega
  have goesOn {v : WithdrawalScan} (hv : v.order = w.order) : KeepsLaws [] s { s with withdrawal := some v } :=
    .of_eq rfl rfl rfl (funext fun k => by simp only [flights_eq, hw, Option.map_some, hv])
  have inUse : KeepsLaws [] s (nextWithdrawals (endOrder w.order.slot .inUse { s with withdrawal := none })) :=
    (frees.trans (endOrder_keepsLaws (new := []) ..)).trans (nextWithdrawals_keepsLaws _)
  unfold scanStep
  repeat' split
  · exact inUse
  · exact goesOn rfl
  · exact inUse
  · exact goesOn rfl
  · exact (frees.then (endScanClean_rest ..) (endScanClean_standing ..)).trans (nextWithdrawals_keepsLaws _)

theorem stageProduct_keepsLaws (k : Fin 32) (s : State) : KeepsLaws [k] s (stageProduct k s) := by
  unfold stageProduct
  dsimp only
  repeat' split
  case isFalse.isTrue.isTrue => exact beginWithdrawal_keepsLaws ⟨k, _, _⟩ s
  case isFalse.isTrue.isFalse.isTrue =>
    refine .of_same rfl rfl rfl fun x => ?_
    simp only [flights_eq, List.map_append, List.map_cons, List.map_nil, List.count_append]
    omega
  case isFalse.isTrue.isFalse.isFalse => exact beginWithdrawal_keepsLaws ⟨k, _, _⟩ s
  all_goals exact .of_frame (by simp [placeProduct_rest]) (by simp [placeProduct_standing])

/-! ### The credit sweep (R138, R142 to R144) -/

/-- A closure begun keeps the rest and the standing, or starts its sweep. -/
theorem beginClosure_frame (o : ClosureOrder) (s : State) :
    ((beginClosure o s).rest = s.rest ∧ (beginClosure o s).standing = s.standing)
      ∨ ∃ m c, c.order = o ∧ beginClosure o s = { s with mem := m, creditSweep := some c } := by
  unfold beginClosure
  split
  · exact .inl ⟨endOrder_rest .., endOrder_standing ..⟩
  · split
    · exact .inr ⟨_, _, rfl, rfl⟩
    · exact .inl ⟨endOrder_rest .., endOrder_standing ..⟩

theorem beginClosure_keepsLaws (o : ClosureOrder) (s : State) : KeepsLaws [o.slot] s (beginClosure o s) := by
  rcases beginClosure_frame o s with ⟨hr, hl⟩ | ⟨m, c, hc, hstarts⟩
  · exact .of_frame hr hl
  · rw [hstarts]
    refine .of_same rfl rfl rfl fun k => ?_
    simp only [flights_eq, Option.map_some, Option.toList_some, hc]
    omega

theorem startClosures_keepsLaws (l : List ClosureOrder) (s : State) :
    KeepsLaws (l.map (·.slot)) { s with closuresWaiting := [] } (startClosures l s) := by
  induction l generalizing s with
  | nil => exact .refl _
  | cons o os ih =>
    unfold startClosures
    dsimp only
    split
    · rcases beginClosure_frame o s with ⟨hr, hl⟩ | ⟨m, c, hc, hstarts⟩
      · have hs := station_of_rest hr
        have hq := tapQueue_of_rest hr
        refine .of_same hl hs hq fun k => ?_
        simp only [flights_eq, List.map_cons, List.count_cons, List.map_nil, List.count_nil]
        rw [withdrawal_of_rest hr, creditSweep_of_rest hr, withdrawalsWaiting_of_rest hr, lanesWaiting_of_rest hr]
        omega
      · rw [hstarts]
        refine .of_same rfl rfl rfl fun k => ?_
        simp only [flights_eq, Option.map_some, Option.toList_some, List.map_cons, List.count_cons, List.map_nil,
          List.count_nil, hc]
        omega
    · next hidle =>
      rcases beginClosure_frame o s with ⟨hr, hl⟩ | ⟨m, c, hc, hstarts⟩
      · have hs := station_of_rest hr
        have hq := tapQueue_of_rest hr
        refine (ih (beginClosure o s)).from hl hs hq fun k => ?_
        simp only [flights_eq, List.map_cons, List.count_cons, List.map_nil, List.count_nil]
        rw [withdrawal_of_rest hr, creditSweep_of_rest hr, withdrawalsWaiting_of_rest hr, lanesWaiting_of_rest hr]
        omega
      · rw [hstarts] at hidle
        exact absurd rfl hidle

theorem endSweep_keepsLaws (c : CreditSweep) (cut : Bool) (s : State) : KeepsLaws [] s (endSweep c cut s) := by
  have frees : KeepsLaws [] s { s with creditSweep := none } :=
    .of_same rfl rfl rfl fun k => by simp only [flights_eq, Option.map_none, Option.toList_none, List.count_nil]; omega
  have waitingStarts (u : State) :
      KeepsLaws [] u (startClosures (sortBySlot (fun o => o.slot.val) u.closuresWaiting) u) := by
    refine (startClosures_keepsLaws _ u).from rfl rfl rfl fun k => ?_
    have sorted := ((sortBySlot_perm (fun o : ClosureOrder => o.slot.val) u.closuresWaiting).map (·.slot)).count_eq k
    simp only [flights_eq, sorted, List.map_nil, List.count_nil]
    omega
  exact (((frees.then (pokeResult_rest ..) (pokeResult_standing ..)).trans (endOrder_keepsLaws (new := []) ..)).then
    (appendUnpledged_rest ..) (appendUnpledged_standing ..)).trans (waitingStarts _)

theorem cutSweepShort_keepsLaws (s : State) : KeepsLaws [] s (cutSweepShort s) := by
  unfold cutSweepShort
  split
  · exact endSweep_keepsLaws _ true s
  · exact .refl s

theorem sweepStep_keepsLaws {c : CreditSweep} {s : State} (hc : s.creditSweep = some c) :
    KeepsLaws [] s (sweepStep c s) := by
  have credits : KeepsLaws [] s (if visitCredits s c.position then
      s.putPass c.position (creditEntry s.day (s.pass c.position)) else s) := by
    split
    · exact .of_frame (putPass_rest ..) (putPass_standing ..)
    · exact .refl s
  have still : (if visitCredits s c.position then s.putPass c.position (creditEntry s.day (s.pass c.position))
      else s).creditSweep = some c := by
    split
    · exact (creditSweep_of_rest (putPass_rest ..)).trans hc
    · exact hc
  unfold sweepStep
  dsimp only
  generalize (if visitCredits s c.position then s.putPass c.position (creditEntry s.day (s.pass c.position)) else s) = u
    at credits still ⊢
  split
  · refine credits.trans (.of_eq rfl rfl rfl (funext fun k => ?_))
    simp only [flights_eq, still, Option.map_some]
  · exact credits.trans (endSweep_keepsLaws _ false _)

theorem postClosure_keepsLaws (k : Fin 32) (s : State) : KeepsLaws [k] s (postClosure k s) := by
  unfold postClosure
  dsimp only
  repeat' split
  · exact endOrder_keepsLaws ..
  · refine .of_same rfl rfl rfl fun x => ?_
    simp only [flights_eq, List.map_append, List.map_cons, List.map_nil, List.count_append]
    omega
  · exact beginClosure_keepsLaws ⟨k, _, _, _, _⟩ s

/-! ### The bodies of the other orders -/

theorem noteReference_keepsLaws (index slot : Nat) (s : State) : KeepsLaws [] s (noteReference index slot s) := by
  refine .of_eq rfl rfl rfl (funext fun k => ?_)
  simp only [flights_eq, noteReference, Option.map_map]
  congr 5
  cases s.withdrawal with
  | none => rfl
  | some w =>
    simp only [Option.map_some, Function.comp_apply]
    split <;> rfl

theorem acceptInsert_keepsLaws (k : Fin 32) (uid : List Byte) (slot : Nat) (e : PassEntry) (s : State) :
    KeepsLaws [] s (acceptInsert k uid slot e s) := by
  have ended : KeepsLaws [] s (endOrder k .ok (s.putPass slot e)) := .of_frame (by simp) (by simp)
  have noted := ended.trans (noteReference_keepsLaws e.product slot _)
  unfold acceptInsert reevaluateAll
  exact noted.then (eachLane_rest (reevaluate_rest uid slot) _) (eachLane_standing (reevaluate_standing uid slot) _)

theorem insertPass_keepsLaws (k : Fin 32) (s : State) : KeepsLaws [k] s (insertPass k s) := by
  unfold insertPass
  dsimp only
  repeat' split
  · exact endOrder_keepsLaws ..
  · exact endOrder_keepsLaws ..
  · exact endOrder_keepsLaws ..
  · exact (acceptInsert_keepsLaws ..).widen
  · exact endOrder_keepsLaws ..
  · exact endOrder_keepsLaws ..
  · exact (acceptInsert_keepsLaws ..).widen

theorem amendPass_keepsLaws (k : Fin 32) (s : State) : KeepsLaws [k] s (amendPass k s) := by
  unfold amendPass
  repeat' split
  all_goals exact .of_frame (by simp) (by simp)

theorem removePass_keepsLaws (k : Fin 32) (s : State) : KeepsLaws [k] s (removePass k s) := by
  unfold removePass
  repeat' split
  all_goals exact .of_frame (by simp) (by simp)

theorem copyPass_keepsLaws (k : Fin 32) (s : State) : KeepsLaws [k] s (copyPass k s) := by
  unfold copyPass
  repeat' split
  all_goals exact .of_frame (by simp) (by simp)

theorem declineReferral_keepsLaws (k : Fin 32) (s : State) : KeepsLaws [k] s (declineReferral k s) := by
  unfold declineReferral
  repeat' split
  all_goals exact .of_frame (by simp) (by simp)

theorem settleQuote_keepsLaws (k : Fin 32) (s : State) : KeepsLaws [k] s (settleQuote k s) := by
  unfold settleQuote
  repeat' split
  all_goals exact .of_frame (by simp [pokeSettlement]) (by simp [pokeSettlement])

theorem acceptFinal_standing (k : Fin 32) (uid : List Byte) (slot : Nat) (f : Figures) (s : State) :
    (acceptFinal k uid slot f s).standing = s.standing := by
  have retired : (retire slot s).standing = s.standing := rfl
  simp [acceptFinal, pokeSettlement, retired]

theorem settleFinal_keepsLaws (k : Fin 32) (s : State) : KeepsLaws [k] s (settleFinal k s) := by
  unfold settleFinal
  repeat' split
  all_goals exact .of_frame (by simp [acceptFinal, pokeSettlement]) (by simp [acceptFinal_standing])

theorem setLaneOrder_keepsLaws (k : Fin 32) (s : State) : KeepsLaws [k] s (setLaneOrder k s) := by
  unfold setLaneOrder
  repeat' split
  · exact endOrder_keepsLaws ..
  · exact carrySetLane_keepsLaws ⟨k, _, _⟩ s
  · exact endOrder_keepsLaws ..

theorem with_lanes_mem_rest (s : State) (l : Quad Lane) (m : Memory) :
    ({ s with lanes := l, mem := m } : State).rest = s.rest := rfl

theorem mapInputsOrder_keepsLaws (k : Fin 32) (s : State) : KeepsLaws [k] s (mapInputsOrder k s) := by
  unfold mapInputsOrder
  repeat' split
  · exact endOrder_keepsLaws ..
  · exact endOrder_keepsLaws ..
  · exact endOrder_keepsLaws ..
  · exact .of_frame ((endOrder_rest ..).trans (with_lanes_mem_rest s _ _))
      ((endOrder_standing ..).trans (mapInputs_standing rfl))

theorem freeFlowOn_keepsLaws (k : Fin 32) (s : State) : KeepsLaws [k] s (freeFlowOn k s) := by
  unfold freeFlowOn
  split
  · exact ((startFreeFlow_keepsLaws false s).trans (endOrder_keepsLaws (new := []) ..)).widen
  · exact endOrder_keepsLaws ..

theorem freeFlowOff_keepsLaws (k : Fin 32) (s : State) : KeepsLaws [k] s (freeFlowOff k s) := by
  unfold freeFlowOff
  repeat' split
  · exact endOrder_keepsLaws ..
  · exact ((endFreeFlow_keepsLaws s).trans (endOrder_keepsLaws (new := []) ..)).widen
  · exact endOrder_keepsLaws ..

/-! ### The reader lines (R58) -/

/-- A tap that joins the queue takes the place of one that waits for its lane. -/
theorem queueTap_keepsLaws (q : TapRecord) (s : State) : KeepsLaws [] s (queueTap q s) := by
  refine .of_lanes rfl .rfl (fun h => ?_) fun _ => Nat.le_add_right ..
  simp only [oneTapPerLane, queueTap, List.map_append, List.map_cons, List.map_nil]
  refine List.Nodup.append (h.sublist (List.filter_sublist.map _)) (List.nodup_singleton _) ?_
  simp

theorem handTap_keepsLaws (q : TapRecord) (s : State) : KeepsLaws [] s (handTap q s) := by
  unfold handTap
  split
  · exact queueTap_keepsLaws q s
  · exact .of_frame (takeReturnTap_rest q s) (takeReturnTap_standing q s)
  · exact .refl s

theorem actTap_keepsLaws (p : Fin 4) (quality stamp : Nat) (uid : List Byte) (s : State) :
    KeepsLaws [] s (actTap p quality stamp uid s) := by
  have noted : KeepsLaws [] s (s.modPort p fun x => { x with repeatRec := some ⟨uid, s.now⟩ }) :=
    .of_frame (modPort_rest ..) (modPort_standing ..)
  unfold actTap
  dsimp only
  repeat' split
  · exact .refl s
  · exact .refl s
  · exact .refl s
  · exact handTap_keepsLaws _ s
  · exact noted
  · exact noted.trans (handTap_keepsLaws _ _)

theorem handleFrame_keepsLaws (p : Fin 4) (body : List Byte) (s : State) : KeepsLaws [] s (handleFrame p body s) := by
  have heard : KeepsLaws [] s (hearFrame p s) := .of_frame (hearFrame_rest p s) (hearFrame_standing p s)
  unfold handleFrame
  split
  · exact .refl s
  · exact heard.trans (actTap_keepsLaws ..)
  · exact heard.then (actGone_rest ..) (modPort_standing ..)
  · exact heard.then (actStatus_rest ..) (actStatus_standing ..)

theorem receiveByte_keepsLaws (p : Fin 4) (b : LineByte) (s : State) : KeepsLaws [] s (receiveByte p b s) := by
  unfold receiveByte
  repeat' split
  case h_4.isFalse.isTrue =>
    exact (KeepsLaws.of_frame (new := []) (modPort_rest ..) (modPort_standing ..)).trans (handleFrame_keepsLaws ..)
  all_goals exact .of_frame (by simp) (by simp)

theorem receiveLine_keepsLaws (p : Fin 4) (line : List LineByte) (s : State) : KeepsLaws [] s (receiveLine p line s) := by
  induction line generalizing s with
  | nil => exact .refl s
  | cons b bs ih => exact (receiveByte_keepsLaws p b s).trans (ih _)

/-! ### Passages and captures -/

theorem endPassage_keepsLaws (n : Fin 4) (p : Passage) (s : State) : KeepsLaws [] s (endPassage n p s) := by
  unfold endPassage
  split
  · exact (KeepsLaws.of_frame (new := []) (modLane_rest ..) (modLane_enter_standing ..)).trans (afterBusy_keepsLaws n _)
  · exact (KeepsLaws.of_frame (new := []) (enterReady_rest ..) (enterReady_standing ..)).trans (afterBusy_keepsLaws n _)

theorem confirmCapture_keepsLaws (n : Fin 4) (c : Capture) (s : State) : KeepsLaws [] s (confirmCapture n c s) := by
  have retired : (retire c.slot s).standing = s.standing := rfl
  exact (KeepsLaws.of_frame (new := []) (by simp) (by simp [retired])).trans (afterBusy_keepsLaws n _)

theorem abortCapture_keepsLaws (n : Fin 4) (c : Capture) (s : State) : KeepsLaws [] s (abortCapture n c s) :=
  (KeepsLaws.of_frame (new := []) (by simp) (by simp)).trans (afterBusy_keepsLaws n _)

theorem switchActivation_keepsLaws (n : Fin 4) (s : State) : KeepsLaws [] s (switchActivation n s) := by
  unfold switchActivation
  split
  · exact confirmCapture_keepsLaws n _ s
  · exact .of_frame (modLane_rest ..) (modLane_resetSettle_standing ..)

end Sys2Proof.Machine
end

section
/-! PROOFS. Every command keeps the ports exclusive, the windows with the station, one tap a lane and one order in flight
a slot (R56, R58, R113, R202). -/

namespace Sys2Proof.Machine

/-! ### Time, the Host Port and the starts of RUN and QUIET -/

theorem writeTimeMirror_standing (s : State) : (writeTimeMirror s).standing = s.standing := rfl

theorem rollTo_keepsLaws (day : Nat) (cut : Bool) (s : State) : KeepsLaws [] s (rollTo day cut s) := by
  have staged (m : Memory) : KeepsLaws [] s { s with day := day, ms := 0, mem := m } := .of_eq rfl rfl rfl rfl
  have swept (m : Memory) := (staged m).trans (cutSweepShort_keepsLaws _)
  unfold rollTo
  dsimp only
  exact ((((swept _).then (eachLane_rest (closeAtRollover_rest cut _) _)
    (eachLane_standing (closeAtRollover_standing cut _) _)).then (writeTimeMirror_rest _)
    (writeTimeMirror_standing _)).then (raise_rest _ .rollover) (raise_standing ..)).then (stationRecord_rest ..)
    (stationRecord_standing ..)

theorem moveTime_keepsLaws (day ms : Nat) (s : State) : KeepsLaws [] s (moveTime day ms s) := by
  have setMs (u : State) : KeepsLaws [] u { u with ms := ms } := .of_eq rfl rfl rfl rfl
  unfold moveTime backTo
  repeat' split
  · exact setMs s
  · exact (rollTo_keepsLaws day true s).trans (setMs _)
  · have back (m : Memory) : KeepsLaws [] s { s with day := day, ms := ms, mem := m } := .of_eq rfl rfl rfl rfl
    exact (back _).trans (cutSweepShort_keepsLaws _)

theorem setTime_keepsLaws (k : Fin 32) (s : State) : KeepsLaws [k] s (setTime k s) := by
  have isSet (u : State) : KeepsLaws [] u { u with timeSet := true } := .of_eq rfl rfl rfl rfl
  unfold setTime acceptTime
  dsimp only
  repeat' split
  · exact endOrder_keepsLaws ..
  · exact endOrder_keepsLaws ..
  · have moved := ((moveTime_keepsLaws (payload s k 8 2) (payload s k 10 4) s).then (writeTimeMirror_rest _)
      (writeTimeMirror_standing _)).then (stationRecord_rest .setTime false s.day s.ms _) (stationRecord_standing ..)
    exact (((moved.trans (isSet _)).then (handStep_rest s.day s.ms _) (handStep_standing ..)).then (endOrder_rest ..)
      (endOrder_standing ..)).widen

theorem addMs_keepsLaws (s : State) : KeepsLaws [] s (addMs s) := by
  have counted : KeepsLaws [] s { s with ms := s.ms + 1 } := .of_eq rfl rfl rfl rfl
  unfold addMs
  dsimp only
  split
  · exact counted.then (writeTimeMirror_rest _) (writeTimeMirror_standing _)
  · exact counted

theorem execTick_keepsLaws {sense : BitVec 16} {s t : State} (h : execTick sense s = .next t) : KeepsLaws [] s t := by
  unfold execTick at h
  generalize hu : ({ s with
    now := s.now + 1
    divider := s.dividerTaken
    carrier := s.carrier.run s.dividerTaken s.divider
    lanes := s.lanes.mapIdx fun _ l => tickLane s.divider s.carrier sense l
    ports := s.ports.mapIdx fun _ x => tickPort x } : State) = u at h
  cases h
  have sampled : KeepsLaws [] s u := by
    subst hu
    exact .of_eq (mapLanes_standing rfl fun _ _ => tickLane_standing ..) rfl rfl rfl
  have timed : KeepsLaws [] u (tickTime u) := by
    unfold tickTime
    repeat' split
    · exact .refl u
    · exact addMs_keepsLaws u
    · exact .of_eq rfl rfl rfl rfl
    · exact .refl u
  have swept (v : State) : KeepsLaws [] v (tickSweep v) := by
    unfold tickSweep
    repeat' split
    all_goals exact .of_eq rfl rfl rfl rfl
  have presence (v : State) : KeepsLaws [] v (tickPresence v) := by
    unfold tickPresence
    repeat' split
    all_goals exact .of_eq rfl rfl rfl rfl
  exact ((sampled.trans timed).trans (swept _)).trans (presence _)

theorem scanTo_keepsLaws (visit : Nat) (s : State) : KeepsLaws [] s (scanTo visit s) := by
  have marked := KeepsLaws.foldlSame (f := fun t slot => setMarker slot none t)
    (fun t _ => .of_frame (setMarker_rest ..) (setMarker_standing ..))
    (liveSlots s.mem s.startPos (min visit passSlots)) s
  have orders (u : State) (k : Fin 32) : KeepsLaws [] u (resetOrder s.startPos visit u k) := by
    unfold resetOrder
    split
    · exact endOrder_keepsLaws ..
    · exact .refl u
  have moved (u : State) : KeepsLaws [] u { u with startPos := visit } := .of_eq rfl rfl rfl rfl
  exact (marked.trans (KeepsLaws.foldlSame orders _ _)).trans (moved _)

theorem drainHeld_lanes (l : List Record) (s : State) : (drainHeld l s).lanes = s.lanes := by
  induction l generalizing s with
  | nil => rfl
  | cons r l ih =>
    unfold drainHeld
    split
    · rw [ih, ringWrite_lanes]
    · rfl

theorem hostWrite_keepsLaws (a : Nat) (v : Word) (s : State) : KeepsLaws [] s (hostWrite a v s) := by
  have counted (u : State) (m : Memory) (p c : Nat) :
      KeepsLaws [] u { u with mem := m, startPos := p, freeCount := c } := .of_eq rfl rfl rfl rfl
  have advances : KeepsLaws [] s (advanceStart s) := by
    unfold advanceStart
    split
    · exact counted s _ _ _
    · exact (scanTo_keepsLaws _ s).trans (counted _ (scanTo _ s).mem (scanTo _ s).startPos _)
    · exact .refl s
  have offers (u : State) : KeepsLaws [] u (offerReadIndex v.toNat u) := by
    unfold offerReadIndex
    split
    · exact .of_frame (drainHeld_rest ..) (standing_of_lanes (drainHeld_lanes ..))
    · exact .refl u
  have written := advances.then (poke_rest _ a 2 v.toNat) (poke_standing ..)
  unfold hostWrite
  dsimp only
  split
  · exact written.trans (offers _)
  · exact written

/-- A RUN opens a window on every lane as the station starts to count. -/
theorem startRunning_keepsLaws {s : State} : KeepsLaws [] s (startRunning s) := by
  have opened (n : Fin 4) (v : State) : (openWindow n (windowAt v true false false) v).standing =
      Function.update v.standing n ((v.standing n).1, (v.standing n).2.1, true) := by
    funext m
    simp only [State.standing, openWindow, State.lane, State.modLane, State.setLane, Quad.get_set, Function.update]
    split
    · next hm =>
      subst hm
      rfl
    · rfl
  have openedRest (n : Fin 4) (v : State) : (openWindow n (windowAt v true false false) v).rest = v.rest := openWindow_rest ..
  have ran (v : State) : (stationRecord .run false 0 0 (changeService s (eachLane startLane (startWindows v)))).rest = v.rest := by
    rw [stationRecord_rest, changeService_rest, eachLane_rest startLane_rest]
    exact eachLane_rest openedRest v
  have standing (v : State) (n : Fin 4) :
      (stationRecord .run false 0 0 (changeService s (eachLane startLane (startWindows v)))).standing n =
        ((v.standing n).1, (v.standing n).2.1, true) := by
    rw [stationRecord_standing, changeService_standing, eachLane_standing startLane_standing]
    simp only [startWindows, eachLane, allFour, List.foldl_cons, List.foldl_nil, opened]
    fin_cases n <;> simp [Function.update]
  unfold startRunning
  dsimp only
  generalize hv : ({ startPresence (takeOptions s) with
    timeUnsetRefused := false, sweepTimer := 0, station := .running } : State) = v
  have ready : v.standing = s.standing ∧ v.station = .running ∧ v.tapQueue = s.tapQueue ∧ v.flights = s.flights := by
    subst hv
    exact ⟨rfl, rfl, rfl, rfl⟩
  obtain ⟨hl, hs, hq, ho⟩ := ready
  refine ⟨fun h n m hnm c hc d hd => ?_, fun _ n => ?_, ?_, fun k => ?_⟩
  · change c ∈ configsOf (State.standing _ n) at hc
    change d ∈ configsOf (State.standing _ m) at hd
    rw [standing, hl] at hc hd
    exact h n m hnm c hc d hd
  · change (State.standing _ n).2.2 = true ↔ _
    rw [standing, station_of_rest (ran v), hs]
    simp
  · rw [oneTapPerLane, oneTapPerLane, tapQueue_of_rest (ran v), hq]
    exact id
  · rw [flights_of_rest (ran v), ho]
    exact Nat.le_add_right ..

theorem requestRun_keepsLaws (s : State) : KeepsLaws [] s (requestRun s) := by
  unfold requestRun
  repeat' split
  · exact startRunning_keepsLaws
  · exact .of_eq rfl rfl rfl rfl
  · exact .refl s

theorem requestQuiet_keepsLaws (s : State) : KeepsLaws [] s (requestQuiet s) := by
  unfold requestQuiet
  split
  · next hs =>
    have quieting : KeepsLaws [] s
        { s with station := .quieting, tapQueue := [], presenceTimer := 0, presenceDue := false } :=
      .of_lanes rfl (by simp [hs]) (fun _ => List.nodup_nil) fun _ => Nat.le_add_right ..
    exact (quieting.then (eachLane_rest windDown_rest _) (eachLane_standing windDown_standing _)).trans
      (quietIfIdle_keepsLaws _)
  · exact .refl s

theorem samplePresence_keepsLaws (s : State) : KeepsLaws [] s (samplePresence s) := by
  have sampled (v c : Nat) : KeepsLaws [] s { s with presenceDue := false, presenceValue := v, presenceCount := c } :=
    .of_eq rfl rfl rfl rfl
  have offline (u : State) : KeepsLaws [] u (goOffline u) := by
    have lost : KeepsLaws [] u { u with online := false } := .of_eq rfl rfl rfl rfl
    exact ((lost.then (raise_rest _ .presence) (raise_standing ..)).then (stationRecord_rest ..)
      (stationRecord_standing ..)).then (eachLane_rest markOffline_rest _) (eachLane_standing markOffline_standing _)
  have online (u : State) : KeepsLaws [] u (goOnline u) := by
    have back : KeepsLaws [] u { u with online := true } := .of_eq rfl rfl rfl rfl
    exact (back.then (raise_rest _ .presence) (raise_standing ..)).then (stationRecord_rest ..) (stationRecord_standing ..)
  unfold samplePresence
  dsimp only
  repeat' split
  · exact (sampled s.presenceValue _).trans (offline _)
  · exact sampled s.presenceValue _
  · exact sampled _ 0
  · exact (sampled _ 0).trans (online _)

theorem sweepVisit_keepsLaws (s : State) : KeepsLaws [] s (sweepVisit s) := by
  unfold sweepVisit
  repeat' split
  all_goals exact .of_eq rfl rfl rfl rfl

/-! ### The resets -/

/-- A state as a reset leaves it has nothing for the laws to fail at. -/
theorem KeepsLaws.of_reset {s t : State} (hl : t.standing = State.reset.standing) (hs : t.station = .starting)
    (hq : t.tapQueue = []) (ho : t.flights = State.reset.flights) : KeepsLaws [] s t where
  ports _ := by
    have down (n : Fin 4) (c : LaneConfig) (hc : c ∈ configsOf (State.reset.standing n)) : c.role = .down := by
      fin_cases n <;> simp_all [configsOf, State.standing, State.lane, State.reset, lanesAtReset, Quad.get, Lane.atReset,
        Lane.standing, LaneConfig.atReset]
    rw [portsExclusive_iff, hl]
    intro n m _ c hc d _ hclash
    exact hclash.1 (down n c hc)
  windows _ := by
    rw [windowsFollowStation_iff, hl, hs]
    intro n
    fin_cases n <;> simp [State.standing, State.lane, State.reset, lanesAtReset, Quad.get, Lane.atReset, Lane.standing]
  taps _ := by
    rw [oneTapPerLane, hq]
    exact List.nodup_nil
  orders k := by
    rw [ho]
    exact Nat.zero_le _

theorem powerOn_keepsLaws (s : State) : KeepsLaws [] s (powerOn s) := .of_reset rfl rfl rfl rfl

theorem pinReset_keepsLaws (s : State) : KeepsLaws [] s (pinReset s) := by
  unfold pinReset
  generalize journalAtPinReset s = j
  have loaded (m : Memory) (l : Quad Lane) (hl : ∀ t : State, t.lanes = l → t.standing = State.reset.standing) :
      KeepsLaws [] s { State.reset with
        mem := m, evacuatePin := s.evacuatePin, pending := s.pending, freeCount := s.freeCount
        startPhase := .scan, journal := j, lanes := l } :=
    .of_reset (hl _ rfl) rfl rfl rfl
  unfold reloadInputs
  split
  · exact loaded _ _ fun _ ht => mapInputs_standing ht
  · exact loaded _ _ fun _ ht => standing_of_lanes ht

theorem enterQuiet_keepsLaws {s : State} (hs : ¬(s.station = .running ∨ s.station = .quieting)) : KeepsLaws [] s (enterQuiet s) := by
  have quiet (b : Bool) :
      KeepsLaws [] s { s with station := .quiet, sweepTimer := 0, startPos := 0, evacuate := b } :=
    .of_lanes rfl (by simp [hs]) id fun _ => Nat.le_add_right ..
  unfold enterQuiet
  dsimp only
  split
  · exact (quiet true).trans (assertEvacuate_keepsLaws _)
  · exact quiet s.evacuate

theorem finishFill_keepsLaws (straps : BitVec 6) (s : State) : KeepsLaws [] s (finishFill straps s) := by
  have filled (m : Memory) (p lift : Nat) : KeepsLaws [] s { s with mem := m, startPos := p, liftNumber := lift } :=
    .of_eq rfl rfl rfl rfl
  unfold finishFill noFlowIndices writeHeader zeroMirrors fillTo
  dsimp only
  exact (filled _ _ _).then (writeLaneBlocks_rest _) (standing_of_lanes (writeLaneBlocks_lanes _))

theorem finishScan_keepsLaws (straps : BitVec 6) (s : State) : KeepsLaws [] s (finishScan straps s) := by
  have headed (u : State) (lift : Nat) (m : Memory) : KeepsLaws [] u { u with liftNumber := lift, mem := m } :=
    .of_eq rfl rfl rfl rfl
  have timed (u : State) : KeepsLaws [] u (takeMirrorTime u) := by
    have taken (day ms : Nat) (m : Memory) : KeepsLaws [] u { u with day := day, ms := ms, mem := m } :=
      .of_eq rfl rfl rfl rfl
    unfold takeMirrorTime
    split
    · exact taken 0 0 _
    · exact taken _ _ u.mem
  unfold finishScan writeHeader
  dsimp only
  exact ((((scanTo_keepsLaws scanVisits s).trans (headed _ _ _)).trans (timed _)).then
    (eachLane_rest takeFlowPosition_rest _) (eachLane_standing takeFlowPosition_standing _)).then (writeLaneBlocks_rest _)
    (standing_of_lanes (writeLaneBlocks_lanes _))

/-! ### The commands -/

/-- What a step keeps: ports exclusive, windows with the station, one tap a lane, one order in flight a slot. -/
def LawsKept (s t : State) : Prop :=
  (portsExclusive s → portsExclusive t) ∧ (windowsFollowStation s → windowsFollowStation t)
    ∧ (oneTapPerLane s → oneTapPerLane t) ∧ (ordersDistinct s → ordersDistinct t)

/-- The laws are kept where the slots that came into flight were free. -/
theorem KeepsLaws.kept {new : List (Fin 32)} {s t : State} (h : KeepsLaws new s t)
    (free : ordersDistinct s → ∀ k, s.flights k + new.count k ≤ 1) : LawsKept s t :=
  ⟨h.ports, h.windows, h.taps, fun hs => (ordersDistinct_iff t).mpr fun k => (h.orders k).trans (free hs k)⟩

/-- Whatever a command answers next, the laws are kept. -/
def AnswersLawful (s : State) (o : Host.Outcome State Fault Refusal) : Prop := ∀ t, o = .next t → LawsKept s t

theorem KeepsLaws.answers {s t : State} (h : KeepsLaws [] s t) : AnswersLawful s (.next t) := by
  intro u hu
  cases hu
  exact h.kept fun hs k => (ordersDistinct_iff s).mp hs k

theorem KeepsLaws.settled {new : List (Fin 32)} {s u : State} (h : KeepsLaws new s u) :
    KeepsLaws new s (settleOutputs s u) := h.then (settleOutputs_rest s u) (settleOutputs_standing s u)

theorem KeepsLaws.answersEvent {s u : State} (h : KeepsLaws [] s u) : AnswersLawful s (event s u) := h.settled.answers

/-- An event or nothing, as a command's guard decides. -/
theorem AnswersLawful.ite {c : Prop} [Decidable c] {s u : State} (h : c → KeepsLaws [] s u) :
    AnswersLawful s (if c then event s u else .next s) := by
  split
  · next hc => exact (h hc).answersEvent
  · exact (KeepsLaws.refl s).answers

/-- A slot that a visit takes is held by no order in flight. -/
theorem flights_of_nextOrder {s : State} {k : Fin 32} (h : nextOrder s = some k) : s.flights k = 0 := by
  obtain ⟨_, _, hfree⟩ := (nextOrder_eq s k).mp h
  unfold inFlight at hfree
  simp only [Bool.or_eq_false_iff, List.any_eq_false, decide_eq_true_eq, Fin.val_inj] at hfree
  obtain ⟨⟨⟨⟨hw, hww⟩, hc⟩, hcw⟩, hl⟩ := hfree
  rw [flights_eq]
  have none₁ : (s.withdrawal.map (·.order.slot)).toList.count k = 0 := by
    cases hws : s.withdrawal with
    | none => rfl
    | some w => simpa [hws, List.count_cons] using hw
  have none₂ : (s.creditSweep.map (·.order.slot)).toList.count k = 0 := by
    cases hcs : s.creditSweep with
    | none => rfl
    | some c => simpa [hcs, List.count_cons] using hc
  have none₃ : (s.withdrawalsWaiting.map (·.slot)).count k = 0 := List.count_eq_zero.mpr (by simpa using hww)
  have none₄ : (s.closuresWaiting.map (·.slot)).count k = 0 := List.count_eq_zero.mpr (by simpa using hcw)
  have none₅ : (s.lanesWaiting.map (·.slot)).count k = 0 := List.count_eq_zero.mpr (by simpa using hl)
  omega

theorem takeSlot_keepsLaws (k : Fin 32) (s : State) : KeepsLaws [] s (takeSlot k s) := .of_eq rfl rfl rfl rfl

/-- A visit keeps the laws: its order is the one that came into flight, at a slot no order held (R202). -/
theorem visit_lawful (k : Fin 32) (isRow : State → Bool) {body : State → State} (hb : ∀ u, KeepsLaws [k] u (body u))
    (s : State) : AnswersLawful s (visit k isRow body s) := by
  unfold visit
  split
  · next hrow =>
    intro t ht
    cases ht
    refine (((takeSlot_keepsLaws k s).trans (hb _)).settled).kept fun hs x => ?_
    have hx := (ordersDistinct_iff s).mp hs x
    have hk := flights_of_nextOrder hrow.1
    by_cases hxk : x = k
    · subst hxk
      simp [hk]
    · simpa [List.count_cons, Ne.symm hxk] using hx
  · exact (KeepsLaws.refl s).answers

theorem deliver_lawful (p : Fin 4) (line : List LineByte) (s : State) : AnswersLawful s (deliver p line s) := by
  unfold deliver
  split
  · exact (KeepsLaws.refl s).answers
  · exact (receiveLine_keepsLaws p line s).answersEvent

/-- A change of one lane that keeps its standing. -/
theorem modLane_keepsLaws (s : State) (n : Fin 4) {f : Lane → Lane}
    (hf : ∀ l, (f l).standing = l.standing := by intro _; rfl) :
    KeepsLaws [] s (s.modLane n f) := .of_frame (modLane_rest ..) (modLane_standing s n hf)

/-- An edge taken: the input flips, and a lane that acts on it goes on. -/
theorem edge_keepsLaws {n : Fin 4} {acts : Prop} [Decidable acts] {f : Lane → Lane} {g : State → State}
    (h : ∀ u, KeepsLaws [] u (g u)) (s : State) (hf : ∀ l, (f l).standing = l.standing := by intro _; rfl) :
    KeepsLaws [] s (if acts then g (s.modLane n f) else s.modLane n f) := by
  have flips : KeepsLaws [] s (s.modLane n f) := modLane_keepsLaws s n hf
  split
  · exact flips.trans (h _)
  · exact flips

theorem execTapTake_lawful (s : State) : AnswersLawful s (execTapTake s) := by
  unfold execTapTake
  split
  · exact (KeepsLaws.refl s).answers
  · next q rest hq =>
    have taken : KeepsLaws [] s { s with tapQueue := rest } :=
      .of_lanes rfl .rfl (fun h => by
        rw [oneTapPerLane, hq, List.map_cons] at h
        exact h.of_cons) fun _ => Nat.le_add_right ..
    dsimp only
    split
    · exact (taken.then (handleTap_rest ..) (handleTap_standing ..)).answersEvent
    · exact taken.answers

theorem execExitBeamClear_lawful (n : Fin 4) (s : State) : AnswersLawful s (execExitBeamClear n s) := by
  unfold execExitBeamClear
  dsimp only
  split
  · split
    · next p _ => exact (edge_keepsLaws (endPassage_keepsLaws n p) s).answersEvent
    · exact (modLane_keepsLaws s n).answersEvent
  · exact (KeepsLaws.refl s).answers

theorem execEvacuate_lawful (s : State) : AnswersLawful s (execEvacuate s) := by
  have sampled (b : Bool) : KeepsLaws [] s { s with evacuate := b, evacuatePin := true } := .of_eq rfl rfl rfl rfl
  unfold execEvacuate
  dsimp only
  repeat' split
  · exact (sampled s.evacuate).answers
  · exact (sampled true).answersEvent
  · exact ((sampled true).trans (assertEvacuate_keepsLaws _)).answersEvent

theorem execRollover_lawful (s : State) : AnswersLawful s (execRollover s) := by
  have taken : KeepsLaws [] s { s with dayEnd := false } := .of_eq rfl rfl rfl rfl
  unfold execRollover
  dsimp only
  repeat' split
  · exact (taken.trans (addMs_keepsLaws _)).answersEvent
  · exact (taken.trans (rollTo_keepsLaws _ false _)).answersEvent
  · exact taken.answers
  · exact (KeepsLaws.refl s).answers

theorem execRegisterWrite_lawful (rs : Bool) (address : BitVec 17) (v : Word) (s : State) :
    AnswersLawful s (execRegisterWrite rs address v s) := by
  unfold execRegisterWrite writeRegister
  repeat' split
  · exact (KeepsLaws.refl s).answersEvent
  · exact (KeepsLaws.of_eq (t := clearAttn v s) rfl rfl rfl rfl).answersEvent
  · exact (KeepsLaws.of_eq (t := writeAttnMask v s) rfl rfl rfl rfl).answersEvent
  · exact (requestRun_keepsLaws s).answersEvent
  · exact (requestQuiet_keepsLaws s).answersEvent
  · exact (KeepsLaws.refl s).answersEvent
  · exact (hostWrite_keepsLaws _ v s).answers

theorem exec_lawful (c : Instr) (s : State) : AnswersLawful s (exec c s) := by
  have stays := (KeepsLaws.refl s).answers
  cases c with
  | powerOnReset => exact (powerOn_keepsLaws s).answers
  | pinReset =>
    simp only [exec, execPinReset]
    split
    · exact (powerOn_keepsLaws s).answers
    · exact (pinReset_keepsLaws s).answersEvent
  | fillDone straps =>
    simp only [exec, execFillDone]
    refine .ite fun hs => (finishFill_keepsLaws straps s).trans (enterQuiet_keepsLaws fun hf => ?_)
    simpa [hs.1] using (finishFill_keepsTime straps s).station hf
  | restartScanDone straps =>
    simp only [exec, execRestartScanDone]
    refine .ite fun hs => (finishScan_keepsLaws straps s).trans (enterQuiet_keepsLaws fun hf => ?_)
    obtain ⟨_, _, _, moved⟩ := finishScan_moves straps s
    simpa [hs.1] using moved.station hf
  | tick sense => exact fun t ht => (execTick_keepsLaws ht).answers t rfl
  | rollover => exact execRollover_lawful s
  | setTime k => exact visit_lawful k _ (setTime_keepsLaws k) s
  | runRequest => exact (requestRun_keepsLaws s).answersEvent
  | registerWrite rs address v => exact execRegisterWrite_lawful rs address v s
  | windowEnd =>
    exact (KeepsLaws.of_frame (eachLane_rest closeAtEnd_rest s) (eachLane_standing closeAtEnd_standing s)).answersEvent
  | tap p q stamp uid => exact deliver_lawful p (soundLine (frameBytes (tapBody q stamp uid))) s
  | gone p uid => exact deliver_lawful p (soundLine (frameBytes (goneBody uid))) s
  | status p code => exact deliver_lawful p (soundLine (frameBytes [0x03, code])) s
  | badFrame p line => exact deliver_lawful p line s
  | malformedFrame p body => exact deliver_lawful p (soundLine (frameBytes body)) s
  | frameDroppedForLength p length => exact deliver_lawful p (soundLine [0xA5, length]) s
  | gapTimeout p =>
    simp only [exec, execGapTimeout]
    split
    · exact (KeepsLaws.of_frame (modPort_rest ..) (modPort_standing ..)).answers
    · exact stays
  | silent p =>
    simp only [exec, execSilent]
    exact .ite fun _ => .of_frame (setCauses_rest ..) (setCauses_standing ..)
  | showEnd p =>
    simp only [exec, execShowEnd]
    exact (KeepsLaws.of_frame (modPort_rest ..) (modPort_standing ..)).answers
  | tapTake => exact execTapTake_lawful s
  | grantWindow n =>
    simp only [exec, execGrantWindow]
    split
    · exact .ite fun _ => .of_frame (voidToReady_rest ..) (voidToReady_standing ..)
    · exact stays
  | holdLimit n =>
    simp only [exec, execHoldLimit]
    split
    · exact .ite fun _ => .of_frame (voidToReady_rest ..) (voidToReady_standing ..)
    · exact stays
  | referralTimeout n =>
    simp only [exec, execReferralTimeout]
    split
    · exact .ite fun _ => .of_frame (denyReferralToReady_rest ..) (denyReferralToReady_standing ..)
    · exact stays
  | sweep => exact (sweepVisit_keepsLaws s).answers
  | insertPass k => exact visit_lawful k _ (insertPass_keepsLaws k) s
  | amendPass k => exact visit_lawful k _ (amendPass_keepsLaws k) s
  | removePass k => exact visit_lawful k _ (removePass_keepsLaws k) s
  | readPass k => exact visit_lawful k _ (copyPass_keepsLaws k) s
  | declineReferral k => exact visit_lawful k _ (declineReferral_keepsLaws k) s
  | settlePassQuote k =>
    simp only [exec, execSettlePassQuote]
    exact visit_lawful k _ (settleQuote_keepsLaws k) s
  | settlePassFinal k =>
    simp only [exec, execSettlePassFinal]
    exact visit_lawful k _ (settleFinal_keepsLaws k) s
  | stageProduct k => exact visit_lawful k _ (stageProduct_keepsLaws k) s
  | withdrawalScan =>
    simp only [exec, execWithdrawalScan]
    split
    · next hw => exact .ite fun _ => scanStep_keepsLaws hw
    · exact stays
  | postClosure k => exact visit_lawful k _ (postClosure_keepsLaws k) s
  | creditSweep =>
    simp only [exec, execCreditSweep]
    split
    · next hc => exact .ite fun _ => sweepStep_keepsLaws hc
    · exact stays
  | setLane k => exact visit_lawful k _ (setLaneOrder_keepsLaws k) s
  | mapInputs k => exact visit_lawful k _ (mapInputsOrder_keepsLaws k) s
  | freeFlowOn k =>
    simp only [exec, execFreeFlowOn]
    exact visit_lawful k _ (freeFlowOn_keepsLaws k) s
  | freeFlowOff k =>
    simp only [exec, execFreeFlowOff]
    exact visit_lawful k _ (freeFlowOff_keepsLaws k) s
  | unknownKind k => exact visit_lawful k _ (endOrder_keepsLaws k .unknownKind) s
  | quietRequest => exact (requestQuiet_keepsLaws s).answersEvent
  | attnClear | attnMaskWrite => exact (KeepsLaws.of_eq rfl rfl rfl rfl).answers
  | presenceSample =>
    simp only [exec, execPresenceSample]
    exact .ite fun _ => samplePresence_keepsLaws s
  | journalReadIndex v =>
    simp only [exec, execJournalReadIndex]
    exact (hostWrite_keepsLaws _ v s).answers
  | indexPulse n =>
    simp only [exec, execIndexPulse]
    exact .ite fun _ => edge_keepsLaws (fun u => .of_frame (pulse_rest n u) (pulse_standing n u)) s
  | entryBeamBlock n =>
    simp only [exec, execEntryBeamBlock]
    exact .ite fun _ => edge_keepsLaws (fun u => .of_frame (entryBlock_rest n u) (entryBlock_standing n u)) s
  | entryBeamClear n =>
    simp only [exec, execEntryBeamClear]
    exact .ite fun _ => modLane_keepsLaws s n
  | exitBeamBlock n =>
    simp only [exec, execExitBeamBlock]
    exact .ite fun _ => edge_keepsLaws (fun u => .of_frame (exitBlock_rest n u) (exitBlock_standing n u)) s
  | exitBeamClear n => exact execExitBeamClear_lawful n s
  | passingEnd n =>
    simp only [exec, execPassingEnd]
    split
    · exact .ite fun _ => endPassage_keepsLaws n _ s
    · exact stays
  | settle n =>
    simp only [exec, execSettle]
    split
    · exact .ite fun _ => .of_frame (enterReady_rest n s) (enterReady_standing n s)
    · exact stays
  | beamStuck n exit =>
    simp only [exec, execBeamStuck]
    exact .ite fun _ => .of_frame (enterFault_rest ..) (enterFault_standing ..)
  | switchStuck n =>
    simp only [exec, execSwitchStuck]
    exact .ite fun _ => .of_frame (enterFault_rest ..) (enterFault_standing ..)
  | duckWatchClose n =>
    simp only [exec, execDuckWatchClose]
    repeat' split
    · exact (modLane_keepsLaws s n).answers
    · exact stays
    · exact stays
  | captureSwitchActivation n =>
    simp only [exec, execCaptureSwitchActivation]
    exact .ite fun _ => edge_keepsLaws (switchActivation_keepsLaws n) s
  | captureSwitchRelease n =>
    simp only [exec, execCaptureSwitchRelease]
    exact .ite fun _ => modLane_keepsLaws s n
  | captureTimeout n =>
    simp only [exec, execCaptureTimeout]
    split
    · exact .ite fun _ => abortCapture_keepsLaws n _ s
    · exact stays
  | evacuate => exact execEvacuate_lawful s
  | evacuateLow =>
    have low : KeepsLaws [] s { s with evacuate := false, evacuatePin := false } := .of_eq rfl rfl rfl rfl
    exact low.answersEvent
  | lockPulseEnd n =>
    simp only [exec, execLockPulseEnd]
    repeat' split
    · exact (modLane_keepsLaws s n).answers
    · exact stays
    · exact stays
  | cueEntry n =>
    simp only [exec, execCueEntry]
    split
    · exact .ite fun _ => modLane_keepsLaws s n
    · exact stays

/-- Settles O58: a step on an empty queue is none, and every command keeps the four laws. -/
theorem stepKeepsPortsWindowsTaps : Obligations.StepKeepsPortsWindowsTaps := by
  intro s t h
  unfold step at h
  split at h
  · cases h
    exact ⟨id, id, id, id⟩
  · next c rest _ => exact exec_lawful c { s with pending := rest } t h

end Sys2Proof.Machine
end

section
/-! PROOFS. The parser of a reader port over whole frames: a well-summed frame reaches its kind, every other is dropped (R44 to
R49). -/

namespace Sys2Proof.Machine

/-! ### A port written over -/

theorem setPort_setPort (s : State) (p : Fin 4) (x y : Port) : (s.setPort p x).setPort p y = s.setPort p y := by
  have hset : (s.ports.set p x).set p y = s.ports.set p y :=
    Quad.ext_get fun q => by
      simp only [Quad.get_set]
      split <;> rfl
  unfold State.setPort
  dsimp only
  rw [hset]

theorem setPort_modPort (s : State) (p : Fin 4) (x : Port) (f : Port → Port) :
    (s.setPort p x).modPort p f = s.setPort p (f x) := by
  unfold State.modPort
  rw [port_setPort_same, setPort_setPort]

theorem setPort_self (s : State) (p : Fin 4) : s.setPort p (s.port p) = s := by
  have hset : s.ports.set p (s.ports.get p) = s.ports :=
    Quad.ext_get fun q => by
      rw [Quad.get_set]
      split
      · next hq => rw [hq]
      · rfl
  unfold State.setPort State.port
  rw [hset]

/-! ### One byte (R44, R45, R47) -/

/-- A broken byte behind SYNC drops the frame and counts it. -/
theorem receiveByte_broken {s : State} {p : Fin 4} (h : (s.port p).parser ≠ .hunt) (v : Byte) :
    receiveByte p ⟨v, true⟩ s = s.setPort p ((s.port p).parse .hunt).addBadFrame := by
  unfold receiveByte
  split
  · next hp => exact absurd hp h
  · rfl
  · rfl
  · rfl

theorem receiveByte_sync {s : State} {p : Fin 4} (h : (s.port p).parser = .hunt) :
    receiveByte p ⟨0xA5, false⟩ s = s.setPort p ((s.port p).parse .length) := by
  unfold receiveByte
  rw [h]
  exact if_pos ⟨rfl, rfl⟩

theorem receiveByte_length (s : State) (p : Fin 4) (x : Port) {b : Byte} (h : 1 ≤ b.toNat ∧ b.toNat ≤ 24) :
    receiveByte p ⟨b, false⟩ (s.setPort p (x.parse .length)) = s.setPort p (x.parse (.body b.toNat [])) := by
  unfold receiveByte
  rw [port_setPort_same]
  simp only [Port.parse, h, and_self, Bool.false_eq_true, if_false, if_true, setPort_modPort]

theorem receiveByte_badLength (s : State) (p : Fin 4) (x : Port) {b : Byte} (h : ¬(1 ≤ b.toNat ∧ b.toNat ≤ 24)) :
    receiveByte p ⟨b, false⟩ (s.setPort p (x.parse .length)) = s.setPort p (x.parse .hunt) := by
  unfold receiveByte
  rw [port_setPort_same]
  simp only [Port.parse, h, Bool.false_eq_true, if_false, setPort_modPort]

theorem receiveByte_body (s : State) (p : Fin 4) (x : Port) (len : Nat) (held : List Byte) (b : Byte) :
    receiveByte p ⟨b, false⟩ (s.setPort p (x.parse (.body len held))) =
      s.setPort p (x.parse (if held.length + 1 < len then .body len (held ++ [b]) else .check len (held ++ [b]))) := by
  unfold receiveByte
  rw [port_setPort_same]
  simp only [Port.parse, Bool.false_eq_true, if_false, setPort_modPort]
  split <;> rfl

theorem receiveByte_check (s : State) (p : Fin 4) (x : Port) (len : Nat) (held : List Byte) (b : Byte) :
    receiveByte p ⟨b, false⟩ (s.setPort p (x.parse (.check len held))) =
      if BitVec.ofNat 8 len + byteSum held + b = 0 then handleFrame p held (s.setPort p (x.parse .hunt))
      else s.setPort p (x.parse .hunt).addBadFrame := by
  unfold receiveByte
  rw [port_setPort_same]
  simp only [Port.parse, Bool.false_eq_true, if_false, setPort_modPort]

/-! ### A frame (R43) -/

/-- The bytes of a body collected up to the last. -/
theorem receiveLine_body (s : State) (p : Fin 4) (x : Port) (len : Nat) (rest : List LineByte) (bs held : List Byte)
    (b : Byte) (hlen : held.length + bs.length + 1 = len) :
    receiveLine p (soundLine (b :: bs) ++ rest) (s.setPort p (x.parse (.body len held))) =
      receiveLine p rest (s.setPort p (x.parse (.check len (held ++ b :: bs)))) := by
  induction bs generalizing b held with
  | nil =>
    simp only [List.length_nil, Nat.add_zero] at hlen
    simp [soundLine, receiveLine, receiveByte_body, hlen]
  | cons c bs ih =>
    simp only [List.length_cons] at hlen
    have hmore : held.length + 1 < len := by omega
    have hrest := ih (held ++ [b]) c (by simp; omega)
    simp only [soundLine, List.map_cons, List.cons_append, receiveLine] at hrest ⊢
    rw [receiveByte_body, if_pos hmore, hrest, List.append_assoc, List.singleton_append]

/-- A frame whose length byte is in range, up to its sum byte. -/
theorem receiveLine_frame {s : State} {p : Fin 4} (h : (s.port p).parser = .hunt) {body : List Byte}
    (hlow : 1 ≤ body.length) (hhigh : body.length ≤ 24) (sum : Byte) :
    receiveLine p (soundLine (0xA5 :: BitVec.ofNat 8 body.length :: (body ++ [sum]))) s =
      receiveByte p ⟨sum, false⟩ (s.setPort p ((s.port p).parse (.check body.length body))) := by
  have hlen : (BitVec.ofNat 8 body.length).toNat = body.length := by
    rw [BitVec.toNat_ofNat]
    omega
  have hstart : receiveByte p ⟨BitVec.ofNat 8 body.length, false⟩ (s.setPort p ((s.port p).parse .length)) =
      s.setPort p ((s.port p).parse (.body body.length [])) := by
    rw [receiveByte_length _ _ _ (by omega), hlen]
  obtain ⟨b, bs, rfl⟩ := List.exists_cons_of_length_pos hlow
  have hbody := receiveLine_body s p (s.port p) (b :: bs).length [⟨sum, false⟩] bs [] b (by simp)
  simp only [soundLine, List.map_cons, List.map_append, List.map_nil, receiveLine, receiveByte_sync h, hstart] at hbody ⊢
  exact hbody

theorem foldl_byte_add_toNat (bs : List Byte) (a : Byte) :
    (bs.foldl (· + ·) a).toNat = (a.toNat + (bs.map BitVec.toNat).sum) % 256 := by
  induction bs generalizing a with
  | nil => exact (Nat.mod_eq_of_lt a.isLt).symm
  | cons b bs ih =>
    rw [List.foldl_cons, ih, BitVec.toNat_add, List.map_cons, List.sum_cons]
    omega

theorem byteSum_toNat (bs : List Byte) : (byteSum bs).toNat = (bs.map BitVec.toNat).sum % 256 := by
  rw [byteSum, foldl_byte_add_toNat]
  simp

/-- The sum test of R43 on the numbers of its bytes. -/
theorem sumTest_iff (body : List Byte) (sum : Byte) :
    BitVec.ofNat 8 body.length + byteSum body + sum = 0
      ↔ (body.length + (body.map BitVec.toNat).sum + sum.toNat) % 256 = 0 := by
  rw [← BitVec.toNat_inj, BitVec.toNat_add, BitVec.toNat_add, BitVec.toNat_ofNat, byteSum_toNat,
    show (0 : Byte).toNat = 0 from rfl]
  omega

/-- A well-summed frame at a parser in HUNT is handled by its body (R45, R49). -/
theorem receiveLine_frameBytes {s : State} {p : Fin 4} (h : (s.port p).parser = .hunt) {body : List Byte}
    (hlow : 1 ≤ body.length) (hhigh : body.length ≤ 24) :
    receiveLine p (soundLine (frameBytes body)) s = handleFrame p body (s.setPort p { s.port p with gap := 0 }) := by
  have hparse : (s.port p).parse .hunt = { s.port p with gap := 0 } := by rw [Port.parse, ← h]
  have hsum : BitVec.ofNat 8 body.length + byteSum body + (0 - (BitVec.ofNat 8 body.length + byteSum body)) = 0 := by
    bv_omega
  unfold frameBytes
  dsimp only
  rw [receiveLine_frame h hlow hhigh, receiveByte_check, if_pos hsum, hparse]

/-- A frame with another sum byte is dropped and counted (R45, R47). -/
theorem receiveLine_badSum {s : State} {p : Fin 4} (h : (s.port p).parser = .hunt) {body : List Byte}
    (hlow : 1 ≤ body.length) (hhigh : body.length ≤ 24) {sum : Byte}
    (hsum : (body.length + (body.map BitVec.toNat).sum + sum.toNat) % 256 ≠ 0) :
    receiveLine p (soundLine (0xA5 :: BitVec.ofNat 8 body.length :: (body ++ [sum]))) s =
      s.setPort p ((s.port p).parse .hunt).addBadFrame := by
  rw [receiveLine_frame h hlow hhigh, receiveByte_check, if_neg fun heq => hsum ((sumTest_iff body sum).mp heq)]

/-! ### What a body says (R49) -/

theorem parseBody_malformed {body : List Byte} (h : bodyIsValidFrame body = false) : parseBody body = none := by
  unfold parseBody
  rw [if_neg (by rw [h]; exact Bool.false_ne_true)]

theorem uidLength_le {uid : List Byte} (h : uid.length = 4 ∨ uid.length = 7 ∨ uid.length = 10) :
    uidLengthOk uid.length = true := by
  rcases h with e | e | e <;> rw [e] <;> rfl

theorem parseBody_tap {q : Byte} (hq : q.toNat ≤ 3) (stamp : Word) {uid : List Byte}
    (hu : uid.length = 4 ∨ uid.length = 7 ∨ uid.length = 10) :
    1 ≤ (tapBody q stamp uid).length ∧ (tapBody q stamp uid).length ≤ 24
      ∧ parseBody (tapBody q stamp uid) = some (.tap q.toNat stamp.toNat uid) := by
  have formed : (Instr.tap 0 q stamp uid).wellFormed = true := by
    simp only [Instr.wellFormed, Bool.and_eq_true, decide_eq_true_eq]
    exact ⟨hq, uidLength_le hu⟩
  obtain ⟨hlow, hhigh, hvalid⟩ := Laws.WellFormedBody.tap 0 q stamp uid formed _ _ rfl
  refine ⟨hlow, hhigh, ?_⟩
  have hstamp : (BitVec.ofNat 8 stamp.toNat).toNat + 256 * (BitVec.ofNat 8 (stamp.toNat / 256)).toNat = stamp.toNat := by
    have := stamp.isLt
    simp only [BitVec.toNat_ofNat]
    omega
  unfold parseBody
  rw [if_pos hvalid]
  exact congrArg (fun v => some (Frame.tap q.toNat v uid)) hstamp

theorem parseBody_gone {uid : List Byte} (hu : uid.length = 4 ∨ uid.length = 7 ∨ uid.length = 10) :
    1 ≤ (goneBody uid).length ∧ (goneBody uid).length ≤ 24 ∧ parseBody (goneBody uid) = some (.gone uid) := by
  have formed : (Instr.gone 0 uid).wellFormed = true := uidLength_le hu
  obtain ⟨hlow, hhigh, hvalid⟩ := Laws.WellFormedBody.gone 0 uid formed _ _ rfl
  refine ⟨hlow, hhigh, ?_⟩
  unfold parseBody
  rw [if_pos hvalid]
  rfl

theorem parseBody_status {code : Byte} (hc : code = 0x00 ∨ code = 0x01) :
    parseBody [0x03, code] = some (.status (code = 0x01)) := by
  rcases hc with rfl | rfl <;> rfl

/-! ### A frame delivered (R42) -/

theorem exec_tap {s : State} {p : Fin 4} (hs : s.station ≠ .starting) (h : (s.port p).parser = .hunt) {q : Byte}
    (hq : q.toNat ≤ 3) (stamp : Word) {uid : List Byte} (hu : uid.length = 4 ∨ uid.length = 7 ∨ uid.length = 10) :
    exec (.tap p q stamp uid) s = .next (settleOutputs s (actTap p q.toNat stamp.toNat uid
      (hearFrame p (s.setPort p { s.port p with gap := 0 })))) := by
  obtain ⟨hlow, hhigh, hbody⟩ := parseBody_tap hq stamp hu
  simp only [exec, execTap, deliver, hs, if_false, event_eq, receiveLine_frameBytes h hlow hhigh, handleFrame, hbody]

theorem exec_gone {s : State} {p : Fin 4} (hs : s.station ≠ .starting) (h : (s.port p).parser = .hunt) {uid : List Byte}
    (hu : uid.length = 4 ∨ uid.length = 7 ∨ uid.length = 10) :
    exec (.gone p uid) s = .next (settleOutputs s (actGone p uid (hearFrame p (s.setPort p { s.port p with gap := 0 })))) := by
  obtain ⟨hlow, hhigh, hbody⟩ := parseBody_gone hu
  simp only [exec, execGone, deliver, hs, if_false, event_eq, receiveLine_frameBytes h hlow hhigh, handleFrame, hbody]

theorem exec_status {s : State} {p : Fin 4} (hs : s.station ≠ .starting) (h : (s.port p).parser = .hunt) {code : Byte}
    (hc : code = 0x00 ∨ code = 0x01) :
    exec (.status p code) s = .next (settleOutputs s (actStatus p (code = 0x01)
      (hearFrame p (s.setPort p { s.port p with gap := 0 })))) := by
  simp only [exec, execStatus, deliver, hs, if_false, event_eq,
    receiveLine_frameBytes h (body := [0x03, code]) (by simp) (by simp), handleFrame, parseBody_status hc]

/-! ### A port's change at the end of an event -/

/-- Lanes that stand and ports that show what they showed: the event ends as it stands. -/
theorem settleOutputs_unshown {s u : State} (hl : u.lanes = s.lanes)
    (hp : ∀ n, portBytes (u.port n) = portBytes (s.port n)) (he : u.evacuate = s.evacuate)
    (hm : stateMirror s = stateMirror u) : settleOutputs s u = u := by
  have lane (n : Fin 4) : u.lane n = s.lane n := lane_of_lanes hl n
  refine settleOutputs_same (fun n => ?_) (fun n => ?_) (fun n => by rw [lane]) hm
  · simp only [lockReleased, he, lane]
  · simp only [laneImage, lane, hp]

/-- A port changed where nothing is shown of it: the event ends as it stands. -/
theorem settleOutputs_setPort (s : State) (p : Fin 4) {x : Port} (hx : portBytes x = portBytes (s.port p)) :
    settleOutputs s (s.setPort p x) = s.setPort p x := by
  refine settleOutputs_unshown rfl (fun n => ?_) rfl rfl
  by_cases hn : n = p
  · subst hn
    rw [port_setPort_same, hx]
  · rw [port_setPort_other s x hn]

/-- One port changed: memory alone follows, and of it the port's bytes in the Lane Block. -/
theorem settleOutputs_setPort_mem (s : State) (p : Fin 4) (x : Port) :
    settleOutputs s (s.setPort p x) = { s.setPort p x with mem := (settleOutputs s (s.setPort p x)).mem } := by
  have lanes : (drivePulses s (s.setPort p x)).lanes = s.lanes :=
    Quad.ext_get fun n => by
      change (drivePulses s (s.setPort p x)).lane n = s.lane n
      exact (drivePulses_lane ..).trans (drivePulse_same (before := s) (after := s.setPort p x) rfl)
  have pulses : drivePulses s (s.setPort p x) = s.setPort p x := by
    change { s.setPort p x with lanes := (drivePulses s (s.setPort p x)).lanes } = s.setPort p x
    rw [lanes]
    rfl
  unfold settleOutputs
  rw [pulses]
  rfl

theorem byteAt_settleOutputs_setPort {s : State} (h : s.mem.wf) (p : Fin 4) (x : Port) {a : Nat}
    (ha : ¬inField (laneBlockBase p.val + 72) 4 a) :
    (settleOutputs s (s.setPort p x)).mem.byteAt a = s.mem.byteAt a := by
  by_cases hm : ∃ n, inLaneMirror n a
  · obtain ⟨n, hn⟩ := hm
    refine byteAt_settleOutputs_kept s (after := s.setPort p x) h n hn (.inr rfl) (.inr rfl) (.inr rfl) ?_ (.inr rfl)
      (.inr rfl)
    by_cases hnp : n = p
    · subst hnp
      exact .inl (by rwa [length_portBytes])
    · exact .inr (by rw [port_setPort_other s x hnp])
  · exact byteAt_settleOutputs_outside s (after := s.setPort p x) h (.inr rfl) fun n hn => hm ⟨n, hn⟩

end Sys2Proof.Machine
end

section
/-! PROOFS. Bytes that make no frame (R44, R47, R48). -/

namespace Sys2Proof.Machine

/-! ### The bad-frame count (R48) -/

/-- A frame dropped with a count, at the end of its event: the port's parser, gap timer and count, and the count's mirror. -/
theorem settleOutputs_addBadFrame {s : State} (h : s.mem.wf) (p : Fin 4) :
    let x : Port := ((s.port p).parse .hunt).addBadFrame
    let t := settleOutputs s (s.setPort p x)
    t = { s.setPort p x with mem := t.mem }
      ∧ ((s.port p).badFrames < 65535 → t.peek (laneBlockBase p.val + 72) 2 = (s.port p).badFrames + 1)
      ∧ keepsBytes s t (inField (laneBlockBase p.val + 72) 2) := by
  intro x t
  have shownByte {i : Nat} (hi : i < 4) := byteAt_settleOutputs_port s (after := s.setPort p x) h p hi
  rw [port_setPort_same] at shownByte
  have flagBytes (i : Nat) (hi : i = 2 ∨ i = 3) : (portBytes x).getD i 0 = (portBytes (s.port p)).getD i 0 := by
    rcases hi with rfl | rfl <;> rfl
  refine ⟨settleOutputs_setPort_mem s p x, fun hlt => ?_, fun a ha => ?_⟩
  · have counted : x.badFrames = (s.port p).badFrames + 1 := by
      change min ((s.port p).badFrames + 1) 65535 = _
      omega
    have low : (portBytes x).getD 0 0 = BitVec.ofNat 8 x.badFrames := rfl
    have high : (portBytes x).getD 1 0 = BitVec.ofNat 8 (x.badFrames / 256) := rfl
    have lowWas : (portBytes (s.port p)).getD 0 0 = BitVec.ofNat 8 (s.port p).badFrames := rfl
    have moved : BitVec.ofNat 8 x.badFrames ≠ BitVec.ofNat 8 (s.port p).badFrames := by
      rw [counted]
      intro he
      have := congrArg BitVec.toNat he
      simp only [BitVec.toNat_ofNat] at this
      omega
    have first := shownByte (i := 0) (by omega)
    have second := shownByte (i := 1) (by omega)
    rw [if_neg (by rw [Nat.zero_div, Nat.zero_mul, low, lowWas]; exact fun he => moved he.1), low] at first
    rw [if_neg (by rw [show 1 / 2 * 2 = 0 from rfl, low, lowWas]; exact fun he => moved he.1), high] at second
    change (t.mem.byteAt _).toNat + 256 * ((t.mem.byteAt _).toNat + 256 * 0) = _
    change t.mem.byteAt _ = _ at first
    change t.mem.byteAt _ = _ at second
    rw [Nat.add_zero] at first
    rw [first, second, BitVec.toNat_ofNat, BitVec.toNat_ofNat, counted]
    omega
  · by_cases hin : inField (laneBlockBase p.val + 72) 4 a
    · obtain ⟨i, hi, rfl⟩ : ∃ i, (i = 2 ∨ i = 3) ∧ a = laneBlockBase p.val + 72 + i := by
        unfold inField at ha hin
        exact ⟨a - (laneBlockBase p.val + 72), by omega, by omega⟩
      have shown := shownByte (i := i) (by omega)
      rw [if_pos] at shown
      · exact shown
      · rcases hi with rfl | rfl
        · exact ⟨flagBytes 2 (.inl rfl), flagBytes 3 (.inr rfl)⟩
        · exact ⟨flagBytes 2 (.inl rfl), flagBytes 3 (.inr rfl)⟩
    · exact byteAt_settleOutputs_setPort h p x hin

/-- Settles O14: the parser over one broken byte, over a frame of either sum, and over a length byte out of range. -/
theorem droppedFramesAreCounted : Obligations.DroppedFramesAreCounted := by
  intro s p hwf hs counted
  have dropped : counted (settleOutputs s (s.setPort p ((s.port p).parse .hunt).addBadFrame)) :=
    settleOutputs_addBadFrame hwf p
  have idle : settleOutputs s s = s := settleOutputs_same (fun _ => rfl) (fun _ => rfl) (fun _ => rfl) rfl
  have quiet : settleOutputs s (s.setPort p { s.port p with gap := 0 }) = s.setPort p { s.port p with gap := 0 } :=
    settleOutputs_setPort s p rfl
  simp only [exec, execBadFrame, execMalformedFrame, execFrameDroppedForLength, deliver, hs, if_false, event_eq]
  refine ⟨fun v hp => ?_, fun v hp => ?_, fun hp => ⟨fun body sum hlow hhigh hsum => ?_, fun body hlow hhigh hbad => ?_,
    fun len hlen => ?_⟩⟩
  · have discarded : receiveByte p ⟨v, true⟩ s = s := by
      unfold receiveByte
      rw [hp]
      rfl
    simp only [receiveLine, discarded, idle]
  · simp only [receiveLine, receiveByte_broken hp]
    exact ⟨_, rfl, dropped⟩
  · rw [receiveLine_badSum hp hlow hhigh hsum]
    exact ⟨_, rfl, dropped⟩
  · rw [receiveLine_frameBytes hp hlow hhigh, handleFrame, parseBody_malformed hbad]
    exact congrArg _ quiet
  · have hparse : (s.port p).parse .hunt = { s.port p with gap := 0 } := by rw [Port.parse, ← hp]
    simp only [soundLine, List.map_cons, List.map_nil, receiveLine, receiveByte_sync hp]
    rw [receiveByte_badLength _ _ _ (by omega), hparse]
    exact congrArg _ quiet

end Sys2Proof.Machine
end

section
/-! PROOFS. TAP and GONE at the reader ports (R42, R49 to R51, R53, R58). -/

namespace Sys2Proof.Machine

/-! ### A valid frame heard (R49, R53) -/

@[simp] theorem inService_setPort (s : State) (p q : Fin 4) (x : Port) : inService (s.setPort p x) q = inService s q := rfl
@[simp] theorem lane_setPort (s : State) (p n : Fin 4) (x : Port) : (s.setPort p x).lane n = s.lane n := rfl
@[simp] theorem servedLane_setPort (s : State) (p q : Fin 4) (x : Port) : servedLane (s.setPort p x) q = servedLane s q := rfl

/-- Causes that leave READER_LOST as it is change the port alone. -/
theorem setCauses_kept {s : State} {p : Fin 4} {silent rf : Bool} (h : (s.port p).readerLost = (silent || rf)) :
    setCauses p silent rf s = s.setPort p { s.port p with silent := silent, rfFault := rf } := by
  unfold setCauses
  dsimp only
  rw [port_modPort_same]
  exact if_pos h

theorem hearFrame_outOfService {s : State} {p : Fin 4} (h : inService s p = false) : hearFrame p s = s := by
  unfold hearFrame
  rw [h]
  rfl

/-- A valid frame at a port in service that is not SILENT restarts the silence timer. -/
theorem hearFrame_sound {s : State} {p : Fin 4} (h : inService s p = true) (hs : (s.port p).silent = false) :
    hearFrame p s = s.setPort p { s.port p with silence := some 0 } := by
  unfold hearFrame
  rw [if_pos h, State.modPort, setCauses_kept, port_setPort_same, setPort_setPort, ← hs]
  rw [port_setPort_same, Port.readerLost, hs]

/-- In service: RUNNING or QUIETING, and a lane names the port. -/
theorem inService_iff (s : State) (p : Fin 4) :
    inService s p = true ↔ (s.station = .running ∨ s.station = .quieting) ∧ ∃ n, servedLane s p = some n := by
  simp only [inService, Bool.and_eq_true, Bool.or_eq_true, decide_eq_true_eq, Option.isSome_iff_exists]

/-! ### TAP (R50, R51) -/

theorem actTap_unserved {s : State} {p : Fin 4} (h : servedLane s p = none) (q stamp : Nat) (uid : List Byte) :
    actTap p q stamp uid s = s := by
  unfold actTap
  rw [h]

theorem actTap_idle {s : State} {p : Fin 4} (h : s.station ≠ .running ∨ (s.port p).rfFault = true) (q stamp : Nat)
    (uid : List Byte) : actTap p q stamp uid s = s := by
  unfold actTap
  split
  · rfl
  · rcases h with hs | hf
    · exact if_pos hs
    · rw [hf]
      exact ite_self s

theorem actTap_unread {s : State} {p n : Fin 4} (hs : s.station = .running) (hn : servedLane s p = some n)
    (hf : (s.port p).rfFault = false) (stamp : Nat) (uid : List Byte) :
    actTap p 0 stamp uid s = handTap ⟨n, p, 0, stamp, uid⟩ s := by
  simp [actTap, hn, hs, hf]

theorem actTap_read {s : State} {p n : Fin 4} (hs : s.station = .running) (hn : servedLane s p = some n)
    (hf : (s.port p).rfFault = false) {q : Nat} (hq : q ≠ 0) (stamp : Nat) (uid : List Byte) :
    actTap p q stamp uid s =
      let t := s.setPort p { s.port p with repeatRec := some ⟨uid, s.now⟩ }
      if isRepeat (s.port p) uid s.now then t else handTap ⟨n, p, q, stamp, uid⟩ t := by
  simp [actTap, hn, hs, hf, hq, State.modPort]

theorem handTap_entry {s : State} {q : TapRecord} (h : (s.lane q.lane).config.role = .entry) :
    handTap q s = queueTap q s := by
  unfold handTap
  rw [h]

theorem isRepeat_iff (x : Port) (uid : List Byte) (now : Nat) :
    isRepeat x uid now = true ↔ ∃ r, x.repeatRec = some r ∧ r.uid = uid ∧ now - r.tick < 2000 := by
  unfold isRepeat
  split
  · next r hr => simp [hr]
  · next hr => simp [hr]

/-! ### GONE (R51) -/

theorem actGone_eq (p : Fin 4) (uid : List Byte) (s : State) :
    actGone p uid s = s.setPort p { s.port p with repeatRec := (s.port p).repeatRec.filter fun r => r.uid ≠ uid } := by
  unfold actGone State.modPort
  congr 1
  obtain ⟨_, _, _, record, _⟩ := s.port p
  cases record with
  | none => rfl
  | some r =>
    by_cases hu : r.uid = uid
    · simp [hu, Option.filter]
    · simp [hu, Option.filter]

/-! ### The statement -/

/-- A tap that is read or not, at an ENTRY lane of a RUNNING station: the port, and the queue (R50, R51, R58). -/
theorem tap_joins {s : State} {p n : Fin 4} (hp : (s.port p).parser = .hunt) {q : Byte} (hq : q.toNat ≤ 3) (stamp : Word)
    {uid : List Byte} (hu : uid.length = 4 ∨ uid.length = 7 ∨ uid.length = 10) (hs : s.station = .running)
    (hn : servedLane s p = some n) (hrole : (s.lane n).config.role = .entry) (hsilent : (s.port p).silent = false)
    (hf : (s.port p).rfFault = false) :
    ∃ t, exec (.tap p q stamp uid) s = .next t
      ∧ t = { s with ports := t.ports, tapQueue := t.tapQueue } ∧ keepsOtherPorts s t p
      ∧ t.port p = { s.port p with
            repeatRec := if q = 0 then (s.port p).repeatRec else some ⟨uid, s.now⟩, silence := some 0, gap := 0 }
      ∧ t.tapQueue =
        if q ≠ 0 ∧ ∃ r, (s.port p).repeatRec = some r ∧ r.uid = uid ∧ s.now - r.tick < 2000 then s.tapQueue
        else s.tapQueue.filter (fun x => x.lane ≠ n) ++ [⟨n, p, q.toNat, stamp.toNat, uid⟩] := by
  have inServ : inService s p = true := (inService_iff s p).mpr ⟨.inl hs, n, hn⟩
  rw [exec_tap (by rw [hs]; simp) hp hq stamp hu, hearFrame_sound (by simpa using inServ) (by simpa using hsilent)]
  rw [setPort_setPort, port_setPort_same]
  have ended (x : Port) (queue : List TapRecord) (hx : portBytes x = portBytes (s.port p)) :
      settleOutputs s { s.setPort p x with tapQueue := queue } = { s.setPort p x with tapQueue := queue } := by
    refine settleOutputs_unshown rfl (fun m => ?_) rfl rfl
    change portBytes ((s.setPort p x).port m) = _
    by_cases hm : m = p
    · subst hm
      rw [port_setPort_same, hx]
    · rw [port_setPort_other s x hm]
  have others (x : Port) (queue : List TapRecord) :
      keepsOtherPorts s { s.setPort p x with tapQueue := queue } p := fun m hm => port_setPort_other s x hm
  have same (x : Port) (queue : List TapRecord) : ({ s.setPort p x with tapQueue := queue } : State).port p = x :=
    port_setPort_same s p x
  by_cases h0 : q = 0
  · subst h0
    rw [show (0 : Byte).toNat = 0 from rfl, actTap_unread (by simpa using hs) (by simpa using hn) (by simpa using hf),
      handTap_entry (by simpa using hrole)]
    refine ⟨_, congrArg _ (ended _ _ rfl), rfl, others _ _, by rw [same]; rfl, ?_⟩
    simp
  · have hq0 : q.toNat ≠ 0 := fun h => h0 (BitVec.eq_of_toNat_eq h)
    rw [actTap_read (by simpa using hs) (by simpa using hn) (by simpa using hf) hq0]
    simp only [port_setPort_same, setPort_setPort]
    by_cases hr : isRepeat (s.port p) uid s.now = true
    · have hrep := (isRepeat_iff ..).mp hr
      refine ⟨_, congrArg _ ((congrArg (settleOutputs s) (if_pos hr)).trans (ended _ s.tapQueue rfl)), rfl, others _ _,
        by rw [same, if_neg h0]; rfl, ?_⟩
      rw [if_pos ⟨h0, hrep⟩]
    · have hnew := mt (isRepeat_iff ..).mpr hr
      refine ⟨_, congrArg _ ((congrArg (settleOutputs s) ((if_neg hr).trans (handTap_entry (by simpa using hrole)))).trans
        (ended _ _ rfl)), rfl, others _ _, by rw [same, if_neg h0]; rfl, ?_⟩
      rw [if_neg fun h => hnew h.2]
      simp

/-- Settles O11: the tap by the station and the port, then GONE by the port's service. -/
theorem tapsJoinQueueAndGoneFrees : Obligations.TapsJoinQueueAndGoneFrees := by
  have ended (s : State) (p : Fin 4) (x : Port) (hx : portBytes x = portBytes (s.port p)) :
      (.next (settleOutputs s (s.setPort p x)) : Host.Outcome State Fault Refusal) = .next (s.setPort p x) :=
    congrArg _ (settleOutputs_setPort s p hx)
  refine ⟨fun s p q stamp uid hp hq hu => ⟨fun n hs hn hrole hsilent hf => ?_, fun hs hout => ?_, fun hin hidle hsilent => ?_⟩,
    fun s p uid hs hp hsilent hu => ?_⟩
  · exact tap_joins hp hq stamp hu hs hn hrole hsilent hf
  · have outOf : inService s p = false := by
      rw [← Bool.not_eq_true, inService_iff]
      rintro ⟨hcounts, n, hn⟩
      rcases hout with hquiet | hnone
      · rw [hquiet] at hcounts
        simp at hcounts
      · rw [hnone] at hn
        cases hn
    have ignored : actTap p q.toNat stamp.toNat uid (s.setPort p { s.port p with gap := 0 }) =
        s.setPort p { s.port p with gap := 0 } := by
      rcases hout with hquiet | hnone
      · exact actTap_idle (.inl (by simp [hquiet])) ..
      · exact actTap_unserved (by simpa using hnone) ..
    rw [exec_tap hs hp hq stamp hu, hearFrame_outOfService (by simpa using outOf), ignored]
    exact ended s p _ rfl
  · obtain ⟨hcounts, n, hn⟩ := (inService_iff s p).mp hin
    have hs : s.station ≠ .starting := by
      rcases hcounts with h | h <;> rw [h] <;> simp
    rw [exec_tap hs hp hq stamp hu, hearFrame_sound (by simpa using hin) (by simpa using hsilent), setPort_setPort,
      port_setPort_same, actTap_idle]
    · exact ended s p _ rfl
    · rcases hidle with hquieting | hf
      · exact .inl (by simp [hquieting])
      · exact .inr (by rw [port_setPort_same]; exact hf)
  · rw [exec_gone hs hp hu]
    cases hin : inService s p with
    | true =>
      rw [hearFrame_sound (by simpa using hin) (by simpa using hsilent), actGone_eq]
      simp only [setPort_setPort, port_setPort_same]
      exact ended s p _ rfl
    | false =>
      rw [hearFrame_outOfService (by simpa using hin), actGone_eq]
      simp only [setPort_setPort, port_setPort_same]
      exact ended s p _ rfl

end Sys2Proof.Machine
end

section
/-! PROOFS. Timers that end on their tick, and the lists that cues play (R46, R55, R101, R173 to R178, R185). -/

namespace Sys2Proof.Machine

/-! ### Lanes that differ in their cue alone, at the end of an event -/

/-- The lanes are as they were but for their running cues and levels. -/
def cuesAlone (s v : State) : Prop :=
  ∀ m, v.lane m = { s.lane m with cue := (v.lane m).cue, levels := (v.lane m).levels }

theorem settleOutputs_lane_cues {s v : State} (he : v.evacuate = s.evacuate) (h : cuesAlone s v) (m : Fin 4) :
    (settleOutputs s v).lane m = v.lane m := by
  rw [settleOutputs_lane, drivePulse_same]
  rw [lockReleased, lockReleased, he, h m]

/-- A byte that shows no changed cue and no changed port is as the event left it. -/
theorem byteAt_settleOutputs_cues {s v : State} (hw : v.mem.wf) (hm : stateMirror s = stateMirror v) (h : cuesAlone s v)
    {x : Nat} (hc : ∀ m, inField (laneBlockBase m.val + 112) 6 x → v.lane m = s.lane m)
    (hp : ∀ m, inField (laneBlockBase m.val + 72) 4 x → v.port m = s.port m) :
    (settleOutputs s v).mem.byteAt x = v.mem.byteAt x := by
  by_cases hin : ∃ m, inLaneMirror m x
  · obtain ⟨m, hin⟩ := hin
    refine byteAt_settleOutputs_kept s hw m hin (.inr (by rw [h m]; rfl)) (.inr (by rw [h m]; rfl))
      (.inr (by rw [h m]; rfl)) ?_ ?_ (.inr (by rw [h m]))
    · by_cases hx : inField (laneBlockBase m.val + 72) 4 x
      · exact .inr (by rw [hp m hx])
      · exact .inl (by rwa [length_portBytes])
    · by_cases hx : inField (laneBlockBase m.val + 112) 6 x
      · exact .inr (by rw [hc m hx])
      · exact .inl (by rwa [length_cueBytes])
  · exact byteAt_settleOutputs_outside s hw (.inr hm) fun m h => hin ⟨m, h⟩

/-! ### Playing a list (R177, R178) -/

theorem applyCue_eq (e : CueEntry) (lv : Levels) : applyCue e lv = e.applied lv := by
  unfold applyCue CueEntry.applied
  cases e.target <;> rfl

/-- The levels after entries applied in list order. -/
def appliedAll (l : List CueEntry) (lv : Levels) : Levels := l.foldl (fun lv e => e.applied lv) lv

/-- Entries that are due and no END are applied in order, and the look goes on behind them. -/
theorem playEntries_due {elapsed : Nat} {due : List CueEntry} (h : ∀ e ∈ due, e.offset ≤ elapsed ∧ e.target ≠ .stop)
    (rest : List CueEntry) (position : Nat) (lv : Levels) :
    playEntries elapsed (due ++ rest) position lv =
      playEntries elapsed rest (position + due.length) (appliedAll due lv) := by
  induction due generalizing position lv with
  | nil => rfl
  | cons e due ih =>
    obtain ⟨hoffset, htarget⟩ := h e List.mem_cons_self
    rw [List.cons_append, playEntries, if_neg (by omega), if_neg htarget, ih fun e he => h e (List.mem_cons_of_mem _ he),
      applyCue_eq, List.length_cons, Nat.add_right_comm, Nat.add_assoc]
    rfl

theorem playEntries_waiting {elapsed : Nat} {e : CueEntry} (h : elapsed < e.offset) (more : List CueEntry)
    (position : Nat) (lv : Levels) : playEntries elapsed (e :: more) position lv = (lv, .waiting position) := if_pos h

theorem playEntries_atEnd {elapsed : Nat} {e : CueEntry} (h : e.offset ≤ elapsed) (ht : e.target = .stop)
    (more : List CueEntry) (position : Nat) (lv : Levels) :
    playEntries elapsed (e :: more) position lv = (lv, .atEnd) := by
  rw [playEntries, if_neg (by omega), if_pos ht]

/-- A new pass up to an entry of a later offset: the cue runs from this tick. -/
theorem startPass_runs {c : Cue} {first more : List CueEntry} {e : CueEntry} (hc : c.entries = first ++ e :: more)
    (hf : ∀ e ∈ first, e.offset = 0 ∧ e.target ≠ .stop) (he : 0 < e.offset) (now : Nat) (lv : Levels) :
    startPass c now lv = (appliedAll first lv, some { c with position := first.length, start := now }) := by
  rw [startPass, hc, playEntries_due (fun e h => ⟨(hf e h).1.le, (hf e h).2⟩), playEntries_waiting he, Nat.zero_add]

/-- A new pass up to an END of offset 0: the cue has ended. -/
theorem startPass_ends {c : Cue} {first more : List CueEntry} {e : CueEntry} (hc : c.entries = first ++ e :: more)
    (hf : ∀ e ∈ first, e.offset = 0 ∧ e.target ≠ .stop) (he : e.offset = 0) (ht : e.target = .stop) (now : Nat)
    (lv : Levels) : startPass c now lv = (appliedAll first lv, none) := by
  rw [startPass, hc, playEntries_due (fun e h => ⟨(hf e h).1.le, (hf e h).2⟩), playEntries_atEnd he.le ht]

/-- A new pass through the whole list: the cue has ended. -/
theorem startPass_exhausts {c : Cue} (hf : ∀ e ∈ c.entries, e.offset = 0 ∧ e.target ≠ .stop) (now : Nat) (lv : Levels) :
    startPass c now lv = (appliedAll c.entries lv, none) := by
  have played := playEntries_due (fun e h => ⟨(hf e h).1.le, (hf e h).2⟩) [] 0 lv
  rw [List.append_nil] at played
  rw [startPass, played]
  rfl

section

variable {c : Cue} {due more : List CueEntry} {e : CueEntry} {now : Nat}

/-- The due entries run behind entry 15: the cue has ended. -/
theorem playCue_exhausts (hs : c.entries.drop c.position = due) (hd : ∀ e ∈ due, e.offset ≤ now - c.start ∧ e.target ≠ .stop)
    (lv : Levels) : playCue c now lv = (appliedAll due lv, none) := by
  have plays := playEntries_due hd [] c.position lv
  rw [List.append_nil, ← hs] at plays
  unfold playCue
  dsimp only
  rw [plays, hs]
  rfl

/-- The due entries end before one that waits: the cue goes on at it. -/
theorem playCue_waits (hs : c.entries.drop c.position = due ++ e :: more)
    (hd : ∀ e ∈ due, e.offset ≤ now - c.start ∧ e.target ≠ .stop) (he : now - c.start < e.offset) (lv : Levels) :
    playCue c now lv = (appliedAll due lv, some { c with position := c.position + due.length }) := by
  unfold playCue
  dsimp only
  rw [hs, playEntries_due hd, playEntries_waiting he]

/-- The due entries reach an END that starts no new pass: the cue has ended. -/
theorem playCue_ends (hs : c.entries.drop c.position = due ++ e :: more)
    (hd : ∀ e ∈ due, e.offset ≤ now - c.start ∧ e.target ≠ .stop) (he : e.offset ≤ now - c.start) (ht : e.target = .stop)
    (hr : c.repeats = false ∨ now - c.start = 0) (lv : Levels) : playCue c now lv = (appliedAll due lv, none) := by
  unfold playCue
  dsimp only
  rw [hs, playEntries_due hd, playEntries_atEnd he ht]
  refine if_neg fun hagain => ?_
  rcases hr with hr | hr
  · rw [hr] at hagain
    exact Bool.noConfusion hagain.1
  · omega

/-- The due entries reach an END in a repeating list: a new pass (R178). -/
theorem playCue_again (hs : c.entries.drop c.position = due ++ e :: more)
    (hd : ∀ e ∈ due, e.offset ≤ now - c.start ∧ e.target ≠ .stop) (he : e.offset ≤ now - c.start) (ht : e.target = .stop)
    (hr : c.repeats = true) (hel : 1 ≤ now - c.start) (lv : Levels) :
    playCue c now lv = startPass c now (appliedAll due lv) := by
  unfold playCue
  dsimp only
  rw [hs, playEntries_due hd, playEntries_atEnd he ht]
  exact if_pos ⟨hr, hel⟩

end

/-! ### CUE_ENTRY -/

/-- A lane with its cue and levels as given. -/
def cuePlayed (s : State) (n : Fin 4) (r : Levels × Option Cue) : State :=
  s.modLane n fun l => { l with levels := r.1, cue := r.2 }

theorem cuePlayed_cuesAlone (s : State) (n : Fin 4) (r : Levels × Option Cue) : cuesAlone s (cuePlayed s n r) := by
  intro m
  unfold cuePlayed
  rw [lane_modLane]
  split <;> rfl

/-- CUE_ENTRY leaves the cue as it plays at this tick, and where nothing is due that is as it stands. -/
theorem exec_cueEntry {s : State} {n : Fin 4} {c : Cue} (hc : (s.lane n).cue = some c) :
    exec (.cueEntry n) s = .next (settleOutputs s (cuePlayed s n (playCue c s.now (s.lane n).levels))) := by
  simp only [exec, execCueEntry, hc]
  split
  · rfl
  · next hdue =>
    have waits : playCue c s.now (s.lane n).levels = ((s.lane n).levels, some c) := by
      unfold cueDue at hdue
      split at hdue
      · exact absurd rfl hdue
      · next e es hl => exact playCue_waits (due := []) hl (by simp) (by simpa using hdue) _
    have same : cuePlayed s n ((s.lane n).levels, some c) = s := by
      have hset : s.lanes.set n { s.lane n with levels := (s.lane n).levels, cue := some c } = s.lanes :=
        Quad.ext_get fun m => by
          rw [Quad.get_set]
          split
          · next hm =>
            rw [hm, ← hc]
            rfl
          · rfl
      unfold cuePlayed State.modLane State.setLane
      rw [hset]
    rw [waits, same, settleOutputs_same (fun _ => rfl) (fun _ => rfl) (fun _ => rfl) rfl]

/-- What the event of a CUE_ENTRY leaves, from how the cue plays. -/
theorem cueEntry_becomes {s : State} {n : Fin 4} {c : Cue} (hw : s.mem.wf) (hc : (s.lane n).cue = some c)
    {lv : Levels} {cue : Option Cue} (hplay : playCue c s.now (s.lane n).levels = (lv, cue)) :
    ∃ t, exec (.cueEntry n) s = .next t ∧ t = { s with mem := t.mem, lanes := t.lanes } ∧ keepsOtherLanes s t n
      ∧ t.lane n = { s.lane n with cue := cue, levels := lv }
      ∧ keepsBytes s t (inField (laneBlockBase n.val + 112) 6) := by
  have alone := cuePlayed_cuesAlone s n (lv, cue)
  refine ⟨_, exec_cueEntry hc, ?_⟩
  rw [hplay]
  have lane (m : Fin 4) := settleOutputs_lane_cues (s := s) (v := cuePlayed s n (lv, cue)) rfl alone m
  have other (m : Fin 4) (hm : m ≠ n) : (cuePlayed s n (lv, cue)).lane m = s.lane m := lane_modLane_other s _ hm
  refine ⟨rfl, fun m hm => (lane m).trans (other m hm), (lane n).trans (lane_modLane_same ..), fun x hx => ?_⟩
  refine byteAt_settleOutputs_cues (s := s) (v := cuePlayed s n (lv, cue)) hw rfl alone (fun m hm => ?_) fun _ _ => rfl
  by_cases hmn : m = n
  · subst hmn
    exact absurd hm hx
  · exact other m hmn

/-! ### An outcome's list (R173, R174, R176) -/

theorem isDown_iff (st : LaneState) : st.isDown = true ↔ st = .down := by
  cases st <;> simp [LaneState.isDown]

theorem handOutcome_nothing {s : State} {n : Fin 4} {o : CueOutcome}
    (h : (s.lane n).state = .down ∨ (s.lane n).config.cueFor o = none) : handOutcome n o s = s := by
  unfold handOutcome
  split
  · rfl
  · next hd =>
    rcases h with h | h
    · exact absurd ((isDown_iff _).mpr h) hd
    · rw [h]

theorem handOutcome_starts {s : State} {n : Fin 4} {o : CueOutcome} {list : Fin 32} (hd : (s.lane n).state ≠ .down)
    (hl : (s.lane n).config.cueFor o = some list) :
    handOutcome n o s = cuePlayed s n (startPass ⟨readCueList s.mem list, cueRepeats s.mem list, list, o, 0, s.now⟩ s.now
      (s.lane n).levels) := by
  unfold handOutcome
  rw [if_neg (mt (isDown_iff _).mp hd), hl]
  rfl

/-- The targets by their codes; 5, 6 and 7 are END. -/
theorem cueTarget_eq {code : Nat} (h : code < 8) :
    cueTarget code = ([.stop, .green, .red, .amber, .buzzer, .stop, .stop, .stop] : List CueTarget).getD code .stop := by
  interval_cases code <;> rfl

/-- A list of sixteen entries that has the fields of the Cue Table is the list as the part reads it. -/
theorem readCueList_eq {s : State} {list : Fin 32} {entries : List CueEntry} (hlen : entries.length = 16)
    (h : ∀ i < 16, ∃ e, entries[i]? = some e ∧
      let a := 0x1500 + 64 * list.val + 4 * i
      let value := s.peek (a + 3) 1
      e.offset = s.peek a 2
        ∧ e.target = ([.stop, .green, .red, .amber, .buzzer, .stop, .stop, .stop] : List CueTarget).getD
            (s.peek (a + 2) 1 % 8) .stop
        ∧ e.value = (if e.target = .buzzer then min value 8 else value)) :
    readCueList s.mem list = entries := by
  refine List.ext_getElem (by simp [readCueList, hlen]) fun i h1 h2 => ?_
  obtain ⟨e, he, hoffset, htarget, hvalue⟩ := h i (by omega)
  have hi : entries[i] = e := by
    rw [List.getElem?_eq_getElem h2] at he
    exact Option.some.inj he
  rw [← cueTarget_eq (Nat.mod_lt _ (by omega))] at htarget
  rw [htarget] at hvalue
  simp only [readCueList, List.getElem_map, List.getElem_range, hi, readCueEntry]
  obtain ⟨offset, target, value⟩ := e
  dsimp only at hoffset htarget hvalue
  rw [hoffset, htarget, hvalue]
  rfl

theorem cueRepeats_eq (s : State) (list : Fin 32) :
    cueRepeats s.mem list = decide (128 ≤ s.peek (0x1500 + 64 * list.val + 2) 1) := by
  have hmsb : (s.mem.byteAt (0x1500 + 64 * list.val + 2)).getLsbD 7 =
      decide (128 ≤ (s.mem.byteAt (0x1500 + 64 * list.val + 2)).toNat) :=
    (BitVec.msb_eq_getLsbD_last _).symm.trans (BitVec.msb_eq_decide _)
  unfold cueRepeats
  exact hmsb

/-! ### The statement -/

/-- Settles O15: the timers of ports and lanes, the entries of a running cue, and the list an outcome starts. -/
theorem timersEndOnTheirTick : Obligations.TimersEndOnTheirTick := by
  refine ⟨fun s p hp hgap => ?_, fun s p x hx => ?_, fun s n w hw hend => ?_, fun s n e he hend => ?_,
    fun s n c due rest hwf hc hsplit => ?_, fun s n o => ?_⟩
  · simp only [exec, execGapTimeout, hp, hgap, ne_eq, not_false_eq_true, and_self, if_true]
    rfl
  · simp only [exec, execShowEnd, State.modPort, hx]
  · simp only [exec, execDuckWatchClose, hw, hend, if_true]
    rfl
  · simp only [exec, execLockPulseEnd, he, hend, if_true]
    rfl
  · intro elapsed after becomes hdue
    have plays {lv : Levels} {cue : Option Cue} (h : playCue c s.now (s.lane n).levels = (lv, cue)) : becomes cue lv :=
      cueEntry_becomes hwf hc h
    refine ⟨fun hrest => ?_, fun e more hrest => ⟨fun hlater => ?_, fun hnow hstop => ⟨fun hend => ?_, ?_⟩⟩⟩
    · rw [hrest, List.append_nil] at hsplit
      exact plays (playCue_exhausts hsplit hdue _)
    · rw [hrest] at hsplit
      exact plays (playCue_waits hsplit hdue hlater _)
    · rw [hrest] at hsplit
      exact plays (playCue_ends hsplit hdue hnow hstop hend _)
    · intro hrep hel first later hlist again hfirst
      rw [hrest] at hsplit
      have repeated := playCue_again hsplit hdue hnow hstop hrep hel (s.lane n).levels
      refine ⟨fun e' more' hlater he' => ?_, fun e' more' hlater he' ht' => ?_⟩
      · exact plays (repeated.trans (startPass_runs (hlist.trans (by rw [hlater])) hfirst he' _ _))
      · exact plays (repeated.trans (startPass_ends (hlist.trans (by rw [hlater])) hfirst he' ht' _ _))
  · intro named
    refine ⟨handOutcome_nothing, fun list hd hl first later hlen hread hfirst => ?_⟩
    intro levels starts
    have started := handOutcome_starts hd hl
    rw [readCueList_eq hlen hread, cueRepeats_eq] at started
    refine ⟨fun hlater => ?_, fun e more hlater => ⟨fun he ht => ?_, fun he => ?_⟩⟩
    · subst hlater
      rw [startPass_exhausts (by simpa using hfirst), List.append_nil] at started
      exact started
    · subst hlater
      rw [startPass_ends rfl hfirst he ht] at started
      exact started
    · subst hlater
      rw [startPass_runs rfl hfirst he] at started
      exact started

end Sys2Proof.Machine
end

section
/-! PROOFS. FREE_FLOW OFF with two pending configurations of role DOWN that name one port (O41): the first lane's LANE
record is composed while the port is still in the second lane's service, so its reader bits are those of a SILENT port;
the event then takes the port out of service, and the bits of the port it leaves are clear. -/

namespace Sys2Proof.Machine

/-- Lanes 0 and 1 FREE with pending configurations of role DOWN that both name port 1, the port of lane 1's
configuration in force, which is SILENT; FREE_FLOW OFF is posted in slot 0. -/
def silentPending : State :=
  let pend : Lane → Lane := fun l =>
    { l with state := .free, pendingConfig := some { config0 with role := .down, port := 1 } }
  post 0 12 [(8, 1, 2)]
    ((({ run with freeFlow := true }.modLane 0 pend).modLane 1 pend).modPort 1 fun x =>
      { x with silent := true, silence := none })

theorem silentPending_ok : silentPending.ok ∧ carries silentPending 0 12 := by
  unfold State.ok carries; decide +kernel

theorem silentPending_exclusive : portsExclusive silentPending := by
  unfold portsExclusive portsClash; decide +kernel

/-- Record 0 shows the SILENT bit of port 1, which is clear in the port the event leaves. -/
theorem freeFlowOff_silentPending_record :
    let t := answered (exec (.freeFlowOff 0) silentPending)
    ¬∀ w ∈ ((freeFlowOffAsks silentPending t).foldl (Appended.ask (thresholdOf silentPending))
        ⟨silentPending.journal, [], false, false⟩).written,
      t.mem.readBytes (journalBase w.1) 32 = w.2.bytes := by decide +kernel

/-- Refutes O41: the LANE record of the first of two lanes shows the reader bits of its port before the second lane's
application takes the port out of service. -/
theorem not_freeFlowOffArmsLanes : ¬Obligations.FreeFlowOffArmsLanes := by
  intro h
  obtain ⟨hok, hcarries⟩ := silentPending_ok
  obtain ⟨-, -, hfree⟩ := h silentPending 0 hok hcarries (by decide +kernel)
  obtain ⟨t, ht, -, -, -, -, -, -, hrec, -⟩ := hfree rfl rfl
  obtain ⟨-, -, hwritten, -⟩ := hrec (.inl silentPending_exclusive)
  have hanswered : t = answered (exec (.freeFlowOff 0) silentPending) := by rw [ht]; rfl
  subst hanswered
  exact freeFlowOff_silentPending_record hwritten

end Sys2Proof.Machine
end

section
/-! PROOFS. Records asked for one after another with changes between them (R206 to R210): a run of appends, pledged or
not, with the bytes, the attention and the Journal Writer it leaves. -/

namespace Sys2Proof.Machine

/-! ### One record asked for -/

/-- The append that a record asked for makes. -/
def appendAsked (a : Asked) (t : State) : State := if a.1 then appendPledged a.2 t else appendUnpledged a.2 t

theorem appendAsked_wf (a : Asked) {t : State} (h : t.mem.wf) : (appendAsked a t).mem.wf := by
  unfold appendAsked
  split
  · exact appendPledged_wf _ h
  · exact appendUnpledged_wf _ h

theorem appendAsked_attn (a : Asked) (t : State) : journalCausesOnly t (appendAsked a t) := by
  unfold appendAsked
  split
  · exact appendPledged_attn _ t
  · exact appendUnpledged_attn _ t

theorem byteAt_appendAsked (a : Asked) {t : State} (h : t.mem.wf) {x : Nat} (hx : ¬inAppend t x) :
    (appendAsked a t).mem.byteAt x = t.mem.byteAt x := by
  unfold appendAsked
  split
  · exact byteAt_appendPledged _ h hx
  · exact byteAt_appendUnpledged _ h hx

/-- A record placed: in the ring, or held (R208). -/
def Appended.placed (threshold : Nat) (x : Appended) (r : Record) : Appended :=
  if x.journal.hold = [] ∧ x.journal.fill < 1023 then
    { x with
      journal := { x.journal with writeIndex := (x.journal.writeIndex + 1) % 1024 }
      written := x.written ++ [(x.journal.writeIndex, r)]
      level := x.level || (decide (x.journal.fill < threshold) && decide (threshold ≤ x.journal.fill + 1)) }
  else { x with journal := { x.journal with hold := x.journal.hold ++ [r] }, held := x.held || x.journal.hold.isEmpty }

/-- A pledge used (R208). -/
def Appended.pledgeUsed (x : Appended) : Appended :=
  { x with journal := { x.journal with pledges := x.journal.pledges - 1 } }

theorem Appended.ask_pledged (threshold : Nat) (x : Appended) (r : Record) :
    Appended.ask threshold x (true, r) = x.pledgeUsed.placed threshold r := by
  unfold Appended.ask
  rw [if_pos (.inl rfl)]
  rfl

theorem Appended.ask_unpledged (threshold : Nat) (x : Appended) (r : Record) :
    Appended.ask threshold x (false, r) =
      if 1 ≤ x.journal.room then x.placed threshold r
      else { x with journal := { x.journal with dropped := min (x.journal.dropped + 1) (max x.journal.dropped 65535) } } := by
  unfold Appended.ask
  simp only [Bool.false_eq_true, false_or]
  rfl

/-- A record placed stands with the records before it. -/
theorem RecordsStand.place {s t : State} {x : Appended} (R : RecordsStand s t x) (hx : x.fresh) (h : t.mem.wf)
    (hj : t.journal.indexed) (ht : thresholdOf t = thresholdOf s) (r : Record) :
    RecordsStand s (placeRecord r t) (x.placed (thresholdOf s) r) := by
  unfold placeRecord Appended.placed
  rw [← R.journal, ← ht]
  by_cases hring : t.journal.hold = [] ∧ t.journal.fill < 1023
  · rw [if_pos hring, if_pos hring, R.journal]
    exact R.ring hx h hj.1 hj.2 r hring.2
  · rw [if_neg hring, if_neg hring, R.journal]
    exact R.hold r

/-- One more record asked for stands with the records before it. -/
theorem RecordsStand.asked {s t : State} {x : Appended} (R : RecordsStand s t x) (hx : x.fresh) (h : t.mem.wf)
    (hj : t.journal.indexed) (ht : thresholdOf t = thresholdOf s) (a : Asked) :
    RecordsStand s (appendAsked a t) (Appended.ask (thresholdOf s) x a) := by
  obtain ⟨pledged, r⟩ := a
  cases pledged with
  | false => exact R.ask hx h hj.1 hj.2 r ht
  | true =>
    have used : RecordsStand s { t with journal := { t.journal with pledges := t.journal.pledges - 1 } } x.pledgeUsed :=
      ⟨by rw [R.journal]; rfl, R.written, R.index, R.dropped, R.causes⟩
    rw [Appended.ask_pledged]
    exact used.place hx h hj ht r

/-! ### Where a run of records asked for stands in the ring -/

/-- What records asked for one after another leave (R206 to R210). -/
def askedAll (s : State) (asks : List Asked) : Appended :=
  asks.foldl (Appended.ask (thresholdOf s)) ⟨s.journal, [], false, false⟩

/-- The ring after `count` records at most from a write index on: it is moved on by as many as were written, and each of
those stands between the read index and the write index. -/
structure Appended.Within (j : Journal) (count : Nat) (x : Appended) : Prop where
  read : x.journal.readIndex = j.readIndex
  index : ∃ m ≤ count, x.journal.writeIndex = (j.writeIndex + m) % 1024
  behind : ∀ w ∈ x.written, w.1 < 1024 ∧ (w.1 + 1024 - j.readIndex) % 1024 < x.journal.fill

/-- Where neither index moves, nothing is written. -/
theorem Appended.Within.stay {j : Journal} {count : Nat} {x y : Appended} (W : x.Within j count)
    (hr : y.journal.readIndex = x.journal.readIndex) (hi : y.journal.writeIndex = x.journal.writeIndex)
    (hw : y.written = x.written) : y.Within j count where
  read := hr.trans W.read
  index := hi ▸ W.index
  behind := by
    rw [hw, Journal.fill, hr, hi]
    exact W.behind

theorem Appended.Within.more {j : Journal} {count : Nat} {x : Appended} (W : x.Within j count) :
    x.Within j (count + 1) where
  read := W.read
  index := W.index.imp fun _ ⟨hm, h⟩ => ⟨by omega, h⟩
  behind := W.behind

theorem Appended.Within.indexed {j : Journal} {count : Nat} {x : Appended} (W : x.Within j count) (hj : j.indexed) :
    x.journal.indexed := by
  obtain ⟨m, -, hindex⟩ := W.index
  exact ⟨by rw [hindex]; exact Nat.mod_lt _ (by decide), by rw [W.read]; exact hj.2⟩

theorem Appended.Within.placed {j : Journal} {count : Nat} {x : Appended} (W : x.Within j count) (hj : j.indexed)
    (threshold : Nat) (r : Record) : (x.placed threshold r).Within j (count + 1) := by
  obtain ⟨hw, hr⟩ := W.indexed hj
  unfold Appended.placed
  split
  next hring =>
    obtain ⟨hread, ⟨m, hm, hindex⟩, hbehind⟩ := W
    have hfill := hring.2
    rw [Journal.fill] at hfill
    refine ⟨hread, ⟨m + 1, by omega, ?_⟩, fun w hmem => ?_⟩
    · simp only [hindex]
      omega
    · rw [Journal.fill]
      rcases List.mem_append.1 hmem with hold | hnew
      · obtain ⟨hlt, hpos⟩ := hbehind w hold
        rw [Journal.fill, ← hread] at hpos
        rw [← hread]
        exact ⟨hlt, by dsimp only; omega⟩
      · rw [List.mem_singleton.1 hnew, ← hread]
        exact ⟨hw, by dsimp only; omega⟩
  next => exact W.more.stay rfl rfl rfl

theorem Appended.Within.ask {j : Journal} {count : Nat} {x : Appended} (W : x.Within j count) (hj : j.indexed)
    (threshold : Nat) (a : Asked) : (Appended.ask threshold x a).Within j (count + 1) := by
  obtain ⟨pledged, r⟩ := a
  cases pledged with
  | true =>
    rw [Appended.ask_pledged]
    exact (W.stay rfl rfl rfl : x.pledgeUsed.Within j count).placed hj threshold r
  | false =>
    rw [Appended.ask_unpledged]
    split
    · exact W.placed hj threshold r
    · exact W.more.stay rfl rfl rfl

theorem askedAll_append (s : State) (asks : List Asked) (a : Asked) :
    askedAll s (asks ++ [a]) = Appended.ask (thresholdOf s) (askedAll s asks) a := by
  rw [askedAll, List.foldl_append]
  rfl

theorem askedAll_within {s : State} (hj : s.journal.indexed) (asks : List Asked) :
    (askedAll s asks).Within s.journal asks.length := by
  induction asks using List.reverseRecOn with
  | nil => exact ⟨rfl, ⟨0, Nat.le_refl 0, by obtain ⟨hw, -⟩ := hj; exact (Nat.mod_eq_of_lt hw).symm⟩, by simp [askedAll]⟩
  | append_singleton asks a ih =>
    rw [askedAll_append, List.length_append]
    exact ih.ask hj _ a

theorem Appended.Within.fresh {j : Journal} {count : Nat} {x : Appended} (W : x.Within j count) :
    x.fresh := by
  intro w hw
  obtain ⟨hlt, hpos⟩ := W.behind w hw
  refine ⟨hlt, fun heq => ?_⟩
  rw [Journal.fill, W.read, heq] at hpos
  exact Nat.lt_irrefl _ hpos

/-! ### A run of records with changes between them -/

/-- The bytes that changes beside the records may write: none of the Journal Writer's, and not the threshold. -/
def besideWriter (Q : Nat → Prop) : Prop := ∀ a, Q a → ¬inWriter a ∧ ¬inField hdrThreshold 2 a

/-- A state reached from `s` with these records asked for, memory changed at `Q` alone beside the appends, and attention
raised by `b`. -/
structure Ran (s t : State) (Q : Nat → Prop) (b : BitVec 8) (asks : List Asked) : Prop where
  indexed : s.journal.indexed
  beside : besideWriter Q
  wf : t.mem.wf
  attn : attnRaised s t b
  bytes : ∀ a, ¬Q a → ¬inAppends s asks.length a → t.mem.byteAt a = s.mem.byteAt a
  records : RecordsStand s t (askedAll s asks)

/-- No record asked for yet. -/
theorem Ran.start {s t : State} {Q : Nat → Prop} (hok : s.ok) (hQ : besideWriter Q) (hm : t.mem.wf)
    (hb : ∀ a, ¬Q a → t.mem.byteAt a = s.mem.byteAt a) (hj : t.journal = s.journal) (ha : t.attn = s.attn) :
    Ran s t Q 0#8 [] where
  indexed := hok.2
  beside := hQ
  wf := hm
  attn := ⟨0#8, by decide, by simp [ha]⟩
  bytes := fun a h _ => hb a h
  records := .none hj ⟨by rw [ha], by rw [ha]⟩

section
variable {s t : State} {Q : Nat → Prop} {b : BitVec 8} {asks : List Asked} (R : Ran s t Q b asks)
include R

theorem Ran.recorded : recorded s t asks := (recorded_iff s t asks).2 R.records

theorem Ran.keeps {P : Nat → Prop} (hQ : ∀ a, Q a → P a) (ha : ∀ a, inAppends s asks.length a → P a) : keepsBytes s t P :=
  fun a h => R.bytes a (fun hq => h (hQ a hq)) fun hr => h (ha a hr)

/-- A change beside the Journal Writer that raises `c`. -/
theorem Ran.amend {u : State} {c : BitVec 8} (hm : u.mem.wf) (hb : ∀ a, ¬Q a → u.mem.byteAt a = t.mem.byteAt a)
    (hj : u.journal = t.journal) (ha : u.attn = t.attn ||| c) (hc : c &&& 6#8 = 0) : Ran s u Q (b ||| c) asks where
  indexed := R.indexed
  beside := R.beside
  wf := hm
  attn := by
    obtain ⟨j, hjournal, hattn⟩ := R.attn
    exact ⟨j, hjournal, by rw [ha, hattn, BitVec.or_assoc, BitVec.or_comm j, ← BitVec.or_assoc, ← BitVec.or_assoc]⟩
  bytes := fun a h h' => (hb a h).trans (R.bytes a h h')
  records := R.records.right (fun w hw => ((askedAll_within R.indexed asks).behind w hw).1) hj
    (fun a hw => hb a fun hq => (R.beside a hq).1 hw) (sameCauses_of_attn hc ha)

/-- A change beside the Journal Writer that raises nothing. -/
theorem Ran.still {u : State} (hm : u.mem.wf) (hb : ∀ a, ¬Q a → u.mem.byteAt a = t.mem.byteAt a)
    (hj : u.journal = t.journal) (ha : u.attn = t.attn) : Ran s u Q b asks := by
  simpa using R.amend (c := 0#8) hm hb hj (by simp [ha]) (by decide)

/-- A change that leaves memory, the Journal Writer and attention. -/
theorem Ran.same {u : State} (hm : u.mem = t.mem) (hj : u.journal = t.journal) (ha : u.attn = t.attn) :
    Ran s u Q b asks :=
  R.still (hm ▸ R.wf) (fun _ _ => by rw [hm]) hj ha

/-- The bytes of the next append are among those of one append more. -/
theorem Ran.inAppend {a : Nat} (h : inAppend t a) : inAppends s (asks.length + 1) a := by
  obtain ⟨m, hm, hindex⟩ := (askedAll_within R.indexed asks).index
  rw [Machine.inAppend, R.records.journal, hindex] at h
  exact h.imp_left fun hring => ⟨m, by omega, hring⟩

theorem Ran.threshold : thresholdOf t = thresholdOf s := by
  have hsame : t.peek hdrThreshold 2 = s.peek hdrThreshold 2 := Memory.read_congr fun a h1 h2 =>
    R.bytes a (fun hq => (R.beside a hq).2 ⟨h1, h2⟩) fun hr => by
      unfold inAppends inField journalBase hdrWriteIndex hdrDropped at hr
      unfold hdrThreshold at h1 h2
      omega
  rw [thresholdOf, thresholdOf, hsame]

/-- One record more asked for. -/
theorem Ran.ask (a : Asked) : Ran s (appendAsked a t) Q b (asks ++ [a]) where
  indexed := R.indexed
  beside := R.beside
  wf := appendAsked_wf a R.wf
  attn := by
    obtain ⟨i, hi, ha⟩ := R.attn
    obtain ⟨j, hj, hb⟩ := appendAsked_attn a t
    refine ⟨i ||| j, ?_, by rw [hb, ha, BitVec.or_assoc]⟩
    rw [or_and_bits, hi, hj]
    rfl
  bytes := fun x hq hr => by
    rw [List.length_append] at hr
    refine (byteAt_appendAsked a R.wf fun h => hr (R.inAppend h)).trans (R.bytes x hq fun h => hr ?_)
    exact h.imp_left fun ⟨i, hi, hring⟩ => ⟨i, by simp only [List.length_singleton]; omega, hring⟩
  records := by
    have W := askedAll_within R.indexed asks
    rw [askedAll_append]
    exact R.records.asked (W.fresh) R.wf (R.records.journal ▸ W.indexed R.indexed) R.threshold a

end

end Sys2Proof.Machine
end

section
/-! PROOFS. READER_LOST at a port in service (R49, R52, R53). -/

namespace Sys2Proof.Machine

/-! ### The lane of a port -/

theorem servedLane_port {s : State} {p n : Fin 4} (h : servedLane s p = some n) : (s.lane n).config.port = p := by
  have hserves := List.find?_some h
  rw [laneServes, Bool.and_eq_true] at hserves
  exact of_decide_eq_true hserves.2

/-! ### An event that changes READER_LOST, before its outputs settle -/

/-- The bytes of a port's causes and of a lane's cue in the Lane Blocks. -/
def readerBytes (p n : Fin 4) (a : Nat) : Prop :=
  inField (laneBlockBase p.val + 72) 4 a ∨ inField (laneBlockBase n.val + 112) 6 a

theorem besideWriter_readerBytes (p n : Fin 4) : besideWriter (readerBytes p n) := by
  intro a ha
  have := p.isLt
  have := n.isLt
  unfold readerBytes inField laneBlockBase at ha
  unfold inWriter inField hdrThreshold
  omega

/-- One LANE record asked for, the port as `x`, the lane's cue and levels changed, and nothing else. -/
structure LostShown (s : State) (p n : Fin 4) (x : Port) (b : BitVec 8) (r : Record) (e : State) : Prop where
  ran : Ran s e (readerBytes p n) b [(false, r)]
  rest : e.rest = s.rest
  lane : e.lane n = { s.lane n with cue := (e.lane n).cue, levels := (e.lane n).levels }
  others : keepsOtherLanes s e n
  port : e.port p = x
  ports : keepsOtherPorts s e p

/-- What an event at a port leaves of the lanes, the other ports and the bytes. -/
def readerFrame (s : State) (p n : Fin 4) (t : State) : Prop :=
  keepsOtherPorts s t p ∧ keepsOtherLanes s t n ∧ keepsSetup s t n ∧ (t.lane n).state = (s.lane n).state
    ∧ (t.lane n).window = (s.lane n).window
    ∧ t = { s with mem := t.mem, attn := t.attn, journal := t.journal, lanes := t.lanes, ports := t.ports }
    ∧ keepsBytes s t (fun a => inAppend s a ∨ inField (laneBlockBase p.val + 72) 4 a
        ∨ inField (laneBlockBase n.val + 112) 6 a)

theorem inAppends_one {s : State} (hok : s.journal.indexed) {a : Nat} (h : inAppends s 1 a) : inAppend s a := by
  obtain ⟨hw, -⟩ := hok
  refine h.imp_left fun ⟨i, hi, hring⟩ => ?_
  obtain rfl : i = 0 := by omega
  rwa [Nat.add_zero, Nat.mod_eq_of_lt hw] at hring

section
variable {s e : State} {p n : Fin 4} {x : Port} {b : BitVec 8} {r : Record}

theorem LostShown.cues (L : LostShown s p n x b r e) : cuesAlone s e := by
  intro m
  by_cases hm : m = n
  · rw [hm]
    exact L.lane
  · rw [L.others m hm]

theorem LostShown.settled_lane (L : LostShown s p n x b r e) (m : Fin 4) : (settleOutputs s e).lane m = e.lane m :=
  settleOutputs_lane_cues (evacuate_of_rest L.rest) L.cues m

/-- The end of such an event shows the port and the cue, and leaves the record. -/
theorem LostShown.settled (L : LostShown s p n x b r e) :
    (settleOutputs s e).port p = x ∧ attnRaised s (settleOutputs s e) b ∧ unpledgedRecord s (settleOutputs s e) r
      ∧ readerFrame s p n (settleOutputs s e) := by
  have R : Ran s (settleOutputs s e) (readerBytes p n) b [(false, r)] :=
    L.ran.still (settleOutputs_wf s L.ran.wf) (fun a ha =>
      byteAt_settleOutputs_cues L.ran.wf (stateMirror_of_rest L.rest.symm) L.cues
        (fun m hm => L.others m fun h => ha (.inr (h ▸ hm))) (fun m hm => L.ports m fun h => ha (.inl (h ▸ hm)))) rfl rfl
  have hlane := L.settled_lane
  refine ⟨(settleOutputs_port ..).trans L.port, R.attn, unpledgedRecord_of_asked R.records,
    fun q hq => (settleOutputs_port ..).trans (L.ports q hq), fun m hm => (hlane m).trans (L.others m hm), ?_, ?_, ?_, ?_, ?_⟩
  · rw [keepsSetup, hlane, L.lane]
    rfl
  · rw [hlane, L.lane]
  · rw [hlane, L.lane]
  · exact eq_of_rest (s := s) ((settleOutputs_rest ..).trans L.rest)
  · exact R.keeps (fun a ha => .inr ha) fun a ha => .inl (inAppends_one L.ran.indexed ha)

/-- A change of the port beside its causes. -/
theorem LostShown.setPort (L : LostShown s p n x b r e) (y : Port) : LostShown s p n y b r (e.setPort p y) where
  ran := L.ran.same rfl rfl rfl
  rest := L.rest
  lane := L.lane
  others := L.others
  port := port_setPort_same e p y
  ports := fun q hq => (port_setPort_other e y hq).trans (L.ports q hq)

end

/-! ### READER_LOST set and cleared (R53) -/

theorem setCauses_changed {s : State} {p n : Fin 4} {silent rf : Bool} (h : (s.port p).readerLost ≠ (silent || rf))
    (hn : servedLane s p = some n) :
    setCauses p silent rf s =
      lostChanged n (silent || rf) (s.setPort p { s.port p with silent := silent, rfFault := rf }) := by
  unfold setCauses
  dsimp only
  rw [port_modPort_same, hn]
  exact if_neg h

/-- The LANE record of a READER_LOST change (R53). -/
def lostRecord (s : State) (n : Fin 4) (lost silent rf : Bool) : Record :=
  ⟨some n, s.day, s.ms, [], none,
    .lane (s.lane n).state.code (s.lane n).state.faultCode (s.lane n).state.faultExit true lost silent rf⟩

/-- The LANE record is asked for of the state as the port's change and the cue left it. -/
theorem laneRecord_lost {s u : State} {p n : Fin 4} {x : Port} (hrest : u.rest = s.rest)
    (hlane : (u.lane n).state = (s.lane n).state) (hconfig : (u.lane n).config.port = p) (hport : u.port p = x) :
    laneRecord n true u = appendAsked (false, lostRecord s n x.readerLost x.silent x.rfFault) u := by
  unfold laneRecord lostRecord mkRecord
  dsimp only
  rw [hconfig, hport, hlane, day_of_rest hrest, ms_of_rest hrest]
  rfl

theorem lostChanged_cleared_eq (n : Fin 4) (u : State) :
    lostChanged n false u =
      if (u.lane n).state.code = 2 then handOutcome n .ready (laneRecord n true u) else laneRecord n true u := by
  unfold lostChanged
  rw [if_neg Bool.false_ne_true]
  dsimp only
  cases (u.lane n).state <;> rfl

section
variable {s : State} {p n : Fin 4} {x : Port} (hok : s.ok) (hn : servedLane s p = some n)
include hok

theorem ran_setPort : Ran s (s.setPort p x) (readerBytes p n) 0#8 [] :=
  .start hok (besideWriter_readerBytes p n) hok.1 (fun _ _ => rfl) rfl rfl

include hn

theorem lostChanged_set (hx : x.readerLost = true) :
    LostShown s p n x 0x10#8 (lostRecord s n true x.silent x.rfFault) (lostChanged n true (s.setPort p x))
      ∧ cueHanded s (lostChanged n true (s.setPort p x)) n .noReader := by
  have hports := port_of_ports (handOutcome_ports n .noReader (s.setPort p x))
  have hrecord := laneRecord_lost (s := s) (u := handOutcome n .noReader (s.setPort p x)) (p := p) (n := n) (x := x)
    (handOutcome_rest ..) (by rw [handOutcome_lane]; rfl) (by rw [handOutcome_lane]; exact servedLane_port hn)
    ((hports p).trans (port_setPort_same s p x))
  have hlanes : (lostChanged n true (s.setPort p x)).lanes = (handOutcome n .noReader (s.setPort p x)).lanes := by
    rw [lostChanged, if_pos rfl, raise_lanes, laneRecord_lanes]
  have hcue := handOutcome_congr n .noReader (s := s) (t := s.setPort p x) rfl rfl rfl rfl rfl fun _ _ => rfl
  refine ⟨⟨?_, by simp [lostChanged], ?_, fun m hm => ?_, ?_, fun q hq => ?_⟩, ?_⟩
  · rw [lostChanged, if_pos rfl, hrecord, hx]
    refine ((((ran_setPort hok).same (handOutcome_mem ..) (handOutcome_journal ..) (handOutcome_attn ..)).ask
      (false, lostRecord s n true x.silent x.rfFault)).amend (c := 0x10#8) ?_ (fun _ _ => rfl) rfl rfl (by decide))
    exact appendAsked_wf _ (by rw [handOutcome_mem]; exact hok.1)
  · rw [lane_of_lanes hlanes, handOutcome_lane]
    rfl
  · rw [lane_of_lanes hlanes, handOutcome_lane_other _ _ hm]
    rfl
  · rw [lostChanged, if_pos rfl, port_of_ports (raise_ports ..), port_of_ports (laneRecord_ports ..), hports]
    exact port_setPort_same s p x
  · rw [lostChanged, if_pos rfl, port_of_ports (raise_ports ..), port_of_ports (laneRecord_ports ..), hports]
    exact port_setPort_other s x hq
  · rw [cueHanded, lane_of_lanes hlanes]
    exact hcue

theorem lostChanged_cleared (hs : x.silent = false) (hrf : x.rfFault = false) :
    LostShown s p n x 0#8 (lostRecord s n false false false) (lostChanged n false (s.setPort p x))
      ∧ ((s.lane n).state.code = 2 → cueHanded s (lostChanged n false (s.setPort p x)) n .ready)
      ∧ ((s.lane n).state.code ≠ 2 → cueKept s (lostChanged n false (s.setPort p x)) n) := by
  have hrecord := laneRecord_lost (s := s) (u := s.setPort p x) (p := p) (n := n) (x := x) rfl rfl (servedLane_port hn)
    (port_setPort_same s p x)
  have hlost : x.readerLost = false := by rw [Port.readerLost, hs, hrf]; rfl
  rw [hlost, hs, hrf] at hrecord
  have shown : LostShown s p n x 0#8 (lostRecord s n false false false) (laneRecord n true (s.setPort p x)) := by
    refine ⟨?_, laneRecord_rest .., ?_, fun m _ => ?_, ?_, fun q hq => ?_⟩
    · rw [hrecord]
      exact (ran_setPort hok).ask _
    · rw [lane_of_lanes (laneRecord_lanes ..)]
      rfl
    · rw [lane_of_lanes (laneRecord_lanes ..)]
      rfl
    · rw [port_of_ports (laneRecord_ports ..), port_setPort_same]
    · rw [port_of_ports (laneRecord_ports ..), port_setPort_other s x hq]
  rw [lostChanged_cleared_eq, lane_setPort]
  have hlane : (laneRecord n true (s.setPort p x)).lane n = s.lane n := lane_of_lanes (laneRecord_lanes ..) n
  split
  next hready =>
    refine ⟨⟨shown.ran.same (handOutcome_mem ..) (handOutcome_journal ..) (handOutcome_attn ..),
      (handOutcome_rest ..).trans shown.rest, ?_, fun m hm => ?_, ?_, fun q hq => ?_⟩, fun _ => ?_, fun h => absurd hready h⟩
    · rw [handOutcome_lane, hlane]
    · rw [handOutcome_lane_other _ _ hm, shown.others m hm]
    · rw [port_of_ports (handOutcome_ports ..), shown.port]
    · rw [port_of_ports (handOutcome_ports ..), shown.ports q hq]
    · refine handOutcome_congr n .ready (by rw [hlane]) (by rw [hlane]) (by rw [hlane]) (by rw [hlane])
        (now_of_rest shown.rest) fun a ha => shown.ran.bytes a (fun h => ?_) fun h => ?_
      · have := p.isLt
        have := n.isLt
        unfold readerBytes inField laneBlockBase at h
        unfold inCueTable inField at ha
        omega
      · have := inAppend_region hok.2.1 (inAppends_one hok.2 h)
        unfold inCueTable inField at ha
        omega
  next hready => exact ⟨shown, fun h => absurd h hready, fun _ => ⟨by rw [hlane], by rw [hlane]⟩⟩

end

/-! ### What is heard and acted on (R49, R52) -/

/-- A port at which a valid frame was heard. -/
def Port.heard (x : Port) : Port := { x with silent := false, silence := some 0, gap := 0 }

theorem setCauses_setPort_kept (s : State) (p : Fin 4) {x y : Port} {silent rf : Bool}
    (hx : { y with silent := silent, rfFault := rf } = x) (h : y.readerLost = x.readerLost) :
    setCauses p silent rf (s.setPort p y) = s.setPort p x := by
  subst hx
  rw [setCauses_kept, port_setPort_same, setPort_setPort]
  rw [port_setPort_same, h]
  rfl

theorem setCauses_setPort_changed {s : State} {p n : Fin 4} {x y : Port} {silent rf : Bool}
    (hx : { y with silent := silent, rfFault := rf } = x) (h : y.readerLost ≠ x.readerLost)
    (hn : servedLane s p = some n) :
    setCauses p silent rf (s.setPort p y) = lostChanged n x.readerLost (s.setPort p x) := by
  subst hx
  have hne : ((s.setPort p y).port p).readerLost ≠ (silent || rf) := by
    rw [port_setPort_same]
    exact h
  rw [setCauses_changed hne (by rw [servedLane_setPort]; exact hn), port_setPort_same, setPort_setPort]
  rfl

/-- A valid frame at a SILENT port in service clears SILENT (R53). -/
theorem hearFrame_silent {s : State} {p n : Fin 4} (h : inService s p = true) (hn : servedLane s p = some n)
    (hs : (s.port p).silent = true) :
    hearFrame p (s.setPort p { s.port p with gap := 0 }) =
      if (s.port p).rfFault then s.setPort p (s.port p).heard
      else lostChanged n false (s.setPort p (s.port p).heard) := by
  have hlost : (s.port p).readerLost = true := by rw [Port.readerLost, hs]; rfl
  have hheard : (s.port p).heard.readerLost = (s.port p).rfFault := Bool.false_or _
  unfold hearFrame
  rw [inService_setPort, if_pos h, State.modPort, port_setPort_same, setPort_setPort]
  split
  next hrf => exact setCauses_setPort_kept s p rfl (hlost.trans (hheard.trans hrf).symm)
  next hrf =>
    rw [Bool.not_eq_true] at hrf
    refine (setCauses_setPort_changed (x := (s.port p).heard)
      (y := { s.port p with silence := some 0, gap := 0 }) rfl (fun h => ?_) hn).trans (by rw [hheard, hrf])
    rw [hheard, hrf] at h
    exact Bool.false_ne_true (h.symm.trans hlost)

/-- A STATUS of the value held changes no cause (R52). -/
theorem actStatus_held {e : State} {p : Fin 4} {rf : Bool} (h : (e.port p).rfFault = rf) : actStatus p rf e = e := by
  unfold actStatus
  split
  · rw [setCauses_kept, ← h]
    · exact setPort_self e p
    · rw [← h, Port.readerLost]
  · rfl

/-- A STATUS at a port in service that is not SILENT sets or clears READER_LOST (R52, R53). -/
theorem actStatus_changed {s : State} {p n : Fin 4} {x y : Port} {rf : Bool} (h : inService s p = true)
    (hn : servedLane s p = some n) (hs : y.silent = false) (hrf : y.rfFault ≠ rf) (hx : { y with rfFault := rf } = x) :
    actStatus p rf (s.setPort p y) = lostChanged n rf (s.setPort p x) := by
  have hlost : x.readerLost = rf := by
    rw [← hx, Port.readerLost, hs]
    rfl
  unfold actStatus
  rw [inService_setPort, if_pos h, port_setPort_same, setCauses_setPort_changed hx (fun h => ?_) hn, hlost]
  rw [hlost, Port.readerLost, hs] at h
  exact hrf h

/-- A frame that changes no cause, heard at a SILENT port: what it makes of the port (R49, R51, R52). -/
theorem act_causeless {s : State} {p : Fin 4} (hin : inService s p = true) (hparser : (s.port p).parser = .hunt)
    {c : Instr} {x : Port}
    (hc : (∃ uid : List Byte, (uid.length = 4 ∨ uid.length = 7 ∨ uid.length = 10) ∧ c = .gone p uid
          ∧ x = { s.port p with
              silent := false, silence := some 0, gap := 0
              repeatRec := (s.port p).repeatRec.filter fun r => r.uid ≠ uid })
        ∨ (∃ code : Byte, (code = 0x00 ∨ code = 0x01) ∧ ((s.port p).rfFault = true ↔ code = 0x01) ∧ c = .status p code
          ∧ x = { s.port p with silent := false, silence := some 0, gap := 0 })
        ∨ (s.station = .quieting ∧ ∃ (q : Byte) (stamp : Word) (uid : List Byte), q.toNat ≤ 3
          ∧ (uid.length = 4 ∨ uid.length = 7 ∨ uid.length = 10) ∧ c = .tap p q stamp uid
          ∧ x = { s.port p with silent := false, silence := some 0, gap := 0 })) :
    ∃ act : State → State,
      exec c s = .next (settleOutputs s (act (hearFrame p (s.setPort p { s.port p with gap := 0 }))))
        ∧ ∀ e : State, e.station = s.station → e.port p = (s.port p).heard → act e = e.setPort p x := by
  have hs : s.station ≠ .starting := by
    obtain ⟨h | h, -⟩ := (inService_iff s p).mp hin <;> rw [h] <;> simp
  rcases hc with ⟨uid, hu, rfl, rfl⟩ | ⟨code, hcode, hheld, rfl, rfl⟩ | ⟨hq, q, stamp, uid, hqual, hu, rfl, rfl⟩
  · refine ⟨_, exec_gone hs hparser hu, fun e _ hport => ?_⟩
    rw [actGone_eq, hport]
    rfl
  · refine ⟨_, exec_status hs hparser hcode, fun e _ hport => ?_⟩
    rw [actStatus_held (by rw [hport]; exact Bool.eq_iff_iff.mpr (by rw [decide_eq_true_eq]; exact hheld))]
    exact (setPort_self e p).symm.trans (by rw [hport]; rfl)
  · refine ⟨_, exec_tap hs hparser hqual stamp hu, fun e hst hport => ?_⟩
    rw [actTap_idle (.inl (by rw [hst, hq]; simp))]
    exact (setPort_self e p).symm.trans (by rw [hport]; rfl)

/-- Settles O13: SILENT and STATUS at a port that is not SILENT, then the frames that clear SILENT. -/
theorem readerLostFollowsCauses : Obligations.ReaderLostFollowsCauses := by
  intro s p n hok hin hn record frame back
  have portAlone (x : Port) : ∃ t, (.next (settleOutputs s (s.setPort p x)) : Host.Outcome State Fault Refusal) = .next t
      ∧ t = { s.setPort p x with mem := t.mem } ∧ keepsBytes s t (inField (laneBlockBase p.val + 72) 4) :=
    ⟨_, rfl, settleOutputs_setPort_mem s p x, fun _ ha => byteAt_settleOutputs_setPort hok.1 p x ha⟩
  have lostSet (x : Port) (hx : x.readerLost = true) :
      ∃ t, (.next (settleOutputs s (lostChanged n true (s.setPort p x))) : Host.Outcome State Fault Refusal) = .next t
        ∧ t.port p = x ∧ cueHanded s t n .noReader ∧ attnRaised s t 0x10
        ∧ unpledgedRecord s t (record true x.silent x.rfFault) ∧ frame t := by
    obtain ⟨shown, hcue, hlevels⟩ := lostChanged_set hok hn hx
    obtain ⟨hport, hattn, hrecord, hframe⟩ := shown.settled
    exact ⟨_, rfl, hport, ⟨by rw [shown.settled_lane]; exact hcue, by rw [shown.settled_lane]; exact hlevels⟩, hattn,
      hrecord, hframe⟩
  have settledBack (x : Port) (e : State) (shown : LostShown s p n x 0#8 (lostRecord s n false false false) e)
      (hready : (s.lane n).state.code = 2 → cueHanded s e n .ready)
      (hother : (s.lane n).state.code ≠ 2 → cueKept s e n) :
      ∃ t, (.next (settleOutputs s e) : Host.Outcome State Fault Refusal) = .next t ∧ t.port p = x ∧ back t := by
    obtain ⟨hport, hattn, hrecord, hframe⟩ := shown.settled
    have hlane := shown.settled_lane n
    refine ⟨_, rfl, hport, fun h => ?_, fun h => ?_, hattn, hrecord, hframe⟩
    · rw [cueHanded, hlane]
      exact hready h
    · rw [cueKept, hlane]
      exact hother h
  have hstation : s.station ≠ .starting := by
    obtain ⟨h | h, -⟩ := (inService_iff s p).mp hin <;> rw [h] <;> simp
  refine ⟨fun hsilent => ⟨fun c hc hlong => ?_, fun hparser => ?_⟩, fun hsilent hparser c x hc => ?_⟩
  · have hrun : exec (.silent p) s = .next (settleOutputs s (setCauses p true (s.port p).rfFault s)) := by
      have hreached : silenceReached s p = true := by simp [silenceReached, hin, hc, hlong]
      exact if_pos hreached
    refine ⟨fun hrf => ?_, fun hrf => ?_⟩
    · rw [hrun, setCauses_changed (by rw [Port.readerLost, hsilent, hrf]; simp) hn]
      have := lostSet { s.port p with silent := true } rfl
      rwa [hrf] at this
    · rw [hrun, setCauses_kept (by rw [Port.readerLost, hsilent, hrf]; rfl)]
      exact portAlone _
  · have heard : hearFrame p (s.setPort p { s.port p with gap := 0 }) =
        s.setPort p { s.port p with silence := some 0, gap := 0 } := by
      rw [hearFrame_sound (by rw [inService_setPort]; exact hin) (by rw [port_setPort_same]; exact hsilent),
        setPort_setPort, port_setPort_same]
    refine ⟨fun hrf => ?_, fun hrf => ?_, fun code hcode hheld => ?_⟩
    · rw [exec_status hstation hparser (.inr rfl), heard, decide_eq_true rfl,
        actStatus_changed (y := { s.port p with silence := some 0, gap := 0 }) hin hn hsilent (fun h => Bool.false_ne_true (hrf.symm.trans h)) rfl]
      have := lostSet { s.port p with rfFault := true, silence := some 0, gap := 0 } (Bool.or_true _)
      rwa [hsilent] at this
    · rw [exec_status hstation hparser (.inl rfl), heard, decide_eq_false (by decide),
        actStatus_changed (y := { s.port p with silence := some 0, gap := 0 }) hin hn hsilent (fun h => Bool.false_ne_true (h.symm.trans hrf)) rfl]
      obtain ⟨shown, hready, hother⟩ :=
        lostChanged_cleared (x := { s.port p with rfFault := false, silence := some 0, gap := 0 }) hok hn hsilent rfl
      exact settledBack _ _ shown hready hother
    · rw [exec_status hstation hparser hcode, heard, actStatus_held]
      · exact congrArg _ (settleOutputs_setPort s p rfl)
      · rw [port_setPort_same]
        exact Bool.eq_iff_iff.mpr (by rw [decide_eq_true_eq]; exact hheld)
  · obtain ⟨act, hrun, hact⟩ := act_causeless hin hparser hc
    rw [hearFrame_silent hin hn hsilent] at hrun
    refine ⟨fun hrf => ?_, fun hrf => ?_⟩
    · rw [hrun, hrf, if_neg Bool.false_ne_true]
      obtain ⟨shown, hready, hother⟩ := lostChanged_cleared (x := (s.port p).heard) hok hn rfl hrf
      rw [hact _ (station_of_rest shown.rest) shown.port]
      exact settledBack _ _ (shown.setPort x) hready hother
    · rw [hrun, hrf, if_pos rfl, hact (s.setPort p (s.port p).heard) rfl (port_setPort_same ..), setPort_setPort]
      exact portAlone x

end Sys2Proof.Machine
end

section
/-! PROOFS. SET_LANE: the payload it reads, its refusals, and a configuration stored without a record (R56, R88 to R90). -/

namespace Sys2Proof.Machine

/-! ### The payload (R88, R89) -/

theorem fourOf_none {v : Nat} (h : 3 < v) : fourOf v = none := dif_neg (by omega)

theorem fourOf_val {v : Nat} {n : Fin 4} (h : v = n.val) : fourOf v = some n := by
  subst h
  exact dif_pos n.isLt

theorem roleOfCode_none {v : Nat} (h : 2 < v) : roleOfCode v = none := by
  unfold roleOfCode
  split
  · omega
  · omega
  · omega
  · rfl

theorem driveOfCode_none {v : Nat} (h : 1 < v) (width : Nat) : driveOfCode v width = none := by
  unfold driveOfCode
  split
  · omega
  · omega
  · rfl

/-- A cue map byte of 32 to 254 is refused (R89). -/
theorem cueByteOk_false {v : Nat} (h : 31 < v) (hv : v < 0xFF) : cueByteOk v = false := by
  unfold cueByteOk
  rw [decide_eq_false (by omega), decide_eq_false (by omega)]
  rfl

/-- A field beyond its bound (R89). -/
theorem readSetLane_none {s : State} {k : Nat}
    (h : 3 < payload s k 8 1 ∨ 2 < payload s k 9 1 ∨ 1 < payload s k 14 1 ∨ 3 < payload s k 17 1
      ∨ ∃ i < 13, 31 < payload s k (18 + i) 1 ∧ payload s k (18 + i) 1 < 0xFF) : readSetLane s k = none := by
  unfold readSetLane
  dsimp only
  split
  next lane role drive port hlane hrole hdrive hport =>
    rcases h with h | h | h | h | ⟨i, hi, hlow, hhigh⟩
    · exact absurd (hlane.symm.trans (fourOf_none h)) (by simp)
    · exact absurd (hrole.symm.trans (roleOfCode_none h)) (by simp)
    · exact absurd (hdrive.symm.trans (driveOfCode_none h _)) (by simp)
    · exact absurd (hport.symm.trans (fourOf_none h)) (by simp)
    · refine if_neg fun hall => ?_
      have hcue := List.all_eq_true.mp hall _ (List.mem_map.mpr ⟨i, List.mem_range.mpr hi, rfl⟩)
      rw [cueByteOk_false hlow hhigh] at hcue
      exact Bool.false_ne_true hcue
  next => rfl

/-- Each byte of a cue map names a list or NONE. -/
theorem cueBytes_read {f : Nat → Nat} {cues : List (Option (Fin 32))} (hlen : cues.length = 13)
    (h : ∀ i < 13, (∃ list : Fin 32, f i = list.val ∧ cues[i]? = some (some list))
      ∨ f i = 0xFF ∧ cues[i]? = some none) :
    ((List.range 13).map f).all cueByteOk = true ∧ ((List.range 13).map f).map cueOf = cues := by
  constructor
  · rw [List.all_eq_true]
    intro v hv
    obtain ⟨i, hi, rfl⟩ := List.mem_map.mp hv
    rcases h i (List.mem_range.mp hi) with ⟨list, hlist, -⟩ | ⟨hnone, -⟩
    · have := list.isLt
      rw [hlist, cueByteOk, decide_eq_true (by omega)]
      rfl
    · rw [hnone]
      rfl
  · refine List.ext_getElem? fun i => ?_
    by_cases hi : i < 13
    · simp only [List.getElem?_map, List.getElem?_range hi, Option.map_some]
      rcases h i hi with ⟨list, hlist, hcue⟩ | ⟨hnone, hcue⟩
      · rw [hcue, hlist, cueOf, dif_pos list.isLt]
      · rw [hcue, hnone]
        rfl
    · rw [List.getElem?_eq_none (by simp; omega), List.getElem?_eq_none (by omega)]

/-- The take leaves the payload of SET_LANE. -/
theorem readSetLane_takeSlot (k : Fin 32) {s : State} (h : s.mem.wf) :
    readSetLane (takeSlot k s) k.val = readSetLane s k.val := by
  have cues : (fun i => payload (takeSlot k s) k.val (18 + i) 1) = fun i => payload s k.val (18 + i) 1 :=
    funext fun i => payload_takeSlot k h (by omega)
  have at2 (off n : Nat) (ho : 8 ≤ off) : payload (takeSlot k s) k.val off n = payload s k.val off n :=
    payload_takeSlot k h (by omega)
  unfold readSetLane
  rw [cues, at2 8 1 (by decide), at2 9 1 (by decide), at2 14 1 (by decide), at2 15 2 (by decide), at2 17 1 (by decide),
    at2 10 2 (by decide), at2 12 2 (by decide)]

theorem sourcesMapped_iff (s : State) (n : Fin 4) (role : LaneRole) :
    sourcesMapped s n role = true ↔
      (role = .entry → (s.lane n).arm.source ≠ none ∧ (s.lane n).entryBeam.source ≠ none
          ∧ (s.lane n).exitBeam.source ≠ none)
        ∧ (role = .ret → (s.lane n).switch.source ≠ none) := by
  cases role with
  | down => simp [sourcesMapped]
  | entry => simp [sourcesMapped, Option.isSome_iff_ne_none, and_assoc]
  | ret => simp [sourcesMapped, Option.isSome_iff_ne_none]

/-! ### The body of SET_LANE -/

theorem setLaneOrder_unread {k : Fin 32} {s : State} (h : s.mem.wf) (hr : readSetLane s k.val = none) :
    setLaneOrder k (takeSlot k s) = endOrder k .badField (takeSlot k s) := by
  rw [setLaneOrder, readSetLane_takeSlot k h, hr]

theorem setLaneOrder_unmapped {k : Fin 32} {s : State} {n : Fin 4} {c : LaneConfig} (h : s.mem.wf)
    (hr : readSetLane s k.val = some (n, c)) (hm : sourcesMapped s n c.role = false) :
    setLaneOrder k (takeSlot k s) = endOrder k .badField (takeSlot k s) := by
  rw [setLaneOrder, readSetLane_takeSlot k h, hr]
  exact if_neg (by rw [show sourcesMapped (takeSlot k s) n c.role = sourcesMapped s n c.role from rfl, hm]; simp)

theorem setLaneOrder_mapped {k : Fin 32} {s : State} {n : Fin 4} {c : LaneConfig} (h : s.mem.wf)
    (hr : readSetLane s k.val = some (n, c)) (hm : sourcesMapped s n c.role = true) :
    setLaneOrder k (takeSlot k s) = carrySetLane ⟨k, n, c⟩ (takeSlot k s) := by
  rw [setLaneOrder, readSetLane_takeSlot k h, hr]
  exact if_pos hm

/-! ### A configuration stored in QUIET, or made pending (R90) -/

/-- A lane whose configurations and lock pulse alone differ from another's. -/
def Lane.reconfigured (l l' : Lane) : Prop :=
  l' = { l with config := l'.config, pendingConfig := l'.pendingConfig, lockPulse := l'.lockPulse }

/-- The end of an event that reconfigured one lane shows its configuration bytes and nothing else. -/
theorem settled_reconfigured {s v : State} {n : Fin 4} (hw : v.mem.wf) (he : v.evacuate = s.evacuate)
    (hmirror : stateMirror s = stateMirror v) (hports : v.ports = s.ports) (hf : (s.lane n).reconfigured (v.lane n))
    (hother : keepsOtherLanes s v n) :
    (∀ m, (settleOutputs s v).lane m = v.lane m)
      ∧ ∀ a, ¬inField (laneBlockBase n.val) 26 a → (settleOutputs s v).mem.byteAt a = v.mem.byteAt a := by
  have hport := port_of_ports hports
  refine ⟨fun m => ?_, fun a ha => ?_⟩
  · refine (settleOutputs_lane ..).trans (drivePulse_same ?_)
    by_cases hm : m = n
    · rw [lockReleased, lockReleased, he, hm, hf]
    · rw [lockReleased, lockReleased, he, hother m hm]
  · by_cases hin : ∃ m, inLaneMirror m a
    · obtain ⟨m, hin⟩ := hin
      by_cases hm : m = n
      · subst hm
        refine byteAt_settleOutputs_kept s hw m hin (.inl (by rwa [length_laneBytes])) (.inr ?_) (.inr ?_)
          (.inr (by rw [hport])) (.inr ?_) (.inr ?_) <;> rw [hf] <;> rfl
      · exact byteAt_settleOutputs_kept s hw m hin (.inr (by rw [hother m hm])) (.inr (by rw [hother m hm]))
          (.inr (by rw [hother m hm])) (.inr (by rw [hport])) (.inr (by rw [hother m hm])) (.inr (by rw [hother m hm]))
    · exact byteAt_settleOutputs_outside s hw (.inr hmirror) fun m h => hin ⟨m, h⟩

/-- The slot of an order that ended as the last of an event. -/
theorem orderEnded_settled {s u : State} {k : Fin 32} (hw : u.mem.wf) (htaken : orderState u k.val = 2)
    (hkind : orderKind u k.val = orderKind s k.val) (hsweep : u.sweepNext = slotAfter k) (r : Result) :
    orderEnded s (settleOutputs s (endOrder k r u)) k r := by
  obtain ⟨hstate, hcode, hkind', hattn⟩ := endOrder_shows k r hw htaken
  have hk := k.isLt
  have slot (a len : Nat) (h0 : 0x100 ≤ a) (h : a + len ≤ 0x1100) :
      (settleOutputs s (endOrder k r u)).peek a len = (endOrder k r u).peek a len :=
    Memory.read_congr fun y h1 h2 => byteAt_settleOutputs_outside s (endOrder_wf k r hw)
      (.inl (by unfold inField hdrState; omega)) fun m hin => by have := inLaneMirror_region hin; omega
  unfold orderEnded
  refine ⟨(slot _ 2 ?_ ?_).trans hstate, (slot _ 1 ?_ ?_).trans hcode, (slot _ 1 ?_ ?_).trans (hkind'.trans hkind), ?_, ?_⟩
  iterate 6 · unfold orderBase; omega
  · rw [settleOutputs_attn, hattn]
    exact or_one_bit _
  · exact (sweepNext_of_rest (s := u) (endOrder_rest ..)).trans hsweep

/-- A state that differs from the one after the take in memory, attention and lanes. -/
theorem eq_of_takeSlot {s t : State} {k : Fin 32} {c : BitVec 8} (hrest : t.rest = (takeSlot k s).rest)
    (ha : t.attn = c) (hp : t.ports = s.ports) (hj : t.journal = s.journal) :
    t = { s with mem := t.mem, attn := c, sweepNext := slotAfter k, lanes := t.lanes } :=
  (eq_of_rest hrest).trans (by rw [ha, hp, hj]; rfl)

/-- An order that reconfigures one lane and ends OK: the slot, the lane's configuration bytes, and nothing else. -/
theorem reconfigures_and_ends {s : State} (k : Fin 32) (hok : s.ok) (n : Fin 4) {f : Lane → Lane}
    (hf : (s.lane n).reconfigured (f (s.lane n))) :
    let t := settleOutputs s (endOrder k .ok ((takeSlot k s).modLane n f))
    orderEnded s t k .ok ∧ t.lane n = f (s.lane n) ∧ keepsOtherLanes s t n
      ∧ t = { s with mem := t.mem, attn := s.attn ||| 1#8, sweepNext := slotAfter k, lanes := t.lanes }
      ∧ keepsBytes s t (fun a => inOrderEnd k a ∨ inField (laneBlockBase n.val) 26 a) := by
  have htaken : orderState ((takeSlot k s).modLane n f) k.val = 2 := orderState_takeSlot k hok.1
  have hwf : ((takeSlot k s).modLane n f).mem.wf := takeSlot_wf k hok.1
  have hlanes := endOrder_lanes k .ok ((takeSlot k s).modLane n f)
  have hsame : (endOrder k .ok ((takeSlot k s).modLane n f)).lane n = f (s.lane n) := by
    rw [lane_of_lanes hlanes, lane_modLane_same, takeSlot_lane]
  have hother (m : Fin 4) (hm : m ≠ n) : (endOrder k .ok ((takeSlot k s).modLane n f)).lane m = s.lane m := by
    rw [lane_of_lanes hlanes, lane_modLane_other _ _ hm, takeSlot_lane]
  have hrest : (endOrder k .ok ((takeSlot k s).modLane n f)).rest = (takeSlot k s).rest :=
    (endOrder_rest ..).trans (modLane_rest ..)
  have hports : (endOrder k .ok ((takeSlot k s).modLane n f)).ports = s.ports :=
    (endOrder_ports ..).trans (modLane_ports ..)
  have hjournal : (endOrder k .ok ((takeSlot k s).modLane n f)).journal = s.journal :=
    (endOrder_journal ..).trans (modLane_journal ..)
  obtain ⟨-, -, -, hattn⟩ := endOrder_shows k .ok hwf htaken
  have hended := orderEnded_settled (s := s) hwf htaken (orderKind_takeSlot k hok.1) rfl .ok
  have hbefore (a : Nat) (ha : ¬inOrderEnd k a) :
      (endOrder k .ok ((takeSlot k s).modLane n f)).mem.byteAt a = s.mem.byteAt a :=
    (byteAt_endOrder k .ok hwf ha).trans (byteAt_takeSlot k hok.1 fun h => ha (.inl h))
  have hewf := endOrder_wf k .ok hwf
  generalize endOrder k .ok ((takeSlot k s).modLane n f) = v at *
  obtain ⟨hlane, hbytes⟩ := settled_reconfigured (s := s) (n := n) hewf
    (evacuate_of_rest (s := takeSlot k s) hrest) (stateMirror_of_rest (s := takeSlot k s) hrest).symm
    hports (by rw [hsame]; exact hf) hother
  refine ⟨hended, (hlane n).trans hsame, fun m hm => (hlane m).trans (hother m hm),
    eq_of_takeSlot ((settleOutputs_rest ..).trans hrest) ((settleOutputs_attn ..).trans hattn)
      ((settleOutputs_ports ..).trans hports) ((settleOutputs_journal ..).trans hjournal), fun a ha => ?_⟩
  rw [not_or] at ha
  rw [hbytes a ha.2, hbefore a ha.1]

/-! ### The statement -/

theorem carrySetLane_quiet {s : State} (h : s.station = .quiet) (k : Fin 32) (n : Fin 4) (c : LaneConfig) :
    carrySetLane ⟨k, n, c⟩ s =
      if portTaken s n c then endOrder k .portTaken s else endOrder k .ok (s.modLane n (·.putConfig c)) := by
  unfold carrySetLane
  rw [h]

theorem config_of_fields {c : LaneConfig} {grant hold : Nat} (hgrant : c.grantWindow = grant) (hhold : c.holdLimit = hold) :
    ({ role := c.role, grantWindow := grant, holdLimit := hold, drive := c.drive, port := c.port, cueMap := c.cueMap } :
      LaneConfig) = c := by
  rw [← hgrant, ← hhold]

/-- Settles O37: the bounds, then the payload read as `c`, its sources, and the port. -/
theorem setLaneInQuiet : Obligations.SetLaneInQuiet := by
  refine ⟨fun s k hok hc hbad => ?_, fun s k n c hok hc hquiet hlane hrole hgrant hhold hdrive hport hcues hlen => ?_⟩
  · exact carries_refused hok.1 hc (setLaneOrder_unread hok.1 (readSetLane_none hbad))
  intro mapped taken
  have hread : readSetLane s k.val = some (n, c) := by
    obtain ⟨hall, hmap⟩ := cueBytes_read (f := fun i => payload s k.val (18 + i) 1) hlen hcues
    have hrole' : roleOfCode (payload s k 9 1) = some c.role := by
      rcases hrole with ⟨h, e⟩ | ⟨h, e⟩ | ⟨h, e⟩ <;> exact (congrArg roleOfCode h).trans (by rw [e]; rfl)
    have hdrive' : driveOfCode (payload s k 14 1) (payload s k 15 2) = some c.drive := by
      rcases hdrive with ⟨h, e⟩ | ⟨h, e⟩ <;>
        exact (congrArg (driveOfCode · (payload s k 15 2)) h).trans (by rw [e]; rfl)
    have hlane' : fourOf (payload s k 8 1) = some n := fourOf_val hlane
    have hport' : fourOf (payload s k 17 1) = some c.port := fourOf_val hport
    unfold readSetLane
    rw [hlane', hrole', hdrive', hport']
    exact (if_pos hall).trans (by rw [hmap]; exact congrArg (fun c => some (n, c)) (config_of_fields hgrant hhold))
  have htaken : portTaken s n c = true ↔ taken := portTaken_iff s n c
  have hmapped : sourcesMapped s n c.role = true ↔ mapped := sourcesMapped_iff s n c.role
  have carried (hm : mapped) := (setLaneOrder_mapped hok.1 hread (hmapped.mpr hm)).trans
    (carrySetLane_quiet (s := takeSlot k s) hquiet k n c)
  refine ⟨fun hm => ?_, fun hm ht => ?_, fun hm ht => ?_⟩
  · exact carries_refused hok.1 hc
      (setLaneOrder_unmapped hok.1 hread (Bool.eq_false_iff.mpr fun h => hm (hmapped.mp h)))
  · exact carries_refused hok.1 hc ((carried hm).trans (if_pos (htaken.mpr ht)))
  · obtain ⟨hended, hl, hothers, heq, hkeeps⟩ := reconfigures_and_ends k hok n
      (f := (·.putConfig c)) (rfl : (s.lane n).reconfigured ((s.lane n).putConfig c))
    refine ⟨_, ?_, hended, hl, hothers, heq, hkeeps⟩
    refine (carries_runs hc).trans (congrArg Host.Outcome.next (congrArg (settleOutputs s) ?_))
    exact (carried hm).trans (if_neg fun h => ht (htaken.mp h))

end Sys2Proof.Machine
end

section
/-! PROOFS. A grant or a referral ended by a change of its lane (R73, R82): the record, the count, the answer and the
marker, and the cue of a lane that goes on or returns to READY. -/

namespace Sys2Proof.Machine

/-! ### Runs of records seen from an earlier state, and bytes they leave -/

/-- A run of records seen from a state before it with the same journal and attention. -/
theorem Ran.left {s u t : State} {Q P : Nat → Prop} {b : BitVec 8} {asks : List Asked} (R : Ran u t Q b asks)
    (hj : u.journal = s.journal) (ha : u.attn = s.attn) (hP : besideWriter P)
    (hb : ∀ a, ¬P a → u.mem.byteAt a = s.mem.byteAt a) (hQ : ∀ a, Q a → P a) : Ran s t P b asks := by
  have hthreshold : thresholdOf u = thresholdOf s := by
    have hsame : u.peek hdrThreshold 2 = s.peek hdrThreshold 2 :=
      Memory.read_congr fun a h1 h2 => hb a fun h => (hP a h).2 ⟨h1, h2⟩
    rw [thresholdOf, thresholdOf, hsame]
  refine ⟨hj ▸ R.indexed, hP, R.wf, ?_, fun a h hr => ?_, ?_⟩
  · rw [attnRaised, ← ha]
    exact R.attn
  · refine (R.bytes a (fun hq => h (hQ a hq)) ?_).trans (hb a h)
    rwa [inAppends, hj]
  · have hrecords := R.records
    rw [askedAll, hthreshold, hj] at hrecords
    exact hrecords.left hj (by rw [sameCauses, ha]; exact ⟨rfl, rfl⟩)

theorem inAppends_apart {s : State} {count a : Nat} (h : inAppends s count a) :
    (14 ≤ a ∧ a < 18) ∨ (0x6200 ≤ a ∧ a < 0xE200) := by
  unfold inAppends inField journalBase hdrWriteIndex hdrDropped at h
  rcases h with ⟨i, -, h⟩ | h | h <;> omega

/-- A field that neither the changes nor the appends reach. -/
theorem Ran.peek {s t : State} {Q : Nat → Prop} {b : BitVec 8} {asks : List Asked} (R : Ran s t Q b asks) {a len : Nat}
    (hQ : ∀ x, a ≤ x → x < a + len → ¬Q x) (hr : 18 ≤ a ∧ a + len ≤ 0x6200 ∨ 0xE200 ≤ a) :
    t.peek a len = s.peek a len :=
  Memory.read_congr fun x h1 h2 => R.bytes x (hQ x h1 h2) fun h => by have := inAppends_apart h; omega

/-! ### The end of a grant or a referral but for the cue -/

/-- The grant voided, or the referral denied, with LANE_CHANGE: all but the cue and the state the lane goes on to. -/
def endHeld (n : Fin 4) (s : State) : State :=
  match (s.lane n).state with
  | .granted g => voidCore n g .laneChange s
  | .referred r => denyCore n r.port r.uid none .laneChange .laneChange s
  | _ => s

/-- The record of a grant or referral that LANE_CHANGE ends. -/
def heldAsk (s : State) (n : Fin 4) : Option Asked := displacedAsk s .laneChange .laneChange .laneChange n

theorem endHeld_granted {s : State} {n : Fin 4} {g : Grant} (h : (s.lane n).state = .granted g) :
    endHeld n s = voidCore n g .laneChange s := by rw [endHeld, h]

theorem endHeld_referred {s : State} {n : Fin 4} {r : Referral} (h : (s.lane n).state = .referred r) :
    endHeld n s = denyCore n r.port r.uid none .laneChange .laneChange s := by rw [endHeld, h]

/-- Neither a grant nor a referral. -/
theorem endHeld_none {s : State} {n : Fin 4} (hg : ∀ g, (s.lane n).state ≠ .granted g)
    (hr : ∀ r, (s.lane n).state ≠ .referred r) :
    endHeld n s = s ∧ heldAsk s n = none ∧ (s.lane n).displacedWindow = (s.lane n).window
      ∧ (s.lane n).state.displacedCue = [] := by
  cases hs : (s.lane n).state with
  | granted g => exact absurd hs (hg g)
  | referred r => exact absurd hs (hr r)
  | _ => simp [endHeld, heldAsk, displacedAsk, Lane.displacedWindow, LaneState.displacedCue, hs]

theorem held_cases (l : LaneState) :
    (∃ g, l = .granted g) ∨ (∃ r, l = .referred r) ∨ ((∀ g, l ≠ .granted g) ∧ ∀ r, l ≠ .referred r) := by
  cases l <;> simp

theorem endHeld_rest (n : Fin 4) (s : State) : (endHeld n s).rest = s.rest := by
  unfold endHeld
  split
  · exact voidCore_rest ..
  · exact denyCore_rest ..
  · rfl

theorem voidCore_lane (n : Fin 4) (g : Grant) (cause : VoidCause) (s : State) :
    (voidCore n g cause s).lane n =
      { s.lane n with window := (s.lane n).window.map fun w => { w with counts := w.counts.add .void } } := by
  unfold voidCore
  rw [count_lane, lane_of_lanes (appendPledged_lanes ..), lane_of_lanes (setMarker_lanes ..)]

theorem voidCore_lane_other {n m : Fin 4} (g : Grant) (cause : VoidCause) (s : State) (h : m ≠ n) :
    (voidCore n g cause s).lane m = s.lane m := by
  unfold voidCore
  rw [count_lane_other _ _ h, lane_of_lanes (appendPledged_lanes ..), lane_of_lanes (setMarker_lanes ..)]

theorem denyCore_lane_other {n m : Fin 4} (p : Fin 4) (uid : List Byte) (slot : Option Nat) (reason : DenyReason)
    (ending : ReferralEnd) (s : State) (h : m ≠ n) : (denyCore n p uid slot reason ending s).lane m = s.lane m := by
  unfold denyCore
  rw [count_lane_other _ _ h, sendShow_lane, lane_of_lanes (appendUnpledged_lanes ..)]

/-- The lane's window counts the VOID or the DENIED. -/
theorem endHeld_lane (n : Fin 4) (s : State) :
    (endHeld n s).lane n = { s.lane n with window := (s.lane n).displacedWindow } := by
  rcases held_cases (s.lane n).state with ⟨g, h⟩ | ⟨r, h⟩ | ⟨hg, hr⟩
  · rw [endHeld_granted h, voidCore_lane, Lane.displacedWindow, h]
  · rw [endHeld_referred h, denyCore_lane, Lane.displacedWindow, h]
  · obtain ⟨hsame, -, hwindow, -⟩ := endHeld_none hg hr
    rw [hsame, hwindow]

theorem endHeld_lane_other {n m : Fin 4} (s : State) (h : m ≠ n) : (endHeld n s).lane m = s.lane m := by
  unfold endHeld
  split
  · exact voidCore_lane_other _ _ _ h
  · exact denyCore_lane_other _ _ _ _ _ _ h
  · rfl

/-- The port of a referral is asked for SHOW with the reason, and the other ports stand. -/
theorem endHeld_port (n : Fin 4) (s : State) :
    (∀ r, (s.lane n).state = .referred r →
        (endHeld n s).port r.port = (s.port r.port).asked ⟨.deny .laneChange, 0⟩)
      ∧ ∀ p, (∀ r, (s.lane n).state = .referred r → r.port ≠ p) → (endHeld n s).port p = s.port p := by
  have hports (p : Fin 4) (r : Referral) : (denyCore n r.port r.uid none .laneChange .laneChange s).port p =
      (sendShow r.port (.deny .laneChange) 0 (appendUnpledged (denyRecord n r none .laneChange .laneChange s) s)).port p := by
    rw [denyCore_eq]
    exact port_of_ports (count_ports ..) p
  refine ⟨fun r h => ?_, fun p hp => ?_⟩
  · rw [endHeld_referred h, hports, sendShow_spec, port_of_ports (appendUnpledged_ports ..)]
  · rcases held_cases (s.lane n).state with ⟨g, h⟩ | ⟨r, h⟩ | ⟨hg, hr⟩
    · rw [endHeld_granted h]
      exact port_of_ports (voidCore_ports ..) p
    · rw [endHeld_referred h, hports, sendShow_port_other _ _ _ (Ne.symm (hp r h)), port_of_ports (appendUnpledged_ports ..)]
    · rw [(endHeld_none hg hr).1]

/-- The record of R73 or R82 is asked for, and the grant's marker is written. -/
theorem endHeld_ran {s t : State} {n : Fin 4} {Q : Nat → Prop} {b : BitVec 8} {asks : List Asked} (R : Ran s t Q b asks)
    (hQ : ∀ g, (t.lane n).state = .granted g → Q (passBase g.slot + 31)) :
    Ran s (endHeld n t) Q b (asks ++ (heldAsk t n).toList) := by
  rcases held_cases (t.lane n).state with ⟨g, h⟩ | ⟨r, h⟩ | ⟨hg, hr⟩
  · have hask : heldAsk t n = some (true, mkRecord (setMarker g.slot none t) (some n) g.uid (some g.slot) (.void .laneChange)) := by
      rw [heldAsk, displacedAsk, h]
      rfl
    rw [endHeld_granted h, hask]
    refine ((R.still (setMarker_wf g.slot none R.wf) (fun a ha => byteAt_setMarker g.slot none R.wf fun hm => ?_)
      (setMarker_journal ..) (setMarker_attn ..)).ask _).same (count_mem ..) (count_journal ..) (count_attn ..)
    exact ha (hm ▸ hQ g h)
  · have hask : heldAsk t n = some (false, denyRecord n r none .laneChange .laneChange t) := by
      rw [heldAsk, displacedAsk, h]
      rfl
    rw [endHeld_referred h, hask, denyCore_eq]
    exact (R.ask _).same ((count_mem ..).trans (sendShow_mem ..)) ((count_journal ..).trans (sendShow_journal ..))
      ((count_attn ..).trans (sendShow_attn ..))
  · obtain ⟨hsame, hask, -⟩ := endHeld_none hg hr
    rw [hsame, hask]
    simpa using R

/-! ### Markers (R69) -/

/-- The marker of an entry reads NONE. -/
def markerFree (s : State) (slot : Nat) : Prop := s.peek (passBase slot + 31) 1 = 0xFF

/-- A run whose changes stay below the Pass Table leaves the markers. -/
theorem Ran.markerFree {s t : State} {Q : Nat → Prop} {b : BitVec 8} {asks : List Asked} (R : Ran s t Q b asks)
    (hQ : ∀ a, Q a → a < 0xE200) {slot : Nat} (h : markerFree s slot) : markerFree t slot :=
  (R.peek (fun x hx _ hq => by have := hQ x hq; unfold passBase at hx; omega) (.inr (by unfold passBase; omega))).trans h

theorem besideWriter_none : besideWriter fun _ => False := fun _ => False.elim

theorem besideWriter_marker (g : Nat → Prop) (hg : ∀ a, g a → 0xE200 ≤ a) : besideWriter g := by
  intro a ha
  have := hg a ha
  unfold inWriter inField hdrThreshold
  omega

/-- Ending a grant sets its marker to NONE, and one that reads NONE stays. -/
theorem endHeld_markerFree {s : State} (hok : s.ok) {n : Fin 4} {slot : Nat}
    (h : markerFree s slot ∨ ∃ g, (s.lane n).state = .granted g ∧ g.slot = slot) : markerFree (endHeld n s) slot := by
  rcases held_cases (s.lane n).state with ⟨g, hg⟩ | ⟨r, hr⟩ | ⟨hg, hr⟩
  · have hfree : markerFree (setMarker g.slot none s) slot := by
      refine setMarker_none_stands slot g.slot hok.1 (h.imp id ?_)
      rintro ⟨q, hq, rfl⟩
      rw [hg] at hq
      cases hq
      rfl
    have hmarked : (setMarker g.slot none s).ok := ⟨setMarker_wf g.slot none hok.1, hok.2⟩
    rw [endHeld_granted hg]
    exact (((Ran.start (Q := fun _ => False) hmarked besideWriter_none hmarked.1 (fun _ _ => rfl) rfl rfl).ask
      (true, _)).same (count_mem ..) (count_journal ..) (count_attn ..)).markerFree (fun _ => False.elim) hfree
  · have hfree := h.resolve_right fun ⟨g, hg, _⟩ => by rw [hr] at hg; cases hg
    refine (endHeld_ran (Ran.start (Q := fun _ => False) hok besideWriter_none hok.1 (fun _ _ => rfl) rfl rfl)
      fun g hg => ?_).markerFree (fun _ => False.elim) hfree
    rw [hr] at hg
    cases hg
  · rw [(endHeld_none hg hr).1]
    exact h.resolve_right fun ⟨g, h, _⟩ => hg g h

end Sys2Proof.Machine
end

section
/-! PROOFS. SET_LANE while RUNNING or QUIETING (R56, R57, R73, R82, R90 to R92). -/

namespace Sys2Proof.Machine

/-! ### The cue of a lane whose grant or referral ended (R73, R82, R175) -/

/-- The grant or referral ended, the lane going on to another state: its cue is handed. -/
def heldOnward (n : Fin 4) (s : State) : State :=
  (s.lane n).state.displacedCue.foldl (fun u o => handOutcome n o u) (endHeld n s)

/-- The grant or referral ended, the lane READY with its cue in place of READY's; another lane stands. -/
def heldToReady (n : Fin 4) (s : State) : State :=
  (s.lane n).state.displacedCue.foldl (fun u o => enterReadyWith n o u) (endHeld n s)

/-- One cue where something was held, and none elsewhere. -/
theorem displacedCue_cases (l : LaneState) : l.displacedCue = [] ∨ ∃ o, l.displacedCue = [o] := by
  cases l <;> simp [LaneState.displacedCue]

theorem displacedCue_notDown {l : LaneState} {o : CueOutcome} (h : l.displacedCue = [o]) : l.isDown = false := by
  cases l with
  | down => cases h
  | _ => rfl

theorem heldOnward_kept (n : Fin 4) (s : State) :
    (heldOnward n s).rest = s.rest ∧ (heldOnward n s).mem = (endHeld n s).mem
      ∧ (heldOnward n s).attn = (endHeld n s).attn ∧ (heldOnward n s).ports = (endHeld n s).ports
      ∧ (heldOnward n s).journal = (endHeld n s).journal := by
  unfold heldOnward
  rcases displacedCue_cases (s.lane n).state with h | ⟨o, h⟩
  · rw [h]
    exact ⟨endHeld_rest n s, rfl, rfl, rfl, rfl⟩
  · rw [h]
    exact ⟨(handOutcome_rest ..).trans (endHeld_rest n s), handOutcome_mem .., handOutcome_attn .., handOutcome_ports ..,
      handOutcome_journal ..⟩

theorem heldOnward_lane (n : Fin 4) (s : State) :
    (heldOnward n s).lane n = { s.lane n with
      window := (s.lane n).displacedWindow, cue := ((heldOnward n s).lane n).cue
      levels := ((heldOnward n s).lane n).levels } := by
  unfold heldOnward
  rcases displacedCue_cases (s.lane n).state with h | ⟨o, h⟩
  · rw [h, List.foldl_nil, endHeld_lane]
  · rw [h, List.foldl_cons, List.foldl_nil, handOutcome_lane, endHeld_lane]

theorem heldOnward_lane_other {n m : Fin 4} (s : State) (h : m ≠ n) : (heldOnward n s).lane m = s.lane m := by
  unfold heldOnward
  rcases displacedCue_cases (s.lane n).state with hc | ⟨o, hc⟩
  · rw [hc]
    exact endHeld_lane_other s h
  · rw [hc]
    exact (handOutcome_lane_other o _ h).trans (endHeld_lane_other s h)

/-- The cue handed is the one the lane would have been handed before. -/
theorem heldOnward_cues {s t : State} {n : Fin 4} (hlane : t.lane n = s.lane n) (hnow : t.now = s.now)
    (hmem : ∀ x, inCueTable x → (endHeld n t).mem.byteAt x = s.mem.byteAt x) :
    cuesHanded s (heldOnward n t) n (s.lane n).state.displacedCue := by
  have hheld := endHeld_lane n t
  unfold cuesHanded heldOnward
  rw [hlane] at hheld ⊢
  rcases displacedCue_cases (s.lane n).state with h | ⟨o, h⟩
  · rw [h]
    exact ⟨by rw [List.foldl_nil, hheld]; rfl, by rw [List.foldl_nil, hheld]; rfl⟩
  · rw [h]
    exact handOutcome_congr n o (by rw [hheld]) (by rw [hheld]) (by rw [hheld]) (by rw [hheld])
      ((now_of_rest (endHeld_rest n t)).trans hnow) hmem

theorem heldToReady_kept (n : Fin 4) (s : State) :
    (heldToReady n s).rest = s.rest ∧ (heldToReady n s).mem = (endHeld n s).mem
      ∧ (heldToReady n s).attn = (endHeld n s).attn ∧ (heldToReady n s).ports = (endHeld n s).ports
      ∧ (heldToReady n s).journal = (endHeld n s).journal := by
  unfold heldToReady
  rcases displacedCue_cases (s.lane n).state with h | ⟨o, h⟩
  · rw [h]
    exact ⟨endHeld_rest n s, rfl, rfl, rfl, rfl⟩
  · rw [h]
    exact ⟨(enterReadyWith_rest ..).trans (endHeld_rest n s), enterReadyWith_mem .., enterReadyWith_attn ..,
      enterReadyWith_ports .., enterReadyWith_journal ..⟩

theorem heldToReady_lane_other {n m : Fin 4} (s : State) (h : m ≠ n) : (heldToReady n s).lane m = s.lane m := by
  unfold heldToReady
  rcases displacedCue_cases (s.lane n).state with hc | ⟨o, hc⟩
  · rw [hc]
    exact endHeld_lane_other s h
  · rw [hc]
    exact (enterReadyWith_lane_other o _ h).trans (endHeld_lane_other s h)

/-- A lane that held a grant or a referral is READY, its window counted, its cue handed in place of READY's. -/
theorem heldToReady_lane {s t : State} {n : Fin 4} (hlane : t.lane n = s.lane n) (hnow : t.now = s.now)
    (hmem : ∀ x, inCueTable x → (endHeld n t).mem.byteAt x = s.mem.byteAt x) {o : CueOutcome}
    (ho : o ∈ (s.lane n).state.displacedCue) :
    ((heldToReady n t).lane n).state = .ready none ∧ keepsSetup s (heldToReady n t) n
      ∧ ((heldToReady n t).lane n).window = (s.lane n).displacedWindow
      ∧ cueHanded s (heldToReady n t) n (if ((s.lane n).config.cueFor o).isSome then o else .ready) := by
  have hheld := endHeld_lane n t
  rw [hlane] at hheld
  have hcues : (s.lane n).state.displacedCue = [o] := by
    rcases displacedCue_cases (s.lane n).state with h | ⟨q, h⟩
    · rw [h] at ho
      cases ho
    · rw [h] at ho ⊢
      rw [List.mem_singleton.mp ho]
  have hfold : heldToReady n t = enterReadyWith n o (endHeld n t) := by
    rw [heldToReady, hlane, hcues]
    rfl
  obtain ⟨hstate, hsetup, hwindow, -⟩ := enterReadyWith_lane n o (endHeld n t)
  obtain ⟨hcue, hlevels⟩ := enterReadyWith_cue n o (s := endHeld n t) (by rw [hheld]; exact displacedCue_notDown hcues)
  obtain ⟨hcue', hlevels'⟩ := handOutcome_congr n (if ((s.lane n).config.cueFor o).isSome then o else .ready)
    (s := s) (t := endHeld n t) (by rw [hheld]) (by rw [hheld]) (by rw [hheld]) (by rw [hheld])
    ((now_of_rest (endHeld_rest n t)).trans hnow) hmem
  rw [show ((endHeld n t).lane n).config = (s.lane n).config by rw [hheld]] at hcue hlevels
  rw [hfold]
  refine ⟨hstate, ?_, ?_, hcue.trans hcue', hlevels.trans hlevels'⟩
  · rw [keepsSetup, hsetup, hheld]
    rfl
  · rw [hwindow, hheld]

/-! ### A configuration applied (R92) -/

/-- A lane as the role of its new configuration places it. -/
def Lane.placed (freeFlow : Bool) (c : LaneConfig) (l : Lane) : Lane :=
  match c.role with
  | .down => (l.putConfig c).enterDown
  | .entry =>
    if freeFlow then
      { l.putConfig c with state := .free, latestEntry := none, stuckEntry := 0, stuckExit := 0, stuckSwitch := 0 }
    else (l.putConfig c).enterArming
  | .ret => (l.putConfig c).enterArming

/-- A configuration in force, before its LANE record. -/
def configPlaced (n : Fin 4) (c : LaneConfig) (s : State) : State :=
  markPartial n (changeService s (s.modLane n (·.placed s.freeFlow c)))

theorem applyConfig_eq (n : Fin 4) (c : LaneConfig) (s : State) :
    applyConfig n c s = laneRecord n false (configPlaced n c s) := rfl

/-- The state a configuration places its lane in. -/
def placedState (freeFlow : Bool) (c : LaneConfig) : LaneState :=
  if c.role = .down then .down else if c.role = .entry ∧ freeFlow = true then .free else .arming 0

theorem placed_eq (freeFlow : Bool) (c : LaneConfig) (l : Lane) :
    l.placed freeFlow c = { l.putConfig c with
      state := placedState freeFlow c, latestEntry := none, stuckEntry := 0, stuckExit := 0, stuckSwitch := 0
      cue := if c.role = .down then none else l.cue
      levels := if c.role = .down then ⟨0, 0, 0, 0⟩ else l.levels } := by
  unfold Lane.placed placedState
  cases hrole : c.role with
  | down => simp [Lane.enterDown]
  | entry => cases freeFlow <;> simp [Lane.enterArming, Lane.putConfig]
  | ret => simp [Lane.enterArming, Lane.putConfig]

theorem placedState_faultless (freeFlow : Bool) (c : LaneConfig) :
    (placedState freeFlow c).faultCode = 0 ∧ (placedState freeFlow c).faultExit = false := by
  unfold placedState
  split
  · exact ⟨rfl, rfl⟩
  · split <;> exact ⟨rfl, rfl⟩

theorem configPlaced_lane (n : Fin 4) (c : LaneConfig) (s : State) :
    (configPlaced n c s).lane n =
      { (s.lane n).placed s.freeFlow c with window := markedPartial ((s.lane n).placed s.freeFlow c).window } := by
  unfold configPlaced
  rw [markPartial_lane, lane_of_lanes (changeService_lanes ..), lane_modLane_same]
  rfl

theorem configPlaced_lane_other {n m : Fin 4} (c : LaneConfig) (s : State) (h : m ≠ n) :
    (configPlaced n c s).lane m = s.lane m := by
  unfold configPlaced
  rw [markPartial_lane_other _ h, lane_of_lanes (changeService_lanes ..), lane_modLane_other _ _ h]

theorem configPlaced_mem (n : Fin 4) (c : LaneConfig) (s : State) : (configPlaced n c s).mem = s.mem := rfl
theorem configPlaced_attn (n : Fin 4) (c : LaneConfig) (s : State) : (configPlaced n c s).attn = s.attn := rfl
theorem configPlaced_journal (n : Fin 4) (c : LaneConfig) (s : State) : (configPlaced n c s).journal = s.journal := rfl

/-- In service by the station and the configurations in force. -/
theorem inService_of_configs {s e : State} (hs : e.station = s.station) (hc : ∀ m, (e.lane m).config = (s.lane m).config)
    (p : Fin 4) : inService e p = inService s p := by
  have hserves : laneServes e p = laneServes s p := funext fun m => by rw [laneServes, laneServes, hc]
  rw [inService, inService, servedLane, servedLane, hs, hserves]

/-- The LANE record that an application asks for. -/
def placedRecord (n : Fin 4) (c : LaneConfig) (s : State) : Record :=
  ⟨some n, s.day, s.ms, [], none, .lane (placedState s.freeFlow c).code 0 false false
    ((configPlaced n c s).port c.port).readerLost ((configPlaced n c s).port c.port).silent
    ((configPlaced n c s).port c.port).rfFault⟩

theorem applyConfig_asks (n : Fin 4) (c : LaneConfig) (s : State) :
    applyConfig n c s = appendAsked (false, placedRecord n c s) (configPlaced n c s) := by
  obtain ⟨hcode, hexit⟩ := placedState_faultless s.freeFlow c
  have hlane := configPlaced_lane n c s
  rw [placed_eq] at hlane
  have hstate : ((configPlaced n c s).lane n).state = placedState s.freeFlow c := by rw [hlane]
  have hport : ((configPlaced n c s).lane n).config.port = c.port := by rw [hlane]; rfl
  rw [applyConfig_eq, laneRecord]
  rw [hstate, hport, hcode, hexit]
  rfl

theorem Ran.applied {s u : State} {Q : Nat → Prop} {b : BitVec 8} {asks : List Asked} (R : Ran s u Q b asks) (n : Fin 4)
    (c : LaneConfig) : Ran s (applyConfig n c u) Q b (asks ++ [(false, placedRecord n c u)]) := by
  rw [applyConfig_asks]
  exact (R.same (configPlaced_mem ..) (configPlaced_journal ..) (configPlaced_attn ..)).ask _

end Sys2Proof.Machine
end

section
/-! PROOFS. SET_LANE while RUNNING or QUIETING: the statement (R56, R57, R73, R82, R90 to R92). -/

namespace Sys2Proof.Machine

/-! ### The end of an order that asked for records -/

/-- A byte that shows no changed lane and no changed port is as the event left it. -/
theorem byteAt_settleOutputs_elsewhere {s v : State} (hw : v.mem.wf) (hm : stateMirror s = stateMirror v) {x : Nat}
    (hl : ∀ m, inLaneMirror m x → v.lane m = s.lane m)
    (hp : ∀ m, inField (laneBlockBase m.val + 72) 4 x → v.port m = s.port m) :
    (settleOutputs s v).mem.byteAt x = v.mem.byteAt x := by
  by_cases hin : ∃ m, inLaneMirror m x
  · obtain ⟨m, hin⟩ := hin
    have hlane := hl m hin
    refine byteAt_settleOutputs_kept s hw m hin (.inr (by rw [hlane])) (.inr (by rw [hlane])) (.inr (by rw [hlane])) ?_
      (.inr (by rw [hlane])) (.inr (by rw [hlane]))
    by_cases hport : inField (laneBlockBase m.val + 72) 4 x
    · exact .inr (by rw [hp m hport])
    · exact .inl (by rwa [length_portBytes])
  · exact byteAt_settleOutputs_outside s hw (.inr hm) fun m h => hin ⟨m, h⟩

/-- The end of an order in a run of records. -/
theorem Ran.ended {s u : State} {Q : Nat → Prop} {b : BitVec 8} {asks : List Asked} (R : Ran s u Q b asks) {k : Fin 32}
    (ht : orderState u k.val = 2) (hQ : ∀ a, inOrderEnd k a → Q a) (r : Result) :
    Ran s (endOrder k r u) Q (b ||| 1#8) asks := by
  obtain ⟨-, -, -, hattn⟩ := endOrder_shows k r R.wf ht
  exact R.amend (endOrder_wf k r R.wf) (fun a ha => byteAt_endOrder k r R.wf fun h => ha (hQ a h)) (endOrder_journal ..)
    hattn (by decide)

/-- The bytes of a SET_LANE that ends a grant or a referral, beside its records. -/
def setLaneBytes (s : State) (k : Fin 32) (n : Fin 4) (a : Nat) : Prop :=
  inOrderEnd k a ∨ inLaneMirror n a ∨ (∃ g, (s.lane n).state = .granted g ∧ a = passBase g.slot + 31)
    ∨ ∃ q : Fin 4, inField (laneBlockBase q.val + 72) 4 a

theorem besideWriter_setLaneBytes (s : State) (k : Fin 32) (n : Fin 4) : besideWriter (setLaneBytes s k n) := by
  intro a ha
  unfold inWriter inField hdrThreshold
  rcases ha with h | h | ⟨g, -, rfl⟩ | ⟨q, h⟩
  · have := k.isLt
    unfold inOrderEnd inField orderBase at h
    omega
  · have := inLaneMirror_region h
    omega
  · unfold passBase
    omega
  · have := q.isLt
    unfold inField laneBlockBase at h
    omega

/-- The marker of the grant a lane holds. -/
def inMarker (s : State) (n : Fin 4) (a : Nat) : Prop := ∃ g, (s.lane n).state = .granted g ∧ a = passBase g.slot + 31

theorem inMarker_high {s : State} {n : Fin 4} {a : Nat} (h : inMarker s n a) : 0xE200 ≤ a := by
  obtain ⟨g, -, rfl⟩ := h
  unfold passBase
  omega

/-- The end of an event leaves the markers. -/
theorem markerFree_settled (s : State) {v : State} (hw : v.mem.wf) {slot : Nat} (h : markerFree v slot) :
    markerFree (settleOutputs s v) slot := by
  refine Eq.trans (Memory.read_congr fun x h1 h2 => ?_) h
  exact byteAt_settleOutputs_outside s hw (.inl (by unfold inField hdrState; unfold passBase at h1; omega))
    fun m hm => by have := inLaneMirror_region hm; unfold passBase at h1; omega

/-- What every SET_LANE leaves that ends a grant or a referral, or is applied. -/
def setLaneFrame (s t : State) (k : Fin 32) (n : Fin 4) : Prop :=
  attnRaised s t 1 ∧ keepsOtherLanes s t n ∧ grantsReleased s t (· = n)
    ∧ t = { s with
              mem := t.mem, attn := t.attn, sweepNext := t.sweepNext, lanes := t.lanes, ports := t.ports
              journal := t.journal }
    ∧ keepsBytes s t (fun a => inOrderEnd k a ∨ inAppends s 2 a ∨ inLaneMirror n a
        ∨ (∃ g, (s.lane n).state = .granted g ∧ a = passBase g.slot + 31)
        ∨ ∃ q : Fin 4, inField (laneBlockBase q.val + 72) 4 a)

theorem inAppends_mono {s : State} {i j : Nat} (h : i ≤ j) {a : Nat} (ha : inAppends s i a) : inAppends s j a :=
  ha.imp_left fun ⟨m, hm, hring⟩ => ⟨m, Nat.lt_of_lt_of_le hm h, hring⟩

theorem heldAsk_length (s : State) (n : Fin 4) : (heldAsk s n).toList.length ≤ 1 := by
  cases heldAsk s n <;> simp

/-- An order that took its slot, asked for records and changed one lane and the ports, and ends. -/
theorem setLane_ends {s v : State} {k : Fin 32} {n : Fin 4} {asks : List Asked} (hok : s.ok)
    (R : Ran (takeSlot k s) v (inMarker s n) 0#8 asks) (hlen : asks.length ≤ 2) (hrest : v.rest = (takeSlot k s).rest)
    (hother : keepsOtherLanes s v n) (hmark : ∀ g, (s.lane n).state = .granted g → markerFree v g.slot) (r : Result) :
    let t := settleOutputs s (endOrder k r v)
    orderEnded s t k r ∧ setLaneFrame s t k n ∧ recorded s t asks ∧ (∀ q, t.port q = v.port q)
      ∧ t.lane n = { v.lane n with lockPulse := (t.lane n).lockPulse } := by
  have hk := k.isLt
  have far (x : Nat) (hx : x < 0x6200) : ¬inMarker s n x := fun h => by have := inMarker_high h; omega
  have htaken : orderState v k.val = 2 :=
    (R.peek (fun x _ h2 => far x (by unfold orderBase at h2; omega)) (.inl (by unfold orderBase; omega))).trans
      (orderState_takeSlot k hok.1)
  have hkind : orderKind v k.val = orderKind s k.val :=
    (R.peek (fun x _ h2 => far x (by unfold orderBase at h2; omega)) (.inl (by unfold orderBase; omega))).trans
      (orderKind_takeSlot k hok.1)
  have hlanes := endOrder_lanes k r v
  have hended := orderEnded_settled (s := s) R.wf htaken hkind (sweepNext_of_rest (s := takeSlot k s) hrest) r
  have ran : Ran s (endOrder k r v) (setLaneBytes s k n) 1#8 asks :=
    (R.left (s := s) (P := setLaneBytes s k n) rfl rfl (besideWriter_setLaneBytes s k n)
      (fun a ha => byteAt_takeSlot k hok.1 fun h => ha (.inl (.inl h))) fun a ha => .inr (.inr (.inl ha))).ended htaken
        (fun a ha => .inl ha) r
  have hmarked (slot : Nat) (h : markerFree v slot) : markerFree (endOrder k r v) slot :=
    (peek_endOrder k r R.wf (.inr (by unfold orderBase passBase; omega))).trans h
  have hports (q : Fin 4) : (endOrder k r v).port q = v.port q := port_of_ports (endOrder_ports ..) q
  have hlane (m : Fin 4) : (endOrder k r v).lane m = v.lane m := lane_of_lanes hlanes m
  have hrest' : (endOrder k r v).rest = (takeSlot k s).rest := (endOrder_rest ..).trans hrest
  generalize endOrder k r v = e at *
  have settled : Ran s (settleOutputs s e) (setLaneBytes s k n) 1#8 asks := by
    refine ran.still (settleOutputs_wf s ran.wf) (fun a ha => ?_) (settleOutputs_journal ..) (settleOutputs_attn ..)
    refine byteAt_settleOutputs_elsewhere (s := s) ran.wf (stateMirror_of_rest (s := takeSlot k s) hrest').symm (fun m hm => ?_)
      fun m hm => absurd (.inr (.inr (.inr ⟨m, hm⟩))) ha
    by_cases hmn : m = n
    · exact absurd (.inr (.inl (hmn ▸ hm))) ha
    · rw [hlane, hother m hmn]
  refine ⟨hended, ⟨settled.attn, fun m hm => ?_, ?_, ?_, ?_⟩, settled.recorded, fun q => ?_, ?_⟩
  · exact settleOutputs_lane_kept (evacuate_of_rest (s := takeSlot k s) hrest') ((hlane m).trans (hother m hm))
  · rintro m g rfl hg
    exact markerFree_settled s ran.wf (hmarked g.slot (hmark g hg))
  · exact (eq_of_rest ((settleOutputs_rest ..).trans hrest')).trans
      (by rw [show (settleOutputs s e).sweepNext = slotAfter k from sweepNext_of_rest (s := takeSlot k s) hrest']; rfl)
  · refine settled.keeps (fun a ha => ?_) fun a ha => .inr (.inl (inAppends_mono hlen ha))
    rcases ha with h | h | h | h
    · exact .inl h
    · exact .inr (.inr (.inl h))
    · exact .inr (.inr (.inr (.inl h)))
    · exact .inr (.inr (.inr (.inr h)))
  · exact (settleOutputs_port ..).trans (hports q)
  · rw [settleOutputs_lane_eq, hlane]

/-! ### SET_LANE by the station and the lane (R90, R91) -/

section
variable {s : State} {n : Fin 4} {c : LaneConfig} (k : Fin 32)

theorem heldOnward_none (hg : ∀ g, (s.lane n).state ≠ .granted g) (hr : ∀ r, (s.lane n).state ≠ .referred r) :
    heldOnward n s = s := by
  obtain ⟨hsame, -, -, hcue⟩ := endHeld_none hg hr
  rw [heldOnward, hcue, hsame]
  rfl

theorem carrySetLane_granted (hs : s.station = .running) {g : Grant} (h : (s.lane n).state = .granted g) :
    carrySetLane ⟨k, n, c⟩ s =
      if portTaken s n c then endOrder k .portTaken (heldToReady n s)
      else endOrder k .ok (applyConfig n c (heldOnward n s)) := by
  rw [heldToReady, heldOnward, endHeld_granted h]
  simp only [carrySetLane, hs, h, LaneState.displacedCue, List.foldl_cons, List.foldl_nil, voidToReady, voidOnward]

theorem carrySetLane_referred (hs : s.station = .running) {r : Referral} (h : (s.lane n).state = .referred r) :
    carrySetLane ⟨k, n, c⟩ s =
      if portTaken s n c then endOrder k .portTaken (heldToReady n s)
      else endOrder k .ok (applyConfig n c (heldOnward n s)) := by
  rw [heldToReady, heldOnward, endHeld_referred h]
  simp only [carrySetLane, hs, h, LaneState.displacedCue, List.foldl_cons, List.foldl_nil, denyReferralToReady,
    denyReferralOnward]

/-- At a DOWN, ARMING, READY or FAULT lane. -/
theorem carrySetLane_atRest (hs : s.station = .running)
    (h : (s.lane n).state.code = 0 ∨ (s.lane n).state.code = 1 ∨ (s.lane n).state.code = 2
      ∨ (s.lane n).state.code = 7) :
    carrySetLane ⟨k, n, c⟩ s =
      if portTaken s n c then endOrder k .portTaken s else endOrder k .ok (applyConfig n c (heldOnward n s)) := by
  have hnone : heldOnward n s = s := by
    refine heldOnward_none (fun g hg => ?_) fun r hr => ?_
    · rw [hg] at h
      simp [LaneState.code] at h
    · rw [hr] at h
      simp [LaneState.code] at h
  rw [hnone]
  cases hl : (s.lane n).state with
  | down | arming _ | ready _ | fault _ => simp only [carrySetLane, hs, hl]
  | _ => simp [hl, LaneState.code] at h

theorem carrySetLane_held (hs : s.station = .running) (h : (s.lane n).state.code = 3 ∨ (s.lane n).state.code = 4) :
    carrySetLane ⟨k, n, c⟩ s =
      if portTaken s n c then endOrder k .portTaken (heldToReady n s)
      else endOrder k .ok (applyConfig n c (heldOnward n s)) := by
  rcases held_cases (s.lane n).state with ⟨g, hg⟩ | ⟨r, hr⟩ | ⟨hg, hr⟩
  · exact carrySetLane_granted k hs hg
  · exact carrySetLane_referred k hs hr
  · cases hl : (s.lane n).state with
    | granted g => exact absurd hl (hg g)
    | referred r => exact absurd hl (hr r)
    | _ => simp [hl, LaneState.code] at h

theorem carrySetLane_free (hs : s.station = .running) (h : (s.lane n).state = .free) :
    carrySetLane ⟨k, n, c⟩ s =
      if portTaken s n c then endOrder k .portTaken s else endOrder k .ok (makePending n c s) := by
  simp only [carrySetLane, hs, h]

theorem isBusy_iff (l : LaneState) : l.isBusy = true ↔ l.code = 5 ∨ l.code = 8 := by
  cases l <;> simp [LaneState.isBusy, LaneState.code]

theorem carrySetLane_busy (hs : s.station = .running) (h : (s.lane n).state.isBusy = true) :
    carrySetLane ⟨k, n, c⟩ s = { s with lanesWaiting := s.lanesWaiting ++ [⟨k, n, c⟩] } := by
  cases hl : (s.lane n).state with
  | passing _ | capturing _ => simp only [carrySetLane, hs, hl]
  | _ => simp [hl, LaneState.isBusy] at h

theorem carrySetLane_quieting (hs : s.station = .quieting) :
    carrySetLane ⟨k, n, c⟩ s =
      if (s.lane n).state.isBusy && Config.quietingWaits then { s with lanesWaiting := s.lanesWaiting ++ [⟨k, n, c⟩] }
      else if portTaken s n c then endOrder k .portTaken s
      else endOrder k .ok (makePending n c s) := by
  simp only [carrySetLane, hs]

end

/-! ### A SET_LANE that ends a grant or a referral, or is applied (R73, R82, R92) -/

section
variable {s : State} (k : Fin 32) (n : Fin 4) (hok : s.ok)
include hok

theorem ran_takeSlot (Q : Nat → Prop) (hQ : besideWriter Q) : Ran (takeSlot k s) (takeSlot k s) Q 0#8 [] :=
  .start ⟨takeSlot_wf k hok.1, hok.2⟩ hQ (takeSlot_wf k hok.1) (fun _ _ => rfl) rfl rfl

theorem ran_endHeld :
    Ran (takeSlot k s) (endHeld n (takeSlot k s)) (inMarker s n) 0#8 (heldAsk s n).toList :=
  endHeld_ran (ran_takeSlot k hok _ (besideWriter_marker _ fun _ => inMarker_high)) fun g hg => ⟨g, hg, rfl⟩

theorem endHeld_ok : (endHeld n (takeSlot k s)).ok := by
  have R := ran_endHeld k n hok
  exact ⟨R.wf, R.records.journal ▸ (askedAll_within R.indexed _).indexed R.indexed⟩

/-- The Cue Table after the take and the end of the grant or referral. -/
theorem endHeld_cueTable {x : Nat} (hx : inCueTable x) :
    (endHeld n (takeSlot k s)).mem.byteAt x = s.mem.byteAt x := by
  have hk := k.isLt
  unfold inCueTable inField at hx
  refine ((ran_endHeld k n hok).bytes x (fun h => ?_) fun h => ?_).trans
    (byteAt_takeSlot k hok.1 (by unfold inField orderBase; omega))
  · have := inMarker_high h
    omega
  · have := inAppends_apart h
    omega

theorem endHeld_released {g : Grant} (hg : (s.lane n).state = .granted g) :
    markerFree (endHeld n (takeSlot k s)) g.slot :=
  endHeld_markerFree (s := takeSlot k s) ⟨takeSlot_wf k hok.1, hok.2⟩ (.inr ⟨g, hg, rfl⟩)

omit hok in
/-- What the ports are after the answer to a referral. -/
theorem endHeld_answers : referralsAnswered s (· = n) .laneChange (endHeld n (takeSlot k s)).port := by
  obtain ⟨hasked, hother⟩ := endHeld_port n (takeSlot k s)
  refine ⟨?_, fun p hp => hother p fun r hr => hp n r rfl hr⟩
  rintro m r rfl hr
  exact hasked r hr

omit hok in
/-- The ports that the answer to a referral determines. -/
theorem referralsAnswered_unique {x y : Fin 4 → Port} (hx : referralsAnswered s (· = n) .laneChange x)
    (hy : referralsAnswered s (· = n) .laneChange y) : x = y := by
  obtain ⟨hxa, hxo⟩ := hx
  obtain ⟨hya, hyo⟩ := hy
  funext p
  by_cases hp : ∃ r, (s.lane n).state = .referred r ∧ r.port = p
  · obtain ⟨r, hr, rfl⟩ := hp
    rw [hxa n r rfl hr, hya n r rfl hr]
  · have none : ∀ m r, m = n → (s.lane m).state = .referred r → r.port ≠ p := by
      rintro m r rfl hr heq
      exact hp ⟨r, hr, heq⟩
    rw [hxo p none, hyo p none]

/-- The port taken: the grant or referral ended all the same, the lane READY. -/
theorem setLane_refusesHeld :
    let t := settleOutputs s (endOrder k .portTaken (heldToReady n (takeSlot k s)))
    orderEnded s t k .portTaken ∧ setLaneFrame s t k n
      ∧ (∀ o ∈ (s.lane n).state.displacedCue, (t.lane n).state = .ready none ∧ keepsSetup s t n
          ∧ (t.lane n).window = (s.lane n).displacedWindow
          ∧ cueHanded s t n (if ((s.lane n).config.cueFor o).isSome then o else .ready))
      ∧ referralsAnswered s (· = n) .laneChange t.port ∧ recorded s t (heldAsk s n).toList := by
  obtain ⟨hrest, hmem, hattn, hports, hjournal⟩ := heldToReady_kept n (takeSlot k s)
  obtain ⟨hended, hframe, hrecorded, hport, hlane⟩ := setLane_ends (n := n) hok
    ((ran_endHeld k n hok).same hmem hjournal hattn) (Nat.le_succ_of_le (heldAsk_length s n)) hrest
    (fun m hm => heldToReady_lane_other _ hm)
    (fun g hg => by rw [markerFree, State.peek, hmem]; exact endHeld_released k n hok hg) .portTaken
  refine ⟨hended, hframe, fun o ho => ?_, ?_, hrecorded⟩
  · obtain ⟨hstate, hsetup, hwindow, hcue⟩ := heldToReady_lane (s := s) (t := takeSlot k s) rfl rfl
      (fun x hx => endHeld_cueTable k n hok hx) ho
    rw [keepsSetup, cueHanded, hlane]
    exact ⟨hstate, hsetup, hwindow, hcue⟩
  · have hsame : (settleOutputs s (endOrder k .portTaken (heldToReady n (takeSlot k s)))).port =
        (endHeld n (takeSlot k s)).port := funext fun q => (hport q).trans (port_of_ports hports q)
    rw [hsame]
    exact endHeld_answers k n

/-- The port free: the configuration is applied. -/
theorem setLane_applies (c : LaneConfig) :
    let t := settleOutputs s (endOrder k .ok (applyConfig n c (heldOnward n (takeSlot k s))))
    orderEnded s t k .ok ∧ setLaneFrame s t k n
      ∧ configApplied s t n c (s.lane n).state.displacedCue (s.lane n).displacedWindow
      ∧ (t.lane n).switch = (s.lane n).switch
      ∧ (∀ x, referralsAnswered s (· = n) .laneChange x → serviceChanged s t x)
      ∧ recorded s t ((heldAsk s n).toList ++ [(false, applicationRecord s t n c)]) := by
  obtain ⟨hrest, hmem, hattn, hports, hjournal⟩ := heldOnward_kept n (takeSlot k s)
  have hcues := heldOnward_cues (s := s) (t := takeSlot k s) (n := n) rfl rfl fun x hx => endHeld_cueTable k n hok hx
  have hheld := heldOnward_lane n (takeSlot k s)
  have hheldOther (m : Fin 4) (hm : m ≠ n) := heldOnward_lane_other (takeSlot k s) hm
  have hheldOk : (heldOnward n (takeSlot k s)).ok := by
    have := endHeld_ok k n hok
    rwa [State.ok, hmem, hjournal]
  have R : Ran (takeSlot k s) (heldOnward n (takeSlot k s)) (inMarker s n) 0#8 (heldAsk s n).toList :=
    (ran_endHeld k n hok).same hmem hjournal hattn
  have hmarker (g : Grant) (hg : (s.lane n).state = .granted g) : markerFree (heldOnward n (takeSlot k s)) g.slot := by
    rw [markerFree, State.peek, hmem]
    exact endHeld_released k n hok hg
  have hanswered : referralsAnswered s (· = n) .laneChange (heldOnward n (takeSlot k s)).port := by
    rw [show (heldOnward n (takeSlot k s)).port = (endHeld n (takeSlot k s)).port from
      funext fun q => port_of_ports hports q]
    exact endHeld_answers k n
  generalize heldOnward n (takeSlot k s) = u at *
  have stays : Ran u (applyConfig n c u) (fun _ => False) 0#8 [(false, placedRecord n c u)] :=
    (Ran.start hheldOk besideWriter_none hheldOk.1 (fun _ _ => rfl) rfl rfl).applied n c
  have hlanes : (applyConfig n c u).lanes = (configPlaced n c u).lanes := by rw [applyConfig_eq, laneRecord_lanes]
  have hportsApplied (q : Fin 4) : (applyConfig n c u).port q = (configPlaced n c u).port q := by
    rw [applyConfig_eq, port_of_ports (laneRecord_ports ..)]
  obtain ⟨hended, hframe, hrecorded, hport, hlane⟩ := setLane_ends (n := n) hok (R.applied n c)
    (by have := heldAsk_length s n; rw [List.length_append, List.length_singleton]; omega)
    ((applyConfig_rest n c u).trans hrest)
    (fun m hm => (lane_of_lanes hlanes m).trans ((configPlaced_lane_other c u hm).trans (hheldOther m hm)))
    (fun g hg => stays.markerFree (fun _ => False.elim) (hmarker g hg)) .ok
  rw [lane_of_lanes hlanes, configPlaced_lane, placed_eq, hheld] at hlane
  have hstation : (settleOutputs s (endOrder k .ok (applyConfig n c u))).station = s.station :=
    station_of_rest (s := takeSlot k s)
      ((settleOutputs_rest ..).trans ((endOrder_rest ..).trans ((applyConfig_rest n c u).trans hrest)))
  generalize settleOutputs s (endOrder k .ok (applyConfig n c u)) = t at *
  have hfree : u.freeFlow = s.freeFlow := freeFlow_of_rest (s := takeSlot k s) hrest
  have hrecord : placedRecord n c u = applicationRecord s t n c := by
    have hday : u.day = s.day := day_of_rest (s := takeSlot k s) hrest
    have hms : u.ms = s.ms := ms_of_rest (s := takeSlot k s) hrest
    rw [placedRecord, applicationRecord, hlane, hport, hportsApplied, hday, hms]
  refine ⟨hended, hframe, ?_, ?_, fun x hx q => ?_, hrecord ▸ hrecorded⟩
  · obtain ⟨hcue, hlevels⟩ := hcues
    unfold configApplied cuesHanded
    rw [hlane, placedState, hfree]
    refine ⟨rfl, rfl, rfl, rfl, rfl, rfl, rfl, fun hdown => ⟨if_pos hdown, if_pos hdown⟩, fun hup => ?_, rfl, rfl, rfl, rfl,
      rfl, rfl, rfl, rfl⟩
    exact ⟨(if_neg hup).trans hcue, (if_neg hup).trans hlevels⟩
  · rw [hlane]
    rfl
  · have hbefore : inService u q = inService s q := by
      refine inService_of_configs (station_of_rest (s := takeSlot k s) hrest) (fun m => ?_) q
      by_cases hm : m = n
      · rw [hm, hheld, takeSlot_lane]
      · rw [hheldOther m hm, takeSlot_lane]
    have hafter : inService (u.modLane n (·.placed u.freeFlow c)) q = inService t q := by
      refine inService_of_configs (hstation.symm ▸ station_of_rest (s := takeSlot k s) hrest) (fun m => ?_) q
      by_cases hm : m = n
      · rw [hm, hlane, lane_modLane_same, placed_eq, hheld]
      · obtain ⟨-, hothers, -⟩ := hframe
        rw [lane_modLane_other _ _ hm, hheldOther m hm, hothers m hm, takeSlot_lane]
    have hplaced : (configPlaced n c u).port q = (changeService u (u.modLane n (·.placed u.freeFlow c))).port q :=
      port_of_ports (markPartial_ports ..) q
    rw [hport, hportsApplied, hplaced, changeService_port, hbefore, hafter, State.port, modLane_ports, ← State.port,
      referralsAnswered_unique n hanswered hx]
    rfl

end

/-! ### The statement -/

/-- The order waits TAKEN for a lane that is PASSING or CAPTURING (R91). -/
theorem setLane_waits {s : State} (hok : s.ok) (k : Fin 32) (n : Fin 4) (c : LaneConfig) :
    let t := settleOutputs s { takeSlot k s with lanesWaiting := s.lanesWaiting ++ [⟨k, n, c⟩] }
    orderState t k = 2
      ∧ t = { s with mem := t.mem, sweepNext := slotAfter k, lanesWaiting := s.lanesWaiting ++ [⟨k, n, c⟩] }
      ∧ keepsBytes s t (inField (orderBase k.val) 2) := by
  intro t
  have hquiet : t = { takeSlot k s with lanesWaiting := s.lanesWaiting ++ [⟨k, n, c⟩] } :=
    settleOutputs_quiet rfl rfl rfl rfl
  have hmem : t.mem = (takeSlot k s).mem := by rw [hquiet]
  refine ⟨?_, ?_, fun a ha => ?_⟩
  · rw [orderState, State.peek, hmem]
    exact orderState_takeSlot k hok.1
  · rw [hmem]
    exact hquiet
  · rw [hmem]
    exact byteAt_takeSlot k hok.1 ha

theorem held_hasCue {l : LaneState} (h : l.code = 3 ∨ l.code = 4) : ∃ o, o ∈ l.displacedCue := by
  cases l with
  | referred _ | granted _ => exact ⟨_, List.mem_singleton_self _⟩
  | _ => simp [LaneState.code] at h

/-- Settles O38: the order by the station, the lane's state and the port. -/
theorem setLaneWhileRunning : Obligations.SetLaneWhileRunning := by
  intro s k n c hok hc hstation hread hmapped running clash busy held atRest ended frame refused madePending waits
  have runs {v : State} (hv : carrySetLane ⟨k, n, c⟩ (takeSlot k s) = v) :
      exec (.setLane k) s = .next (settleOutputs s v) :=
    (carries_runs hc).trans (congrArg Host.Outcome.next (congrArg (settleOutputs s)
      ((setLaneOrder_mapped hok.1 hread hmapped).trans hv)))
  have htaken : portTaken (takeSlot k s) n c = true ↔ clash := portTaken_iff s n c
  have refuses (hv : carrySetLane ⟨k, n, c⟩ (takeSlot k s) = endOrder k .portTaken (takeSlot k s)) :
      ∃ t, exec (.setLane k) s = .next t ∧ refused t :=
    carries_refused hok.1 hc ((setLaneOrder_mapped hok.1 hread hmapped).trans hv)
  have pends (hv : carrySetLane ⟨k, n, c⟩ (takeSlot k s) = endOrder k .ok (makePending n c (takeSlot k s))) :
      ∃ t, exec (.setLane k) s = .next t ∧ madePending t := by
    obtain ⟨hended, hl, hothers, heq, hkeeps⟩ := reconfigures_and_ends k hok n
      (f := fun l => { l with pendingConfig := some c }) rfl
    exact ⟨_, runs hv, hended, hl, hothers, heq, hkeeps⟩
  have quiets (hq : s.station = .quieting) (hb : ((s.lane n).state.isBusy && Config.quietingWaits) = false) :
      carrySetLane ⟨k, n, c⟩ (takeSlot k s) =
        if portTaken (takeSlot k s) n c then endOrder k .portTaken (takeSlot k s)
        else endOrder k .ok (makePending n c (takeSlot k s)) :=
    (carrySetLane_quieting k (s := takeSlot k s) hq).trans (if_neg (by rw [takeSlot_lane, hb]; exact Bool.false_ne_true))
  have waiting (hv : carrySetLane ⟨k, n, c⟩ (takeSlot k s) =
      { takeSlot k s with lanesWaiting := s.lanesWaiting ++ [⟨k, n, c⟩] }) :
      ∃ t, exec (.setLane k) s = .next t ∧ waits t :=
    ⟨_, runs hv, setLane_waits hok k n c⟩
  have idle (hb : ¬busy) : (s.lane n).state.isBusy = false := Bool.eq_false_iff.mpr fun h => hb ((isBusy_iff _).mp h)
  refine ⟨fun hrun hclash hstate => ?_, fun hrun hclash hheld => ?_, fun hclash hstate => ?_, fun hclash hstate => ?_,
    fun hrun hbusy => ?_, fun hquieting hbusy => ?_⟩
  · have hv : carrySetLane ⟨k, n, c⟩ (takeSlot k s) = endOrder k .ok (applyConfig n c (heldOnward n (takeSlot k s))) := by
      rcases hstate with hrest | hheld
      · exact (carrySetLane_atRest k (s := takeSlot k s) hrun hrest).trans (if_neg fun h => hclash (htaken.mp h))
      · exact (carrySetLane_held k (s := takeSlot k s) hrun hheld).trans (if_neg fun h => hclash (htaken.mp h))
    obtain ⟨hended, hframe, happlied, hswitch, hservice, hrecorded⟩ := setLane_applies k n hok c
    exact ⟨_, runs hv, hended, hframe, happlied, hswitch, hservice, hrecorded⟩
  · have hv := (carrySetLane_held k (s := takeSlot k s) (c := c) hrun hheld).trans (if_pos (htaken.mpr hclash))
    obtain ⟨hended, hframe, hlane, hanswered, hrecorded⟩ := setLane_refusesHeld k n hok
    obtain ⟨o, ho⟩ := held_hasCue hheld
    obtain ⟨hready, hsetup, hwindow, -⟩ := hlane o ho
    refine ⟨_, runs hv, hended, hframe, hready, hsetup, hwindow, fun o ho => ?_, hanswered, hrecorded⟩
    obtain ⟨-, -, -, hcue⟩ := hlane o ho
    exact hcue
  · rcases hstate with ⟨hquieting, hidle⟩ | ⟨hrun, hrest⟩ | hfree
    · exact refuses ((quiets hquieting (by rw [idle hidle]; rfl)).trans (if_pos (htaken.mpr hclash)))
    · exact refuses ((carrySetLane_atRest k (s := takeSlot k s) hrun hrest).trans (if_pos (htaken.mpr hclash)))
    · rcases hstation with hrun | hquieting
      · exact refuses ((carrySetLane_free k (s := takeSlot k s) hrun hfree).trans (if_pos (htaken.mpr hclash)))
      · exact refuses ((quiets hquieting (by rw [hfree]; rfl)).trans (if_pos (htaken.mpr hclash)))
  · have free := fun h => hclash (htaken.mp h)
    rcases hstate with ⟨hquieting, hidle⟩ | hfree
    · exact pends ((quiets hquieting (by rw [idle hidle]; rfl)).trans (if_neg free))
    · rcases hstation with hrun | hquieting
      · exact pends ((carrySetLane_free k (s := takeSlot k s) hrun hfree).trans (if_neg free))
      · exact pends ((quiets hquieting (by rw [hfree]; rfl)).trans (if_neg free))
  · exact waiting (carrySetLane_busy k (s := takeSlot k s) hrun ((isBusy_iff _).mpr hbusy))
  · have hb : (s.lane n).state.isBusy = true := (isBusy_iff _).mpr hbusy
    cases hw : Config.quietingWaits with
    | true =>
      obtain ⟨t, hrun, ht⟩ := waiting ((carrySetLane_quieting k (s := takeSlot k s) hquieting).trans
        (if_pos (by rw [takeSlot_lane, hb, hw]; rfl)))
      exact ⟨t, hrun, fun _ => ht, fun h => absurd h (by simp)⟩
    | false =>
      have hv := quiets hquieting (by rw [hb, hw]; rfl)
      by_cases hclash : clash
      · obtain ⟨t, hrun, ht⟩ := refuses (hv.trans (if_pos (htaken.mpr hclash)))
        exact ⟨t, hrun, fun h => absurd h (by simp), fun _ => ⟨fun _ => ht, fun h => absurd hclash h⟩⟩
      · obtain ⟨t, hrun, ht⟩ := pends (hv.trans (if_neg fun h => hclash (htaken.mp h)))
        exact ⟨t, hrun, fun h => absurd h (by simp), fun _ => ⟨fun h => absurd h hclash, fun _ => ht⟩⟩

end Sys2Proof.Machine
end

section
/-! PROOFS. QUIET_REQUEST: the lanes wound down (R58, R73, R82, R111, R197). -/

namespace Sys2Proof.Machine

/-! ### One lane wound down -/

theorem windDown_eq (n : Fin 4) (s : State) : windDown n s = heldToReady n s := by
  unfold windDown heldToReady endHeld LaneState.displacedCue
  cases (s.lane n).state <;> rfl

/-- The station QUIETING, its tap queue emptied and its presence sampling stopped, before its lanes are wound down. -/
def quietingBegun (s : State) : State :=
  { s with station := .quieting, tapQueue := [], presenceTimer := 0, presenceDue := false }

/-- A lane wound down: READY where it held a grant or a referral, and as it was elsewhere. -/
def laneWoundDown (s v : State) (n : Fin 4) : Prop :=
  ((s.lane n).state.displacedCue = [] → v.lane n = s.lane n)
    ∧ ∀ o ∈ (s.lane n).state.displacedCue, (v.lane n).state = .ready none ∧ keepsSetup s v n
        ∧ (v.lane n).window = (s.lane n).displacedWindow
        ∧ cueHanded s v n (if ((s.lane n).config.cueFor o).isSome then o else .ready)

theorem laneWoundDown_congr {s v w : State} {n : Fin 4} (h : laneWoundDown s v n) (hl : w.lane n = v.lane n) :
    laneWoundDown s w n := by
  unfold laneWoundDown keepsSetup cueHanded
  rw [hl]
  exact h

theorem displacedWindow_of_noCue {l : Lane} (h : l.state.displacedCue = []) : l.displacedWindow = l.window := by
  unfold Lane.displacedWindow
  cases hl : l.state with
  | granted _ | referred _ =>
    rw [hl] at h
    cases h
  | _ => rfl

/-- What every lane wound down keeps, and its window. -/
theorem laneWoundDown_setup {s v : State} {n : Fin 4} (h : laneWoundDown s v n) :
    keepsSetup s v n ∧ (v.lane n).window = (s.lane n).displacedWindow := by
  obtain ⟨hstands, hready⟩ := h
  rcases displacedCue_cases (s.lane n).state with hc | ⟨o, hc⟩
  · rw [keepsSetup, hstands hc, displacedWindow_of_noCue hc]
    exact ⟨rfl, rfl⟩
  · obtain ⟨-, hsetup, hwindow, -⟩ := hready o (by rw [hc]; exact List.mem_singleton_self o)
    exact ⟨hsetup, hwindow⟩

theorem laneWoundDown_busy {s v : State} {n : Fin 4} (h : laneWoundDown s v n) :
    (v.lane n).state.isBusy = (s.lane n).state.isBusy := by
  obtain ⟨hstands, hready⟩ := h
  rcases displacedCue_cases (s.lane n).state with hc | ⟨o, hc⟩
  · rw [hstands hc]
  · obtain ⟨hstate, -⟩ := hready o (by rw [hc]; exact List.mem_singleton_self o)
    rw [hstate]
    cases hl : (s.lane n).state with
    | passing _ | capturing _ =>
      rw [hl] at hc
      cases hc
    | _ => rfl

/-! ### The lanes wound down one after another -/

/-- Some lanes wound down from `t`, the lanes as `s` has them until then. -/
structure WoundDown (s : State) (l : List (Fin 4)) (t v : State) : Prop where
  rest : v.rest = t.rest
  kept : ∀ n, n ∉ l → v.lane n = t.lane n
  lane : ∀ n ∈ l, laneWoundDown s v n
  asked : ∀ n ∈ l, ∀ r, (s.lane n).state = .referred r →
    v.port r.port = (t.port r.port).asked ⟨.deny .laneChange, 0⟩
  port : ∀ p, (∀ n ∈ l, ∀ r, (s.lane n).state = .referred r → r.port ≠ p) → v.port p = t.port p
  freed : ∀ n ∈ l, ∀ g, (s.lane n).state = .granted g → markerFree v g.slot
  free : ∀ slot, markerFree t slot → markerFree v slot

theorem WoundDown.nil (s t : State) : WoundDown s [] t t :=
  ⟨rfl, fun _ _ => rfl, fun _ h => absurd h (by simp), fun _ h => absurd h (by simp), fun _ _ => rfl,
    fun _ h => absurd h (by simp), fun _ h => h⟩

theorem WoundDown.cons {s t u v : State} {n : Fin 4} {l : List (Fin 4)} (hn : n ∉ l) (hd : referralPortsDistinct s)
    (h1 : WoundDown s [n] t u) (h2 : WoundDown s l u v) : WoundDown s (n :: l) t v where
  rest := h2.rest.trans h1.rest
  kept := fun m hm => by
    rw [List.mem_cons, not_or] at hm
    rw [h2.kept m hm.2, h1.kept m (by simpa using hm.1)]
  lane := fun m hm => by
    rcases List.mem_cons.mp hm with rfl | hm
    · exact laneWoundDown_congr (h1.lane m (by simp)) (h2.kept m hn)
    · exact h2.lane m hm
  asked := fun m hm r hr => by
    rcases List.mem_cons.mp hm with rfl | hm
    · rw [h2.port r.port fun i hi q hq => (hd m i r q (fun h => hn (h ▸ hi)) hr hq).symm, h1.asked m (by simp) r hr]
    · rw [h2.asked m hm r hr, h1.port r.port fun i hi q hq => ?_]
      rw [List.mem_singleton] at hi
      exact hd i m q r (fun h => hn (hi ▸ h ▸ hm)) hq hr
  port := fun p hp => by
    rw [h2.port p fun m hm => hp m (List.mem_cons_of_mem _ hm),
      h1.port p fun m hm => hp m (by rw [List.mem_singleton.mp hm]; exact List.mem_cons_self)]
  freed := fun m hm g hg => by
    rcases List.mem_cons.mp hm with rfl | hm
    · exact h2.free g.slot (h1.freed m (by simp) g hg)
    · exact h2.freed m hm g hg
  free := fun slot h => h2.free slot (h1.free slot h)

section
variable {s t : State} {asks : List Asked}

/-- A grant's marker lies in the Pass Table. -/
theorem inGrantMarker_high {a : Nat} (h : inGrantMarker s a) : 0xE200 ≤ a := by
  obtain ⟨n, g, -, rfl⟩ := h
  unfold passBase
  omega

theorem heldAsk_of_rest {n : Fin 4} (hrest : t.rest = (quietingBegun s).rest) (hl : t.lane n = s.lane n) :
    heldAsk t n = heldAsk s n := by
  have hday : t.day = s.day := day_of_rest (s := quietingBegun s) hrest
  have hms : t.ms = s.ms := ms_of_rest (s := quietingBegun s) hrest
  rw [heldAsk, heldAsk, displacedAsk, displacedAsk, hl, hday, hms]

theorem windDown_one (R : Ran (quietingBegun s) t (inGrantMarker s) 0#8 asks) (hrest : t.rest = (quietingBegun s).rest)
    {n : Fin 4} (hl : t.lane n = s.lane n) :
    WoundDown s [n] t (windDown n t)
      ∧ Ran (quietingBegun s) (windDown n t) (inGrantMarker s) 0#8 (asks ++ (heldAsk s n).toList) := by
  have hheld : Ran (quietingBegun s) (endHeld n t) (inGrantMarker s) 0#8 (asks ++ (heldAsk s n).toList) := by
    rw [← heldAsk_of_rest hrest hl]
    exact endHeld_ran R fun g hg => ⟨n, g, hl ▸ hg, rfl⟩
  have hcueTable (x : Nat) (hx : inCueTable x) : (endHeld n t).mem.byteAt x = s.mem.byteAt x := by
    unfold inCueTable inField at hx
    refine hheld.bytes x (fun h => ?_) fun h => ?_
    · have := inGrantMarker_high h
      omega
    · have := inAppends_apart h
      omega
  obtain ⟨hrest', hmem, hattn, hports, hjournal⟩ := heldToReady_kept n t
  obtain ⟨hasked, hother⟩ := endHeld_port n t
  have hok : t.ok := ⟨R.wf, R.records.journal ▸ (askedAll_within R.indexed _).indexed R.indexed⟩
  have hmarker (slot : Nat) (h : markerFree (endHeld n t) slot) : markerFree (heldToReady n t) slot := by
    rw [markerFree, State.peek, hmem]
    exact h
  rw [windDown_eq]
  refine ⟨⟨hrest', fun m hm => heldToReady_lane_other t (by simpa using hm), fun m hm => ⟨fun hc => ?_, fun o ho => ?_⟩,
    fun m hm r hr => ?_, fun p hp => ?_, fun m hm g hg => hmarker _ ?_, fun slot h => hmarker _ ?_⟩,
    hheld.same hmem hjournal hattn⟩
  · rw [List.mem_singleton] at hm
    subst hm
    rw [heldToReady, hl, hc, List.foldl_nil, endHeld_lane, hl, displacedWindow_of_noCue hc]
  · rw [List.mem_singleton] at hm
    subst hm
    exact heldToReady_lane hl (now_of_rest (s := quietingBegun s) hrest) hcueTable ho
  · rw [List.mem_singleton] at hm
    subst hm
    rw [port_of_ports hports]
    exact hasked r (hl ▸ hr)
  · rw [port_of_ports hports]
    exact hother p fun r hr => hp n (by simp) r (hl ▸ hr)
  · rw [List.mem_singleton] at hm
    subst hm
    exact endHeld_markerFree hok (.inr ⟨g, hl ▸ hg, rfl⟩)
  · exact endHeld_markerFree hok (.inl h)

theorem foldl_windDown (hd : referralPortsDistinct s) (l : List (Fin 4)) (hl : l.Nodup)
    (R : Ran (quietingBegun s) t (inGrantMarker s) 0#8 asks) (hrest : t.rest = (quietingBegun s).rest)
    (hlane : ∀ n ∈ l, t.lane n = s.lane n) :
    WoundDown s l t (l.foldl (fun u n => windDown n u) t)
      ∧ Ran (quietingBegun s) (l.foldl (fun u n => windDown n u) t) (inGrantMarker s) 0#8
          (asks ++ l.filterMap (heldAsk s)) := by
  induction l generalizing t asks with
  | nil => exact ⟨.nil s t, by simpa using R⟩
  | cons n l ih =>
    obtain ⟨hn, hl⟩ := List.nodup_cons.mp hl
    obtain ⟨W, R'⟩ := windDown_one R hrest (hlane n (by simp))
    obtain ⟨W', R''⟩ := ih hl R' (W.rest.trans hrest) fun m hm =>
      (W.kept m (by rw [List.mem_singleton]; rintro rfl; exact hn hm)).trans (hlane m (List.mem_cons_of_mem _ hm))
    refine ⟨W.cons hn hd W', ?_⟩
    rw [List.append_assoc] at R''
    have hasks : (n :: l).filterMap (heldAsk s) = (heldAsk s n).toList ++ l.filterMap (heldAsk s) := by
      cases h : heldAsk s n <;> simp [h]
    rw [hasks]
    exact R''

end

/-- Every lane wound down as the station goes QUIETING. -/
theorem eachLane_windDown {s : State} (hok : s.ok) (hd : referralPortsDistinct s) :
    WoundDown s allFour (quietingBegun s) (eachLane windDown (quietingBegun s))
      ∧ Ran (quietingBegun s) (eachLane windDown (quietingBegun s)) (inGrantMarker s) 0#8
          (allFour.filterMap (heldAsk s)) := by
  have start : Ran (quietingBegun s) (quietingBegun s) (inGrantMarker s) 0#8 [] :=
    .start hok (besideWriter_marker _ fun _ => inGrantMarker_high) hok.1 (fun _ _ => rfl) rfl rfl
  exact foldl_windDown hd allFour (by decide) start rfl fun _ _ => rfl

end Sys2Proof.Machine
end

section
/-! PROOFS. QUIET_REQUEST: quieting that goes on, and quieting that completes at once (R57, R111, R120, R180, R193,
R197). -/

namespace Sys2Proof.Machine

/-! ### The windows close PARTIAL (R120) -/

/-- A lane whose current window has closed. -/
def closedLane (l : Lane) : Lane :=
  { l with
    window := none
    flowPosition := if l.window = none then l.flowPosition else some (nextFlowPosition l.flowPosition)
    flowNumber := if l.window = none then l.flowNumber else nextFlowNumber l.flowNumber }

/-- The flow record of a window closed PARTIAL now, and the header's index. -/
def quietShown (s : State) (n : Fin 4) (m : Memory) : Prop :=
  ∀ w, (s.lane n).window = some w →
    m.readBytes (flowBase n.val (nextFlowPosition (s.lane n).flowPosition)) 32 =
        flowBytes (nextFlowNumber (s.lane n).flowNumber) (w.index * s.options.windowLength) (windowLengthTo s w s.ms)
          { w with isPartial := true }
      ∧ m.read (hdrFlow n.val) 2 = nextFlowPosition (s.lane n).flowPosition

theorem quietShown_congr {s : State} {n : Fin 4} {m m' : Memory} (h : quietShown s n m)
    (hb : ∀ a, inField (hdrFlow n.val) 2 a ∨ inField (flowBase n.val (nextFlowPosition (s.lane n).flowPosition)) 32 a →
      m'.byteAt a = m.byteAt a) : quietShown s n m' := by
  intro w hw
  obtain ⟨hrecord, hindex⟩ := h w hw
  exact ⟨(Memory.readBytes_congr fun a h1 h2 => hb a (.inr ⟨h1, h2⟩)).trans hrecord,
    (Memory.read_congr fun a h1 h2 => hb a (.inl ⟨h1, h2⟩)).trans hindex⟩

theorem quietShown_of_state {s t : State} {n : Fin 4} {m : Memory} (h : quietShown t n m) (hl : t.lane n = s.lane n)
    (hrest : t.rest = s.rest) : quietShown s n m := by
  unfold quietShown windowLengthTo at h ⊢
  rw [hl, options_of_rest hrest, ms_of_rest hrest] at h
  exact h

theorem closeAtQuiet_changed (n : Fin 4) {s : State} (h : s.mem.wf) :
    LanesChanged closedLane inWindowSwap [n] s (closeAtQuiet n s) := by
  cases hw : (s.lane n).window with
  | none =>
    have hsame : closeAtQuiet n s = s := by simp only [closeAtQuiet, hw]
    have hclosed : closedLane (s.lane n) = s.lane n := by
      rw [closedLane, if_pos hw, if_pos hw, ← hw]
    rw [hsame]
    refine ⟨rfl, fun m => ?_, Amends.refl h |>.mono fun _ => False.elim⟩
    split
    next hm => rw [List.mem_singleton.mp hm, hclosed]
    next => rfl
  | some w =>
    have hsome : closeAtQuiet n s = closeWindow n { w with isPartial := true } (windowLengthTo s w s.ms) s := by
      simp only [closeAtQuiet, hw]
    have hopen : (s.lane n).window ≠ none := by simp [hw]
    rw [hsome]
    refine ⟨closeWindow_rest .., fun m => ?_, ⟨closeWindow_wf n _ _ h, closeWindow_ports .., closeWindow_journal .., by simp,
      fun a ha => ?_⟩⟩
    · by_cases hm : m = n
      · subst hm
        rw [if_pos (by simp), closeWindow_lane, closedLane, if_neg hopen, if_neg hopen]
      · rw [if_neg (by simpa using hm), closeWindow_lane_other _ _ _ hm]
    · have hout : ¬inWindowSwap n (s.lane n) a := fun hin => ha ⟨n, by simp, hin⟩
      simp only [inWindowSwap, hw, ne_eq, reduceCtorEq, not_false_eq_true, true_and, not_or] at hout
      obtain ⟨h1, h2, h3⟩ := hout
      exact byteAt_closeWindow n _ _ h h1 h2 h3

theorem closeAtQuiet_shows (n : Fin 4) {s : State} (h : s.mem.wf) : quietShown s n (closeAtQuiet n s).mem := by
  intro w hw
  have hsome : closeAtQuiet n s = closeWindow n { w with isPartial := true } (windowLengthTo s w s.ms) s := by
    simp only [closeAtQuiet, hw]
  rw [hsome]
  exact closeWindow_record n { w with isPartial := true } (windowLengthTo s w s.ms) h

/-- Every lane's current window closes PARTIAL into its ring. -/
theorem eachLane_closeAtQuiet {s : State} (h : s.mem.wf) :
    LanesChanged closedLane inWindowSwap allFour s (eachLane closeAtQuiet s)
      ∧ ∀ n, quietShown s n (eachLane closeAtQuiet s).mem := by
  have hstep (n : Fin 4) (t : State) (ht : t.mem.wf) (_ : t.rest = s.rest) :
      LanesChanged closedLane inWindowSwap [n] t (closeAtQuiet n t) := closeAtQuiet_changed n ht
  refine ⟨foldl_changed hstep allFour (by decide) h rfl, fun n => ?_⟩
  exact foldl_shows (R := quietShown s) hstep
    (fun n t ht hr hl => quietShown_of_state (closeAtQuiet_shows n ht) hl hr)
    (fun n m m' hm hn => quietShown_congr hn fun a ha => hm a fun i hi => inWindowSwap_apart hi ha)
    allFour (by decide) h rfl (fun _ _ => rfl) n (mem_allFour n)

/-! ### The completion of quieting (R111) -/

/-- The lanes entered DOWN with their pending configurations in force. -/
def lanesDowned (s : State) : State := { s with lanes := s.lanes.mapIdx fun _ l => l.quietDown }

theorem lanesDowned_lane (s : State) (n : Fin 4) : (lanesDowned s).lane n = (s.lane n).quietDown := by
  unfold lanesDowned State.lane
  rw [Quad.get_mapIdx]

theorem quietDown_eq (l : Lane) :
    l.quietDown = { l with
      config := l.pendingConfig.getD l.config, pendingConfig := none, lockPulse := l.quietDown.lockPulse
      state := .down, latestEntry := none, stuckEntry := 0, stuckExit := 0, stuckSwitch := 0, cue := none
      levels := ⟨0, 0, 0, 0⟩ } := by
  unfold Lane.quietDown
  cases h : l.pendingConfig with
  | none => simp [Lane.enterDown, h]
  | some c => simp [Lane.enterDown, Lane.putConfig]

/-- The windows closed, before the STATION record. -/
def quietClosed (s : State) : State := eachLane closeAtQuiet (lanesDowned s)

/-- The station QUIET with its STATION record asked for, before the ports leave service. -/
def quietRecorded (s : State) : State :=
  { appendAsked (false, quietRecord s) (quietClosed s) with station := .quiet }

theorem quietClosed_rest (s : State) : (quietClosed s).rest = s.rest := by
  unfold quietClosed
  rw [eachLane_rest closeAtQuiet_rest]
  rfl

theorem completeQuieting_eq (s : State) : completeQuieting s = changeService s (quietRecorded s) := by
  have hrest := quietClosed_rest s
  have hrecord : quietRecord s = mkRecord (quietClosed s) none [] none (.station .quiet (quietClosed s).online false 0 0) := by
    rw [quietRecord, mkRecord, day_of_rest hrest, ms_of_rest hrest, online_of_rest hrest]
  rw [quietRecorded, hrecord]
  rfl

theorem quietClosed_changed {s : State} (h : s.mem.wf) :
    LanesChanged closedLane inWindowSwap allFour (lanesDowned s) (quietClosed s)
      ∧ ∀ n, quietShown (lanesDowned s) n (quietClosed s).mem := eachLane_closeAtQuiet (s := lanesDowned s) h

theorem quietRecorded_lane {s : State} (h : s.mem.wf) (n : Fin 4) :
    (quietRecorded s).lane n = closedLane (s.lane n).quietDown := by
  have happend : (appendAsked (false, quietRecord s) (quietClosed s)).lanes = (quietClosed s).lanes :=
    appendUnpledged_lanes ..
  have hlane : (quietRecorded s).lane n = (quietClosed s).lane n := lane_of_lanes (t := quietRecorded s) happend n
  rw [hlane, (quietClosed_changed h).1.lanes, if_pos (mem_allFour n), lanesDowned_lane]

theorem quietRecorded_rest (s : State) : (quietRecorded s).rest = ({ s with station := .quiet } : State).rest := by
  have hrest : (appendAsked (false, quietRecord s) (quietClosed s)).rest = s.rest :=
    (appendUnpledged_rest ..).trans (quietClosed_rest s)
  exact congrArg (fun u : State => ({ u with station := .quiet } : State)) hrest

theorem quietRecorded_ports {s : State} (h : s.mem.wf) : (quietRecorded s).ports = s.ports :=
  (appendUnpledged_ports ..).trans (quietClosed_changed h).1.memory.ports

/-- The completion of quieting asks for its STATION record and writes where windows close. -/
theorem Ran.completed {s v : State} {Q : Nat → Prop} {b : BitVec 8} {asks : List Asked} (R : Ran s v Q b asks)
    (hQ : ∀ n a, inWindowSwap n (v.lane n).quietDown a → Q a) :
    Ran s (completeQuieting v) Q b (asks ++ [(false, quietRecord v)]) := by
  obtain ⟨hclosed, -⟩ := quietClosed_changed R.wf
  have closed : Ran s (quietClosed v) Q b asks := by
    refine R.still hclosed.memory.wf (fun a ha => hclosed.memory.bytes a fun ⟨n, _, hn⟩ => ha (hQ n a ?_))
      hclosed.memory.journal (by rw [hclosed.memory.attn, BitVec.or_zero]; rfl)
    rwa [lanesDowned_lane] at hn
  have recorded : Ran s (quietRecorded v) Q b (asks ++ [(false, quietRecord v)]) :=
    (closed.ask (false, quietRecord v)).same rfl rfl rfl
  rw [completeQuieting_eq]
  exact recorded.same (changeService_mem ..) (changeService_journal ..) (changeService_attn ..)

theorem completeQuieting_shown {v : State} (hw : v.mem.wf) (hindex : v.journal.writeIndex < 1024) (n : Fin 4) :
    quietShown (lanesDowned v) n (completeQuieting v).mem := by
  obtain ⟨hclosed, hshown⟩ := quietClosed_changed hw
  refine quietShown_congr (hshown n) fun a ha => ?_
  have hn := n.isLt
  have hp := nextFlowPosition_lt ((lanesDowned v).lane n).flowPosition
  have hmem : (completeQuieting v).mem = (appendAsked (false, quietRecord v) (quietClosed v)).mem := by
    rw [completeQuieting_eq]
    exact changeService_mem ..
  rw [hmem]
  refine byteAt_appendAsked _ hclosed.memory.wf fun happend => ?_
  have := inAppend_region (by rw [hclosed.memory.journal]; exact hindex) happend
  unfold inField hdrFlow flowBase at ha
  omega

theorem completeQuieting_rest (v : State) : (completeQuieting v).rest = ({ v with station := .quiet } : State).rest := by
  rw [completeQuieting_eq, changeService_rest, quietRecorded_rest]

theorem completeQuieting_lane {v : State} (h : v.mem.wf) (n : Fin 4) :
    (completeQuieting v).lane n = closedLane (v.lane n).quietDown := by
  rw [completeQuieting_eq, lane_of_lanes (changeService_lanes ..), quietRecorded_lane h]

/-- The ports in service leave it. -/
theorem completeQuieting_port {v : State} (h : v.mem.wf) (p : Fin 4) :
    (completeQuieting v).port p = if inService v p then (v.port p).leaveService else v.port p := by
  have hunserved : inService (quietRecorded v) p = false := by
    rw [inService, station_of_rest (quietRecorded_rest v)]
    rfl
  rw [completeQuieting_eq, changeService_port, hunserved, port_of_ports (quietRecorded_ports h)]
  cases inService v p <;> rfl

/-- A lane at the end of the event in which quieting completed. -/
theorem settled_quietDown {s e : State} {n : Fin 4} {l : Lane} (h : e.lane n = closedLane l.quietDown) :
    let t := settleOutputs s e
    (t.lane n).state = .down ∧ (t.lane n).config = l.pendingConfig.getD l.config
      ∧ (t.lane n).pendingConfig = none ∧ (t.lane n).window = none ∧ (t.lane n).latestEntry = none
      ∧ (t.lane n).cue = none ∧ (t.lane n).levels = ⟨0, 0, 0, 0⟩ ∧ lockReleased t n = t.evacuate
      ∧ (t.lane n).stuckEntry = 0 ∧ (t.lane n).stuckExit = 0 ∧ (t.lane n).stuckSwitch = 0 := by
  have hl := settleOutputs_lane_eq s e n
  rw [h, quietDown_eq] at hl
  have hdown : ((settleOutputs s e).lane n).state = .down := by rw [hl]; rfl
  have hlock : lockReleased (settleOutputs s e) n = (settleOutputs s e).evacuate := by
    rw [lockReleased, hdown]
    exact Bool.or_false _
  refine ⟨hdown, ?_, ?_, ?_, ?_, ?_, ?_, hlock, ?_, ?_, ?_⟩ <;> rw [hl] <;> rfl

/-! ### What a request to go QUIET leaves -/

section
variable {s : State} (hok : s.ok) (hd : referralPortsDistinct s)

/-- The lanes wound down, before quieting may complete. -/
def woundDown (s : State) : State := eachLane windDown (quietingBegun s)

theorem requestQuiet_running (h : s.station = .running) : requestQuiet s = quietIfIdle (woundDown s) := by
  unfold requestQuiet
  rw [h]
  rfl

include hok hd

theorem woundDown_rest : (woundDown s).rest = (quietingBegun s).rest := (eachLane_windDown hok hd).1.rest

theorem woundDown_lane (n : Fin 4) : laneWoundDown s (woundDown s) n :=
  (eachLane_windDown hok hd).1.lane n (mem_allFour n)

theorem woundDown_someBusy : someBusy (woundDown s) = someBusy s := by
  unfold someBusy
  congr 1
  funext n
  exact laneWoundDown_busy (woundDown_lane hok hd n)

theorem woundDown_config (n : Fin 4) :
    ((woundDown s).lane n).config = (s.lane n).config ∧ ((woundDown s).lane n).pendingConfig = (s.lane n).pendingConfig
      ∧ ((woundDown s).lane n).flowPosition = (s.lane n).flowPosition
      ∧ ((woundDown s).lane n).flowNumber = (s.lane n).flowNumber := by
  obtain ⟨hsetup, -⟩ := laneWoundDown_setup (woundDown_lane hok hd n)
  unfold keepsSetup Lane.setup at hsetup
  simp only [Prod.mk.injEq] at hsetup
  obtain ⟨hconfig, hpending, -, -, -, -, hposition, hnumber, -⟩ := hsetup
  exact ⟨hconfig, hpending, hposition, hnumber⟩

theorem woundDown_inService (hrun : s.station = .running) (p : Fin 4) : inService (woundDown s) p = inService s p := by
  have hv : (woundDown s).station = .quieting := station_of_rest (s := quietingBegun s) (woundDown_rest hok hd)
  have hserves : laneServes (woundDown s) p = laneServes s p := funext fun m => by
    obtain ⟨hconfig, -⟩ := woundDown_config hok hd m
    rw [laneServes, laneServes, hconfig]
  rw [inService, inService, servedLane, servedLane, hserves, hv, hrun]
  rfl

/-- The ports after the answers to the referrals. -/
theorem woundDown_answers : referralsAnswered s (fun _ => True) .laneChange (woundDown s).port :=
  ⟨fun n r _ hr => (eachLane_windDown hok hd).1.asked n (mem_allFour n) r hr,
    fun p hp => (eachLane_windDown hok hd).1.port p fun n _ r hr => hp n r trivial hr⟩

theorem woundDown_free {n : Fin 4} {g : Grant} (hg : (s.lane n).state = .granted g) : markerFree (woundDown s) g.slot :=
  (eachLane_windDown hok hd).1.freed n (mem_allFour n) g hg

theorem woundDown_ran {P : Nat → Prop} (hP : besideWriter P) (hmark : ∀ a, inGrantMarker s a → P a) :
    Ran s (woundDown s) P 0#8 (allFour.filterMap (heldAsk s)) :=
  (eachLane_windDown hok hd).2.left rfl rfl hP (fun _ _ => rfl) hmark

end

/-- The ports that the answers to the referrals determine. -/
theorem referralsAnswered_all_unique {s : State} {x y : Fin 4 → Port}
    (hx : referralsAnswered s (fun _ => True) .laneChange x) (hy : referralsAnswered s (fun _ => True) .laneChange y) :
    x = y := by
  obtain ⟨hxa, hxo⟩ := hx
  obtain ⟨hya, hyo⟩ := hy
  funext p
  by_cases hp : ∃ n r, (s.lane n).state = .referred r ∧ r.port = p
  · obtain ⟨n, r, hr, rfl⟩ := hp
    rw [hxa n r trivial hr, hya n r trivial hr]
  · have none : ∀ m r, True → (s.lane m).state = .referred r → r.port ≠ p := fun m r _ hr heq => hp ⟨m, r, hr, heq⟩
    rw [hxo p none, hyo p none]

/-! ### The statement -/

/-- The bytes of a request to go QUIET, beside its records, where quieting goes on. -/
def quietingBytes (s : State) (a : Nat) : Prop := inField hdrState 2 a ∨ inGrantMarker s a ∨ ∃ n, inLaneMirror n a

theorem besideWriter_quietingBytes (s : State) : besideWriter (quietingBytes s) := by
  intro a ha
  unfold inWriter inField hdrThreshold
  rcases ha with h | h | ⟨n, h⟩
  · unfold inField hdrState at h
    omega
  · have := inGrantMarker_high h
    omega
  · have := inLaneMirror_region h
    omega

theorem inQuieting_low {s : State} {a : Nat} (h : inQuieting s a) :
    (6 ≤ a ∧ a < 8) ∨ (18 ≤ a ∧ a < 26) ∨ (0x1100 ≤ a ∧ a < 0x6200) := by
  rcases h with h | h | ⟨n, h | h⟩
  · unfold inField hdrState at h
    omega
  · unfold inField hdrFlow at h
    omega
  · have := inLaneMirror_region h
    omega
  · have := n.isLt
    have := nextFlowPosition_lt (s.lane n).flowPosition
    unfold inField flowBase at h
    omega

/-- The bytes of a request to go QUIET, beside its records, where quieting completes. -/
def quietBytes (s : State) (a : Nat) : Prop := inGrantMarker s a ∨ inQuieting s a

theorem besideWriter_quietBytes (s : State) : besideWriter (quietBytes s) := by
  intro a ha
  unfold inWriter inField hdrThreshold
  rcases ha with h | h
  · have := inGrantMarker_high h
    omega
  · have := inQuieting_low h
    omega

/-- The state word is rewritten where the station leaves RUNNING. -/
theorem stateMirror_quieted {s v : State} (h : s.station = .running) (hv : v.station = .quieting ∨ v.station = .quiet)
    (ho : v.online = s.online) (hf : v.freeFlow = s.freeFlow) : stateMirror s ≠ stateMirror v := by
  rw [stateMirror, stateMirror, h, ho, hf]
  rcases hv with hv | hv <;> rw [hv] <;> simp only [StationState.code] <;> omega

theorem heldAsks_length (s : State) : (allFour.filterMap (heldAsk s)).length ≤ 4 := List.length_filterMap_le ..

section
variable {s : State} (hok : s.ok) (hrun : s.station = .running) (hd : referralPortsDistinct s)
include hok hrun hd

/-- With a lane PASSING or CAPTURING the station is QUIETING and its lanes wound down. -/
theorem quietRequest_goesOn :
    let t := settleOutputs s (woundDown s)
    t.peek hdrState 2 = stateMirror t
      ∧ (∀ n, (s.lane n).state.displacedCue = [] → t.lane n = s.lane n)
      ∧ (∀ n, ∀ o ∈ (s.lane n).state.displacedCue, (t.lane n).state = .ready none ∧ keepsSetup s t n
          ∧ (t.lane n).window = (s.lane n).displacedWindow
          ∧ cueHanded s t n (if ((s.lane n).config.cueFor o).isSome then o else .ready)
          ∧ lockReleased t n = s.evacuate)
      ∧ grantsReleased s t (fun _ => True) ∧ referralsAnswered s (fun _ => True) .laneChange t.port
      ∧ recorded s t (allFour.filterMap (heldAsk s)) ∧ attnRaised s t 0
      ∧ t = { s with
                mem := t.mem, attn := t.attn, lanes := t.lanes, ports := t.ports, journal := t.journal
                station := .quieting, tapQueue := [], presenceTimer := 0, presenceDue := false }
      ∧ keepsBytes s t (fun a => inAppends s 4 a ∨ inField hdrState 2 a ∨ inGrantMarker s a ∨ ∃ n, inLaneMirror n a) := by
  have hrest := woundDown_rest hok hd
  have R := woundDown_ran hok hd (besideWriter_quietingBytes s) fun a ha => .inr (.inl ha)
  have hlane := woundDown_lane hok hd
  have hanswers := woundDown_answers hok hd
  have hfree := fun n g => woundDown_free hok hd (n := n) (g := g)
  generalize woundDown s = v at *
  have hevacuate : v.evacuate = s.evacuate := evacuate_of_rest (s := quietingBegun s) hrest
  have settled : Ran s (settleOutputs s v) (quietingBytes s) 0#8 (allFour.filterMap (heldAsk s)) :=
    R.still (settleOutputs_wf s R.wf)
      (fun a ha => byteAt_settleOutputs_outside s R.wf (.inl fun h => ha (.inl h)) fun m hm => ha (.inr (.inr ⟨m, hm⟩)))
      (settleOutputs_journal ..) (settleOutputs_attn ..)
  refine ⟨?_, fun n hc => ?_, fun n o ho => ?_, fun n g _ hg => markerFree_settled s R.wf (hfree n g hg), ?_,
    settled.recorded, settled.attn, eq_of_rest (s := quietingBegun s) ((settleOutputs_rest ..).trans hrest), ?_⟩
  · exact (settleOutputs_state R.wf (stateMirror_quieted hrun (.inl (station_of_rest (s := quietingBegun s) hrest))
      (online_of_rest (s := quietingBegun s) hrest) (freeFlow_of_rest (s := quietingBegun s) hrest))).trans
      (stateMirror_of_rest (settleOutputs_rest s v)).symm
  · exact settleOutputs_lane_kept hevacuate ((hlane n).1 hc)
  · obtain ⟨hstate, hsetup, hwindow, hcue⟩ := (hlane n).2 o ho
    have hl := settleOutputs_lane_eq s v n
    have hready : ((settleOutputs s v).lane n).state = .ready none := by rw [hl, hstate]
    refine ⟨hready, ?_, ?_, ?_, ?_⟩
    · rw [keepsSetup, hl]
      exact hsetup
    · rw [hl]
      exact hwindow
    · rw [cueHanded, hl]
      exact hcue
    · rw [lockReleased, hready, settleOutputs_evacuate, hevacuate]
      exact Bool.or_false _
  · rw [show (settleOutputs s v).port = v.port from funext fun q => settleOutputs_port ..]
    exact hanswers
  · exact settled.keeps (fun a ha => .inr ha) fun a ha => .inl (inAppends_mono (heldAsks_length s) ha)

/-- With no lane PASSING or CAPTURING quieting completes at once. -/
theorem quietRequest_completes :
    let t := settleOutputs s (completeQuieting (woundDown s))
    (∀ x, referralsAnswered s (fun _ => True) .laneChange x → quietCompleted s t (fun n => (s.lane n).displacedWindow) x)
      ∧ grantsReleased s t (fun _ => True)
      ∧ recorded s t (allFour.filterMap (heldAsk s) ++ [(false, quietRecord s)]) ∧ attnRaised s t 0
      ∧ t = { s with
                mem := t.mem, attn := t.attn, lanes := t.lanes, ports := t.ports, journal := t.journal
                station := .quiet, tapQueue := [], presenceTimer := 0, presenceDue := false }
      ∧ keepsBytes s t (fun a => inAppends s 5 a ∨ inGrantMarker s a ∨ inQuieting s a) := by
  have hrest := woundDown_rest hok hd
  have R := woundDown_ran hok hd (besideWriter_quietBytes s) fun a ha => .inl ha
  have hlane := woundDown_lane hok hd
  have hconfig := woundDown_config hok hd
  have hserved := woundDown_inService hok hd hrun
  have hanswers := woundDown_answers hok hd
  have hfree := fun n g => woundDown_free hok hd (n := n) (g := g)
  generalize woundDown s = v at *
  have hvok : v.ok := ⟨R.wf, R.records.journal ▸ (askedAll_within R.indexed _).indexed R.indexed⟩
  have hwindow (n : Fin 4) : ((v.lane n).quietDown).window = (s.lane n).displacedWindow := by
    obtain ⟨-, h⟩ := laneWoundDown_setup (hlane n)
    rw [quietDown_eq, ← h]
  have hring (n : Fin 4) : ((v.lane n).quietDown).flowPosition = (s.lane n).flowPosition
      ∧ ((v.lane n).quietDown).flowNumber = (s.lane n).flowNumber := by
    obtain ⟨-, -, hposition, hnumber⟩ := hconfig n
    rw [quietDown_eq]
    exact ⟨hposition, hnumber⟩
  have hwrites (n : Fin 4) (a : Nat) (h : inWindowSwap n (v.lane n).quietDown a) : inQuieting s a := by
    obtain ⟨hposition, -⟩ := hring n
    obtain ⟨-, h | h | h⟩ := h
    · exact .inr (.inr ⟨n, .inl (.inr (.inr (.inr (.inl h))))⟩)
    · exact .inr (.inl (by unfold inField hdrFlow at *; omega))
    · rw [hposition] at h
      exact .inr (.inr ⟨n, .inr h⟩)
  have hrecord : quietRecord v = quietRecord s := by
    rw [quietRecord, quietRecord, day_of_rest (s := quietingBegun s) hrest, ms_of_rest (s := quietingBegun s) hrest,
      online_of_rest (s := quietingBegun s) hrest]
    rfl
  have completed := R.completed fun n a h => .inr (hwrites n a h)
  have lowRan : Ran v (completeQuieting v) (inQuieting s) 0#8 [(false, quietRecord v)] :=
    (Ran.start hvok (fun a ha => besideWriter_quietBytes s a (.inr ha)) hvok.1 (fun _ _ => rfl) rfl rfl).completed hwrites
  have hshown (n : Fin 4) := completeQuieting_shown hvok.1 hvok.2.1 n
  have hcrest : (completeQuieting v).rest = ({ quietingBegun s with station := .quiet } : State).rest :=
    (completeQuieting_rest v).trans (congrArg (fun u : State => ({ u with station := .quiet } : State)) hrest)
  have hclane := completeQuieting_lane hvok.1
  have hcport := completeQuieting_port hvok.1
  rw [hrecord] at completed
  generalize completeQuieting v = e at *
  have settled : Ran s (settleOutputs s e) (quietBytes s) 0#8 (allFour.filterMap (heldAsk s) ++ [(false, quietRecord s)]) :=
    completed.still (settleOutputs_wf s completed.wf)
      (fun a ha => byteAt_settleOutputs_outside s completed.wf (.inl fun h => ha (.inr (.inl h)))
        fun m hm => ha (.inr (.inr (.inr ⟨m, .inl hm⟩))))
      (settleOutputs_journal ..) (settleOutputs_attn ..)
  have hstation : e.station = .quiet := station_of_rest (s := { quietingBegun s with station := .quiet }) hcrest
  have honline : e.online = s.online := online_of_rest (s := { quietingBegun s with station := .quiet }) hcrest
  have hfreeFlow : e.freeFlow = s.freeFlow := freeFlow_of_rest (s := { quietingBegun s with station := .quiet }) hcrest
  refine ⟨fun x hx => ⟨?_, ?_, fun n => ?_, fun n w hw => ?_, fun p => ?_⟩,
    fun n g _ hg => markerFree_settled s completed.wf (lowRan.markerFree (fun a ha => ?_) (hfree n g hg)),
    settled.recorded, settled.attn,
    eq_of_rest (s := { quietingBegun s with station := .quiet }) ((settleOutputs_rest ..).trans hcrest), ?_⟩
  · rw [settleOutputs_station, hstation]
  · exact (settleOutputs_state completed.wf (stateMirror_quieted hrun (.inr hstation) honline hfreeFlow)).trans
      (stateMirror_of_rest (settleOutputs_rest s e)).symm
  · obtain ⟨hc, hp, -⟩ := hconfig n
    have h := settled_quietDown (s := s) (hclane n)
    rwa [hc, hp] at h
  · have hn := n.isLt
    have hp := nextFlowPosition_lt ((lanesDowned v).lane n).flowPosition
    have hkept : quietShown (lanesDowned v) n (settleOutputs s e).mem :=
      quietShown_congr (hshown n) fun a ha => byteAt_settleOutputs_outside s completed.wf
        (.inl (by unfold inField hdrState; unfold inField hdrFlow flowBase at ha; omega))
        fun m hm => by
          have := inLaneMirror_region hm
          unfold inField hdrFlow flowBase at ha
          omega
    obtain ⟨hrecorded, hindex⟩ := hkept w (by rw [lanesDowned_lane, hwindow]; exact hw)
    obtain ⟨hpos, hnumber⟩ := hring n
    rw [← lanesDowned_lane] at hpos hnumber
    have hoptions : (lanesDowned v).options = s.options := options_of_rest (s := quietingBegun s) hrest
    have hms : (lanesDowned v).ms = s.ms := ms_of_rest (s := quietingBegun s) hrest
    rw [hpos, hnumber, windowLengthTo, hoptions, hms] at hrecorded
    rw [hpos] at hindex
    exact ⟨hrecorded, hindex⟩
  · rw [settleOutputs_port, hcport, hserved, referralsAnswered_all_unique hanswers hx]
    rfl
  · have := inQuieting_low ha
    omega
  · refine settled.keeps (fun a ha => .inr ha) fun a ha => .inl (inAppends_mono ?_ ha)
    have := heldAsks_length s
    rw [List.length_append, List.length_singleton]
    omega

end

/-- Settles O43: outside RUNNING, then by whether some lane is PASSING or CAPTURING. -/
theorem quietRequestQuietsStation : Obligations.QuietRequestQuietsStation := by
  intro s hok
  have busy_iff : someBusy s = true ↔ ∃ n, (s.lane n).state.code = 5 ∨ (s.lane n).state.code = 8 := by
    simp only [someBusy, List.any_eq_true, isBusy_iff]
    exact ⟨fun ⟨n, _, h⟩ => ⟨n, h⟩, fun ⟨n, h⟩ => ⟨n, mem_allFour n, h⟩⟩
  refine ⟨fun hs => ?_, fun hrun hd => ?_⟩
  · have hidle : requestQuiet s = s := by
      unfold requestQuiet
      split
      next h => exact absurd h hs
      next => rfl
    exact congrArg Host.Outcome.next ((congrArg (settleOutputs s) hidle).trans (settleOutputs_quiet rfl rfl rfl rfl))
  have hquieting : (woundDown s).station = .quieting := station_of_rest (s := quietingBegun s) (woundDown_rest hok hd)
  intro ended
  refine ⟨fun hbusy => ?_, fun hnone => ?_⟩
  · have hreq : requestQuiet s = woundDown s := by
      rw [requestQuiet_running hrun, quietIfIdle, woundDown_someBusy hok hd, busy_iff.mpr hbusy]
      exact if_neg fun h => absurd h.2 (by simp)
    obtain ⟨hmirror, hstands, hready, hreleased, hanswered, hrecorded, hattn, heq, hbytes⟩ :=
      quietRequest_goesOn hok hrun hd
    refine ⟨_, congrArg Host.Outcome.next (congrArg (settleOutputs s) hreq), hmirror, fun n h3 h4 => hstands n ?_, hready,
      hreleased, hanswered, hrecorded, hattn, heq, hbytes⟩
    cases hl : (s.lane n).state with
    | referred _ => exact absurd (by rw [hl]; rfl) h3
    | granted _ => exact absurd (by rw [hl]; rfl) h4
    | _ => rfl
  · have hidle : someBusy s = false := Bool.eq_false_iff.mpr fun h => by
      obtain ⟨n, hn⟩ := busy_iff.mp h
      exact hn.elim (hnone n).1 (hnone n).2
    have hreq : requestQuiet s = completeQuieting (woundDown s) := by
      rw [requestQuiet_running hrun, quietIfIdle, woundDown_someBusy hok hd]
      exact if_pos ⟨hquieting, hidle⟩
    obtain ⟨hcompleted, hreleased, hrecorded, hattn, heq, hbytes⟩ := quietRequest_completes hok hrun hd
    exact ⟨_, congrArg Host.Outcome.next (congrArg (settleOutputs s) hreq), hcompleted, hreleased, hrecorded, hattn, heq,
      hbytes⟩

end Sys2Proof.Machine
end

section
/-! PROOFS. The laws of the Journal Writer and of the lanes as one law of postures (R69, R80, R93, R103, R206 to R209), and
the moves that a command is made of. -/

namespace Sys2Proof.Machine

/-! ### The laws by the lanes' postures -/

/-- What the laws ask of a lane turns on the code of its state and its role alone. -/
def Lane.posture (l : Lane) : Nat × LaneRole := (l.state.code, l.config.role)

/-- The posture of each lane. -/
def State.posture (s : State) (n : Fin 4) : Nat × LaneRole := (s.lane n).posture

/-- The pledges of a lane: one in GRANTED and in CAPTURING (R69, R104). -/
def pledgeOf (x : Nat × LaneRole) : Nat := if x.1 = 4 ∨ x.1 = 8 then 1 else 0

/-- The pledges that four lanes hold. -/
def pledgesOf (p : Fin 4 → Nat × LaneRole) : Nat := pledgeOf (p 0) + pledgeOf (p 1) + pledgeOf (p 2) + pledgeOf (p 3)

/-- Where a lane may stand in a station state (R80, R93, R103, R111). -/
def standsIn (st : StationState) (x : Nat × LaneRole) : Prop :=
  (st = .starting ∨ st = .quiet → x.1 = 0) ∧ (x.1 = 3 ∨ x.1 = 4 → st = .running ∧ x.2 = .entry) ∧ (x.1 = 8 → x.2 = .ret)

/-- The Writer is sound, and its pledges are those of the lanes. -/
def Balanced (s : State) : Prop := s.journal.sound ∧ s.journal.pledges = pledgesOf s.posture

/-- Every lane stands where it may. -/
def LanesStand (s : State) : Prop := ∀ n, standsIn s.station (s.posture n)

/-- The two laws. -/
def Lawful (s : State) : Prop := Balanced s ∧ LanesStand s

theorem holds_pledgeOf (l : Lane) : (if l.state.holds = true then 1 else 0) = pledgeOf l.posture := by
  cases h : l.state <;> simp [LaneState.holds, pledgeOf, Lane.posture, LaneState.code, h]

theorem holders_eq (s : State) : holders s = pledgesOf s.posture := by
  simp only [holders, allFour, List.countP_cons, List.countP_nil, holds_pledgeOf, pledgesOf, State.posture]
  omega

theorem journalLaw_iff_balanced (s : State) : journalLaw s ↔ Balanced s := by
  rw [journalLaw_iff, holders_eq, Balanced]

theorem code_down (st : LaneState) : st.code = 0 ↔ st = .down := by cases st <;> simp [LaneState.code]

theorem lanesLaw_iff_stand (s : State) : lanesLaw s ↔ LanesStand s := by
  have lane (n : Fin 4) : standsIn s.station (s.posture n) ↔
      (s.station = .starting ∨ s.station = .quiet → (s.lane n).state = .down)
        ∧ match (s.lane n).state with
          | .granted _ => s.station = .running ∧ (s.lane n).config.role = .entry
          | .referred _ => s.station = .running ∧ (s.lane n).config.role = .entry
          | .capturing _ => (s.lane n).config.role = .ret
          | _ => True := by
    unfold standsIn State.posture Lane.posture
    rw [code_down]
    cases (s.lane n).state <;> simp [LaneState.code]
  unfold lanesLaw LanesStand lanesRest
  simp only [lane]
  exact ⟨fun h n => ⟨fun hs => h.1 hs n, h.2 n⟩, fun h => ⟨fun hs n => (h n).1 hs, fun n => (h n).2⟩⟩

theorem lawful_iff (s : State) : journalLaw s ∧ lanesLaw s ↔ Lawful s := by
  rw [journalLaw_iff_balanced, lanesLaw_iff_stand, Lawful]

theorem pledgeOf_le (p : Fin 4 → Nat × LaneRole) (n : Fin 4) : pledgeOf (p n) ≤ pledgesOf p := by
  unfold pledgesOf
  fin_cases n <;> dsimp <;> omega

theorem pledgesOf_update (p : Fin 4 → Nat × LaneRole) (n : Fin 4) (x : Nat × LaneRole) :
    pledgesOf (Function.update p n x) + pledgeOf (p n) = pledgesOf p + pledgeOf x := by
  unfold pledgesOf
  fin_cases n <;> simp [Function.update] <;> omega

/-- A state that holds no pledge stands anywhere but in STARTING and QUIET. -/
theorem standsIn_idle {st : StationState} {x : Nat × LaneRole} (hs : st ≠ .starting ∧ st ≠ .quiet)
    (hx : x.1 ≠ 3 ∧ x.1 ≠ 4 ∧ x.1 ≠ 8) : standsIn st x :=
  ⟨fun h => (h.elim hs.1 hs.2).elim, fun h => (h.elim hx.1 hx.2.1).elim, fun h => (hx.2.2 h).elim⟩

/-- A lane that is not DOWN is a lane of a RUNNING or QUIETING station. -/
theorem standsIn.active {st : StationState} {x : Nat × LaneRole} (h : standsIn st x) (hx : x.1 ≠ 0) :
    st ≠ .starting ∧ st ≠ .quiet := ⟨fun hs => hx (h.1 (.inl hs)), fun hs => hx (h.1 (.inr hs))⟩

/-! ### Moves -/

/-- From `s` to `t` the lanes came to the postures `p` and `k` pledges were used, the Writer kept sound. -/
structure Moves (p : Fin 4 → Nat × LaneRole) (k : Nat) (s t : State) : Prop where
  station : t.station = s.station
  posture : t.posture = p
  writer : s.journal.sound → k ≤ s.journal.pledges → t.journal.sound ∧ t.journal.pledges + k = s.journal.pledges

/-- No lane changed its posture, and `k` pledges were used. -/
abbrev Uses (k : Nat) (s t : State) : Prop := Moves s.posture k s t

/-- One lane came to the posture `x`, and `k` pledges were used. -/
abbrev Turns (n : Fin 4) (x : Nat × LaneRole) (k : Nat) (s t : State) : Prop := Moves (Function.update s.posture n x) k s t

theorem Uses.refl (s : State) : Uses 0 s s := ⟨rfl, rfl, fun h _ => ⟨h, rfl⟩⟩

theorem Moves.then {p : Fin 4 → Nat × LaneRole} {j k : Nat} {s t u : State} (h : Moves p j s t) (g : Uses k t u) :
    Moves p (j + k) s u where
  station := g.station.trans h.station
  posture := g.posture.trans h.posture
  writer hs hk := by
    obtain ⟨ht, hj⟩ := h.writer hs (by omega)
    obtain ⟨hu, hk'⟩ := g.writer ht (by omega)
    exact ⟨hu, by omega⟩

/-- A lane turns after moves that left the postures. -/
theorem Uses.turn {n : Fin 4} {x : Nat × LaneRole} {j k : Nat} {s t u : State} (h : Uses j s t) (g : Turns n x k t u) :
    Turns n x (j + k) s u where
  station := g.station.trans h.station
  posture := by rw [g.posture, h.posture]
  writer hs hk := by
    obtain ⟨ht, hj⟩ := h.writer hs (by omega)
    obtain ⟨hu, hk'⟩ := g.writer ht (by omega)
    exact ⟨hu, by omega⟩

theorem Uses.of_eq {s t : State} (hp : t.posture = s.posture) (hs : t.station = s.station) (hj : t.journal = s.journal) :
    Uses 0 s t := ⟨hs, hp, fun h _ => by rw [hj]; exact ⟨h, rfl⟩⟩

theorem posture_of_lanes {s t : State} (h : t.lanes = s.lanes) : t.posture = s.posture := by
  funext n
  simp only [State.posture, lane_of_lanes h]

/-- Lanes, station and Writer stand. -/
theorem Uses.of_lanes {s t : State} (hl : t.lanes = s.lanes) (hs : t.station = s.station) (hj : t.journal = s.journal) :
    Uses 0 s t := .of_eq (posture_of_lanes hl) hs hj

/-- Moves up to a state with the same lanes, station and Writer. -/
theorem Moves.keep {p : Fin 4 → Nat × LaneRole} {k : Nat} {s t u : State} (h : Moves p k s t) (hl : u.lanes = t.lanes)
    (hs : u.station = t.station) (hj : u.journal = t.journal) : Moves p k s u := h.then (.of_lanes hl hs hj)

theorem posture_modLane (s : State) (n : Fin 4) (f : Lane → Lane) :
    (s.modLane n f).posture = Function.update s.posture n (f (s.lane n)).posture := by
  funext m
  simp only [State.posture, lane_modLane, Function.update_apply]
  split <;> simp_all

/-- A change of one lane that keeps its posture. -/
theorem modLane_uses (s : State) (n : Fin 4) {f : Lane → Lane} (h : (f (s.lane n)).posture = (s.lane n).posture) :
    Uses 0 s (s.modLane n f) :=
  .of_eq (by rw [posture_modLane, h]; exact Function.update_eq_self ..) rfl rfl

theorem modLane_turns (s : State) (n : Fin 4) (f : Lane → Lane) : Turns n (f (s.lane n)).posture 0 s (s.modLane n f) :=
  ⟨rfl, posture_modLane s n f, fun h _ => ⟨h, rfl⟩⟩

theorem Uses.foldl {α : Type} {f : State → α → State} (h : ∀ s x, Uses 0 s (f s x)) (l : List α) (s : State) :
    Uses 0 s (l.foldl f s) := by
  induction l generalizing s with
  | nil => exact .refl s
  | cons x l ih => exact (h s x).then (ih (f s x))

theorem Uses.eachLane {f : Fin 4 → State → State} (h : ∀ n s, Uses 0 s (f n s)) (s : State) : Uses 0 s (eachLane f s) :=
  Uses.foldl (fun s n => h n s) allFour s

/-! ### The laws after moves -/

theorem Balanced.turns {s t : State} {n : Fin 4} {x : Nat × LaneRole} {k : Nat} (hs : Balanced s) (h : Turns n x k s t)
    (hk : pledgeOf (s.posture n) = pledgeOf x + k) : Balanced t := by
  obtain ⟨hsound, hpledges⟩ := hs
  have := pledgeOf_le s.posture n
  have := pledgesOf_update s.posture n x
  obtain ⟨ht, hused⟩ := h.writer hsound (by omega)
  refine ⟨ht, ?_⟩
  rw [h.posture]
  omega

theorem LanesStand.turns {s t : State} {n : Fin 4} {x : Nat × LaneRole} {k : Nat} (hs : LanesStand s) (h : Turns n x k s t)
    (hx : standsIn s.station x) : LanesStand t := by
  intro m
  rw [h.posture, h.station, Function.update_apply]
  split
  · exact hx
  · exact hs m

theorem Lawful.uses {s t : State} (hs : Lawful s) (h : Uses 0 s t) : Lawful t := by
  obtain ⟨⟨hsound, hpledges⟩, hstand⟩ := hs
  obtain ⟨ht, hused⟩ := h.writer hsound (Nat.zero_le _)
  exact ⟨⟨ht, by rw [h.posture]; omega⟩, fun n => by rw [h.posture, h.station]; exact hstand n⟩

theorem Lawful.turns {s t : State} {n : Fin 4} {x : Nat × LaneRole} {k : Nat} (hs : Lawful s) (h : Turns n x k s t)
    (hk : pledgeOf (s.posture n) = pledgeOf x + k) (hx : standsIn s.station x) : Lawful t :=
  ⟨hs.1.turns h hk, hs.2.turns h hx⟩

/-- A lane that takes a pledge as it comes to a posture that holds one. -/
theorem Lawful.pledged {s t : State} {n : Fin 4} {x : Nat × LaneRole} (hs : Lawful s) (hroom : 1 ≤ s.journal.room)
    (hj : t.journal = (takePledge s).journal) (hstation : t.station = s.station)
    (hp : t.posture = Function.update s.posture n x) (hn : pledgeOf (s.posture n) = 0) (hx : pledgeOf x = 1)
    (hin : standsIn s.station x) : Lawful t := by
  obtain ⟨⟨hsound, hpledges⟩, hstand⟩ := hs
  have := pledgesOf_update s.posture n x
  refine ⟨⟨?_, ?_⟩, fun m => ?_⟩
  · rw [hj]
    exact takePledge_sound hsound hroom
  · rw [hj, hp]
    change s.journal.pledges + 1 = _
    omega
  · rw [hp, hstation, Function.update_apply]
    split
    · exact hin
    · exact hstand m

/-! ### The shared operations -/

theorem appendUnpledged_uses (r : Record) (s : State) : Uses 0 s (appendUnpledged r s) where
  station := appendUnpledged_station r s
  posture := posture_of_lanes (appendUnpledged_lanes r s)
  writer h _ := appendUnpledged_sound r h

theorem placeRecord_pledges (r : Record) (s : State) : (placeRecord r s).journal.pledges = s.journal.pledges := by
  unfold placeRecord
  split
  · rw [ringWrite_journal]
  · rw [holdRecord_journal]

/-- A pledged record uses one pledge (R208). -/
theorem appendPledged_uses (r : Record) (s : State) : Uses 1 s (appendPledged r s) where
  station := appendPledged_station r s
  posture := posture_of_lanes (appendPledged_lanes r s)
  writer h hk := by
    refine ⟨appendPledged_sound r h hk, ?_⟩
    rw [appendPledged, placeRecord_pledges]
    exact Nat.sub_add_cancel hk

theorem endOrder_uses (k : Fin 32) (r : Result) (s : State) : Uses 0 s (endOrder k r s) :=
  .of_lanes (endOrder_lanes ..) (endOrder_station ..) (endOrder_journal ..)

theorem handOutcome_uses (n : Fin 4) (o : CueOutcome) (s : State) : Uses 0 s (handOutcome n o s) := by
  refine .of_eq (funext fun m => ?_) (handOutcome_station ..) (handOutcome_journal ..)
  by_cases h : m = n
  · subst h
    simp only [State.posture]
    rw [handOutcome_lane]
    rfl
  · simp only [State.posture, handOutcome_lane_other o s h]

theorem handInPlaceOfReady_uses (n : Fin 4) (o : CueOutcome) (s : State) : Uses 0 s (handInPlaceOfReady n o s) := by
  rw [handInPlaceOfReady_eq]
  exact handOutcome_uses ..

theorem count_uses (n : Fin 4) (k : CountKind) (s : State) : Uses 0 s (count n k s) := modLane_uses s n rfl

theorem markPartial_uses (n : Fin 4) (s : State) : Uses 0 s (markPartial n s) := modLane_uses s n rfl

theorem enter_posture (l : Lane) (st : LaneState) : (l.enter st).posture = (st.code, l.config.role) := by
  rw [enter_lane]
  rfl

theorem enter_turns (s : State) (n : Fin 4) (st : LaneState) :
    Turns n (st.code, (s.posture n).2) 0 s (s.modLane n (·.enter st)) := by
  have h := modLane_turns s n (·.enter st)
  rwa [enter_posture] at h

theorem enterReady_turns (n : Fin 4) (s : State) : Turns n (2, (s.posture n).2) 0 s (enterReady n s) :=
  (enter_turns s n (.ready none)).then (handOutcome_uses ..)

theorem enterReadyWith_turns (n : Fin 4) (o : CueOutcome) (s : State) :
    Turns n (2, (s.posture n).2) 0 s (enterReadyWith n o s) :=
  (enter_turns s n (.ready none)).then (handInPlaceOfReady_uses ..)

theorem sendShow_uses (p : Fin 4) (c : ShowCode) (v : Nat) (s : State) : Uses 0 s (sendShow p c v s) :=
  .of_lanes rfl rfl rfl

theorem denyCore_uses (n p : Fin 4) (uid : List Byte) (slot : Option Nat) (r : DenyReason) (e : ReferralEnd) (s : State) :
    Uses 0 s (denyCore n p uid slot r e s) :=
  ((appendUnpledged_uses _ s).then (sendShow_uses ..)).then (count_uses ..)

theorem denyTap_uses (n p : Fin 4) (uid : List Byte) (slot : Option Nat) (r : DenyReason) (s : State) :
    Uses 0 s (denyTap n p uid slot r s) := (denyCore_uses ..).then (handOutcome_uses ..)

theorem setMarker_uses (slot : Nat) (m : Option (Fin 4)) (s : State) : Uses 0 s (setMarker slot m s) := .of_lanes rfl rfl rfl

theorem voidCore_uses (n : Fin 4) (g : Grant) (c : VoidCause) (s : State) : Uses 1 s (voidCore n g c s) :=
  ((setMarker_uses g.slot none s).then (appendPledged_uses ..)).then (count_uses ..)

theorem voidOnward_uses (n : Fin 4) (g : Grant) (c : VoidCause) (s : State) : Uses 1 s (voidOnward n g c s) :=
  (voidCore_uses ..).then (handOutcome_uses ..)

theorem denyReferralOnward_uses (n : Fin 4) (r : Referral) (w : DenyReason) (e : ReferralEnd) (s : State) :
    Uses 0 s (denyReferralOnward n r w e s) := (denyCore_uses ..).then (handOutcome_uses ..)

theorem voidToReady_turns (n : Fin 4) (g : Grant) (c : VoidCause) (s : State) :
    Turns n (2, (s.posture n).2) 1 s (voidToReady n g c s) := by
  have h := (voidCore_uses n g c s).turn (enterReadyWith_turns n .void _)
  rwa [(voidCore_uses n g c s).posture] at h

theorem denyReferralToReady_turns (n : Fin 4) (r : Referral) (slot : Option Nat) (w : DenyReason) (e : ReferralEnd)
    (s : State) : Turns n (2, (s.posture n).2) 0 s (denyReferralToReady n r slot w e s) := by
  have h := (denyCore_uses n r.port r.uid slot w e s).turn (enterReadyWith_turns n .deny _)
  rwa [(denyCore_uses n r.port r.uid slot w e s).posture] at h

theorem stationRecord_uses (ev : StationEvent) (b : Bool) (d m : Nat) (s : State) : Uses 0 s (stationRecord ev b d m s) :=
  appendUnpledged_uses _ s

theorem laneRecord_uses (n : Fin 4) (b : Bool) (s : State) : Uses 0 s (laneRecord n b s) := appendUnpledged_uses _ s

/-- What every event ends with changes no posture. -/
theorem settleOutputs_uses (before s : State) : Uses 0 s (settleOutputs before s) := by
  refine .of_eq (funext fun n => ?_) rfl rfl
  simp only [State.posture, settleOutputs_lane]
  rw [drivePulse_lane]
  rfl

end Sys2Proof.Machine
end

section
/-! PROOFS. The laws of the Journal Writer and of the lanes through grants, configurations, quieting and free flow (R68, R73,
R80, R90 to R92, R105, R107, R111). -/

namespace Sys2Proof.Machine

/-! ### Postures of lane states -/

theorem posture_of_state {s : State} {n : Fin 4} {st : LaneState} (h : (s.lane n).state = st) :
    s.posture n = (st.code, (s.lane n).config.role) := by
  unfold State.posture Lane.posture
  rw [h]

section
variable {s : State} (hs : Lawful s)
include hs

/-- A lane that is GRANTED or REFERRED is an ENTRY lane of a RUNNING station (R80, R111). -/
theorem Lawful.entry {n : Fin 4} (h : (s.lane n).state.code = 3 ∨ (s.lane n).state.code = 4) :
    s.station = .running ∧ (s.lane n).config.role = .entry := (hs.2 n).2.1 h

theorem Lawful.active {n : Fin 4} (h : (s.lane n).state.code ≠ 0) : s.station ≠ .starting ∧ s.station ≠ .quiet :=
  (hs.2 n).active h

/-- A lane whose grant is voided returns to READY (R73). -/
theorem voidToReady_lawful {n : Fin 4} {g : Grant} (h : (s.lane n).state = .granted g) (c : VoidCause) :
    Lawful (voidToReady n g c s) := by
  have hp := posture_of_state h
  refine hs.turns (voidToReady_turns n g c s) (by rw [hp]; rfl) (standsIn_idle (hs.active (n := n) ?_) (by simp))
  simp [h, LaneState.code]

theorem denyReferralToReady_lawful {n : Fin 4} {r : Referral} (h : (s.lane n).state = .referred r) (slot : Option Nat)
    (w : DenyReason) (e : ReferralEnd) : Lawful (denyReferralToReady n r slot w e s) := by
  have hp := posture_of_state h
  refine hs.turns (denyReferralToReady_turns n r slot w e s) (by rw [hp]; rfl)
    (standsIn_idle (hs.active (n := n) ?_) (by simp))
  simp [h, LaneState.code]

/-- A grant at an ENTRY lane of a RUNNING station that holds nothing, with room for its pledge (R64, R68). -/
theorem grantPass_lawful {n : Fin 4} (hstation : s.station = .running) (hrole : (s.lane n).config.role = .entry)
    (hfree : pledgeOf (s.posture n) = 0) (hroom : 1 ≤ s.journal.room) (port : Fin 4) (uid : List Byte) (slot : Nat) :
    Lawful (grantPass n port uid slot s) := by
  refine hs.pledged (n := n) (x := (4, .entry)) hroom (grantPass_journal ..) (station_of_rest (grantPass_rest ..)) ?_ hfree
    rfl ⟨by simp [hstation], fun _ => ⟨hstation, rfl⟩, by simp⟩
  have entered := (enter_turns s n (.granted (newGrant s n uid slot))).posture
  rw [show (s.posture n).2 = .entry from hrole, ← posture_of_lanes (grantEntered_lanes n uid slot s)] at entered
  have cued := (handOutcome_uses n .grant (grantEntered n uid slot s)).then
    (sendShow_uses port .grant (grantValue (s.pass slot) (s.product (s.pass slot).product) s.day) _)
  exact cued.posture.trans entered

end

/-! ### Configurations (R90 to R92) -/

theorem placed_posture (freeFlow : Bool) (c : LaneConfig) (l : Lane) :
    (l.placed freeFlow c).posture = ((placedState freeFlow c).code, c.role) := by
  rw [placed_eq]
  rfl

/-- A configuration places its lane DOWN, FREE or ARMING. -/
theorem placedState_idle (freeFlow : Bool) (c : LaneConfig) :
    (placedState freeFlow c).code ≠ 3 ∧ (placedState freeFlow c).code ≠ 4 ∧ (placedState freeFlow c).code ≠ 8 := by
  unfold placedState
  split
  · decide
  · split <;> decide

theorem applyConfig_turns (n : Fin 4) (c : LaneConfig) (s : State) :
    Turns n ((placedState s.freeFlow c).code, c.role) 0 s (applyConfig n c s) := by
  have placed := modLane_turns s n (·.placed s.freeFlow c)
  rw [placed_posture] at placed
  have served : Uses 0 (s.modLane n (·.placed s.freeFlow c)) (changeService s (s.modLane n (·.placed s.freeFlow c))) :=
    .of_lanes rfl rfl rfl
  exact ((placed.then served).then (markPartial_uses n _)).then (laneRecord_uses n false _)

/-- A configuration applied outside STARTING and QUIET, once the pledge of its lane is used. -/
theorem applyConfig_lawful {s t : State} (hs : Lawful s) {n : Fin 4} (hstation : s.station ≠ .starting ∧ s.station ≠ .quiet)
    {k : Nat} (hused : Uses k s t) (hk : pledgeOf (s.posture n) = k) (c : LaneConfig) : Lawful (applyConfig n c t) := by
  obtain ⟨h3, h4, h8⟩ := placedState_idle t.freeFlow c
  refine hs.turns (hused.turn (applyConfig_turns n c t)) ?_ (standsIn_idle hstation ⟨h3, h4, h8⟩)
  rw [hk]
  simp [pledgeOf, h4, h8]

theorem makePending_uses (n : Fin 4) (c : LaneConfig) (s : State) : Uses 0 s (makePending n c s) := modLane_uses s n rfl

/-- A configuration in force at a lane that is DOWN. -/
theorem putConfig_lawful {s : State} (hs : Lawful s) {n : Fin 4} (h : (s.lane n).state = .down) (c : LaneConfig) :
    Lawful (s.modLane n (·.putConfig c)) := by
  have hp := posture_of_state h
  refine hs.turns (modLane_turns s n (·.putConfig c)) ?_ ?_
  · simp [hp, Lane.posture, Lane.putConfig, h, pledgeOf, LaneState.code]
  · simp [standsIn, Lane.posture, Lane.putConfig, h, LaneState.code]

theorem carrySetLane_lawful {s : State} (hs : Lawful s) (o : LaneOrder) : Lawful (carrySetLane o s) := by
  have ended {t : State} (ht : Lawful t) (r : Result) : Lawful (endOrder o.slot r t) := ht.uses (endOrder_uses ..)
  have waits : Lawful { s with lanesWaiting := s.lanesWaiting ++ [o] } := hs.uses (.of_lanes rfl rfl rfl)
  have pends : Lawful (makePending o.lane o.config s) := hs.uses (makePending_uses ..)
  unfold carrySetLane
  dsimp only
  split
  case h_1 hrunning =>
    have hstation : s.station ≠ .starting ∧ s.station ≠ .quiet := by simp [hrunning]
    have applied {k : Nat} {t : State} (hused : Uses k s t) (hk : pledgeOf (s.posture o.lane) = k) :=
      ended (applyConfig_lawful hs hstation hused hk o.config) .ok
    split
    case h_1 g h =>
      split
      · exact ended (voidToReady_lawful hs h _) _
      · exact applied (voidOnward_uses o.lane g .laneChange s) (by rw [posture_of_state h]; rfl)
    case h_2 r h =>
      split
      · exact ended (denyReferralToReady_lawful hs h ..) _
      · exact applied (denyReferralOnward_uses o.lane r .laneChange .laneChange s) (by rw [posture_of_state h]; rfl)
    case h_3 h =>
      split
      · exact ended hs _
      · exact ended pends _
    case h_4 => exact waits
    case h_5 => exact waits
    case h_6 hg _ _ _ hc =>
      split
      · exact ended hs _
      · refine applied (.refl s) ?_
        cases h : (s.lane o.lane).state with
        | granted g => exact absurd h (hg g)
        | capturing c => exact absurd h (hc c)
        | _ => rw [posture_of_state h]; rfl
  case h_2 =>
    split
    · exact waits
    · split
      · exact ended hs _
      · exact ended pends _
  case h_3 hr hq =>
    have hdown : (s.lane o.lane).state = .down := by
      refine (code_down _).mp ((hs.2 o.lane).1 ?_)
      cases h : s.station with
      | running => exact absurd h hr
      | quieting => exact absurd h hq
      | starting => exact .inl rfl
      | quiet => exact .inr rfl
    split
    · exact ended hs _
    · exact ended (putConfig_lawful hs hdown _) _

theorem Lawful.foldl {α : Type} {f : State → α → State} (h : ∀ s x, Lawful s → Lawful (f s x)) (l : List α) {s : State}
    (hs : Lawful s) : Lawful (l.foldl f s) := by
  induction l generalizing s with
  | nil => exact hs
  | cons x l ih => exact ih (h s x hs)

theorem Lawful.eachLane {f : Fin 4 → State → State} (h : ∀ n s, Lawful s → Lawful (f n s)) {s : State} (hs : Lawful s) :
    Lawful (eachLane f s) := Lawful.foldl (fun s n => h n s) allFour hs

theorem runWaiting_lawful {s : State} (hs : Lawful s) (n : Fin 4) : Lawful (runWaiting n s) := by
  have taken : Lawful { s with lanesWaiting := s.lanesWaiting.filter (fun o => o.lane ≠ n) } :=
    hs.uses (.of_lanes rfl rfl rfl)
  exact Lawful.foldl (f := fun t o => carrySetLane o t) (fun t o ht => carrySetLane_lawful ht o) _ taken

/-! ### Quieting (R111) -/

theorem quietDown_posture (l : Lane) : l.quietDown.posture.1 = 0 := by
  unfold Lane.quietDown
  split <;> rfl

theorem closeWindow_uses (n : Fin 4) (w : Window) (length : Nat) (s : State) : Uses 0 s (closeWindow n w length s) := by
  have closed := modLane_uses s n (f := fun l => { l with
    window := none, flowPosition := some (nextFlowPosition (s.lane n).flowPosition)
    flowNumber := nextFlowNumber (s.lane n).flowNumber }) rfl
  exact closed.then (.of_lanes (closeWindow_lanes n w length s) rfl rfl)

theorem openWindow_uses (n : Fin 4) (w : Window) (s : State) : Uses 0 s (openWindow n w s) := by
  have opened := modLane_uses s n (f := fun l => { l with window := some w }) rfl
  exact opened.then (.of_lanes (openWindow_lanes n w s) rfl rfl)

theorem closeAtQuiet_uses (n : Fin 4) (s : State) : Uses 0 s (closeAtQuiet n s) := by
  unfold closeAtQuiet
  split
  · exact closeWindow_uses ..
  · exact .refl s

/-- Lanes that are all DOWN hold no pledge. -/
theorem pledgesOf_down {p : Fin 4 → Nat × LaneRole} (h : ∀ n, (p n).1 = 0) : pledgesOf p = 0 := by
  simp [pledgesOf, pledgeOf, h]

/-- Lanes that are all DOWN stand in every station state. -/
theorem lawful_of_down {s : State} (hsound : s.journal.sound) (hpledges : s.journal.pledges = 0)
    (hdown : ∀ n, (s.posture n).1 = 0) : Lawful s :=
  ⟨⟨hsound, by rw [pledgesOf_down hdown, hpledges]⟩, fun n => ⟨fun _ => hdown n, by simp [hdown n], by simp [hdown n]⟩⟩

/-- A QUIETING station with no lane PASSING or CAPTURING holds no pledge (R111). -/
theorem Lawful.idle {s : State} (hs : Lawful s) (hq : s.station = .quieting) (hidle : someBusy s = false) :
    s.journal.pledges = 0 := by
  have none (n : Fin 4) : pledgeOf (s.posture n) = 0 := by
    have hbusy : (s.lane n).state.isBusy = false := by
      simpa using List.any_eq_false.mp hidle n (mem_allFour n)
    cases h : (s.lane n).state with
    | granted g => simpa [hq] using hs.entry (n := n) (.inr (by rw [h]; rfl))
    | capturing c => rw [h] at hbusy; cases hbusy
    | _ => rw [posture_of_state h]; rfl
  rw [hs.1.2, pledgesOf, none, none, none, none]

theorem completeQuieting_lawful {s : State} (hs : Lawful s) (hq : s.station = .quieting) (hidle : someBusy s = false) :
    Lawful (completeQuieting s) := by
  have closed := (Uses.eachLane closeAtQuiet_uses { s with lanes := s.lanes.mapIdx fun _ l => l.quietDown }).then
    (stationRecord_uses .quiet false 0 0 _)
  obtain ⟨hsound, hpledges⟩ := closed.writer hs.1.1 (Nat.zero_le _)
  have hdown (n : Fin 4) : (({ s with lanes := s.lanes.mapIdx fun _ l => l.quietDown } : State).posture n).1 = 0 := by
    simp only [State.posture, State.lane, Quad.get_mapIdx, quietDown_posture]
  exact lawful_of_down hsound (hpledges.trans (hs.idle hq hidle)) fun n =>
    (congrArg Prod.fst (congrFun closed.posture n)).trans (hdown n)

theorem quietIfIdle_lawful {s : State} (hs : Lawful s) : Lawful (quietIfIdle s) := by
  unfold quietIfIdle
  split
  · next h => exact completeQuieting_lawful hs h.1 h.2
  · exact hs

theorem afterBusy_lawful {s : State} (hs : Lawful s) (n : Fin 4) : Lawful (afterBusy n s) :=
  quietIfIdle_lawful (runWaiting_lawful hs n)

/-! ### Free flow (R105, R107) -/

theorem enterFree_turns (n : Fin 4) (s : State) : Turns n (6, (s.posture n).2) 0 s (enterFree n s) :=
  ((enter_turns s n .free).then (markPartial_uses ..)).then (handOutcome_uses ..)

/-- A lane that is not DOWN enters FREE once its pledge is used. -/
theorem enterFree_lawful {s t : State} (hs : Lawful s) {n : Fin 4} (hcode : (s.lane n).state.code ≠ 0) {k : Nat}
    (hused : Uses k s t) (hk : pledgeOf (s.posture n) = k) : Lawful (enterFree n t) := by
  refine hs.turns (hused.turn (enterFree_turns n t)) ?_ (standsIn_idle (hs.active hcode) (by simp))
  rw [hk]
  simp [pledgeOf]

theorem freeLane_lawful (n : Fin 4) {s : State} (hs : Lawful s) : Lawful (freeLane n s) := by
  have frees {k : Nat} {t : State} (hcode : (s.lane n).state.code ≠ 0) (hused : Uses k s t)
      (hk : pledgeOf (s.posture n) = k) := enterFree_lawful hs hcode hused hk
  unfold freeLane
  split
  case isFalse => exact hs
  case isTrue hrole =>
    split
    case h_1 => exact hs
    case h_2 => exact hs
    case h_3 r h =>
      exact frees (by simp [h, LaneState.code]) (denyReferralOnward_uses n r .freeFlow .freeFlow s)
        (by rw [posture_of_state h]; rfl)
    case h_4 g h =>
      exact frees (by simp [h, LaneState.code]) (voidOnward_uses n g .freeFlow s) (by rw [posture_of_state h]; rfl)
    case h_5 p h =>
      exact runWaiting_lawful (frees (by simp [h, LaneState.code]) (.refl s) (by rw [posture_of_state h]; rfl)) n
    case h_6 hd _ _ hg _ =>
      refine frees (fun h => hd ((code_down _).mp h)) (.refl s) ?_
      cases h : (s.lane n).state with
      | granted g => exact absurd h (hg g)
      | capturing c =>
        have hret := (hs.2 n).2.2 (by rw [posture_of_state h]; rfl)
        rw [posture_of_state h, hrole] at hret
        cases hret
      | _ => rw [posture_of_state h]; rfl

theorem startFreeFlow_lawful {s : State} (hs : Lawful s) (byEvacuate : Bool) : Lawful (startFreeFlow byEvacuate s) := by
  unfold startFreeFlow
  split
  · exact hs
  · have flows : Uses 0 s { s with freeFlow := true } := .of_lanes rfl rfl rfl
    exact quietIfIdle_lawful (Lawful.eachLane freeLane_lawful (hs.uses (flows.then (stationRecord_uses ..))))

theorem leaveFree_lawful (n : Fin 4) {s : State} (hs : Lawful s) : Lawful (leaveFree n s) := by
  unfold leaveFree
  split
  · next h =>
    have hstation := hs.active (n := n) (by simp [h, LaneState.code])
    have hp := posture_of_state h
    split
    · exact applyConfig_lawful hs hstation (.refl s) (by rw [hp]; rfl) _
    · refine (hs.turns (modLane_turns s n (·.enterArming)) (by rw [hp]; rfl) ?_).uses (markPartial_uses ..)
      exact standsIn_idle hstation (by simp [Lane.posture, Lane.enterArming, LaneState.code])
  · exact hs

theorem endFreeFlow_lawful {s : State} (hs : Lawful s) : Lawful (endFreeFlow s) := by
  have flows : Uses 0 s { s with freeFlow := false } := .of_lanes rfl rfl rfl
  exact (Lawful.eachLane leaveFree_lawful (hs.uses flows)).uses (stationRecord_uses ..)

theorem assertEvacuate_lawful {s : State} (hs : Lawful s) : Lawful (assertEvacuate s) := by
  have raised : Uses 0 s (raise .evacuate s) := .of_lanes rfl rfl rfl
  exact startFreeFlow_lawful (hs.uses raised) true

end Sys2Proof.Machine
end

section
/-! PROOFS. The laws of the Journal Writer and of the lanes through orders, scans, reader lines, passages and captures. -/

namespace Sys2Proof.Machine

/-! ### Orders and scans that move no lane -/

theorem placeProduct_uses (index : Nat) (p : Product) (immediate : Bool) (s : State) :
    Uses 0 s (placeProduct index p immediate s) := by
  unfold placeProduct placeNow stageRecord
  split <;> exact .of_lanes rfl rfl rfl

theorem beginWithdrawal_uses (o : WithdrawalOrder) (s : State) : Uses 0 s (beginWithdrawal o s) := by
  unfold beginWithdrawal
  split
  · exact endOrder_uses ..
  · split
    · exact (placeProduct_uses ..).then (endOrder_uses ..)
    · exact .of_lanes rfl rfl rfl

theorem startWithdrawals_uses (l : List WithdrawalOrder) (s : State) : Uses 0 s (startWithdrawals l s) := by
  induction l generalizing s with
  | nil => exact .of_lanes rfl rfl rfl
  | cons o l ih =>
    have begun := beginWithdrawal_uses o s
    unfold startWithdrawals
    dsimp only
    split
    · exact begun.keep rfl rfl rfl
    · exact begun.then (ih _)

theorem nextWithdrawals_uses (s : State) : Uses 0 s (nextWithdrawals s) := startWithdrawals_uses _ s

theorem endScanClean_uses (o : WithdrawalOrder) (s : State) : Uses 0 s (endScanClean o s) := by
  unfold endScanClean
  split
  · exact endOrder_uses ..
  · exact (placeProduct_uses ..).then (endOrder_uses ..)

theorem scanStep_uses (w : WithdrawalScan) (s : State) : Uses 0 s (scanStep w s) := by
  have holds (x : Option WithdrawalScan) : Uses 0 s { s with withdrawal := x } := .of_lanes rfl rfl rfl
  have inUse := ((holds none).then (endOrder_uses w.order.slot .inUse _)).then (nextWithdrawals_uses _)
  unfold scanStep
  repeat' split
  · exact inUse
  · exact holds _
  · exact inUse
  · exact holds _
  · exact ((holds none).then (endScanClean_uses ..)).then (nextWithdrawals_uses _)

theorem stageProduct_uses (k : Fin 32) (s : State) : Uses 0 s (stageProduct k s) := by
  unfold stageProduct
  dsimp only
  repeat' split
  case isFalse.isTrue.isTrue => exact beginWithdrawal_uses ..
  case isFalse.isTrue.isFalse.isTrue => exact .of_lanes rfl rfl rfl
  case isFalse.isTrue.isFalse.isFalse => exact beginWithdrawal_uses ..
  case h_2 => exact (placeProduct_uses ..).then (endOrder_uses ..)
  all_goals exact endOrder_uses ..

theorem beginClosure_uses (o : ClosureOrder) (s : State) : Uses 0 s (beginClosure o s) := by
  unfold beginClosure
  split
  · exact endOrder_uses ..
  · split
    · exact .of_lanes rfl rfl rfl
    · exact endOrder_uses ..

theorem startClosures_uses (l : List ClosureOrder) (s : State) : Uses 0 s (startClosures l s) := by
  induction l generalizing s with
  | nil => exact .of_lanes rfl rfl rfl
  | cons o l ih =>
    have begun := beginClosure_uses o s
    unfold startClosures
    dsimp only
    split
    · exact begun.keep rfl rfl rfl
    · exact begun.then (ih _)

theorem poke_uses (s : State) (a n v : Nat) : Uses 0 s (s.poke a n v) := .of_lanes rfl rfl rfl

theorem pokeResult_uses (k : Fin 32) (off : Nat) (bs : List Byte) (s : State) : Uses 0 s (pokeResult k off bs s) :=
  .of_lanes rfl rfl rfl

theorem endSweep_uses (c : CreditSweep) (cut : Bool) (s : State) : Uses 0 s (endSweep c cut s) := by
  have freed : Uses 0 s { s with creditSweep := none } := .of_lanes rfl rfl rfl
  exact (((freed.then (pokeResult_uses ..)).then (endOrder_uses ..)).then (appendUnpledged_uses ..)).then
    (startClosures_uses ..)

theorem cutSweepShort_uses (s : State) : Uses 0 s (cutSweepShort s) := by
  unfold cutSweepShort
  split
  · exact endSweep_uses ..
  · exact .refl s

theorem putPass_uses (slot : Nat) (e : PassEntry) (s : State) : Uses 0 s (s.putPass slot e) :=
  Uses.of_lanes (putPass_lanes ..) rfl (putPass_journal ..)

theorem sweepStep_uses (c : CreditSweep) (s : State) : Uses 0 s (sweepStep c s) := by
  have credits : Uses 0 s (if visitCredits s c.position then
      s.putPass c.position (creditEntry s.day (s.pass c.position)) else s) := by
    split
    · exact putPass_uses ..
    · exact .refl s
  unfold sweepStep
  dsimp only
  split
  · exact credits.keep rfl rfl rfl
  · exact credits.then (endSweep_uses ..)

theorem postClosure_uses (k : Fin 32) (s : State) : Uses 0 s (postClosure k s) := by
  unfold postClosure
  dsimp only
  repeat' split
  · exact endOrder_uses ..
  · exact .of_lanes rfl rfl rfl
  · exact beginClosure_uses ..

theorem storedPass_uses (k : Fin 32) (r : Result) (slot : Nat) (e : PassEntry) (s : State) :
    Uses 0 s (endOrder k r (s.putPass slot e)) := (putPass_uses ..).then (endOrder_uses ..)

theorem amendPass_uses (k : Fin 32) (s : State) : Uses 0 s (amendPass k s) := by
  unfold amendPass
  split
  · exact endOrder_uses ..
  · split
    · exact endOrder_uses ..
    · split
      · exact endOrder_uses ..
      · exact storedPass_uses ..

theorem removePass_uses (k : Fin 32) (s : State) : Uses 0 s (removePass k s) := by
  unfold removePass
  repeat' split
  case h_2.isFalse => exact (poke_uses ..).then (endOrder_uses ..)
  all_goals exact endOrder_uses ..

theorem copyPass_uses (k : Fin 32) (s : State) : Uses 0 s (copyPass k s) := by
  unfold copyPass
  repeat' split
  case h_2 => exact (pokeResult_uses ..).then (endOrder_uses ..)
  all_goals exact endOrder_uses ..

theorem settleQuote_uses (k : Fin 32) (s : State) : Uses 0 s (settleQuote k s) := by
  unfold settleQuote
  repeat' split
  case h_2 => exact (pokeResult_uses ..).then (endOrder_uses ..)
  all_goals exact endOrder_uses ..

theorem mapInputs_uses (l : List (Option Source)) (m : Memory) (s : State) :
    Uses 0 s { s with lanes := mapInputs l s.lanes, mem := m } := by
  refine .of_eq (funext fun n => ?_) rfl rfl
  simp only [State.posture, State.lane, mapInputs, Quad.get_mapIdx]
  rfl

theorem mapInputsOrder_uses (k : Fin 32) (s : State) : Uses 0 s (mapInputsOrder k s) := by
  unfold mapInputsOrder
  repeat' split
  case h_2.isFalse => exact (mapInputs_uses ..).then (endOrder_uses ..)
  all_goals exact endOrder_uses ..

/-! ### Orders that move lanes -/

theorem reevaluate_lawful (uid : List Byte) (slot : Nat) (n : Fin 4) {s : State} (hs : Lawful s) :
    Lawful (reevaluate uid slot n s) := by
  unfold reevaluate
  split
  · next r h =>
    obtain ⟨hstation, hrole⟩ := hs.entry (n := n) (.inl (by rw [h]; rfl))
    repeat' split
    · exact denyReferralToReady_lawful hs h ..
    · next hroom =>
      exact grantPass_lawful hs hstation hrole (by rw [posture_of_state h]; rfl) (by omega) ..
    · exact denyReferralToReady_lawful hs h ..
    · exact hs
  · exact hs

theorem noteReference_uses (index slot : Nat) (s : State) : Uses 0 s (noteReference index slot s) := by
  unfold noteReference
  exact Uses.of_lanes rfl rfl rfl

theorem acceptInsert_lawful {s : State} (hs : Lawful s) (k : Fin 32) (uid : List Byte) (slot : Nat) (e : PassEntry) :
    Lawful (acceptInsert k uid slot e s) := by
  have stored := hs.uses (storedPass_uses k .ok slot e s)
  unfold acceptInsert reevaluateAll
  exact Lawful.eachLane (reevaluate_lawful uid slot) (stored.uses (noteReference_uses ..))

theorem insertPass_lawful (k : Fin 32) {s : State} (hs : Lawful s) : Lawful (insertPass k s) := by
  have ended (r : Result) : Lawful (endOrder k r s) := hs.uses (endOrder_uses ..)
  unfold insertPass
  dsimp only
  repeat' split
  · exact ended _
  · exact ended _
  · exact ended _
  · exact acceptInsert_lawful hs ..
  · exact ended _
  · exact ended _
  · exact acceptInsert_lawful hs ..

theorem declineReferral_lawful (k : Fin 32) {s : State} (hs : Lawful s) : Lawful (declineReferral k s) := by
  have ended {t : State} (ht : Lawful t) (r : Result) : Lawful (endOrder k r t) := ht.uses (endOrder_uses ..)
  unfold declineReferral
  repeat' split
  · next h _ => exact ended (denyReferralToReady_lawful hs h ..) _
  · exact ended hs _
  · exact ended hs _
  · exact ended hs _

theorem retire_uses (slot : Nat) (s : State) : Uses 0 s (retire slot s) := .of_lanes rfl rfl rfl

theorem pokeSettlement_uses (k : Fin 32) (slot : Nat) (f : Figures) (s : State) : Uses 0 s (pokeSettlement k slot f s) :=
  Uses.of_lanes (by simp [pokeSettlement]) (by simp [pokeSettlement]) (by simp [pokeSettlement])

/-- A FINAL takes its pledge and uses it (R158). -/
theorem acceptFinal_uses (k : Fin 32) (uid : List Byte) (slot : Nat) (f : Figures) {s : State} (hroom : 1 ≤ s.journal.room) :
    Uses 0 s (acceptFinal k uid slot f s) := by
  unfold acceptFinal
  dsimp only
  generalize mkRecord _ none uid _ _ = r
  have used := appendPledged_uses r (takePledge (retire slot s))
  have asked : Uses 0 s (appendPledged r (takePledge (retire slot s))) := by
    refine ⟨used.station, used.posture, fun hs _ => ?_⟩
    obtain ⟨ht, hk⟩ := used.writer (takePledge_sound (s := retire slot s) hs hroom) (Nat.le_add_left ..)
    exact ⟨ht, Nat.add_right_cancel hk⟩
  exact (asked.then (pokeSettlement_uses ..)).then (endOrder_uses ..)

theorem settleFinal_lawful (k : Fin 32) {s : State} (hs : Lawful s) : Lawful (settleFinal k s) := by
  have ended (r : Result) : Lawful (endOrder k r s) := hs.uses (endOrder_uses ..)
  unfold settleFinal
  repeat' split
  · exact ended _
  · exact ended _
  · exact ended _
  · exact ended _
  · exact hs.uses (acceptFinal_uses k _ _ _ (by omega))

theorem setLaneOrder_lawful (k : Fin 32) {s : State} (hs : Lawful s) : Lawful (setLaneOrder k s) := by
  unfold setLaneOrder
  repeat' split
  · exact hs.uses (endOrder_uses ..)
  · exact carrySetLane_lawful hs _
  · exact hs.uses (endOrder_uses ..)

theorem freeFlowOn_lawful (k : Fin 32) {s : State} (hs : Lawful s) : Lawful (freeFlowOn k s) := by
  unfold freeFlowOn
  split
  · exact (startFreeFlow_lawful hs false).uses (endOrder_uses ..)
  · exact hs.uses (endOrder_uses ..)

theorem freeFlowOff_lawful (k : Fin 32) {s : State} (hs : Lawful s) : Lawful (freeFlowOff k s) := by
  unfold freeFlowOff
  repeat' split
  · exact hs.uses (endOrder_uses ..)
  · exact (endFreeFlow_lawful hs).uses (endOrder_uses ..)
  · exact hs.uses (endOrder_uses ..)

/-! ### Taps -/

theorem evaluateTap_lawful {s : State} (hs : Lawful s) (q : TapRecord) (hstation : s.station = .running)
    (hrole : (s.lane q.lane).config.role = .entry) {w : Option Nat} (h : (s.lane q.lane).state = .ready w) :
    Lawful (evaluateTap q s) := by
  have denied (uid : List Byte) (slot : Option Nat) (r : DenyReason) : Lawful (denyTap q.lane q.port uid slot r s) :=
    hs.uses (denyTap_uses ..)
  have hp := posture_of_state h
  unfold evaluateTap
  repeat' split
  · exact denied ..
  · exact denied ..
  · exact denied ..
  · refine ((hs.turns (enter_turns s q.lane (.referred ⟨q.uid, q.stamp, s.now, q.port⟩)) (by rw [hp]; rfl) ?_).uses
      (appendUnpledged_uses ..)).uses (.of_lanes rfl rfl rfl)
    exact ⟨by simp [hstation], fun _ => ⟨hstation, hrole⟩, by simp [LaneState.code]⟩
  · exact denied ..
  · exact denied ..
  · exact grantPass_lawful hs hstation hrole (by rw [hp]; rfl) (by omega) ..

theorem handleTap_lawful {s : State} (hs : Lawful s) (q : TapRecord) (hstation : s.station = .running)
    (hrole : (s.lane q.lane).config.role = .entry) : Lawful (handleTap q s) := by
  have busy : Lawful (denyBusy q.lane q.port q.uid s) := hs.uses (denyCore_uses ..)
  unfold handleTap
  repeat' split
  · next h => exact evaluateTap_lawful hs q hstation hrole h
  · exact hs
  · exact busy
  · exact hs
  · exact busy
  · exact busy
  · exact hs.uses (sendShow_uses ..)
  · exact hs

/-- A capture starts at a READY RETURN lane, with room for its pledge (R104, R164). -/
theorem startCapture_lawful {s : State} (hs : Lawful s) (q : TapRecord) (slot : Nat) (f : Figures)
    (hstation : s.station = .running) (hrole : (s.lane q.lane).config.role = .ret) {w : Option Nat}
    (h : (s.lane q.lane).state = .ready w) (hroom : 1 ≤ s.journal.room) : Lawful (startCapture q slot f s) := by
  refine hs.pledged (n := q.lane) (x := (8, .ret)) hroom ?_ (station_of_rest (startCapture_rest ..)) ?_
    (by rw [posture_of_state h]; rfl) rfl ⟨by simp [hstation], by simp, fun _ => rfl⟩
  · simp only [startCapture, handOutcome_journal, sendShow_journal]
    rfl
  have entered := (enter_turns s q.lane (.capturing ⟨slot, q.uid, f, s.now, s.options.captureTimeout⟩)).posture
  rw [show (s.posture q.lane).2 = .ret from hrole] at entered
  unfold startCapture
  exact (handOutcome_uses ..).posture.trans entered

theorem returnChecks_lawful {s : State} (hs : Lawful s) (q : TapRecord) (hstation : s.station = .running)
    (hrole : (s.lane q.lane).config.role = .ret) {w : Option Nat} (h : (s.lane q.lane).state = .ready w) :
    Lawful (returnChecks q s) := by
  have denied (uid : List Byte) (slot : Option Nat) (r : DenyReason) : Lawful (denyTap q.lane q.port uid slot r s) :=
    hs.uses (denyTap_uses ..)
  unfold returnChecks
  repeat' split
  · exact hs.uses (((sendShow_uses ..).then (handOutcome_uses ..)).then (count_uses ..))
  · exact denied ..
  · exact denied ..
  · exact denied ..
  · exact denied ..
  · exact hs.uses ((sendShow_uses ..).then (handOutcome_uses ..))
  · exact denied ..
  · exact startCapture_lawful hs q _ _ hstation hrole h (by omega)

theorem takeReturnTap_lawful {s : State} (hs : Lawful s) (q : TapRecord) : Lawful (takeReturnTap q s) := by
  unfold takeReturnTap
  split
  · next hready =>
    repeat' split
    · next h => exact returnChecks_lawful hs q hready.1 hready.2 h
    · exact hs
    · exact hs.uses (denyCore_uses ..)
    · exact hs
  · exact hs

theorem handTap_lawful {s : State} (hs : Lawful s) (q : TapRecord) : Lawful (handTap q s) := by
  unfold handTap
  split
  · exact hs.uses (.of_lanes rfl rfl rfl)
  · exact takeReturnTap_lawful hs q
  · exact hs

/-! ### The reader lines -/

theorem modPort_uses (p : Fin 4) (f : Port → Port) (s : State) : Uses 0 s (s.modPort p f) := .of_lanes rfl rfl rfl

theorem lostChanged_uses (n : Fin 4) (lost : Bool) (s : State) : Uses 0 s (lostChanged n lost s) := by
  unfold lostChanged
  dsimp only
  repeat' split
  · exact ((handOutcome_uses ..).then (laneRecord_uses ..)).keep rfl rfl rfl
  · exact (laneRecord_uses ..).then (handOutcome_uses ..)
  · exact laneRecord_uses ..

theorem setCauses_uses (p : Fin 4) (silent rf : Bool) (s : State) : Uses 0 s (setCauses p silent rf s) := by
  unfold setCauses
  dsimp only
  repeat' split
  · exact modPort_uses ..
  · exact (modPort_uses ..).then (lostChanged_uses ..)
  · exact modPort_uses ..

theorem hearFrame_uses (p : Fin 4) (s : State) : Uses 0 s (hearFrame p s) := by
  unfold hearFrame
  split
  · exact (modPort_uses ..).then (setCauses_uses ..)
  · exact .refl s

theorem actTap_lawful {s : State} (hs : Lawful s) (p : Fin 4) (quality stamp : Nat) (uid : List Byte) :
    Lawful (actTap p quality stamp uid s) := by
  unfold actTap
  dsimp only
  repeat' split
  · exact hs
  · exact hs
  · exact hs
  · exact handTap_lawful hs _
  · exact hs.uses (modPort_uses ..)
  · exact handTap_lawful (hs.uses (modPort_uses ..)) _

theorem handleFrame_lawful {s : State} (hs : Lawful s) (p : Fin 4) (body : List Byte) : Lawful (handleFrame p body s) := by
  have heard := hs.uses (hearFrame_uses p s)
  unfold handleFrame
  split
  · exact hs
  · exact actTap_lawful heard ..
  · exact heard.uses (modPort_uses ..)
  · unfold actStatus
    split
    · exact heard.uses (setCauses_uses ..)
    · exact heard

theorem receiveByte_lawful {s : State} (hs : Lawful s) (p : Fin 4) (b : LineByte) : Lawful (receiveByte p b s) := by
  have parsed (f : Port → Port) : Lawful (s.modPort p f) := hs.uses (modPort_uses ..)
  unfold receiveByte
  repeat' split
  case h_4.isFalse.isTrue => exact handleFrame_lawful (parsed _) p _
  case h_1.isFalse => exact hs
  all_goals exact parsed _

theorem receiveLine_lawful (p : Fin 4) (line : List LineByte) {s : State} (hs : Lawful s) : Lawful (receiveLine p line s) := by
  induction line generalizing s with
  | nil => exact hs
  | cons b bs ih => exact ih (receiveByte_lawful hs p b)

/-! ### Passages and captures -/

theorem endPassage_lawful {s : State} (hs : Lawful s) {n : Fin 4} (h : (s.lane n).state.code = 5) (q : Passage) :
    Lawful (endPassage n q s) := by
  have hp : (s.posture n).1 = 5 := h
  have hready : standsIn s.station (2, (s.posture n).2) := standsIn_idle (hs.active (n := n) (by omega)) (by simp)
  have hfree : pledgeOf (s.posture n) = pledgeOf (2, (s.posture n).2) + 0 := by simp [pledgeOf, hp]
  unfold endPassage
  split
  · exact afterBusy_lawful (hs.turns (enter_turns s n (.ready none)) hfree hready) n
  · exact afterBusy_lawful (hs.turns (enterReady_turns n s) hfree hready) n

/-- A capture ends with its pledged record, and its lane returns to READY (R166, R167). -/
theorem captureEnded_lawful {s u : State} (hs : Lawful s) {n : Fin 4} (h : (s.lane n).state.code = 8) (hused : Uses 1 s u)
    {t : State} (turned : Turns n (2, (u.posture n).2) 0 u t) : Lawful t := by
  have hp : (s.posture n).1 = 8 := h
  refine hs.turns (hused.turn turned) ?_ (standsIn_idle (hs.active (n := n) (by omega)) (by simp))
  simp [pledgeOf, hp]

theorem confirmCapture_lawful {s : State} (hs : Lawful s) {n : Fin 4} (h : (s.lane n).state.code = 8) (c : Capture) :
    Lawful (confirmCapture n c s) := by
  have used := (((retire_uses c.slot s).then (appendPledged_uses (mkRecord (retire c.slot s) (some n) c.uid (some c.slot)
    (.refund true c.figures.unused c.figures.phi c.figures.refund)) _)).then (count_uses n .returned _)).then
    (setMarker_uses c.slot none _)
  exact afterBusy_lawful (captureEnded_lawful hs h used (enterReadyWith_turns n .returnDone _)) n

theorem creditAfterCapture_uses (n : Fin 4) (slot : Nat) (s : State) : Uses 0 s (creditAfterCapture n slot s) := by
  unfold creditAfterCapture
  dsimp only
  split
  · exact (putPass_uses ..).then (appendUnpledged_uses ..)
  · exact .refl s

theorem abortCapture_lawful {s : State} (hs : Lawful s) {n : Fin 4} (h : (s.lane n).state.code = 8) (c : Capture) :
    Lawful (abortCapture n c s) := by
  have used := (setMarker_uses c.slot none s).then (appendPledged_uses
    (mkRecord (setMarker c.slot none s) (some n) c.uid (some c.slot) .refundAbort) _)
  exact afterBusy_lawful ((captureEnded_lawful hs h used (enterReady_turns n _)).uses (creditAfterCapture_uses ..)) n

theorem resetSettle_posture (l : Lane) : (resetSettle l).posture = l.posture := by
  unfold resetSettle
  split
  · next h => simp [Lane.posture, h, LaneState.code]
  · rfl

theorem switchActivation_lawful (n : Fin 4) {s : State} (hs : Lawful s) : Lawful (switchActivation n s) := by
  unfold switchActivation
  split
  · next h => exact confirmCapture_lawful hs (by rw [h]; rfl) _
  · exact hs.uses (modLane_uses s n (resetSettle_posture _))

theorem forced_uses (n : Fin 4) (uid : List Byte) (slot : Option Nat) (s : State) : Uses 0 s (forced n uid slot s) := by
  have cleared := modLane_uses s n (f := fun l => { l with latestEntry := none }) rfl
  exact ((cleared.then (appendUnpledged_uses ..)).then (count_uses ..)).then (handOutcome_uses ..)

theorem commitPass_uses (slot : Nat) (s : State) : Uses 0 s (commitPass slot s).1 := by
  unfold commitPass
  dsimp only
  split
  · exact (putPass_uses ..).then (putPass_uses ..)
  · exact putPass_uses ..

/-- The commit of a granted passage uses the pledge of its grant (R97, R134). -/
theorem commitGrant_lawful {s : State} (hs : Lawful s) {n : Fin 4} {g : Grant} (h : (s.lane n).state = .granted g) :
    Lawful (commitGrant n g s) := by
  have hp := posture_of_state h
  have passes := modLane_turns s n fun l =>
    { l.enter (.passing ⟨g.slot, g.uid, s.now, g.exitBlocks⟩) with latestEntry := none }
  have lane : ({ (s.lane n).enter (.passing ⟨g.slot, g.uid, s.now, g.exitBlocks⟩) with latestEntry := none } : Lane).posture =
      (5, (s.lane n).config.role) := enter_posture ..
  rw [lane] at passes
  unfold commitGrant
  dsimp only
  refine hs.turns (((passes.then (commitPass_uses g.slot _)).then (appendPledged_uses ..)).then (count_uses ..))
    (by rw [hp]; rfl) (standsIn_idle (hs.active (n := n) (by simp [h, LaneState.code])) (by simp))

theorem pulse_lawful (n : Fin 4) {s : State} (hs : Lawful s) : Lawful (pulse n s) := by
  unfold pulse
  split
  case h_1 h => exact commitGrant_lawful hs h
  case h_2 =>
    have further := modLane_uses s n (f := fun l =>
      match l.config.drive with
      | .pulse w => { l with lockPulse := some (s.now + w) }
      | .level => l) (by split <;> rfl)
    exact hs.uses (further.then (count_uses ..))
  case h_4 w h =>
    have ends := modLane_uses s n (f := fun l => { l with state := .ready none }) (by simp [Lane.posture, h, LaneState.code])
    exact hs.uses (ends.then (forced_uses ..))
  case h_8 => exact hs
  case h_9 => exact hs
  all_goals exact hs.uses (forced_uses ..)

theorem entryBlock_uses (n : Fin 4) (s : State) : Uses 0 s (entryBlock n s) := by
  refine modLane_uses s n (Eq.trans ?_ (resetSettle_posture (s.lane n)))
  dsimp only
  split
  · next h => exact Prod.ext (congrArg LaneState.code h).symm rfl
  · rfl

theorem unpaidRecord_uses (n : Fin 4) (uid : List Byte) (slot : Option Nat) (cls : PassageClass) (dwell : Nat) (s : State) :
    Uses 0 s (unpaidRecord n uid slot cls dwell s) := appendUnpledged_uses _ s

theorem tailgate_uses (n : Fin 4) (uid : List Byte) (slot dwell : Nat) (s : State) : Uses 0 s (tailgate n uid slot dwell s) :=
  ((unpaidRecord_uses ..).then (count_uses ..)).then (handOutcome_uses ..)

theorem exitBlock_uses (n : Fin 4) (s : State) : Uses 0 s (exitBlock n s) := by
  have restates (st : LaneState) (h : st.code = (s.lane n).state.code) : Uses 0 s (s.modLane n fun l => { l with state := st }) :=
    modLane_uses s n (by simp [Lane.posture, h])
  unfold exitBlock duckUnder
  dsimp only
  repeat' split
  · exact modLane_uses s n (resetSettle_posture _)
  · next g h _ => exact (restates _ (by rw [h]; rfl)).then (tailgate_uses ..)
  · next g h _ => exact restates _ (by rw [h]; rfl)
  · next p h _ => exact (restates _ (by rw [h]; rfl)).then (tailgate_uses ..)
  · next p h _ => exact restates _ (by rw [h]; rfl)
  · next w h _ =>
    exact (((restates (.ready none) (by rw [h]; rfl)).then (unpaidRecord_uses ..)).then (count_uses ..)).then
      (handOutcome_uses ..)
  · exact .refl s
  · exact .refl s

/-- A lane in ARMING or READY enters FAULT (R95, R103). -/
theorem enterFault_lawful {s : State} (hs : Lawful s) {n : Fin 4} (h : (s.lane n).state.stuckRuns = true) (c : FaultCause) :
    Lawful (enterFault n c s) := by
  have hcode := (LaneState.stuckRuns_iff _).mp h
  have hp : (s.posture n).1 = 1 ∨ (s.posture n).1 = 2 := hcode
  have raised (u : State) : Uses 0 u (raise .laneFault u) := .of_lanes rfl rfl rfl
  refine hs.turns ((((enter_turns s n (.fault c)).then (laneRecord_uses ..)).then (raised _)).then (handOutcome_uses ..)) ?_
    (standsIn_idle (hs.active (n := n) (by omega)) (by simp [LaneState.code]))
  obtain hp | hp := hp <;> simp [pledgeOf, hp, LaneState.code]

end Sys2Proof.Machine
end

section
/-! PROOFS. The laws of the Journal Writer and of the lanes through time, resets, RUN and QUIET, and over every command
(R69, R103, R111, R206 to R212). -/

namespace Sys2Proof.Machine

/-! ### Windows and time -/

theorem closeAtEnd_uses (n : Fin 4) (s : State) : Uses 0 s (closeAtEnd n s) := by
  unfold closeAtEnd
  repeat' split
  · exact (closeWindow_uses ..).then (openWindow_uses ..)
  · exact .refl s
  · exact .refl s

theorem closeAtRollover_uses (cut : Bool) (endMs : Nat) (n : Fin 4) (s : State) :
    Uses 0 s (closeAtRollover cut endMs n s) := by
  unfold closeAtRollover
  split
  · exact (closeWindow_uses ..).then (openWindow_uses ..)
  · exact .refl s

theorem stepWindow_uses (endMs : Nat) (n : Fin 4) (s : State) : Uses 0 s (stepWindow endMs n s) := by
  unfold stepWindow
  split
  · exact (closeWindow_uses ..).then (openWindow_uses ..)
  · exact .refl s

theorem replaceWindow_uses (n : Fin 4) (s : State) : Uses 0 s (replaceWindow n s) := by
  unfold replaceWindow
  split
  · exact openWindow_uses ..
  · exact .refl s

theorem handStep_uses (day ms : Nat) (s : State) : Uses 0 s (handStep day ms s) := by
  unfold handStep
  repeat' split
  · exact .refl s
  · exact Uses.eachLane (stepWindow_uses ms) s
  · exact .refl s
  · exact Uses.eachLane replaceWindow_uses s

theorem writeTimeMirror_uses (s : State) : Uses 0 s (writeTimeMirror s) := .of_lanes rfl rfl rfl

theorem raise_uses (c : Cause) (s : State) : Uses 0 s (raise c s) := .of_lanes rfl rfl rfl

theorem rollTo_uses (day : Nat) (cut : Bool) (s : State) : Uses 0 s (rollTo day cut s) := by
  have staged : Uses 0 s (applyStaging { s with day := day, ms := 0 }) := .of_lanes rfl rfl rfl
  have cleared (u : State) : Uses 0 u { u with mem := clearClosures u.mem } := .of_lanes rfl rfl rfl
  have closed (e : Nat) (u : State) : Uses 0 u (eachLane (closeAtRollover cut e) u) :=
    Uses.eachLane (closeAtRollover_uses cut e) u
  unfold rollTo
  exact (((((staged.then (cleared _)).then (cutSweepShort_uses _)).then (closed ..)).then (writeTimeMirror_uses _)).then
    (raise_uses ..)).then (stationRecord_uses ..)

theorem backTo_uses (day ms : Nat) (s : State) : Uses 0 s (backTo day ms s) := by
  have cleared : Uses 0 s { s with day := day, ms := ms, mem := clearClosures s.mem } := .of_lanes rfl rfl rfl
  exact cleared.then (cutSweepShort_uses _)

theorem moveTime_uses (day ms : Nat) (s : State) : Uses 0 s (moveTime day ms s) := by
  unfold moveTime
  repeat' split
  · exact .of_lanes rfl rfl rfl
  · have rolled := rollTo_uses day true s
    exact rolled.keep rfl rfl rfl
  · exact backTo_uses ..

theorem setTime_uses (k : Fin 32) (s : State) : Uses 0 s (setTime k s) := by
  have accepted (day ms : Nat) : Uses 0 s (acceptTime k day ms s) := by
    have known (u : State) : Uses 0 u { u with timeSet := true } := .of_lanes rfl rfl rfl
    unfold acceptTime
    dsimp only
    exact (((((moveTime_uses day ms s).then (writeTimeMirror_uses _)).then (stationRecord_uses ..)).then (known _)).then
      (handStep_uses ..)).then (endOrder_uses ..)
  unfold setTime
  dsimp only
  repeat' split
  · exact endOrder_uses ..
  · exact endOrder_uses ..
  · exact accepted ..

theorem addMs_uses (s : State) : Uses 0 s (addMs s) := by
  have counted : Uses 0 s { s with ms := s.ms + 1 } := .of_lanes rfl rfl rfl
  unfold addMs
  dsimp only
  split
  · exact counted.then (writeTimeMirror_uses _)
  · exact counted

theorem tickState_code (l : Lane) : (tickState l).code = l.state.code := by
  rw [tickState_eq]
  cases h : l.state <;> rfl

theorem tickLane_posture (divider : Nat) (carrier : Carrier) (sense : BitVec 16) (l : Lane) :
    (tickLane divider carrier sense l).posture = l.posture := Prod.ext (tickState_code l) rfl

theorem tickBegun_uses (sense : BitVec 16) (s : State) : Uses 0 s (tickBegun sense s) := by
  refine .of_eq (funext fun n => ?_) rfl rfl
  rw [State.posture, tickBegun_lane, tickLane_posture, State.posture]

theorem tickTime_uses (s : State) : Uses 0 s (tickTime s) := by
  unfold tickTime
  repeat' split
  · exact .refl s
  · exact addMs_uses s
  · exact .of_lanes rfl rfl rfl
  · exact .refl s

theorem tickSweep_uses (s : State) : Uses 0 s (tickSweep s) := by
  unfold tickSweep
  repeat' split
  · exact .refl s
  · exact .of_lanes rfl rfl rfl
  · exact .of_lanes rfl rfl rfl

theorem tickPresence_uses (s : State) : Uses 0 s (tickPresence s) := by
  unfold tickPresence
  repeat' split
  · exact .refl s
  · exact .of_lanes rfl rfl rfl
  · exact .of_lanes rfl rfl rfl

/-! ### Presence and the sweep -/

theorem markOffline_uses (n : Fin 4) (s : State) : Uses 0 s (markOffline n s) := modLane_uses s n rfl

theorem samplePresence_uses (s : State) : Uses 0 s (samplePresence s) := by
  have noted (due : Bool) (v c : Nat) : Uses 0 s { s with presenceDue := due, presenceValue := v, presenceCount := c } :=
    .of_lanes rfl rfl rfl
  have offline (u : State) : Uses 0 u (goOffline u) := by
    have left : Uses 0 u { u with online := false } := .of_lanes rfl rfl rfl
    exact ((left.then (raise_uses .presence _)).then (stationRecord_uses .offline false 0 0 _)).then
      (Uses.eachLane markOffline_uses _)
  have online (u : State) : Uses 0 u (goOnline u) := by
    have came : Uses 0 u { u with online := true } := .of_lanes rfl rfl rfl
    exact (came.then (raise_uses .presence _)).then (stationRecord_uses ..)
  unfold samplePresence
  dsimp only
  repeat' split
  · exact (noted ..).then (offline _)
  · exact noted ..
  · exact noted ..
  · exact (noted ..).then (online _)

theorem sweepVisit_uses (s : State) : Uses 0 s (sweepVisit s) := by
  unfold sweepVisit
  repeat' split
  · exact .refl s
  · exact .of_lanes rfl rfl rfl
  · exact .of_lanes rfl rfl rfl
  · exact .refl s

/-! ### STARTING and the host's writes -/

theorem scanTo_uses (visit : Nat) (s : State) : Uses 0 s (scanTo visit s) := by
  have marked := Uses.foldl (fun t slot => setMarker_uses slot none t) (liveSlots s.mem s.startPos (min visit passSlots)) s
  have orders (t : State) (k : Fin 32) : Uses 0 t (resetOrder s.startPos visit t k) := by
    unfold resetOrder
    split
    · exact endOrder_uses ..
    · exact .refl t
  exact (marked.then (Uses.foldl orders (List.finRange 32) _)).keep rfl rfl rfl

theorem advanceStart_uses (s : State) : Uses 0 s (advanceStart s) := by
  unfold advanceStart fillTo
  split
  · exact .of_lanes rfl rfl rfl
  · exact (scanTo_uses _ s).keep rfl rfl rfl
  · exact .refl s

/-- A read index that is taken leaves no more records in the ring than it found. -/
theorem readIndexTaken_shrinks {j : Journal} {v : Nat} (hw : j.writeIndex < 1024) (hr : j.readIndex < 1024)
    (h : readIndexTaken j v = true) : v < 1024 ∧ ({ j with readIndex := v } : Journal).fill ≤ j.fill := by
  unfold readIndexTaken Journal.fill at *
  simp only [Bool.and_eq_true, decide_eq_true_eq] at h
  dsimp only
  omega

theorem offerReadIndex_uses (v : Nat) (s : State) : Uses 0 s (offerReadIndex v s) := by
  unfold offerReadIndex
  split
  · next h =>
    refine ⟨station_of_rest (drainHeld_rest ..), posture_of_lanes (drainHeld_lanes ..), fun hs _ => ?_⟩
    obtain ⟨hw, hr, _, hroom⟩ := hs
    obtain ⟨hv, hfill⟩ := readIndexTaken_shrinks hw hr h
    exact drainHeld_sound s.journal.hold (s := { s with journal := { s.journal with readIndex := v } }) rfl hw hv
      (by dsimp only; omega)
  · exact .refl s

theorem hostWrite_uses (a : Nat) (v : Word) (s : State) : Uses 0 s (hostWrite a v s) := by
  have written := (advanceStart_uses s).then (poke_uses _ a 2 v.toNat)
  unfold hostWrite
  dsimp only
  split
  · exact written.then (offerReadIndex_uses ..)
  · exact written

/-! ### Resets and the end of STARTING -/

theorem reset_posture (n : Fin 4) : (State.reset.posture n).1 = 0 := by
  fin_cases n <;> rfl

theorem powerOn_lawful (s : State) : Lawful (powerOn s) := by
  have sound : State.reset.journal.sound := ⟨by decide, by decide, .inl rfl, by decide⟩
  refine lawful_of_down sound rfl fun n => ?_
  exact (congrArg Prod.fst (congrFun (posture_of_lanes (s := State.reset) (t := powerOn s) rfl) n)).trans (reset_posture n)

theorem reloadInputs_uses (s : State) : Uses 0 s (reloadInputs s) := by
  unfold reloadInputs
  split
  · exact mapInputs_uses _ s.mem s
  · exact .of_lanes rfl rfl rfl

theorem pinReset_lawful {s : State} (hs : Lawful s) : Lawful (pinReset s) := by
  have sound : (journalAtPinReset s).sound := by
    have hfill := (journalAtPinReset s).fill_le
    refine ⟨hs.1.1.1, Nat.mod_lt _ (by omega), .inl rfl, ?_⟩
    change 0 + (journalAtPinReset s).fill + 0 ≤ 1031
    omega
  unfold pinReset
  generalize ht : ({ State.reset with
    mem := s.mem, evacuatePin := s.evacuatePin, pending := s.pending, freeCount := s.freeCount
    startPhase := .scan, journal := journalAtPinReset s } : State) = t
  have down : Lawful t := by
    subst ht
    refine lawful_of_down sound rfl fun n => ?_
    exact (congrArg Prod.fst (congrFun (posture_of_lanes (s := State.reset) rfl) n)).trans (reset_posture n)
  exact down.uses (reloadInputs_uses t)

theorem writeLaneBlocks_uses (s : State) : Uses 0 s (writeLaneBlocks s) :=
  Uses.of_lanes (writeLaneBlocks_lanes s) (station_of_rest (writeLaneBlocks_rest s)) (writeLaneBlocks_journal s)

theorem finishFill_uses (straps : BitVec 6) (s : State) : Uses 0 s (finishFill straps s) := by
  have filled (m : Memory) (p lift : Nat) : Uses 0 s { s with mem := m, startPos := p, liftNumber := lift } :=
    .of_lanes rfl rfl rfl
  unfold finishFill noFlowIndices writeHeader zeroMirrors fillTo
  dsimp only
  exact (filled _ _ _).then (writeLaneBlocks_uses _)

theorem takeFlowPosition_uses (n : Fin 4) (s : State) : Uses 0 s (takeFlowPosition n s) := by
  unfold takeFlowPosition
  dsimp only
  repeat' split
  · exact modLane_uses s n rfl
  · exact .refl s
  · exact poke_uses ..

theorem takeMirrorTime_uses (s : State) : Uses 0 s (takeMirrorTime s) := by
  unfold takeMirrorTime
  split <;> exact .of_lanes rfl rfl rfl

theorem finishScan_uses (straps : BitVec 6) (s : State) : Uses 0 s (finishScan straps s) := by
  have headed (u : State) (lift : Nat) (m : Memory) : Uses 0 u { u with liftNumber := lift, mem := m } :=
    .of_lanes rfl rfl rfl
  unfold finishScan writeHeader
  dsimp only
  exact ((((scanTo_uses scanVisits s).then (headed _ _ _)).then (takeMirrorTime_uses _)).then
    (Uses.eachLane takeFlowPosition_uses _)).then (writeLaneBlocks_uses _)

/-- A station that was STARTING comes to QUIET, all its lanes DOWN, and then to EVACUATE where its pin is high (R199). -/
theorem enterQuiet_lawful {s : State} (hs : Lawful s) (hstarting : s.station = .starting) : Lawful (enterQuiet s) := by
  have hdown (n : Fin 4) : (s.posture n).1 = 0 := (hs.2 n).1 (.inl hstarting)
  have hpledges : s.journal.pledges = 0 := hs.1.2.trans (pledgesOf_down hdown)
  have quiet : Lawful { s with station := .quiet, sweepTimer := 0, startPos := 0 } := lawful_of_down hs.1.1 hpledges hdown
  unfold enterQuiet
  dsimp only
  split
  · exact assertEvacuate_lawful (quiet.uses (.of_lanes rfl rfl rfl))
  · exact quiet

/-! ### RUN and QUIET -/

/-- A RUNNING station that holds no pledge. -/
def RunsIdle (s : State) : Prop := Lawful s ∧ s.station = .running ∧ ∀ n, pledgeOf (s.posture n) = 0

theorem RunsIdle.uses {s t : State} (hs : RunsIdle s) (h : Uses 0 s t) : RunsIdle t :=
  ⟨hs.1.uses h, h.station.trans hs.2.1, fun n => by rw [h.posture]; exact hs.2.2 n⟩

theorem RunsIdle.turns {s t : State} (hs : RunsIdle s) {n : Fin 4} {x : Nat × LaneRole} (h : Turns n x 0 s t)
    (hx : x.1 ≠ 3 ∧ x.1 ≠ 4 ∧ x.1 ≠ 8) : RunsIdle t := by
  obtain ⟨hlawful, hstation, hidle⟩ := hs
  have hfree : pledgeOf x = 0 := by simp [pledgeOf, hx.2.1, hx.2.2]
  refine ⟨hlawful.turns h (by rw [hidle, hfree]) (standsIn_idle (by simp [hstation]) hx), h.station.trans hstation, fun m => ?_⟩
  rw [h.posture, Function.update_apply]
  split
  · exact hfree
  · exact hidle m

theorem startLane_idle (n : Fin 4) {s : State} (hs : RunsIdle s) : RunsIdle (startLane n s) := by
  have arms : RunsIdle (s.modLane n (·.enterArming)) :=
    hs.turns (modLane_turns s n (·.enterArming)) (by simp [Lane.posture, Lane.enterArming, LaneState.code])
  unfold startLane
  split
  · exact hs
  · split
    · exact (hs.turns (enter_turns s n .free) (by simp [LaneState.code])).uses (handOutcome_uses ..)
    · exact arms
  · exact arms

theorem startRunning_lawful {s : State} (hs : Lawful s) (hquiet : s.station = .quiet) : Lawful (startRunning s) := by
  have hdown (n : Fin 4) : (s.posture n).1 = 0 := (hs.2 n).1 (.inr hquiet)
  have hpledges : s.journal.pledges = 0 := hs.1.2.trans (pledgesOf_down hdown)
  have windows (u : State) : Uses 0 u (startWindows u) := Uses.eachLane (fun n t => openWindow_uses ..) u
  have lanes (l : List (Fin 4)) {u : State} (hu : RunsIdle u) : RunsIdle (l.foldl (fun t n => startLane n t) u) := by
    induction l generalizing u with
    | nil => exact hu
    | cons n l ih => exact ih (startLane_idle n hu)
  have served (b u : State) : Uses 0 u (changeService b u) := .of_lanes rfl rfl rfl
  unfold startRunning
  dsimp only
  generalize ht : ({ startPresence (takeOptions s) with
    timeUnsetRefused := false, sweepTimer := 0, station := .running } : State) = t
  have begun : RunsIdle t := by
    subst ht
    exact ⟨lawful_of_down hs.1.1 hpledges hdown, rfl, fun n => by
      change pledgeOf (s.posture n) = 0
      simp [pledgeOf, hdown n]⟩
  have ran := (lanes allFour (begun.uses (windows t))).1
  exact (ran.uses (served ..)).uses (stationRecord_uses ..)

theorem requestRun_lawful {s : State} (hs : Lawful s) : Lawful (requestRun s) := by
  unfold requestRun
  split
  · next h =>
    split
    · exact startRunning_lawful hs h
    · exact hs.uses (.of_lanes rfl rfl rfl)
  · exact hs

/-- A lane that stands in QUIETING once it is wound down, its pledge used (R111). -/
theorem windDown_turns (n : Fin 4) (s : State) :
    ∃ x k, Turns n x k s (windDown n s) ∧ pledgeOf (s.posture n) = pledgeOf x + k ∧ x.1 ≠ 3 ∧ x.1 ≠ 4
      ∧ (x.1 = 8 → x = s.posture n) := by
  unfold windDown
  split
  · next g h =>
    exact ⟨_, _, voidToReady_turns n g .laneChange s, by rw [posture_of_state h]; rfl, by simp, by simp, by simp⟩
  · next r h =>
    exact ⟨_, _, denyReferralToReady_turns n r none .laneChange .laneChange s, by rw [posture_of_state h]; rfl, by simp,
      by simp, by simp⟩
  · next hg hr =>
    refine ⟨s.posture n, 0, ⟨rfl, (Function.update_eq_self ..).symm, fun h _ => ⟨h, rfl⟩⟩, rfl, ?_, ?_, fun _ => rfl⟩
    · intro h
      change (s.lane n).state.code = 3 at h
      cases hst : (s.lane n).state with
      | referred r => exact hr r hst
      | _ => rw [hst] at h; cases h
    · intro h
      change (s.lane n).state.code = 4 at h
      cases hst : (s.lane n).state with
      | granted g => exact hg g hst
      | _ => rw [hst] at h; cases h

/-- The winding down of a QUIETING station's lanes: the laws hold, but for the lanes still to be wound down. -/
def WindsDown (l : List (Fin 4)) (s : State) : Prop :=
  Balanced s ∧ s.station = .quieting ∧ (∀ n, (s.posture n).1 = 8 → (s.posture n).2 = .ret)
    ∧ ∀ n, n ∉ l → (s.posture n).1 ≠ 3 ∧ (s.posture n).1 ≠ 4

theorem WindsDown.step {n : Fin 4} {l : List (Fin 4)} {s : State} (h : WindsDown (n :: l) s) : WindsDown l (windDown n s) := by
  obtain ⟨hbalanced, hstation, hret, hdone⟩ := h
  obtain ⟨x, k, turned, hused, h3, h4, h8⟩ := windDown_turns n s
  have hposture (m : Fin 4) : (windDown n s).posture m = if m = n then x else s.posture m := by
    rw [turned.posture, Function.update_apply]
  refine ⟨hbalanced.turns turned hused, turned.station.trans hstation, fun m => ?_, fun m hm => ?_⟩ <;> rw [hposture]
  · split
    · intro hx
      have hsame := h8 hx
      rw [hsame] at hx ⊢
      exact hret n hx
    · exact hret m
  · split
    · exact ⟨h3, h4⟩
    · next hne => exact hdone m (by simp [hne, hm])

theorem WindsDown.foldl {l : List (Fin 4)} {s : State} (h : WindsDown l s) :
    WindsDown [] (l.foldl (fun t n => windDown n t) s) := by
  induction l generalizing s with
  | nil => exact h
  | cons n l ih => exact ih h.step

theorem requestQuiet_lawful {s : State} (hs : Lawful s) : Lawful (requestQuiet s) := by
  unfold requestQuiet
  split
  · next hrunning =>
    have begins : WindsDown allFour { s with station := .quieting, tapQueue := [], presenceTimer := 0, presenceDue := false } :=
      ⟨hs.1, rfl, fun n h => (hs.2 n).2.2 h, fun n h => absurd (mem_allFour n) h⟩
    obtain ⟨hbalanced, hstation, hret, hdone⟩ := begins.foldl
    refine quietIfIdle_lawful ⟨hbalanced, fun n => ?_⟩
    change standsIn (allFour.foldl (fun t n => windDown n t) _).station _
    rw [hstation]
    obtain ⟨h3, h4⟩ := hdone n (by simp)
    exact ⟨by simp, fun h => (h.elim h3 h4).elim, hret n⟩
  · exact hs

/-! ### Commands -/

/-- Whatever a command answers next, the laws of the Journal Writer and of the lanes are kept. -/
def KeepsLawful (s : State) (o : Host.Outcome State Fault Refusal) : Prop := ∀ t, o = .next t → Lawful s → Lawful t

theorem KeepsLawful.next {s t : State} (h : Lawful s → Lawful t) : KeepsLawful s (.next t) := by
  intro u hu
  cases hu
  exact h

theorem Uses.answers {s t : State} (h : Uses 0 s t) : KeepsLawful s (.next t) := .next fun hs => hs.uses h

theorem KeepsLawful.event {s t : State} (h : Lawful s → Lawful t) : KeepsLawful s (event s t) :=
  .next fun hs => (h hs).uses (settleOutputs_uses s t)

theorem KeepsLawful.ite {c : Prop} [Decidable c] {s t : State} (h : c → Lawful s → Lawful t) :
    KeepsLawful s (if c then Machine.event s t else .next s) := by
  split
  · next hc => exact .event (h hc)
  · exact .next id

theorem visit_keepsLawful (k : Fin 32) (isRow : State → Bool) {body : State → State} (hb : ∀ u, Lawful u → Lawful (body u))
    (s : State) : KeepsLawful s (visit k isRow body s) := by
  have taken : Uses 0 s (takeSlot k s) := .of_lanes rfl rfl rfl
  exact .ite fun _ hs => hb _ (hs.uses taken)

theorem visit_uses (k : Fin 32) (isRow : State → Bool) {body : State → State} (hb : ∀ u, Uses 0 u (body u)) (s : State) :
    KeepsLawful s (visit k isRow body s) := visit_keepsLawful k isRow (fun u hu => hu.uses (hb u)) s

theorem deliver_keepsLawful (p : Fin 4) (line : List LineByte) (s : State) : KeepsLawful s (deliver p line s) := by
  unfold deliver
  split
  · exact .next id
  · exact .event fun hs => receiveLine_lawful p line hs

/-- An edge taken: the input flips, and a lane that acts on it goes on. -/
theorem edge_lawful {n : Fin 4} {c : Prop} [Decidable c] {f : Lane → Lane} {g : State → State} {s : State} (hs : Lawful s)
    (hg : c → ∀ u, Lawful u → (u.lane n).state = (s.lane n).state → Lawful (g u))
    (hf : ∀ l, (f l).posture = l.posture ∧ (f l).state = l.state) :
    Lawful (if c then g (s.modLane n f) else s.modLane n f) := by
  have flips : Lawful (s.modLane n f) := hs.uses (modLane_uses s n (hf _).1)
  split
  · next hc => exact hg hc _ flips (by rw [lane_modLane_same]; exact (hf _).2)
  · exact flips

theorem execRollover_keepsLawful (s : State) : KeepsLawful s (execRollover s) := by
  have taken : Uses 0 s { s with dayEnd := false } := .of_lanes rfl rfl rfl
  unfold execRollover
  dsimp only
  repeat' split
  · exact .event fun hs => (hs.uses taken).uses (addMs_uses _)
  · exact .event fun hs => (hs.uses taken).uses (rollTo_uses ..)
  · exact taken.answers
  · exact .next id

theorem execTapTake_keepsLawful (s : State) : KeepsLawful s (execTapTake s) := by
  unfold execTapTake
  split
  · exact .next id
  · next q rest _ =>
    have taken : Uses 0 s { s with tapQueue := rest } := .of_lanes rfl rfl rfl
    dsimp only
    split
    · next h => exact .event fun hs => handleTap_lawful (hs.uses taken) q h.1 h.2
    · exact taken.answers

theorem execExitBeamClear_keepsLawful (n : Fin 4) (s : State) : KeepsLawful s (execExitBeamClear n s) := by
  unfold execExitBeamClear
  dsimp only
  split
  · split
    · next p h =>
      exact .event fun hs => edge_lawful hs
        (fun _ u hu hstate => endPassage_lawful hu (by rw [hstate, h]; rfl) p) fun l => ⟨rfl, rfl⟩
    · exact .event fun hs => hs.uses (modLane_uses s n rfl)
  · exact .next id

theorem execEvacuate_keepsLawful (s : State) : KeepsLawful s (execEvacuate s) := by
  have sampled (b : Bool) : Uses 0 s { s with evacuate := b, evacuatePin := true } := .of_lanes rfl rfl rfl
  unfold execEvacuate
  dsimp only
  repeat' split
  · exact (sampled s.evacuate).answers
  · exact .event fun hs => hs.uses (sampled true)
  · exact .event fun hs => assertEvacuate_lawful (hs.uses (sampled true))

theorem execRegisterWrite_keepsLawful (rs : Bool) (address : BitVec 17) (v : Word) (s : State) :
    KeepsLawful s (execRegisterWrite rs address v s) := by
  unfold execRegisterWrite writeRegister
  repeat' split
  · exact .event id
  · exact .event fun hs => hs.uses (t := clearAttn v s) (.of_lanes rfl rfl rfl)
  · exact .event fun hs => hs.uses (t := writeAttnMask v s) (.of_lanes rfl rfl rfl)
  · exact .event requestRun_lawful
  · exact .event requestQuiet_lawful
  · exact .event id
  · exact (hostWrite_uses _ v s).answers

theorem execDuckWatchClose_keepsLawful (n : Fin 4) (s : State) : KeepsLawful s (execDuckWatchClose n s) := by
  unfold execDuckWatchClose
  split
  · next w h =>
    split
    · exact (modLane_uses s n (by simp [Lane.posture, h, LaneState.code])).answers
    · exact .next id
  · exact .next id

theorem execSettle_keepsLawful (n : Fin 4) (s : State) : KeepsLawful s (execSettle n s) := by
  unfold execSettle
  split
  · next t h =>
    refine .ite fun _ hs => hs.turns (enterReady_turns n s) (by rw [posture_of_state h]; rfl)
      (standsIn_idle (hs.active (n := n) (by simp [h, LaneState.code])) (by simp))
  · exact .next id

theorem exec_keepsLawful (c : Instr) (s : State) : KeepsLawful s (exec c s) := by
  have stays : KeepsLawful s (.next s) := .next id
  cases c with
  | powerOnReset => exact .next fun _ => powerOn_lawful s
  | pinReset =>
    simp only [exec, execPinReset]
    split
    · exact .next fun _ => powerOn_lawful s
    · exact .event pinReset_lawful
  | fillDone straps =>
    simp only [exec, execFillDone]
    exact .ite fun h hs => enterQuiet_lawful (hs.uses (finishFill_uses straps s)) ((finishFill_uses straps s).station.trans h.1)
  | restartScanDone straps =>
    simp only [exec, execRestartScanDone]
    exact .ite fun h hs => enterQuiet_lawful (hs.uses (finishScan_uses straps s)) ((finishScan_uses straps s).station.trans h.1)
  | tick sense =>
    exact Uses.answers ((((tickBegun_uses sense s).then (tickTime_uses _)).then (tickSweep_uses _)).then
      (tickPresence_uses _))
  | rollover => exact execRollover_keepsLawful s
  | setTime k => exact visit_uses k _ (setTime_uses k) s
  | runRequest => exact .event requestRun_lawful
  | registerWrite rs address v => exact execRegisterWrite_keepsLawful rs address v s
  | windowEnd => exact .event fun hs => hs.uses (Uses.eachLane closeAtEnd_uses s)
  | tap p q stamp uid => exact deliver_keepsLawful p (soundLine (frameBytes (tapBody q stamp uid))) s
  | gone p uid => exact deliver_keepsLawful p (soundLine (frameBytes (goneBody uid))) s
  | status p code => exact deliver_keepsLawful p (soundLine (frameBytes [0x03, code])) s
  | badFrame p line => exact deliver_keepsLawful p line s
  | malformedFrame p body => exact deliver_keepsLawful p (soundLine (frameBytes body)) s
  | frameDroppedForLength p length => exact deliver_keepsLawful p (soundLine [0xA5, length]) s
  | gapTimeout p =>
    simp only [exec, execGapTimeout]
    split
    · exact (modPort_uses ..).answers
    · exact stays
  | silent p => exact .ite fun _ hs => hs.uses (setCauses_uses ..)
  | showEnd p => exact (modPort_uses ..).answers
  | tapTake => exact execTapTake_keepsLawful s
  | grantWindow n =>
    simp only [exec, execGrantWindow]
    split
    · next h => exact .ite fun _ hs => voidToReady_lawful hs h _
    · exact stays
  | holdLimit n =>
    simp only [exec, execHoldLimit]
    split
    · next h => exact .ite fun _ hs => voidToReady_lawful hs h _
    · exact stays
  | referralTimeout n =>
    simp only [exec, execReferralTimeout]
    split
    · next h => exact .ite fun _ hs => denyReferralToReady_lawful hs h ..
    · exact stays
  | sweep => exact (sweepVisit_uses s).answers
  | insertPass k => exact visit_keepsLawful k _ (fun _ => insertPass_lawful k) s
  | amendPass k => exact visit_uses k _ (amendPass_uses k) s
  | removePass k => exact visit_uses k _ (removePass_uses k) s
  | readPass k => exact visit_uses k _ (copyPass_uses k) s
  | declineReferral k => exact visit_keepsLawful k _ (fun _ => declineReferral_lawful k) s
  | settlePassQuote k =>
    simp only [exec, execSettlePassQuote]
    exact visit_uses k _ (settleQuote_uses k) s
  | settlePassFinal k =>
    simp only [exec, execSettlePassFinal]
    exact visit_keepsLawful k _ (fun _ => settleFinal_lawful k) s
  | stageProduct k => exact visit_uses k _ (stageProduct_uses k) s
  | withdrawalScan =>
    simp only [exec, execWithdrawalScan]
    split
    · exact .ite fun _ hs => hs.uses (scanStep_uses ..)
    · exact stays
  | postClosure k => exact visit_uses k _ (postClosure_uses k) s
  | creditSweep =>
    simp only [exec, execCreditSweep]
    split
    · exact .ite fun _ hs => hs.uses (sweepStep_uses ..)
    · exact stays
  | setLane k => exact visit_keepsLawful k _ (fun _ => setLaneOrder_lawful k) s
  | mapInputs k => exact visit_uses k _ (mapInputsOrder_uses k) s
  | freeFlowOn k =>
    simp only [exec, execFreeFlowOn]
    exact visit_keepsLawful k _ (fun _ => freeFlowOn_lawful k) s
  | freeFlowOff k =>
    simp only [exec, execFreeFlowOff]
    exact visit_keepsLawful k _ (fun _ => freeFlowOff_lawful k) s
  | unknownKind k => exact visit_uses k _ (endOrder_uses k .unknownKind) s
  | quietRequest => exact .event requestQuiet_lawful
  | attnClear | attnMaskWrite => exact .next fun hs => hs.uses (.of_lanes rfl rfl rfl)
  | presenceSample => exact .ite fun _ hs => hs.uses (samplePresence_uses s)
  | journalReadIndex v => exact (hostWrite_uses _ v s).answers
  | indexPulse n =>
    exact .ite fun _ hs => edge_lawful hs (fun _ _ hu _ => pulse_lawful n hu) fun _ => ⟨rfl, rfl⟩
  | entryBeamBlock n =>
    exact .ite fun _ hs => edge_lawful hs (fun _ u hu _ => hu.uses (entryBlock_uses n u)) fun _ => ⟨rfl, rfl⟩
  | entryBeamClear n => exact .ite fun _ hs => hs.uses (modLane_uses s n rfl)
  | exitBeamBlock n =>
    exact .ite fun _ hs => edge_lawful hs (fun _ u hu _ => hu.uses (exitBlock_uses n u)) fun _ => ⟨rfl, rfl⟩
  | exitBeamClear n => exact execExitBeamClear_keepsLawful n s
  | passingEnd n =>
    simp only [exec, execPassingEnd]
    split
    · next h => exact .ite fun _ hs => endPassage_lawful hs (by rw [h]; rfl) _
    · exact stays
  | settle n => exact execSettle_keepsLawful n s
  | beamStuck n exit => exact .ite fun h hs => enterFault_lawful hs h.2.1 _
  | switchStuck n => exact .ite fun h hs => enterFault_lawful hs h.2.1 _
  | duckWatchClose n => exact execDuckWatchClose_keepsLawful n s
  | captureSwitchActivation n =>
    exact .ite fun _ hs => edge_lawful hs (fun _ _ hu _ => switchActivation_lawful n hu) fun _ => ⟨rfl, rfl⟩
  | captureSwitchRelease n => exact .ite fun _ hs => hs.uses (modLane_uses s n rfl)
  | captureTimeout n =>
    simp only [exec, execCaptureTimeout]
    split
    · next h => exact .ite fun _ hs => abortCapture_lawful hs (by rw [h]; rfl) _
    · exact stays
  | evacuate => exact execEvacuate_keepsLawful s
  | evacuateLow => exact .event fun hs => hs.uses (.of_lanes rfl rfl rfl)
  | lockPulseEnd n =>
    simp only [exec, execLockPulseEnd]
    repeat' split
    · exact (modLane_uses s n rfl).answers
    · exact stays
    · exact stays
  | cueEntry n =>
    simp only [exec, execCueEntry]
    split
    · exact .ite fun _ hs => hs.uses (modLane_uses s n rfl)
    · exact stays

/-- Settles O57: every command turns one lane at a time and moves the pledges with the lanes that hold them. -/
theorem stepKeepsJournalLaw : Obligations.StepKeepsJournalLaw := by
  intro s t hjournal hlanes h
  have hs : Lawful s := (lawful_iff s).mp ⟨hjournal, hlanes⟩
  refine (lawful_iff t).mpr ?_
  unfold step at h
  split at h
  · cases h
    exact hs
  · next c rest _ => exact exec_keepsLawful c { s with pending := rest } t h (hs.uses (.of_lanes rfl rfl rfl))

end Sys2Proof.Machine
end

section
/-! PROOFS. Events that change one lane: what stands once their outputs settle, and the grants, denials and voids they are
made of (R65, R68, R73, R79). -/

namespace Sys2Proof.Machine

/-! ### An event of one lane -/

/-- A state that an event of lane `n` reached from `s` before its outputs settle: beside memory, attention, lanes, ports and
the Journal Writer it is `s'`, which shows what `s` shows; memory changed at `Q` alone, attention was raised by `b`. -/
structure LaneEvent (s s' v : State) (n : Fin 4) (Q : Nat → Prop) (b : BitVec 8) : Prop where
  evacuate : s'.evacuate = s.evacuate
  shows : stateMirror s' = stateMirror s
  rest : v.rest = s'.rest
  wf : v.mem.wf
  attn : attnRaised s v b
  bytes : ∀ a, ¬Q a → v.mem.byteAt a = s.mem.byteAt a
  other : keepsOtherLanes s v n
  ports : ∀ p, portBytes (v.port p) = portBytes (s.port p)

section
variable {s s' v : State} {n : Fin 4} {Q : Nat → Prop} {b : BitVec 8} (L : LaneEvent s s' v n Q b)
include L

theorem LaneEvent.mirror : stateMirror s = stateMirror v := L.shows.symm.trans (stateMirror_of_rest L.rest).symm

theorem LaneEvent.eq : settleOutputs s v = { s' with
    mem := (settleOutputs s v).mem, attn := v.attn, lanes := (settleOutputs s v).lanes, ports := v.ports
    journal := v.journal } := by
  have h := eq_of_rest ((settleOutputs_rest s v).trans L.rest)
  rwa [settleOutputs_attn, settleOutputs_ports, settleOutputs_journal] at h

theorem LaneEvent.raised : attnRaised s (settleOutputs s v) b := by
  rw [attnRaised, settleOutputs_attn]
  exact L.attn

theorem LaneEvent.keepsOthers : keepsOtherLanes s (settleOutputs s v) n := fun m hm =>
  settleOutputs_lane_kept ((evacuate_of_rest L.rest).trans L.evacuate) (L.other m hm)

/-- Outside the lane's mirror memory is as the event left it. -/
theorem LaneEvent.byteAt {a : Nat} (ha : ¬inLaneMirror n a) : (settleOutputs s v).mem.byteAt a = v.mem.byteAt a :=
  byteAt_settleOutputs_unchanged L.wf L.mirror L.ports fun m hm =>
    L.other m fun h => ha (h ▸ hm)

theorem LaneEvent.peek {a len : Nat} (h : a + len ≤ 0x1100 ∨ 0x1500 ≤ a) :
    (settleOutputs s v).peek a len = v.peek a len :=
  Memory.read_congr fun x h1 h2 => L.byteAt fun hm => by have := inLaneMirror_region hm; omega

theorem LaneEvent.keeps {P : Nat → Prop} (hQ : ∀ a, Q a → P a) (hn : ∀ a, inLaneMirror n a → P a) :
    keepsBytes s (settleOutputs s v) P := fun a ha =>
  (L.byteAt fun h => ha (hn a h)).trans (L.bytes a fun h => ha (hQ a h))

/-- Where the lane's configurations and state stand, its mirror changes at the current window and the cue alone. -/
theorem LaneEvent.keeps_shown {P : Nat → Prop} (hstate : (v.lane n).state = (s.lane n).state)
    (hsetup : (v.lane n).setup = (s.lane n).setup) (hQ : ∀ a, Q a → P a)
    (hwindow : (v.lane n).window ≠ (s.lane n).window → ∀ a, inField (laneBlockBase n.val + 80) 22 a → P a)
    (hcue : cueBytes (v.lane n) ≠ cueBytes (s.lane n) → ∀ a, inField (laneBlockBase n.val + 112) 6 a → P a) :
    keepsBytes s (settleOutputs s v) P := fun a ha => by
  have hconfig : (v.lane n).config = (s.lane n).config := congrArg (fun x => x.1) hsetup
  have hpending : (v.lane n).pendingConfig = (s.lane n).pendingConfig := congrArg (fun x => x.2.1) hsetup
  refine Eq.trans ?_ (L.bytes a fun h => ha (hQ a h))
  by_cases hin : inLaneMirror n a
  · refine byteAt_settleOutputs_kept s L.wf n hin (.inr ?_) (.inr ?_) (.inr ?_) (.inr (L.ports n).symm) ?_ ?_
    · rw [laneBytes, laneBytes, hstate, hconfig, hpending]
    · rw [heldBytes, heldBytes, hstate]
    · rw [figureBytes, figureBytes, hstate]
    · by_cases h : cueBytes (v.lane n) = cueBytes (s.lane n)
      · exact .inr h.symm
      · exact .inl (by rw [length_cueBytes]; exact fun hc => ha (hcue h a hc))
    · by_cases h : (v.lane n).window = (s.lane n).window
      · exact .inr h.symm
      · exact .inl fun hw => ha (hwindow h a hw)
  · exact L.byteAt hin

theorem LaneEvent.unpledged {r : Record} (hok : s.ok) (h : unpledgedRecord s v r) :
    unpledgedRecord s (settleOutputs s v) r :=
  unpledgedRecord_right h (settleOutputs_journal ..)
    (fun a ha => L.byteAt fun hm => by have := inAppend_region hok.2.1 ha; have := inLaneMirror_region hm; omega)
    (by rw [sameCauses, settleOutputs_attn]; exact ⟨rfl, rfl⟩)

theorem LaneEvent.pledged {r : Record} (hok : s.ok) (h : pledgedRecord s v r) : pledgedRecord s (settleOutputs s v) r :=
  pledgedRecord_right h (settleOutputs_journal ..)
    (fun a ha => L.byteAt fun hm => by have := inAppend_region hok.2.1 ha; have := inLaneMirror_region hm; omega)
    (by rw [sameCauses, settleOutputs_attn]; exact ⟨rfl, rfl⟩)

end

/-! ### What the lane itself shows once the outputs settle -/

theorem settled_state (s v : State) (n : Fin 4) : ((settleOutputs s v).lane n).state = (v.lane n).state := by
  rw [settleOutputs_lane_eq]

theorem settled_lock (s v : State) (n : Fin 4) : lockReleased (settleOutputs s v) n = lockReleased v n := by
  rw [lockReleased, lockReleased, settleOutputs_lane_eq, evacuate_of_rest (settleOutputs_rest s v)]

theorem settled_window (s v : State) (n : Fin 4) : ((settleOutputs s v).lane n).window = (v.lane n).window := by
  rw [settleOutputs_lane_eq]

theorem settled_setup {s u v : State} {n : Fin 4} (h : (v.lane n).setup = (u.lane n).setup) :
    keepsSetup u (settleOutputs s v) n := by
  rw [keepsSetup, settleOutputs_lane_eq]
  exact h

theorem settled_counted {s u v : State} {n : Fin 4} {k : CountKind} (h : countedOnce u v n k) :
    countedOnce u (settleOutputs s v) n k := (settled_window s v n).trans h

theorem settled_cue {s u v : State} {n : Fin 4} {o : CueOutcome} (h : cueHanded u v n o) :
    cueHanded u (settleOutputs s v) n o := by
  rw [cueHanded, settleOutputs_lane_eq]
  exact h

theorem settled_show {s u v : State} {p : Fin 4} {x : Show} (h : showAsked u v p x) :
    showAsked u (settleOutputs s v) p x := h

theorem settled_otherPorts {s u v : State} {p : Fin 4} (h : keepsOtherPorts u v p) :
    keepsOtherPorts u (settleOutputs s v) p := h

/-! ### One pledged record -/

/-- One record asked for with its pledge and no more: it is the pledged record of R208. -/
theorem pledgedRecord_of_asked {s t : State} {r : Record}
    (R : RecordsStand s t (Appended.ask (thresholdOf s) ⟨s.journal, [], false, false⟩ (true, r))) :
    pledgedRecord s t r := by
  obtain ⟨hj, hwritten, hindex, hdropped, hcauses⟩ := R
  unfold Appended.ask at hj hwritten hindex hdropped hcauses
  simp only [if_true, true_or] at hj hwritten hindex hdropped hcauses
  have hfill : ({ s.journal with pledges := s.journal.pledges - 1 } : Journal).fill = s.journal.fill := rfl
  rw [hfill] at hj hwritten hindex hdropped hcauses
  unfold pledgedRecord recordPlaced
  by_cases hring : s.journal.hold = [] ∧ s.journal.fill < 1023
  · simp only [hring, if_true, and_self] at hj hwritten hindex hdropped hcauses ⊢
    refine ⟨by simp [hj], by simp [hj], hwritten (s.journal.writeIndex, r) (by simp), by simp [hj], hindex (by simp),
      by simp [hj], by simp [hj], ?_⟩
    exact journalCauses_iff hcauses (by simp [reachesLevel]) (by simp)
  · simp only [hring, if_false] at hj hwritten hindex hdropped hcauses ⊢
    refine ⟨by simp [hj], by simp [hj], by simp [hj], by simp [hj], by simp [hj], ?_⟩
    exact journalCauses_iff hcauses (by simp) (by simp)

/-! ### Denials and voids (R65, R73, R79) -/

/-- The bytes of an append beside others. -/
def orAppend (s : State) (Q : Nat → Prop) (a : Nat) : Prop := inAppend s a ∨ Q a

theorem Ran.bytes_one {s t : State} {Q : Nat → Prop} {b : BitVec 8} {x : Asked} (R : Ran s t Q b [x]) (a : Nat)
    (ha : ¬orAppend s Q a) : t.mem.byteAt a = s.mem.byteAt a :=
  R.bytes a (fun h => ha (.inr h)) fun h => ha (.inl (inAppends_one R.indexed h))

section
variable {s t : State} {Q : Nat → Prop} {b : BitVec 8} {asks : List Asked} (R : Ran s t Q b asks)
include R

theorem Ran.denied (n p : Fin 4) (uid : List Byte) (slot : Option Nat) (reason : DenyReason) (e : ReferralEnd) :
    Ran s (denyCore n p uid slot reason e t) Q b
      (asks ++ [(false, ⟨some n, t.day, t.ms, uid, slot, .deny reason e⟩)]) := by
  refine (R.ask (false, ⟨some n, t.day, t.ms, uid, slot, .deny reason e⟩)).same ?_ ?_ ?_
  · exact (count_mem ..).trans (sendShow_mem ..)
  · exact (count_journal ..).trans (sendShow_journal ..)
  · exact (count_attn ..).trans (sendShow_attn ..)

theorem Ran.voided (n : Fin 4) (g : Grant) (cause : VoidCause) (hQ : Q (passBase g.slot + 31)) :
    Ran s (voidCore n g cause t) Q b
      (asks ++ [(true, ⟨some n, t.day, t.ms, g.uid, some g.slot, .void cause⟩)]) := by
  have marked : Ran s (setMarker g.slot none t) Q b asks :=
    R.still (setMarker_wf g.slot none R.wf) (fun a ha => byteAt_setMarker g.slot none R.wf fun h => ha (h ▸ hQ))
      (setMarker_journal ..) (setMarker_attn ..)
  exact (marked.ask (true, ⟨some n, t.day, t.ms, g.uid, some g.slot, .void cause⟩)).same (count_mem ..) (count_journal ..)
    (count_attn ..)

theorem Ran.handed (n : Fin 4) (o : CueOutcome) : Ran s (handOutcome n o t) Q b asks :=
  R.same (handOutcome_mem ..) (handOutcome_journal ..) (handOutcome_attn ..)

theorem Ran.readied (n : Fin 4) (o : CueOutcome) : Ran s (enterReadyWith n o t) Q b asks :=
  R.same (enterReadyWith_mem ..) (enterReadyWith_journal ..) (enterReadyWith_attn ..)

end

section
variable (n p : Fin 4) (uid : List Byte) (slot : Option Nat) (reason : DenyReason) (e : ReferralEnd) (s : State)

theorem denyCore_counted :
    (denyCore n p uid slot reason e s).lane n =
      { s.lane n with window := (s.lane n).window.map fun w => { w with counts := w.counts.add .denied } } := by
  unfold denyCore
  rw [count_lane, sendShow_lane, lane_of_lanes (appendUnpledged_lanes ..)]

theorem denyCore_shows :
    showAsked s (denyCore n p uid slot reason e s) p ⟨.deny reason, 0⟩
      ∧ keepsOtherPorts s (denyCore n p uid slot reason e s) p := by
  have hports := count_ports n .denied (sendShow p (.deny reason) 0
    (appendUnpledged (mkRecord s (some n) uid slot (.deny reason e)) s))
  refine ⟨?_, fun q hq => ?_⟩
  · rw [showAsked, denyCore, port_of_ports hports, sendShow_spec, port_of_ports (appendUnpledged_ports ..)]
  · rw [denyCore, port_of_ports hports, sendShow_port_other _ _ _ hq, port_of_ports (appendUnpledged_ports ..)]

end

/-- A cue handed to a lane whose window alone changed since, the Cue Table as it was. -/
theorem cueHanded_of_window {s u : State} {n : Fin 4} {w : Option Window} (o : CueOutcome)
    (hlane : u.lane n = { s.lane n with window := w }) (hnow : u.now = s.now)
    (hmem : ∀ x, inCueTable x → u.mem.byteAt x = s.mem.byteAt x) : cueHanded s (handOutcome n o u) n o :=
  handOutcome_congr n o (by rw [hlane]) (by rw [hlane]) (by rw [hlane]) (by rw [hlane]) hnow hmem

/-- A lane that enters READY with an outcome in place of READY's, its window alone changed since. -/
theorem readiedWith_of_window {s u : State} {n : Fin 4} {w : Option Window} (o : CueOutcome)
    (hlane : u.lane n = { s.lane n with window := w }) (hd : (s.lane n).state.isDown = false) (hnow : u.now = s.now)
    (hmem : ∀ x, inCueTable x → u.mem.byteAt x = s.mem.byteAt x) :
    ((enterReadyWith n o u).lane n).state = .ready none ∧ ((enterReadyWith n o u).lane n).setup = (s.lane n).setup
      ∧ ((enterReadyWith n o u).lane n).window = w
      ∧ cueHanded s (enterReadyWith n o u) n (if ((s.lane n).config.cueFor o).isSome then o else .ready) := by
  obtain ⟨hstate, hsetup, hwindow, -⟩ := enterReadyWith_lane n o u
  obtain ⟨hcue, hlevels⟩ := enterReadyWith_cue n o (s := u) (by rw [hlane]; exact hd)
  obtain ⟨hcue', hlevels'⟩ := cueHanded_of_window (if ((s.lane n).config.cueFor o).isSome then o else .ready) hlane hnow hmem
  rw [show (u.lane n).config = (s.lane n).config by rw [hlane]] at hcue hlevels
  exact ⟨hstate, by rw [hsetup, hlane]; rfl, by rw [hwindow, hlane], hcue.trans hcue', hlevels.trans hlevels'⟩

/-- A run of records leaves the Cue Table where its other changes do. -/
theorem Ran.cueTable {s t : State} {Q : Nat → Prop} {b : BitVec 8} {asks : List Asked} (R : Ran s t Q b asks)
    (hQ : ∀ a, Q a → ¬inCueTable a) (x : Nat) (hx : inCueTable x) : t.mem.byteAt x = s.mem.byteAt x :=
  R.bytes x (fun h => hQ x h hx) fun h => by
    have := inAppends_apart h
    unfold inCueTable inField at hx
    omega

/-! ### An event that begins with its lanes as they were -/

/-- What an event does before it turns to its lane: the order taken, the tap taken; the lanes stand, and the ports show what
they showed. -/
structure Begun (s u : State) (Q : Nat → Prop) (b : BitVec 8) : Prop where
  ran : Ran s u Q b []
  bytes : ∀ a, ¬Q a → u.mem.byteAt a = s.mem.byteAt a
  evacuate : u.evacuate = s.evacuate
  shows : stateMirror u = stateMirror s
  lanes : u.lanes = s.lanes
  ports : ∀ p, portBytes (u.port p) = portBytes (s.port p)
  now : u.now = s.now
  day : u.day = s.day
  ms : u.ms = s.ms

theorem Begun.lane {s u : State} {Q : Nat → Prop} {b : BitVec 8} (B : Begun s u Q b) (n : Fin 4) : u.lane n = s.lane n :=
  lane_of_lanes B.lanes n

/-- A cue handed after the beginning of an event is the one the lane would have been handed before it. -/
theorem Begun.cue {s u v : State} {Q : Nat → Prop} {b : BitVec 8} (B : Begun s u Q b) (hQ : ∀ a, Q a → ¬inCueTable a)
    {n : Fin 4} {o : CueOutcome} (h : cueHanded u v n o) : cueHanded s v n o := by
  obtain ⟨hcue, hlevels⟩ := handOutcome_congr n o (s := s) (t := u) (by rw [B.lane]) (by rw [B.lane]) (by rw [B.lane])
    (by rw [B.lane]) B.now fun x hx => B.bytes x fun h => hQ x h hx
  exact ⟨h.1.trans hcue, h.2.trans hlevels⟩

/-- A run of at most one record that changed one lane is an event of that lane. -/
theorem Begun.event {s u v : State} {Q : Nat → Prop} {b c : BitVec 8} {x : Asked} {n : Fin 4} (B : Begun s u Q b)
    (R : Ran s v Q c [x]) (hrest : v.rest = u.rest) (hother : keepsOtherLanes u v n)
    (hports : ∀ p, portBytes (v.port p) = portBytes (u.port p)) : LaneEvent s u v n (orAppend s Q) c where
  evacuate := B.evacuate
  shows := B.shows
  rest := hrest
  wf := R.wf
  attn := R.attn
  bytes := R.bytes_one
  other := fun m hm => (hother m hm).trans (B.lane m)
  ports := fun p => (hports p).trans (B.ports p)

theorem Ran.unpledged {s v : State} {Q : Nat → Prop} {b : BitVec 8} {r : Record} (R : Ran s v Q b [(false, r)]) :
    unpledgedRecord s v r := unpledgedRecord_of_asked R.records

theorem Ran.pledged {s v : State} {Q : Nat → Prop} {b : BitVec 8} {r : Record} (R : Ran s v Q b [(true, r)]) :
    pledgedRecord s v r := pledgedRecord_of_asked R.records

/-- An event in which a lane's denial is its one record (R65). -/
structure Denied (s u v : State) (n p : Fin 4) (uid : List Byte) (slot : Option Nat) (reason : DenyReason)
    (e : ReferralEnd) (Q : Nat → Prop) (b : BitVec 8) : Prop where
  ran : Ran s v Q b [(false, ⟨some n, s.day, s.ms, uid, slot, .deny reason e⟩)]
  rest : v.rest = u.rest
  other : keepsOtherLanes u v n
  answered : showAsked u v p ⟨.deny reason, 0⟩
  ports : keepsOtherPorts u v p

theorem Denied.record {s u v : State} {n p : Fin 4} {uid : List Byte} {slot : Option Nat} {reason : DenyReason}
    {e : ReferralEnd} {Q : Nat → Prop} {b : BitVec 8} (D : Denied s u v n p uid slot reason e Q b) :
    unpledgedRecord s v ⟨some n, s.day, s.ms, uid, slot, .deny reason e⟩ := D.ran.unpledged

section
variable {s u : State} {Q : Nat → Prop} {b : BitVec 8} (B : Begun s u Q b) (n p : Fin 4) (uid : List Byte)
  (slot : Option Nat) (reason : DenyReason) (e : ReferralEnd)
include B

theorem Begun.denied_event {v : State} {c : BitVec 8} {n p : Fin 4} {uid : List Byte} {slot : Option Nat} {reason : DenyReason}
    {e : ReferralEnd} (D : Denied s u v n p uid slot reason e Q c) : LaneEvent s u v n (orAppend s Q) c :=
  B.event D.ran D.rest D.other (portBytes_of_show D.answered D.ports)

/-- A denial's run of its one record. -/
theorem Begun.denyRan :
    Ran s (denyCore n p uid slot reason e u) Q b [(false, ⟨some n, s.day, s.ms, uid, slot, .deny reason e⟩)] := by
  rw [← B.day, ← B.ms]
  exact B.ran.denied n p uid slot reason e

/-- A denial without a cue (R66). -/
theorem Begun.denied : Denied s u (denyCore n p uid slot reason e u) n p uid slot reason e Q b where
  ran := B.denyRan n p uid slot reason e
  rest := denyCore_rest ..
  other := fun _ hm => denyCore_lane_other p uid slot reason e u hm
  answered := (denyCore_shows n p uid slot reason e u).1
  ports := (denyCore_shows n p uid slot reason e u).2

/-- A denial at a lane that stays as it is, with the DENY cue (R65). -/
theorem Begun.deniedTap : Denied s u (denyTap n p uid slot reason u) n p uid slot reason .none Q b := by
  obtain ⟨hran, hrest, hother, hshow, hports⟩ := B.denied n p uid slot reason .none
  have hsame := handOutcome_ports n .deny (denyCore n p uid slot reason .none u)
  exact ⟨hran.handed n .deny, (handOutcome_rest ..).trans hrest,
    fun m hm => (handOutcome_lane_other .deny _ hm).trans (hother m hm), (port_of_ports hsame p).trans hshow,
    fun q hq => (port_of_ports hsame q).trans (hports q hq)⟩

/-- A denial that returns its lane to READY (R79). -/
theorem Begun.deniedReady :
    Denied s u (enterReadyWith n .deny (denyCore n p uid slot reason e u)) n p uid slot reason e Q b := by
  obtain ⟨hran, hrest, hother, hshow, hports⟩ := B.denied n p uid slot reason e
  have hsame := enterReadyWith_ports n .deny (denyCore n p uid slot reason e u)
  exact ⟨hran.readied n .deny, (enterReadyWith_rest ..).trans hrest,
    fun m hm => (enterReadyWith_lane_other .deny _ hm).trans (hother m hm), (port_of_ports hsame p).trans hshow,
    fun q hq => (port_of_ports hsame q).trans (hports q hq)⟩

/-- The lane of a denial that returns it to READY (R79). -/
theorem Begun.deniedReady_lane (hQ : ∀ a, Q a → ¬inCueTable a) (hd : (s.lane n).state.isDown = false) :
    let v := enterReadyWith n .deny (denyCore n p uid slot reason e u)
    (v.lane n).state = .ready none ∧ (v.lane n).setup = (s.lane n).setup ∧ countedOnce s v n .denied
      ∧ cueHanded s v n (if ((s.lane n).config.cueFor .deny).isSome then .deny else .ready) := by
  have hlane := denyCore_counted n p uid slot reason e u
  rw [B.lane] at hlane
  exact readiedWith_of_window .deny hlane hd ((now_of_rest (denyCore_rest ..)).trans B.now)
    ((B.denyRan n p uid slot reason e).cueTable hQ)

end

/-- An order taken and ended, beside a denial. -/
theorem Denied.ended {s u v : State} {n p : Fin 4} {uid : List Byte} {slot : Option Nat} {reason : DenyReason}
    {e : ReferralEnd} {Q : Nat → Prop} {b : BitVec 8} (D : Denied s u v n p uid slot reason e Q b) {k : Fin 32}
    (ht : orderState v k.val = 2) (hQ : ∀ a, inOrderEnd k a → Q a) (r : Result) :
    Denied s u (endOrder k r v) n p uid slot reason e Q (b ||| 1#8) where
  ran := D.ran.ended ht hQ r
  rest := (endOrder_rest ..).trans D.rest
  other := fun m hm => (lane_of_lanes (endOrder_lanes ..) m).trans (D.other m hm)
  answered := (port_of_ports (endOrder_ports ..) p).trans D.answered
  ports := fun q hq => (port_of_ports (endOrder_ports ..) q).trans (D.ports q hq)

/-! ### Where events begin -/

theorem Begun.self {s : State} (hok : s.ok) {Q : Nat → Prop} (hQ : besideWriter Q) : Begun s s Q 0#8 where
  ran := Ran.start hok hQ hok.1 (fun _ _ => rfl) rfl rfl
  bytes := fun _ _ => rfl
  evacuate := rfl
  shows := rfl
  lanes := rfl
  ports := fun _ => rfl
  now := rfl
  day := rfl
  ms := rfl

theorem besideWriter_orderEnd (k : Fin 32) : besideWriter (inOrderEnd k) := by
  intro a ha
  have := k.isLt
  unfold inOrderEnd inField orderBase at ha
  unfold inWriter inField hdrThreshold
  omega

/-- An order taken. -/
theorem takeSlot_begun {s : State} (hok : s.ok) (k : Fin 32) : Begun s (takeSlot k s) (inOrderEnd k) 0#8 where
  ran := Ran.start hok (besideWriter_orderEnd k) (takeSlot_wf k hok.1) (fun _ ha => byteAt_takeSlot k hok.1 fun h => ha (.inl h))
    rfl rfl
  bytes := fun _ ha => byteAt_takeSlot k hok.1 fun h => ha (.inl h)
  evacuate := rfl
  shows := rfl
  lanes := rfl
  ports := fun _ => rfl
  now := rfl
  day := rfl
  ms := rfl

theorem inOrderEnd_cueTable {k : Fin 32} {a : Nat} (h : inOrderEnd k a) : ¬inCueTable a := by
  have := k.isLt
  unfold inOrderEnd inField orderBase at h
  unfold inCueTable inField
  omega

end Sys2Proof.Machine
end

section
/-! PROOFS. TAP_TAKE: grants, denials and referrals at a READY ENTRY lane, and taps at lanes in other states (R58 to R70, R77). -/

namespace Sys2Proof.Machine

/-! ### The tap at the head of the queue (R58, R59) -/

/-- The head of the queue taken. -/
def tapTaken (s : State) (rest : List TapRecord) : State := { s with tapQueue := rest }

theorem tapTake_runs {s : State} {q : TapRecord} {rest : List TapRecord} (hq : s.tapQueue = q :: rest)
    (hs : s.station = .running) (hrole : (s.lane q.lane).config.role = .entry) :
    exec .tapTake s = .next (settleOutputs s (handleTap q (tapTaken s rest))) := by
  simp only [exec, execTapTake, hq, if_pos (And.intro hs hrole)]
  rfl

theorem tapTake_discards {s : State} {q : TapRecord} {rest : List TapRecord} (hq : s.tapQueue = q :: rest)
    (h : s.station ≠ .running ∨ (s.lane q.lane).config.role ≠ .entry) :
    exec .tapTake s = .next { s with tapQueue := rest } := by
  have hno : ¬(s.station = .running ∧ (s.lane q.lane).config.role = .entry) := fun hc => h.elim (· hc.1) (· hc.2)
  simp only [exec, execTapTake, hq, if_neg hno]

/-- A tap that changes nothing but the queue. -/
theorem tapTake_ignores {s : State} {q : TapRecord} {rest : List TapRecord} (hq : s.tapQueue = q :: rest)
    (hs : s.station = .running) (hrole : (s.lane q.lane).config.role = .entry)
    (h : handleTap q (tapTaken s rest) = tapTaken s rest) : exec .tapTake s = .next { s with tapQueue := rest } := by
  rw [tapTake_runs hq hs hrole, h]
  exact congrArg Host.Outcome.next (settleOutputs_quiet rfl rfl rfl rfl)

theorem tapTaken_begun {s : State} (hok : s.ok) (rest : List TapRecord) :
    Begun s (tapTaken s rest) (fun _ => False) 0#8 where
  ran := Ran.start hok besideWriter_none hok.1 (fun _ _ => rfl) rfl rfl
  bytes := fun _ _ => rfl
  evacuate := rfl
  shows := rfl
  lanes := rfl
  ports := fun _ => rfl
  now := rfl
  day := rfl
  ms := rfl

/-! ### The checks in order (R61 to R64) -/

theorem passDenial_eq (s : State) (slot stamp : Nat) :
    passDenial s slot stamp = firstFailure (entryChecks s (s.pass slot) (s.product (s.pass slot).product) stamp) :=
  entryDenial_eq ..

theorem mem_of_firstFailure {l : List (Bool × DenyReason)} {r : DenyReason} (h : firstFailure l = some r) :
    r ∈ l.map (·.2) := by
  obtain ⟨x, hx, rfl⟩ := Option.map_eq_some_iff.mp h
  exact List.mem_map_of_mem (List.mem_of_find?_eq_some hx)

/-- The reasons of checks 1 to 3, whose record has no UID (R65). -/
def DenyReason.early (r : DenyReason) : Prop := r = .journalFull ∨ r = .stationUnset ∨ r = .reread

theorem entryChecks_late {s : State} {e : PassEntry} {p : Product} {stamp : Nat} {r : DenyReason}
    (h : firstFailure (entryChecks s e p stamp) = some r) : ¬r.early := by
  have hmem := mem_of_firstFailure h
  simp only [entryChecks, List.map_cons, List.map_nil, List.mem_cons, List.not_mem_nil, or_false] at hmem
  rcases hmem with rfl | rfl | rfl | rfl | rfl | rfl | rfl | rfl | rfl | rfl | rfl <;> simp [DenyReason.early]

/-- The reason of a tap, check by check. -/
theorem tapReason_eq (s : State) (q : TapRecord) :
    tapReason s q =
      if 5 ≤ s.journal.room then
        if s.liftNumber ≠ 31 then
          if q.quality ≠ 0 then
            (match lookup s.mem q.uid with
              | some slot => passDenial s slot q.stamp
              | none => if s.online then none else some .unknown)
          else some .reread
        else some .stationUnset
      else some .journalFull := by
  simp only [tapReason, List.cons_append, List.nil_append, firstFailure_cons, decide_eq_true_eq]
  congr 3
  cases lookup s.mem q.uid with
  | some slot => exact (passDenial_eq s slot q.stamp).symm
  | none => exact firstFailure_cons ..

section
variable {s : State} {q : TapRecord}

/-- A tap whose reason is not of checks 1 to 3 has passed them. -/
theorem tapReason_late {r : Option DenyReason} (h : tapReason s q = r) (hr : ∀ x, r = some x → ¬x.early) :
    5 ≤ s.journal.room ∧ s.liftNumber ≠ 31 ∧ q.quality ≠ 0 := by
  rw [tapReason_eq] at h
  by_cases hroom : 5 ≤ s.journal.room
  · by_cases hlift : s.liftNumber ≠ 31
    · by_cases hquality : q.quality ≠ 0
      · exact ⟨hroom, hlift, hquality⟩
      · rw [if_pos hroom, if_pos hlift, if_neg hquality] at h
        exact absurd (.inr (.inr rfl)) (hr _ h.symm)
    · rw [if_pos hroom, if_neg hlift] at h
      exact absurd (.inr (.inl rfl)) (hr _ h.symm)
  · rw [if_neg hroom] at h
    exact absurd (.inl rfl) (hr _ h.symm)

/-- With checks 1 to 3 passed the card decides. -/
theorem evaluateTap_late (hroom : 5 ≤ s.journal.room) (hlift : s.liftNumber ≠ 31) (hquality : q.quality ≠ 0) :
    evaluateTap q s =
      match lookup s.mem q.uid with
      | none =>
        if s.online then refer q.lane q.port q.uid q.stamp s else denyTap q.lane q.port q.uid none .unknown s
      | some slot =>
        match passDenial s slot q.stamp with
        | some reason => denyTap q.lane q.port q.uid (some slot) reason s
        | none => grantPass q.lane q.port q.uid slot s := by
  have hset : ¬liftUnset s = true := by simpa [liftUnset] using hlift
  rw [evaluateTap, if_neg (by omega), if_neg hset, if_neg hquality] <;> rfl

theorem evaluateTap_early {r : DenyReason} (h : tapReason s q = some r) (hr : r.early) :
    evaluateTap q s = denyTap q.lane q.port [] none r s := by
  have hreason := tapReason_eq s q
  rw [h] at hreason
  unfold evaluateTap
  by_cases hroom : 5 ≤ s.journal.room
  · rw [if_pos hroom] at hreason
    rw [if_neg (by omega)]
    by_cases hlift : s.liftNumber ≠ 31
    · rw [if_pos hlift] at hreason
      rw [if_neg (by simpa [liftUnset] using hlift)]
      by_cases hquality : q.quality ≠ 0
      · rw [if_pos hquality] at hreason
        exfalso
        cases hlook : lookup s.mem q.uid with
        | some slot =>
          rw [hlook] at hreason
          dsimp only at hreason
          rw [passDenial_eq] at hreason
          exact entryChecks_late hreason.symm hr
        | none =>
          rw [hlook] at hreason
          cases hon : s.online <;> simp_all [DenyReason.early]
      · rw [if_neg hquality] at hreason
        rw [if_pos (by omega), Option.some.inj hreason]
    · rw [if_neg hlift] at hreason
      rw [if_pos (by simpa [liftUnset] using hlift), Option.some.inj hreason]
  · rw [if_neg hroom] at hreason
    rw [if_pos (by omega), Option.some.inj hreason]

theorem evaluateTap_denied {r : DenyReason} (h : tapReason s q = some r) (hr : ¬r.early) :
    evaluateTap q s = denyTap q.lane q.port q.uid (lookup s.mem q.uid) r s := by
  obtain ⟨hroom, hlift, hquality⟩ := tapReason_late h fun x hx => by cases hx; exact hr
  rw [tapReason_eq, if_pos hroom, if_pos hlift, if_pos hquality] at h
  rw [evaluateTap_late hroom hlift hquality]
  cases hlook : lookup s.mem q.uid with
  | some slot =>
    rw [hlook] at h
    dsimp only at h ⊢
    rw [h]
  | none =>
    rw [hlook] at h
    dsimp only at h ⊢
    cases hon : s.online with
    | true => simp [hon] at h
    | false =>
      rw [hon] at h
      cases h
      rfl

theorem evaluateTap_granted {slot : Nat} (h : tapReason s q = none) (hlook : lookup s.mem q.uid = some slot) :
    evaluateTap q s = grantPass q.lane q.port q.uid slot s := by
  obtain ⟨hroom, hlift, hquality⟩ := tapReason_late h fun x hx => by cases hx
  rw [tapReason_eq, if_pos hroom, if_pos hlift, if_pos hquality, hlook] at h
  dsimp only at h
  rw [evaluateTap_late hroom hlift hquality, hlook]
  dsimp only
  rw [h]

theorem evaluateTap_referred (h : tapReason s q = none) (hlook : lookup s.mem q.uid = none) :
    evaluateTap q s = refer q.lane q.port q.uid q.stamp s := by
  obtain ⟨hroom, hlift, hquality⟩ := tapReason_late h fun x hx => by cases hx
  rw [tapReason_eq, if_pos hroom, if_pos hlift, if_pos hquality, hlook] at h
  dsimp only at h
  rw [evaluateTap_late hroom hlift hquality, hlook]
  cases hon : s.online with
  | true => rfl
  | false => simp [hon] at h

end

end Sys2Proof.Machine
end

section
/-! PROOFS. TAP_TAKE: the statements on a tap granted, denied or referred, and on lanes in other states (R58 to R70, R77). -/

namespace Sys2Proof.Machine

/-! ### A grant (R67, R68, R70) -/

/-- A grant from a state that shows the lane as it was: an event of the lane at the marker's byte. -/
theorem Begun.granted {s u : State} {Q : Nat → Prop} {b : BitVec 8} (B : Begun s u Q b) (n port : Fin 4) (uid : List Byte)
    (slot : Nat) : LaneEvent s u (grantPass n port uid slot u) n (fun a => a = passBase slot + 31 ∨ Q a) b where
  evacuate := B.evacuate
  shows := B.shows
  rest := grantPass_rest ..
  wf := by
    rw [grantPass_mem]
    exact setMarker_wf slot _ B.ran.wf
  attn := by
    rw [attnRaised, grantPass_attn]
    exact B.ran.attn
  bytes := fun a ha => by
    rw [grantPass_mem, byteAt_setMarker slot _ B.ran.wf fun h => ha (.inl h)]
    exact B.bytes a fun h => ha (.inr h)
  other := fun m hm => (grantPass_lane_other n port uid slot u hm).trans (B.lane m)
  ports := fun p => (portBytes_of_show (grantPass_show n port uid slot u)
    (fun _ hq => grantPass_port_other n port uid slot u hq) p).trans (B.ports p)

/-! ### What the Lane Block shows of a lane that came to another state (Table 15) -/

theorem code_lt (st : LaneState) : st.code < 256 := by
  cases st <;> simp [LaneState.code]

theorem ofNat_byte_inj {x y : Nat} (hx : x < 256) (hy : y < 256) (h : BitVec.ofNat 8 x = BitVec.ofNat 8 y) : x = y := by
  have := congrArg BitVec.toNat h
  simp only [BitVec.toNat_ofNat] at this
  omega

theorem shown_code {s v : State} (n : Fin 4) (hw : v.mem.wf) (hne : (v.lane n).state.code ≠ (s.lane n).state.code) :
    (settleOutputs s v).peek (laneBlockBase n.val) 1 = (v.lane n).state.code := by
  have low (l : Lane) : (laneBytes l).getD 0 0 = BitVec.ofNat 8 l.state.code := rfl
  have shown := byteAt_settleOutputs_lane s hw n (i := 0) (by decide)
  rw [if_neg, low, Nat.add_zero] at shown
  · change ((settleOutputs s v).mem.byteAt _).toNat + 256 * 0 = _
    rw [shown, BitVec.toNat_ofNat]
    have := code_lt (v.lane n).state
    omega
  · rintro ⟨h, -⟩
    exact hne (ofNat_byte_inj (code_lt _) (code_lt _) h)

/-- The pass slot of a grant, where the lane held none. -/
theorem shown_slot {s v : State} (n : Fin 4) (hw : v.mem.wf) {g : Grant} (hg : (v.lane n).state = .granted g)
    {w : Option Nat} (hs : (s.lane n).state = .ready w) (hslot : g.slot < 65535) :
    (settleOutputs s v).peek (laneBlockBase n.val + 32) 2 = g.slot := by
  have low : (heldBytes (v.lane n)).getD 0 0 = BitVec.ofNat 8 g.slot := by rw [heldBytes, hg]; rfl
  have high : (heldBytes (v.lane n)).getD 1 0 = BitVec.ofNat 8 (g.slot / 256) := by rw [heldBytes, hg]; rfl
  have lowWas : (heldBytes (s.lane n)).getD 0 0 = BitVec.ofNat 8 255 := by rw [heldBytes, hs]; rfl
  have highWas : (heldBytes (s.lane n)).getD 1 0 = BitVec.ofNat 8 255 := by rw [heldBytes, hs]; rfl
  have moved : ¬((heldBytes (v.lane n)).getD 0 0 = (heldBytes (s.lane n)).getD 0 0
      ∧ (heldBytes (v.lane n)).getD 1 0 = (heldBytes (s.lane n)).getD 1 0) := by
    rw [low, high, lowWas, highWas]
    rintro ⟨h0, h1⟩
    have h0 := congrArg BitVec.toNat h0
    have h1 := congrArg BitVec.toNat h1
    simp only [BitVec.toNat_ofNat] at h0 h1
    omega
  have first := byteAt_settleOutputs_held s hw n (i := 0) (by decide)
  have second := byteAt_settleOutputs_held s hw n (i := 1) (by decide)
  rw [if_neg moved, low, Nat.add_zero] at first
  rw [if_neg moved, high] at second
  change ((settleOutputs s v).mem.byteAt _).toNat + 256 * (((settleOutputs s v).mem.byteAt _).toNat + 256 * 0) = _
  rw [first, second, BitVec.toNat_ofNat, BitVec.toNat_ofNat]
  omega

/-- A lock that an event releases begins its pulse where its drive is PULSE (R185). -/
theorem released_pulse {s v : State} {n : Fin 4} {width : Nat} (hs : lockReleased s n = false)
    (hv : lockReleased v n = true) (hdrive : (v.lane n).config.drive = .pulse width) :
    ((settleOutputs s v).lane n).lockPulse = some (v.now + width) := by
  rw [settleOutputs_lane, drivePulse, hs, hv]
  dsimp only
  rw [hdrive]

/-- Settles O16: the grant of the tap taken, its lane's event, and what the Lane Block shows of it. -/
theorem tapTakeGrants : Obligations.TapTakeGrants := by
  intro s q rest w slot hok hq hs hrole hready hreason hlook e d
  have B := tapTaken_begun hok rest
  have L := B.granted q.lane q.port q.uid slot
  have hslot : slot < 65535 := by
    obtain ⟨hlt, -⟩ := lookup_spec hlook
    unfold passSlots at hlt
    omega
  have hhandled : handleTap q (tapTaken s rest) = grantPass q.lane q.port q.uid slot (tapTaken s rest) := by
    have hstate : ((tapTaken s rest).lane q.lane).state = .ready w := hready
    rw [handleTap, hstate]
    exact evaluateTap_granted (s := tapTaken s rest) hreason hlook
  obtain ⟨hstate, hsetup, hwindow⟩ := grantPass_lane q.lane q.port q.uid slot (tapTaken s rest)
  have hcue := grantPass_cue q.lane q.port q.uid slot (s := tapTaken s rest) hok.1
    (by rw [show ((tapTaken s rest).lane q.lane).state = .ready w from hready]; rfl)
  have hshow := grantPass_show q.lane q.port q.uid slot (tapTaken s rest)
  have hjournal := grantPass_journal q.lane q.port q.uid slot (tapTaken s rest)
  have hattn := grantPass_attn q.lane q.port q.uid slot (tapTaken s rest)
  have hmarker : (grantPass q.lane q.port q.uid slot (tapTaken s rest)).peek (passBase slot + 31) 1 = q.lane.val := by
    rw [State.peek, grantPass_mem]
    exact peek_setMarker slot (some q.lane) (s := tapTaken s rest) hok.1
  have hother := fun p (hp : p ≠ q.port) => grantPass_port_other q.lane q.port q.uid slot (tapTaken s rest) hp
  have hnow := now_of_rest L.rest
  have hruns := (tapTake_runs hq hs hrole).trans (congrArg (fun v => Host.Outcome.next (settleOutputs s v)) hhandled)
  generalize grantPass q.lane q.port q.uid slot (tapTaken s rest) = v at *
  have hreleased : lockReleased v q.lane = true := by rw [lockReleased, hstate, Bool.or_true]
  refine ⟨_, hruns, (settled_state s v _).trans hstate, ?_, hjournal, (settled_lock s v _).trans hreleased, fun hl width hd => ?_,
    settled_cue (B.cue (fun _ => False.elim) hcue), settled_show hshow, ?_, ?_, (settled_window s v _).trans hwindow, ?_, L.keepsOthers, settled_setup hsetup,
    settled_otherPorts hother, L.keeps (fun a ha => ?_) fun a ha => .inr ha⟩
  · exact (L.peek (.inr (by unfold passBase; omega))).trans hmarker
  · rw [released_pulse hl hreleased ((congrArg (fun x => x.1.drive) hsetup).trans hd), hnow]
    rfl
  · rw [shown_code q.lane L.wf (by rw [hstate, hready]; simp [LaneState.code]), hstate]
    rfl
  · exact shown_slot q.lane L.wf hstate hready hslot
  · have heq := L.eq
    rw [hattn] at heq
    exact heq
  · exact .inl (ha.resolve_right id)

end Sys2Proof.Machine
end

section
/-! PROOFS. TAP_TAKE: a tap denied or referred at a READY lane, and taps at lanes in other states (R59, R60, R65, R66, R77). -/

namespace Sys2Proof.Machine

/-! ### A denial at a lane that stays as it is (R65) -/

theorem Begun.deniedTap_lane {s u : State} {Q : Nat → Prop} {b : BitVec 8} (B : Begun s u Q b)
    (hQ : ∀ a, Q a → ¬inCueTable a) (n p : Fin 4) (uid : List Byte) (slot : Option Nat) (reason : DenyReason) :
    ((denyTap n p uid slot reason u).lane n).state = (s.lane n).state
      ∧ ((denyTap n p uid slot reason u).lane n).setup = (s.lane n).setup
      ∧ countedOnce s (denyTap n p uid slot reason u) n .denied ∧ cueHanded s (denyTap n p uid slot reason u) n .deny := by
  have hlane := denyCore_counted n p uid slot reason .none u
  rw [B.lane] at hlane
  have R := B.denyRan n p uid slot reason .none
  have hcue := cueHanded_of_window .deny hlane ((now_of_rest (denyCore_rest ..)).trans B.now) (R.cueTable hQ)
  refine ⟨?_, ?_, ?_, hcue⟩
  · rw [denyTap, handOutcome_lane, hlane]
  · rw [denyTap, handOutcome_lane, hlane]
    rfl
  · rw [countedOnce, denyTap, handOutcome_lane, hlane]

/-! ### A referral (R77) -/

theorem Begun.referRan {s u : State} {Q : Nat → Prop} {b : BitVec 8} (B : Begun s u Q b) (n p : Fin 4) (uid : List Byte)
    (stamp : Nat) : Ran s (refer n p uid stamp u) Q (b ||| 8#8) [(false, ⟨some n, s.day, s.ms, uid, none, .referral⟩)] := by
  have entered : Ran s (u.modLane n (·.enter (.referred ⟨uid, stamp, u.now, p⟩))) Q b [] := B.ran.same rfl rfl rfl
  have asked := entered.ask (false, ⟨some n, u.day, u.ms, uid, none, .referral⟩)
  have hrefer : refer n p uid stamp u = raise .referral (appendAsked (false, ⟨some n, u.day, u.ms, uid, none, .referral⟩)
      (u.modLane n (·.enter (.referred ⟨uid, stamp, u.now, p⟩)))) := rfl
  rw [hrefer, ← B.day, ← B.ms]
  exact asked.amend asked.wf (fun _ _ => rfl) rfl rfl (by decide)

theorem refer_lane (n p : Fin 4) (uid : List Byte) (stamp : Nat) (u : State) :
    (refer n p uid stamp u).lane n = (u.lane n).enter (.referred ⟨uid, stamp, u.now, p⟩) := by
  change (appendUnpledged _ _).lane n = _
  rw [lane_of_lanes (appendUnpledged_lanes ..), lane_modLane_same]

theorem refer_lane_other {n m : Fin 4} (p : Fin 4) (uid : List Byte) (stamp : Nat) (u : State) (h : m ≠ n) :
    (refer n p uid stamp u).lane m = u.lane m := by
  change (appendUnpledged _ _).lane m = _
  rw [lane_of_lanes (appendUnpledged_lanes ..), lane_modLane_other _ _ h]

/-- Settles O17: the denial with the reason of the first check that fails, or the referral. -/
theorem tapTakeDeniesOrRefers : Obligations.TapTakeDeniesOrRefers := by
  intro s q rest w hok hq hs hrole hready
  have B := tapTaken_begun hok rest
  have hstate : ((tapTaken s rest).lane q.lane).state = .ready w := hready
  have runs {v : State} (h : evaluateTap q (tapTaken s rest) = v) : exec .tapTake s = .next (settleOutputs s v) := by
    rw [tapTake_runs hq hs hrole, handleTap, hstate, h]
  refine ⟨fun reason hreason => ?_, fun hreason hlook => ?_⟩
  · intro early
    obtain ⟨uid, slot, hdenied, hearly, hlate⟩ : ∃ uid slot,
        evaluateTap q (tapTaken s rest) = denyTap q.lane q.port uid slot reason (tapTaken s rest)
          ∧ (early → uid = [] ∧ slot = none) ∧ (¬early → uid = q.uid ∧ slot = lookup s.mem q.uid) := by
      by_cases hearly : early
      · exact ⟨_, _, evaluateTap_early (s := tapTaken s rest) hreason hearly, fun _ => ⟨rfl, rfl⟩, (absurd hearly ·)⟩
      · exact ⟨_, _, evaluateTap_denied (s := tapTaken s rest) hreason hearly, (absurd · hearly), fun _ => ⟨rfl, rfl⟩⟩
    have D := B.deniedTap q.lane q.port uid slot reason
    have L := B.denied_event D
    have hshow := D.answered
    have hports := D.ports
    obtain ⟨hkept, hsetup, hcounted, hcue⟩ := B.deniedTap_lane (fun _ => False.elim) q.lane q.port uid slot reason
    have hruns := runs hdenied
    generalize denyTap q.lane q.port uid slot reason (tapTaken s rest) = v at *
    have hrecord' := L.unpledged hok D.record
    refine ⟨_, hruns, (settled_state s v _).trans (hkept.trans hready), fun h => ?_, fun h => ?_, settled_show hshow,
      settled_cue hcue, settled_counted hcounted, L.raised, ?_, L.keepsOthers, settled_setup hsetup,
      settled_otherPorts hports, ?_⟩
    · obtain ⟨rfl, rfl⟩ := hearly h
      exact hrecord'
    · obtain ⟨rfl, rfl⟩ := hlate h
      exact hrecord'
    · have heq := L.eq
      rw [← settleOutputs_attn s v] at heq
      exact heq
    · exact L.keeps_shown hkept hsetup (fun a ha => .inl (ha.resolve_right id)) (fun _ a ha => .inr (.inl ha))
        fun _ a ha => .inr (.inr ha)
  · have R := B.referRan q.lane q.port q.uid q.stamp
    have hlane := refer_lane q.lane q.port q.uid q.stamp (tapTaken s rest)
    rw [B.lane, enter_lane] at hlane
    have hports := refer_ports q.lane q.port q.uid q.stamp (tapTaken s rest)
    have L := B.event R (refer_rest ..) (fun m hm => refer_lane_other _ _ _ _ hm) fun p => by rw [port_of_ports hports]
    have hruns := runs (evaluateTap_referred (s := tapTaken s rest) hreason hlook)
    generalize refer q.lane q.port q.uid q.stamp (tapTaken s rest) = v at *
    refine ⟨_, hruns, ?_, L.unpledged hok R.unpledged, L.raised, ?_, ?_, ?_, L.keepsOthers, settled_setup (by rw [hlane]; rfl),
      L.keeps (fun a ha => .inl (ha.resolve_right id)) fun a ha => .inr ha⟩
    · rw [settled_state, hlane]
      rfl
    · rw [cueKept, settleOutputs_lane_eq, hlane]
      exact ⟨rfl, rfl⟩
    · rw [settled_window, hlane]
    · have heq := L.eq
      rw [hports, ← settleOutputs_attn s v] at heq
      exact heq

/-! ### Lanes in other states (R59, R60, R66) -/

theorem handleTap_ignores {s : State} {q : TapRecord}
    (h : (s.lane q.lane).state.code = 0 ∨ (s.lane q.lane).state.code = 1 ∨ (s.lane q.lane).state.code = 7
      ∨ (∃ r, (s.lane q.lane).state = .referred r ∧ r.uid = q.uid)
      ∨ (∃ g, (s.lane q.lane).state = .granted g ∧ g.uid = q.uid)) : handleTap q s = s := by
  unfold handleTap
  cases hl : (s.lane q.lane).state with
  | down | arming _ | fault _ | capturing _ => rfl
  | referred r => simp_all [LaneState.code]
  | granted g => simp_all [LaneState.code]
  | ready _ | passing _ | free => simp [hl, LaneState.code] at h

theorem handleTap_busy {s : State} {q : TapRecord}
    (h : (∃ r, (s.lane q.lane).state = .referred r ∧ r.uid ≠ q.uid)
      ∨ (∃ g, (s.lane q.lane).state = .granted g ∧ g.uid ≠ q.uid) ∨ (s.lane q.lane).state.code = 5) :
    handleTap q s = denyCore q.lane q.port q.uid none .laneBusy .none s := by
  unfold handleTap
  cases hl : (s.lane q.lane).state with
  | passing _ => rfl
  | referred r => simp_all [LaneState.code, denyBusy]
  | granted g => simp_all [LaneState.code, denyBusy]
  | down | arming _ | fault _ | capturing _ | ready _ | free => simp [hl, LaneState.code] at h

/-- Settles O18: a tap at a lane that is not READY, by the lane's state. -/
theorem tapTakeByLaneState : Obligations.TapTakeByLaneState := by
  intro s q rest hok hq
  have B := tapTaken_begun hok rest
  refine ⟨tapTake_discards hq, fun hs hrole => ⟨fun h => ?_, fun hfree => ?_, fun h => ?_⟩⟩
  · exact tapTake_ignores hq hs hrole (handleTap_ignores (s := tapTaken s rest) h)
  · have hstate : ((tapTaken s rest).lane q.lane).state = .free := hfree
    have hshow := sendShow_spec q.port .free 0 (tapTaken s rest)
    have hports (p : Fin 4) (hp : p ≠ q.port) := sendShow_port_other .free 0 (tapTaken s rest) hp
    have hruns : exec .tapTake s = .next (settleOutputs s (sendShow q.port .free 0 (tapTaken s rest))) := by
      rw [tapTake_runs hq hs hrole, handleTap, hstate]
    have hsame : settleOutputs s (sendShow q.port .free 0 (tapTaken s rest)) = sendShow q.port .free 0 (tapTaken s rest) :=
      settleOutputs_unshown rfl (portBytes_of_show hshow hports) rfl rfl
    rw [hsame] at hruns
    exact ⟨_, hruns, hshow, hports, rfl⟩
  · have D := B.denied q.lane q.port q.uid none .laneBusy .none
    have L := B.denied_event D
    have hlane := denyCore_counted q.lane q.port q.uid none .laneBusy .none (tapTaken s rest)
    rw [B.lane] at hlane
    have hruns := tapTake_runs hq hs hrole
    rw [handleTap_busy (s := tapTaken s rest) h] at hruns
    generalize denyCore q.lane q.port q.uid none .laneBusy .none (tapTaken s rest) = v at *
    have hlock : lockReleased s q.lane = lockReleased v q.lane := by
      rw [lockReleased, lockReleased, hlane, evacuate_of_rest L.rest]
      rfl
    refine ⟨_, hruns, L.unpledged hok D.record, settled_show D.answered, settled_otherPorts D.ports, ?_, L.keepsOthers, L.raised,
      ?_, ?_⟩
    · rw [settleOutputs_lane, drivePulse_same hlock, hlane]
    · have heq := L.eq
      rw [← settleOutputs_attn s v] at heq
      exact heq
    · exact L.keeps_shown (by rw [hlane]) (by rw [hlane]; rfl) (fun a ha => .inl (ha.resolve_right id))
        (fun _ a ha => .inr ha) fun h => absurd (by rw [hlane]; rfl) h

end Sys2Proof.Machine
end

section
/-! PROOFS. The ends of grants and referrals by their timers and by DECLINE_REFERRAL (R71 to R73, R79 to R81, R175). -/

namespace Sys2Proof.Machine

/-! ### A void that returns its lane to READY (R73, R175) -/

theorem voidReady_runs {s : State} {n : Fin 4} {g : Grant} (hg : (s.lane n).state = .granted g) {c : Instr} {cause : VoidCause}
    (h : (c = .grantWindow n ∧ cause = VoidCause.window ∧ g.grantWindow ≤ g.windowCount)
      ∨ (c = .holdLimit n ∧ cause = VoidCause.holdLimit ∧ g.holdLimit ≤ s.now - g.tick)) :
    exec c s = .next (settleOutputs s (voidToReady n g cause s)) := by
  rcases h with ⟨rfl, rfl, hend⟩ | ⟨rfl, rfl, hend⟩
  · simp only [exec, execGrantWindow, hg, if_pos hend]
    rfl
  · simp only [exec, execHoldLimit, hg, if_pos hend]
    rfl

theorem besideWriter_slotMarker (slot : Nat) : besideWriter (· = passBase slot + 31) :=
  besideWriter_marker _ fun a ha => by
    rw [ha]
    unfold passBase
    omega

theorem markerFree_voidCore {s : State} (hok : s.ok) (n : Fin 4) (g : Grant) (cause : VoidCause) :
    markerFree (voidCore n g cause s) g.slot := by
  have hmarked : (setMarker g.slot none s).ok := ⟨setMarker_wf g.slot none hok.1, hok.2⟩
  have R := (Ran.start hmarked besideWriter_none hmarked.1 (fun _ _ => rfl) rfl rfl).ask
    (true, mkRecord (setMarker g.slot none s) (some n) g.uid (some g.slot) (.void cause))
  exact (R.same (u := voidCore n g cause s) (count_mem ..) (count_journal ..) (count_attn ..)).markerFree
    (fun _ => False.elim) (setMarker_none_shows g.slot hok.1)

/-- Settles O19: the void of the grant, its lane's event. -/
theorem grantTimersVoid : Obligations.GrantTimersVoid := by
  intro s n g hok hg c cause hc
  have B := Begun.self hok (besideWriter_slotMarker g.slot)
  have R := (B.ran.voided n g cause rfl).readied n .void
  have hlane := voidCore_lane n g cause s
  obtain ⟨hstate, hsetup, hwindow, hcue⟩ := readiedWith_of_window .void hlane (by rw [hg]; rfl)
    (now_of_rest (voidCore_rest ..)) ((B.ran.voided n g cause rfl).cueTable fun a ha => by
      rw [ha]
      unfold inCueTable inField passBase
      omega)
  have hports (p : Fin 4) : (enterReadyWith n .void (voidCore n g cause s)).port p = s.port p :=
    port_of_ports ((enterReadyWith_ports ..).trans (voidCore_ports ..)) p
  have hports' := (enterReadyWith_ports n .void (voidCore n g cause s)).trans (voidCore_ports ..)
  have hfree : markerFree (enterReadyWith n .void (voidCore n g cause s)) g.slot :=
    (congrArg (fun m => Memory.read m (passBase g.slot + 31) 1) (enterReadyWith_mem ..)).trans
      (markerFree_voidCore hok n g cause)
  have L := B.event R ((enterReadyWith_rest ..).trans (voidCore_rest ..))
    (fun m hm => (enterReadyWith_lane_other .void _ hm).trans (voidCore_lane_other g cause s hm)) fun p => by rw [hports]
  have hruns : exec c s = .next (settleOutputs s (enterReadyWith n .void (voidCore n g cause s))) := voidReady_runs hg hc
  generalize enterReadyWith n .void (voidCore n g cause s) = v at *
  refine ⟨_, hruns, (settled_state s v n).trans hstate, (L.peek (.inr (by unfold passBase; omega))).trans hfree,
    L.pledged hok R.pledged, settled_counted hwindow, settled_cue hcue, ?_, L.raised, ?_, L.keepsOthers, settled_setup hsetup,
    L.keeps (fun a ha => ?_) fun a ha => .inr (.inr ha)⟩
  · rw [settled_lock, lockReleased, hstate, evacuate_of_rest L.rest, Bool.or_false]
  · have heq := L.eq
    rw [hports', ← settleOutputs_attn s v] at heq
    exact heq
  · rcases ha with h | h
    · exact .inl h
    · exact .inr (.inl h)

/-! ### A referral denied UNKNOWN (R79 to R81) -/

section
variable {s : State} {k : Fin 32}

theorem declineReferral_unread (hok : s.ok) (h : 3 < s.peek (orderBase k.val + 19) 1 ∨ payloadUid s k = none) :
    declineReferral k (takeSlot k s) = endOrder k .badField (takeSlot k s) := by
  unfold declineReferral
  rw [payload_takeSlot k hok.1 (by decide), payloadUid_takeSlot k hok.1]
  rcases h with h | h
  · have hnone : fourOf (payload s k.val 19 1) = none := fourOf_none h
    rw [hnone]
  · rw [h]
    cases fourOf (payload s k.val 19 1) <;> rfl

section
variable {n : Fin 4} {uid : List Byte} (hok : s.ok) (hn : s.peek (orderBase k.val + 19) 1 = n.val)
  (hu : payloadUid s k = some uid)
include hok hn hu

theorem declineReferral_read :
    declineReferral k (takeSlot k s) =
      match (s.lane n).state with
      | .referred r =>
        if r.uid = uid then endOrder k .ok (denyReferralToReady n r none .unknown .decline (takeSlot k s))
        else endOrder k .stale (takeSlot k s)
      | _ => endOrder k .stale (takeSlot k s) := by
  have hlane : fourOf (payload s k.val 19 1) = some n := fourOf_val hn
  unfold declineReferral
  rw [payload_takeSlot k hok.1 (by decide), payloadUid_takeSlot k hok.1, hlane, hu]
  rfl

theorem declineReferral_stale (h : ∀ r, (s.lane n).state = .referred r → r.uid ≠ uid) :
    declineReferral k (takeSlot k s) = endOrder k .stale (takeSlot k s) := by
  rw [declineReferral_read hok hn hu]
  cases hl : (s.lane n).state with
  | referred r => exact if_neg (h r hl)
  | _ => rfl

theorem declineReferral_denies {r : Referral} (hr : (s.lane n).state = .referred r) (huid : r.uid = uid) :
    declineReferral k (takeSlot k s) =
      endOrder k .ok (denyReferralToReady n r none .unknown .decline (takeSlot k s)) := by
  rw [declineReferral_read hok hn hu, hr]
  exact if_pos huid

end

end

/-- What follows a take far from the Order Table leaves the slot taken and its kind. -/
theorem order_stands {s v : State} {k : Fin 32} {Q : Nat → Prop} {b : BitVec 8} {asks : List Asked} (hok : s.ok)
    (R : Ran (takeSlot k s) v Q b asks) (hQ : ∀ a, Q a → 0xE200 ≤ a) :
    orderState v k.val = 2 ∧ orderKind v k.val = orderKind s k.val := by
  have hk := k.isLt
  have far (x : Nat) (hx : x < 0x6200) : ¬Q x := fun h => by have := hQ x h; omega
  exact ⟨(R.peek (fun x _ h2 => far x (by unfold orderBase at h2; omega)) (.inl (by unfold orderBase; omega))).trans
      (orderState_takeSlot k hok.1),
    (R.peek (fun x _ h2 => far x (by unfold orderBase at h2; omega)) (.inl (by unfold orderBase; omega))).trans
      (orderKind_takeSlot k hok.1)⟩

/-- Settles O20: the referral ended by its timer, by the order that declines it, and the orders that decline none. -/
theorem referralEndsUnknown : Obligations.ReferralEndsUnknown := by
  refine ⟨fun s n r hok hr hend => ?_, fun s k n r hok hc hn hr hu => ?_, fun s k hok hc => ⟨fun h => ?_, fun n uid hn hu h => ?_⟩⟩
  · have B := Begun.self hok besideWriter_none
    have D := B.deniedReady n r.port r.uid none .unknown .timeout
    have L := B.denied_event D
    obtain ⟨hstate, hsetup, hcounted, hcue⟩ := B.deniedReady_lane n r.port r.uid none .unknown .timeout (fun _ => False.elim)
      (by rw [hr]; rfl)
    have hruns : exec (.referralTimeout n) s =
        .next (settleOutputs s (enterReadyWith n .deny (denyCore n r.port r.uid none .unknown .timeout s))) := by
      simp only [exec, execReferralTimeout, hr, if_pos hend]
      rfl
    generalize enterReadyWith n .deny (denyCore n r.port r.uid none .unknown .timeout s) = v at *
    refine ⟨_, hruns, (settled_state s v n).trans hstate, L.unpledged hok D.record, settled_show D.answered,
      settled_counted hcounted, settled_cue hcue, L.raised, ?_, L.keepsOthers, settled_setup hsetup,
      settled_otherPorts D.ports, L.keeps (fun a ha => .inl (ha.resolve_right id)) fun a ha => .inr ha⟩
    have heq := L.eq
    rw [← settleOutputs_attn s v] at heq
    exact heq
  · have B := takeSlot_begun hok k
    have D := B.deniedReady n r.port r.uid none .unknown .decline
    obtain ⟨hstate, hsetup, hcounted, hcue⟩ := B.deniedReady_lane n r.port r.uid none .unknown .decline
      (fun _ => inOrderEnd_cueTable) (by rw [hr]; rfl)
    have hruns : exec (.declineReferral k) s = .next (settleOutputs s (endOrder k .ok
        (enterReadyWith n .deny (denyCore n r.port r.uid none .unknown .decline (takeSlot k s))))) :=
      (carries_runs hc).trans (congrArg (fun v => Host.Outcome.next (settleOutputs s v))
        (declineReferral_denies hok hn hu hr rfl))
    have taken : (takeSlot k s).ok := ⟨takeSlot_wf k hok.1, hok.2⟩
    obtain ⟨hstands, hkind⟩ := order_stands hok
      ((Begun.self taken besideWriter_none).deniedReady n r.port r.uid none .unknown .decline).ran fun _ => False.elim
    have hended := orderEnded_settled (s := s) D.ran.wf hstands hkind (sweepNext_of_rest (s := takeSlot k s) D.rest) .ok
    have E := D.ended hstands (fun _ ha => ha) .ok
    have L := B.denied_event E
    have hlane : (endOrder k .ok (enterReadyWith n .deny (denyCore n r.port r.uid none .unknown .decline (takeSlot k s)))).lane n =
        (enterReadyWith n .deny (denyCore n r.port r.uid none .unknown .decline (takeSlot k s))).lane n :=
      lane_of_lanes (endOrder_lanes ..) n
    rw [← hlane] at hstate hsetup
    rw [countedOnce, ← hlane] at hcounted
    rw [cueHanded, ← hlane] at hcue
    generalize endOrder k .ok (enterReadyWith n .deny (denyCore n r.port r.uid none .unknown .decline (takeSlot k s))) = v at *
    refine ⟨_, hruns, hended, (settled_state s v n).trans hstate, L.unpledged hok E.record, settled_show E.answered,
      settled_counted hcounted, settled_cue hcue, L.raised, ?_, L.keepsOthers, settled_setup hsetup,
      settled_otherPorts E.ports, L.keeps (fun a ha => ?_) fun a ha => .inr (.inr ha)⟩
    · have heq := L.eq
      have hsweep : (settleOutputs s v).sweepNext = slotAfter k :=
        sweepNext_of_rest (s := takeSlot k s) ((settleOutputs_rest s v).trans L.rest)
      rw [← settleOutputs_attn s v] at heq
      rw [hsweep]
      exact heq
    · rcases ha with h | h
      · exact .inr (.inl h)
      · exact .inl h
  · exact carries_refused hok.1 hc (declineReferral_unread hok h)
  · exact carries_refused hok.1 hc (declineReferral_stale hok hn hu h)

end Sys2Proof.Machine
end

section
/-! PROOFS. A tap at a RETURN lane: the checks in order, the figures, and the start of a capture (R104, R149 to R154, R160 to
R164). -/

namespace Sys2Proof.Machine

/-! ### Eligibility and figures (R149 to R154) -/

section
variable {e : PassEntry} {d : Product} {today : Nat}

theorem periodFactor_within (h : (today : Int) ≤ validityEnd e d) : periodFactor e d today = some 1000 := if_pos h

theorem periodFactor_late (h : validityEnd e d < today) (hd : (today : Int) ≤ validityEnd e d + d.deadline) :
    periodFactor e d today = some d.late := by
  rw [periodFactor, if_neg (by omega), if_pos hd]

theorem periodFactor_past (h : validityEnd e d < today) (hd : validityEnd e d + d.deadline < today) :
    periodFactor e d today = none := by
  rw [periodFactor, if_neg (by omega), if_neg (by omega)]

/-- The figures of a DAYS or RIDES pass at a period factor. -/
theorem settle_figures (e : PassEntry) (d : Product) (phi : Nat) (hkind : d.kind = .days ∨ d.kind = .rides) :
    let unused := if d.kind = .days then e.usage % 256 - e.usage / 256 else min e.usage d.ridesInitial
    let gross := if d.kind = .days then e.paid - d.price unused else e.paid * unused / d.ridesInitial
    settle e d phi =
      { kind := d.kind, paid := e.paid, unused := unused, phi := phi, gross := gross, scaled := gross * phi / 1000
        net := if d.fee < gross * phi / 1000 then gross * phi / 1000 - d.fee else 0
        fee := d.fee, rounding := d.rounding, refund := refundOf gross phi d.fee d.rounding } := by
  intro unused gross
  have hunused : unusedCount e d = unused := by
    unfold unusedCount
    rcases hkind with h | h
    · simp only [unused, h, if_true, PassEntry.daysUsed, PassEntry.credited]
    · simp [unused, h]
  have hgross : grossRefund e d = gross := by
    unfold grossRefund
    rcases hkind with h | h
    · simp only [gross, unused, h, if_true, PassEntry.daysUsed, PassEntry.credited]
    · simp [gross, unused, h]
  have hnet : netRefund (gross * phi / 1000) d.fee =
      if d.fee < gross * phi / 1000 then gross * phi / 1000 - d.fee else 0 := by
    unfold netRefund
    split <;> omega
  simp only [settle, hunused, hgross, scaledRefund, hnet, roundedRefund, refundOf]

end

section
variable {s : State} {slot : Nat}

theorem settleEntry_blocked (h : (s.pass slot).blocked = true) : settleEntry s slot true = .error .blocked := by
  unfold settleEntry eligibility
  simp only [h, if_true]

variable (hb : (s.pass slot).blocked = false)
include hb

theorem settleEntry_retired (h : (s.pass slot).retired = true) : settleEntry s slot true = .error .retired := by
  unfold settleEntry eligibility
  simp [hb, h]

variable (hr : (s.pass slot).retired = false)
include hr

theorem settleEntry_marked (h : (s.pass slot).marker ≠ none) : settleEntry s slot true = .error .inUse := by
  unfold settleEntry eligibility
  simp [hb, hr, Option.isSome_iff_ne_none.mpr h]

variable (hm : (s.pass slot).marker = none)
include hm

theorem settleEntry_notRefundable
    (h : (s.product (s.pass slot).product).refundable = false
      ∨ ((s.product (s.pass slot).product).kind ≠ .days ∧ (s.product (s.pass slot).product).kind ≠ .rides)
      ∨ periodFactor (s.pass slot) (s.product (s.pass slot).product) s.day = none) :
    settleEntry s slot true = .error .notRefundable := by
  unfold settleEntry eligibility
  rcases h with h | ⟨h1, h2⟩ | h
  · simp [hb, hr, hm, h]
  · simp [hb, hr, hm, h1, h2]
  · by_cases hk : ((s.product (s.pass slot).product).kind = .days ∨ (s.product (s.pass slot).product).kind = .rides)
        ∧ (s.product (s.pass slot).product).refundable = true
    · simp [hb, hr, hm, h, hk]
    · simp [hb, hr, hm, h, hk]

theorem settleEntry_ok {phi : Nat} (hd : (s.product (s.pass slot).product).refundable = true)
    (hk : (s.product (s.pass slot).product).kind = .days ∨ (s.product (s.pass slot).product).kind = .rides)
    (hphi : periodFactor (s.pass slot) (s.product (s.pass slot).product) s.day = some phi) :
    settleEntry s slot true = .ok (settle (s.pass slot) (s.product (s.pass slot).product) phi) := by
  unfold settleEntry eligibility
  simp [hb, hr, hm, hd, hk, hphi]

end

/-! ### The checks of a READY lane in order (R161 to R163) -/

section
variable {s : State} {q : TapRecord}

theorem returnChecks_offline (h : s.online = false) :
    returnChecks q s = count q.lane .denied (handOutcome q.lane .deny (sendShow q.port .offline 0 s)) := if_pos h

variable (hon : s.online = true)
include hon

theorem returnChecks_unread (h : q.quality = 0) : returnChecks q s = denyTap q.lane q.port [] none .reread s := by
  rw [returnChecks, if_neg (by simp [hon]), if_pos h]

variable (hq : q.quality ≠ 0)
include hq

theorem returnChecks_miss (h : lookup s.mem q.uid = none) :
    returnChecks q s = denyTap q.lane q.port q.uid none .unknown s := by
  rw [returnChecks, if_neg (by simp [hon]), if_neg hq, h]

variable {slot : Nat} (hl : lookup s.mem q.uid = some slot)
include hl

theorem returnChecks_stale (h : q.stamp ≠ (s.pass slot).stamp) :
    returnChecks q s = denyTap q.lane q.port q.uid (some slot) .staleCard s := by
  rw [returnChecks, if_neg (by simp [hon]), if_neg hq, hl]
  exact if_pos h

variable (hstamp : q.stamp = (s.pass slot).stamp)
include hstamp

theorem returnChecks_ineligible {r : DenyReason} (h : settleEntry s slot true = .error r) :
    returnChecks q s = denyTap q.lane q.port q.uid (some slot) r s := by
  rw [returnChecks, if_neg (by simp [hon]), if_neg hq, hl]
  dsimp only
  rw [if_neg (by simp [hstamp]), h]

variable {f : Figures} (hf : settleEntry s slot true = .ok f)
include hf

/-- The card may be refunded: the refund and the room decide. -/
theorem returnChecks_eligible :
    returnChecks q s =
      if f.refund = 0 then handOutcome q.lane .refundNone (sendShow q.port .refundNone 0 s)
      else if s.journal.room < 5 then denyTap q.lane q.port q.uid (some slot) .journalFull s
      else startCapture q slot f s := by
  rw [returnChecks, if_neg (by simp [hon]), if_neg hq, hl]
  dsimp only
  rw [if_neg (by simp [hstamp]), hf]

end

/-! ### The start of a capture (R164) -/

section
variable (q : TapRecord) (slot : Nat) (f : Figures) (s : State)

/-- The lane CAPTURING, the marker set and a pledge taken, before the SHOW and the cue. -/
def captureEntered : State :=
  takePledge (setMarker slot (some q.lane)
    (s.modLane q.lane (·.enter (.capturing ⟨slot, q.uid, f, s.now, s.options.captureTimeout⟩))))

theorem startCapture_eq :
    startCapture q slot f s =
      handOutcome q.lane .returnCapture (sendShow q.port .refund f.refund (captureEntered q slot f s)) := rfl

theorem captureEntered_lanes :
    (captureEntered q slot f s).lanes =
      (s.modLane q.lane (·.enter (.capturing ⟨slot, q.uid, f, s.now, s.options.captureTimeout⟩))).lanes := rfl

theorem captureEntered_lane :
    (captureEntered q slot f s).lane q.lane =
      (s.lane q.lane).enter (.capturing ⟨slot, q.uid, f, s.now, s.options.captureTimeout⟩) := by
  rw [lane_of_lanes (captureEntered_lanes ..), lane_modLane_same]

theorem startCapture_mem : (startCapture q slot f s).mem = (setMarker slot (some q.lane) s).mem := by
  rw [startCapture_eq, handOutcome_mem, sendShow_mem]
  rfl

theorem startCapture_journal :
    (startCapture q slot f s).journal = { s.journal with pledges := s.journal.pledges + 1 } := by
  rw [startCapture_eq, handOutcome_journal, sendShow_journal]
  rfl

theorem startCapture_lane_other {m : Fin 4} (h : m ≠ q.lane) : (startCapture q slot f s).lane m = s.lane m := by
  rw [startCapture_eq, handOutcome_lane_other _ _ h, sendShow_lane, lane_of_lanes (captureEntered_lanes ..),
    lane_modLane_other _ _ h]

theorem startCapture_shows :
    showAsked s (startCapture q slot f s) q.port ⟨.refund, f.refund⟩ ∧ keepsOtherPorts s (startCapture q slot f s) q.port := by
  have hports := handOutcome_ports q.lane .returnCapture (sendShow q.port .refund f.refund (captureEntered q slot f s))
  exact ⟨(port_of_ports hports q.port).trans (sendShow_spec q.port .refund f.refund (captureEntered q slot f s)),
    fun p hp => (port_of_ports hports p).trans (sendShow_port_other .refund f.refund (captureEntered q slot f s) hp)⟩

/-- A lane whose capture started. -/
theorem startCapture_lane :
    ((startCapture q slot f s).lane q.lane).state = .capturing ⟨slot, q.uid, f, s.now, s.options.captureTimeout⟩
      ∧ ((startCapture q slot f s).lane q.lane).setup = (s.lane q.lane).setup
      ∧ ((startCapture q slot f s).lane q.lane).window = (s.lane q.lane).window := by
  rw [startCapture_eq, handOutcome_lane, sendShow_lane, captureEntered_lane, enter_lane]
  exact ⟨rfl, rfl, rfl⟩

theorem startCapture_cue {s : State} (h : s.mem.wf) (hd : (s.lane q.lane).state.isDown = false) :
    cueHanded s (startCapture q slot f s) q.lane .returnCapture := by
  have hlane := captureEntered_lane q slot f s
  rw [enter_lane] at hlane
  have hstands (x : Nat) (hx : inCueTable x) : (captureEntered q slot f s).mem.byteAt x = s.mem.byteAt x :=
    byteAt_setMarker slot (some q.lane) h (by unfold inCueTable inField at hx; unfold passBase; omega)
  rw [cueHanded, startCapture_eq]
  exact handOutcome_congr q.lane .returnCapture (by rw [sendShow_lane, hlane]) (by rw [sendShow_lane, hlane, hd]; rfl)
    (by rw [sendShow_lane, hlane]) (by rw [sendShow_lane, hlane]) rfl hstands

end

/-- The start of a capture from a state that shows the lane as it was. -/
theorem Begun.captures {s u : State} {Q : Nat → Prop} {b : BitVec 8} (B : Begun s u Q b) (q : TapRecord) (slot : Nat)
    (f : Figures) :
    LaneEvent s u (startCapture q slot f u) q.lane (fun a => a = passBase slot + 31 ∨ Q a) b where
  evacuate := B.evacuate
  shows := B.shows
  rest := startCapture_rest ..
  wf := by
    rw [startCapture_mem]
    exact setMarker_wf slot _ B.ran.wf
  attn := by
    rw [attnRaised, startCapture_attn]
    exact B.ran.attn
  bytes := fun a ha => by
    rw [startCapture_mem, byteAt_setMarker slot _ B.ran.wf fun h => ha (.inl h)]
    exact B.bytes a fun h => ha (.inr h)
  other := fun m hm => (startCapture_lane_other q slot f u hm).trans (B.lane m)
  ports := fun p => (portBytes_of_show (startCapture_shows q slot f u).1 (startCapture_shows q slot f u).2 p).trans (B.ports p)

end Sys2Proof.Machine
end

section
/-! PROOFS. A tap at a RETURN lane of a RUNNING station: the statement (R66, R104, R148 to R154, R160 to R163). -/

namespace Sys2Proof.Machine

/-! ### The frame heard (R49 to R51) -/

/-- The port after a TAP that is no repeat. -/
def tapHeard (s : State) (p : Fin 4) (q : Byte) (uid : List Byte) : State :=
  s.setPort p { s.port p with
    repeatRec := if q = 0 then (s.port p).repeatRec else some ⟨uid, s.now⟩, silence := some 0, gap := 0 }

theorem tapHeard_begun {s : State} (hok : s.ok) (p : Fin 4) (q : Byte) (uid : List Byte) :
    Begun s (tapHeard s p q uid) (fun _ => False) 0#8 where
  ran := Ran.start hok besideWriter_none hok.1 (fun _ _ => rfl) rfl rfl
  bytes := fun _ _ => rfl
  evacuate := rfl
  shows := rfl
  lanes := rfl
  ports := fun m => by
    by_cases hm : m = p
    · subst hm
      rw [tapHeard, port_setPort_same]
      rfl
    · rw [tapHeard, port_setPort_other _ _ hm]
  now := rfl
  day := rfl
  ms := rfl

theorem handTap_return {s : State} {t : TapRecord} (h : (s.lane t.lane).config.role = .ret) :
    handTap t s = takeReturnTap t s := by
  rw [handTap, h]

/-- A tap that is no repeat, at a RETURN lane of a RUNNING station, goes to the Settlement Unit at once (R50, R160). -/
theorem returnTap_runs {s : State} {p n : Fin 4} (hs : s.station = .running) (hn : servedLane s p = some n)
    (hrole : (s.lane n).config.role = .ret) (hp : (s.port p).parser = .hunt) (hsilent : (s.port p).silent = false)
    (hf : (s.port p).rfFault = false) {q : Byte} (hq : q.toNat ≤ 3) (stamp : Word) {uid : List Byte}
    (hu : uid.length = 4 ∨ uid.length = 7 ∨ uid.length = 10)
    (hnew : ∀ r, (s.port p).repeatRec = some r → r.uid ≠ uid ∨ 2000 ≤ s.now - r.tick ∨ q = 0) :
    exec (.tap p q stamp uid) s =
      .next (settleOutputs s (takeReturnTap ⟨n, p, q.toNat, stamp.toNat, uid⟩ (tapHeard s p q uid))) := by
  have inServ : inService s p = true := (inService_iff s p).mpr ⟨.inl hs, n, hn⟩
  rw [exec_tap (by rw [hs]; simp) hp hq stamp hu, hearFrame_sound (by simpa using inServ) (by simpa using hsilent),
    setPort_setPort, port_setPort_same]
  refine congrArg (fun v => Host.Outcome.next (settleOutputs s v)) ?_
  by_cases h0 : q = 0
  · subst h0
    rw [show (0 : Byte).toNat = 0 from rfl, actTap_unread (by simpa using hs) (by simpa using hn) (by simpa using hf)]
    exact handTap_return hrole
  · have hq0 : q.toNat ≠ 0 := fun h => h0 (BitVec.eq_of_toNat_eq h)
    have hfresh : ¬isRepeat (s.port p) uid s.now = true := by
      rw [isRepeat_iff]
      rintro ⟨r, hr, hsame, hlate⟩
      rcases hnew r hr with h | h | h
      · exact h hsame
      · omega
      · exact h0 h
    rw [actTap_read (by simpa using hs) (by simpa using hn) (by simpa using hf) hq0]
    simp only [port_setPort_same, setPort_setPort]
    have hheard : tapHeard s p q uid = s.setPort p { s.port p with repeatRec := some ⟨uid, s.now⟩, silence := some 0, gap := 0 } := by
      rw [tapHeard, if_neg h0]
    rw [hheard]
    exact (if_neg hfresh).trans (handTap_return hrole)

section
variable {s : State} {t : TapRecord} (hs : s.station = .running) (hrole : (s.lane t.lane).config.role = .ret)
include hs hrole

theorem takeReturnTap_ready {w : Option Nat} (h : (s.lane t.lane).state = .ready w) :
    takeReturnTap t s = returnChecks t s := by
  rw [takeReturnTap, if_pos ⟨hs, hrole⟩, h]

theorem takeReturnTap_capturing {c : Capture} (h : (s.lane t.lane).state = .capturing c) :
    takeReturnTap t s = if c.uid = t.uid then s else denyCore t.lane t.port t.uid none .laneBusy .none s := by
  rw [takeReturnTap, if_pos ⟨hs, hrole⟩, h]
  rfl

/-- At a DOWN, ARMING or FAULT lane, or one that holds the card in its capture. -/
theorem takeReturnTap_ignores (h : (s.lane t.lane).state.code = 0 ∨ (s.lane t.lane).state.code = 1
      ∨ (s.lane t.lane).state.code = 7 ∨ (∃ c, (s.lane t.lane).state = .capturing c ∧ c.uid = t.uid)) :
    takeReturnTap t s = s := by
  rw [takeReturnTap, if_pos ⟨hs, hrole⟩]
  cases hl : (s.lane t.lane).state with
  | down | arming _ | fault _ => rfl
  | capturing c =>
    obtain ⟨c', hc', hsame⟩ := h.resolve_left (by simp [hl, LaneState.code]) |>.resolve_left (by simp [hl, LaneState.code])
      |>.resolve_left (by simp [hl, LaneState.code])
    rw [hl] at hc'
    cases hc'
    exact if_pos hsame
  | _ => simp [hl, LaneState.code] at h

end

/-! ### A tap answered at a lane that stays as it is -/

/-- An event that answered a tap with SHOW, where the lane stays in its state: before its outputs settle. -/
structure Answered (s u v : State) (p n : Fin 4) (x : Show) (counts : Bool) (o : Option CueOutcome) (asks : List Asked) :
    Prop where
  ran : Ran s v (fun _ => False) 0#8 asks
  rest : v.rest = u.rest
  other : keepsOtherLanes u v n
  shown : showAsked u v p x
  ports : keepsOtherPorts u v p
  state : (v.lane n).state = (s.lane n).state
  setup : (v.lane n).setup = (s.lane n).setup
  window : if counts then countedOnce s v n .denied else (v.lane n).window = (s.lane n).window
  cues : cuesHanded s v n o.toList

section
variable {s u : State} (B : Begun s u (fun _ => False) 0#8)
include B

theorem Begun.answered_denyTap (p n : Fin 4) (uid : List Byte) (slot : Option Nat) (reason : DenyReason) :
    Answered s u (denyTap n p uid slot reason u) p n ⟨.deny reason, 0⟩ true (some .deny)
      [(false, ⟨some n, s.day, s.ms, uid, slot, .deny reason .none⟩)] := by
  have D := B.deniedTap n p uid slot reason
  obtain ⟨hstate, hsetup, hcounted, hcue⟩ := B.deniedTap_lane (fun _ => False.elim) n p uid slot reason
  exact ⟨D.ran, D.rest, D.other, D.answered, D.ports, hstate, hsetup, hcounted, hcue⟩

theorem Begun.answered_busy (p n : Fin 4) (uid : List Byte) :
    Answered s u (denyCore n p uid none .laneBusy .none u) p n ⟨.deny .laneBusy, 0⟩ true none
      [(false, ⟨some n, s.day, s.ms, uid, none, .deny .laneBusy .none⟩)] := by
  have D := B.denied n p uid none .laneBusy .none
  have hlane := denyCore_counted n p uid none .laneBusy .none u
  rw [B.lane] at hlane
  refine ⟨D.ran, D.rest, D.other, D.answered, D.ports, by rw [hlane], by rw [hlane]; rfl, ?_, ?_⟩
  · rw [if_pos rfl, countedOnce, hlane]
  · rw [cuesHanded, hlane]
    exact ⟨rfl, rfl⟩

/-- SHOW and a cue, without a record. -/
theorem Begun.answered_plain (p n : Fin 4) (code : ShowCode) (o : CueOutcome) :
    Answered s u (handOutcome n o (sendShow p code 0 u)) p n ⟨code, 0⟩ false (some o) [] := by
  have hports := handOutcome_ports n o (sendShow p code 0 u)
  have hlane := handOutcome_lane n o (sendShow p code 0 u)
  rw [sendShow_lane, B.lane] at hlane
  refine ⟨(B.ran.same (sendShow_mem ..) (sendShow_journal ..) (sendShow_attn ..)).handed n o,
    (handOutcome_rest ..).trans (sendShow_rest ..), fun m hm => (handOutcome_lane_other o _ hm).trans (sendShow_lane ..),
    (port_of_ports hports p).trans (sendShow_spec p code 0 u),
    fun m hm => (port_of_ports hports m).trans (sendShow_port_other code 0 u hm), by rw [hlane], by rw [hlane]; rfl, ?_, ?_⟩
  · rw [hlane]
    rfl
  · exact B.cue (fun _ => False.elim) (handOutcome_congr n o (by rw [sendShow_lane]) (by rw [sendShow_lane])
      (by rw [sendShow_lane]) (by rw [sendShow_lane]) rfl fun _ _ => rfl)

/-- OFFLINE: the answer, and a DENIED counted (R163). -/
theorem Begun.answered_offline (p n : Fin 4) :
    Answered s u (count n .denied (handOutcome n .deny (sendShow p .offline 0 u))) p n ⟨.offline, 0⟩ true (some .deny) [] := by
  obtain ⟨hran, hrest, hother, hshown, hports, hstate, hsetup, hwindow, hcue⟩ := B.answered_plain p n .offline .deny
  generalize handOutcome n .deny (sendShow p .offline 0 u) = v at *
  have hlane := count_lane n .denied v
  refine ⟨hran.same (count_mem ..) (count_journal ..) (count_attn ..), (count_rest ..).trans hrest,
    fun m hm => (count_lane_other .denied v hm).trans (hother m hm), (port_of_ports (count_ports ..) p).trans hshown,
    fun m hm => (port_of_ports (count_ports ..) m).trans (hports m hm), by rw [hlane]; exact hstate,
    by rw [hlane]; exact hsetup, ?_, ?_⟩
  · rw [if_neg (by decide)] at hwindow
    rw [if_pos rfl, countedOnce, hlane, hwindow]
  · rw [cuesHanded, hlane]
    exact hcue

end

/-- A run of records stands once the outputs settle. -/
theorem Ran.settled_recorded {s v : State} {Q : Nat → Prop} {b : BitVec 8} {asks : List Asked} (R : Ran s v Q b asks)
    (before : State) : Machine.recorded s (settleOutputs before v) asks := by
  refine (recorded_iff ..).mpr (R.records.right (fun w hw => ((askedAll_within R.indexed asks).behind w hw).1)
    (settleOutputs_journal ..) (fun a ha => ?_) (by rw [sameCauses, settleOutputs_attn]; exact ⟨rfl, rfl⟩))
  unfold inWriter at ha
  exact byteAt_settleOutputs_outside before R.wf (.inl (by unfold inField hdrState; omega)) fun m hm => by
    have := inLaneMirror_region hm
    omega

/-- What an answered tap leaves once its outputs settle. -/
theorem Begun.answers {s u v : State} (B : Begun s u (fun _ => False) 0#8) {p n : Fin 4} {x : Show} {counts : Bool}
    {o : Option CueOutcome} {asks : List Asked} (A : Answered s u v p n x counts o asks) :
    let t := settleOutputs s v
    showAsked u t p x ∧ keepsOtherPorts u t p
      ∧ (t.lane n).state = (s.lane n).state ∧ keepsSetup s t n ∧ keepsOtherLanes s t n
      ∧ (if counts then countedOnce s t n .denied else (t.lane n).window = (s.lane n).window)
      ∧ cuesHanded s t n o.toList ∧ recorded s t asks ∧ attnRaised s t 0
      ∧ t = { u with mem := t.mem, attn := t.attn, lanes := t.lanes, ports := t.ports, journal := t.journal }
      ∧ keepsBytes s t (fun a => inAppends s asks.length a ∨ inField (laneBlockBase n.val + 80) 22 a
          ∨ inField (laneBlockBase n.val + 112) 6 a) := by
  have L : LaneEvent s u v n (inAppends s asks.length) 0#8 := ⟨B.evacuate, B.shows, A.rest, A.ran.wf, A.ran.attn,
    (fun a ha => A.ran.bytes a id ha), fun m hm => (A.other m hm).trans (B.lane m),
    fun q => (portBytes_of_show A.shown A.ports q).trans (B.ports q)⟩
  refine ⟨settled_show A.shown, settled_otherPorts A.ports, (settled_state s v n).trans A.state, settled_setup A.setup,
    L.keepsOthers, ?_, ?_, A.ran.settled_recorded s, L.raised, ?_, ?_⟩
  · cases counts with
    | true => exact settled_counted A.window
    | false => exact (settled_window s v n).trans A.window
  · rw [cuesHanded, settleOutputs_lane_eq]
    exact A.cues
  · have heq := L.eq
    rw [← settleOutputs_attn s v] at heq
    exact heq
  · exact L.keeps_shown A.state A.setup (fun a ha => .inl ha) (fun _ a ha => .inr (.inl ha)) fun _ a ha => .inr (.inr ha)

/-- The start of a capture once its outputs settle. -/
theorem Begun.captured {s u : State} (B : Begun s u (fun _ => False) 0#8) (q : TapRecord) (slot : Nat)
    (f : Figures) (hd : (s.lane q.lane).state.isDown = false) :
    let t := settleOutputs s (startCapture q slot f u)
    (t.lane q.lane).state = .capturing ⟨slot, q.uid, f, u.now, u.options.captureTimeout⟩
      ∧ t.peek (passBase slot + 31) 1 = q.lane.val ∧ capturePin t q.lane = true
      ∧ t.journal = { u.journal with pledges := u.journal.pledges + 1 } ∧ showAsked u t q.port ⟨.refund, f.refund⟩
      ∧ cueHanded s t q.lane .returnCapture ∧ (t.lane q.lane).window = (s.lane q.lane).window ∧ keepsSetup s t q.lane
      ∧ t = { u with mem := t.mem, lanes := t.lanes, ports := t.ports, journal := t.journal }
      ∧ keepsOtherLanes s t q.lane ∧ keepsOtherPorts u t q.port
      ∧ keepsBytes s t (fun a => a = passBase slot + 31 ∨ inLaneMirror q.lane a) := by
  have L := B.captures q slot f
  obtain ⟨hstate, hsetup, hwindow⟩ := startCapture_lane q slot f u
  obtain ⟨hshown, hports⟩ := startCapture_shows q slot f u
  have hcue := startCapture_cue q slot f B.ran.wf (by rw [B.lane]; exact hd)
  have hjournal := startCapture_journal q slot f u
  have hattn := startCapture_attn q slot f u
  have hmarker : (startCapture q slot f u).peek (passBase slot + 31) 1 = q.lane.val := by
    rw [State.peek, startCapture_mem]
    exact peek_setMarker slot (some q.lane) B.ran.wf
  rw [B.lane] at hsetup hwindow
  generalize startCapture q slot f u = v at *
  refine ⟨(settled_state s v _).trans hstate, (L.peek (.inr (by unfold passBase; omega))).trans hmarker, ?_, hjournal,
    settled_show hshown, settled_cue (B.cue (fun _ => False.elim) hcue), (settled_window s v _).trans hwindow,
    settled_setup hsetup, ?_, L.keepsOthers, settled_otherPorts hports,
    L.keeps (fun a ha => .inl (ha.resolve_right id)) fun a ha => .inr ha⟩
  · rw [capturePin, settled_state, hstate]
  · have heq := L.eq
    rw [hattn] at heq
    exact heq

/-- Settles O12: the checks in order, each answered, then the capture; and the lanes that do not read the card. -/
theorem returnTapStartsCapture : Obligations.ReturnTapStartsCapture := by
  intro s p n q stamp uid hok hs hn hrole hp hsilent hf hq hu hnew heard e d lastDay unused gross refundable refund answered denied
  have B : Begun s heard (fun _ => False) 0#8 := tapHeard_begun hok p q uid
  have runs {v : State} (h : takeReturnTap ⟨n, p, q.toNat, stamp.toNat, uid⟩ heard = v) :
      exec (.tap p q stamp uid) s = .next (settleOutputs s v) := by
    rw [returnTap_runs hs hn hrole hp hsilent hf hq stamp hu hnew]
    exact congrArg (fun v => Host.Outcome.next (settleOutputs s v)) h
  have answers {v : State} {x : Show} {counts : Bool} {o : Option CueOutcome} {asks : List Asked}
      (h : takeReturnTap ⟨n, p, q.toNat, stamp.toNat, uid⟩ heard = v) (A : Answered s heard v p n x counts o asks) :
      answered x counts o asks := by
    obtain ⟨hshown, hports, hrest⟩ := B.answers A
    exact ⟨_, runs h, hshown, fun m hm => (hports m hm).trans (port_setPort_other _ _ hm), hrest⟩
  refine ⟨fun w hready => ?_, fun h => ?_, fun c hc hother => ?_⟩
  · have hchecks : takeReturnTap ⟨n, p, q.toNat, stamp.toNat, uid⟩ heard = returnChecks ⟨n, p, q.toNat, stamp.toNat, uid⟩ heard :=
      takeReturnTap_ready (s := heard) hs hrole hready
    have denies {uid' : List Byte} {slot : Option Nat} {reason : DenyReason}
        (h : returnChecks ⟨n, p, q.toNat, stamp.toNat, uid⟩ heard = denyTap n p uid' slot reason heard) :
        denied uid' slot reason := answers (hchecks.trans h) (B.answered_denyTap p n uid' slot reason)
    have hread (h : q ≠ 0) : q.toNat ≠ 0 := fun h' => h (BitVec.eq_of_toNat_eq h')
    refine ⟨fun hoff => ?_, fun hon h0 => ?_, fun hon h0 hl => ?_, fun slot hon h0 hl => ⟨fun hstamp => ?_, fun hstamp => ?_⟩⟩
    · exact answers (hchecks.trans (returnChecks_offline (s := heard) hoff)) (B.answered_offline p n)
    · exact denies (returnChecks_unread (s := heard) hon (by rw [h0]; rfl))
    · exact denies (returnChecks_miss (s := heard) hon (hread h0) hl)
    · exact denies (returnChecks_stale (s := heard) hon (hread h0) hl hstamp)
    · have ineligible {r : DenyReason} (h : settleEntry heard slot true = .error r) : denied uid (some slot) r :=
        denies (returnChecks_ineligible (q := ⟨n, p, q.toNat, stamp.toNat, uid⟩) (s := heard) hon (hread h0) hl hstamp h)
      have hlast : lastDay slot = validityEnd (e slot) (d slot) := by
        dsimp only [lastDay]
        unfold validityEnd
        cases (e slot).firstDay <;> rfl
      refine ⟨fun h => ineligible (settleEntry_blocked (s := heard) h), fun hb h => ineligible (settleEntry_retired (s := heard) hb h),
        fun hb hr h => ineligible (settleEntry_marked (s := heard) hb hr h), fun hb hr hm h => ?_, fun phi hphi => ?_⟩
      · refine ineligible (settleEntry_notRefundable (s := heard) hb hr hm (h.imp_right (Or.imp_right fun hpast => ?_)))
        rw [hlast] at hpast
        exact periodFactor_past hpast.1 hpast.2
      · obtain ⟨hb, hr, hm, href, hkind, hperiod⟩ := hphi
        rw [hlast] at hperiod
        have hfactor : periodFactor (e slot) (d slot) s.day = some phi := by
          rcases hperiod with ⟨hin, rfl⟩ | ⟨hpast, hlate, rfl⟩
          · exact periodFactor_within hin
          · exact periodFactor_late hpast hlate
        have hfigures := settle_figures (e slot) (d slot) phi hkind
        have heligible := returnChecks_eligible (q := ⟨n, p, q.toNat, stamp.toNat, uid⟩) (s := heard) hon (hread h0) hl hstamp
          (settleEntry_ok (s := heard) hb hr hm href hkind hfactor)
        have hamount : (settle (e slot) (d slot) phi).refund = refund slot phi := congrArg Figures.refund hfigures
        have hchecked : takeReturnTap ⟨n, p, q.toNat, stamp.toNat, uid⟩ heard =
            if refund slot phi = 0 then handOutcome n .refundNone (sendShow p .refundNone 0 heard)
            else if s.journal.room < 5 then denyTap n p uid (some slot) .journalFull heard
            else startCapture ⟨n, p, q.toNat, stamp.toNat, uid⟩ slot (settle (e slot) (d slot) phi) heard := by
          rw [← hamount]
          exact hchecks.trans heligible
        refine ⟨fun h => ?_, fun h hroom => ?_, fun h hroom => ?_⟩
        · exact answers (hchecked.trans (if_pos h)) (B.answered_plain p n .refundNone .refundNone)
        · exact answers (hchecked.trans ((if_neg h).trans (if_pos hroom)))
            (B.answered_denyTap p n uid (some slot) .journalFull)
        · have hstarts := hchecked.trans ((if_neg h).trans (if_neg (by omega)))
          obtain ⟨hstate, hmarker, hpin, hjournal, hshown, hcue, hwindow, hsetup, heq, hothers, hports, hkeeps⟩ :=
            B.captured ⟨n, p, q.toNat, stamp.toNat, uid⟩ slot (settle (e slot) (d slot) phi)
              (by rw [show (s.lane n).state = .ready w from hready]; rfl)
          rw [hamount] at hshown
          exact ⟨_, runs hstarts, hstate.trans (congrArg (fun f => LaneState.capturing
            ⟨slot, uid, f, s.now, s.options.captureTimeout⟩) hfigures), hmarker, hpin, hjournal, hshown, hcue, hwindow, hsetup, heq, hothers,
            fun m hm => (hports m hm).trans (port_setPort_other _ _ hm), hkeeps⟩
  · rw [runs (takeReturnTap_ignores (s := heard) hs hrole h)]
    exact congrArg _ (settleOutputs_unshown rfl B.ports rfl rfl)
  · refine answers ((takeReturnTap_capturing (t := ⟨n, p, q.toNat, stamp.toNat, uid⟩) (s := heard) hs hrole hc).trans (if_neg hother)) (B.answered_busy p n uid)

end Sys2Proof.Machine
end

section
/-! PROOFS. Free flow frees one lane: the grant or referral it displaces, and the lane FREE (R73, R82, R105). -/

namespace Sys2Proof.Machine

/-! ### The end of a grant or a referral but for the cue -/

/-- The grant voided, or the referral denied, with FREE_FLOW: all but the cue and the state the lane goes on to. -/
def displaced (n : Fin 4) (s : State) : State :=
  match (s.lane n).state with
  | .granted g => voidCore n g .freeFlow s
  | .referred r => denyCore n r.port r.uid none .freeFlow .freeFlow s
  | _ => s

/-- The record of a grant or referral that free flow ends. -/
def flowAsk (s : State) (n : Fin 4) : Option Asked := displacedAsk s .freeFlow .freeFlow .freeFlow n

theorem displaced_granted {s : State} {n : Fin 4} {g : Grant} (h : (s.lane n).state = .granted g) :
    displaced n s = voidCore n g .freeFlow s
      ∧ flowAsk s n = some (true, ⟨some n, s.day, s.ms, g.uid, some g.slot, .void .freeFlow⟩) := by
  rw [displaced, flowAsk, displacedAsk, h]
  exact ⟨rfl, rfl⟩

theorem displaced_referred {s : State} {n : Fin 4} {r : Referral} (h : (s.lane n).state = .referred r) :
    displaced n s = denyCore n r.port r.uid none .freeFlow .freeFlow s
      ∧ flowAsk s n = some (false, ⟨some n, s.day, s.ms, r.uid, none, .deny .freeFlow .freeFlow⟩) := by
  rw [displaced, flowAsk, displacedAsk, h]
  exact ⟨rfl, rfl⟩

/-- Neither a grant nor a referral. -/
theorem displaced_none {s : State} {n : Fin 4} (hg : ∀ g, (s.lane n).state ≠ .granted g)
    (hr : ∀ r, (s.lane n).state ≠ .referred r) :
    displaced n s = s ∧ flowAsk s n = none ∧ (s.lane n).displacedWindow = (s.lane n).window := by
  cases hs : (s.lane n).state with
  | granted g => exact absurd hs (hg g)
  | referred r => exact absurd hs (hr r)
  | _ => simp [displaced, flowAsk, displacedAsk, Lane.displacedWindow, hs]

theorem displaced_rest (n : Fin 4) (s : State) : (displaced n s).rest = s.rest := by
  unfold displaced
  split
  · exact voidCore_rest ..
  · exact denyCore_rest ..
  · rfl

/-- The lane's window counts the VOID or the DENIED. -/
theorem displaced_lane (n : Fin 4) (s : State) :
    (displaced n s).lane n = { s.lane n with window := (s.lane n).displacedWindow } := by
  rcases held_cases (s.lane n).state with ⟨g, h⟩ | ⟨r, h⟩ | ⟨hg, hr⟩
  · rw [(displaced_granted h).1, voidCore_lane, Lane.displacedWindow, h]
  · rw [(displaced_referred h).1, denyCore_counted, Lane.displacedWindow, h]
  · obtain ⟨hsame, -, hwindow⟩ := displaced_none hg hr
    rw [hsame, hwindow]

theorem displaced_lane_other {n m : Fin 4} (s : State) (h : m ≠ n) : (displaced n s).lane m = s.lane m := by
  unfold displaced
  split
  · exact voidCore_lane_other _ _ _ h
  · exact denyCore_lane_other _ _ _ _ _ _ h
  · rfl

/-- The port of a referral is asked for SHOW with the reason, and the other ports stand. -/
theorem displaced_port (n : Fin 4) (s : State) :
    (∀ r, (s.lane n).state = .referred r → (displaced n s).port r.port = (s.port r.port).asked ⟨.deny .freeFlow, 0⟩)
      ∧ ∀ p, (∀ r, (s.lane n).state = .referred r → r.port ≠ p) → (displaced n s).port p = s.port p := by
  refine ⟨fun r h => ?_, fun p hp => ?_⟩
  · rw [(displaced_referred h).1]
    exact (denyCore_shows ..).1
  · rcases held_cases (s.lane n).state with ⟨g, h⟩ | ⟨r, h⟩ | ⟨hg, hr⟩
    · rw [(displaced_granted h).1]
      exact port_of_ports (voidCore_ports ..) p
    · rw [(displaced_referred h).1]
      exact (denyCore_shows ..).2 p (Ne.symm (hp r h))
    · rw [(displaced_none hg hr).1]

/-- The record of R73 or R82 is asked for, and the grant's marker is written. -/
theorem Ran.displaced {s t : State} {n : Fin 4} {Q : Nat → Prop} {b : BitVec 8} {asks : List Asked} (R : Ran s t Q b asks)
    (hQ : ∀ g, (t.lane n).state = .granted g → Q (passBase g.slot + 31)) :
    Ran s (displaced n t) Q b (asks ++ (flowAsk t n).toList) := by
  rcases held_cases (t.lane n).state with ⟨g, h⟩ | ⟨r, h⟩ | ⟨hg, hr⟩
  · obtain ⟨hsame, hask⟩ := displaced_granted h
    rw [hsame, hask]
    exact R.voided n g .freeFlow (hQ g h)
  · obtain ⟨hsame, hask⟩ := displaced_referred h
    rw [hsame, hask]
    exact R.denied n r.port r.uid none .freeFlow .freeFlow
  · obtain ⟨hsame, hask, -⟩ := displaced_none hg hr
    rw [hsame, hask]
    simpa using R

/-- Ending a grant sets its marker to NONE, and one that reads NONE stays. -/
theorem displaced_markerFree {s : State} (hok : s.ok) {n : Fin 4} {slot : Nat}
    (h : markerFree s slot ∨ ∃ g, (s.lane n).state = .granted g ∧ g.slot = slot) : markerFree (displaced n s) slot := by
  rcases held_cases (s.lane n).state with ⟨g, hg⟩ | ⟨r, hr⟩ | ⟨hg, hr⟩
  · have hfree : markerFree (setMarker g.slot none s) slot := by
      refine setMarker_none_stands slot g.slot hok.1 (h.imp id ?_)
      rintro ⟨q, hq, rfl⟩
      exact LaneState.granted.inj (hq.symm.trans hg) ▸ rfl
    have hmarked : (setMarker g.slot none s).ok := ⟨setMarker_wf g.slot none hok.1, hok.2⟩
    rw [(displaced_granted hg).1]
    exact (((Ran.start (Q := fun _ => False) hmarked besideWriter_none hmarked.1 (fun _ _ => rfl) rfl rfl).ask
      (true, _)).same (count_mem ..) (count_journal ..) (count_attn ..)).markerFree (fun _ => False.elim) hfree
  · have hfree := h.resolve_right fun ⟨g, hg, _⟩ => by rw [hr] at hg; cases hg
    have R := Ran.start (Q := fun _ => False) hok besideWriter_none hok.1 (fun _ _ => rfl) rfl rfl
    exact (R.displaced fun g hg => by rw [hr] at hg; cases hg).markerFree (fun _ => False.elim) hfree
  · rw [(displaced_none hg hr).1]
    exact h.resolve_right fun ⟨g, h, _⟩ => hg g h

/-! ### The lane FREE -/

/-- The grant or referral ended and the lane FREE, before a SET_LANE that waits for it is carried out. -/
def freed (n : Fin 4) (s : State) : State :=
  enterFree n ((s.lane n).state.displacedCue.foldl (fun u o => handOutcome n o u) (displaced n s))

theorem handOutcomes_kept (n : Fin 4) (l : List CueOutcome) (s : State) :
    (l.foldl (fun u o => handOutcome n o u) s).rest = s.rest ∧ (l.foldl (fun u o => handOutcome n o u) s).mem = s.mem
      ∧ (l.foldl (fun u o => handOutcome n o u) s).attn = s.attn
      ∧ (l.foldl (fun u o => handOutcome n o u) s).ports = s.ports
      ∧ (l.foldl (fun u o => handOutcome n o u) s).journal = s.journal := by
  induction l generalizing s with
  | nil => exact ⟨rfl, rfl, rfl, rfl, rfl⟩
  | cons o l ih =>
    obtain ⟨hrest, hmem, hattn, hports, hjournal⟩ := ih (handOutcome n o s)
    exact ⟨hrest.trans (handOutcome_rest ..), hmem.trans (handOutcome_mem ..), hattn.trans (handOutcome_attn ..),
      hports.trans (handOutcome_ports ..), hjournal.trans (handOutcome_journal ..)⟩

theorem handOutcomes_lane (n : Fin 4) (l : List CueOutcome) (s : State) :
    (l.foldl (fun u o => handOutcome n o u) s).lane n = { s.lane n with
        cue := ((l.foldl (fun u o => handOutcome n o u) s).lane n).cue
        levels := ((l.foldl (fun u o => handOutcome n o u) s).lane n).levels }
      ∧ ∀ m ≠ n, (l.foldl (fun u o => handOutcome n o u) s).lane m = s.lane m := by
  induction l generalizing s with
  | nil => exact ⟨rfl, fun _ _ => rfl⟩
  | cons o l ih =>
    obtain ⟨hlane, hother⟩ := ih (handOutcome n o s)
    refine ⟨?_, fun m hm => (hother m hm).trans (handOutcome_lane_other o s hm)⟩
    rw [List.foldl_cons, hlane, handOutcome_lane]

theorem handOutcomes_congr (n : Fin 4) (l : List CueOutcome) {s t : State} (hc : (t.lane n).config = (s.lane n).config)
    (hd : (t.lane n).state.isDown = (s.lane n).state.isDown) (hq : (t.lane n).cue = (s.lane n).cue)
    (hl : (t.lane n).levels = (s.lane n).levels) (hn : t.now = s.now)
    (hm : ∀ x, inCueTable x → t.mem.byteAt x = s.mem.byteAt x) :
    cuesHanded s (l.foldl (fun u o => handOutcome n o u) t) n l := by
  induction l generalizing s t with
  | nil => exact ⟨hq, hl⟩
  | cons o l ih =>
    obtain ⟨hcue, hlevels⟩ := handOutcome_congr n o hc hd hq hl hn hm
    have hs := handOutcome_lane n o s
    have ht := handOutcome_lane n o t
    refine ih (s := handOutcome n o s) (t := handOutcome n o t) ?_ ?_ hcue hlevels ?_ ?_
    · rw [hs, ht]
      exact hc
    · rw [hs, ht]
      exact hd
    · rw [handOutcome_now, handOutcome_now, hn]
    · rw [handOutcome_mem, handOutcome_mem]
      exact hm

theorem freed_kept (n : Fin 4) (s : State) :
    (freed n s).rest = s.rest ∧ (freed n s).mem = (displaced n s).mem ∧ (freed n s).attn = (displaced n s).attn
      ∧ (freed n s).ports = (displaced n s).ports ∧ (freed n s).journal = (displaced n s).journal := by
  obtain ⟨hrest, hmem, hattn, hports, hjournal⟩ := handOutcomes_kept n (s.lane n).state.displacedCue (displaced n s)
  exact ⟨(enterFree_rest ..).trans (hrest.trans (displaced_rest n s)), (enterFree_mem ..).trans hmem,
    (enterFree_attn ..).trans hattn, (enterFree_ports ..).trans hports, (enterFree_journal ..).trans hjournal⟩

/-- A lane freed from what `s` holds for it, but for its lock's pulse. -/
def laneFreed (s : State) (n : Fin 4) (l : Lane) : Prop :=
  l.state = .free ∧ l.setup = (s.lane n).setup ∧ l.window = markedPartial (s.lane n).displacedWindow
    ∧ (l.cue = ((((s.lane n).state.displacedCue ++ [CueOutcome.free]).foldl (fun u o => handOutcome n o u) s).lane n).cue
      ∧ l.levels = ((((s.lane n).state.displacedCue ++ [CueOutcome.free]).foldl (fun u o => handOutcome n o u) s).lane n).levels)
    ∧ l.latestEntry = (s.lane n).latestEntry ∧ l.stuckEntry = 0 ∧ l.stuckExit = 0 ∧ l.stuckSwitch = 0

theorem enterFree_lane (n : Fin 4) (s : State) :
    (enterFree n s).lane n = { s.lane n with
        state := .free, window := markedPartial (s.lane n).window, stuckEntry := 0, stuckExit := 0, stuckSwitch := 0
        cue := ((enterFree n s).lane n).cue, levels := ((enterFree n s).lane n).levels }
      ∧ ∀ m ≠ n, (enterFree n s).lane m = s.lane m := by
  have hentered : (s.lane n).enter .free = { s.lane n with state := .free, stuckEntry := 0, stuckExit := 0, stuckSwitch := 0 } := by
    unfold Lane.enter
    exact if_neg (by simp [LaneState.stuckRuns])
  refine ⟨?_, fun m hm => ?_⟩
  · conv_lhs => rw [enterFree, handOutcome_lane]
    rw [markPartial, lane_modLane_same, lane_modLane_same, hentered]
    rfl
  · rw [enterFree, handOutcome_lane_other _ _ hm, markPartial, lane_modLane_other _ _ hm, lane_modLane_other _ _ hm]

theorem freed_lane_other {n m : Fin 4} (s : State) (h : m ≠ n) : (freed n s).lane m = s.lane m := by
  rw [freed, (enterFree_lane n _).2 m h, (handOutcomes_lane n _ _).2 m h, displaced_lane_other s h]

/-- A lane freed has its window counted and marked, and its cues handed. -/
theorem freed_lane {s t : State} {n : Fin 4} (hlane : t.lane n = s.lane n) (hd : (s.lane n).state ≠ .down)
    (hnow : t.now = s.now) (hmem : ∀ x, inCueTable x → (displaced n t).mem.byteAt x = s.mem.byteAt x) :
    laneFreed s n ((freed n t).lane n) := by
  have hup : (s.lane n).state.isDown = false := by
    cases h : (s.lane n).state with
    | down => exact absurd h hd
    | _ => rfl
  have hheld := displaced_lane n t
  have hnow' : (displaced n t).now = s.now := (now_of_rest (displaced_rest n t)).trans hnow
  rw [hlane] at hheld
  have hcues := handOutcomes_congr n (s.lane n).state.displacedCue (s := s) (t := displaced n t) (by rw [hheld])
    (by rw [hheld]) (by rw [hheld]) (by rw [hheld]) hnow' hmem
  obtain ⟨hlane', -⟩ := handOutcomes_lane n (s.lane n).state.displacedCue (displaced n t)
  obtain ⟨hslane, -⟩ := handOutcomes_lane n (s.lane n).state.displacedCue s
  obtain ⟨hrest, hmem', -⟩ := handOutcomes_kept n (s.lane n).state.displacedCue (displaced n t)
  obtain ⟨hsrest, hsmem, -⟩ := handOutcomes_kept n (s.lane n).state.displacedCue s
  rw [freed, hlane]
  generalize (s.lane n).state.displacedCue.foldl (fun u o => handOutcome n o u) (displaced n t) = u at *
  obtain ⟨hfreed, -⟩ := enterFree_lane n u
  have hfree : cueHanded ((s.lane n).state.displacedCue.foldl (fun u o => handOutcome n o u) s) (enterFree n u) n .free := by
    have hentered : (markPartial n (u.modLane n (·.enter .free))).lane n =
        { (u.lane n).enter .free with window := markedPartial ((u.lane n).enter .free).window } := by
      rw [markPartial, lane_modLane_same, lane_modLane_same]
      rfl
    rw [enter_lane] at hentered
    refine handOutcome_congr n .free ?_ ?_ ?_ ?_ ?_ ?_
    · rw [hentered, hlane', hheld, hslane]
    · rw [hentered, hslane]
      exact hup.symm
    · rw [hentered]
      exact hcues.1
    · rw [hentered]
      exact hcues.2
    · exact (now_of_rest hrest).trans (hnow'.trans (now_of_rest hsrest).symm)
    · intro x hx
      rw [hsmem, ← hmem x hx, ← hmem']
      rfl
  rw [laneFreed, List.foldl_append, List.foldl_cons, List.foldl_nil]
  refine ⟨?_, ?_, ?_, hfree, ?_, ?_, ?_, ?_⟩ <;> rw [hfreed]
  · rw [hlane', hheld]
    rfl
  · rw [hlane', hheld]
  · rw [hlane', hheld]

/-! ### What free flow does at a lane (R105) -/

section
variable {n : Fin 4} {s : State}

theorem freeLane_stays (h : ¬freesLane s n) : freeLane n s = s := by
  unfold freeLane
  split
  · next hrole =>
    cases hs : (s.lane n).state with
    | down | free => rfl
    | _ => exact absurd ⟨hrole, by simp [hs], by simp [hs]⟩ h
  · rfl

theorem freeLane_passing {p : Passage} (h : freesLane s n) (hp : (s.lane n).state = .passing p) :
    freeLane n s = runWaiting n (freed n s) := by
  rw [freeLane, if_pos h.1, freed, displaced, hp]
  rfl

theorem freeLane_frees (h : freesLane s n) (hp : (s.lane n).state.code ≠ 5) : freeLane n s = freed n s := by
  obtain ⟨hrole, hdown, hfree⟩ := h
  rw [freeLane, if_pos hrole, freed, displaced]
  cases hs : (s.lane n).state with
  | down => exact absurd hs hdown
  | free => exact absurd hs hfree
  | passing p => exact absurd (by rw [hs]; rfl) hp
  | _ => rfl

/-- With no SET_LANE waiting for the lane nothing is carried out. -/
theorem runWaiting_none (h : ∀ o ∈ s.lanesWaiting, o.lane ≠ n) : runWaiting n s = s := by
  have hmine : s.lanesWaiting.filter (fun o => o.lane = n) = [] := List.filter_eq_nil_iff.mpr fun o ho => by simpa using h o ho
  have hothers : s.lanesWaiting.filter (fun o => o.lane ≠ n) = s.lanesWaiting :=
    List.filter_eq_self.mpr fun o ho => by simpa using h o ho
  rw [runWaiting, hmine, hothers]
  rfl

/-- A lane that is freed, with nothing waiting for it where it is PASSING. -/
theorem freeLane_freed (h : freesLane s n) (hwait : (s.lane n).state.code = 5 → ∀ o ∈ s.lanesWaiting, o.lane ≠ n) :
    freeLane n s = freed n s := by
  by_cases hcode : (s.lane n).state.code = 5
  · cases hs : (s.lane n).state with
    | passing p =>
      rw [freeLane_passing h hs]
      refine runWaiting_none fun o ho => hwait hcode o ?_
      rwa [lanesWaiting_of_rest (freed_kept n s).1] at ho
    | _ => rw [hs] at hcode; simp [LaneState.code] at hcode
  · exact freeLane_frees h hcode

end

end Sys2Proof.Machine
end

section
/-! PROOFS. Free flow frees the lanes one after another (R73, R82, R105). -/

namespace Sys2Proof.Machine

/-- The record that free flow asks for at a lane. -/
def entryAsk (s : State) (n : Fin 4) : Option Asked := if (s.lane n).config.role = .entry then flowAsk s n else none

/-- A state with the time and the Cue Table of `s`. -/
structure InStep (s t : State) : Prop where
  now : t.now = s.now
  day : t.day = s.day
  ms : t.ms = s.ms
  cues : ∀ x, inCueTable x → t.mem.byteAt x = s.mem.byteAt x

/-- Some lanes freed from `t`, the lanes as `s` has them until then. -/
structure Freed (s : State) (l : List (Fin 4)) (t v : State) : Prop where
  rest : v.rest = t.rest
  kept : ∀ n, n ∉ l → v.lane n = t.lane n
  stays : ∀ n ∈ l, ¬freesLane s n → v.lane n = s.lane n
  lane : ∀ n ∈ l, freesLane s n → laneFreed s n (v.lane n)
  asked : ∀ n ∈ l, freesLane s n → ∀ r, (s.lane n).state = .referred r →
    v.port r.port = (t.port r.port).asked ⟨.deny .freeFlow, 0⟩
  port : ∀ p, (∀ n ∈ l, freesLane s n → ∀ r, (s.lane n).state = .referred r → r.port ≠ p) → v.port p = t.port p
  freed : ∀ n ∈ l, freesLane s n → ∀ g, (s.lane n).state = .granted g → markerFree v g.slot
  free : ∀ slot, markerFree t slot → markerFree v slot

/-- Below the journal ring memory is as `t` has it, but for the header's words of the Journal Writer. -/
def lowKept (t v : State) : Prop := ∀ a, 18 ≤ a → a < 0x6200 → v.mem.byteAt a = t.mem.byteAt a

theorem Freed.nil (s t : State) : Freed s [] t t where
  rest := rfl
  kept := fun _ _ => rfl
  stays := fun _ h => absurd h List.not_mem_nil
  lane := fun _ h => absurd h List.not_mem_nil
  asked := fun _ h => absurd h List.not_mem_nil
  port := fun _ _ => rfl
  freed := fun _ h => absurd h List.not_mem_nil
  free := fun _ h => h

/-- Lanes freed after others, the referrals' ports distinct. -/
theorem Freed.append {s t u v : State} {l m : List (Fin 4)} (hd : referralPortsDistinct s) (hlm : ∀ n ∈ l, n ∉ m)
    (h1 : Freed s l t u) (h2 : Freed s m u v) : Freed s (l ++ m) t v where
  rest := h2.rest.trans h1.rest
  kept := fun n hn => by
    rw [List.mem_append, not_or] at hn
    rw [h2.kept n hn.2, h1.kept n hn.1]
  stays := fun n hn hs => by
    rcases List.mem_append.mp hn with hn | hn
    · rw [h2.kept n (hlm n hn), h1.stays n hn hs]
    · exact h2.stays n hn hs
  lane := fun n hn hs => by
    rcases List.mem_append.mp hn with hn | hn
    · rw [h2.kept n (hlm n hn)]
      exact h1.lane n hn hs
    · exact h2.lane n hn hs
  asked := fun n hn hs r hr => by
    rcases List.mem_append.mp hn with hn | hn
    · rw [h2.port r.port fun i hi _ q hq => (hd n i r q (fun h => hlm n hn (h ▸ hi)) hr hq).symm, h1.asked n hn hs r hr]
    · rw [h2.asked n hn hs r hr, h1.port r.port fun i hi _ q hq => hd i n q r (fun h => hlm i hi (h ▸ hn)) hq hr]
  port := fun p hp => by
    rw [h2.port p fun n hn => hp n (List.mem_append_right l hn), h1.port p fun n hn => hp n (List.mem_append_left m hn)]
  freed := fun n hn hs g hg => by
    rcases List.mem_append.mp hn with hn | hn
    · exact h2.free g.slot (h1.freed n hn hs g hg)
    · exact h2.freed n hn hs g hg
  free := fun slot h => h2.free slot (h1.free slot h)

section
variable {s t : State} {asks : List Asked} {Q : Nat → Prop} {b : BitVec 8} {n : Fin 4}

theorem Freed.inStep {l : List (Fin 4)} {v : State} (F : Freed s l t v) (hlow : lowKept t v) (T : InStep s t) :
    InStep s v where
  now := (now_of_rest F.rest).trans T.now
  day := (day_of_rest F.rest).trans T.day
  ms := (ms_of_rest F.rest).trans T.ms
  cues := fun x hx => (hlow x (by unfold inCueTable inField at hx; omega)
    (by unfold inCueTable inField at hx; omega)).trans (T.cues x hx)

/-- A lane that free flow leaves asks for no record. -/
theorem entryAsk_stays (h : ¬freesLane s n) : entryAsk s n = none := by
  rw [entryAsk]
  split
  · next hrole =>
    cases hs : (s.lane n).state with
    | down | free => rw [flowAsk, displacedAsk, hs]
    | _ => exact absurd ⟨hrole, by simp [hs], by simp [hs]⟩ h
  · rfl

/-- One lane freed: what it leaves, and its record. -/
theorem freed_one (R : Ran s t Q b asks) (hQ : ∀ a, inGrantMarker s a → Q a) (T : InStep s t) (hl : t.lane n = s.lane n)
    (hs : freesLane s n) : Freed s [n] t (freed n t) ∧ lowKept t (freed n t)
      ∧ Ran s (freed n t) Q b (asks ++ (entryAsk s n).toList) := by
  have hask : entryAsk s n = flowAsk t n := by
    rw [entryAsk, if_pos hs.1, flowAsk, flowAsk, displacedAsk, displacedAsk, hl, T.day, T.ms]
  have hok : t.ok := ⟨R.wf, R.records.journal ▸ (askedAll_within R.indexed _).indexed R.indexed⟩
  have hmarker (g : Grant) (hg : (t.lane n).state = .granted g) : inGrantMarker s (passBase g.slot + 31) :=
    ⟨n, g, hl ▸ hg, rfl⟩
  have ended : Ran t (displaced n t) (inGrantMarker s) 0#8 (flowAsk t n).toList :=
    (Ran.start hok (besideWriter_marker _ fun _ => inGrantMarker_high) hok.1 (fun _ _ => rfl) rfl rfl).displaced hmarker
  have low (a : Nat) (h0 : 18 ≤ a) (h1 : a < 0x6200) : (displaced n t).mem.byteAt a = t.mem.byteAt a :=
    ended.bytes a (fun h => by have := inGrantMarker_high h; omega) fun h => by have := inAppends_apart h; omega
  obtain ⟨hrest, hmem, hattn, hports, hjournal⟩ := freed_kept n t
  obtain ⟨hasked, hother⟩ := displaced_port n t
  have marks (slot : Nat) (h : markerFree (displaced n t) slot) : markerFree (freed n t) slot := by
    rw [markerFree, State.peek, hmem]
    exact h
  refine ⟨⟨hrest, fun m hm => freed_lane_other t (by simpa using hm), ?_, ?_, ?_, fun p hp => ?_, ?_,
    fun slot h => marks slot (displaced_markerFree hok (.inl h))⟩, fun a h0 h1 => by rw [hmem, low a h0 h1],
    by rw [hask]; exact (R.displaced fun g hg => hQ _ (hmarker g hg)).same hmem hjournal hattn⟩
  · rintro m hm hstays
    exact absurd (List.mem_singleton.mp hm ▸ hs) hstays
  · rintro m hm -
    obtain rfl := List.mem_singleton.mp hm
    refine freed_lane hl hs.2.1 T.now fun x hx => (low x ?_ ?_).trans (T.cues x hx) <;> unfold inCueTable inField at hx <;>
      omega
  · rintro m hm - r hr
    obtain rfl := List.mem_singleton.mp hm
    rw [port_of_ports hports]
    exact hasked r (hl ▸ hr)
  · rw [port_of_ports hports]
    exact hother p fun r hr => hp n (List.mem_singleton_self n) hs r (hl ▸ hr)
  · rintro m hm - g hg
    obtain rfl := List.mem_singleton.mp hm
    exact marks _ (displaced_markerFree hok (.inr ⟨g, hl ▸ hg, rfl⟩))

/-- One lane that free flow reaches, with nothing waiting for it where it is PASSING. -/
theorem freeLane_one (R : Ran s t Q b asks) (hQ : ∀ a, inGrantMarker s a → Q a) (T : InStep s t) (hl : t.lane n = s.lane n)
    (hwait : (s.lane n).state.code = 5 → ∀ o ∈ t.lanesWaiting, o.lane ≠ n) :
    Freed s [n] t (freeLane n t) ∧ lowKept t (freeLane n t)
      ∧ Ran s (freeLane n t) Q b (asks ++ (entryAsk s n).toList) := by
  have hsame : freesLane t n ↔ freesLane s n := by rw [freesLane, freesLane, hl]
  by_cases hs : freesLane s n
  · rw [freeLane_freed (hsame.mpr hs) (hl ▸ hwait)]
    exact freed_one R hQ T hl hs
  · rw [freeLane_stays fun h => hs (hsame.mp h), entryAsk_stays hs]
    have gone (m : Fin 4) (hm : m ∈ [n]) (h : freesLane s m) : False := hs (List.mem_singleton.mp hm ▸ h)
    refine ⟨⟨rfl, fun _ _ => rfl, fun m hm _ => List.mem_singleton.mp hm ▸ hl, fun m hm h => (gone m hm h).elim,
      fun m hm h => (gone m hm h).elim, fun _ _ => rfl, fun m hm h => (gone m hm h).elim, fun _ h => h⟩,
      fun _ _ _ => rfl, by simpa using R⟩

theorem foldl_freeLane (hd : referralPortsDistinct s) (hQ : ∀ a, inGrantMarker s a → Q a) (l : List (Fin 4)) (hl : l.Nodup)
    (R : Ran s t Q b asks) (T : InStep s t) (hlane : ∀ n ∈ l, t.lane n = s.lane n)
    (hwait : ∀ n ∈ l, (s.lane n).state.code = 5 → ∀ o ∈ t.lanesWaiting, o.lane ≠ n) :
    Freed s l t (l.foldl (fun u n => freeLane n u) t) ∧ lowKept t (l.foldl (fun u n => freeLane n u) t)
      ∧ Ran s (l.foldl (fun u n => freeLane n u) t) Q b (asks ++ l.filterMap (entryAsk s)) := by
  induction l generalizing t asks with
  | nil => exact ⟨.nil s t, fun _ _ _ => rfl, by simpa using R⟩
  | cons n l ih =>
    obtain ⟨hn, hl⟩ := List.nodup_cons.mp hl
    obtain ⟨F, hlow, R'⟩ := freeLane_one R hQ T (hlane n List.mem_cons_self) (hwait n List.mem_cons_self)
    obtain ⟨F', hlow', R''⟩ := ih hl R' (F.inStep hlow T)
      (fun m hm => (F.kept m fun h => hn (List.mem_singleton.mp h ▸ hm)).trans (hlane m (List.mem_cons_of_mem _ hm)))
      fun m hm hc o ho => hwait m (List.mem_cons_of_mem _ hm) hc o (lanesWaiting_of_rest F.rest ▸ ho)
    refine ⟨F.append hd (fun m hm => by rw [List.mem_singleton.mp hm]; exact hn) F',
      fun a h0 h1 => (hlow' a h0 h1).trans (hlow a h0 h1), ?_⟩
    have hasks : (n :: l).filterMap (entryAsk s) = (entryAsk s n).toList ++ l.filterMap (entryAsk s) := by
      cases h : entryAsk s n <;> simp [h]
    rw [hasks, ← List.append_assoc]
    exact R''

end

/-! ### A SET_LANE that waits for a lane so freed (R91) -/

/-- A SET_LANE carried out at a lane that is FREE: it becomes pending, or its port is taken. -/
structure Carried (o : LaneOrder) (s v : State) : Prop where
  rest : v.rest = ({ s with lanesWaiting := s.lanesWaiting.filter fun x => x.lane ≠ o.lane } : State).rest
  pended : waitingPended s v o
  other : ∀ m ≠ o.lane, v.lane m = s.lane m
  lane : v.lane o.lane = { s.lane o.lane with pendingConfig := (v.lane o.lane).pendingConfig }
  ports : v.ports = s.ports
  journal : v.journal = s.journal
  attn : v.attn = s.attn ||| 1#8
  wf : v.mem.wf
  bytes : ∀ a, ¬inOrderEnd o.slot a → v.mem.byteAt a = s.mem.byteAt a

theorem runWaiting_carried {o : LaneOrder} {s : State} (hw : s.mem.wf)
    (hstation : s.station = .running ∨ s.station = .quieting) (hfree : (s.lane o.lane).state = .free)
    (hwaits : s.lanesWaiting.filter (fun x => x.lane = o.lane) = [o]) (htaken : orderState s o.slot = 2) :
    Carried o s (runWaiting o.lane s) := by
  let w : State := { s with lanesWaiting := s.lanesWaiting.filter fun x => x.lane ≠ o.lane }
  have hruns : runWaiting o.lane s = if portTaken w o.lane o.config then endOrder o.slot .portTaken w
      else endOrder o.slot .ok (makePending o.lane o.config w) := by
    have hcarry : runWaiting o.lane s = carrySetLane o w := by
      rw [runWaiting, hwaits]
      rfl
    rw [hcarry]
    rcases hstation with hrun | hquieting
    · exact carrySetLane_free o.slot (s := w) hrun hfree
    · refine (carrySetLane_quieting o.slot (s := w) hquieting).trans (if_neg ?_)
      rw [show (w.lane o.lane).state = .free from hfree]
      simp [LaneState.isBusy]
  rw [hruns]
  have hclash := portTaken_iff w o.lane o.config
  by_cases h : portTaken w o.lane o.config = true
  · obtain ⟨hstate, hcode, -, hattn⟩ := endOrder_shows o.slot .portTaken (s := w) hw htaken
    have hlanes : (endOrder o.slot .portTaken w).lanes = s.lanes := endOrder_lanes ..
    rw [if_pos h]
    exact ⟨endOrder_rest .., ⟨lanesWaiting_of_rest (endOrder_rest o.slot .portTaken w), fun hn => absurd (hclash.mp h) hn,
      fun _ => ⟨by rw [lane_of_lanes hlanes], hstate, hcode⟩⟩, fun m _ => lane_of_lanes hlanes m,
      by rw [lane_of_lanes hlanes], endOrder_ports .., endOrder_journal .., hattn, endOrder_wf o.slot _ (s := w) hw,
      fun a ha => byteAt_endOrder o.slot _ (s := w) hw ha⟩
  · have hpending : (makePending o.lane o.config w).lane o.lane = { s.lane o.lane with pendingConfig := some o.config } :=
      lane_modLane_same w o.lane _
    obtain ⟨hstate, hcode, -, hattn⟩ := endOrder_shows o.slot .ok (s := makePending o.lane o.config w) hw htaken
    have hlanes := endOrder_lanes o.slot .ok (makePending o.lane o.config w)
    rw [if_neg h]
    exact ⟨endOrder_rest .., ⟨lanesWaiting_of_rest (endOrder_rest o.slot .ok (makePending o.lane o.config w)),
      fun _ => ⟨by rw [lane_of_lanes hlanes, hpending], hstate, hcode⟩, fun hc => absurd (hclash.mpr hc) h⟩,
      fun m hm => (lane_of_lanes hlanes m).trans (lane_modLane_other w _ hm),
      by rw [lane_of_lanes hlanes, hpending], endOrder_ports .., endOrder_journal .., hattn,
      endOrder_wf o.slot _ (s := makePending o.lane o.config w) hw,
      fun a ha => byteAt_endOrder o.slot _ (s := makePending o.lane o.config w) hw ha⟩

end Sys2Proof.Machine
end

section
/-! PROOFS. Free flow frees every lane, also where a SET_LANE waits for one (R91, R105). -/

namespace Sys2Proof.Machine

/-- A state with its waiting SET_LANEs, and the pending configuration of the order's lane, as `s` has them. -/
def asWaiting (o : LaneOrder) (s v : State) : State :=
  { v.modLane o.lane (fun l => { l with pendingConfig := (s.lane o.lane).pendingConfig }) with
    lanesWaiting := s.lanesWaiting }

theorem asWaiting_lane (o : LaneOrder) (s v : State) :
    (asWaiting o s v).lane o.lane = { v.lane o.lane with pendingConfig := (s.lane o.lane).pendingConfig } :=
  lane_modLane_same v o.lane fun l => { l with pendingConfig := (s.lane o.lane).pendingConfig }

theorem asWaiting_lane_other (o : LaneOrder) (s v : State) {m : Fin 4} (h : m ≠ o.lane) :
    (asWaiting o s v).lane m = v.lane m :=
  lane_modLane_other v (fun l => { l with pendingConfig := (s.lane o.lane).pendingConfig }) h

@[simp] theorem asWaiting_port (o : LaneOrder) (s v : State) (p : Fin 4) : (asWaiting o s v).port p = v.port p := rfl

@[simp] theorem asWaiting_mem (o : LaneOrder) (s v : State) : (asWaiting o s v).mem = v.mem := rfl

/-- A lane freed or left has its configurations, inputs and rings as before. -/
theorem Freed.setup {s t v : State} {l : List (Fin 4)} (F : Freed s l t v) (ht : ∀ n, t.lane n = s.lane n) (n : Fin 4) :
    (v.lane n).setup = (s.lane n).setup := by
  by_cases hn : n ∈ l
  · by_cases hs : freesLane s n
    · obtain ⟨-, hsetup, -⟩ := F.lane n hn hs
      exact hsetup
    · rw [F.stays n hn hs]
  · rw [F.kept n hn, ht]

theorem configs_of_setup {l m : Lane} (h : l.setup = m.setup) : l.configs = m.configs := by
  have hconfig : l.config = m.config := congrArg (fun x => x.1) h
  have hpending : l.pendingConfig = m.pendingConfig := congrArg (fun x => x.2.1) h
  rw [Lane.configs, Lane.configs, hconfig, hpending]

theorem inOrderEnd_region {k : Fin 32} {a : Nat} (h : inOrderEnd k a) : 0x100 ≤ a ∧ a < 0x1100 := by
  have := k.isLt
  unfold inOrderEnd inField orderBase at h
  omega

section
variable {o : LaneOrder} {s u w v : State} {l : List (Fin 4)}

theorem Carried.free (C : Carried o u w) {slot : Nat} (h : markerFree u slot) : markerFree w slot :=
  (Memory.read_congr fun a h1 _ => C.bytes a fun hin => by
    have := inOrderEnd_region hin
    unfold passBase at h1
    omega).trans h

theorem Carried.inStep (C : Carried o u w) (T : InStep s u) : InStep s w where
  now := (now_of_rest C.rest).trans T.now
  day := (day_of_rest C.rest).trans T.day
  ms := (ms_of_rest C.rest).trans T.ms
  cues := fun a ha => (C.bytes a fun h => inOrderEnd_cueTable h ha).trans (T.cues a ha)

/-- Lanes freed after an order was carried out, seen from before it. -/
theorem Freed.carried (F : Freed s l w v) (C : Carried o u w) (hu : u.lanesWaiting = s.lanesWaiting)
    (hp : (u.lane o.lane).pendingConfig = (s.lane o.lane).pendingConfig) (ho : o.lane ∉ l) :
    Freed s l u (asWaiting o s v) where
  rest := by
    have hback : ({ u with lanesWaiting := s.lanesWaiting } : State).rest = u.rest := by rw [← hu]
    refine Eq.trans ?_ hback
    exact congrArg (fun x : State => ({ x with lanesWaiting := s.lanesWaiting } : State)) (F.rest.trans C.rest)
  kept := fun n hn => by
    by_cases h : n = o.lane
    · subst h
      rw [asWaiting_lane, F.kept o.lane ho, C.lane, ← hp]
    · rw [asWaiting_lane_other o s v h, F.kept n hn, C.other n h]
  stays := fun n hn hs => by
    rw [asWaiting_lane_other o s v fun h => ho (h ▸ hn), F.stays n hn hs]
  lane := fun n hn hs => by
    rw [asWaiting_lane_other o s v fun h => ho (h ▸ hn)]
    exact F.lane n hn hs
  asked := fun n hn hs r hr => (F.asked n hn hs r hr).trans (by rw [port_of_ports C.ports])
  port := fun p hp => (F.port p hp).trans (port_of_ports C.ports p)
  freed := F.freed
  free := fun slot h => F.free slot (C.free h)

/-- What an order carried out shows stands while other lanes are freed. -/
theorem Carried.pended_later (C : Carried o u w) (F : Freed s l w v) (hlow : lowKept w v) (ho : o.lane ∉ l)
    (hconfigs : ∀ n, (u.lane n).setup = (s.lane n).setup) (hu : u.lanesWaiting = s.lanesWaiting) : waitingPended s v o := by
  have hk := o.slot.isLt
  obtain ⟨hwaits, hfree, htaken⟩ := C.pended
  have hclash : (∃ m, m ≠ o.lane ∧ ∃ d ∈ (u.lane m).configs, portsClash o.config d) ↔
      ∃ m, m ≠ o.lane ∧ ∃ d ∈ (s.lane m).configs, portsClash o.config d := by
    simp only [fun m => configs_of_setup (hconfigs m)]
  have hpending : (u.lane o.lane).pendingConfig = (s.lane o.lane).pendingConfig :=
    congrArg (fun x => x.2.1) (hconfigs o.lane)
  have hstate : orderState v o.slot = orderState w o.slot :=
    Memory.read_congr fun a h1 h2 => hlow a (by unfold orderBase at h1; omega) (by unfold orderBase at h2; omega)
  have hcode : v.peek (orderBase o.slot.val + 3) 1 = w.peek (orderBase o.slot.val + 3) 1 :=
    Memory.read_congr fun a h1 h2 => hlow a (by unfold orderBase at h1; omega) (by unfold orderBase at h2; omega)
  rw [waitingPended, F.kept o.lane ho, hstate, hcode, ← hclash, ← hpending, ← hu, ← hwaits]
  exact ⟨lanesWaiting_of_rest F.rest, hfree, htaken⟩

end

/-! ### The one SET_LANE that waits for a lane PASSING -/

section
variable {s : State} {o : LaneOrder} (hwaits : s.lanesWaiting.filter (fun x => (s.lane x.lane).state.code = 5) = [o])
include hwaits

theorem waiting_alone {x : LaneOrder} (hx : x ∈ s.lanesWaiting) (hc : (s.lane x.lane).state.code = 5) : x = o := by
  have hin : x ∈ s.lanesWaiting.filter (fun x => (s.lane x.lane).state.code = 5) := List.mem_filter.mpr ⟨hx, by simpa using hc⟩
  rw [hwaits] at hin
  exact List.mem_singleton.mp hin

theorem waiting_code : (s.lane o.lane).state.code = 5 := by
  have hin : o ∈ s.lanesWaiting.filter (fun x => (s.lane x.lane).state.code = 5) := hwaits ▸ List.mem_singleton_self o
  simpa using (List.mem_filter.mp hin).2

theorem waiting_passing : ∃ p, (s.lane o.lane).state = .passing p := by
  have hcode := waiting_code hwaits
  cases h : (s.lane o.lane).state with
  | passing p => exact ⟨p, rfl⟩
  | _ => rw [h] at hcode; simp [LaneState.code] at hcode

theorem waiting_mine : s.lanesWaiting.filter (fun x => x.lane = o.lane) = [o] := by
  have hboth : s.lanesWaiting.filter (fun x => x.lane = o.lane) =
      (s.lanesWaiting.filter (fun x => (s.lane x.lane).state.code = 5)).filter (fun x => x.lane = o.lane) := by
    rw [List.filter_filter]
    refine List.filter_congr fun x _ => ?_
    by_cases h : x.lane = o.lane <;> simp [h, waiting_code hwaits]
  rw [hboth, hwaits]
  simp

end

theorem filterMap_cons_toList {α β : Type} (f : α → Option β) (x : α) (l : List α) :
    (x :: l).filterMap f = (f x).toList ++ l.filterMap f := by
  cases h : f x <;> simp [h]

section
variable {s t : State} {asks : List Asked} {Q : Nat → Prop} {b : BitVec 8} (hd : referralPortsDistinct s)
  (hQ : ∀ a, inGrantMarker s a → Q a) (R : Ran s t Q b asks) (T : InStep s t) (hlane : ∀ n, t.lane n = s.lane n)
include hd hQ R T hlane

/-- Every lane freed, no SET_LANE waiting for one that is PASSING. -/
theorem eachLane_freeLane (hwait : ∀ o ∈ t.lanesWaiting, (s.lane o.lane).state.code ≠ 5) :
    Freed s allFour t (eachLane freeLane t) ∧ lowKept t (eachLane freeLane t)
      ∧ Ran s (eachLane freeLane t) Q b (asks ++ allFour.filterMap (entryAsk s)) :=
  foldl_freeLane hd hQ allFour (by decide) R T (fun n _ => hlane n) fun n _ hc o ho h => hwait o ho (h ▸ hc)

/-- Every lane freed, one SET_LANE waiting for one that is PASSING. -/
theorem eachLane_freeLane_waiting {o : LaneOrder} (hQo : ∀ a, inOrderEnd o.slot a → Q a)
    (hwaits : s.lanesWaiting.filter (fun x => (s.lane x.lane).state.code = 5) = [o])
    (hrole : (s.lane o.lane).config.role = .entry) (htaken : orderState t o.slot = 2)
    (hstation : t.station = .running ∨ t.station = .quieting) (hsame : t.lanesWaiting = s.lanesWaiting) :
    Freed s allFour t (asWaiting o s (eachLane freeLane t)) ∧ waitingPended s (eachLane freeLane t) o
      ∧ (eachLane freeLane t).rest =
          ({ t with lanesWaiting := s.lanesWaiting.filter fun x => x.lane ≠ o.lane } : State).rest
      ∧ (∀ a, 18 ≤ a → a < 0x6200 → ¬inOrderEnd o.slot a → (eachLane freeLane t).mem.byteAt a = t.mem.byteAt a)
      ∧ Ran s (eachLane freeLane t) Q (b ||| 1#8) (asks ++ allFour.filterMap (entryAsk s)) := by
  have hk := o.slot.isLt
  obtain ⟨p, hp⟩ := waiting_passing hwaits
  have hfrees : freesLane s o.lane := ⟨hrole, by simp [hp], by simp [hp]⟩
  have alone (n : Fin 4) (hn : n ≠ o.lane) (hc : (s.lane n).state.code = 5) (x : LaneOrder) (hx : x ∈ s.lanesWaiting) :
      x.lane ≠ n := by
    rintro rfl
    exact hn (congrArg LaneOrder.lane (waiting_alone hwaits hx hc))
  have before (n : Fin 4) (hn : n ∈ allFour.filter (· < o.lane)) : n ≠ o.lane := by
    simp at hn
    exact hn.2.ne
  have after (n : Fin 4) (hn : n ∈ allFour.filter (o.lane < ·)) : n ≠ o.lane := by
    simp at hn
    exact hn.2.ne'
  obtain ⟨F1, hlow1, R1⟩ := foldl_freeLane hd hQ (allFour.filter (· < o.lane)) (List.Nodup.filter _ (by decide)) R T
    (fun n _ => hlane n) fun n hn hc x hx => alone n (before n hn) hc x (hsame ▸ hx)
  have huses : eachLane freeLane t = (allFour.filter (o.lane < ·)).foldl (fun u n => freeLane n u)
      (freeLane o.lane ((allFour.filter (· < o.lane)).foldl (fun u n => freeLane n u) t)) := by
    rw [eachLane, allFour_around o.lane, List.foldl_append, List.foldl_cons, ← allFour_around]
  rw [huses]
  generalize (allFour.filter (· < o.lane)).foldl (fun u n => freeLane n u) t = u1 at *
  have hl1 : u1.lane o.lane = s.lane o.lane := (F1.kept o.lane fun h => before _ h rfl).trans (hlane _)
  obtain ⟨F2, hlow2, R2⟩ := freed_one R1 hQ (F1.inStep hlow1 T) hl1 hfrees
  have hreach : freeLane o.lane u1 = runWaiting o.lane (freed o.lane u1) :=
    freeLane_passing (p := p) (by rw [freesLane, hl1]; exact hfrees) (by rw [hl1]; exact hp)
  rw [hreach]
  have F12 := F1.append hd (fun n hn => by simpa using before n hn) F2
  have hlow12 : lowKept t (freed o.lane u1) := fun a h0 h1 => (hlow2 a h0 h1).trans (hlow1 a h0 h1)
  have T12 := F12.inStep hlow12 T
  have hsetup := F12.setup hlane
  obtain ⟨hfree, -⟩ := F2.lane o.lane (List.mem_singleton_self _) hfrees
  generalize freed o.lane u1 = u2 at *
  have hwaiting : u2.lanesWaiting = s.lanesWaiting := (lanesWaiting_of_rest F12.rest).trans hsame
  have C : Carried o u2 (runWaiting o.lane u2) := by
    refine runWaiting_carried R2.wf (by rw [station_of_rest F12.rest]; exact hstation) hfree (hwaiting ▸ waiting_mine hwaits) ?_
    refine Eq.trans (Memory.read_congr fun a h1 h2 => hlow12 a ?_ ?_) htaken
    · unfold orderBase at h1
      omega
    · unfold orderBase at h2
      omega
  generalize runWaiting o.lane u2 = u3 at *
  have R3 : Ran s u3 Q (b ||| 1#8) _ :=
    R2.amend C.wf (fun a ha => C.bytes a fun h => ha (hQo a h)) C.journal C.attn (by decide)
  have hout : o.lane ∉ allFour.filter (o.lane < ·) := fun h => after _ h rfl
  have unfreed (n : Fin 4) (hn : n ∈ allFour.filter (o.lane < ·)) : n ∉ allFour.filter (· < o.lane) ++ [o.lane] := by
    simp at hn ⊢
    omega
  have waits (x : LaneOrder) (hx : x ∈ u3.lanesWaiting) : x ∈ s.lanesWaiting := by
    rw [lanesWaiting_of_rest C.rest, hwaiting] at hx
    exact (List.mem_filter.mp hx).1
  obtain ⟨F3, hlow3, R4⟩ := foldl_freeLane hd hQ (allFour.filter (o.lane < ·)) (List.Nodup.filter _ (by decide)) R3
    (C.inStep T12) (fun n hn => ((C.other n (after n hn)).trans (F12.kept n (unfreed n hn))).trans (hlane n))
    fun n hn hc x hx => alone n (after n hn) hc x (waits x hx)
  generalize (allFour.filter (o.lane < ·)).foldl (fun u n => freeLane n u) u3 = v at *
  have hpending : (u2.lane o.lane).pendingConfig = (s.lane o.lane).pendingConfig :=
    congrArg (fun x => x.2.1) (hsetup o.lane)
  refine ⟨?_, C.pended_later F3 hlow3 hout hsetup hwaiting, ?_, fun a h0 h1 ha => ?_, ?_⟩
  · have F := F12.append hd (fun n hn h => unfreed n h hn) (F3.carried C hwaiting hpending hout)
    rwa [List.append_assoc, List.singleton_append, ← allFour_around] at F
  · refine F3.rest.trans (C.rest.trans ?_)
    rw [hwaiting]
    exact congrArg (fun x : State => ({ x with
      lanesWaiting := s.lanesWaiting.filter fun x => x.lane ≠ o.lane } : State)) F12.rest
  · exact (hlow3 a h0 h1).trans ((C.bytes a ha).trans (hlow12 a h0 h1))
  · have hasks : allFour.filterMap (entryAsk s) = (allFour.filter (· < o.lane)).filterMap (entryAsk s)
        ++ ((entryAsk s o.lane).toList ++ (allFour.filter (o.lane < ·)).filterMap (entryAsk s)) := by
      conv_lhs => rw [allFour_around o.lane]
      rw [List.filterMap_append, filterMap_cons_toList]
    rw [hasks, ← List.append_assoc, ← List.append_assoc]
    exact R4

end

end Sys2Proof.Machine
end

section
/-! PROOFS. Free flow starts (R91, R105, R111, R203): its STATION record, the lanes freed, and quieting that goes on or may
complete. -/

namespace Sys2Proof.Machine

/-- What an event does before free flow starts: the lanes, the ports and the station stand, and no record is asked for. -/
structure FlowBegun (s u : State) (Q : Nat → Prop) (b : BitVec 8) : Prop where
  ran : Ran s u Q b []
  inStep : InStep s u
  lanes : u.lanes = s.lanes
  ports : u.ports = s.ports
  station : u.station = s.station
  online : u.online = s.online
  options : u.options = s.options
  waiting : u.lanesWaiting = s.lanesWaiting
  marks : ∀ a, inGrantMarker s a → Q a

/-- The free-flow flag set and the STATION record asked for. -/
def flowOpened (byEvacuate : Bool) (s : State) : State :=
  stationRecord .freeFlowOn byEvacuate 0 0 { s with freeFlow := true }

theorem startFreeFlow_opened {s : State} (h : s.freeFlow = false) (byEvacuate : Bool) :
    startFreeFlow byEvacuate s = quietIfIdle (eachLane freeLane (flowOpened byEvacuate s)) := by
  unfold startFreeFlow
  exact if_neg (by simp [h])

theorem flowOpened_rest (byEvacuate : Bool) (s : State) :
    (flowOpened byEvacuate s).rest = ({ s with freeFlow := true } : State).rest := stationRecord_rest ..

/-- The record that the start of free flow asks for. -/
def flowRecord (s : State) (byEvacuate : Bool) : Record :=
  ⟨none, s.day, s.ms, [], none, .station .freeFlowOn s.online byEvacuate 0 0⟩

theorem freeFlowAsks_eq (s : State) (byEvacuate : Bool) :
    freeFlowAsks s byEvacuate = [(false, flowRecord s byEvacuate)] ++ allFour.filterMap (entryAsk s) := rfl

theorem freeFlowAsks_length (s : State) (byEvacuate : Bool) : (freeFlowAsks s byEvacuate).length ≤ 5 := by
  have h : (allFour.filterMap (entryAsk s)).length ≤ 4 := List.length_filterMap_le ..
  rw [freeFlowAsks_eq, List.length_append, List.length_singleton]
  omega

section
variable {s u : State} {Q : Nat → Prop} {b : BitVec 8} (B : FlowBegun s u Q b) (byEvacuate : Bool)
include B

theorem FlowBegun.opened : Ran s (flowOpened byEvacuate u) Q b [(false, flowRecord s byEvacuate)] := by
  have hflag : Ran s { u with freeFlow := true } Q b [] := B.ran.same rfl rfl rfl
  have hrecord : mkRecord { u with freeFlow := true } none [] none (.station .freeFlowOn u.online byEvacuate 0 0) =
      flowRecord s byEvacuate := by
    rw [mkRecord, flowRecord, ← B.inStep.day, ← B.inStep.ms, ← B.online]
  have happend := hflag.ask (false, flowRecord s byEvacuate)
  rw [← hrecord] at happend ⊢
  exact happend

theorem FlowBegun.openedLow : lowKept u (flowOpened byEvacuate u) := by
  have hok : u.ok := ⟨B.ran.wf, B.ran.records.journal ▸ (askedAll_within B.ran.indexed _).indexed B.ran.indexed⟩
  have R : Ran u (flowOpened byEvacuate u) (fun _ => False) 0#8 [(false, _)] :=
    (Ran.start (t := { u with freeFlow := true }) hok besideWriter_none hok.1 (fun _ _ => rfl) rfl rfl).ask (false, _)
  exact fun a h0 h1 => R.bytes a id fun h => by have := inAppends_apart h; omega

theorem FlowBegun.openedLane (n : Fin 4) : (flowOpened byEvacuate u).lane n = s.lane n :=
  lane_of_lanes ((stationRecord_lanes .freeFlowOn byEvacuate 0 0 { u with freeFlow := true }).trans B.lanes) n

theorem FlowBegun.openedStep : InStep s (flowOpened byEvacuate u) where
  now := (now_of_rest (flowOpened_rest byEvacuate u)).trans B.inStep.now
  day := (day_of_rest (flowOpened_rest byEvacuate u)).trans B.inStep.day
  ms := (ms_of_rest (flowOpened_rest byEvacuate u)).trans B.inStep.ms
  cues := fun x hx => (B.openedLow byEvacuate x (by unfold inCueTable inField at hx; omega)
    (by unfold inCueTable inField at hx; omega)).trans (B.inStep.cues x hx)

theorem FlowBegun.openedPort (p : Fin 4) : (flowOpened byEvacuate u).port p = s.port p :=
  port_of_ports ((stationRecord_ports .freeFlowOn byEvacuate 0 0 { u with freeFlow := true }).trans B.ports) p

theorem FlowBegun.openedWaiting : (flowOpened byEvacuate u).lanesWaiting = s.lanesWaiting :=
  (lanesWaiting_of_rest (flowOpened_rest byEvacuate u)).trans B.waiting

theorem FlowBegun.openedStation : (flowOpened byEvacuate u).station = s.station :=
  (station_of_rest (flowOpened_rest byEvacuate u)).trans B.station

end

/-! ### Whether quieting completes (R111) -/

section
variable {s t w v : State} (F : Freed s allFour t w) (hstate : ∀ n, (v.lane n).state = (w.lane n).state)
  (hstation : v.station = s.station)
include F hstate hstation

/-- A lane that free flow leaves busy keeps the station QUIETING. -/
theorem quietIfIdle_goesOn (hgoes : quietingGoesOn s) : quietIfIdle v = v := by
  refine if_neg fun ⟨hquieting, hidle⟩ => ?_
  obtain ⟨n, hbusy, hstays⟩ := hgoes (hstation ▸ hquieting)
  have hnot := List.any_eq_false.mp hidle n (mem_allFour n)
  rw [hstate, F.stays n (mem_allFour n) hstays] at hnot
  exact hnot hbusy

/-- With every busy lane freed quieting completes. -/
theorem quietIfIdle_completes (hends : ¬quietingGoesOn s) : quietIfIdle v = completeQuieting v := by
  simp only [quietingGoesOn, Classical.not_imp, not_exists] at hends
  obtain ⟨hquieting, hfrees⟩ := hends
  refine if_pos ⟨hstation.trans hquieting, ?_⟩
  refine List.any_eq_false.mpr fun n hn hbusy => ?_
  by_cases hs : freesLane s n
  · obtain ⟨hfree, -⟩ := F.lane n hn hs
    rw [hstate, hfree] at hbusy
    cases hbusy
  · rw [hstate, F.stays n hn hs] at hbusy
    exact hfrees n ⟨hbusy, hs⟩

end

/-! ### The lanes and ports once the outputs settle -/

/-- The lanes freed, but for the pulses of their locks. -/
theorem lanesFreed_of_freed {s t w x : State} (F : Freed s allFour t w) (ht : ∀ p, t.port p = s.port p)
    (hlane : ∀ n, x.lane n = { w.lane n with lockPulse := (x.lane n).lockPulse }) (hport : ∀ p, x.port p = w.port p)
    (hfree : ∀ slot, markerFree w slot → markerFree x slot) : lanesFreed s x := by
  refine ⟨fun n hs => ?_, fun n hs => ?_, fun n g hs hg => hfree _ (F.freed n (mem_allFour n) hs g hg),
    fun n r hs hr => ?_, fun p hp => ?_⟩
  · rw [hlane, F.stays n (mem_allFour n) hs]
  · obtain ⟨hstate, hsetup, hwindow, hcues, hentry, hstuckEntry, hstuckExit, hstuckSwitch⟩ := F.lane n (mem_allFour n) hs
    have hfreed : (x.lane n).state = .free := by rw [hlane, hstate]
    refine ⟨hfreed, by rw [lockReleased, hfreed, Bool.or_true], ?_, ?_, ?_, ?_, ?_, ?_, ?_⟩
    · rw [keepsSetup, ← hsetup, hlane]
      rfl
    · rw [hlane, hwindow]
    · rw [cuesHanded, hlane]
      exact hcues
    · rw [hlane, hentry]
    · rw [hlane, hstuckEntry]
    · rw [hlane, hstuckExit]
    · rw [hlane, hstuckSwitch]
  · rw [hport, F.asked n (mem_allFour n) hs r hr, ht]
  · rw [hport, F.port p fun n _ hs r hr => hp n r hs hr, ht]

/-- The bytes that free flow may write beside its records, while the orders of `slots` end. -/
def freeFlowBytes (s : State) (slots : List (Fin 32)) (a : Nat) : Prop :=
  (∃ k ∈ slots, inOrderEnd k a) ∨ inField hdrState 2 a ∨ inGrantMarker s a ∨ ∃ n, inLaneMirror n a

theorem besideWriter_freeFlowBytes (s : State) (slots : List (Fin 32)) : besideWriter (freeFlowBytes s slots) := by
  rintro a (⟨k, -, h⟩ | h)
  · exact besideWriter_orderEnd k a h
  · exact besideWriter_quietingBytes s a h

/-- The end of an event in which the state word may change, and any lane. -/
theorem Ran.settled {s v : State} {Q : Nat → Prop} {b : BitVec 8} {asks : List Asked} (R : Ran s v Q b asks)
    (hstate : ∀ a, inField hdrState 2 a → Q a) (hlane : ∀ n a, inLaneMirror n a → Q a) :
    Ran s (settleOutputs s v) Q b asks :=
  R.still (settleOutputs_wf s R.wf)
    (fun a ha => byteAt_settleOutputs_outside s R.wf (.inl fun h => ha (hstate a h)) fun n h => ha (hlane n a h))
    (settleOutputs_journal ..) (settleOutputs_attn ..)

/-- The free-flow flag changes the state word. -/
theorem stateMirror_flows {s v : State} (hs : s.freeFlow = false) (hstation : v.station = s.station)
    (honline : v.online = s.online) (hv : v.freeFlow = true) : stateMirror s ≠ stateMirror v := by
  rw [stateMirror, stateMirror, hs, hstation, honline, hv]
  simp [bit]

end Sys2Proof.Machine
end

section
/-! PROOFS. The end of an event in which free flow started: what its records, the header and memory show, and a completed
quieting (R91, R105, R111, R120, R203). -/

namespace Sys2Proof.Machine

/-! ### Free flow started, quieting going on -/

section
variable {s u : State} {Q : Nat → Prop} {b : BitVec 8} (B : FlowBegun s u Q b) (byEvacuate : Bool)
  (hd : referralPortsDistinct s) (hoff : u.freeFlow = false)
include B hd hoff

/-- Every lane freed, no SET_LANE waiting for one that is PASSING, and quieting going on. -/
theorem FlowBegun.goesOn (hwait : ∀ o ∈ s.lanesWaiting, (s.lane o.lane).state.code ≠ 5) (hgoes : quietingGoesOn s) :
    let v := startFreeFlow byEvacuate u
    Freed s allFour (flowOpened byEvacuate u) v ∧ lowKept u v ∧ v.rest = ({ u with freeFlow := true } : State).rest
      ∧ Ran s v Q b (freeFlowAsks s byEvacuate) := by
  obtain ⟨F, hlow, R⟩ := eachLane_freeLane hd B.marks (B.opened byEvacuate) (B.openedStep byEvacuate)
    (B.openedLane byEvacuate) (by rw [B.openedWaiting]; exact hwait)
  have hv := quietIfIdle_goesOn F (fun _ => rfl) ((station_of_rest F.rest).trans (B.openedStation byEvacuate)) hgoes
  rw [startFreeFlow_opened hoff, hv]
  exact ⟨F, fun a h0 h1 => (hlow a h0 h1).trans (B.openedLow byEvacuate a h0 h1), F.rest.trans (flowOpened_rest ..), R⟩

/-- Every lane freed, one SET_LANE waiting for one that is PASSING, and quieting going on. -/
theorem FlowBegun.goesOnWaiting {o : LaneOrder} (hQo : ∀ a, inOrderEnd o.slot a → Q a)
    (hwaits : s.lanesWaiting.filter (fun x => (s.lane x.lane).state.code = 5) = [o])
    (hrole : (s.lane o.lane).config.role = .entry) (htaken : orderState u o.slot = 2)
    (hstation : s.station = .running ∨ s.station = .quieting) (hgoes : quietingGoesOn s) :
    let v := startFreeFlow byEvacuate u
    Freed s allFour (flowOpened byEvacuate u) (asWaiting o s v) ∧ waitingPended s v o
      ∧ (∀ a, 18 ≤ a → a < 0x6200 → ¬inOrderEnd o.slot a → v.mem.byteAt a = u.mem.byteAt a)
      ∧ v.rest = ({ u with
          freeFlow := true, lanesWaiting := s.lanesWaiting.filter fun x => x.lane ≠ o.lane } : State).rest
      ∧ Ran s v Q (b ||| 1#8) (freeFlowAsks s byEvacuate) := by
  have hk := o.slot.isLt
  have hopened : orderState (flowOpened byEvacuate u) o.slot = 2 := by
    refine Eq.trans (Memory.read_congr fun a h1 h2 => B.openedLow byEvacuate a ?_ ?_) htaken
    · unfold orderBase at h1
      omega
    · unfold orderBase at h2
      omega
  obtain ⟨F, hpended, hrest, hlow, R⟩ := eachLane_freeLane_waiting hd B.marks (B.opened byEvacuate)
    (B.openedStep byEvacuate) (B.openedLane byEvacuate) hQo hwaits hrole hopened
    (by rw [B.openedStation]; exact hstation) (B.openedWaiting byEvacuate)
  have hstate (n : Fin 4) : ((eachLane freeLane (flowOpened byEvacuate u)).lane n).state =
      ((asWaiting o s (eachLane freeLane (flowOpened byEvacuate u))).lane n).state := by
    by_cases h : n = o.lane
    · rw [h, asWaiting_lane]
    · rw [asWaiting_lane_other _ _ _ h]
  have hv := quietIfIdle_goesOn F hstate ((station_of_rest hrest).trans (B.openedStation byEvacuate)) hgoes
  rw [startFreeFlow_opened hoff, hv]
  refine ⟨F, hpended, fun a h0 h1 ha => (hlow a h0 h1 ha).trans (B.openedLow byEvacuate a h0 h1), hrest.trans ?_, R⟩
  exact congrArg (fun x : State => ({ x with
    lanesWaiting := s.lanesWaiting.filter fun x => x.lane ≠ o.lane } : State)) (flowOpened_rest byEvacuate u)

end

/-- What the Journal Writer, the header and memory show once the outputs settle. -/
theorem freeFlow_shown {s e : State} {slots : List (Fin 32)} {b : BitVec 8} {byEvacuate : Bool}
    (R : Ran s e (freeFlowBytes s slots) b (freeFlowAsks s byEvacuate)) (hne : stateMirror s ≠ stateMirror e) :
    let t := settleOutputs s e
    recorded s t (freeFlowAsks s byEvacuate) ∧ attnRaised s t b ∧ t.peek hdrState 2 = stateMirror t
      ∧ keepsBytes s t (fun a => (∃ k ∈ slots, inOrderEnd k a) ∨ inAppends s 5 a ∨ inField hdrState 2 a
          ∨ inGrantMarker s a ∨ ∃ n, inLaneMirror n a) := by
  have settled := R.settled (fun _ h => .inr (.inl h)) fun n _ h => .inr (.inr (.inr ⟨n, h⟩))
  refine ⟨settled.recorded, settled.attn, (settleOutputs_state R.wf hne).trans
    (stateMirror_of_rest (settleOutputs_rest s e)).symm, settled.keeps (fun a ha => ?_) fun a ha =>
    .inr (.inl (inAppends_mono (freeFlowAsks_length s byEvacuate) ha))⟩
  exact ha.imp id .inr

/-! ### Free flow started, quieting completed (R111) -/

/-- In QUIETING no lane holds a grant or a referral. -/
theorem quieting_holds {s : State} (hlaw : lanesLaw s) (hq : s.station = .quieting) (n : Fin 4) :
    (∀ g, (s.lane n).state ≠ .granted g) ∧ ∀ r, (s.lane n).state ≠ .referred r := by
  have h := hlaw.2 n
  refine ⟨fun g hg => ?_, fun r hr => ?_⟩
  · rw [hg] at h
    exact absurd (hq.symm.trans h.1) (by decide)
  · rw [hr] at h
    exact absurd (hq.symm.trans h.1) (by decide)

/-- The bytes of free flow that completes quieting, beside its records, while the orders of `slots` end. -/
def freeQuietBytes (s : State) (slots : List (Fin 32)) (a : Nat) : Prop :=
  (∃ k ∈ slots, inOrderEnd k a) ∨ inQuieting s a

theorem besideWriter_freeQuietBytes (s : State) (slots : List (Fin 32)) : besideWriter (freeQuietBytes s slots) := by
  rintro a (⟨k, -, h⟩ | h)
  · exact besideWriter_orderEnd k a h
  · exact besideWriter_quietBytes s a (.inr h)

theorem setup_rings {l m : Lane} (h : l.setup = m.setup) :
    l.config = m.config ∧ l.pendingConfig = m.pendingConfig ∧ l.flowPosition = m.flowPosition
      ∧ l.flowNumber = m.flowNumber :=
  ⟨congrArg (fun x => x.1) h, congrArg (fun x => x.2.1) h, congrArg (fun x => x.2.2.2.2.2.2.1) h,
    congrArg (fun x => x.2.2.2.2.2.2.2.1) h⟩

section
variable {s w : State} (hset : ∀ n, (w.lane n).setup = (s.lane n).setup)
include hset

/-- The closing windows are written in the rings as `s` has them. -/
theorem inWindowSwap_quieting {n : Fin 4} {a : Nat} (h : inWindowSwap n (w.lane n).quietDown a) : inQuieting s a := by
  obtain ⟨-, -, hposition, -⟩ := setup_rings (hset n)
  rw [quietDown_eq] at h
  obtain ⟨-, h | h | h⟩ := h
  · exact .inr (.inr ⟨n, .inl (.inr (.inr (.inr (.inl h))))⟩)
  · exact .inr (.inl (by unfold inField hdrFlow at *; omega))
  · exact .inr (.inr ⟨n, .inr (hposition ▸ h)⟩)

theorem inService_of_setup (hstation : w.station = s.station) (p : Fin 4) : inService w p = inService s p := by
  have hserves : laneServes w p = laneServes s p := funext fun m => by
    obtain ⟨hconfig, -⟩ := setup_rings (hset m)
    rw [laneServes, laneServes, hconfig]
  rw [inService, inService, servedLane, servedLane, hserves, hstation]

/-- Quieting completed from a state whose configurations, rings and ports are those of `s`, whatever slots changed since. -/
theorem quietCompleted_of_setup {e : State} (hw : w.ok) (hstation : w.station = s.station)
    (hoptions : w.options = s.options) (hms : w.ms = s.ms) (hports : ∀ p, w.port p = s.port p) (he : e.mem.wf)
    (helanes : e.lanes = (completeQuieting w).lanes) (heports : e.ports = (completeQuieting w).ports)
    (hebytes : ∀ a, ¬(0x100 ≤ a ∧ a < 0x1100) → e.mem.byteAt a = (completeQuieting w).mem.byteAt a)
    (hestation : e.station = .quiet) (hne : stateMirror s ≠ stateMirror e) :
    quietCompleted s (settleOutputs s e) (fun n => (w.lane n).window) s.port := by
  have hclane (n : Fin 4) : e.lane n = closedLane (w.lane n).quietDown :=
    (lane_of_lanes helanes n).trans (completeQuieting_lane hw.1 n)
  refine ⟨by rw [settleOutputs_station, hestation], (settleOutputs_state he hne).trans
    (stateMirror_of_rest (settleOutputs_rest s e)).symm, fun n => ?_, fun n v hv => ?_, fun p => ?_⟩
  · obtain ⟨hconfig, hpending, -⟩ := setup_rings (hset n)
    have h := settled_quietDown (s := s) (hclane n)
    rwa [hconfig, hpending] at h
  · obtain ⟨-, -, hposition, hnumber⟩ := setup_rings (hset n)
    have hn := n.isLt
    have hp := nextFlowPosition_lt ((lanesDowned w).lane n).flowPosition
    have hkept : quietShown (lanesDowned w) n (settleOutputs s e).mem :=
      quietShown_congr (completeQuieting_shown hw.1 hw.2.1 n) fun a ha => by
        unfold inField hdrFlow flowBase at ha
        refine (byteAt_settleOutputs_outside s he (.inl (by unfold inField hdrState; omega)) fun m hm => ?_).trans
          (hebytes a (by omega))
        have := inLaneMirror_region hm
        omega
    obtain ⟨hrecorded, hindex⟩ := hkept v (by rw [lanesDowned_lane, quietDown_eq]; exact hv)
    have hpos : ((lanesDowned w).lane n).flowPosition = (s.lane n).flowPosition := by
      rw [lanesDowned_lane, quietDown_eq]
      exact hposition
    have hnum : ((lanesDowned w).lane n).flowNumber = (s.lane n).flowNumber := by
      rw [lanesDowned_lane, quietDown_eq]
      exact hnumber
    rw [hpos, hnum, windowLengthTo, show (lanesDowned w).options = s.options from hoptions,
      show (lanesDowned w).ms = s.ms from hms] at hrecorded
    rw [hpos] at hindex
    exact ⟨hrecorded, hindex⟩
  · rw [settleOutputs_port, port_of_ports heports, completeQuieting_port hw.1, inService_of_setup hset hstation, hports]
    rfl

end

end Sys2Proof.Machine
end

section
/-! PROOFS. Free flow that completes quieting, and FREE_FLOW ON (R73, R82, R91, R105, R111, R203). -/

namespace Sys2Proof.Machine

/-! ### Every lane freed and quieting completed -/

/-- The windows of the lanes freed, where no grant or referral was displaced. -/
theorem Freed.window {s t w : State} (F : Freed s allFour t w) {n : Fin 4}
    (hnone : (∀ g, (s.lane n).state ≠ .granted g) ∧ ∀ r, (s.lane n).state ≠ .referred r) :
    (w.lane n).window =
      if (s.lane n).config.role = .entry ∧ (s.lane n).state ≠ .down ∧ (s.lane n).state ≠ .free
      then markedPartial (s.lane n).window else (s.lane n).window := by
  obtain ⟨-, -, hsame⟩ := displaced_none hnone.1 hnone.2
  by_cases hs : freesLane s n
  · obtain ⟨-, -, hwindow, -⟩ := F.lane n (mem_allFour n) hs
    rw [hwindow, hsame]
    exact (if_pos hs).symm
  · rw [F.stays n (mem_allFour n) hs]
    exact (if_neg hs).symm

/-- Ports that no lane's referral was displaced from stand. -/
theorem Freed.ports_stand {s t w : State} (F : Freed s allFour t w) (hnone : ∀ n r, (s.lane n).state ≠ .referred r)
    (p : Fin 4) : w.port p = t.port p :=
  F.port p fun n _ _ r hr => absurd hr (hnone n r)

/-- With nothing held free flow asks for its STATION record alone. -/
theorem freeFlowAsks_idle {s : State} (byEvacuate : Bool)
    (hnone : ∀ n, (∀ g, (s.lane n).state ≠ .granted g) ∧ ∀ r, (s.lane n).state ≠ .referred r) :
    freeFlowAsks s byEvacuate = [(false, flowRecord s byEvacuate)] := by
  have hask : ∀ n ∈ allFour, entryAsk s n = none := fun n _ => by
    obtain ⟨-, h, -⟩ := displaced_none (hnone n).1 (hnone n).2
    rw [entryAsk, h, ite_self]
  rw [freeFlowAsks_eq, List.filterMap_eq_nil_iff.mpr hask, List.append_nil]

section
variable {s u : State} {slots : List (Fin 32)} {b : BitVec 8} (B : FlowBegun s u (freeQuietBytes s slots) b)
  (byEvacuate : Bool) (hd : referralPortsDistinct s) (hoff : u.freeFlow = false)
  (hwait : ∀ o ∈ s.lanesWaiting, (s.lane o.lane).state.code ≠ 5) (hends : ¬quietingGoesOn s) (hlaw : lanesLaw s)
include B hd hoff hwait hends hlaw

/-- Free flow frees every lane and completes quieting: its records, the order slots it leaves and the station QUIET. -/
theorem FlowBegun.completes :
    let v := startFreeFlow byEvacuate u
    v.rest = ({ u with freeFlow := true, station := .quiet } : State).rest
      ∧ Ran s v (freeQuietBytes s slots) b (freeFlowAsks s byEvacuate ++ [(false, quietRecord s)])
      ∧ (∀ a, 0x100 ≤ a → a < 0x1100 → v.mem.byteAt a = u.mem.byteAt a)
      ∧ ∀ e : State, e.mem.wf → e.lanes = v.lanes → e.ports = v.ports →
          (∀ a, ¬(0x100 ≤ a ∧ a < 0x1100) → e.mem.byteAt a = v.mem.byteAt a) → e.station = .quiet →
          stateMirror s ≠ stateMirror e →
          quietCompleted s (settleOutputs s e)
            (fun n => if (s.lane n).config.role = .entry ∧ (s.lane n).state ≠ .down ∧ (s.lane n).state ≠ .free
              then markedPartial (s.lane n).window else (s.lane n).window) s.port := by
  have hquieting : s.station = .quieting := Decidable.byContradiction fun h => hends fun hq => absurd hq h
  have hnone := quieting_holds hlaw hquieting
  obtain ⟨F, hlow, R⟩ := eachLane_freeLane hd B.marks (B.opened byEvacuate) (B.openedStep byEvacuate)
    (B.openedLane byEvacuate) (by rw [B.openedWaiting]; exact hwait)
  have hstation := (station_of_rest F.rest).trans (B.openedStation byEvacuate)
  have hv := quietIfIdle_completes F (fun _ => rfl) hstation hends
  have T := F.inStep hlow (B.openedStep byEvacuate)
  have hset := F.setup (B.openedLane byEvacuate)
  have hwindow := fun n => F.window (n := n) (hnone n)
  have hport (p : Fin 4) := (F.ports_stand (fun n => (hnone n).2) p).trans (B.openedPort byEvacuate p)
  have hrest := F.rest.trans (flowOpened_rest byEvacuate u)
  have honline : (eachLane freeLane (flowOpened byEvacuate u)).online = s.online :=
    (online_of_rest hrest).trans B.online
  rw [startFreeFlow_opened hoff, hv, freeFlowAsks_eq]
  generalize eachLane freeLane (flowOpened byEvacuate u) = w at *
  have hok : w.ok := ⟨R.wf, R.records.journal ▸ (askedAll_within R.indexed _).indexed R.indexed⟩
  have hrecord : quietRecord w = quietRecord s := by rw [quietRecord, quietRecord, T.day, T.ms, honline]
  have completed := R.completed fun n a h => .inr (inWindowSwap_quieting hset h)
  have lowRan : Ran w (completeQuieting w) (inQuieting s) 0#8 [(false, quietRecord w)] :=
    (Ran.start hok (fun a ha => besideWriter_quietBytes s a (.inr ha)) hok.1 (fun _ _ => rfl) rfl rfl).completed
      fun n a h => inWindowSwap_quieting hset h
  rw [hrecord] at completed
  refine ⟨(completeQuieting_rest w).trans (congrArg (fun x : State => ({ x with station := .quiet } : State)) hrest),
    completed, fun a h0 h1 => ?_, fun e he helanes heports hebytes hestation hne => ?_⟩
  · refine (lowRan.bytes a (fun h => ?_) fun h => ?_).trans ((hlow a (by omega) (by omega)).trans
      (B.openedLow byEvacuate a (by omega) (by omega)))
    · have := inQuieting_low h
      omega
    · have := inAppends_apart h
      omega
  · rw [← funext hwindow]
    exact quietCompleted_of_setup hset hok hstation ((options_of_rest hrest).trans B.options) T.ms hport he helanes heports
      hebytes hestation hne

end

/-- What the Journal Writer and memory show once the outputs of a completed quieting settle. -/
theorem freeQuiet_shown {s e : State} {slots : List (Fin 32)} {b : BitVec 8} {byEvacuate : Bool} (hlaw : lanesLaw s)
    (hquieting : s.station = .quieting)
    (R : Ran s e (freeQuietBytes s slots) b (freeFlowAsks s byEvacuate ++ [(false, quietRecord s)])) :
    let t := settleOutputs s e
    recorded s t (freeFlowAsks s byEvacuate ++ [(false, quietRecord s)]) ∧ attnRaised s t b
      ∧ keepsBytes s t (fun a => (∃ k ∈ slots, inOrderEnd k a) ∨ inAppends s 2 a ∨ inQuieting s a) := by
  have settled := R.settled (fun _ h => .inr (.inl h)) fun n _ h => .inr (.inr (.inr ⟨n, .inl h⟩))
  have hlength : (freeFlowAsks s byEvacuate ++ [(false, quietRecord s)]).length = 2 := by
    rw [freeFlowAsks_idle byEvacuate (quieting_holds hlaw hquieting)]
    rfl
  exact ⟨settled.recorded, settled.attn, settled.keeps (fun a ha => ha.imp id .inr) fun a ha => .inr (.inl (hlength ▸ ha))⟩

/-! ### FREE_FLOW ON -/

section
variable {s : State} {k : Fin 32}

/-- The row of FREE_FLOW that is not OFF. -/
theorem freeFlowOn_row (hc : carries s k 12) (hoff : s.peek (orderBase k.val + 8) 1 ≠ 2) :
    (fun x => kindIs k 12 x && freeFlowAction x k ≠ 2) s = true := by
  show (kindIs k 12 s && decide (freeFlowAction s k ≠ 2)) = true
  rw [kindIs_of_carries hc, Bool.true_and]
  exact decide_eq_true hoff

theorem freeFlowOn_runs (hc : carries s k 12) (hoff : s.peek (orderBase k.val + 8) 1 ≠ 2) :
    exec (.freeFlowOn k) s = .next (settleOutputs s (freeFlowOn k (takeSlot k s))) :=
  visit_runs (isRow := fun x => kindIs k 12 x && freeFlowAction x k ≠ 2) hc.1 (freeFlowOn_row hc hoff)

theorem freeFlowOn_action (hok : s.ok) :
    freeFlowOn k (takeSlot k s) =
      if s.peek (orderBase k.val + 8) 1 = 1 then endOrder k .ok (startFreeFlow false (takeSlot k s))
      else endOrder k .badField (takeSlot k s) := by
  rw [freeFlowOn, freeFlowAction, payload_takeSlot k hok.1 (by decide)]
  rfl

theorem freeFlowOn_only (hok : s.ok) (hc : carries s k 12) (hoff : s.peek (orderBase k.val + 8) 1 ≠ 2) {r : Result}
    (h : freeFlowOn k (takeSlot k s) = endOrder k r (takeSlot k s)) :
    ∃ t, exec (.freeFlowOn k) s = .next t ∧ onlyOrder s t k r fun _ => False :=
  onlyOrder_of_refusal (isRow := fun x => kindIs k 12 x && freeFlowAction x k ≠ 2) hok.1 hc.1 (freeFlowOn_row hc hoff) h

end

end Sys2Proof.Machine
end

section
/-! PROOFS. FREE_FLOW ON: the statement (R73, R82, R91, R105, R111, R203). -/

namespace Sys2Proof.Machine

/-- An order taken, before free flow starts. -/
theorem takeSlot_flowBegun {s : State} (hok : s.ok) (k : Fin 32) {Q : Nat → Prop} (hQ : besideWriter Q)
    (hk : ∀ a, inOrderEnd k a → Q a) (hm : ∀ a, inGrantMarker s a → Q a) : FlowBegun s (takeSlot k s) Q 0#8 where
  ran := (takeSlot_begun hok k).ran.left rfl rfl hQ (fun _ _ => rfl) hk
  inStep := ⟨rfl, rfl, rfl, fun _ hx => (takeSlot_begun hok k).bytes _ fun h => inOrderEnd_cueTable h hx⟩
  lanes := rfl
  ports := rfl
  station := rfl
  online := rfl
  options := rfl
  waiting := rfl
  marks := hm

/-- A slot whose bytes stand reads as it did. -/
theorem order_of_bytes {u v : State} {k : Fin 32} (h : ∀ a, inField (orderBase k.val) 8 a → v.mem.byteAt a = u.mem.byteAt a) :
    orderState v k.val = orderState u k.val ∧ orderKind v k.val = orderKind u k.val :=
  ⟨Memory.read_congr fun a h1 h2 => h a ⟨h1, by omega⟩, Memory.read_congr fun a h1 h2 => h a ⟨by omega, by omega⟩⟩

theorem orderSlot_region {k : Fin 32} {a : Nat} (h : inField (orderBase k.val) 8 a) : 0x100 ≤ a ∧ a < 0x1100 := by
  have := k.isLt
  unfold inField orderBase at h
  omega

theorem inOrderEnd_apart {k o : Fin 32} (hne : o ≠ k) {a : Nat} (h : inField (orderBase k.val) 8 a) : ¬inOrderEnd o a := by
  have : o.val ≠ k.val := fun h => hne (Fin.ext h)
  unfold inOrderEnd inField orderBase at *
  omega

/-- The station word and the flags in an event that started free flow, as the rest of the state has them. -/
theorem stateMirror_flowing {s u e : State} (hs : s.freeFlow = false) (hrest : e.rest = u.rest)
    (hstation : u.station = s.station) (honline : u.online = s.online) (hon : u.freeFlow = true) :
    stateMirror s ≠ stateMirror e :=
  stateMirror_flows hs ((station_of_rest hrest).trans hstation) ((online_of_rest hrest).trans honline)
    ((freeFlow_of_rest hrest).trans hon)

/-- The end of an event leaves the order slots and what lies above the lane blocks. -/
theorem byteAt_settled_slot (s : State) {v : State} (hw : v.mem.wf) {a : Nat} (h : 0x100 ≤ a ∧ a < 0x1100) :
    (settleOutputs s v).mem.byteAt a = v.mem.byteAt a :=
  byteAt_settleOutputs_outside s hw (.inl (by unfold inField hdrState; omega)) fun m hm => by
    have := inLaneMirror_region hm
    omega

/-- What a waiting order shows stands with its slot, its lane's pending configuration and the orders that wait. -/
theorem waitingPended_congr {s v x : State} {o : LaneOrder} (h : waitingPended s v o) (hw : x.lanesWaiting = v.lanesWaiting)
    (hp : (x.lane o.lane).pendingConfig = (v.lane o.lane).pendingConfig)
    (hb : ∀ a, inField (orderBase o.slot.val) 8 a → x.mem.byteAt a = v.mem.byteAt a) : waitingPended s x o := by
  obtain ⟨hstate, -⟩ := order_of_bytes hb
  have hcode : x.peek (orderBase o.slot.val + 3) 1 = v.peek (orderBase o.slot.val + 3) 1 :=
    Memory.read_congr fun a h1 h2 => hb a ⟨by omega, by omega⟩
  rw [waitingPended, hw, hp, hstate, hcode]
  exact h

/-- A lane with the pending configuration it had, once the outputs settle. -/
theorem settled_asWaiting {s e v : State} {o : LaneOrder} (hl : ∀ n, e.lane n = v.lane n) (n : Fin 4) :
    let x := (settleOutputs s e).modLane o.lane fun l => { l with pendingConfig := (s.lane o.lane).pendingConfig }
    x.lane n = { (asWaiting o s v).lane n with lockPulse := (x.lane n).lockPulse } := by
  intro x
  by_cases h : n = o.lane
  · subst h
    rw [lane_modLane_same, asWaiting_lane, ← hl, settleOutputs_lane_eq]
  · rw [lane_modLane_other _ _ h, asWaiting_lane_other _ _ _ h, ← hl]
    exact settleOutputs_lane_eq s e n

/-- A state in which an order was taken, free flow is on and orders may wait no longer. -/
theorem eq_of_takenFlow {s t : State} {k : Fin 32} {l : List LaneOrder}
    (h : t.rest = ({ takeSlot k s with freeFlow := true, lanesWaiting := l } : State).rest) :
    t = { s with
            mem := t.mem, attn := t.attn, sweepNext := t.sweepNext, lanes := t.lanes, ports := t.ports
            journal := t.journal, freeFlow := true, lanesWaiting := t.lanesWaiting } := by
  have heq := eq_of_rest h
  have hsweep : t.sweepNext = slotAfter k := sweepNext_of_rest h
  have hwaiting : t.lanesWaiting = l := lanesWaiting_of_rest h
  rw [hsweep, hwaiting]
  exact heq

/-- The state word of a station that free flow took from QUIETING to QUIET. -/
theorem stateMirror_flowQuiet {s e : State} (hs : s.station = .quieting) (hoff : s.freeFlow = false)
    (he : e.station = .quiet) (honline : e.online = s.online) (hon : e.freeFlow = true) : stateMirror s ≠ stateMirror e := by
  rw [stateMirror, stateMirror, hs, hoff, he, honline, hon]
  cases s.online <;> decide

section
variable {s : State} {k : Fin 32} (hok : s.ok) (hoff : s.freeFlow = false) (hd : referralPortsDistinct s)
include hok hoff hd

/-- FREE_FLOW ON with the flag clear, quieting going on and no SET_LANE waiting for a lane PASSING. -/
theorem freeFlowOn_goesOn (hwait : ∀ o ∈ s.lanesWaiting, (s.lane o.lane).state.code ≠ 5) (hgoes : quietingGoesOn s) :
    let t := settleOutputs s (endOrder k .ok (startFreeFlow false (takeSlot k s)))
    orderEnded s t k .ok ∧ lanesFreed s t
      ∧ recorded s t (freeFlowAsks s false) ∧ attnRaised s t 1 ∧ t.peek hdrState 2 = stateMirror t
      ∧ t = { s with
                mem := t.mem, attn := t.attn, sweepNext := t.sweepNext, lanes := t.lanes, ports := t.ports
                journal := t.journal, freeFlow := true }
      ∧ keepsBytes s t (fun a => inOrderEnd k a ∨ inAppends s 5 a ∨ inField hdrState 2 a ∨ inGrantMarker s a
          ∨ ∃ n, inLaneMirror n a) := by
  have B := takeSlot_flowBegun hok k (besideWriter_freeFlowBytes s [k]) (fun a h => .inl ⟨k, List.mem_singleton_self k, h⟩)
    fun a h => .inr (.inr (.inl h))
  obtain ⟨F, hlow, hrest, R⟩ := B.goesOn false hd hoff hwait hgoes
  generalize startFreeFlow false (takeSlot k s) = v at *
  obtain ⟨htaken, hkind⟩ := order_of_bytes (k := k) fun a h => hlow a (by have := orderSlot_region h; omega)
    (by have := orderSlot_region h; omega)
  rw [orderState_takeSlot k hok.1] at htaken
  rw [orderKind_takeSlot k hok.1] at hkind
  have E := R.ended htaken (fun a h => .inl ⟨k, List.mem_singleton_self k, h⟩) .ok
  have herest : (endOrder k .ok v).rest = _ := (endOrder_rest ..).trans hrest
  obtain ⟨hrecorded, hattn, hmirror, hkeeps⟩ := freeFlow_shown E (stateMirror_flowing hoff herest rfl rfl rfl)
  refine ⟨orderEnded_settled R.wf htaken hkind (sweepNext_of_rest hrest) .ok, lanesFreed_of_freed F (B.openedPort false)
    (fun n => ?_) (fun p => ?_) fun slot h => markerFree_settled s E.wf ?_, hrecorded, hattn, hmirror, ?_, ?_⟩
  · rw [← lane_of_lanes (endOrder_lanes k .ok v)]
    exact settleOutputs_lane_eq s _ n
  · rw [settleOutputs_port, port_of_ports (endOrder_ports k .ok v)]
  · refine Eq.trans (Memory.read_congr fun a h1 _ => byteAt_endOrder k .ok R.wf fun hin => ?_) h
    have := inOrderEnd_region hin
    unfold passBase at h1
    omega
  · have heq := eq_of_rest ((settleOutputs_rest s _).trans herest)
    have hsweep := sweepNext_of_rest ((settleOutputs_rest s _).trans herest)
    rw [hsweep]
    exact heq
  · intro a ha
    exact hkeeps a fun h => ha (h.imp (fun ⟨_, hk, h⟩ => List.mem_singleton.mp hk ▸ h) id)

/-- FREE_FLOW ON with the flag clear, quieting going on and one SET_LANE waiting for a lane PASSING. -/
theorem freeFlowOn_waiting (hgoes : quietingGoesOn s) {o : LaneOrder} (hne : o.slot ≠ k)
    (hwaits : s.lanesWaiting.filter (fun x => (s.lane x.lane).state.code = 5) = [o])
    (hrole : (s.lane o.lane).config.role = .entry) (htakenO : orderState s o.slot = 2)
    (hstation : s.station = .running ∨ s.station = .quieting) :
    let t := settleOutputs s (endOrder k .ok (startFreeFlow false (takeSlot k s)))
    orderEnded s t k .ok ∧ waitingPended s t o
      ∧ lanesFreed s (t.modLane o.lane fun l => { l with pendingConfig := (s.lane o.lane).pendingConfig })
      ∧ recorded s t (freeFlowAsks s false) ∧ attnRaised s t 1 ∧ t.peek hdrState 2 = stateMirror t
      ∧ t = { s with
                mem := t.mem, attn := t.attn, sweepNext := t.sweepNext, lanes := t.lanes, ports := t.ports
                journal := t.journal, freeFlow := true, lanesWaiting := t.lanesWaiting }
      ∧ keepsBytes s t (fun a => inOrderEnd k a ∨ inOrderEnd o.slot a ∨ inAppends s 5 a ∨ inField hdrState 2 a
          ∨ inGrantMarker s a ∨ ∃ n, inLaneMirror n a) := by
  have hkQ (a : Nat) (h : inOrderEnd k a) : freeFlowBytes s [k, o.slot] a := .inl ⟨k, by simp, h⟩
  have hoQ (a : Nat) (h : inOrderEnd o.slot a) : freeFlowBytes s [k, o.slot] a := .inl ⟨o.slot, by simp, h⟩
  have B := takeSlot_flowBegun hok k (besideWriter_freeFlowBytes s [k, o.slot]) hkQ fun a h => .inr (.inr (.inl h))
  have htakenU : orderState (takeSlot k s) o.slot = 2 := by
    refine Eq.trans (Memory.read_congr fun a h1 h2 => (takeSlot_begun hok k).bytes a ?_) htakenO
    exact inOrderEnd_apart hne.symm ⟨h1, by omega⟩
  obtain ⟨F, hpended, hlow, hrest, R⟩ := B.goesOnWaiting false hd hoff hoQ hwaits hrole htakenU hstation hgoes
  generalize startFreeFlow false (takeSlot k s) = v at *
  obtain ⟨htaken, hkind⟩ := order_of_bytes (k := k) fun a h => hlow a (by have := orderSlot_region h; omega)
    (by have := orderSlot_region h; omega) (inOrderEnd_apart hne h)
  rw [orderState_takeSlot k hok.1] at htaken
  rw [orderKind_takeSlot k hok.1] at hkind
  have E := R.ended htaken hkQ .ok
  have herest : (endOrder k .ok v).rest = _ := (endOrder_rest ..).trans hrest
  obtain ⟨hrecorded, hattn, hmirror, hkeeps⟩ := freeFlow_shown E (stateMirror_flowing hoff herest rfl rfl rfl)
  have helane := lane_of_lanes (endOrder_lanes k .ok v)
  refine ⟨orderEnded_settled R.wf htaken hkind (sweepNext_of_rest hrest) .ok, waitingPended_congr hpended ?_ ?_ fun a h => ?_,
    lanesFreed_of_freed F (B.openedPort false) (settled_asWaiting helane) (fun p => ?_)
      fun slot h => markerFree_settled s E.wf ?_, hrecorded, hattn, hmirror, ?_, ?_⟩
  · exact lanesWaiting_of_rest ((settleOutputs_rest s _).trans (endOrder_rest ..))
  · rw [settleOutputs_lane_eq, helane]
  · exact (byteAt_settled_slot s E.wf (orderSlot_region h)).trans
      (byteAt_endOrder k .ok R.wf (inOrderEnd_apart hne.symm h))
  · rw [asWaiting_port, port_modLane, settleOutputs_port, port_of_ports (endOrder_ports k .ok v)]
  · refine Eq.trans (Memory.read_congr fun a h1 _ => byteAt_endOrder k .ok R.wf fun hin => ?_) h
    have := inOrderEnd_region hin
    unfold passBase at h1
    omega
  · exact eq_of_takenFlow ((settleOutputs_rest s _).trans herest)
  · intro a ha
    refine hkeeps a fun h => ha ?_
    rcases h with ⟨j, hj, h⟩ | h
    · rcases List.mem_pair.mp hj with rfl | rfl
      · exact .inl h
      · exact .inr (.inl h)
    · exact .inr (.inr h)

/-- FREE_FLOW ON with the flag clear and the last busy lanes of QUIETING freed. -/
theorem freeFlowOn_completes (hwait : ∀ o ∈ s.lanesWaiting, (s.lane o.lane).state.code ≠ 5) (hends : ¬quietingGoesOn s)
    (hlaw : lanesLaw s) :
    let t := settleOutputs s (endOrder k .ok (startFreeFlow false (takeSlot k s)))
    orderEnded s t k .ok
      ∧ quietCompleted s t
        (fun n => if (s.lane n).config.role = .entry ∧ (s.lane n).state ≠ .down ∧ (s.lane n).state ≠ .free
          then markedPartial (s.lane n).window else (s.lane n).window) s.port
      ∧ recorded s t (freeFlowAsks s false ++ [(false, quietRecord s)]) ∧ attnRaised s t 1
      ∧ t = { s with
                mem := t.mem, attn := t.attn, sweepNext := t.sweepNext, lanes := t.lanes, ports := t.ports
                journal := t.journal, station := .quiet, freeFlow := true }
      ∧ keepsBytes s t (fun a => inOrderEnd k a ∨ inAppends s 2 a ∨ inQuieting s a) := by
  have hquieting : s.station = .quieting := Decidable.byContradiction fun h => hends fun hq => absurd hq h
  have hkQ (a : Nat) (h : inOrderEnd k a) : freeQuietBytes s [k] a := .inl ⟨k, List.mem_singleton_self k, h⟩
  have B := takeSlot_flowBegun hok k (besideWriter_freeQuietBytes s [k]) hkQ fun a ⟨n, g, hg, _⟩ =>
    absurd hg ((quieting_holds hlaw hquieting n).1 g)
  obtain ⟨hrest, R, hlow, hcompleted⟩ := B.completes false hd hoff hwait hends hlaw
  generalize startFreeFlow false (takeSlot k s) = v at *
  obtain ⟨htaken, hkind⟩ := order_of_bytes (k := k) fun a h => hlow a (orderSlot_region h).1 (orderSlot_region h).2
  rw [orderState_takeSlot k hok.1] at htaken
  rw [orderKind_takeSlot k hok.1] at hkind
  have E := R.ended htaken hkQ .ok
  have herest : (endOrder k .ok v).rest = _ := (endOrder_rest ..).trans hrest
  obtain ⟨hrecorded, hattn, hkeeps⟩ := freeQuiet_shown hlaw hquieting E
  refine ⟨orderEnded_settled R.wf htaken hkind (sweepNext_of_rest hrest) .ok,
    hcompleted _ E.wf (endOrder_lanes ..) (endOrder_ports ..)
      (fun a ha => byteAt_endOrder k .ok R.wf fun h => ha (inOrderEnd_region h)) (station_of_rest herest) ?_,
    hrecorded, hattn, ?_, ?_⟩
  · exact stateMirror_flowQuiet hquieting hoff (station_of_rest herest) ((online_of_rest herest).trans rfl) (freeFlow_of_rest herest)
  · have heq := eq_of_rest ((settleOutputs_rest s _).trans herest)
    have hsweep := sweepNext_of_rest ((settleOutputs_rest s _).trans herest)
    rw [hsweep]
    exact heq
  · intro a ha
    exact hkeeps a fun h => ha (h.imp (fun ⟨_, hk, h⟩ => List.mem_singleton.mp hk ▸ h) id)

end

/-- Settles O40: by the action, the flag, the SET_LANE that waits for a lane PASSING, and whether quieting goes on. -/
theorem freeFlowOnFreesLanes : Obligations.FreeFlowOnFreesLanes := by
  intro s k hok hc hnotOff
  have haction := freeFlowOn_action (k := k) hok
  refine ⟨fun hne => freeFlowOn_only hok hc hnotOff (haction.trans (if_neg hne)), fun hon => ⟨fun hset => ?_, ?_, ?_⟩⟩
  · refine freeFlowOn_only hok hc hnotOff ((haction.trans (if_pos hon)).trans ?_)
    exact congrArg (endOrder k .ok) (if_pos hset)
  all_goals have hruns := freeFlowOn_runs hc hnotOff
  all_goals rw [haction, if_pos hon] at hruns
  · intro hoff hd hgoes o hwaits hrole htaken hstation
    have hne : o.slot ≠ k := by
      obtain ⟨-, hposted, -⟩ := (nextOrder_eq s k).mp hc.1
      rintro rfl
      exact absurd (hposted.symm.trans htaken) (by decide)
    exact ⟨_, hruns, freeFlowOn_waiting hok hoff hd hgoes hne hwaits hrole htaken hstation⟩
  · intro hoff hd hwait
    exact ⟨fun hgoes => ⟨_, hruns, freeFlowOn_goesOn hok hoff hd hwait hgoes⟩,
      fun hends hlaw => ⟨_, hruns, freeFlowOn_completes hok hoff hd hwait hends hlaw⟩⟩

end Sys2Proof.Machine
end

section
/-! PROOFS. EVACUATE and EVACUATE_LOW (R73, R82, R91, R105, R108, R109, R111, R185, R193). -/

namespace Sys2Proof.Machine

/-! ### What keeps the evacuation level -/

/-- The evacuation level and the pin's last sample stand. -/
structure KeepsLevel (s t : State) : Prop where
  level : t.evacuate = s.evacuate
  pin : t.evacuatePin = s.evacuatePin

theorem KeepsLevel.refl (s : State) : KeepsLevel s s := ⟨rfl, rfl⟩

theorem KeepsLevel.trans {s t u : State} (h : KeepsLevel s t) (k : KeepsLevel t u) : KeepsLevel s u :=
  ⟨k.level.trans h.level, k.pin.trans h.pin⟩

theorem KeepsLevel.of_rest {s t : State} (h : t.rest = s.rest) : KeepsLevel s t :=
  ⟨evacuate_of_rest h, (congrArg State.evacuatePin h : t.rest.evacuatePin = s.rest.evacuatePin)⟩

theorem KeepsLevel.foldl {α : Type} {f : State → α → State} (h : ∀ s x, KeepsLevel s (f s x)) (l : List α) (s : State) :
    KeepsLevel s (l.foldl f s) := by
  induction l generalizing s with
  | nil => exact .refl s
  | cons x l ih => exact (h s x).trans (ih (f s x))

theorem carrySetLane_keepsLevel (o : LaneOrder) (s : State) : KeepsLevel s (carrySetLane o s) := by
  have waits : KeepsLevel s { s with lanesWaiting := s.lanesWaiting ++ [o] } := ⟨rfl, rfl⟩
  unfold carrySetLane
  dsimp only
  repeat' split
  all_goals first | exact waits | exact .of_rest (by simp)

theorem runWaiting_keepsLevel (n : Fin 4) (s : State) : KeepsLevel s (runWaiting n s) :=
  KeepsLevel.trans (t := { s with lanesWaiting := s.lanesWaiting.filter (fun o => o.lane ≠ n) }) ⟨rfl, rfl⟩
    (KeepsLevel.foldl (fun s o => carrySetLane_keepsLevel o s) _ _)

theorem freeLane_keepsLevel (n : Fin 4) (s : State) : KeepsLevel s (freeLane n s) := by
  by_cases h : freesLane s n
  · have hfreed : KeepsLevel s (freed n s) := .of_rest (freed_kept n s).1
    cases hs : (s.lane n).state with
    | passing p =>
      rw [freeLane_passing h hs]
      exact hfreed.trans (runWaiting_keepsLevel n _)
    | _ =>
      rw [freeLane_frees h (by rw [hs]; simp [LaneState.code])]
      exact hfreed
  · rw [freeLane_stays h]
    exact .refl s

theorem quietIfIdle_keepsLevel (s : State) : KeepsLevel s (quietIfIdle s) := by
  unfold quietIfIdle
  split
  · exact KeepsLevel.trans (t := { s with station := .quiet }) ⟨rfl, rfl⟩ (.of_rest (completeQuieting_rest s))
  · exact .refl s

theorem startFreeFlow_keepsLevel (byEvacuate : Bool) (s : State) : KeepsLevel s (startFreeFlow byEvacuate s) := by
  cases hoff : s.freeFlow with
  | true =>
    rw [startFreeFlow, if_pos hoff]
    exact .refl s
  | false =>
    rw [startFreeFlow_opened hoff]
    have opened : KeepsLevel s (flowOpened byEvacuate s) :=
      KeepsLevel.trans (t := { s with freeFlow := true }) ⟨rfl, rfl⟩ (.of_rest (flowOpened_rest byEvacuate s))
    exact (opened.trans (KeepsLevel.foldl (fun s n => freeLane_keepsLevel n s) allFour _)).trans (quietIfIdle_keepsLevel _)

/-! ### The level asserted -/

/-- The pin sampled high after low. -/
def asserted (s : State) : State := { s with evacuate := true, evacuatePin := true }

theorem evacuate_runs {s : State} (h : s.evacuate = false) :
    exec .evacuate s =
      .next (settleOutputs s (if s.station = .starting then asserted s else startFreeFlow true (raise .evacuate (asserted s)))) := by
  show execEvacuate s = _
  unfold execEvacuate
  exact if_neg (by simp [h])

/-- RUN bit 3 shows the pin's last sample. -/
theorem run_evacuatePin {t : State} (h : t.evacuatePin = true) : (readRegister t .run).getLsbD 3 = true := by
  show (BitVec.ofNat 16 (runRegister t)).getLsbD 3 = true
  rw [runRegister, h]
  cases t.station <;> cases t.online <;> cases t.timeUnsetRefused <;> decide

theorem lockReleased_evacuate {t : State} (h : t.evacuate = true) (n : Fin 4) : lockReleased t n = true := by
  rw [lockReleased, h, Bool.true_or]

/-- At every level asserted the locks are released and RUN shows the pin. -/
theorem evacuate_releases {s : State} (h : s.evacuate = false) :
    ∃ t, exec .evacuate s = .next t ∧ t.evacuate = true ∧ (∀ n, lockReleased t n = true)
      ∧ (readRegister t .run).getLsbD 3 = true := by
  have kept : KeepsLevel (asserted s)
      (if s.station = .starting then asserted s else startFreeFlow true (raise .evacuate (asserted s))) := by
    split
    · exact .refl _
    · exact KeepsLevel.trans (t := raise .evacuate (asserted s)) ⟨rfl, rfl⟩ (startFreeFlow_keepsLevel true _)
  obtain ⟨hlevel, hpin⟩ := kept.trans (.of_rest (settleOutputs_rest s _))
  exact ⟨_, evacuate_runs h, hlevel, lockReleased_evacuate hlevel, run_evacuatePin hpin⟩

/-! ### Where no lane is moved -/

/-- Where lanes, ports and the station word stand, memory is as the event left it. -/
theorem settleOutputs_mem_unshown {s e : State} (hl : e.lanes = s.lanes) (hp : e.ports = s.ports)
    (hm : stateMirror s = stateMirror e) : (settleOutputs s e).mem = e.mem := by
  have hlane := lane_of_lanes hl
  have hport := port_of_ports hp
  have himage (n : Fin 4) : laneImage s n = laneImage e n := by simp only [laneImage, hlane, hport]
  have hwindow (n : Fin 4) : windowImage s n = windowImage e n := by simp only [windowImage, hlane]
  rw [settleOutputs_mem, if_pos hm]
  simp only [syncLane, himage, hwindow, syncWords_self]

/-- A state that differs from the one before the event in its evacuation level, the pin and attention, once its outputs
settle. -/
theorem settled_level {s : State} (level pin : Bool) (c : BitVec 8) :
    settleOutputs s { s with evacuate := level, evacuatePin := pin, attn := c } =
      { s with
        evacuate := level, evacuatePin := pin, attn := c
        lanes := (settleOutputs s { s with evacuate := level, evacuatePin := pin, attn := c }).lanes } := by
  have hmem : (settleOutputs s { s with evacuate := level, evacuatePin := pin, attn := c }).mem = s.mem :=
    settleOutputs_mem_unshown rfl rfl rfl
  refine (eq_of_rest (settleOutputs_rest s { s with evacuate := level, evacuatePin := pin, attn := c })).trans ?_
  rw [hmem, settleOutputs_attn, settleOutputs_ports, settleOutputs_journal]

/-- In STARTING, or with free flow on, the locks alone follow the level. -/
theorem evacuate_locks {s : State} (h : s.evacuate = false) (hstays : s.station = .starting ∨ s.freeFlow = true) :
    ∃ t, exec .evacuate s = .next t
      ∧ t = { s with
                evacuate := true, evacuatePin := true, lanes := t.lanes
                attn := if s.station = .starting then s.attn else s.attn ||| 128#8 }
      ∧ ∀ n, t.lane n = { s.lane n with lockPulse := pulseReleased s n } := by
  have hsame : (if s.station = .starting then asserted s else startFreeFlow true (raise .evacuate (asserted s))) =
      { s with
        evacuate := true, evacuatePin := true
        attn := if s.station = .starting then s.attn else s.attn ||| 128#8 } := by
    by_cases hs : s.station = .starting
    · rw [if_pos hs, if_pos hs]
      rfl
    · rw [if_neg hs, if_neg hs]
      exact if_pos (hstays.resolve_left hs)
  refine ⟨_, (evacuate_runs h).trans (congrArg (fun e => Host.Outcome.next (settleOutputs s e)) hsame), settled_level ..,
    fun n => ?_⟩
  exact (settleOutputs_lane ..).trans (drivePulse_released (lockReleased_evacuate rfl n) rfl rfl rfl)

/-! ### EVACUATE_LOW -/

theorem lockReleased_low {t : State} (h : t.evacuate = false) (n : Fin 4) :
    lockReleased t n = (decide ((t.lane n).state.code = 4) || decide ((t.lane n).state.code = 6)) := by
  rw [lockReleased, h, Bool.false_or]
  cases (t.lane n).state <;> rfl

/-- A lane whose lock an event engaged or left, and that is else as it was. -/
theorem drivePulse_engaged {s e : State} {n : Fin 4} (hl : e.lane n = s.lane n)
    (he : lockReleased e n = true → lockReleased s n = true) :
    drivePulse s e n = { s.lane n with
      lockPulse := if lockReleased s n = true ∧ lockReleased e n = false then none else (s.lane n).lockPulse } := by
  unfold drivePulse
  rw [hl]
  cases hs : lockReleased s n <;> cases ht : lockReleased e n
  · rfl
  · exact absurd ((he ht).symm.trans hs) (by decide)
  · rfl
  · rfl

theorem evacuateLow_engages (s : State) :
    ∃ t, exec .evacuateLow s = .next t
      ∧ t = { s with evacuate := false, evacuatePin := false, lanes := t.lanes }
      ∧ ∀ n, lockReleased t n = (decide ((s.lane n).state.code = 4) || decide ((s.lane n).state.code = 6))
        ∧ t.lane n = { s.lane n with
            lockPulse := if lockReleased s n = true ∧ lockReleased t n = false then none else (s.lane n).lockPulse } := by
  refine ⟨_, rfl, settled_level (s := s) false false s.attn, fun n => ?_⟩
  have hlock : lockReleased (settleOutputs s { s with evacuate := false, evacuatePin := false }) n =
      lockReleased { s with evacuate := false, evacuatePin := false } n := settled_lock ..
  have hlow := lockReleased_low (t := { s with evacuate := false, evacuatePin := false }) rfl n
  refine ⟨hlock.trans hlow, (settleOutputs_lane ..).trans ?_⟩
  rw [hlock]
  refine drivePulse_engaged rfl fun he => ?_
  rw [lockReleased, Bool.false_or] at he
  rw [lockReleased]
  exact Bool.or_eq_true_iff.mpr (.inr he)

end Sys2Proof.Machine
end

section
/-! PROOFS. EVACUATE starts free flow: the statement (R73, R82, R91, R105, R108, R109, R111, R185, R193). -/

namespace Sys2Proof.Machine

/-- EVACUATE raised, before free flow starts. -/
theorem evacuate_flowBegun {s : State} (hok : s.ok) {Q : Nat → Prop} (hQ : besideWriter Q)
    (hm : ∀ a, inGrantMarker s a → Q a) : FlowBegun s (raise .evacuate (asserted s)) Q 0x80#8 where
  ran := (Ran.start (t := asserted s) hok hQ hok.1 (fun _ _ => rfl) rfl rfl).amend (c := 0x80#8) hok.1 (fun _ _ => rfl) rfl
    rfl (by decide)
  inStep := ⟨rfl, rfl, rfl, fun _ _ => rfl⟩
  lanes := rfl
  ports := rfl
  station := rfl
  online := rfl
  options := rfl
  waiting := rfl
  marks := hm

section
variable {s : State} (hok : s.ok) (hoff : s.freeFlow = false) (hd : referralPortsDistinct s)
include hok hoff hd

/-- EVACUATE with the flag clear, quieting going on and no SET_LANE waiting for a lane PASSING. -/
theorem evacuate_goesOn (hwait : ∀ o ∈ s.lanesWaiting, (s.lane o.lane).state.code ≠ 5) (hgoes : quietingGoesOn s) :
    let t := settleOutputs s (startFreeFlow true (raise .evacuate (asserted s)))
    lanesFreed s t ∧ recorded s t (freeFlowAsks s true) ∧ attnRaised s t 0x80 ∧ t.peek hdrState 2 = stateMirror t
      ∧ t = { s with
                mem := t.mem, attn := t.attn, lanes := t.lanes, ports := t.ports, journal := t.journal
                evacuate := true, evacuatePin := true, freeFlow := true }
      ∧ keepsBytes s t (fun a => inAppends s 5 a ∨ inField hdrState 2 a ∨ inGrantMarker s a
          ∨ ∃ n, inLaneMirror n a) := by
  have B := evacuate_flowBegun hok (besideWriter_freeFlowBytes s []) fun a h => .inr (.inr (.inl h))
  obtain ⟨F, -, hrest, R⟩ := B.goesOn true hd hoff hwait hgoes
  generalize startFreeFlow true (raise .evacuate (asserted s)) = v at *
  obtain ⟨hrecorded, hattn, hmirror, hkeeps⟩ := freeFlow_shown R (stateMirror_flowing hoff hrest rfl rfl rfl)
  refine ⟨lanesFreed_of_freed F (B.openedPort true) (settleOutputs_lane_eq s v) (fun p => settleOutputs_port ..)
      fun slot h => markerFree_settled s R.wf h, hrecorded, hattn, hmirror,
    eq_of_rest ((settleOutputs_rest s v).trans hrest), fun a ha => hkeeps a fun h => ha ?_⟩
  exact h.resolve_left fun ⟨_, hk, _⟩ => absurd hk List.not_mem_nil

/-- EVACUATE with the flag clear, quieting going on and one SET_LANE waiting for a lane PASSING. -/
theorem evacuate_waiting (hgoes : quietingGoesOn s) {o : LaneOrder}
    (hwaits : s.lanesWaiting.filter (fun x => (s.lane x.lane).state.code = 5) = [o])
    (hrole : (s.lane o.lane).config.role = .entry) (htaken : orderState s o.slot = 2)
    (hstation : s.station = .running ∨ s.station = .quieting) :
    let t := settleOutputs s (startFreeFlow true (raise .evacuate (asserted s)))
    waitingPended s t o
      ∧ lanesFreed s (t.modLane o.lane fun l => { l with pendingConfig := (s.lane o.lane).pendingConfig })
      ∧ recorded s t (freeFlowAsks s true) ∧ attnRaised s t 0x81 ∧ t.peek hdrState 2 = stateMirror t
      ∧ t = { s with
                mem := t.mem, attn := t.attn, lanes := t.lanes, ports := t.ports, journal := t.journal
                evacuate := true, evacuatePin := true, freeFlow := true, lanesWaiting := t.lanesWaiting }
      ∧ keepsBytes s t (fun a => inOrderEnd o.slot a ∨ inAppends s 5 a ∨ inField hdrState 2 a ∨ inGrantMarker s a
          ∨ ∃ n, inLaneMirror n a) := by
  have hoQ (a : Nat) (h : inOrderEnd o.slot a) : freeFlowBytes s [o.slot] a := .inl ⟨o.slot, List.mem_singleton_self _, h⟩
  have B := evacuate_flowBegun hok (besideWriter_freeFlowBytes s [o.slot]) fun a h => .inr (.inr (.inl h))
  obtain ⟨F, hpended, -, hrest, R⟩ := B.goesOnWaiting true hd hoff hoQ hwaits hrole htaken hstation hgoes
  generalize startFreeFlow true (raise .evacuate (asserted s)) = v at *
  obtain ⟨hrecorded, hattn, hmirror, hkeeps⟩ := freeFlow_shown R (stateMirror_flowing hoff hrest rfl rfl rfl)
  refine ⟨waitingPended_congr hpended (lanesWaiting_of_rest (settleOutputs_rest s v)) (by rw [settleOutputs_lane_eq])
      fun a h => byteAt_settled_slot s R.wf (orderSlot_region h),
    lanesFreed_of_freed F (B.openedPort true) (settled_asWaiting fun _ => rfl)
      (fun p => by rw [asWaiting_port, port_modLane, settleOutputs_port]) fun slot h => markerFree_settled s R.wf h,
    hrecorded, hattn, hmirror, ?_, fun a ha => hkeeps a fun h => ha ?_⟩
  · rw [lanesWaiting_of_rest ((settleOutputs_rest s v).trans hrest)]
    exact eq_of_rest ((settleOutputs_rest s v).trans hrest)
  · exact h.imp (fun ⟨_, hk, h⟩ => List.mem_singleton.mp hk ▸ h) id

/-- EVACUATE with the flag clear and the last busy lanes of QUIETING freed. -/
theorem evacuate_completes (hwait : ∀ o ∈ s.lanesWaiting, (s.lane o.lane).state.code ≠ 5) (hends : ¬quietingGoesOn s)
    (hlaw : lanesLaw s) :
    let t := settleOutputs s (startFreeFlow true (raise .evacuate (asserted s)))
    quietCompleted s t
        (fun n => if (s.lane n).config.role = .entry ∧ (s.lane n).state ≠ .down ∧ (s.lane n).state ≠ .free
          then markedPartial (s.lane n).window else (s.lane n).window) s.port
      ∧ recorded s t (freeFlowAsks s true ++ [(false, quietRecord s)]) ∧ attnRaised s t 0x80
      ∧ t = { s with
                mem := t.mem, attn := t.attn, lanes := t.lanes, ports := t.ports, journal := t.journal
                evacuate := true, evacuatePin := true, freeFlow := true, station := .quiet }
      ∧ keepsBytes s t (fun a => inAppends s 2 a ∨ inQuieting s a) := by
  have hquieting : s.station = .quieting := Decidable.byContradiction fun h => hends fun hq => absurd hq h
  have B := evacuate_flowBegun hok (besideWriter_freeQuietBytes s []) fun a ⟨n, g, hg, _⟩ =>
    absurd hg ((quieting_holds hlaw hquieting n).1 g)
  obtain ⟨hrest, R, -, hcompleted⟩ := B.completes true hd hoff hwait hends hlaw
  generalize startFreeFlow true (raise .evacuate (asserted s)) = v at *
  obtain ⟨hrecorded, hattn, hkeeps⟩ := freeQuiet_shown hlaw hquieting R
  have hne := stateMirror_flowQuiet hquieting hoff (station_of_rest hrest) ((online_of_rest hrest).trans rfl)
    (freeFlow_of_rest hrest)
  refine ⟨hcompleted v R.wf rfl rfl (fun _ _ => rfl) (station_of_rest hrest) hne, hrecorded, hattn,
    eq_of_rest ((settleOutputs_rest s v).trans hrest), fun a ha => hkeeps a fun h => ha ?_⟩
  exact h.resolve_left fun ⟨_, hk, _⟩ => absurd hk List.not_mem_nil

end

/-- Settles O54: by the level before, whether free flow starts, the SET_LANE that waits for a lane PASSING, and whether
quieting goes on. -/
theorem evacuateReleasesLocks : Obligations.EvacuateReleasesLocks := by
  intro s hok
  refine ⟨fun hlevel => if_pos hlevel, fun hlow => ⟨evacuate_releases hlow, evacuate_locks hlow, ?_, ?_⟩,
    evacuateLow_engages s⟩
  all_goals
    intro hstarted hoff hd
    have hruns := evacuate_runs hlow
    rw [if_neg hstarted] at hruns
  · intro hgoes o hwaits hrole htaken hstation
    exact ⟨_, hruns, evacuate_waiting hok hoff hd hgoes hwaits hrole htaken hstation⟩
  · intro hwait
    exact ⟨fun hgoes => ⟨_, hruns, evacuate_goesOn hok hoff hd hwait hgoes⟩,
      fun hends hlaw => ⟨_, hruns, evacuate_completes hok hoff hd hwait hends hlaw⟩⟩

end Sys2Proof.Machine
end
